-- ==== Sys2Proof/Word.lean ====
section
/-!
DEFINITION. The word types of the part and the sparse tables in which the model keeps its large
address spaces. Registers are 64 bits wide (00_scope R8, R9); memory is held by bytes, little-endian (R6).
-/
namespace Sys2Proof

/-- A register or memory word of 64 bits (00_scope, Registers). -/
abbrev Word := BitVec 64

/-- A byte of memory. -/
abbrev Byte := BitVec 8

/-- A sparse table: key and value pairs. Its canonical form (`Tab.wf` in Machine/Ops.lean) has strictly
rising keys and no entry equal to what an unlisted key holds. -/
abbrev Tab (α : Type) := List (Nat × α)

end Sys2Proof
end

