-- ==== Sys2Proof/Syntax.lean ====
section
/-!
DEFINITION. The commands of the block: one constructor for each row of the table of operations and events
(spec/opcode_table.json; 95_what_each_step_holds). Operands name the instance (core, routing die, ring, port, ...)
and carry what the step receives from outside: written values, packets, readings, and the outcomes the manual
leaves to the environment (a self-test's result, a decoded flash page, a detected fault).
-/
namespace Sys2Proof

/-- The eight slots of R62. -/
inductive Slot where
  | ctl | mpA | mpB | mrA | mrB | mv | vx | dma
deriving DecidableEq, Repr

/-- A hardware fault found while a command executes (R430): a residue mismatch or a parity error of engine `e`,
0-3 MX0-MX3, 4 MV, 5 VX. -/
inductive EngFault where
  | residue (e : Fin 6)
  | parity (e : Fin 6)
deriving DecidableEq, Repr

/-- What one iteration of the serving loop brings a request (R363): its tenant and REQ, a code that ends it (0 none), the token
sampled with its PROB, and the RSET_IDs of the iteration's layers (R366). -/
structure IterOut where
  tenant : BitVec 13
  req : BitVec 32
  fail : BitVec 16
  token : BitVec 32
  prob : BitVec 32
  rsets : List Word
deriving DecidableEq, Repr

/-- What the flash yields for a page: the reference sets that decode it (0 the default, then the retry sets), the corrected
codewords, and whether every other page of its stripe decodes (R326). -/
structure PageRead where
  good : List Nat
  corrected : Nat
  stripe : Bool
deriving DecidableEq, Repr

/-- What the parameter pages of a Silo channel show at bring-up (R320): whether it passes, its targets, and its blocks,
pages per block and raw capacity in GB. -/
structure ChanProbe where
  pass : Bool
  targets : Nat
  blocks : Nat
  pages : Nat
  rawGb : Nat
deriving DecidableEq, Repr

/-- How a completion for a read of host memory came back (R421): with data, as UR or CA, or poisoned. -/
inductive CplStat where
  | data (bytes : List Byte)
  | refused
  | poisoned
deriving DecidableEq, Repr

/-- How a phase of bring-up ends (R477), with what the hardware found in it: 1 STANDBY (whether the root PLL locked, and whether
the boot ROM's self-test and fuse read passed), 2 FIRMWARE, 3 MAIN (no MAIN_PG within 500 ms), 4 DIES (the package-network
links, by routing die and link number, that did not train), 5 ALIGN (failed attempts, and the root-cycle index of ALIGN div 40),
6 SECTIONS, 7 MEMORY (stacks whose training failed, and what the Silo channels show). -/
inductive PhaseEnd where
  | standby (pll rom : Bool)
  | firmware
  | mainTimeout
  | dies (failed : List (Fin 4 × Fin 10))
  | align (fails : Fin 4) (lockCyc : BitVec 32)
  | sections
  | memory (lost : List (Fin 8)) (probes : List ChanProbe)
deriving DecidableEq, Repr

/-- Configuration-space registers by what they hold (R412, R414, R424), whatever their offsets: identity, revision and class,
Command, the base address of BAR0, BAR2 or BAR4 (0 to 2), MSI-X Message Control, Device Control and Device Control 2, the
power state, the Resizable BAR size of BAR4, and any other register by offset. -/
inductive CfgReg where
  | identity
  | revisionClass
  | command
  | bar (b : Fin 3)
  | msixControl
  | devControl
  | devControl2
  | powerState
  | bar4Size
  | other (offset : BitVec 12)
deriving DecidableEq, Repr

/-- How a request reached the management port (R483 to R485): its RSEQ or tag, the requests outstanding when it came, whether its
payload has the command's form with LEN counting it, and whether its transactions passed PEC and kept the binding. -/
structure MgtReq where
  rseq : BitVec 8
  waiting : Nat
  good : Bool
  bus : Bool
deriving DecidableEq, Repr

/-- An MCTP control request (R484). -/
inductive MctpReq where
  | setEid (eid : BitVec 8)
  | getEid
  | getVersion (type : BitVec 8)
  | getTypes
deriving DecidableEq, Repr

/-- An SPDM request (R455): of a certificate the slot and the range, of a challenge the slot, of measurements the index and
whether a signature is asked for, and any request that SE does not support. -/
inductive SpdmReq where
  | getVersion
  | getCapabilities
  | negotiateAlgorithms
  | getDigests
  | getCertificate (slot : BitVec 4) (off len : BitVec 16)
  | challenge (slot : BitVec 4) (nonce : List Byte)
  | getMeasurements (index : BitVec 8) (signed : Bool) (nonce : List Byte)
  | unsupported
deriving DecidableEq, Repr

/-- A step of a PLDM firmware update (R490, R491): the update begins, a component has been downloaded whole, all are verified, the
write of the next one to the boot flash ends, the update is cancelled. -/
inductive FwStep where
  | start
  | download (component : BitVec 5) (bytes : List Byte)
  | verify
  | apply (ok : Bool)
  | cancel
deriving DecidableEq, Repr

/-- What a PLDM event reports (R489): a black-box record by SEQ, or a die at or below its warning threshold. -/
inductive PEvent where
  | record (seq : BitVec 32)
  | crossing (die : Fin 40) (warm : Bool)
deriving DecidableEq, Repr

/-- A core-store address, local to its core (R65). -/
abbrev CsAddr := Nat


/-- One constructor per row of the table, in its order. -/
inductive Instr where
  /-- A NOP command issues in the CTL slot and does nothing for 1 fc (R71). -/
  | nop (p : Fin 144)
  /-- END issues once every earlier command has completed, then sets STATE DONE and CORE_IRQ.DONE (R71). -/
  | endList (p : Fin 144)
  /-- WAIT issues and holds the CTL slot, blocking later issue, while its counter condition is false (R82). -/
  | wait (p : Fin 144)
  /-- A WAIT still false after LIMIT_US fails with WAIT_TIMEOUT and halts the list (R82). -/
  | waitTimeout (p : Fin 144)
  /-- CTRSET sets an ADD counter's COUNT at its commit, or fails if the counter is in PREFIX mode (R83). -/
  | ctrset (p : Fin 144)
  /-- CTRCFG resets a counter, clears its PREFIX bitmap and sets its mode (R80). -/
  | ctrcfg (p : Fin 144)
  /-- MXM runs one matrix pass over a side's arrays and writes the accumulator shadows, committing in its last cycle (R72). -/
  | mxm (p : Fin 144) (flt : Option EngFault)
  /-- ACRD reads accumulators out, rounding them once to OUT_FMT, and optionally zeroes them (R49). -/
  | acrd (p : Fin 144) (flt : Option EngFault)
  /-- ACSP spills accumulators unjudged to 16-byte T96 slots in core store (R47). -/
  | acsp (p : Fin 144) (flt : Option EngFault)
  /-- ACFL fills accumulator shadows from T96 slots and checks their residues (R47). -/
  | acfl (p : Fin 144) (flt : Option EngFault)
  /-- ACZ zeroes whole accumulator rows and leaves them EMPTY (R103). -/
  | acz (p : Fin 144)
  /-- MVM streams a matrix from core store or HBM and computes an exact matrix-vector product, rounded once (R107). -/
  | mvm (p : Fin 144) (flt : Option EngFault)
  /-- VOP applies a VX function selected by FUNC over N elements (R112). -/
  | vop (p : Fin 144) (flt : Option EngFault)
  /-- MOVE hands a transfer to the package network as Vadal requests and advances DONECTR when the whole transfer has been applied (R267). -/
  | move (p : Fin 144)
  /-- A command reaches its completion cycle, having committed its output, and frees its slot (R64); `stall` is how many cycles HBM
  gave nothing while the strips that arrive only now were due (R84). -/
  | commandComplete (p : Fin 144) (slot : Slot) (stall : Nat)
  /-- CORE_CMD RUN starts the list at HEAD from IDLE (R511). -/
  | run (p : Fin 144)
  /-- CORE_CMD ARM enters ARMED for CORE_LAUNCH_ALM, or is refused with LAUNCH_PAST (R511). -/
  | arm (p : Fin 144)
  /-- An ARMED core starts its list at the first fc edge at which the almanac count reaches CORE_LAUNCH_ALM (R379). -/
  | listLaunch (p : Fin 144)
  /-- CORE_CMD KILL stops issue and discards uncommitted commands, or cancels an armed launch (R77). -/
  | kill (p : Fin 144)
  /-- The core reaches STATE KILLED, within 2,052 fc of the kill, once its committed commands have completed (R77). -/
  | killDone (p : Fin 144)
  /-- CORE_CMD RESUME restarts a halted or killed list at CORE_RESUME.PC and skips the marked commands (R78). -/
  | resume (p : Fin 144)
  /-- CORE_CMD CLEAR returns a DONE, HALTED or KILLED core to IDLE (R511). -/
  | clear (p : Fin 144)
  /-- A write to CORE_TAIL appends commands to the ring, or is discarded and sets RING_FULL (R85). -/
  | coreTailWrite (p : Fin 144) (v : Word)
  /-- A write to CORE_ARR[n] acts as CTRSET in ADD mode and is discarded in PREFIX mode (R93). -/
  | coreArrWrite (p : Fin 144) (ctr : Fin 1024) (v : Word)
  /-- Background scrubbing reads every core-store line once per PERIOD_MS and writes corrected data back (R69). -/
  | csScrub (p : Fin 144) (corrected : List CsAddr) (uncorrectable : List CsAddr)
  /-- A queued core-store row is copied to a spare row and remapped once the core is neither RUNNING nor ARMED (R436). -/
  | csRowRepair (p : Fin 144)
  /-- A write to WIN_TAIL[n] posts Winnower jobs, or is discarded under R147 (R123). -/
  | winTailWrite (k : Fin 4) (n : Fin 16) (v : Word)
  /-- A ROUTE job starts: it reads its descriptor and runs its load phase for bias and mask (R128). -/
  | route (k : Fin 4)
  /-- A SAMPLE job starts and samples one token for each row (R139). -/
  | sample (k : Fin 4)
  /-- At an item boundary the Winnower takes the next item by class and ring order and scores or samples it (R122). -/
  | winItem (k : Fin 4) (stall : Nat)
  /-- After its last item a job writes its load counts and completion record and advances DONE (R143). -/
  | winJobComplete (k : Fin 4) (n : Fin 16)
  /-- WIN_CMD.FLUSH ends a ring's running job at the next item boundary and completes its queued jobs with WIN_FLUSHED (R145). -/
  | winFlush (k : Fin 4) (n : Fin 16)
  /-- A write to THR_TAIL[n] posts Thresher step descriptors (R148). -/
  | thrTailWrite (k : Fin 4) (n : Fin 16) (v : Word)
  /-- A Thresher step starts intake, reading the step descriptor and its owned map entries (R150). -/
  | thrStep (k : Fin 4) (n : Fin 16)
  /-- A triple from the Winnower is checked and written to scratch or forwarded to its owner (R154). -/
  | triple (k : Fin 4)
  /-- A Winnower end marker is matched to its step and counted toward closing intake (R155). -/
  | endMarker (k : Fin 4)
  /-- A record forwarded by another Thresher is appended to the owner's step scratch (R154). -/
  | forwardedRecord (k : Fin 4)
  /-- An end-of-step token from a peer Thresher is checked against the step digest and its ABORT flag (R156). -/
  | endOfStepToken (k : Fin 4)
  /-- Missing end-of-step tokens at THR_STEP_LIMIT fail the step with THR_TIMEOUT (R157). -/
  | thrTimeout (k : Fin 4) (n : Fin 16)
  /-- With all tokens and records held, the owner sorts, cuts to capacity and places each expert's assignments, then writes its entries, drop counts and touch bits (R159). -/
  | cut (k : Fin 4) (n : Fin 16)
  /-- THR_CMD.FLUSH aborts the running step at its next phase boundary and completes the ring's queued steps with THR_FLUSHED (R175). -/
  | thrFlush (k : Fin 4) (n : Fin 16)
  /-- THR_CMD.TDCLR clears every per-tenant drop counter (R177). -/
  | thrTdclr (k : Fin 4)
  /-- After the cut the Sower sends a manifest to every valid replica of each owned expert (R164). -/
  | sowDispatch (k : Fin 4) (n : Fin 16)
  /-- Completion of the manifests to a node releases the rows destined for that node (R164). -/
  | manifestComplete (k : Fin 4)
  /-- The Sower sends the next eligible row as landing pieces, in class, round and bucket order (R166). -/
  | sowRowSend (k : Fin 4) (stallIn stallMan stallTb : Nat)
  /-- A received manifest is checked, then writes COUNT and the validity bits, pads slots and advances CTR and MANCTR (R169). -/
  | landManifest (i : Nat)
  /-- A received landing piece is checked and written, and the row's last piece applies one PREFIX arrival (R170). -/
  | landPiece (i : Nat)
  /-- Every 1 µs each tenant's token-rate bucket gains RATE units, up to its cap (R167). -/
  | sowTbTick (k : Fin 4)
  /-- A write to SOW_TB[t] sets the bucket's parameters and refills its level to BURST (R167). -/
  | sowTbWrite (k : Fin 4) (t : Fin 8192) (v : Word)
  /-- When all of its rows and manifests have completed, each die writes its step record and advances DONE (R173). -/
  | sowCompletion (k : Fin 4) (n : Fin 16)
  /-- SOW_CMD.FLUSH stops sending rows of the ring's step and fails it with SOW_FLUSHED (R174). -/
  | sowFlush (k : Fin 4) (n : Fin 16)
  /-- A write to GLN_RTAIL or GLN_CTAIL posts RETURN or COMBINE descriptors (R184). -/
  | glnTailWrite (k : Fin 4) (comb : Bool) (n : Fin 16) (v : Word)
  /-- A RETURN job activates, waits for MANCTR, and reads the segment counts and the segment table (R186). -/
  | returnJob (k : Fin 4) (n : Fin 16)
  /-- When READY_CTR reaches j+1, the slots of block j become ready to return (R186). -/
  | returnBlockReady (k : Fin 4) (i : Nat)
  /-- The Gleaner sends one ready return row, or a segment end marker, by class and round order (R187). -/
  | returnRowSend (k : Fin 4) (stall stallSrc : Nat)
  /-- A RETURN wait exceeding READY_LIMIT_US fails the job, which then sends ABORT markers (R188). -/
  | glnReadyTimeout (k : Fin 4) (i : Nat)
  /-- A COMBINE job takes a free combine context and clears its READY table (R190). -/
  | combineOpen (k : Fin 4)
  /-- A received return piece is checked, written to the return buffer and tracked (R191). -/
  | retPiece (i : Nat)
  /-- A received return end marker is checked against the completed rows, and an ABORT marker fails the job (R191). -/
  | retMarker (i : Nat)
  /-- A READY notice for an (expert, replica) pair is digest-checked and sets its READY bit (R191). -/
  | readyNotice (k : Fin 4)
  /-- At a token boundary the Gleaner combines the next ready token exactly and writes its row (R192). -/
  | combineToken (k : Fin 4) (stall stallSrc : Nat)
  /-- A COMBINE job with a token still uncombined at LIMIT_US fails on all four Gleaners (R195). -/
  | glnTimeout (k : Fin 4) (c : Fin 8)
  /-- GLN_CMD.FLUSH fails the return or combine ring's job with GLN_FLUSHED (R188). -/
  | glnFlush (k : Fin 4) (comb : Bool) (n : Fin 16)
  /-- A write to COL_TAIL[n] posts collective and group descriptors (R206). -/
  | colTailWrite (k : Fin 4) (n : Fin 16) (v : Word)
  /-- A GROUP open reads the group table, sets RANK, SIZE and NEXT_SEQ and computes the group digest (R204). -/
  | groupOpen (n : Fin 16)
  /-- A GROUP close closes the group context, or fails with COLL_GROUP (R204). -/
  | groupClose (n : Fin 16)
  /-- A collective leaves QUEUED, takes SEQ and EPOCH, forms its digest and sends its OPEN vote (R214). -/
  | collOpening
  /-- The combine point counts an OPEN vote and emits GO or a mismatch ABORT (R215). -/
  | openVote (i : Nat)
  /-- The combine point counts a CLOSE vote and emits COMMIT at P votes (R215). -/
  | closeVote (i : Nat)
  /-- An ABORT vote at the combine point emits ABORT with its code unless a final result was already emitted (R215). -/
  | abortVote (i : Nat)
  /-- A received GO moves the collective to RUNNING (R214). -/
  | go (i : Nat)
  /-- An anchor, lane, total, value or piece packet of a collective is combined, staged or forwarded (R218). -/
  | collData (i : Nat)
  /-- A switch result for a swath phase is checked for tags, width and contributor count (R221). -/
  | switchResult (i : Nat)
  /-- A NOCTX reply schedules the swath phase to be sent again (R221). -/
  | noctx (i : Nat)
  /-- After RETRY_US the engine sends the swath's phase again (R221). -/
  | noctxRetry (c : Fin 16) (i : Nat)
  /-- An engine completes its swaths or pieces, and when all four are READY engine 0 sends CLOSE (R214). -/
  | collReady (c : Fin 16) (k : Fin 4)
  /-- A received COMMIT moves the collective to COMMITTING and starts the output writes (R224). -/
  | commit (i : Nat)
  /-- The outputs are written, and the collective ends with its record and DONE (R224). -/
  | commitDone (c : Fin 16)
  /-- A received ABORT result ends the collective, or is held in the group context if it is still QUEUED (R215). -/
  | abortResult (i : Nat)
  /-- At LIMIT_US without a final result the member votes ABORT with COLL_TIMEOUT (R217). -/
  | collDeadline (c : Fin 16)
  /-- After GRACE_US the collective ends with COLL_TIMEOUT, and INDOUBT if the member had sent CLOSE (R217). -/
  | collGraceExpiry (c : Fin 16)
  /-- COL_CMD.FLUSH makes the ring's collective vote ABORT with cause COLL_FLUSHED (R216). -/
  | colFlush (k : Fin 4) (n : Fin 16)
  /-- A write to VL_CTRL.ENABLE enables a port into training, or sends BYE and enters DISABLED (R245). -/
  | portEnable (n : Fin 19) (v : Word)
  /-- A sampled change of MLn_PRSNT_N updates VL_STATE.PRSNT (R252). -/
  | prsntChange (n : Fin 15) (asserted : Bool)
  /-- PRSNT_N asserted for 1 ms moves an ABSENT port to TRAINING (R245). -/
  | prsntSettled (n : Fin 15)
  /-- Lane training reaches at least the narrowest width in both directions, and the port enters HELLO (R245). -/
  | trainingDone (n : Fin 19) (tx rx : List Nat)
  /-- Training not done by LIMIT_MS takes the port DOWN with LINK_TRAIN (R245). -/
  | trainingLimit (n : Fin 19)
  /-- A received HELLO block is checked for identity and round trip, and the port may go UP (R246). -/
  | hello (n : Fin 19) (node : BitVec 18) (port : BitVec 5) (kind : BitVec 1) (plane : BitVec 2) (seen : Bool) (credN credX : BitVec 24) (ts echo : BitVec 32) (hold : Nat)
  /-- Every 1 µs in HELLO the port sends a HELLO block (R246). -/
  | helloTick (n : Fin 19)
  /-- A switch ADV block updates COL_RCTX, or zeroes it if the block is malformed (R247). -/
  | adv (n : Fin 19) (units : BitVec 13) (cnt : BitVec 16) (caps : BitVec 5)
  /-- A received BYE marks a following loss of the port as PLANNED (R253). -/
  | bye (n : Fin 19)
  /-- A whole received frame is CRC-checked and accepted, discarded as a duplicate, or answered with NAK (R241). -/
  | frame (n : Fin 19) (x : Bool) (seq : BitVec 16) (len : BitVec 12) (bs : List Byte) (x2 : Bool) (seq2 : BitVec 16) (crc : BitVec 32)
  /-- A received ACK block frees acknowledged frames and returns credits (R241). -/
  | linkAck (n : Fin 19) (an ax : BitVec 16) (cn cx : BitVec 24)
  /-- Every 128 ns each direction sends an ACK block (R242). -/
  | ackTick (n : Fin 19)
  /-- A received NAK makes the transmitter replay the channel's unacknowledged frames from SEQ (R242). -/
  | nak (n : Fin 19) (x : Bool) (seq : BitVec 16)
  /-- A lane yields 8 consecutive bad codewords and is declared lost, and a LANEMAP is requested (R248). -/
  | laneLoss (n : Fin 19) (lane : Fin 9)
  /-- At each 1 ms period lanes over UNCORR_MAX are declared lost, and laser input power is measured (R248). -/
  | laneErrorPeriod (n : Fin 19) (errs : List (Fin 9 × Nat × Nat)) (pwr : List (Fin 9 × Nat))
  /-- A received LANEMAP makes the transmitter switch to the new map at its next codeword with MAPSW (R249). -/
  | lanemap (n : Fin 19) (mapseq : BitVec 4) (map : BitVec 36) (width : BitVec 4)
  /-- Every 256 ns without the matching MAPSW the receiver repeats its LANEMAP (R249). -/
  | lanemapRepeat (n : Fin 19)
  /-- A received MAPSW switches the receiver to the new lane map (R249). -/
  | mapsw (n : Fin 19) (mapseq : BitVec 4)
  /-- A TRAIN block starts or ends background retraining of one lost lane (R251). -/
  | train (n : Fin 19) (lane : Fin 9) (op : Fin 3)
  /-- A retrained lane passes its soak and rejoins as a data lane or the spare, or fails and is retried (R251). -/
  | retrainSoakEnd (n : Fin 19) (lane : Fin 9) (pass : Bool)
  /-- A frame unacknowledged at LIMIT_NS takes the port down with LINK_REPLAY (R244). -/
  | ackLimitExpiry (n : Fin 19)
  /-- No valid block for 1 µs takes the port down with LINK_SILENT (R244). -/
  | linkSilent (n : Fin 19)
  /-- The cause of a port loss is decided as PLANNED, ABSENT or FAULT, and a FAULT writes a record and issues a notice (R253). -/
  | lossCause (n : Fin 19)
  /-- After HOLD_MS in DOWN the port retrains, or enters ABSENT (R245). -/
  | holdExpiry (n : Fin 19)
  /-- A received LOAD request is deduplicated, checked and read, and a LOAD_RSP is sent (R275). -/
  | load (i : Nat)
  /-- A received STORE is deduplicated, checked and applied, or held under FLAG (R273). -/
  | store (i : Nat)
  /-- A received FETCH_ADD atomic is performed indivisibly and returns the old value (R276). -/
  | fetchAdd (i : Nat)
  /-- A received CAS atomic compares and swaps indivisibly and returns the old value (R276). -/
  | cas (i : Nat)
  /-- A received TALLY_ADD adds a T96 slot exactly after residue and poison checks (R276). -/
  | tallyAdd (i : Nat)
  /-- A received LOAD response completes the load and writes its data or the error value (R275). -/
  | loadRsp (i : Nat)
  /-- A received atomic response completes the atomic and frees its replay entry (R277). -/
  | atomicRsp (i : Nat)
  /-- A received transaction ACK completes acknowledged packets through HORIZON and SACK (R271). -/
  | vtAck (i : Nat)
  /-- A received NACK completes a refused request, or schedules a BUSY resend (R273). -/
  | nack (i : Nat)
  /-- A received CLOSE retires the receive context once every lower PSN has been applied (R270). -/
  | close (i : Nat)
  /-- A received notice is authenticated, then updates the dead-element table and resends or stops traffic (R289). -/
  | notice (i : Nat)
  /-- 1 µs after a notice is issued it is sent a second time (R288). -/
  | noticeRepeat
  /-- A packet for another node of the board is forwarded once on the DIRECT port, or dropped (R280). -/
  | packetRelay (i : Nat)
  /-- A FLAG_G packet is sent once every earlier packet of its source stream has completed (R274). -/
  | flagGRelease (k : Fin 4)
  /-- A sequenced packet unanswered at RTO_US is resent with RETX under the current epoch (R272). -/
  | rtoResend (k : Fin 4) (node psn : Nat)
  /-- A request expiring at TIMEOUT_US fails the pair's requests, closes the context and is recorded under suppression (R281). -/
  | requestTimeout (k : Fin 4) (node : Nat)
  /-- A pair idle for IDLE_US with nothing outstanding sends CLOSE (R270). -/
  | contextIdle (k : Fin 4) (node : Nat)
  /-- The old route epoch retires when its in-flight count reaches zero, and its stragglers are resent (R284). -/
  | epochRetire
  /-- At the end of the headland window the old epoch retires, and its unacknowledged packets are resent (R284). -/
  | headlandEnd
  /-- A suppression entry closes after HOLD_MS, and HM writes its summary record (R290). -/
  | suppressHoldExpiry (k : Fin 4) (e : Fin 64)
  /-- A VT_OP_CMD write of KIND LOAD sends an 8-byte load from an operation slot (R268). -/
  | opLoad (k : Fin 4) (sl : Fin 16) (v : Word)
  /-- A VT_OP_CMD write of KIND STORE sends an 8-byte store from an operation slot (R268). -/
  | opStore (k : Fin 4) (sl : Fin 16) (v : Word)
  /-- A VT_OP_CMD write of KIND ATOMIC sends an atomic from an operation slot (R268). -/
  | opAtomic (k : Fin 4) (sl : Fin 16) (v : Word)
  /-- An operation slot's request completes, setting DONE, STATUS, RES0 and RES1 (R268). -/
  | opComplete (k : Fin 4) (sl : Fin 16)
  /-- A write to TIER_TAIL[n] posts tier command descriptors (R304). -/
  | tierTailWrite (k : Fin 4) (n : Fin 16) (v : Word)
  /-- ALLOC creates a KV, CKPT or SCRATCH block, charging quota and reserving an extent (R305). -/
  | alloc (k : Fin 4) (n : Fin 16)
  /-- FREE drains and releases a block, credits its quotas and advances its GEN (R305). -/
  | free (k : Fin 4) (n : Fin 16)
  /-- FETCH reads a block's units from the Silo into VACANT frames, decrypting WEIGHT shards (R305). -/
  | fetch (k : Fin 4) (n : Fin 16)
  /-- WRITEBACK writes a resident block's dirty units to the Silo in ascending order (R307). -/
  | writeback (k : Fin 4) (n : Fin 16)
  /-- EVICT makes a block's frames EVICTING in one rc and starts draining (R308). -/
  | evict (k : Fin 4) (n : Fin 16)
  /-- When INFLIGHT is zero in every frame, the eviction writes back the dirty units and frees the frames (R308). -/
  | evictDrainDone (k : Fin 4) (n : Fin 16) (stall : Nat)
  /-- PIN raises a resident block's pin count (R305). -/
  | pin (k : Fin 4) (n : Fin 16)
  /-- UNPIN lowers a resident block's pin count (R305). -/
  | unpin (k : Fin 4) (n : Fin 16)
  /-- The Silo reports a unit written once its stripes are programmed with parity, and updates the page map (R325). -/
  | siloUnitWritten (k : Fin 4) (n : Fin 16)
  /-- Every 1 ms each tenant's fetch budget gains RATE units, up to BURST (R309). -/
  | fetchBudgetTick
  /-- A write to TIER_FB[t] sets the budget and refills its level to BURST (R318). -/
  | tierFbWrite (tn : Fin 8192) (v : Word)
  /-- TIER_CMD.FLUSH completes a ring's unstarted commands with TIER_FLUSHED (R318). -/
  | tierFlush (k : Fin 4) (n : Fin 16)
  /-- The controller issues per-bank refresh at the intervals that HBM4 requires for the stack temperature (R297). -/
  | hbmRefresh (j : Fin 8) (temp : BitVec 8) (hot : Bool)
  /-- A due scrub read of an HBM unit corrects or poisons it (R297). -/
  | hbmScrub (j : Fin 8) (corrected uncorrectable : List (Fin 8))
  /-- A failing HBM row is copied to a soft post-package-repair row and listed for hard repair (R437). -/
  | hbmRowRepair (j : Fin 8) (row : Fin 33554432) (spare : Bool)
  /-- Every 12,800 rc each resource starts a new reservation window with fresh allowances (R312). -/
  | rsvWindow
  /-- A tier command that needs the Silo is granted a fetch slot by class and ring order (R331). -/
  | slotGrant
  /-- A page read completes and is decoded, or retried, or rebuilt from its stripe (R326). -/
  | pageRead (k : Fin 4) (n : Fin 16) (r : PageRead) (rc stall : Nat)
  /-- A page program completes into an open stripe, and a failure retires the block (R325). -/
  | pageProgram (k : Fin 4) (n : Fin 16) (ok : Bool) (rc stall : Nat)
  /-- A block erase completes, and a failure retires the block (R328). -/
  | blockErase (band : Nat) (ch : Fin 32) (ok : Bool)
  /-- A block whose read counter passes THRESH has its valid pages rewritten (R327). -/
  | readDisturbRewrite (band : Nat) (ch : Fin 32)
  /-- An erase-count gap above DELTA moves the data of the less-worn block and frees it (R328). -/
  | wearLevel (band : Nat) (ch : Fin 32)
  /-- A channel retiring BLOCKS blocks within an hour becomes FAILED, and a second failure makes the Silo read-only (R329). -/
  | channelFail (c : Fin 32)
  /-- An LC fetch still running at LIMIT_US raises SILO_LC_LATE (R333). -/
  | siloLcLate (k : Fin 4) (n : Fin 16)
  /-- TIER_MODEL_CMD LOAD starts VERIFY, or fails with LOAD_STATE (R341). -/
  | modelLoad (restage : Bool)
  /-- The image tables have been read, the signature and key are checked, and admission is decided (R341). -/
  | modelVerify
  /-- A shard has been read from the source, its tag checked, and its ciphertext staged to the Silo (R343). -/
  | modelStage
  /-- The hinted blocks are fetched and pinned and the handle table is written, so the model becomes RESIDENT (R344). -/
  | modelPlace (reads : List PageRead)
  /-- TIER_MODEL_CMD UNLOAD releases the pins, frees and zeroes the WEIGHT blocks and erases the key (R349). -/
  | modelUnload (keep : Bool)
  /-- TIER_MODEL_CMD ABORT ends the load at the next shard boundary and undoes it (R341). -/
  | modelAbort
  /-- A write to doorbell offset 0 stores QTAIL and sets the tenant's pending bit (R419). -/
  | doorbellQtail (tn : Fin 8192) (off : Fin 4096) (width : Nat) (poisoned : Bool) (v : Word)
  /-- A write to doorbell offset 8 stores OHEAD and sets the tenant's pending bit (R419). -/
  | doorbellOhead (tn : Fin 8192) (off : Fin 4096) (width : Nat) (poisoned : Bool) (v : Word)
  /-- Die firmware starts an iteration and admits requests to fill the batch (R362). -/
  | servingIteration (n : Fin 16) (outs : List IterOut)
  /-- A tenant set to DRAINING completes its admitted requests, ends its queued ones and is closed (R358). -/
  | tenantDraining (tn : Fin 8192)
  /-- Die firmware kills a BE list and runs an LC list on the core (R369). -/
  | preempt (p : Fin 144) (base size tail : Word)
  /-- An ALM_SYNC_N falling edge is accepted or ignored, and steps or slews the almanac counter (R375). -/
  | almSyncEdge
  /-- An expected sync edge not accepted in time is counted as missed and moves the counter to HOLDOVER or FREE (R375). -/
  | missedEdge
  /-- A write to ALM_NEXT stores the next edge's count and starts or restarts acquisition (R376). -/
  | almNextWrite (v : Word)
  /-- A write to ALM_SYNC.EN enters ACQUIRE or returns the counter to FREE (R376). -/
  | almSyncWrite (v : Word)
  /-- ALM_MODE_CMD ANNOUNCE opens a mode change for a count and latches its guard and window (R391). -/
  | announce (epoch : BitVec 8)
  /-- ALM_MODE_CMD STAGE stages the pending AMEND, or an epoch-only change (R512). -/
  | stage
  /-- ALM_MODE_CMD CANCEL drops a pending change before its guard (R391). -/
  | modeCancel
  /-- The count minus the guard arriving while ANNOUNCED makes the change LATE and discards it (R391). -/
  | guardDeadline
  /-- At ALM_MODE_COUNT the epoch advances and the staged sections take effect (R391). -/
  | modeApply
  /-- After WIN_US the mode window closes and PSTATE returns to NONE (R391). -/
  | modeWindowEnd
  /-- A throttle event logs its record and then gates whole cycles of the named dies (R388). -/
  | throttleOpen (cause : Fin 4) (dies : List (Fin 40)) (duty : Fin 257)
  /-- A throttle event closes when every duty is 0, and its END is written (R389). -/
  | throttleClose
  /-- PCI_IMG_CMD PRESENT reads an AMEND image from the host (R422). -/
  | present
  /-- A read image is checked whole, and the result is recorded and held as the pending AMEND (R405). -/
  | imageCheck
  /-- A BAR0 access reaches a register through an aperture, or the MSI-X table (R415). -/
  | bar0Access (off : BitVec 26) (width : Nat) (v : Option Word)
  /-- A BAR4 read of HBM is key-checked and returns data or error values (R416). -/
  | bar4Read (x : BitVec 36) (n : Fin 4097)
  /-- A BAR4 write to HBM is key-checked and applied, or discarded (R416). -/
  | bar4Write (x : BitVec 36) (bytes : List (Option Byte)) (poisoned : Bool)
  /-- A write to PCI_BAR4.BASE moves the HBM window, or is discarded (R416). -/
  | bar4BaseWrite (v : Word)
  /-- A PCIe configuration-space access is served (R412). -/
  | configAccess (r : CfgReg) (v : Option Word)
  /-- A received AtomicOp request is answered with Unsupported Request (R413). -/
  | pcieAtomicop
  /-- A write to PCI_MSIX_TRIG raises a vector, which sends its message or sets its pending bit (R420). -/
  | msixTrig (v : Word)
  /-- A completion for the part's host read delivers data, or fails the transfer (R421). -/
  | hostReadCompletion (model : Bool) (c : CplStat)
  /-- A host read past its Completion Timeout fails the transfer with PCI_CTO (R421). -/
  | completionTimeout (model : Bool)
  /-- A Function Level Reset resets the host-port state and fails transfers in flight (R424). -/
  | flr
  /-- A Hot Reset or link disable resets the host port as FLR does (R424). -/
  | hotReset
  /-- Assertion of PERST_N resets the host port alone, which retrains on deassertion (R424). -/
  | perstN (asserted : Bool)
  /-- Loss of the PCIe link fails host transfers and records PCI_LINK_DOWN (R424). -/
  | pcieLinkDown
  /-- MGT_FENCE_CMD LEVEL 1 self-tests and releases a fenced engine, or is refused (R434). -/
  | fenceReleaseEngine (die : BitVec 6) (sub : BitVec 10)
  /-- MGT_FENCE_CMD LEVEL 2 self-tests and releases a fenced core, or is refused (R434). -/
  | fenceReleaseCore (die : BitVec 6) (sub : BitVec 10)
  /-- MGT_FENCE_CMD LEVEL 3 resets, aligns and brings up a fenced die, or is refused (R434). -/
  | fenceReleaseDie (die : BitVec 6) (sub : BitVec 10)
  /-- A fence release's self-test ends, and MGT_FENCE_STAT shows pass or fail (R434). -/
  | fenceReleaseDone (pass : Bool)
  /-- A write to MGT_SUBST requests a fallow substitution, held until both cores stop (R438). -/
  | substitute (phys : BitVec 8)
  /-- With both cores stopped, the fallow core is self-tested (R438). -/
  | substitutionStart
  /-- The self-test ends, and the logical index and fallow flags are exchanged in one cycle and SUBST_DONE is written (R438). -/
  | substitutionComplete (pass : Bool)
  /-- MGT_BB_CMD UNFREEZE resumes black-box writing after a copy or copy failure (R447). -/
  | unfreeze
  /-- The frozen ring's copy to a Silo slot completes or fails (R446). -/
  | bbCopyDone (ok : Bool)
  /-- A package-network flit failing parity is replayed, or its link is declared failed and fenced (R433). -/
  | pnetParityFail (k : Fin 4) (n : Fin 10) (again : Bool)
  /-- Both control cores of a die past MGT_WDOG fence the die or the part (R430). -/
  | watchdogExpiry (die : Fin 40)
  /-- A die's forwarded clock missing for 64 root cycles fences the die or the part (R430). -/
  | clockLoss (die : Fin 40)
  /-- A security sensor fires and the part responds at the applied alarm level (R461). -/
  | sensorFire (sensors : List (Fin 4))
  /-- A request for TAP debug access is granted or ignored by mode and KEYSTATE (R463). -/
  | jtagDebugRequest
  /-- Each 1 µs power sample is checked against the caps, and duties are corrected (R469). -/
  | powerSample (total mean : BitVec 16) (dies : List (BitVec 16)) (margin : Bool)
  /-- 9,990 µs into an excursion the controller gates to end it (R469). -/
  | excursionDeadline
  /-- 1 ms without a sample above SUST ends the excursion and starts the hold-off (R469). -/
  | excursionEnd
  /-- 90 ms after an excursion the hold-off ends (R469). -/
  | holdOffEnd
  /-- Each 1 ms temperature report adjusts thermal gating, and a trip starts the trip sequence (R472). -/
  | tempSample (die : Fin 40) (temp : BitVec 8)
  /-- Each 1 µs rail check, and a main rail out of band for 10 µs, is a power trip (R467). -/
  | railMonitor (r : Fin 12) (mv amps : BitVec 16) (std : Bool)
  /-- After the black-box copy or 60 ms, the part asserts PWR_FAULT_N and releases MAIN_EN (R473). -/
  | tripPowerOff
  /-- A change of MAIN_PG advances bring-up, or is a power trip while MAIN_EN is driven (R468). -/
  | mainPgChange (asserted : Bool)
  /-- PWR_CMD DOWN runs the planned power-down sequence (R478). -/
  | pwrCmdDown (v : Word)
  /-- A write to PWR_MGT_DUTY opens a cause-4 throttle event on the named dies (R481). -/
  | pwrMgtDutyWrite (v : Word)
  /-- Root-PLL loss of lock fences the part, or is retried once during bring-up (R475). -/
  | pllLockLoss
  /-- Release of STBY_POR_N cold-resets the part and starts the boot ROM (R476). -/
  | stbyPorN
  /-- RESET_N runs the BYE sequence and enters reset 3 µs after its edge (R476). -/
  | resetN
  /-- TRST_N resets the JTAG TAP alone (R476). -/
  | trstN
  /-- A bring-up phase ends and the next begins, or bring-up stops with the phase's code (R477). -/
  | bringUpPhase (e : PhaseEnd)
  /-- Every 1 ms Renrel assembles and publishes a telemetry frame (R487). -/
  | telemetryFrame (skipped : Bool)
  /-- A dynamic address assigned by ENTDAA puts the management port in I3C mode (R483). -/
  | entdaa (addr : BitVec 7)
  /-- With no dynamic address 100 ms after phase 2, the port enters SMBus mode (R483). -/
  | smbusFallback (addr : BitVec 7)
  /-- An MCTP control message sets or reports the endpoint ID and versions (R484). -/
  | mctpControl (q : MgtReq) (r : MctpReq)
  /-- An SPDM request is answered with version, certificate, challenge or measurement data (R455). -/
  | spdmRequest (q : MgtReq) (r : SpdmReq)
  /-- A PLDM sensor read returns the value held in the latest frame (R488). -/
  | pldmSensorRead (q : MgtReq) (id : BitVec 16)
  /-- Renrel sends a PLDM event message, or queues it (R489). -/
  | platformEvent (e : PEvent) (delivered : Bool)
  /-- A PLDM firmware update verifies components, then writes them to boot flash (R491). -/
  | pldmFwUpdate (q : MgtReq) (f : FwStep)
  /-- Renrel GET_ID returns MGT_ID, SEC_ID and PCI_ID (R486). -/
  | getId (q : MgtReq)
  /-- Renrel GET_STATUS returns the power, security, configuration, almanac and update status (R486). -/
  | getStatus (q : MgtReq)
  /-- Renrel READ_REG returns N register words (R486). -/
  | readReg (q : MgtReq) (addr : Word) (n : BitVec 16)
  /-- Renrel WRITE_REG performs one register write (R486). -/
  | writeReg (q : MgtReq) (addr v : Word)
  /-- Renrel TELEM_READ returns the latest complete telemetry frame (R486). -/
  | telemRead (q : MgtReq)
  /-- Renrel BB_READ returns black-box records from SEQ onward (R486). -/
  | bbRead (q : MgtReq) (seq : BitVec 32) (n : BitVec 8)
  /-- Renrel BB_SLOT_READ returns the header and records of a Silo copy slot (R486). -/
  | bbSlotRead (q : MgtReq) (slot : BitVec 8) (first : BitVec 32) (n : BitVec 8)
  /-- Renrel BB_UNFREEZE acts as MGT_BB_CMD.UNFREEZE (R486). -/
  | bbUnfreeze (q : MgtReq)
  /-- Renrel IMG_BEGIN opens an image buffer in HM (R486). -/
  | imgBegin (q : MgtReq) (kind : BitVec 8) (size : BitVec 32)
  /-- Renrel IMG_DATA copies bytes into the open image buffer (R486). -/
  | imgData (q : MgtReq) (off : BitVec 32) (bytes : List Byte)
  /-- Renrel IMG_END checks the buffered image, then applies a BOOT image or holds an AMEND (R486). -/
  | imgEnd (q : MgtReq)
  /-- GET_NONCE returns a single-use 32-byte nonce (R457). -/
  | getNonce (q : MgtReq)
  /-- A signed PROVISION generates and seals a DMK and returns its public key (R457). -/
  | provision (q : MgtReq) (sig : List Byte)
  /-- A signed DEPROVISION performs key erase without an alarm (R457). -/
  | deprovision (q : MgtReq) (sig : List Byte)
  /-- Renrel RESET responds and then acts as RESET_N (R486). -/
  | reset (q : MgtReq)
  /-- Renrel POWER_DOWN acts as PWR_CMD.DOWN (R486). -/
  | powerDown (q : MgtReq)
  /-- A write to a register with no row of its own sets RW fields, clears RW1C bits or is discarded (R9). -/
  | registerWrite (a : BitVec 46) (v : Word)
  /-- At each block slot the transmitter picks a due control block, an express block, a normal block or IDLE, pre-empting normal frames at 64-byte boundaries under the BE floor (R239). -/
  | blockSlot (n : Fin 19)
  /-- Every 4,096 codewords all lanes and the spare carry an ALIGN block, which the receiver uses to deskew the lanes and check MAPSEQ (R235). -/
  | alignBlock (n : Fin 19)
  /-- A control block whose BCRC fails, whose reserved bits are set or whose TYPE is reserved is discarded and counted in VL_CTL_ERR (R236). -/
  | controlBlockDiscard (n : Fin 19) (w : Nat)
  /-- A Vadal packet with an invalid VER, KIND or LEN, or an ATOMIC with a bad OP, is discarded and counted in VT_RX_BAD (R264). -/
  | invalidPacket (i : Nat)
  /-- A ring command with a reserved opcode fails at decode with CMD_ILLEGAL, costs 1 fc and halts the list (R71). -/
  | reservedOpcode (p : Fin 144)
  /-- RTO_US after a BUSY NACK the source resends the packet and counts it in VT_BUSY_NACKS (R270). -/
  | busyResend (k : Fin 4) (node psn : Nat)
  /-- The PCIe link completes training, PCI_LINK is set and PCI_DEGRADED is raised if the link is below 64 GT/s x16 (R412). -/
  | pcieLinkUp (speed : Fin 7) (width : Fin 17) (flit : Bool)
  /-- A parity error in sequencer decode state, counters or slot state fences the core with CORE_FAULT, DETAIL 1 (R430). -/
  | coreFault (p : Fin 144)
  /-- Loss of training or parity on an HBM stack interface fences the stack with DIE_FAULT, DETAIL 5 (R430). -/
  | hbmInterfaceLoss (i : Fin 8)
  /-- The level-2 alarm zeroing of core stores, tier frames and tables ends, and SEC_ALARM_STAT.SCRUB_DONE is set (R462). -/
  | scrubDone
  /-- Deassertion of RESET_N, or the end of a short assertion's 10 µs or of a Renrel RESET, takes the part out of reset and starts bring-up again (R476). -/
  | resetNRelease
  /-- The standby rails fall, so the part becomes unpowered: sensors stop, the black box and keys in SRAM are lost and every pin is released (R479). -/
  | standbyPowerLoss
deriving DecidableEq, Repr

end Sys2Proof
end

