-- ==== Sys2Proof/Machine/Bits.lean ====
section
/-!
DEFINITION. Bit fields, two's complement and byte order (R6), used by every part of the model.
-/
namespace Sys2Proof

/-- `a / b` rounded up, as `ceil(a / b)` in the spec. -/
def ceilDiv (a b : Nat) : Nat := (a + b - 1) / b

/-- Bits `[lo + len - 1 : lo]` of a number. -/
def bitsOf (w lo len : Nat) : Nat := (w >>> lo) % 2 ^ len

/-- Bit `i` of a number. -/
def bitOf (w i : Nat) : Bool := bitsOf w i 1 == 1

/-- A truth value as a bit. -/
def ofBool (b : Bool) : Nat := if b then 1 else 0

/-- The value of a `len`-bit two's-complement field. -/
def signedOf (v len : Nat) : Int := if v < 2 ^ (len - 1) then (v : Int) else (v : Int) - (2 ^ len : Nat)

/-- An integer kept to `len` bits in two's complement. -/
def toBits (v : Int) (len : Nat) : Nat := (v % ((2 ^ len : Nat) : Int)).toNat

/-- The low `n` little-endian bytes of a number (R6). -/
def toBytes : Nat → Nat → List Byte
  | 0, _ => []
  | n + 1, v => BitVec.ofNat 8 v :: toBytes n (v / 256)

/-- The number whose little-endian bytes are given (R6). -/
def ofBytes : List Byte → Nat
  | [] => 0
  | b :: bs => b.toNat + 256 * ofBytes bs

end Sys2Proof
end

