-- ==== Sys2Proof/Config.lean ====
section
/-!
DEFINITION. What one part fixes at manufacture (fuses, R1, R2, R5, R11, R452) and the values the spec leaves open:
opaque constants, so that no proof can lean on one. Each group is named in the assumption log.
-/
namespace Sys2Proof.Config

/-! Fused values (log entry 3). -/

/-- Grade of the part: true for F09, false for F10 (R1). -/
opaque gradeF09 : Bool
/-- Stepping of the part: true for A0, false for B0 (R5). -/
opaque steppingA0 : Bool
/-- MGT_ID.SERIAL (R493). -/
opaque serial : BitVec 48
/-- PCI_ID.VENDOR and PCI_ID.DEVICE, the same on every part; the manual does not restate them (R412). -/
opaque pciVendor : BitVec 16
opaque pciDevice : BitVec 16
/-- Boot ROM version (R466). -/
opaque romVer : BitVec 8
/-- SVN_MIN fuse (R452). -/
opaque svnMin : BitVec 8
/-- Owner keys fused, 0 to 4 (R452). -/
opaque ownerKeys : Fin 5
/-- DEBUG_ALLOW fuse (R463). -/
opaque debugAllow : Bool
/-- KEY_EPOCH bits burnt at manufacture or before this power-up, 0 to 64 (R456). -/
opaque keyEpoch : Fin 65
/-- ALARM_MIN per sensor, four 2-bit levels (R452, R461). -/
opaque alarmMin : BitVec 8

/-! Free values (log entry 4): a value the spec does not state, drawn afresh at each use from a counter of State. -/

/-- The n-th free 64-bit value. -/
opaque freeWord : Nat → BitVec 64
/-- The n-th free truth value. -/
opaque freeBool : Nat → Bool

/-- The n-th free content of a memory range, by address: what a self-test or a die's reset leaves behind (R439). -/
opaque freeMem : Nat → Nat → BitVec 8

/-- The word of a stack whose bits turn over in a field cycle, and whether more than one does (R296; log entry 54). -/
opaque hbmUpset : (stack cycle : Nat) → Option (Nat × Bool)

/-- Whether an FMA of a zero and an infinity with a quiet NaN addend signals INVALID: IEEE 754-2019 leaves it to the
implementation (R31; log entry 6). -/
opaque fmaZeroInfNaN : Bool
/-- INT32 readout of an accumulator or slot whose special flags are set: the manual states no value
(R46, R49; log entry 6). The argument is the flags NAN, PINF, NINF as a number. -/
opaque specialToInt32 : Nat → BitVec 32
/-- A correctly rounded transcendental result that the model's interval arithmetic does not settle: function code,
rounding mode code, operand (R113; log entry 7). -/
opaque hardCase : Nat → Nat → Nat → BitVec 32

/-! Functions of external standards that the manual names and does not restate (log entry 5): a free
function of the bytes and keys it acts on. Keys and digests are numbers. -/

/-- SHA-384 of a byte string. -/
opaque sha384 : List Byte → BitVec 384
/-- ECDSA P-384 verification of a signature over a digest by the key with the given hash. -/
opaque ecdsaVerify : (keyHash : BitVec 384) → (digest : BitVec 384) → (sig : List Byte) → Bool
/-- ECDSA P-384 signature over a digest by a private key. -/
opaque ecdsaSign : (key : Nat) → (digest : BitVec 384) → List Byte
/-- Public key bytes of a private key. -/
opaque publicKey : (key : Nat) → List Byte
/-- ECDH, HKDF and AES key unwrap of a wrapped model key under a device key: none where it does not unwrap. -/
opaque unwrapKey : (deviceKey : Nat) → (context : List Byte) → (wrapped : List Byte) → Option Nat
/-- Key derivation (HKDF) from a root key and a context. -/
opaque deriveKey : (key : Nat) → (context : Nat) → Nat
/-- AES-256-GCM decryption: the plaintext of a ciphertext under a key and a nonce. -/
opaque gcmPlain : (key : Nat) → (nonce : Nat) → (cipher : List Byte) → List Byte
/-- AES-256-GCM encryption. -/
opaque gcmCipher : (key : Nat) → (nonce : Nat) → (plain : List Byte) → List Byte
/-- AES-256-GCM tag. -/
opaque gcmTag : (key : Nat) → (nonce : Nat) → (aad : List Byte) → (cipher : List Byte) → BitVec 128
/-- Identity of the device key sealed into the part at manufacture (DIK seed, R452). -/
opaque deviceSeed : Nat
/-- Hash of owner key slot i as fused (R452). -/
opaque ownerKeyHash : Nat → BitVec 384
/-- SHA-384 of the boot ROM, and of the fuses other than UDS with stepping and grade (R454). -/
opaque romHash : BitVec 384
opaque fuseHash : BitVec 384
/-- The certificate chain of slot 0, from the Kryix root to the certificate for DIK (R455). -/
opaque certChain : List Byte
/-- Hash of Kryix's firmware root key (R404). -/
opaque kryixKeyHash : BitVec 384

end Sys2Proof.Config
end

