-- ==== Sys2Proof/Machine/RegMap.lean ====
section
/-!
DEFINITION. The register map: block bases (01_part_overview R27, R28) and every register field of the register
tables (R93, R95, R117-R119, R146, R177, R178, R202, R231, R258, R294, R317, R318, R335, R351, R395, R427, R450,
R451, R466, R481, R482, R493), each as its register address, lowest bit and width, under the spec's names.
-/
namespace Sys2Proof.Machine

/-- One field of a register: the register's address, the field's lowest bit and its width. -/
structure Fld where
  addr : Nat
  lo : Nat
  len : Nat
deriving DecidableEq, Repr

/-! Block bases of R27 and R28. -/
def mgtBase : Nat := 0x200000000000
def secBase : Nat := 0x200001000000
def almBase : Nat := 0x200002000000
def pciBase : Nat := 0x200003000000
def pwrBase : Nat := 0x200004000000
def clkBase : Nat := 0x200004800000
def siloBase (j : Nat) : Nat := 0x200008000000 + j * 0x400000
def hbmBase (s : Nat) : Nat := 0x200010000000 + s * 0x1000000
def tierBase (k : Nat) : Nat := 0x200018000000 + k * 0x2000000
def rdBase (k : Nat) : Nat := 0x200020000000 + k * 0x4000000
def winBase (k : Nat) : Nat := rdBase k
def thrBase (k : Nat) : Nat := rdBase k + 0x400000
def sowBase (k : Nat) : Nat := rdBase k + 0x800000
def glnBase (k : Nat) : Nat := rdBase k + 0xC00000
def colBase (k : Nat) : Nat := rdBase k + 0x1000000
def vtBase (k : Nat) : Nat := rdBase k + 0x1400000
def vlBase (n : Nat) : Nat := 0x200030000000 + n * 0x100000
def coreBase (p : Nat) : Nat := 0x200100000000 + p * 0x100000
def mxBase (p a : Nat) : Nat := coreBase p + 0x10000 + a * 0x10000
def mvBase (p : Nat) : Nat := coreBase p + 0x50000
def vxBase (p : Nat) : Nat := coreBase p + 0x60000
def csBase (p : Nat) : Nat := coreBase p + 0x70000

/-! Register fields, in the order of the spec's tables. -/

def CORE_ID_FALLOW (p : Nat) : Fld := ⟨coreBase p + 0x0, 23, 1⟩
def CORE_ID_LOGICAL (p : Nat) : Fld := ⟨coreBase p + 0x0, 16, 7⟩
def CORE_ID_SLOT (p : Nat) : Fld := ⟨coreBase p + 0x0, 12, 4⟩
def CORE_ID_DIE (p : Nat) : Fld := ⟨coreBase p + 0x0, 8, 4⟩
def CORE_ID_PHYS (p : Nat) : Fld := ⟨coreBase p + 0x0, 0, 8⟩
def CORE_STATUS_TAG (p : Nat) : Fld := ⟨coreBase p + 0x10, 32, 16⟩
def CORE_STATUS_CODE (p : Nat) : Fld := ⟨coreBase p + 0x10, 16, 16⟩
def CORE_STATUS_STATE (p : Nat) : Fld := ⟨coreBase p + 0x10, 0, 3⟩
def CORE_RING_BASE_BASE (p : Nat) : Fld := ⟨coreBase p + 0x18, 6, 19⟩
def CORE_RING_SIZE_ENTRIES (p : Nat) : Fld := ⟨coreBase p + 0x20, 0, 17⟩
def CORE_HEAD_HEAD (p : Nat) : Fld := ⟨coreBase p + 0x28, 0, 17⟩
def CORE_TAIL_TAIL (p : Nat) : Fld := ⟨coreBase p + 0x30, 0, 17⟩
def CORE_SEED_SEED (p : Nat) : Fld := ⟨coreBase p + 0x38, 0, 64⟩
def CORE_LAUNCH_ALM_COUNT (p : Nat) : Fld := ⟨coreBase p + 0x40, 0, 64⟩
def CORE_RESUME_PC (p : Nat) : Fld := ⟨coreBase p + 0x48, 0, 17⟩
def CORE_RESUME_SKIP (p : Nat) : Fld := ⟨coreBase p + 0x48, 24, 8⟩
def CORE_CYC_ACTIVE_COUNT (p : Nat) : Fld := ⟨coreBase p + 0x50, 0, 64⟩
def CORE_STALL_WAIT_COUNT (p : Nat) : Fld := ⟨coreBase p + 0x58, 0, 64⟩
def CORE_STALL_MEM_COUNT (p : Nat) : Fld := ⟨coreBase p + 0x60, 0, 64⟩
def CORE_STALL_LIST_COUNT (p : Nat) : Fld := ⟨coreBase p + 0x68, 0, 64⟩
def CORE_STALL_THR_COUNT (p : Nat) : Fld := ⟨coreBase p + 0x70, 0, 64⟩
def CORE_WAIT_LIMIT_LIMIT_US (p : Nat) : Fld := ⟨coreBase p + 0x78, 0, 32⟩
def CORE_IRQ_DONE (p : Nat) : Fld := ⟨coreBase p + 0x80, 0, 1⟩
def CORE_IRQ_HALTED (p : Nat) : Fld := ⟨coreBase p + 0x80, 1, 1⟩
def CORE_IRQ_KILLED (p : Nat) : Fld := ⟨coreBase p + 0x80, 2, 1⟩
def CORE_IRQ_RING_FULL (p : Nat) : Fld := ⟨coreBase p + 0x80, 3, 1⟩
def CORE_IRQ_ARR_SLOT (p : Nat) : Fld := ⟨coreBase p + 0x80, 4, 1⟩
def CORE_IRQ_FENCED (p : Nat) : Fld := ⟨coreBase p + 0x80, 5, 1⟩
def CORE_IRQ_EN_EN (p : Nat) : Fld := ⟨coreBase p + 0x88, 0, 6⟩
def CORE_PLOT_PLOT (p : Nat) : Fld := ⟨coreBase p + 0x90, 0, 4⟩
def CORE_PLOT_PERS (p : Nat) : Fld := ⟨coreBase p + 0x90, 4, 1⟩
def CORE_PLOT_PAIR (p : Nat) : Fld := ⟨coreBase p + 0x90, 5, 1⟩
def CORE_PLOT_PKEY (p : Nat) : Fld := ⟨coreBase p + 0x90, 16, 16⟩
def CORE_ARR_DUP_COUNT (p : Nat) : Fld := ⟨coreBase p + 0x98, 0, 32⟩
def CORE_ARR_COUNT (p : Nat) (i : Nat) : Fld := ⟨coreBase p + 0x8000 + 8 * i, 0, 32⟩
def CORE_ARR_MODE (p : Nat) (i : Nat) : Fld := ⟨coreBase p + 0x8000 + 8 * i, 32, 1⟩
def CORE_ARR_SLOTS (p : Nat) (i : Nat) : Fld := ⟨coreBase p + 0x8000 + 8 * i, 33, 14⟩
def CORE_ARR_MAP_BITMAP (p : Nat) (i : Nat) : Fld := ⟨coreBase p + 0xa000 + 8 * i, 0, 32⟩
def CS_ECC_CORR_COUNT (p : Nat) : Fld := ⟨csBase p + 0x0, 0, 32⟩
def CS_ECC_STAT_UNCORR (p : Nat) : Fld := ⟨csBase p + 0x8, 0, 1⟩
def CS_ECC_STAT_CORR (p : Nat) : Fld := ⟨csBase p + 0x8, 1, 1⟩
def CS_ECC_STAT_LAST_ADDR (p : Nat) : Fld := ⟨csBase p + 0x8, 32, 25⟩
def CS_SCRUB_PERIOD_MS (p : Nat) : Fld := ⟨csBase p + 0x10, 0, 16⟩
def CS_POISON_CNT_COUNT (p : Nat) : Fld := ⟨csBase p + 0x18, 0, 32⟩
def MX_STATUS_SHAPE (p : Nat) (a : Nat) : Fld := ⟨mxBase p a + 0x0, 0, 2⟩
def MX_STATUS_BUSY (p : Nat) (a : Nat) : Fld := ⟨mxBase p a + 0x0, 2, 1⟩
def MX_STATUS_CHAINED (p : Nat) (a : Nat) : Fld := ⟨mxBase p a + 0x0, 3, 1⟩
def MX_STATUS_FENCED (p : Nat) (a : Nat) : Fld := ⟨mxBase p a + 0x0, 4, 1⟩
def MX_STATUS_SIDE (p : Nat) (a : Nat) : Fld := ⟨mxBase p a + 0x0, 5, 1⟩
def MX_STATUS_FMT_A (p : Nat) (a : Nat) : Fld := ⟨mxBase p a + 0x0, 8, 4⟩
def MX_STATUS_FMT_W (p : Nat) (a : Nat) : Fld := ⟨mxBase p a + 0x0, 12, 4⟩
def MX_ROW_MASK_DEPTH_ON (p : Nat) (a : Nat) : Fld := ⟨mxBase p a + 0x8, 0, 7⟩
def MX_COL_MASK_WIDTH_ON (p : Nat) (a : Nat) : Fld := ⟨mxBase p a + 0x10, 0, 9⟩
def MX_PASSES_COUNT (p : Nat) (a : Nat) : Fld := ⟨mxBase p a + 0x18, 0, 64⟩
def MX_PRODUCTS_COUNT (p : Nat) (a : Nat) : Fld := ⟨mxBase p a + 0x20, 0, 64⟩
def MX_GATED_COUNT (p : Nat) (a : Nat) : Fld := ⟨mxBase p a + 0x28, 0, 64⟩
def MX_ACC_KIND_FLOAT_MAP (p : Nat) (a : Nat) : Fld := ⟨mxBase p a + 0x30, 0, 64⟩
def MV_STATUS_BUSY (p : Nat) : Fld := ⟨mvBase p + 0x0, 0, 1⟩
def MV_STATUS_FENCED (p : Nat) : Fld := ⟨mvBase p + 0x0, 1, 1⟩
def MV_STATUS_WSRC (p : Nat) : Fld := ⟨mvBase p + 0x0, 2, 1⟩
def MV_BYTES_COUNT (p : Nat) : Fld := ⟨mvBase p + 0x8, 0, 64⟩
def MV_COMMANDS_COUNT (p : Nat) : Fld := ⟨mvBase p + 0x10, 0, 64⟩
def MV_HBM_BYTES_COUNT (p : Nat) : Fld := ⟨mvBase p + 0x18, 0, 64⟩
def VX_FLAGS_INVALID (p : Nat) : Fld := ⟨vxBase p + 0x0, 0, 1⟩
def VX_FLAGS_DIVZERO (p : Nat) : Fld := ⟨vxBase p + 0x0, 1, 1⟩
def VX_FLAGS_OVERFLOW (p : Nat) : Fld := ⟨vxBase p + 0x0, 2, 1⟩
def VX_FLAGS_UNDERFLOW (p : Nat) : Fld := ⟨vxBase p + 0x0, 3, 1⟩
def VX_FLAGS_INEXACT (p : Nat) : Fld := ⟨vxBase p + 0x0, 4, 1⟩
def VX_STATUS_BUSY (p : Nat) : Fld := ⟨vxBase p + 0x8, 0, 1⟩
def VX_STATUS_FENCED (p : Nat) : Fld := ⟨vxBase p + 0x8, 1, 1⟩
def VX_ELEMS_COUNT (p : Nat) : Fld := ⟨vxBase p + 0x10, 0, 64⟩
def WIN_ID_DIE (k : Nat) : Fld := ⟨winBase k + 0x0, 0, 2⟩
def WIN_CTRL_ENABLE (k : Nat) : Fld := ⟨winBase k + 0x8, 0, 1⟩
def WIN_STATUS_BUSY (k : Nat) : Fld := ⟨winBase k + 0x10, 0, 1⟩
def WIN_STATUS_RING (k : Nat) : Fld := ⟨winBase k + 0x10, 1, 4⟩
def WIN_STATUS_SAMPLING (k : Nat) : Fld := ⟨winBase k + 0x10, 5, 1⟩
def WIN_IRQ_JOB_DONE (k : Nat) : Fld := ⟨winBase k + 0x20, 0, 1⟩
def WIN_IRQ_JOB_FAIL (k : Nat) : Fld := ⟨winBase k + 0x20, 1, 1⟩
def WIN_IRQ_WARN (k : Nat) : Fld := ⟨winBase k + 0x20, 2, 1⟩
def WIN_IRQ_RING_FULL (k : Nat) : Fld := ⟨winBase k + 0x20, 3, 1⟩
def WIN_IRQ_EN_EN (k : Nat) : Fld := ⟨winBase k + 0x28, 0, 4⟩
def WIN_ITEMS_COUNT (k : Nat) : Fld := ⟨winBase k + 0x30, 0, 64⟩
def WIN_LOGITS_COUNT (k : Nat) : Fld := ⟨winBase k + 0x38, 0, 64⟩
def WIN_TRIPLES_COUNT (k : Nat) : Fld := ⟨winBase k + 0x40, 0, 64⟩
def WIN_STALL_IN_COUNT (k : Nat) : Fld := ⟨winBase k + 0x48, 0, 64⟩
def WIN_LAST_CODE (k : Nat) : Fld := ⟨winBase k + 0x50, 0, 16⟩
def WIN_LAST_RING (k : Nat) : Fld := ⟨winBase k + 0x50, 16, 4⟩
def WIN_LAST_JOB_ID (k : Nat) : Fld := ⟨winBase k + 0x50, 20, 16⟩
def WIN_PLOT_EN (k : Nat) (i : Nat) : Fld := ⟨winBase k + 0x100 + 64 * i, 0, 1⟩
def WIN_PLOT_CLASS (k : Nat) (i : Nat) : Fld := ⟨winBase k + 0x100 + 64 * i, 1, 1⟩
def WIN_PLOT_PKEY (k : Nat) (i : Nat) : Fld := ⟨winBase k + 0x100 + 64 * i, 16, 16⟩
def WIN_RING_BASE_BASE (k : Nat) (i : Nat) : Fld := ⟨winBase k + 0x108 + 64 * i, 7, 39⟩
def WIN_RING_SIZE_ENTRIES (k : Nat) (i : Nat) : Fld := ⟨winBase k + 0x110 + 64 * i, 0, 13⟩
def WIN_HEAD_HEAD (k : Nat) (i : Nat) : Fld := ⟨winBase k + 0x118 + 64 * i, 0, 13⟩
def WIN_TAIL_TAIL (k : Nat) (i : Nat) : Fld := ⟨winBase k + 0x120 + 64 * i, 0, 13⟩
def WIN_RSTAT_ACTIVE (k : Nat) (i : Nat) : Fld := ⟨winBase k + 0x128 + 64 * i, 0, 1⟩
def WIN_RSTAT_LOADED (k : Nat) (i : Nat) : Fld := ⟨winBase k + 0x128 + 64 * i, 1, 1⟩
def WIN_RSTAT_JOB_ID (k : Nat) (i : Nat) : Fld := ⟨winBase k + 0x128 + 64 * i, 16, 16⟩
def WIN_RSTAT_ITEM (k : Nat) (i : Nat) : Fld := ⟨winBase k + 0x128 + 64 * i, 32, 32⟩
def THR_ID_DIE (k : Nat) : Fld := ⟨thrBase k + 0x0, 0, 2⟩
def THR_CTRL_ENABLE (k : Nat) : Fld := ⟨thrBase k + 0x8, 0, 1⟩
def THR_STATUS_BUSY (k : Nat) : Fld := ⟨thrBase k + 0x10, 0, 1⟩
def THR_STATUS_RING (k : Nat) : Fld := ⟨thrBase k + 0x10, 1, 4⟩
def THR_STATUS_PHASE (k : Nat) : Fld := ⟨thrBase k + 0x10, 5, 3⟩
def THR_IRQ_STEP_DONE (k : Nat) : Fld := ⟨thrBase k + 0x20, 0, 1⟩
def THR_IRQ_STEP_FAIL (k : Nat) : Fld := ⟨thrBase k + 0x20, 1, 1⟩
def THR_IRQ_WARN (k : Nat) : Fld := ⟨thrBase k + 0x20, 2, 1⟩
def THR_IRQ_RING_FULL (k : Nat) : Fld := ⟨thrBase k + 0x20, 3, 1⟩
def THR_IRQ_EN_EN (k : Nat) : Fld := ⟨thrBase k + 0x28, 0, 4⟩
def THR_MAP_BASE_BASE (k : Nat) : Fld := ⟨thrBase k + 0x30, 6, 40⟩
def THR_MAP_SIZE_ENTRIES (k : Nat) : Fld := ⟨thrBase k + 0x38, 0, 22⟩
def THR_ASSIGNED_COUNT (k : Nat) : Fld := ⟨thrBase k + 0x40, 0, 64⟩
def THR_KEPT_COUNT (k : Nat) : Fld := ⟨thrBase k + 0x48, 0, 64⟩
def THR_DROPPED_COUNT (k : Nat) : Fld := ⟨thrBase k + 0x50, 0, 64⟩
def THR_NOMAPPED_COUNT (k : Nat) : Fld := ⟨thrBase k + 0x58, 0, 64⟩
def THR_LAST_CODE (k : Nat) : Fld := ⟨thrBase k + 0x60, 0, 16⟩
def THR_LAST_RING (k : Nat) : Fld := ⟨thrBase k + 0x60, 16, 4⟩
def THR_LAST_STEP_ID (k : Nat) : Fld := ⟨thrBase k + 0x60, 20, 16⟩
def THR_STEP_LIMIT_LIMIT_US (k : Nat) : Fld := ⟨thrBase k + 0x68, 0, 32⟩
def THR_PLOT_EN (k : Nat) (i : Nat) : Fld := ⟨thrBase k + 0x100 + 64 * i, 0, 1⟩
def THR_PLOT_CLASS (k : Nat) (i : Nat) : Fld := ⟨thrBase k + 0x100 + 64 * i, 1, 1⟩
def THR_PLOT_PKEY (k : Nat) (i : Nat) : Fld := ⟨thrBase k + 0x100 + 64 * i, 16, 16⟩
def THR_RING_BASE_BASE (k : Nat) (i : Nat) : Fld := ⟨thrBase k + 0x108 + 64 * i, 7, 39⟩
def THR_RING_SIZE_ENTRIES (k : Nat) (i : Nat) : Fld := ⟨thrBase k + 0x110 + 64 * i, 0, 13⟩
def THR_HEAD_HEAD (k : Nat) (i : Nat) : Fld := ⟨thrBase k + 0x118 + 64 * i, 0, 13⟩
def THR_TAIL_TAIL (k : Nat) (i : Nat) : Fld := ⟨thrBase k + 0x120 + 64 * i, 0, 13⟩
def THR_RSTAT_ACTIVE (k : Nat) (i : Nat) : Fld := ⟨thrBase k + 0x128 + 64 * i, 0, 1⟩
def THR_RSTAT_PHASE (k : Nat) (i : Nat) : Fld := ⟨thrBase k + 0x128 + 64 * i, 1, 3⟩
def THR_RSTAT_STEP_ID (k : Nat) (i : Nat) : Fld := ⟨thrBase k + 0x128 + 64 * i, 16, 16⟩
def THR_TDROP_LC (k : Nat) (i : Nat) : Fld := ⟨thrBase k + 0x4000 + 8 * i, 0, 32⟩
def THR_TDROP_BE (k : Nat) (i : Nat) : Fld := ⟨thrBase k + 0x4000 + 8 * i, 32, 32⟩
def SOW_ID_DIE (k : Nat) : Fld := ⟨sowBase k + 0x0, 0, 2⟩
def SOW_CTRL_ENABLE (k : Nat) : Fld := ⟨sowBase k + 0x8, 0, 1⟩
def SOW_STATUS_BUSY (k : Nat) : Fld := ⟨sowBase k + 0x10, 0, 1⟩
def SOW_STATUS_RING (k : Nat) : Fld := ⟨sowBase k + 0x10, 1, 4⟩
def SOW_STATUS_CLASS (k : Nat) : Fld := ⟨sowBase k + 0x10, 5, 1⟩
def SOW_STATUS_TRACK (k : Nat) : Fld := ⟨sowBase k + 0x10, 16, 13⟩
def SOW_IRQ_SEND_DONE (k : Nat) : Fld := ⟨sowBase k + 0x20, 0, 1⟩
def SOW_IRQ_SEND_FAIL (k : Nat) : Fld := ⟨sowBase k + 0x20, 1, 1⟩
def SOW_IRQ_LAND_REJ (k : Nat) : Fld := ⟨sowBase k + 0x20, 2, 1⟩
def SOW_IRQ_EN_EN (k : Nat) : Fld := ⟨sowBase k + 0x28, 0, 3⟩
def SOW_ROWS_SENT_COUNT (k : Nat) : Fld := ⟨sowBase k + 0x30, 0, 64⟩
def SOW_BYTES_SENT_COUNT (k : Nat) : Fld := ⟨sowBase k + 0x38, 0, 64⟩
def SOW_ROWS_LANDED_COUNT (k : Nat) : Fld := ⟨sowBase k + 0x40, 0, 64⟩
def SOW_MAN_LANDED_COUNT (k : Nat) : Fld := ⟨sowBase k + 0x48, 0, 64⟩
def SOW_STALL_IN_COUNT (k : Nat) : Fld := ⟨sowBase k + 0x50, 0, 64⟩
def SOW_STALL_MAN_COUNT (k : Nat) : Fld := ⟨sowBase k + 0x58, 0, 64⟩
def SOW_STALL_TB_COUNT (k : Nat) : Fld := ⟨sowBase k + 0x60, 0, 64⟩
def SOW_TRACK_PEAK_PEAK (k : Nat) : Fld := ⟨sowBase k + 0x68, 0, 13⟩
def SOW_LAND_REJ_COUNT (k : Nat) : Fld := ⟨sowBase k + 0x70, 0, 32⟩
def SOW_LAST_CODE (k : Nat) : Fld := ⟨sowBase k + 0x78, 0, 16⟩
def SOW_LAST_NODE (k : Nat) : Fld := ⟨sowBase k + 0x78, 16, 18⟩
def SOW_LAST_STEP_ID (k : Nat) : Fld := ⟨sowBase k + 0x78, 34, 16⟩
def SOW_TB_RATE (k : Nat) (i : Nat) : Fld := ⟨sowBase k + 0x10000 + 8 * i, 0, 20⟩
def SOW_TB_BURST (k : Nat) (i : Nat) : Fld := ⟨sowBase k + 0x10000 + 8 * i, 20, 20⟩
def SOW_TB_LEVEL (k : Nat) (i : Nat) : Fld := ⟨sowBase k + 0x10000 + 8 * i, 40, 24⟩
def GLN_ID_DIE (k : Nat) : Fld := ⟨glnBase k + 0x0, 0, 2⟩
def GLN_CTRL_ENABLE (k : Nat) : Fld := ⟨glnBase k + 0x8, 0, 1⟩
def GLN_STATUS_BUSY (k : Nat) : Fld := ⟨glnBase k + 0x10, 0, 1⟩
def GLN_STATUS_RET_ACTIVE (k : Nat) : Fld := ⟨glnBase k + 0x10, 1, 9⟩
def GLN_STATUS_RET_FULL (k : Nat) : Fld := ⟨glnBase k + 0x10, 10, 1⟩
def GLN_STATUS_CTX_OPEN (k : Nat) : Fld := ⟨glnBase k + 0x10, 11, 8⟩
def GLN_STATUS_TRACK (k : Nat) : Fld := ⟨glnBase k + 0x10, 19, 13⟩
def GLN_IRQ_JOB_DONE (k : Nat) : Fld := ⟨glnBase k + 0x20, 0, 1⟩
def GLN_IRQ_JOB_FAIL (k : Nat) : Fld := ⟨glnBase k + 0x20, 1, 1⟩
def GLN_IRQ_WARN (k : Nat) : Fld := ⟨glnBase k + 0x20, 2, 1⟩
def GLN_IRQ_RING_FULL (k : Nat) : Fld := ⟨glnBase k + 0x20, 3, 1⟩
def GLN_IRQ_RET_REJ (k : Nat) : Fld := ⟨glnBase k + 0x20, 4, 1⟩
def GLN_IRQ_EN_EN (k : Nat) : Fld := ⟨glnBase k + 0x28, 0, 5⟩
def GLN_TOKENS_COUNT (k : Nat) : Fld := ⟨glnBase k + 0x30, 0, 64⟩
def GLN_PRODUCTS_COUNT (k : Nat) : Fld := ⟨glnBase k + 0x38, 0, 64⟩
def GLN_RET_SENT_COUNT (k : Nat) : Fld := ⟨glnBase k + 0x40, 0, 64⟩
def GLN_RET_RECV_COUNT (k : Nat) : Fld := ⟨glnBase k + 0x48, 0, 64⟩
def GLN_STALL_RDY_COUNT (k : Nat) : Fld := ⟨glnBase k + 0x50, 0, 64⟩
def GLN_STALL_SRC_COUNT (k : Nat) : Fld := ⟨glnBase k + 0x58, 0, 64⟩
def GLN_RET_REJ_COUNT (k : Nat) : Fld := ⟨glnBase k + 0x60, 0, 32⟩
def GLN_LAST_CODE (k : Nat) : Fld := ⟨glnBase k + 0x68, 0, 16⟩
def GLN_LAST_RING (k : Nat) : Fld := ⟨glnBase k + 0x68, 16, 4⟩
def GLN_LAST_KIND (k : Nat) : Fld := ⟨glnBase k + 0x68, 20, 1⟩
def GLN_LAST_JOB_ID (k : Nat) : Fld := ⟨glnBase k + 0x68, 21, 16⟩
def GLN_LAST_NODE (k : Nat) : Fld := ⟨glnBase k + 0x68, 37, 18⟩
def GLN_CTX_OPEN (k : Nat) (i : Nat) : Fld := ⟨glnBase k + 0x80 + 8 * i, 0, 1⟩
def GLN_CTX_RING (k : Nat) (i : Nat) : Fld := ⟨glnBase k + 0x80 + 8 * i, 1, 4⟩
def GLN_CTX_TAG (k : Nat) (i : Nat) : Fld := ⟨glnBase k + 0x80 + 8 * i, 5, 16⟩
def GLN_CTX_DONE_TOK (k : Nat) (i : Nat) : Fld := ⟨glnBase k + 0x80 + 8 * i, 21, 21⟩
def GLN_PLOT_EN (k : Nat) (i : Nat) : Fld := ⟨glnBase k + 0x100 + 64 * i, 0, 1⟩
def GLN_PLOT_CLASS (k : Nat) (i : Nat) : Fld := ⟨glnBase k + 0x100 + 64 * i, 1, 1⟩
def GLN_PLOT_PKEY (k : Nat) (i : Nat) : Fld := ⟨glnBase k + 0x100 + 64 * i, 16, 16⟩
def GLN_RBASE_BASE (k : Nat) (i : Nat) : Fld := ⟨glnBase k + 0x108 + 64 * i, 7, 39⟩
def GLN_CBASE_BASE (k : Nat) (i : Nat) : Fld := ⟨glnBase k + 0x508 + 64 * i, 7, 39⟩
def GLN_RSIZE_ENTRIES (k : Nat) (i : Nat) : Fld := ⟨glnBase k + 0x110 + 64 * i, 0, 13⟩
def GLN_CSIZE_ENTRIES (k : Nat) (i : Nat) : Fld := ⟨glnBase k + 0x510 + 64 * i, 0, 13⟩
def GLN_RHEAD_HEAD (k : Nat) (i : Nat) : Fld := ⟨glnBase k + 0x118 + 64 * i, 0, 13⟩
def GLN_CHEAD_HEAD (k : Nat) (i : Nat) : Fld := ⟨glnBase k + 0x518 + 64 * i, 0, 13⟩
def GLN_RTAIL_TAIL (k : Nat) (i : Nat) : Fld := ⟨glnBase k + 0x120 + 64 * i, 0, 13⟩
def GLN_CTAIL_TAIL (k : Nat) (i : Nat) : Fld := ⟨glnBase k + 0x520 + 64 * i, 0, 13⟩
def GLN_RRSTAT_ACTIVE (k : Nat) (i : Nat) : Fld := ⟨glnBase k + 0x128 + 64 * i, 0, 1⟩
def GLN_RRSTAT_OPEN (k : Nat) (i : Nat) : Fld := ⟨glnBase k + 0x128 + 64 * i, 1, 1⟩
def GLN_RRSTAT_JOB_ID (k : Nat) (i : Nat) : Fld := ⟨glnBase k + 0x128 + 64 * i, 16, 16⟩
def GLN_CRSTAT_ACTIVE (k : Nat) (i : Nat) : Fld := ⟨glnBase k + 0x528 + 64 * i, 0, 1⟩
def GLN_CRSTAT_OPEN (k : Nat) (i : Nat) : Fld := ⟨glnBase k + 0x528 + 64 * i, 1, 1⟩
def GLN_CRSTAT_JOB_ID (k : Nat) (i : Nat) : Fld := ⟨glnBase k + 0x528 + 64 * i, 16, 16⟩
def COL_ID_DIE (k : Nat) : Fld := ⟨colBase k + 0x0, 0, 2⟩
def COL_CTRL_ENABLE (k : Nat) : Fld := ⟨colBase k + 0x8, 0, 1⟩
def COL_STATUS_BUSY (k : Nat) : Fld := ⟨colBase k + 0x10, 0, 1⟩
def COL_STATUS_OPEN (k : Nat) : Fld := ⟨colBase k + 0x10, 1, 5⟩
def COL_IRQ_DONE (k : Nat) : Fld := ⟨colBase k + 0x20, 0, 1⟩
def COL_IRQ_ABORT (k : Nat) : Fld := ⟨colBase k + 0x20, 1, 1⟩
def COL_IRQ_WARN (k : Nat) : Fld := ⟨colBase k + 0x20, 2, 1⟩
def COL_IRQ_RING_FULL (k : Nat) : Fld := ⟨colBase k + 0x20, 3, 1⟩
def COL_IRQ_INDOUBT (k : Nat) : Fld := ⟨colBase k + 0x20, 4, 1⟩
def COL_IRQ_EN_EN (k : Nat) : Fld := ⟨colBase k + 0x28, 0, 5⟩
def COL_DONE_CNT_COUNT (k : Nat) : Fld := ⟨colBase k + 0x30, 0, 64⟩
def COL_ABORT_CNT_COUNT (k : Nat) : Fld := ⟨colBase k + 0x38, 0, 64⟩
def COL_VALUES_COUNT (k : Nat) : Fld := ⟨colBase k + 0x40, 0, 64⟩
def COL_BYTES_TX_COUNT (k : Nat) : Fld := ⟨colBase k + 0x48, 0, 64⟩
def COL_BYTES_RX_COUNT (k : Nat) : Fld := ⟨colBase k + 0x50, 0, 64⟩
def COL_STRAY_COUNT (k : Nat) : Fld := ⟨colBase k + 0x58, 0, 32⟩
def COL_NOCTX_COUNT (k : Nat) : Fld := ⟨colBase k + 0x60, 0, 32⟩
def COL_LAST_STATUS (k : Nat) : Fld := ⟨colBase k + 0x68, 0, 16⟩
def COL_LAST_CAUSE (k : Nat) : Fld := ⟨colBase k + 0x68, 16, 16⟩
def COL_LAST_RING (k : Nat) : Fld := ⟨colBase k + 0x68, 32, 4⟩
def COL_LAST_JOB_ID (k : Nat) : Fld := ⟨colBase k + 0x68, 36, 16⟩
def COL_GRACE_GRACE_US (k : Nat) : Fld := ⟨colBase k + 0x70, 0, 32⟩
def COL_RETRY_RETRY_US (k : Nat) : Fld := ⟨colBase k + 0x78, 0, 32⟩
def COL_RCTX_UNITS (k : Nat) (i : Nat) : Fld := ⟨colBase k + 0x80 + 8 * i, 0, 13⟩
def COL_RCTX_COUNT (k : Nat) (i : Nat) : Fld := ⟨colBase k + 0x80 + 8 * i, 13, 16⟩
def COL_RCTX_CAPS (k : Nat) (i : Nat) : Fld := ⟨colBase k + 0x80 + 8 * i, 29, 5⟩
def COL_CTX_OPEN (k : Nat) (i : Nat) : Fld := ⟨colBase k + 0xa0 + 8 * i, 0, 1⟩
def COL_CTX_RING (k : Nat) (i : Nat) : Fld := ⟨colBase k + 0xa0 + 8 * i, 1, 4⟩
def COL_CTX_STATE (k : Nat) (i : Nat) : Fld := ⟨colBase k + 0xa0 + 8 * i, 5, 3⟩
def COL_CTX_GCTX (k : Nat) (i : Nat) : Fld := ⟨colBase k + 0xa0 + 8 * i, 8, 8⟩
def COL_CTX_SEQ (k : Nat) (i : Nat) : Fld := ⟨colBase k + 0xa0 + 8 * i, 16, 32⟩
def COL_CTX_JOB_ID (k : Nat) (i : Nat) : Fld := ⟨colBase k + 0xa0 + 8 * i, 48, 16⟩
def COL_PLOT_EN (k : Nat) (i : Nat) : Fld := ⟨colBase k + 0x200 + 64 * i, 0, 1⟩
def COL_PLOT_CLASS (k : Nat) (i : Nat) : Fld := ⟨colBase k + 0x200 + 64 * i, 1, 1⟩
def COL_PLOT_PKEY (k : Nat) (i : Nat) : Fld := ⟨colBase k + 0x200 + 64 * i, 16, 16⟩
def COL_RING_BASE_BASE (k : Nat) (i : Nat) : Fld := ⟨colBase k + 0x208 + 64 * i, 7, 39⟩
def COL_RING_SIZE_ENTRIES (k : Nat) (i : Nat) : Fld := ⟨colBase k + 0x210 + 64 * i, 0, 13⟩
def COL_HEAD_HEAD (k : Nat) (i : Nat) : Fld := ⟨colBase k + 0x218 + 64 * i, 0, 13⟩
def COL_TAIL_TAIL (k : Nat) (i : Nat) : Fld := ⟨colBase k + 0x220 + 64 * i, 0, 13⟩
def COL_RSTAT_ACTIVE (k : Nat) (i : Nat) : Fld := ⟨colBase k + 0x228 + 64 * i, 0, 1⟩
def COL_RSTAT_JOB_ID (k : Nat) (i : Nat) : Fld := ⟨colBase k + 0x228 + 64 * i, 16, 16⟩
def COL_GCTX_A_OPEN (k : Nat) (i : Nat) : Fld := ⟨colBase k + 0x4000 + 16 * i, 0, 1⟩
def COL_GCTX_A_HIER_OK (k : Nat) (i : Nat) : Fld := ⟨colBase k + 0x4000 + 16 * i, 1, 1⟩
def COL_GCTX_A_RANK (k : Nat) (i : Nat) : Fld := ⟨colBase k + 0x4000 + 16 * i, 2, 16⟩
def COL_GCTX_A_SIZE (k : Nat) (i : Nat) : Fld := ⟨colBase k + 0x4000 + 16 * i, 18, 17⟩
def COL_GCTX_B_GROUP_ID (k : Nat) (i : Nat) : Fld := ⟨colBase k + 0x4008 + 16 * i, 0, 32⟩
def COL_GCTX_B_NEXT_SEQ (k : Nat) (i : Nat) : Fld := ⟨colBase k + 0x4008 + 16 * i, 32, 32⟩
def COL_GDIG_DIGEST (k : Nat) (i : Nat) : Fld := ⟨colBase k + 0x8000 + 8 * i, 0, 64⟩
def VL_ID_PORT (n : Nat) : Fld := ⟨vlBase n + 0x0, 0, 5⟩
def VL_ID_KIND (n : Nat) : Fld := ⟨vlBase n + 0x0, 5, 1⟩
def VL_ID_LANES (n : Nat) : Fld := ⟨vlBase n + 0x0, 6, 4⟩
def VL_CTRL_ENABLE (n : Nat) : Fld := ⟨vlBase n + 0x8, 0, 1⟩
def VL_STATE_STATE (n : Nat) : Fld := ⟨vlBase n + 0x10, 0, 3⟩
def VL_STATE_TX_WIDTH (n : Nat) : Fld := ⟨vlBase n + 0x10, 3, 4⟩
def VL_STATE_RX_WIDTH (n : Nat) : Fld := ⟨vlBase n + 0x10, 7, 4⟩
def VL_STATE_TX_SPARE (n : Nat) : Fld := ⟨vlBase n + 0x10, 11, 1⟩
def VL_STATE_RX_SPARE (n : Nat) : Fld := ⟨vlBase n + 0x10, 12, 1⟩
def VL_STATE_PRSNT (n : Nat) : Fld := ⟨vlBase n + 0x10, 13, 1⟩
def VL_STATE_CAUSE (n : Nat) : Fld := ⟨vlBase n + 0x10, 14, 2⟩
def VL_MAP_TX_MAP (n : Nat) : Fld := ⟨vlBase n + 0x18, 0, 36⟩
def VL_MAP_TX_MAPSEQ (n : Nat) : Fld := ⟨vlBase n + 0x18, 36, 4⟩
def VL_MAP_RX_MAP (n : Nat) : Fld := ⟨vlBase n + 0x20, 0, 36⟩
def VL_MAP_RX_MAPSEQ (n : Nat) : Fld := ⟨vlBase n + 0x20, 36, 4⟩
def VL_LANE_STAT_RX (n : Nat) : Fld := ⟨vlBase n + 0x28, 0, 27⟩
def VL_LANE_STAT_TX (n : Nat) : Fld := ⟨vlBase n + 0x28, 27, 27⟩
def VL_PEER_NODE (n : Nat) : Fld := ⟨vlBase n + 0x30, 0, 18⟩
def VL_PEER_PORT (n : Nat) : Fld := ⟨vlBase n + 0x30, 18, 5⟩
def VL_PEER_KIND (n : Nat) : Fld := ⟨vlBase n + 0x30, 23, 1⟩
def VL_PEER_PLANE (n : Nat) : Fld := ⟨vlBase n + 0x30, 24, 2⟩
def VL_EXPECT_NODE (n : Nat) : Fld := ⟨vlBase n + 0x38, 0, 18⟩
def VL_EXPECT_PORT (n : Nat) : Fld := ⟨vlBase n + 0x38, 18, 5⟩
def VL_EXPECT_PLANE (n : Nat) : Fld := ⟨vlBase n + 0x38, 24, 2⟩
def VL_RTT_RTT_NS (n : Nat) : Fld := ⟨vlBase n + 0x40, 0, 16⟩
def VL_ACK_LIMIT_LIMIT_NS (n : Nat) : Fld := ⟨vlBase n + 0x48, 0, 11⟩
def VL_REPLAY_LIMIT (n : Nat) : Fld := ⟨vlBase n + 0x50, 0, 4⟩
def VL_BER_UNCORR_MAX (n : Nat) : Fld := ⟨vlBase n + 0x58, 0, 16⟩
def VL_RETRAIN_SOAK_MS (n : Nat) : Fld := ⟨vlBase n + 0x60, 0, 16⟩
def VL_RETRAIN_TRIES (n : Nat) : Fld := ⟨vlBase n + 0x60, 16, 4⟩
def VL_RETRAIN_LIMIT_MS (n : Nat) : Fld := ⟨vlBase n + 0x60, 32, 16⟩
def VL_HOLD_HOLD_MS (n : Nat) : Fld := ⟨vlBase n + 0x68, 0, 16⟩
def VL_BE_FLOOR_FLOOR (n : Nat) : Fld := ⟨vlBase n + 0x70, 0, 6⟩
def VL_IRQ_DOWN (n : Nat) : Fld := ⟨vlBase n + 0x78, 0, 1⟩
def VL_IRQ_UP (n : Nat) : Fld := ⟨vlBase n + 0x78, 1, 1⟩
def VL_IRQ_LANE (n : Nat) : Fld := ⟨vlBase n + 0x78, 2, 1⟩
def VL_IRQ_DEGRADED (n : Nat) : Fld := ⟨vlBase n + 0x78, 3, 1⟩
def VL_IRQ_PEER (n : Nat) : Fld := ⟨vlBase n + 0x78, 4, 1⟩
def VL_IRQ_LASER (n : Nat) : Fld := ⟨vlBase n + 0x78, 5, 1⟩
def VL_IRQ_ADV (n : Nat) : Fld := ⟨vlBase n + 0x78, 6, 1⟩
def VL_IRQ_EN_EN (n : Nat) : Fld := ⟨vlBase n + 0x80, 0, 7⟩
def VL_LAST_CODE (n : Nat) : Fld := ⟨vlBase n + 0x88, 0, 16⟩
def VL_LAST_LANE (n : Nat) : Fld := ⟨vlBase n + 0x88, 16, 4⟩
def VL_LAST_DIR (n : Nat) : Fld := ⟨vlBase n + 0x88, 20, 1⟩
def VL_LAST_ALM_COUNT (n : Nat) : Fld := ⟨vlBase n + 0x90, 0, 64⟩
def VL_TX_FRAMES_NORMAL (n : Nat) : Fld := ⟨vlBase n + 0x98, 0, 32⟩
def VL_TX_FRAMES_EXPRESS (n : Nat) : Fld := ⟨vlBase n + 0x98, 32, 32⟩
def VL_RX_FRAMES_NORMAL (n : Nat) : Fld := ⟨vlBase n + 0xa0, 0, 32⟩
def VL_RX_FRAMES_EXPRESS (n : Nat) : Fld := ⟨vlBase n + 0xa0, 32, 32⟩
def VL_REPLAYS_COUNT (n : Nat) : Fld := ⟨vlBase n + 0xa8, 0, 64⟩
def VL_CRC_ERR_COUNT (n : Nat) : Fld := ⟨vlBase n + 0xb0, 0, 64⟩
def VL_DUPS_COUNT (n : Nat) : Fld := ⟨vlBase n + 0xb8, 0, 64⟩
def VL_PREEMPT_COUNT (n : Nat) : Fld := ⟨vlBase n + 0xc0, 0, 64⟩
def VL_CTL_ERR_COUNT (n : Nat) : Fld := ⟨vlBase n + 0xc8, 0, 64⟩
def VL_DOWN_CNT_FAULT (n : Nat) : Fld := ⟨vlBase n + 0xd0, 0, 32⟩
def VL_DOWN_CNT_OTHER (n : Nat) : Fld := ⟨vlBase n + 0xd0, 32, 32⟩
def VL_CRED_STALL_COUNT (n : Nat) : Fld := ⟨vlBase n + 0xd8, 0, 64⟩
def VL_LANE_ERR_CORR (n : Nat) (i : Nat) : Fld := ⟨vlBase n + 0x100 + 8 * i, 0, 32⟩
def VL_LANE_ERR_UNCORR (n : Nat) (i : Nat) : Fld := ⟨vlBase n + 0x100 + 8 * i, 32, 32⟩
def VL_OPT_PWR_PWR_UW (n : Nat) (i : Nat) : Fld := ⟨vlBase n + 0x180 + 8 * i, 0, 16⟩
def VL_OPT_PWR_MIN_UW (n : Nat) (i : Nat) : Fld := ⟨vlBase n + 0x180 + 8 * i, 16, 16⟩
def VT_ID_DIE (k : Nat) : Fld := ⟨vtBase k + 0x0, 0, 2⟩
def VT_ID_NODE (k : Nat) : Fld := ⟨vtBase k + 0x0, 2, 18⟩
def VT_CTRL_ENABLE (k : Nat) : Fld := ⟨vtBase k + 0x8, 0, 1⟩
def VT_STATUS_SCTX (k : Nat) : Fld := ⟨vtBase k + 0x10, 0, 13⟩
def VT_STATUS_RCTX (k : Nat) : Fld := ⟨vtBase k + 0x10, 13, 13⟩
def VT_STATUS_RTAB (k : Nat) : Fld := ⟨vtBase k + 0x10, 26, 11⟩
def VT_TIMEOUT_TIMEOUT_US (k : Nat) : Fld := ⟨vtBase k + 0x18, 0, 17⟩
def VT_RTO_RTO_US (k : Nat) : Fld := ⟨vtBase k + 0x20, 0, 10⟩
def VT_CTX_IDLE_US (k : Nat) : Fld := ⟨vtBase k + 0x28, 0, 14⟩
def VT_EPOCH_CUR (k : Nat) : Fld := ⟨vtBase k + 0x30, 0, 2⟩
def VT_EPOCH_OLD (k : Nat) : Fld := ⟨vtBase k + 0x30, 2, 2⟩
def VT_EPOCH_WINDOW (k : Nat) : Fld := ⟨vtBase k + 0x30, 4, 1⟩
def VT_EPOCH_STAGED (k : Nat) : Fld := ⟨vtBase k + 0x30, 5, 1⟩
def VT_EPOCH_NEXT (k : Nat) : Fld := ⟨vtBase k + 0x30, 6, 2⟩
def VT_HEADLAND_WINDOW_US (k : Nat) : Fld := ⟨vtBase k + 0x38, 0, 10⟩
def VT_SWAP_ALM_COUNT (k : Nat) : Fld := ⟨vtBase k + 0x40, 0, 64⟩
def VT_QUORUM_Q (k : Nat) : Fld := ⟨vtBase k + 0x48, 0, 4⟩
def VT_SUPPRESS_HOLD_MS (k : Nat) : Fld := ⟨vtBase k + 0x50, 0, 16⟩
def VT_IRQ_REFUSED (k : Nat) : Fld := ⟨vtBase k + 0x58, 0, 1⟩
def VT_IRQ_TIMEOUT (k : Nat) : Fld := ⟨vtBase k + 0x58, 1, 1⟩
def VT_IRQ_NOTICE (k : Nat) : Fld := ⟨vtBase k + 0x58, 2, 1⟩
def VT_IRQ_SECOND (k : Nat) : Fld := ⟨vtBase k + 0x58, 3, 1⟩
def VT_IRQ_EPOCH_DROP (k : Nat) : Fld := ⟨vtBase k + 0x58, 4, 1⟩
def VT_IRQ_KEY_DROP (k : Nat) : Fld := ⟨vtBase k + 0x58, 5, 1⟩
def VT_IRQ_SUP_FULL (k : Nat) : Fld := ⟨vtBase k + 0x58, 6, 1⟩
def VT_IRQ_DEAD_FULL (k : Nat) : Fld := ⟨vtBase k + 0x58, 7, 1⟩
def VT_IRQ_EN_EN (k : Nat) : Fld := ⟨vtBase k + 0x60, 0, 8⟩
def VT_LAST_CODE (k : Nat) : Fld := ⟨vtBase k + 0x68, 0, 16⟩
def VT_LAST_NODE (k : Nat) : Fld := ⟨vtBase k + 0x68, 16, 18⟩
def VT_LAST_OFF_OFFSET (k : Nat) : Fld := ⟨vtBase k + 0x70, 0, 46⟩
def VT_TX_PKTS_COUNT (k : Nat) : Fld := ⟨vtBase k + 0x78, 0, 64⟩
def VT_RX_PKTS_COUNT (k : Nat) : Fld := ⟨vtBase k + 0x80, 0, 64⟩
def VT_RETX_COUNT (k : Nat) : Fld := ⟨vtBase k + 0x88, 0, 64⟩
def VT_DUPS_COUNT (k : Nat) : Fld := ⟨vtBase k + 0x90, 0, 64⟩
def VT_STALE_COUNT (k : Nat) : Fld := ⟨vtBase k + 0x98, 0, 64⟩
def VT_RX_BAD_COUNT (k : Nat) : Fld := ⟨vtBase k + 0xa0, 0, 64⟩
def VT_BUSY_NACKS_COUNT (k : Nat) : Fld := ⟨vtBase k + 0xa8, 0, 64⟩
def VT_EPOCH_DROPS_COUNT (k : Nat) : Fld := ⟨vtBase k + 0xb0, 0, 64⟩
def VT_KEY_DROPS_COUNT (k : Nat) : Fld := ⟨vtBase k + 0xb8, 0, 64⟩
def VT_RELAY_DROPS_COUNT (k : Nat) : Fld := ⟨vtBase k + 0xc0, 0, 64⟩
def VT_SUP_OVF_COUNT (k : Nat) : Fld := ⟨vtBase k + 0xc8, 0, 64⟩
def VT_OLD_INFLIGHT_COUNT (k : Nat) : Fld := ⟨vtBase k + 0xd0, 0, 32⟩
def VT_DEAD_CNT_COUNT (k : Nat) : Fld := ⟨vtBase k + 0xd8, 0, 11⟩
def VT_PAIR_SEL_NODE (k : Nat) : Fld := ⟨vtBase k + 0xe0, 0, 18⟩
def VT_PAIR_ISSUED_COUNT (k : Nat) : Fld := ⟨vtBase k + 0xe8, 0, 32⟩
def VT_PAIR_DONE_COMPLETED (k : Nat) : Fld := ⟨vtBase k + 0xf0, 0, 32⟩
def VT_PAIR_DONE_APPLIED (k : Nat) : Fld := ⟨vtBase k + 0xf0, 32, 32⟩
def VT_WIN_A_BASE (k : Nat) (i : Nat) : Fld := ⟨vtBase k + 0x400 + 16 * i, 0, 34⟩
def VT_WIN_A_EN (k : Nat) (i : Nat) : Fld := ⟨vtBase k + 0x400 + 16 * i, 34, 1⟩
def VT_WIN_B_LIMIT (k : Nat) (i : Nat) : Fld := ⟨vtBase k + 0x408 + 16 * i, 0, 34⟩
def VT_WIN_B_KEY (k : Nat) (i : Nat) : Fld := ⟨vtBase k + 0x408 + 16 * i, 34, 16⟩
def VT_WIN_B_PERM (k : Nat) (i : Nat) : Fld := ⟨vtBase k + 0x408 + 16 * i, 50, 4⟩
def VT_KEY_KEY (k : Nat) (i : Nat) : Fld := ⟨vtBase k + 0x800 + 8 * i, 0, 16⟩
def VT_KEY_EN (k : Nat) (i : Nat) : Fld := ⟨vtBase k + 0x800 + 8 * i, 16, 1⟩
def VT_RT_LOCAL_ENTRY (k : Nat) (i : Nat) : Fld := ⟨vtBase k + 0xc00 + 8 * i, 0, 25⟩
def VT_OP_ADDR_ADDR (k : Nat) (i : Nat) : Fld := ⟨vtBase k + 0x1000 + 64 * i, 0, 64⟩
def VT_OP_A_A (k : Nat) (i : Nat) : Fld := ⟨vtBase k + 0x1008 + 64 * i, 0, 64⟩
def VT_OP_B_B (k : Nat) (i : Nat) : Fld := ⟨vtBase k + 0x1010 + 64 * i, 0, 64⟩
def VT_OP_STAT_BUSY (k : Nat) (i : Nat) : Fld := ⟨vtBase k + 0x1020 + 64 * i, 0, 1⟩
def VT_OP_STAT_DONE (k : Nat) (i : Nat) : Fld := ⟨vtBase k + 0x1020 + 64 * i, 1, 1⟩
def VT_OP_STAT_STATUS (k : Nat) (i : Nat) : Fld := ⟨vtBase k + 0x1020 + 64 * i, 2, 16⟩
def VT_OP_RES0_RES (k : Nat) (i : Nat) : Fld := ⟨vtBase k + 0x1028 + 64 * i, 0, 64⟩
def VT_OP_KEY_KEY (k : Nat) (i : Nat) : Fld := ⟨vtBase k + 0x1030 + 64 * i, 0, 16⟩
def VT_OP_RES1_PSN (k : Nat) (i : Nat) : Fld := ⟨vtBase k + 0x1038 + 64 * i, 0, 32⟩
def VT_OP_RES1_GEN (k : Nat) (i : Nat) : Fld := ⟨vtBase k + 0x1038 + 64 * i, 32, 8⟩
def VT_SUP_A_TARGET (k : Nat) (i : Nat) : Fld := ⟨vtBase k + 0x2000 + 16 * i, 0, 18⟩
def VT_SUP_A_OPEN (k : Nat) (i : Nat) : Fld := ⟨vtBase k + 0x2000 + 16 * i, 18, 1⟩
def VT_SUP_A_COUNT (k : Nat) (i : Nat) : Fld := ⟨vtBase k + 0x2000 + 16 * i, 32, 32⟩
def VT_SUP_B_FIRST_ALM (k : Nat) (i : Nat) : Fld := ⟨vtBase k + 0x2008 + 16 * i, 0, 64⟩
def VT_RT_BOARD_ENTRY (k : Nat) (i : Nat) : Fld := ⟨vtBase k + 0x10000 + 8 * i, 0, 17⟩
def HBM_ID_STACK (s : Nat) : Fld := ⟨hbmBase s + 0x0, 0, 3⟩
def HBM_STATUS_READY (s : Nat) : Fld := ⟨hbmBase s + 0x8, 0, 1⟩
def HBM_STATUS_HOT (s : Nat) : Fld := ⟨hbmBase s + 0x8, 1, 1⟩
def HBM_STATUS_TEMP_C (s : Nat) : Fld := ⟨hbmBase s + 0x8, 8, 8⟩
def HBM_ECC_CORR_COUNT (s : Nat) : Fld := ⟨hbmBase s + 0x10, 0, 32⟩
def HBM_ECC_STAT_UNCORR (s : Nat) : Fld := ⟨hbmBase s + 0x18, 0, 1⟩
def HBM_ECC_STAT_CORR (s : Nat) : Fld := ⟨hbmBase s + 0x18, 1, 1⟩
def HBM_ECC_STAT_LAST_ADDR (s : Nat) : Fld := ⟨hbmBase s + 0x18, 6, 30⟩
def HBM_POISON_CNT_COUNT (s : Nat) : Fld := ⟨hbmBase s + 0x20, 0, 32⟩
def HBM_SCRUB_PERIOD_H (s : Nat) : Fld := ⟨hbmBase s + 0x28, 0, 16⟩
def HBM_SCRUB_POS_UNIT (s : Nat) : Fld := ⟨hbmBase s + 0x30, 0, 30⟩
def HBM_RD_BYTES_COUNT (s : Nat) : Fld := ⟨hbmBase s + 0x38, 0, 64⟩
def HBM_WR_BYTES_COUNT (s : Nat) : Fld := ⟨hbmBase s + 0x40, 0, 64⟩
def HBM_DEFER_COUNT (s : Nat) : Fld := ⟨hbmBase s + 0x48, 0, 64⟩
def HBM_REFRESH_CNT_COUNT (s : Nat) : Fld := ⟨hbmBase s + 0x50, 0, 64⟩
def HBM_REFUSED_COUNT (s : Nat) : Fld := ⟨hbmBase s + 0x58, 0, 32⟩
def HBM_RSV_SHARE (s : Nat) (i : Nat) : Fld := ⟨hbmBase s + 0x100 + 8 * i, 0, 7⟩
def HBM_RSV_ALLOW (s : Nat) (i : Nat) : Fld := ⟨hbmBase s + 0x100 + 8 * i, 7, 16⟩
def HBM_RSV_USED (s : Nat) (i : Nat) : Fld := ⟨hbmBase s + 0x100 + 8 * i, 32, 32⟩
def HBM_FRAME_A_DIRTY (s : Nat) (i : Nat) : Fld := ⟨hbmBase s + 0x100000 + 16 * i, 0, 32⟩
def HBM_FRAME_A_BLOCK (s : Nat) (i : Nat) : Fld := ⟨hbmBase s + 0x100000 + 16 * i, 32, 20⟩
def HBM_FRAME_A_STATE (s : Nat) (i : Nat) : Fld := ⟨hbmBase s + 0x100000 + 16 * i, 52, 3⟩
def HBM_FRAME_A_RO (s : Nat) (i : Nat) : Fld := ⟨hbmBase s + 0x100000 + 16 * i, 55, 1⟩
def HBM_FRAME_B_INFLIGHT (s : Nat) (i : Nat) : Fld := ⟨hbmBase s + 0x100008 + 16 * i, 0, 12⟩
def TIER_ID_DIE (k : Nat) : Fld := ⟨tierBase k + 0x0, 0, 2⟩
def TIER_CTRL_ENABLE (k : Nat) : Fld := ⟨tierBase k + 0x8, 0, 1⟩
def TIER_STATUS_ACTIVE (k : Nat) : Fld := ⟨tierBase k + 0x10, 0, 5⟩
def TIER_STATUS_LC (k : Nat) : Fld := ⟨tierBase k + 0x10, 5, 1⟩
def TIER_IRQ_JOB_DONE (k : Nat) : Fld := ⟨tierBase k + 0x20, 0, 1⟩
def TIER_IRQ_JOB_FAIL (k : Nat) : Fld := ⟨tierBase k + 0x20, 1, 1⟩
def TIER_IRQ_RING_FULL (k : Nat) : Fld := ⟨tierBase k + 0x20, 2, 1⟩
def TIER_IRQ_EN_EN (k : Nat) : Fld := ⟨tierBase k + 0x28, 0, 3⟩
def TIER_BT_BASE_BASE (k : Nat) : Fld := ⟨tierBase k + 0x30, 6, 40⟩
def TIER_BT_SIZE_ENTRIES (k : Nat) : Fld := ⟨tierBase k + 0x38, 0, 21⟩
def TIER_REGION_FIRST (k : Nat) (i : Nat) : Fld := ⟨tierBase k + 0x40 + 8 * i, 0, 15⟩
def TIER_REGION_COUNT (k : Nat) (i : Nat) : Fld := ⟨tierBase k + 0x40 + 8 * i, 16, 16⟩
def TIER_FETCH_BYTES_COUNT (k : Nat) : Fld := ⟨tierBase k + 0x50, 0, 64⟩
def TIER_WB_BYTES_COUNT (k : Nat) : Fld := ⟨tierBase k + 0x58, 0, 64⟩
def TIER_EVICTS_COUNT (k : Nat) : Fld := ⟨tierBase k + 0x60, 0, 64⟩
def TIER_MODEL_FRAMES_COUNT (k : Nat) : Fld := ⟨tierBase k + 0x68, 0, 19⟩
def TIER_LAST_CODE (k : Nat) : Fld := ⟨tierBase k + 0x70, 0, 16⟩
def TIER_LAST_CAUSE (k : Nat) : Fld := ⟨tierBase k + 0x70, 16, 16⟩
def TIER_LAST_RING (k : Nat) : Fld := ⟨tierBase k + 0x70, 32, 4⟩
def TIER_LAST_JOB_ID (k : Nat) : Fld := ⟨tierBase k + 0x70, 36, 16⟩
def TIER_LAST_HANDLE_HANDLE (k : Nat) : Fld := ⟨tierBase k + 0x78, 0, 32⟩
def TIER_PLOT_EN (k : Nat) (i : Nat) : Fld := ⟨tierBase k + 0x100 + 64 * i, 0, 1⟩
def TIER_PLOT_CLASS (k : Nat) (i : Nat) : Fld := ⟨tierBase k + 0x100 + 64 * i, 1, 1⟩
def TIER_PLOT_PKEY (k : Nat) (i : Nat) : Fld := ⟨tierBase k + 0x100 + 64 * i, 16, 16⟩
def TIER_RING_BASE_BASE (k : Nat) (i : Nat) : Fld := ⟨tierBase k + 0x108 + 64 * i, 7, 39⟩
def TIER_RING_SIZE_ENTRIES (k : Nat) (i : Nat) : Fld := ⟨tierBase k + 0x110 + 64 * i, 0, 13⟩
def TIER_HEAD_HEAD (k : Nat) (i : Nat) : Fld := ⟨tierBase k + 0x118 + 64 * i, 0, 13⟩
def TIER_TAIL_TAIL (k : Nat) (i : Nat) : Fld := ⟨tierBase k + 0x120 + 64 * i, 0, 13⟩
def TIER_RSTAT_ACTIVE (k : Nat) (i : Nat) : Fld := ⟨tierBase k + 0x128 + 64 * i, 0, 1⟩
def TIER_RSTAT_JOB_ID (k : Nat) (i : Nat) : Fld := ⟨tierBase k + 0x128 + 64 * i, 16, 16⟩
def TIER_QUOTA_A_HBM_LIMIT (k : Nat) (i : Nat) : Fld := ⟨tierBase k + 0x10000 + 32 * i, 0, 19⟩
def TIER_QUOTA_A_HBM_USED (k : Nat) (i : Nat) : Fld := ⟨tierBase k + 0x10000 + 32 * i, 32, 19⟩
def TIER_QUOTA_B_SILO_LIMIT (k : Nat) (i : Nat) : Fld := ⟨tierBase k + 0x10008 + 32 * i, 0, 18⟩
def TIER_QUOTA_B_SILO_USED (k : Nat) (i : Nat) : Fld := ⟨tierBase k + 0x10008 + 32 * i, 32, 18⟩
def TIER_FB_RATE (k : Nat) (i : Nat) : Fld := ⟨tierBase k + 0x10010 + 32 * i, 0, 20⟩
def TIER_FB_BURST (k : Nat) (i : Nat) : Fld := ⟨tierBase k + 0x10010 + 32 * i, 20, 20⟩
def TIER_FB_LEVEL (k : Nat) (i : Nat) : Fld := ⟨tierBase k + 0x10010 + 32 * i, 40, 24⟩
def SILO_ID_DIE (j : Nat) : Fld := ⟨siloBase j + 0x0, 0, 1⟩
def SILO_CTRL_ENABLE (j : Nat) : Fld := ⟨siloBase j + 0x8, 0, 1⟩
def SILO_STATUS_READY (j : Nat) : Fld := ⟨siloBase j + 0x10, 0, 1⟩
def SILO_STATUS_DEGRADED (j : Nat) : Fld := ⟨siloBase j + 0x10, 1, 1⟩
def SILO_STATUS_EXCESS (j : Nat) : Fld := ⟨siloBase j + 0x10, 2, 1⟩
def SILO_STATUS_FULL (j : Nat) : Fld := ⟨siloBase j + 0x10, 3, 1⟩
def SILO_STATUS_READONLY (j : Nat) : Fld := ⟨siloBase j + 0x10, 4, 1⟩
def SILO_GEOM_TARGETS (j : Nat) : Fld := ⟨siloBase j + 0x18, 0, 4⟩
def SILO_GEOM_RATE (j : Nat) : Fld := ⟨siloBase j + 0x18, 4, 12⟩
def SILO_GEOM_RAW_GB (j : Nat) : Fld := ⟨siloBase j + 0x18, 16, 32⟩
def SILO_LOGICAL_UNITS (j : Nat) : Fld := ⟨siloBase j + 0x20, 0, 32⟩
def SILO_LOGICAL_ZONE (j : Nat) : Fld := ⟨siloBase j + 0x20, 32, 14⟩
def SILO_OP_OP_PCT (j : Nat) : Fld := ⟨siloBase j + 0x28, 0, 6⟩
def SILO_LC_SLOTS_N (j : Nat) : Fld := ⟨siloBase j + 0x30, 0, 5⟩
def SILO_LC_SLOTS_PER_TENANT (j : Nat) : Fld := ⟨siloBase j + 0x30, 5, 5⟩
def SILO_LC_LIMIT_LIMIT_US (j : Nat) : Fld := ⟨siloBase j + 0x38, 0, 16⟩
def SILO_RETRY_LC_STEPS (j : Nat) : Fld := ⟨siloBase j + 0x40, 0, 4⟩
def SILO_RETRY_BE_STEPS (j : Nat) : Fld := ⟨siloBase j + 0x40, 4, 4⟩
def SILO_RD_THRESH (j : Nat) : Fld := ⟨siloBase j + 0x48, 0, 32⟩
def SILO_WEAR_DELTA (j : Nat) : Fld := ⟨siloBase j + 0x50, 0, 16⟩
def SILO_SPARE_WARN (j : Nat) : Fld := ⟨siloBase j + 0x58, 0, 6⟩
def SILO_CH_FAIL_MIN_BLOCKS (j : Nat) : Fld := ⟨siloBase j + 0x60, 0, 16⟩
def SILO_IRQ_UNCORR (j : Nat) : Fld := ⟨siloBase j + 0x68, 0, 1⟩
def SILO_IRQ_CH_FAIL (j : Nat) : Fld := ⟨siloBase j + 0x68, 1, 1⟩
def SILO_IRQ_SPARE (j : Nat) : Fld := ⟨siloBase j + 0x68, 2, 1⟩
def SILO_IRQ_LC_LATE (j : Nat) : Fld := ⟨siloBase j + 0x68, 3, 1⟩
def SILO_IRQ_PROG_FAIL (j : Nat) : Fld := ⟨siloBase j + 0x68, 4, 1⟩
def SILO_IRQ_EN_EN (j : Nat) : Fld := ⟨siloBase j + 0x70, 0, 5⟩
def SILO_LAST_CODE (j : Nat) : Fld := ⟨siloBase j + 0x78, 0, 16⟩
def SILO_LAST_CHANNEL (j : Nat) : Fld := ⟨siloBase j + 0x78, 16, 5⟩
def SILO_LAST_LU (j : Nat) : Fld := ⟨siloBase j + 0x78, 32, 32⟩
def SILO_RD_BYTES_COUNT (j : Nat) : Fld := ⟨siloBase j + 0x80, 0, 64⟩
def SILO_WR_BYTES_COUNT (j : Nat) : Fld := ⟨siloBase j + 0x88, 0, 64⟩
def SILO_LDPC_CORR_COUNT (j : Nat) : Fld := ⟨siloBase j + 0x90, 0, 64⟩
def SILO_RETRIES_COUNT (j : Nat) : Fld := ⟨siloBase j + 0x98, 0, 64⟩
def SILO_REBUILDS_COUNT (j : Nat) : Fld := ⟨siloBase j + 0xa0, 0, 64⟩
def SILO_RETIRED_COUNT (j : Nat) : Fld := ⟨siloBase j + 0xa8, 0, 64⟩
def SILO_SLOTS_BUSY (j : Nat) : Fld := ⟨siloBase j + 0xb0, 0, 32⟩
def SILO_CH_STATE (j : Nat) (i : Nat) : Fld := ⟨siloBase j + 0x100 + 8 * i, 0, 2⟩
def SILO_CH_SPARE_PCT (j : Nat) (i : Nat) : Fld := ⟨siloBase j + 0x100 + 8 * i, 2, 8⟩
def SILO_CH_RETIRED (j : Nat) (i : Nat) : Fld := ⟨siloBase j + 0x100 + 8 * i, 16, 16⟩
def SILO_CH_MAX_ERASE (j : Nat) (i : Nat) : Fld := ⟨siloBase j + 0x100 + 8 * i, 32, 32⟩
def TIER_MODEL_SRC_ADDR (k : Nat) : Fld := ⟨tierBase k + 0x80008, 0, 64⟩
def TIER_MODEL_SEL_MOD (k : Nat) : Fld := ⟨tierBase k + 0x80010, 0, 5⟩
def TIER_MODEL_SEL_RES (k : Nat) : Fld := ⟨tierBase k + 0x80010, 8, 5⟩
def TIER_MODEL_STATUS_STATE (k : Nat) : Fld := ⟨tierBase k + 0x80018, 0, 3⟩
def TIER_MODEL_STATUS_CODE (k : Nat) : Fld := ⟨tierBase k + 0x80018, 16, 16⟩
def TIER_MODEL_STATUS_REASON (k : Nat) : Fld := ⟨tierBase k + 0x80018, 32, 4⟩
def TIER_MODEL_ID_IMAGE_ID (k : Nat) : Fld := ⟨tierBase k + 0x80020, 0, 64⟩
def TIER_MODEL_PROG_STAGED (k : Nat) : Fld := ⟨tierBase k + 0x80028, 0, 32⟩
def TIER_MODEL_PROG_PLACED (k : Nat) : Fld := ⟨tierBase k + 0x80028, 32, 32⟩
def TIER_MODEL_RETRIES_COUNT (k : Nat) : Fld := ⟨tierBase k + 0x80030, 0, 32⟩
def TIER_MODEL_HTAB_BASE (k : Nat) : Fld := ⟨tierBase k + 0x80038, 6, 40⟩
def TIER_MODEL_TTAB_BASE (k : Nat) : Fld := ⟨tierBase k + 0x80040, 6, 40⟩
def TIER_MODEL_TABSZ_HTAB (k : Nat) : Fld := ⟨tierBase k + 0x80048, 0, 26⟩
def TIER_MODEL_TABSZ_TTAB (k : Nat) : Fld := ⟨tierBase k + 0x80048, 32, 26⟩
def TIER_MODEL_LIMIT_FRAMES (k : Nat) : Fld := ⟨tierBase k + 0x80050, 0, 19⟩
def TIER_MODEL_LIMIT_MAP_BASE (k : Nat) : Fld := ⟨tierBase k + 0x80050, 19, 21⟩
def TIER_MODEL_IRQ_DONE (k : Nat) : Fld := ⟨tierBase k + 0x80058, 0, 1⟩
def TIER_MODEL_IRQ_FAIL (k : Nat) : Fld := ⟨tierBase k + 0x80058, 1, 1⟩
def TIER_MODEL_IRQ_EN_EN (k : Nat) : Fld := ⟨tierBase k + 0x80060, 0, 2⟩
def ALM_COUNT_COUNT : Fld := ⟨almBase + 0x0, 0, 64⟩
def ALM_FRAC_FRAC : Fld := ⟨almBase + 0x8, 0, 32⟩
def ALM_STATE_STATE : Fld := ⟨almBase + 0x10, 0, 2⟩
def ALM_STATE_MISSED : Fld := ⟨almBase + 0x10, 8, 8⟩
def ALM_NEXT_COUNT : Fld := ⟨almBase + 0x18, 0, 64⟩
def ALM_SYNC_EN : Fld := ⟨almBase + 0x20, 0, 1⟩
def ALM_SYNC_PERIOD_MS : Fld := ⟨almBase + 0x20, 1, 10⟩
def ALM_SYNC_HOLD_MAX : Fld := ⟨almBase + 0x20, 11, 5⟩
def ALM_RATE_RATE : Fld := ⟨almBase + 0x28, 0, 32⟩
def ALM_ERR_ERR : Fld := ⟨almBase + 0x30, 0, 16⟩
def ALM_LAST_EDGE_COUNT : Fld := ⟨almBase + 0x38, 0, 64⟩
def ALM_IRQ_HOLDOVER : Fld := ⟨almBase + 0x40, 0, 1⟩
def ALM_IRQ_UNLOCK : Fld := ⟨almBase + 0x40, 1, 1⟩
def ALM_IRQ_STEP : Fld := ⟨almBase + 0x40, 2, 1⟩
def ALM_IRQ_PEER_SKEW : Fld := ⟨almBase + 0x40, 3, 1⟩
def ALM_IRQ_THROTTLE : Fld := ⟨almBase + 0x40, 4, 1⟩
def ALM_IRQ_MODE_APPLIED : Fld := ⟨almBase + 0x40, 5, 1⟩
def ALM_IRQ_MODE_LATE : Fld := ⟨almBase + 0x40, 6, 1⟩
def ALM_IRQ_EN_EN : Fld := ⟨almBase + 0x48, 0, 7⟩
def ALM_THR_SEQ_SEQ : Fld := ⟨almBase + 0x50, 0, 64⟩
def ALM_THR_OPEN_OPEN : Fld := ⟨almBase + 0x58, 0, 1⟩
def ALM_MODE_CUR : Fld := ⟨almBase + 0x60, 0, 8⟩
def ALM_MODE_PEND : Fld := ⟨almBase + 0x60, 8, 8⟩
def ALM_MODE_PSTATE : Fld := ⟨almBase + 0x60, 16, 3⟩
def ALM_MODE_CODE : Fld := ⟨almBase + 0x60, 32, 16⟩
def ALM_MODE_COUNT_COUNT : Fld := ⟨almBase + 0x68, 0, 64⟩
def ALM_MODE_ARG_COUNT : Fld := ⟨almBase + 0x78, 0, 64⟩
def ALM_MODE_TIME_GUARD_US : Fld := ⟨almBase + 0x80, 0, 17⟩
def ALM_MODE_TIME_WIN_US : Fld := ⟨almBase + 0x80, 32, 17⟩
def ALM_MODE_APPLIED_COUNT : Fld := ⟨almBase + 0x88, 0, 64⟩
def ALM_PEER_LIMIT_NS : Fld := ⟨almBase + 0x90, 0, 8⟩
def ALM_PEER_OFS_OFS (i : Nat) : Fld := ⟨almBase + 0x100 + 8 * i, 0, 16⟩
def ALM_PEER_OFS_VALID (i : Nat) : Fld := ⟨almBase + 0x100 + 8 * i, 16, 1⟩
def ALM_THR_LOG_WORD (i : Nat) (w : Nat) : Fld := ⟨almBase + 0x1000 + 32 * i + 8 * w, 0, 64⟩
def PCI_ID_VENDOR : Fld := ⟨pciBase + 0x0, 0, 16⟩
def PCI_ID_DEVICE : Fld := ⟨pciBase + 0x0, 16, 16⟩
def PCI_ID_REV : Fld := ⟨pciBase + 0x0, 32, 8⟩
def PCI_LINK_SPEED : Fld := ⟨pciBase + 0x8, 0, 3⟩
def PCI_LINK_WIDTH : Fld := ⟨pciBase + 0x8, 3, 5⟩
def PCI_LINK_FLIT : Fld := ⟨pciBase + 0x8, 8, 1⟩
def PCI_STATUS_READY : Fld := ⟨pciBase + 0x10, 0, 1⟩
def PCI_STATUS_FLR_SEEN : Fld := ⟨pciBase + 0x10, 1, 1⟩
def PCI_HOST_KEY_KEY : Fld := ⟨pciBase + 0x18, 0, 16⟩
def PCI_BAR4_BASE : Fld := ⟨pciBase + 0x20, 0, 10⟩
def PCI_BAR4_SIZE_LOG2 : Fld := ⟨pciBase + 0x20, 12, 4⟩
def PCI_IRQ_BAR_REFUSED : Fld := ⟨pciBase + 0x28, 0, 1⟩
def PCI_IRQ_ACCESS : Fld := ⟨pciBase + 0x28, 1, 1⟩
def PCI_IRQ_DB_RANGE : Fld := ⟨pciBase + 0x28, 2, 1⟩
def PCI_IRQ_POISON : Fld := ⟨pciBase + 0x28, 3, 1⟩
def PCI_IRQ_CTO : Fld := ⟨pciBase + 0x28, 4, 1⟩
def PCI_IRQ_DMA_WINDOW : Fld := ⟨pciBase + 0x28, 5, 1⟩
def PCI_IRQ_DEGRADED : Fld := ⟨pciBase + 0x28, 6, 1⟩
def PCI_IRQ_LINK_DOWN : Fld := ⟨pciBase + 0x28, 7, 1⟩
def PCI_IRQ_EN_EN : Fld := ⟨pciBase + 0x30, 0, 8⟩
def PCI_IRQ_EN_MGT_EN : Fld := ⟨pciBase + 0x30, 8, 8⟩
def PCI_LAST_CODE : Fld := ⟨pciBase + 0x38, 0, 16⟩
def PCI_LAST_CAUSE : Fld := ⟨pciBase + 0x38, 16, 16⟩
def PCI_LAST_ADDR : Fld := ⟨pciBase + 0x38, 32, 32⟩
def PCI_DB_DROP_COUNT : Fld := ⟨pciBase + 0x48, 0, 32⟩
def PCI_IMG_SRC_ADDR : Fld := ⟨pciBase + 0x50, 0, 64⟩
def PCI_IMG_BYTES_BYTES : Fld := ⟨pciBase + 0x58, 0, 27⟩
def PCI_IMG_STAT_BUSY : Fld := ⟨pciBase + 0x68, 0, 1⟩
def PCI_IMG_STAT_CODE : Fld := ⟨pciBase + 0x68, 16, 16⟩
def PCI_APER_BASE (i : Nat) : Fld := ⟨pciBase + 0x100 + 8 * i, 0, 11⟩
def PCI_APER_EN (i : Nat) : Fld := ⟨pciBase + 0x100 + 8 * i, 11, 1⟩
def PCI_DMA_WIN_A_EN (i : Nat) : Fld := ⟨pciBase + 0x200 + 16 * i, 0, 1⟩
def PCI_DMA_WIN_A_BASE (i : Nat) : Fld := ⟨pciBase + 0x200 + 16 * i, 12, 52⟩
def PCI_DMA_WIN_B_LIMIT (i : Nat) : Fld := ⟨pciBase + 0x208 + 16 * i, 12, 52⟩
def PCI_DB_PEND_PEND (i : Nat) : Fld := ⟨pciBase + 0x1000 + 8 * i, 0, 64⟩
def PCI_DB_Q_QTAIL (i : Nat) : Fld := ⟨pciBase + 0x20000 + 16 * i, 0, 13⟩
def PCI_DB_O_OHEAD (i : Nat) : Fld := ⟨pciBase + 0x20008 + 16 * i, 0, 17⟩
def CS_REPAIR_EN (p : Nat) : Fld := ⟨csBase p + 0x20, 0, 1⟩
def CS_REPAIR_CORR_MAX (p : Nat) : Fld := ⟨csBase p + 0x20, 8, 8⟩
def CS_REPAIR_SPARE_MIN (p : Nat) : Fld := ⟨csBase p + 0x20, 16, 4⟩
def CS_REPAIR_QUEUED (p : Nat) : Fld := ⟨csBase p + 0x20, 20, 12⟩
def CS_REPAIRS_COUNT (p : Nat) : Fld := ⟨csBase p + 0x28, 0, 32⟩
def HBM_REPAIR_CORR_MAX (s : Nat) : Fld := ⟨hbmBase s + 0x60, 0, 8⟩
def HBM_REPAIR_SOFT (s : Nat) : Fld := ⟨hbmBase s + 0x60, 16, 16⟩
def HBM_REPAIR_HARD (s : Nat) : Fld := ⟨hbmBase s + 0x60, 32, 16⟩
def HBM_REPAIR_LAST_ROW (s : Nat) : Fld := ⟨hbmBase s + 0x68, 0, 36⟩
def MGT_CORE_ERR_WORD (i : Nat) (w : Nat) : Fld := ⟨mgtBase + 0x100000 + 32 * i + 8 * w, 0, 64⟩
def MGT_DIE_ERR_WORD (i : Nat) (w : Nat) : Fld := ⟨mgtBase + 0x102000 + 32 * i + 8 * w, 0, 64⟩
def MGT_PART_ERR_WORD (i : Nat) : Fld := ⟨mgtBase + 0x102800 + 8 * i, 0, 64⟩
def MGT_FENCE_STAT_BUSY : Fld := ⟨mgtBase + 0x103008, 0, 1⟩
def MGT_FENCE_STAT_PASSED : Fld := ⟨mgtBase + 0x103008, 1, 1⟩
def MGT_FENCE_STAT_CODE : Fld := ⟨mgtBase + 0x103008, 16, 16⟩
def MGT_SUBST_STAT_PENDING : Fld := ⟨mgtBase + 0x103018, 0, 1⟩
def MGT_SUBST_STAT_BUSY : Fld := ⟨mgtBase + 0x103018, 1, 1⟩
def MGT_SUBST_STAT_SPARE_EXHAUSTED : Fld := ⟨mgtBase + 0x103018, 2, 1⟩
def MGT_SUBST_STAT_CODE : Fld := ⟨mgtBase + 0x103018, 16, 16⟩
def MGT_SUBST_STAT_DETAIL : Fld := ⟨mgtBase + 0x103018, 32, 16⟩
def MGT_WDOG_TIMEOUT_MS : Fld := ⟨mgtBase + 0x103020, 0, 16⟩
def MGT_COALESCE_HOLD_MS : Fld := ⟨mgtBase + 0x103028, 0, 16⟩
def MGT_COALESCE_OVF : Fld := ⟨mgtBase + 0x103028, 16, 32⟩
def MGT_BB_FROZEN : Fld := ⟨mgtBase + 0x103030, 0, 1⟩
def MGT_BB_COPIED : Fld := ⟨mgtBase + 0x103030, 1, 1⟩
def MGT_BB_COPY_FAIL : Fld := ⟨mgtBase + 0x103030, 2, 1⟩
def MGT_BB_SLOT : Fld := ⟨mgtBase + 0x103030, 3, 3⟩
def MGT_BB_LOST : Fld := ⟨mgtBase + 0x103030, 16, 16⟩
def MGT_BB_SEQ : Fld := ⟨mgtBase + 0x103030, 32, 32⟩
def MGT_BB_REC_WORD (i : Nat) (w : Nat) : Fld := ⟨mgtBase + 0x110000 + 32 * i + 8 * w, 0, 64⟩
def SEC_ID_ROM_VER : Fld := ⟨secBase + 0x0, 0, 8⟩
def SEC_ID_SVN_MIN : Fld := ⟨secBase + 0x0, 8, 8⟩
def SEC_ID_OWNER_KEYS : Fld := ⟨secBase + 0x0, 16, 3⟩
def SEC_ID_DEBUG_ALLOW : Fld := ⟨secBase + 0x0, 19, 1⟩
def SEC_STATE_BOOT : Fld := ⟨secBase + 0x8, 0, 2⟩
def SEC_STATE_KEYSTATE : Fld := ⟨secBase + 0x8, 2, 2⟩
def SEC_STATE_KEY_EPOCH : Fld := ⟨secBase + 0x8, 4, 7⟩
def SEC_STATE_MODEL_KEY : Fld := ⟨secBase + 0x8, 11, 1⟩
def SEC_STATE_JTAG : Fld := ⟨secBase + 0x8, 12, 2⟩
def SEC_FUSE_MIN_MIN : Fld := ⟨secBase + 0x10, 0, 8⟩
def SEC_ALARM_LVL_LEVEL : Fld := ⟨secBase + 0x18, 0, 8⟩
def SEC_ALARM_STAT_FIRED : Fld := ⟨secBase + 0x20, 0, 4⟩
def SEC_ALARM_STAT_HIGHEST : Fld := ⟨secBase + 0x20, 4, 2⟩
def SEC_ALARM_STAT_HALTED : Fld := ⟨secBase + 0x20, 6, 1⟩
def SEC_ALARM_STAT_SCRUB_DONE : Fld := ⟨secBase + 0x20, 7, 1⟩
def SEC_ALARM_STAT_KEYS_ERASED : Fld := ⟨secBase + 0x20, 8, 1⟩
def SEC_ALARM_CNT_COUNT : Fld := ⟨secBase + 0x28, 0, 64⟩
def SEC_MEAS_SEL_INDEX : Fld := ⟨secBase + 0x30, 0, 4⟩
def SEC_MEAS_HASH (i : Nat) : Fld := ⟨secBase + 0x38 + 8 * i, 0, 64⟩
def SEC_IRQ_ALARM : Fld := ⟨secBase + 0x68, 0, 1⟩
def SEC_IRQ_TAG_EVENT : Fld := ⟨secBase + 0x68, 1, 1⟩
def SEC_IRQ_IMG_EVENT : Fld := ⟨secBase + 0x68, 2, 1⟩
def SEC_IRQ_PROV : Fld := ⟨secBase + 0x68, 3, 1⟩
def SEC_IRQ_EN_EN : Fld := ⟨secBase + 0x70, 0, 4⟩
def SEC_LAST_CODE : Fld := ⟨secBase + 0x78, 0, 16⟩
def SEC_LAST_DETAIL : Fld := ⟨secBase + 0x78, 32, 32⟩
def SEC_TAG_EVENTS_COUNT : Fld := ⟨secBase + 0x80, 0, 32⟩
def PWR_STATUS_PHASE : Fld := ⟨pwrBase + 0x0, 0, 4⟩
def PWR_STATUS_MAIN_EN : Fld := ⟨pwrBase + 0x0, 4, 1⟩
def PWR_STATUS_MAIN_PG : Fld := ⟨pwrBase + 0x0, 5, 1⟩
def PWR_STATUS_DEGRADED : Fld := ⟨pwrBase + 0x0, 6, 1⟩
def PWR_STATUS_CODE : Fld := ⟨pwrBase + 0x0, 16, 16⟩
def PWR_FUSE_SUST_W : Fld := ⟨pwrBase + 0x8, 0, 16⟩
def PWR_FUSE_EXC_W : Fld := ⟨pwrBase + 0x8, 16, 16⟩
def PWR_FUSE_TRIP_C : Fld := ⟨pwrBase + 0x8, 32, 8⟩
def PWR_FUSE_HBM_TRIP_C : Fld := ⟨pwrBase + 0x8, 40, 8⟩
def PWR_CAP_SUST : Fld := ⟨pwrBase + 0x10, 0, 16⟩
def PWR_CAP_EXC : Fld := ⟨pwrBase + 0x10, 16, 16⟩
def PWR_TOTAL_SAMPLE_W : Fld := ⟨pwrBase + 0x18, 0, 16⟩
def PWR_TOTAL_MEAN_W : Fld := ⟨pwrBase + 0x18, 16, 16⟩
def PWR_EXC_STATE : Fld := ⟨pwrBase + 0x20, 0, 2⟩
def PWR_EXC_ELAPSED_US : Fld := ⟨pwrBase + 0x20, 16, 16⟩
def PWR_EXC_COUNT : Fld := ⟨pwrBase + 0x20, 32, 32⟩
def PWR_THERM_WARN_C : Fld := ⟨pwrBase + 0x28, 0, 8⟩
def PWR_THERM_HBM_WARN_C : Fld := ⟨pwrBase + 0x28, 8, 8⟩
def PWR_MGT_DUTY_DUTY : Fld := ⟨pwrBase + 0x30, 0, 9⟩
def PWR_MGT_DUTY_DIES : Fld := ⟨pwrBase + 0x30, 24, 40⟩
def PWR_IRQ_RAIL : Fld := ⟨pwrBase + 0x40, 0, 1⟩
def PWR_IRQ_WARN : Fld := ⟨pwrBase + 0x40, 1, 1⟩
def PWR_IRQ_TRIP : Fld := ⟨pwrBase + 0x40, 2, 1⟩
def PWR_IRQ_SEQ : Fld := ⟨pwrBase + 0x40, 3, 1⟩
def PWR_IRQ_EN_EN : Fld := ⟨pwrBase + 0x48, 0, 4⟩
def PWR_DIE_BUDGET_W (i : Nat) : Fld := ⟨pwrBase + 0x100 + 8 * i, 0, 16⟩
def PWR_DIE_MEAN_W (i : Nat) : Fld := ⟨pwrBase + 0x100 + 8 * i, 16, 16⟩
def PWR_DIE_DUTY (i : Nat) : Fld := ⟨pwrBase + 0x100 + 8 * i, 32, 9⟩
def PWR_TEMP_TEMP_C (i : Nat) : Fld := ⟨pwrBase + 0x300 + 8 * i, 0, 8⟩
def PWR_TEMP_MAX_C (i : Nat) : Fld := ⟨pwrBase + 0x300 + 8 * i, 8, 8⟩
def PWR_RAIL_STAT_MV (i : Nat) : Fld := ⟨pwrBase + 0x500 + 8 * i, 0, 16⟩
def PWR_RAIL_STAT_AMPS (i : Nat) : Fld := ⟨pwrBase + 0x500 + 8 * i, 16, 16⟩
def PWR_RAIL_STAT_IN_BAND (i : Nat) : Fld := ⟨pwrBase + 0x500 + 8 * i, 32, 1⟩
def CLK_PLL_ROOT_MHZ : Fld := ⟨clkBase + 0x0, 0, 13⟩
def CLK_PLL_LOCKED : Fld := ⟨clkBase + 0x0, 13, 1⟩
def CLK_PLL_RELOCKS : Fld := ⟨clkBase + 0x0, 16, 8⟩
def CLK_ALIGN_ATTEMPTS : Fld := ⟨clkBase + 0x8, 0, 2⟩
def CLK_ALIGN_DONE : Fld := ⟨clkBase + 0x8, 2, 1⟩
def CLK_ALIGN_LOCK_CYC : Fld := ⟨clkBase + 0x8, 32, 32⟩
def CLK_REF_REF_OK : Fld := ⟨clkBase + 0x10, 0, 1⟩
def CLK_REF_MIN_PS : Fld := ⟨clkBase + 0x10, 16, 16⟩
def CLK_REF_MAX_PS : Fld := ⟨clkBase + 0x10, 32, 16⟩
def CLK_DIE_GATED_COUNT (i : Nat) : Fld := ⟨clkBase + 0x20 + 8 * i, 0, 64⟩
def MGT_ID_STEPPING : Fld := ⟨mgtBase + 0x0, 0, 8⟩
def MGT_ID_GRADE : Fld := ⟨mgtBase + 0x0, 8, 1⟩
def MGT_ID_SERIAL : Fld := ⟨mgtBase + 0x0, 16, 48⟩
def MGT_CFG_STAT_CODE : Fld := ⟨mgtBase + 0x8, 0, 16⟩
def MGT_CFG_STAT_SECTION : Fld := ⟨mgtBase + 0x8, 16, 8⟩
def MGT_CFG_STAT_ROW : Fld := ⟨mgtBase + 0x8, 24, 4⟩
def MGT_CFG_STAT_KIND : Fld := ⟨mgtBase + 0x8, 28, 1⟩
def MGT_BUS_MODE : Fld := ⟨mgtBase + 0x10, 0, 1⟩
def MGT_BUS_ADDR : Fld := ⟨mgtBase + 0x10, 1, 7⟩
def MGT_BUS_EID : Fld := ⟨mgtBase + 0x10, 8, 8⟩
def MGT_BUS_ERRORS : Fld := ⟨mgtBase + 0x10, 16, 32⟩
def MGT_TELEM_SEQ : Fld := ⟨mgtBase + 0x18, 0, 32⟩
def MGT_TELEM_MISSED : Fld := ⟨mgtBase + 0x18, 32, 32⟩
def MGT_FWUP_STATE : Fld := ⟨mgtBase + 0x20, 0, 3⟩
def MGT_FWUP_COMPONENT : Fld := ⟨mgtBase + 0x20, 3, 5⟩
def MGT_FWUP_CODE : Fld := ⟨mgtBase + 0x20, 16, 16⟩
def MGT_IRQ_CFG : Fld := ⟨mgtBase + 0x28, 0, 1⟩
def MGT_IRQ_FWUP : Fld := ⟨mgtBase + 0x28, 1, 1⟩
def MGT_IRQ_BUS_ERR : Fld := ⟨mgtBase + 0x28, 2, 1⟩
def MGT_IRQ_EVT_DROP : Fld := ⟨mgtBase + 0x28, 3, 1⟩
def MGT_IRQ_EN_EN : Fld := ⟨mgtBase + 0x30, 0, 4⟩
def MGT_CMD_CNT_DONE : Fld := ⟨mgtBase + 0x38, 0, 32⟩
def MGT_CMD_CNT_REFUSED : Fld := ⟨mgtBase + 0x38, 32, 32⟩
def MGT_LAST_CODE : Fld := ⟨mgtBase + 0x40, 0, 16⟩
def MGT_LAST_CMD : Fld := ⟨mgtBase + 0x40, 16, 8⟩
def MGT_TF_WORD (i : Nat) : Fld := ⟨mgtBase + 0x8000 + 8 * i, 0, 64⟩
def CORE_ERR_ENG_WORD (p : Nat) (i : Nat) (w : Nat) : Fld := ⟨coreBase p + 0x100 + 32 * i + 8 * w, 0, 64⟩

end Sys2Proof.Machine
end

