-- ==== Sys2Proof/Machine/RegTable.lean ====
section
/-!
DEFINITION. What software access does at each register: the Access column of every register table (R9) as rows of
an access table, the decoding of a register address to its row (R27, R28, R29), and the value every register holds
after a cold reset (R11; IMG fields read as zero until the image is loaded).
-/
namespace Sys2Proof.Machine

/-- The access codes of R9. A bit that no field names is RSVD. -/
inductive Acc9 where
  | ro | rw | rw1c | wo
deriving DecidableEq, Repr

/-- One row: offset of the first register, the two repeat counts and strides, and the fields (lowest bit, width,
access). -/
structure RegRow where
  off : Nat
  n1 : Nat
  s1 : Nat
  n2 : Nat
  s2 : Nat
  fields : List (Nat × Nat × Acc9)
deriving DecidableEq, Repr

/-- Whether an offset within the block falls on this row. -/
def RegRow.hits (r : RegRow) (o : Nat) : Bool :=
  if o < r.off then false
  else
    let d := o - r.off
    let i := if r.s1 = 0 then 0 else d / r.s1
    let e := if r.s1 = 0 then d else d % r.s1
    let j := if r.s2 = 0 then 0 else e / r.s2
    let e2 := if r.s2 = 0 then e else e % r.s2
    i < r.n1 && j < r.n2 && e2 == 0

/-- Registers of the CORE block. -/
def rowsCORE : List RegRow :=
  [⟨0x0, 1, 0, 1, 0, [(23, 1, .ro), (16, 7, .ro), (12, 4, .ro), (8, 4, .ro), (0, 8, .ro)]⟩,
   ⟨0x8, 1, 0, 1, 0, [(0, 3, .wo)]⟩,
   ⟨0x10, 1, 0, 1, 0, [(32, 16, .ro), (16, 16, .ro), (0, 3, .ro)]⟩,
   ⟨0x18, 1, 0, 1, 0, [(6, 19, .rw)]⟩,
   ⟨0x20, 1, 0, 1, 0, [(0, 17, .rw)]⟩,
   ⟨0x28, 1, 0, 1, 0, [(0, 17, .ro)]⟩,
   ⟨0x30, 1, 0, 1, 0, [(0, 17, .rw)]⟩,
   ⟨0x38, 1, 0, 1, 0, [(0, 64, .rw)]⟩,
   ⟨0x40, 1, 0, 1, 0, [(0, 64, .rw)]⟩,
   ⟨0x48, 1, 0, 1, 0, [(0, 17, .ro), (24, 8, .ro)]⟩,
   ⟨0x50, 1, 0, 1, 0, [(0, 64, .ro)]⟩,
   ⟨0x58, 1, 0, 1, 0, [(0, 64, .ro)]⟩] ++
  [⟨0x60, 1, 0, 1, 0, [(0, 64, .ro)]⟩,
   ⟨0x68, 1, 0, 1, 0, [(0, 64, .ro)]⟩,
   ⟨0x70, 1, 0, 1, 0, [(0, 64, .ro)]⟩,
   ⟨0x78, 1, 0, 1, 0, [(0, 32, .rw)]⟩,
   ⟨0x80, 1, 0, 1, 0, [(0, 1, .rw1c), (1, 1, .rw1c), (2, 1, .rw1c), (3, 1, .rw1c), (4, 1, .rw1c), (5, 1, .rw1c)]⟩,
   ⟨0x88, 1, 0, 1, 0, [(0, 6, .rw)]⟩,
   ⟨0x90, 1, 0, 1, 0, [(0, 4, .ro), (4, 1, .ro), (5, 1, .ro), (16, 16, .ro)]⟩,
   ⟨0x98, 1, 0, 1, 0, [(0, 32, .ro)]⟩,
   ⟨0x8000, 1024, 8, 1, 0, [(0, 32, .rw), (32, 1, .ro), (33, 14, .ro)]⟩,
   ⟨0xa000, 1024, 8, 1, 0, [(0, 32, .ro)]⟩,
   ⟨0x100, 6, 32, 4, 8, [(0, 64, .ro)]⟩]

/-- Registers of the CS block. -/
def rowsCS : List RegRow :=
  [⟨0x0, 1, 0, 1, 0, [(0, 32, .ro)]⟩,
   ⟨0x8, 1, 0, 1, 0, [(0, 1, .rw1c), (1, 1, .rw1c), (32, 25, .ro)]⟩,
   ⟨0x10, 1, 0, 1, 0, [(0, 16, .rw)]⟩,
   ⟨0x18, 1, 0, 1, 0, [(0, 32, .ro)]⟩,
   ⟨0x20, 1, 0, 1, 0, [(0, 1, .rw), (8, 8, .rw), (16, 4, .ro), (20, 12, .ro)]⟩,
   ⟨0x28, 1, 0, 1, 0, [(0, 32, .ro)]⟩]

/-- Registers of the MX block. -/
def rowsMX : List RegRow :=
  [⟨0x0, 1, 0, 1, 0, [(0, 2, .ro), (2, 1, .ro), (3, 1, .ro), (4, 1, .ro), (5, 1, .ro), (8, 4, .ro), (12, 4, .ro)]⟩,
   ⟨0x8, 1, 0, 1, 0, [(0, 7, .ro)]⟩,
   ⟨0x10, 1, 0, 1, 0, [(0, 9, .ro)]⟩,
   ⟨0x18, 1, 0, 1, 0, [(0, 64, .ro)]⟩,
   ⟨0x20, 1, 0, 1, 0, [(0, 64, .ro)]⟩,
   ⟨0x28, 1, 0, 1, 0, [(0, 64, .ro)]⟩,
   ⟨0x30, 1, 0, 1, 0, [(0, 64, .ro)]⟩]

/-- Registers of the MV block. -/
def rowsMV : List RegRow :=
  [⟨0x0, 1, 0, 1, 0, [(0, 1, .ro), (1, 1, .ro), (2, 1, .ro)]⟩,
   ⟨0x8, 1, 0, 1, 0, [(0, 64, .ro)]⟩,
   ⟨0x10, 1, 0, 1, 0, [(0, 64, .ro)]⟩,
   ⟨0x18, 1, 0, 1, 0, [(0, 64, .ro)]⟩]

/-- Registers of the VX block. -/
def rowsVX : List RegRow :=
  [⟨0x0, 1, 0, 1, 0, [(0, 1, .rw1c), (1, 1, .rw1c), (2, 1, .rw1c), (3, 1, .rw1c), (4, 1, .rw1c)]⟩,
   ⟨0x8, 1, 0, 1, 0, [(0, 1, .ro), (1, 1, .ro)]⟩,
   ⟨0x10, 1, 0, 1, 0, [(0, 64, .ro)]⟩]

/-- Registers of the WIN block. -/
def rowsWIN : List RegRow :=
  [⟨0x0, 1, 0, 1, 0, [(0, 2, .ro)]⟩,
   ⟨0x8, 1, 0, 1, 0, [(0, 1, .rw)]⟩,
   ⟨0x10, 1, 0, 1, 0, [(0, 1, .ro), (1, 4, .ro), (5, 1, .ro)]⟩,
   ⟨0x18, 1, 0, 1, 0, [(0, 4, .wo), (4, 1, .wo)]⟩,
   ⟨0x20, 1, 0, 1, 0, [(0, 1, .rw1c), (1, 1, .rw1c), (2, 1, .rw1c), (3, 1, .rw1c)]⟩,
   ⟨0x28, 1, 0, 1, 0, [(0, 4, .rw)]⟩,
   ⟨0x30, 1, 0, 1, 0, [(0, 64, .ro)]⟩,
   ⟨0x38, 1, 0, 1, 0, [(0, 64, .ro)]⟩,
   ⟨0x40, 1, 0, 1, 0, [(0, 64, .ro)]⟩,
   ⟨0x48, 1, 0, 1, 0, [(0, 64, .ro)]⟩,
   ⟨0x50, 1, 0, 1, 0, [(0, 16, .ro), (16, 4, .ro), (20, 16, .ro)]⟩,
   ⟨0x100, 16, 64, 1, 0, [(0, 1, .ro), (1, 1, .ro), (16, 16, .ro)]⟩] ++
  [⟨0x108, 16, 64, 1, 0, [(7, 39, .rw)]⟩,
   ⟨0x110, 16, 64, 1, 0, [(0, 13, .rw)]⟩,
   ⟨0x118, 16, 64, 1, 0, [(0, 13, .ro)]⟩,
   ⟨0x120, 16, 64, 1, 0, [(0, 13, .rw)]⟩,
   ⟨0x128, 16, 64, 1, 0, [(0, 1, .ro), (1, 1, .ro), (16, 16, .ro), (32, 32, .ro)]⟩]

/-- Registers of the THR block. -/
def rowsTHR : List RegRow :=
  [⟨0x0, 1, 0, 1, 0, [(0, 2, .ro)]⟩,
   ⟨0x8, 1, 0, 1, 0, [(0, 1, .rw)]⟩,
   ⟨0x10, 1, 0, 1, 0, [(0, 1, .ro), (1, 4, .ro), (5, 3, .ro)]⟩,
   ⟨0x18, 1, 0, 1, 0, [(0, 4, .wo), (4, 1, .wo), (5, 1, .wo)]⟩,
   ⟨0x20, 1, 0, 1, 0, [(0, 1, .rw1c), (1, 1, .rw1c), (2, 1, .rw1c), (3, 1, .rw1c)]⟩,
   ⟨0x28, 1, 0, 1, 0, [(0, 4, .rw)]⟩,
   ⟨0x30, 1, 0, 1, 0, [(6, 40, .rw)]⟩,
   ⟨0x38, 1, 0, 1, 0, [(0, 22, .rw)]⟩,
   ⟨0x40, 1, 0, 1, 0, [(0, 64, .ro)]⟩,
   ⟨0x48, 1, 0, 1, 0, [(0, 64, .ro)]⟩,
   ⟨0x50, 1, 0, 1, 0, [(0, 64, .ro)]⟩,
   ⟨0x58, 1, 0, 1, 0, [(0, 64, .ro)]⟩] ++
  [⟨0x60, 1, 0, 1, 0, [(0, 16, .ro), (16, 4, .ro), (20, 16, .ro)]⟩,
   ⟨0x68, 1, 0, 1, 0, [(0, 32, .rw)]⟩,
   ⟨0x100, 16, 64, 1, 0, [(0, 1, .ro), (1, 1, .ro), (16, 16, .ro)]⟩,
   ⟨0x108, 16, 64, 1, 0, [(7, 39, .rw)]⟩,
   ⟨0x110, 16, 64, 1, 0, [(0, 13, .rw)]⟩,
   ⟨0x118, 16, 64, 1, 0, [(0, 13, .ro)]⟩,
   ⟨0x120, 16, 64, 1, 0, [(0, 13, .rw)]⟩,
   ⟨0x128, 16, 64, 1, 0, [(0, 1, .ro), (1, 3, .ro), (16, 16, .ro)]⟩,
   ⟨0x4000, 8192, 8, 1, 0, [(0, 32, .ro), (32, 32, .ro)]⟩]

/-- Registers of the SOW block. -/
def rowsSOW : List RegRow :=
  [⟨0x0, 1, 0, 1, 0, [(0, 2, .ro)]⟩,
   ⟨0x8, 1, 0, 1, 0, [(0, 1, .rw)]⟩,
   ⟨0x10, 1, 0, 1, 0, [(0, 1, .ro), (1, 4, .ro), (5, 1, .ro), (16, 13, .ro)]⟩,
   ⟨0x18, 1, 0, 1, 0, [(0, 4, .wo), (4, 1, .wo)]⟩,
   ⟨0x20, 1, 0, 1, 0, [(0, 1, .rw1c), (1, 1, .rw1c), (2, 1, .rw1c)]⟩,
   ⟨0x28, 1, 0, 1, 0, [(0, 3, .rw)]⟩,
   ⟨0x30, 1, 0, 1, 0, [(0, 64, .ro)]⟩,
   ⟨0x38, 1, 0, 1, 0, [(0, 64, .ro)]⟩,
   ⟨0x40, 1, 0, 1, 0, [(0, 64, .ro)]⟩,
   ⟨0x48, 1, 0, 1, 0, [(0, 64, .ro)]⟩,
   ⟨0x50, 1, 0, 1, 0, [(0, 64, .ro)]⟩,
   ⟨0x58, 1, 0, 1, 0, [(0, 64, .ro)]⟩] ++
  [⟨0x60, 1, 0, 1, 0, [(0, 64, .ro)]⟩,
   ⟨0x68, 1, 0, 1, 0, [(0, 13, .rw1c)]⟩,
   ⟨0x70, 1, 0, 1, 0, [(0, 32, .ro)]⟩,
   ⟨0x78, 1, 0, 1, 0, [(0, 16, .ro), (16, 18, .ro), (34, 16, .ro)]⟩,
   ⟨0x10000, 8192, 8, 1, 0, [(0, 20, .rw), (20, 20, .rw), (40, 24, .ro)]⟩]

/-- Registers of the GLN block. -/
def rowsGLN : List RegRow :=
  [⟨0x0, 1, 0, 1, 0, [(0, 2, .ro)]⟩,
   ⟨0x8, 1, 0, 1, 0, [(0, 1, .rw)]⟩,
   ⟨0x10, 1, 0, 1, 0, [(0, 1, .ro), (1, 9, .ro), (10, 1, .ro), (11, 8, .ro), (19, 13, .ro)]⟩,
   ⟨0x18, 1, 0, 1, 0, [(0, 4, .wo), (4, 1, .wo), (5, 1, .wo)]⟩,
   ⟨0x20, 1, 0, 1, 0, [(0, 1, .rw1c), (1, 1, .rw1c), (2, 1, .rw1c), (3, 1, .rw1c), (4, 1, .rw1c)]⟩,
   ⟨0x28, 1, 0, 1, 0, [(0, 5, .rw)]⟩,
   ⟨0x30, 1, 0, 1, 0, [(0, 64, .ro)]⟩,
   ⟨0x38, 1, 0, 1, 0, [(0, 64, .ro)]⟩,
   ⟨0x40, 1, 0, 1, 0, [(0, 64, .ro)]⟩,
   ⟨0x48, 1, 0, 1, 0, [(0, 64, .ro)]⟩,
   ⟨0x50, 1, 0, 1, 0, [(0, 64, .ro)]⟩,
   ⟨0x58, 1, 0, 1, 0, [(0, 64, .ro)]⟩] ++
  [⟨0x60, 1, 0, 1, 0, [(0, 32, .ro)]⟩,
   ⟨0x68, 1, 0, 1, 0, [(0, 16, .ro), (16, 4, .ro), (20, 1, .ro), (21, 16, .ro), (37, 18, .ro)]⟩,
   ⟨0x80, 8, 8, 1, 0, [(0, 1, .ro), (1, 4, .ro), (5, 16, .ro), (21, 21, .ro)]⟩,
   ⟨0x100, 16, 64, 1, 0, [(0, 1, .ro), (1, 1, .ro), (16, 16, .ro)]⟩,
   ⟨0x108, 16, 64, 1, 0, [(7, 39, .rw)]⟩,
   ⟨0x508, 16, 64, 1, 0, [(7, 39, .rw)]⟩,
   ⟨0x110, 16, 64, 1, 0, [(0, 13, .rw)]⟩,
   ⟨0x510, 16, 64, 1, 0, [(0, 13, .rw)]⟩,
   ⟨0x118, 16, 64, 1, 0, [(0, 13, .ro)]⟩,
   ⟨0x518, 16, 64, 1, 0, [(0, 13, .ro)]⟩,
   ⟨0x120, 16, 64, 1, 0, [(0, 13, .rw)]⟩,
   ⟨0x520, 16, 64, 1, 0, [(0, 13, .rw)]⟩] ++
  [⟨0x128, 16, 64, 1, 0, [(0, 1, .ro), (1, 1, .ro), (16, 16, .ro)]⟩,
   ⟨0x528, 16, 64, 1, 0, [(0, 1, .ro), (1, 1, .ro), (16, 16, .ro)]⟩]

/-- Registers of the COL block. -/
def rowsCOL : List RegRow :=
  [⟨0x0, 1, 0, 1, 0, [(0, 2, .ro)]⟩,
   ⟨0x8, 1, 0, 1, 0, [(0, 1, .rw)]⟩,
   ⟨0x10, 1, 0, 1, 0, [(0, 1, .ro), (1, 5, .ro)]⟩,
   ⟨0x18, 1, 0, 1, 0, [(0, 4, .wo), (4, 1, .wo)]⟩,
   ⟨0x20, 1, 0, 1, 0, [(0, 1, .rw1c), (1, 1, .rw1c), (2, 1, .rw1c), (3, 1, .rw1c), (4, 1, .rw1c)]⟩,
   ⟨0x28, 1, 0, 1, 0, [(0, 5, .rw)]⟩,
   ⟨0x30, 1, 0, 1, 0, [(0, 64, .ro)]⟩,
   ⟨0x38, 1, 0, 1, 0, [(0, 64, .ro)]⟩,
   ⟨0x40, 1, 0, 1, 0, [(0, 64, .ro)]⟩,
   ⟨0x48, 1, 0, 1, 0, [(0, 64, .ro)]⟩,
   ⟨0x50, 1, 0, 1, 0, [(0, 64, .ro)]⟩,
   ⟨0x58, 1, 0, 1, 0, [(0, 32, .ro)]⟩] ++
  [⟨0x60, 1, 0, 1, 0, [(0, 32, .ro)]⟩,
   ⟨0x68, 1, 0, 1, 0, [(0, 16, .ro), (16, 16, .ro), (32, 4, .ro), (36, 16, .ro)]⟩,
   ⟨0x70, 1, 0, 1, 0, [(0, 32, .rw)]⟩,
   ⟨0x78, 1, 0, 1, 0, [(0, 32, .rw)]⟩,
   ⟨0x80, 4, 8, 1, 0, [(0, 13, .ro), (13, 16, .ro), (29, 5, .ro)]⟩,
   ⟨0xa0, 16, 8, 1, 0, [(0, 1, .ro), (1, 4, .ro), (5, 3, .ro), (8, 8, .ro), (16, 32, .ro), (48, 16, .ro)]⟩,
   ⟨0x200, 16, 64, 1, 0, [(0, 1, .ro), (1, 1, .ro), (16, 16, .ro)]⟩,
   ⟨0x208, 16, 64, 1, 0, [(7, 39, .rw)]⟩,
   ⟨0x210, 16, 64, 1, 0, [(0, 13, .rw)]⟩,
   ⟨0x218, 16, 64, 1, 0, [(0, 13, .ro)]⟩,
   ⟨0x220, 16, 64, 1, 0, [(0, 13, .rw)]⟩,
   ⟨0x228, 16, 64, 1, 0, [(0, 1, .ro), (16, 16, .ro)]⟩] ++
  [⟨0x4000, 256, 16, 1, 0, [(0, 1, .ro), (1, 1, .ro), (2, 16, .ro), (18, 17, .ro)]⟩,
   ⟨0x4008, 256, 16, 1, 0, [(0, 32, .ro), (32, 32, .ro)]⟩,
   ⟨0x8000, 256, 8, 1, 0, [(0, 64, .ro)]⟩]

/-- Registers of the VL block. -/
def rowsVL : List RegRow :=
  [⟨0x0, 1, 0, 1, 0, [(0, 5, .ro), (5, 1, .ro), (6, 4, .ro)]⟩,
   ⟨0x8, 1, 0, 1, 0, [(0, 1, .rw)]⟩,
   ⟨0x10, 1, 0, 1, 0, [(0, 3, .ro), (3, 4, .ro), (7, 4, .ro), (11, 1, .ro), (12, 1, .ro), (13, 1, .ro), (14, 2, .ro)]⟩,
   ⟨0x18, 1, 0, 1, 0, [(0, 36, .ro), (36, 4, .ro)]⟩,
   ⟨0x20, 1, 0, 1, 0, [(0, 36, .ro), (36, 4, .ro)]⟩,
   ⟨0x28, 1, 0, 1, 0, [(0, 27, .ro), (27, 27, .ro)]⟩,
   ⟨0x30, 1, 0, 1, 0, [(0, 18, .ro), (18, 5, .ro), (23, 1, .ro), (24, 2, .ro)]⟩,
   ⟨0x38, 1, 0, 1, 0, [(0, 18, .ro), (18, 5, .ro), (24, 2, .ro)]⟩,
   ⟨0x40, 1, 0, 1, 0, [(0, 16, .ro)]⟩,
   ⟨0x48, 1, 0, 1, 0, [(0, 11, .rw)]⟩,
   ⟨0x50, 1, 0, 1, 0, [(0, 4, .rw)]⟩,
   ⟨0x58, 1, 0, 1, 0, [(0, 16, .rw)]⟩] ++
  [⟨0x60, 1, 0, 1, 0, [(0, 16, .rw), (16, 4, .rw), (32, 16, .rw)]⟩,
   ⟨0x68, 1, 0, 1, 0, [(0, 16, .rw)]⟩,
   ⟨0x70, 1, 0, 1, 0, [(0, 6, .ro)]⟩,
   ⟨0x78, 1, 0, 1, 0, [(0, 1, .rw1c), (1, 1, .rw1c), (2, 1, .rw1c), (3, 1, .rw1c), (4, 1, .rw1c), (5, 1, .rw1c), (6, 1, .rw1c)]⟩,
   ⟨0x80, 1, 0, 1, 0, [(0, 7, .rw)]⟩,
   ⟨0x88, 1, 0, 1, 0, [(0, 16, .ro), (16, 4, .ro), (20, 1, .ro)]⟩,
   ⟨0x90, 1, 0, 1, 0, [(0, 64, .ro)]⟩,
   ⟨0x98, 1, 0, 1, 0, [(0, 32, .ro), (32, 32, .ro)]⟩,
   ⟨0xa0, 1, 0, 1, 0, [(0, 32, .ro), (32, 32, .ro)]⟩,
   ⟨0xa8, 1, 0, 1, 0, [(0, 64, .ro)]⟩,
   ⟨0xb0, 1, 0, 1, 0, [(0, 64, .ro)]⟩,
   ⟨0xb8, 1, 0, 1, 0, [(0, 64, .ro)]⟩] ++
  [⟨0xc0, 1, 0, 1, 0, [(0, 64, .ro)]⟩,
   ⟨0xc8, 1, 0, 1, 0, [(0, 64, .ro)]⟩,
   ⟨0xd0, 1, 0, 1, 0, [(0, 32, .ro), (32, 32, .ro)]⟩,
   ⟨0xd8, 1, 0, 1, 0, [(0, 64, .ro)]⟩,
   ⟨0x100, 9, 8, 1, 0, [(0, 32, .ro), (32, 32, .ro)]⟩,
   ⟨0x180, 9, 8, 1, 0, [(0, 16, .ro), (16, 16, .rw)]⟩]

/-- Registers of the VT block. -/
def rowsVT : List RegRow :=
  [⟨0x0, 1, 0, 1, 0, [(0, 2, .ro), (2, 18, .ro)]⟩,
   ⟨0x8, 1, 0, 1, 0, [(0, 1, .rw)]⟩,
   ⟨0x10, 1, 0, 1, 0, [(0, 13, .ro), (13, 13, .ro), (26, 11, .ro)]⟩,
   ⟨0x18, 1, 0, 1, 0, [(0, 17, .rw)]⟩,
   ⟨0x20, 1, 0, 1, 0, [(0, 10, .rw)]⟩,
   ⟨0x28, 1, 0, 1, 0, [(0, 14, .rw)]⟩,
   ⟨0x30, 1, 0, 1, 0, [(0, 2, .ro), (2, 2, .ro), (4, 1, .ro), (5, 1, .ro), (6, 2, .ro)]⟩,
   ⟨0x38, 1, 0, 1, 0, [(0, 10, .rw)]⟩,
   ⟨0x40, 1, 0, 1, 0, [(0, 64, .ro)]⟩,
   ⟨0x48, 1, 0, 1, 0, [(0, 4, .rw)]⟩,
   ⟨0x50, 1, 0, 1, 0, [(0, 16, .rw)]⟩,
   ⟨0x58, 1, 0, 1, 0, [(0, 1, .rw1c), (1, 1, .rw1c), (2, 1, .rw1c), (3, 1, .rw1c), (4, 1, .rw1c), (5, 1, .rw1c), (6, 1, .rw1c), (7, 1, .rw1c)]⟩] ++
  [⟨0x60, 1, 0, 1, 0, [(0, 8, .rw)]⟩,
   ⟨0x68, 1, 0, 1, 0, [(0, 16, .ro), (16, 18, .ro)]⟩,
   ⟨0x70, 1, 0, 1, 0, [(0, 46, .ro)]⟩,
   ⟨0x78, 1, 0, 1, 0, [(0, 64, .ro)]⟩,
   ⟨0x80, 1, 0, 1, 0, [(0, 64, .ro)]⟩,
   ⟨0x88, 1, 0, 1, 0, [(0, 64, .ro)]⟩,
   ⟨0x90, 1, 0, 1, 0, [(0, 64, .ro)]⟩,
   ⟨0x98, 1, 0, 1, 0, [(0, 64, .ro)]⟩,
   ⟨0xa0, 1, 0, 1, 0, [(0, 64, .ro)]⟩,
   ⟨0xa8, 1, 0, 1, 0, [(0, 64, .ro)]⟩,
   ⟨0xb0, 1, 0, 1, 0, [(0, 64, .ro)]⟩,
   ⟨0xb8, 1, 0, 1, 0, [(0, 64, .ro)]⟩] ++
  [⟨0xc0, 1, 0, 1, 0, [(0, 64, .ro)]⟩,
   ⟨0xc8, 1, 0, 1, 0, [(0, 64, .ro)]⟩,
   ⟨0xd0, 1, 0, 1, 0, [(0, 32, .ro)]⟩,
   ⟨0xd8, 1, 0, 1, 0, [(0, 11, .ro)]⟩,
   ⟨0xe0, 1, 0, 1, 0, [(0, 18, .rw)]⟩,
   ⟨0xe8, 1, 0, 1, 0, [(0, 32, .ro)]⟩,
   ⟨0xf0, 1, 0, 1, 0, [(0, 32, .ro), (32, 32, .ro)]⟩,
   ⟨0x400, 64, 16, 1, 0, [(0, 34, .ro), (34, 1, .ro)]⟩,
   ⟨0x408, 64, 16, 1, 0, [(0, 34, .ro), (34, 16, .ro), (50, 4, .ro)]⟩,
   ⟨0x800, 64, 8, 1, 0, [(0, 16, .ro), (16, 1, .ro)]⟩,
   ⟨0xc00, 16, 8, 1, 0, [(0, 25, .ro)]⟩,
   ⟨0x1000, 16, 64, 1, 0, [(0, 64, .rw)]⟩] ++
  [⟨0x1008, 16, 64, 1, 0, [(0, 64, .rw)]⟩,
   ⟨0x1010, 16, 64, 1, 0, [(0, 64, .rw)]⟩,
   ⟨0x1018, 16, 64, 1, 0, [(0, 4, .wo), (4, 4, .wo), (8, 1, .wo), (9, 1, .wo), (10, 1, .wo), (11, 1, .wo), (12, 7, .wo), (19, 10, .wo), (29, 8, .wo)]⟩,
   ⟨0x1020, 16, 64, 1, 0, [(0, 1, .ro), (1, 1, .rw1c), (2, 16, .ro)]⟩,
   ⟨0x1028, 16, 64, 1, 0, [(0, 64, .ro)]⟩,
   ⟨0x1030, 16, 64, 1, 0, [(0, 16, .ro)]⟩,
   ⟨0x1038, 16, 64, 1, 0, [(0, 32, .ro), (32, 8, .ro)]⟩,
   ⟨0x2000, 64, 16, 1, 0, [(0, 18, .ro), (18, 1, .ro), (32, 32, .ro)]⟩,
   ⟨0x2008, 64, 16, 1, 0, [(0, 64, .ro)]⟩,
   ⟨0x10000, 16384, 8, 1, 0, [(0, 17, .ro)]⟩]

/-- Registers of the HBM block. -/
def rowsHBM : List RegRow :=
  [⟨0x0, 1, 0, 1, 0, [(0, 3, .ro)]⟩,
   ⟨0x8, 1, 0, 1, 0, [(0, 1, .ro), (1, 1, .ro), (8, 8, .ro)]⟩,
   ⟨0x10, 1, 0, 1, 0, [(0, 32, .ro)]⟩,
   ⟨0x18, 1, 0, 1, 0, [(0, 1, .rw1c), (1, 1, .rw1c), (6, 30, .ro)]⟩,
   ⟨0x20, 1, 0, 1, 0, [(0, 32, .ro)]⟩,
   ⟨0x28, 1, 0, 1, 0, [(0, 16, .rw)]⟩,
   ⟨0x30, 1, 0, 1, 0, [(0, 30, .ro)]⟩,
   ⟨0x38, 1, 0, 1, 0, [(0, 64, .ro)]⟩,
   ⟨0x40, 1, 0, 1, 0, [(0, 64, .ro)]⟩,
   ⟨0x48, 1, 0, 1, 0, [(0, 64, .ro)]⟩,
   ⟨0x50, 1, 0, 1, 0, [(0, 64, .ro)]⟩,
   ⟨0x58, 1, 0, 1, 0, [(0, 32, .ro)]⟩] ++
  [⟨0x100, 24, 8, 1, 0, [(0, 7, .ro), (7, 16, .ro), (32, 32, .ro)]⟩,
   ⟨0x100000, 32768, 16, 1, 0, [(0, 32, .ro), (32, 20, .ro), (52, 3, .ro), (55, 1, .ro)]⟩,
   ⟨0x100008, 32768, 16, 1, 0, [(0, 12, .ro)]⟩,
   ⟨0x60, 1, 0, 1, 0, [(0, 8, .rw), (16, 16, .ro), (32, 16, .ro)]⟩,
   ⟨0x68, 1, 0, 1, 0, [(0, 36, .ro)]⟩]

/-- Registers of the TIER block. -/
def rowsTIER : List RegRow :=
  [⟨0x0, 1, 0, 1, 0, [(0, 2, .ro)]⟩,
   ⟨0x8, 1, 0, 1, 0, [(0, 1, .rw)]⟩,
   ⟨0x10, 1, 0, 1, 0, [(0, 5, .ro), (5, 1, .ro)]⟩,
   ⟨0x18, 1, 0, 1, 0, [(0, 4, .wo), (4, 1, .wo)]⟩,
   ⟨0x20, 1, 0, 1, 0, [(0, 1, .rw1c), (1, 1, .rw1c), (2, 1, .rw1c)]⟩,
   ⟨0x28, 1, 0, 1, 0, [(0, 3, .rw)]⟩,
   ⟨0x30, 1, 0, 1, 0, [(6, 40, .ro)]⟩,
   ⟨0x38, 1, 0, 1, 0, [(0, 21, .ro)]⟩,
   ⟨0x40, 2, 8, 1, 0, [(0, 15, .ro), (16, 16, .ro)]⟩,
   ⟨0x50, 1, 0, 1, 0, [(0, 64, .ro)]⟩,
   ⟨0x58, 1, 0, 1, 0, [(0, 64, .ro)]⟩,
   ⟨0x60, 1, 0, 1, 0, [(0, 64, .ro)]⟩] ++
  [⟨0x68, 1, 0, 1, 0, [(0, 19, .ro)]⟩,
   ⟨0x70, 1, 0, 1, 0, [(0, 16, .ro), (16, 16, .ro), (32, 4, .ro), (36, 16, .ro)]⟩,
   ⟨0x78, 1, 0, 1, 0, [(0, 32, .ro)]⟩,
   ⟨0x100, 16, 64, 1, 0, [(0, 1, .ro), (1, 1, .ro), (16, 16, .ro)]⟩,
   ⟨0x108, 16, 64, 1, 0, [(7, 39, .rw)]⟩,
   ⟨0x110, 16, 64, 1, 0, [(0, 13, .rw)]⟩,
   ⟨0x118, 16, 64, 1, 0, [(0, 13, .ro)]⟩,
   ⟨0x120, 16, 64, 1, 0, [(0, 13, .rw)]⟩,
   ⟨0x128, 16, 64, 1, 0, [(0, 1, .ro), (16, 16, .ro)]⟩,
   ⟨0x10000, 8192, 32, 1, 0, [(0, 19, .ro), (32, 19, .ro)]⟩,
   ⟨0x10008, 8192, 32, 1, 0, [(0, 18, .ro), (32, 18, .ro)]⟩,
   ⟨0x10010, 8192, 32, 1, 0, [(0, 20, .rw), (20, 20, .rw), (40, 24, .ro)]⟩] ++
  [⟨0x80000, 1, 0, 1, 0, [(0, 2, .wo), (2, 1, .wo), (3, 1, .wo)]⟩,
   ⟨0x80008, 1, 0, 1, 0, [(0, 64, .rw)]⟩,
   ⟨0x80010, 1, 0, 1, 0, [(0, 5, .rw), (8, 5, .rw)]⟩,
   ⟨0x80018, 1, 0, 1, 0, [(0, 3, .ro), (16, 16, .ro), (32, 4, .ro)]⟩,
   ⟨0x80020, 1, 0, 1, 0, [(0, 64, .ro)]⟩,
   ⟨0x80028, 1, 0, 1, 0, [(0, 32, .ro), (32, 32, .ro)]⟩,
   ⟨0x80030, 1, 0, 1, 0, [(0, 32, .ro)]⟩,
   ⟨0x80038, 1, 0, 1, 0, [(6, 40, .ro)]⟩,
   ⟨0x80040, 1, 0, 1, 0, [(6, 40, .ro)]⟩,
   ⟨0x80048, 1, 0, 1, 0, [(0, 26, .ro), (32, 26, .ro)]⟩,
   ⟨0x80050, 1, 0, 1, 0, [(0, 19, .ro), (19, 21, .ro)]⟩,
   ⟨0x80058, 1, 0, 1, 0, [(0, 1, .rw1c), (1, 1, .rw1c)]⟩] ++
  [⟨0x80060, 1, 0, 1, 0, [(0, 2, .rw)]⟩]

/-- Registers of the SILO block. -/
def rowsSILO : List RegRow :=
  [⟨0x0, 1, 0, 1, 0, [(0, 1, .ro)]⟩,
   ⟨0x8, 1, 0, 1, 0, [(0, 1, .rw)]⟩,
   ⟨0x10, 1, 0, 1, 0, [(0, 1, .ro), (1, 1, .ro), (2, 1, .ro), (3, 1, .ro), (4, 1, .ro)]⟩,
   ⟨0x18, 1, 0, 1, 0, [(0, 4, .ro), (4, 12, .ro), (16, 32, .ro)]⟩,
   ⟨0x20, 1, 0, 1, 0, [(0, 32, .ro), (32, 14, .ro)]⟩,
   ⟨0x28, 1, 0, 1, 0, [(0, 6, .ro)]⟩,
   ⟨0x30, 1, 0, 1, 0, [(0, 5, .ro), (5, 5, .ro)]⟩,
   ⟨0x38, 1, 0, 1, 0, [(0, 16, .rw)]⟩,
   ⟨0x40, 1, 0, 1, 0, [(0, 4, .rw), (4, 4, .rw)]⟩,
   ⟨0x48, 1, 0, 1, 0, [(0, 32, .rw)]⟩,
   ⟨0x50, 1, 0, 1, 0, [(0, 16, .rw)]⟩,
   ⟨0x58, 1, 0, 1, 0, [(0, 6, .rw)]⟩] ++
  [⟨0x60, 1, 0, 1, 0, [(0, 16, .rw)]⟩,
   ⟨0x68, 1, 0, 1, 0, [(0, 1, .rw1c), (1, 1, .rw1c), (2, 1, .rw1c), (3, 1, .rw1c), (4, 1, .rw1c)]⟩,
   ⟨0x70, 1, 0, 1, 0, [(0, 5, .rw)]⟩,
   ⟨0x78, 1, 0, 1, 0, [(0, 16, .ro), (16, 5, .ro), (32, 32, .ro)]⟩,
   ⟨0x80, 1, 0, 1, 0, [(0, 64, .ro)]⟩,
   ⟨0x88, 1, 0, 1, 0, [(0, 64, .ro)]⟩,
   ⟨0x90, 1, 0, 1, 0, [(0, 64, .ro)]⟩,
   ⟨0x98, 1, 0, 1, 0, [(0, 64, .ro)]⟩,
   ⟨0xa0, 1, 0, 1, 0, [(0, 64, .ro)]⟩,
   ⟨0xa8, 1, 0, 1, 0, [(0, 64, .ro)]⟩,
   ⟨0xb0, 1, 0, 1, 0, [(0, 32, .ro)]⟩,
   ⟨0x100, 16, 8, 1, 0, [(0, 2, .ro), (2, 8, .ro), (16, 16, .ro), (32, 32, .ro)]⟩]

/-- Registers of the ALM block. -/
def rowsALM : List RegRow :=
  [⟨0x0, 1, 0, 1, 0, [(0, 64, .ro)]⟩,
   ⟨0x8, 1, 0, 1, 0, [(0, 32, .ro)]⟩,
   ⟨0x10, 1, 0, 1, 0, [(0, 2, .ro), (8, 8, .ro)]⟩,
   ⟨0x18, 1, 0, 1, 0, [(0, 64, .rw)]⟩,
   ⟨0x20, 1, 0, 1, 0, [(0, 1, .rw), (1, 10, .rw), (11, 5, .rw)]⟩,
   ⟨0x28, 1, 0, 1, 0, [(0, 32, .ro)]⟩,
   ⟨0x30, 1, 0, 1, 0, [(0, 16, .ro)]⟩,
   ⟨0x38, 1, 0, 1, 0, [(0, 64, .ro)]⟩,
   ⟨0x40, 1, 0, 1, 0, [(0, 1, .rw1c), (1, 1, .rw1c), (2, 1, .rw1c), (3, 1, .rw1c), (4, 1, .rw1c), (5, 1, .rw1c), (6, 1, .rw1c)]⟩,
   ⟨0x48, 1, 0, 1, 0, [(0, 7, .rw)]⟩,
   ⟨0x50, 1, 0, 1, 0, [(0, 64, .ro)]⟩,
   ⟨0x58, 1, 0, 1, 0, [(0, 1, .ro)]⟩] ++
  [⟨0x60, 1, 0, 1, 0, [(0, 8, .ro), (8, 8, .ro), (16, 3, .ro), (32, 16, .ro)]⟩,
   ⟨0x68, 1, 0, 1, 0, [(0, 64, .ro)]⟩,
   ⟨0x70, 1, 0, 1, 0, [(0, 2, .wo), (8, 8, .wo)]⟩,
   ⟨0x78, 1, 0, 1, 0, [(0, 64, .rw)]⟩,
   ⟨0x80, 1, 0, 1, 0, [(0, 17, .rw), (32, 17, .rw)]⟩,
   ⟨0x88, 1, 0, 1, 0, [(0, 64, .ro)]⟩,
   ⟨0x90, 1, 0, 1, 0, [(0, 8, .rw)]⟩,
   ⟨0x100, 15, 8, 1, 0, [(0, 16, .ro), (16, 1, .ro)]⟩,
   ⟨0x1000, 256, 32, 4, 8, [(0, 64, .ro)]⟩]

/-- Registers of the PCI block. -/
def rowsPCI : List RegRow :=
  [⟨0x0, 1, 0, 1, 0, [(0, 16, .ro), (16, 16, .ro), (32, 8, .ro)]⟩,
   ⟨0x8, 1, 0, 1, 0, [(0, 3, .ro), (3, 5, .ro), (8, 1, .ro)]⟩,
   ⟨0x10, 1, 0, 1, 0, [(0, 1, .ro), (1, 1, .rw1c)]⟩,
   ⟨0x18, 1, 0, 1, 0, [(0, 16, .ro)]⟩,
   ⟨0x20, 1, 0, 1, 0, [(0, 10, .rw), (12, 4, .ro)]⟩,
   ⟨0x28, 1, 0, 1, 0, [(0, 1, .rw1c), (1, 1, .rw1c), (2, 1, .rw1c), (3, 1, .rw1c), (4, 1, .rw1c), (5, 1, .rw1c), (6, 1, .rw1c), (7, 1, .rw1c)]⟩,
   ⟨0x30, 1, 0, 1, 0, [(0, 8, .rw), (8, 8, .rw)]⟩,
   ⟨0x38, 1, 0, 1, 0, [(0, 16, .ro), (16, 16, .ro), (32, 32, .ro)]⟩,
   ⟨0x40, 1, 0, 1, 0, [(0, 11, .wo)]⟩,
   ⟨0x48, 1, 0, 1, 0, [(0, 32, .ro)]⟩,
   ⟨0x50, 1, 0, 1, 0, [(0, 64, .rw)]⟩,
   ⟨0x58, 1, 0, 1, 0, [(0, 27, .rw)]⟩] ++
  [⟨0x60, 1, 0, 1, 0, [(0, 1, .wo)]⟩,
   ⟨0x68, 1, 0, 1, 0, [(0, 1, .ro), (16, 16, .ro)]⟩,
   ⟨0x100, 1, 0, 1, 0, [(0, 11, .ro), (11, 1, .ro)]⟩,
   ⟨0x108, 14, 8, 1, 0, [(0, 11, .rw), (11, 1, .rw)]⟩,
   ⟨0x200, 4, 16, 1, 0, [(0, 1, .rw), (12, 52, .rw)]⟩,
   ⟨0x208, 4, 16, 1, 0, [(12, 52, .rw)]⟩,
   ⟨0x1000, 128, 8, 1, 0, [(0, 64, .rw1c)]⟩,
   ⟨0x20000, 8192, 16, 1, 0, [(0, 13, .ro)]⟩,
   ⟨0x20008, 8192, 16, 1, 0, [(0, 17, .ro)]⟩]

/-- Registers of the MGT block. -/
def rowsMGT : List RegRow :=
  [⟨0x100000, 144, 32, 4, 8, [(0, 64, .ro)]⟩,
   ⟨0x102000, 40, 32, 4, 8, [(0, 64, .ro)]⟩,
   ⟨0x102800, 4, 8, 1, 0, [(0, 64, .ro)]⟩,
   ⟨0x103000, 1, 0, 1, 0, [(0, 3, .wo), (3, 6, .wo), (9, 10, .wo)]⟩,
   ⟨0x103008, 1, 0, 1, 0, [(0, 1, .ro), (1, 1, .ro), (16, 16, .ro)]⟩,
   ⟨0x103010, 1, 0, 1, 0, [(0, 8, .wo)]⟩,
   ⟨0x103018, 1, 0, 1, 0, [(0, 1, .ro), (1, 1, .ro), (2, 1, .ro), (16, 16, .ro), (32, 16, .ro)]⟩,
   ⟨0x103020, 1, 0, 1, 0, [(0, 16, .rw)]⟩,
   ⟨0x103028, 1, 0, 1, 0, [(0, 16, .rw), (16, 32, .ro)]⟩,
   ⟨0x103030, 1, 0, 1, 0, [(0, 1, .ro), (1, 1, .ro), (2, 1, .ro), (3, 3, .ro), (16, 16, .ro), (32, 32, .ro)]⟩,
   ⟨0x103038, 1, 0, 1, 0, [(0, 1, .wo)]⟩,
   ⟨0x110000, 4096, 32, 4, 8, [(0, 64, .ro)]⟩] ++
  [⟨0x0, 1, 0, 1, 0, [(0, 8, .ro), (8, 1, .ro), (16, 48, .ro)]⟩,
   ⟨0x8, 1, 0, 1, 0, [(0, 16, .ro), (16, 8, .ro), (24, 4, .ro), (28, 1, .ro)]⟩,
   ⟨0x10, 1, 0, 1, 0, [(0, 1, .ro), (1, 7, .ro), (8, 8, .ro), (16, 32, .ro)]⟩,
   ⟨0x18, 1, 0, 1, 0, [(0, 32, .ro), (32, 32, .ro)]⟩,
   ⟨0x20, 1, 0, 1, 0, [(0, 3, .ro), (3, 5, .ro), (16, 16, .ro)]⟩,
   ⟨0x28, 1, 0, 1, 0, [(0, 1, .rw1c), (1, 1, .rw1c), (2, 1, .rw1c), (3, 1, .rw1c)]⟩,
   ⟨0x30, 1, 0, 1, 0, [(0, 4, .rw)]⟩,
   ⟨0x38, 1, 0, 1, 0, [(0, 32, .ro), (32, 32, .ro)]⟩,
   ⟨0x40, 1, 0, 1, 0, [(0, 16, .ro), (16, 8, .ro)]⟩,
   ⟨0x8000, 128, 8, 1, 0, [(0, 64, .ro)]⟩]

/-- Registers of the SEC block. -/
def rowsSEC : List RegRow :=
  [⟨0x0, 1, 0, 1, 0, [(0, 8, .ro), (8, 8, .ro), (16, 3, .ro), (19, 1, .ro)]⟩,
   ⟨0x8, 1, 0, 1, 0, [(0, 2, .ro), (2, 2, .ro), (4, 7, .ro), (11, 1, .ro), (12, 2, .ro)]⟩,
   ⟨0x10, 1, 0, 1, 0, [(0, 8, .ro)]⟩,
   ⟨0x18, 1, 0, 1, 0, [(0, 8, .ro)]⟩,
   ⟨0x20, 1, 0, 1, 0, [(0, 4, .rw1c), (4, 2, .ro), (6, 1, .ro), (7, 1, .ro), (8, 1, .ro)]⟩,
   ⟨0x28, 1, 0, 1, 0, [(0, 64, .ro)]⟩,
   ⟨0x30, 1, 0, 1, 0, [(0, 4, .rw)]⟩,
   ⟨0x38, 6, 8, 1, 0, [(0, 64, .ro)]⟩,
   ⟨0x68, 1, 0, 1, 0, [(0, 1, .rw1c), (1, 1, .rw1c), (2, 1, .rw1c), (3, 1, .rw1c)]⟩,
   ⟨0x70, 1, 0, 1, 0, [(0, 4, .rw)]⟩,
   ⟨0x78, 1, 0, 1, 0, [(0, 16, .ro), (32, 32, .ro)]⟩,
   ⟨0x80, 1, 0, 1, 0, [(0, 32, .ro)]⟩]

/-- Registers of the PWR block. -/
def rowsPWR : List RegRow :=
  [⟨0x0, 1, 0, 1, 0, [(0, 4, .ro), (4, 1, .ro), (5, 1, .ro), (6, 1, .ro), (16, 16, .ro)]⟩,
   ⟨0x8, 1, 0, 1, 0, [(0, 16, .ro), (16, 16, .ro), (32, 8, .ro), (40, 8, .ro)]⟩,
   ⟨0x10, 1, 0, 1, 0, [(0, 16, .ro), (16, 16, .ro)]⟩,
   ⟨0x18, 1, 0, 1, 0, [(0, 16, .ro), (16, 16, .ro)]⟩,
   ⟨0x20, 1, 0, 1, 0, [(0, 2, .ro), (16, 16, .ro), (32, 32, .ro)]⟩,
   ⟨0x28, 1, 0, 1, 0, [(0, 8, .rw), (8, 8, .rw)]⟩,
   ⟨0x30, 1, 0, 1, 0, [(0, 9, .rw), (24, 40, .rw)]⟩,
   ⟨0x38, 1, 0, 1, 0, [(0, 1, .wo)]⟩,
   ⟨0x40, 1, 0, 1, 0, [(0, 1, .rw1c), (1, 1, .rw1c), (2, 1, .rw1c), (3, 1, .rw1c)]⟩,
   ⟨0x48, 1, 0, 1, 0, [(0, 4, .rw)]⟩,
   ⟨0x100, 40, 8, 1, 0, [(0, 16, .ro), (16, 16, .ro), (32, 9, .ro)]⟩,
   ⟨0x300, 40, 8, 1, 0, [(0, 8, .ro), (8, 8, .rw1c)]⟩] ++
  [⟨0x500, 12, 8, 1, 0, [(0, 16, .ro), (16, 16, .ro), (32, 1, .ro)]⟩]

/-- Registers of the CLK block. -/
def rowsCLK : List RegRow :=
  [⟨0x0, 1, 0, 1, 0, [(0, 13, .ro), (13, 1, .ro), (16, 8, .ro)]⟩,
   ⟨0x8, 1, 0, 1, 0, [(0, 2, .ro), (2, 1, .ro), (32, 32, .ro)]⟩,
   ⟨0x10, 1, 0, 1, 0, [(0, 1, .ro), (16, 16, .ro), (32, 16, .ro)]⟩,
   ⟨0x18, 1, 0, 1, 0, [(0, 1, .wo)]⟩,
   ⟨0x20, 40, 8, 1, 0, [(0, 64, .ro)]⟩]


/-- The block an address of register space falls in, with the offset inside it (R27, R28). -/
def regRows (a : Nat) : List RegRow × Nat :=
  if a < 0x200000000000 then ([], 0)
  else if a < 0x200001000000 then (rowsMGT, a - mgtBase)
  else if a < 0x200002000000 then (rowsSEC, a - secBase)
  else if a < 0x200003000000 then (rowsALM, a - almBase)
  else if a < 0x200004000000 then (rowsPCI, a - pciBase)
  else if a < 0x200004800000 then (rowsPWR, a - pwrBase)
  else if a < 0x200005000000 then (rowsCLK, a - clkBase)
  else if a < 0x200008000000 then ([], 0)
  else if a < 0x200008800000 then (rowsSILO, (a - siloBase 0) % 0x400000)
  else if a < 0x200010000000 then ([], 0)
  else if a < 0x200018000000 then (rowsHBM, (a - hbmBase 0) % 0x1000000)
  else if a < 0x200020000000 then (rowsTIER, (a - tierBase 0) % 0x2000000)
  else if a < 0x200030000000 then
    let o := (a - rdBase 0) % 0x4000000
    if o < 0x400000 then (rowsWIN, o)
    else if o < 0x800000 then (rowsTHR, o - 0x400000)
    else if o < 0xC00000 then (rowsSOW, o - 0x800000)
    else if o < 0x1000000 then (rowsGLN, o - 0xC00000)
    else if o < 0x1400000 then (rowsCOL, o - 0x1000000)
    else (rowsVT, o - 0x1400000)
  else if a < 0x200031300000 then (rowsVL, (a - vlBase 0) % 0x100000)
  else if a < 0x200100000000 then ([], 0)
  else if a < 0x200109000000 then
    let o := (a - coreBase 0) % 0x100000
    if o < 0x10000 then (rowsCORE, o)
    else if o < 0x50000 then (rowsMX, (o - 0x10000) % 0x10000)
    else if o < 0x60000 then (rowsMV, o - 0x50000)
    else if o < 0x70000 then (rowsVX, o - 0x60000)
    else if o < 0x80000 then (rowsCS, o - 0x70000)
    else ([], 0)
  else ([], 0)

/-- Instances of a table row that read as zero: Silo slot registers of SD1 (R335), quota and model registers of
engines 1 to 3 (R318, R351), lanes a mesh port does not have (R258). -/
def regAbsent (a : Nat) : Bool :=
  (decide (siloBase 1 ≤ a) && decide (a < siloBase 1 + 0x400000) &&
    [0x30, 0x38, 0xB0].contains (a - siloBase 1)) ||
  (decide (tierBase 1 ≤ a) && decide (a < tierBase 4) && decide (0x10000 ≤ (a - tierBase 0) % 0x2000000)) ||
  (decide (vlBase 0 ≤ a) && decide (a < vlBase 15) &&
    (let o := (a - vlBase 0) % 0x100000
     (decide (0x128 ≤ o) && decide (o < 0x148)) || (decide (0x1A8 ≤ o) && decide (o < 0x1C8))))

/-- The fields of the register at an address, none where no table defines one (R29); an absent instance has no field. -/
def regFields (a : Nat) : Option (List (Nat × Nat × Acc9)) :=
  if regAbsent a then some []
  else
    let r := regRows a
    (r.1.find? (fun row => row.hits r.2)).map (fun row => row.fields)

/-- Registers held on the management sideband (R29, R94, R395, R427, R451, R466, R481, R482). -/
def regSideband (a : Nat) : Bool :=
  decide (a < 0x200005000000) ||
  (decide (coreBase 0 ≤ a) &&
    ((a - coreBase 0) % 0x100000 == 0 || (a - coreBase 0) % 0x100000 == 0x10))

/-- Packs a field value at its place. -/
def fieldAt (v lo : Nat) : Nat := v * 2 ^ lo

/-- Reset values inside a core (R93, R95, R450; R13 and R16 for CORE_ID). -/
def coreReset (p o : Nat) : Nat :=
  if o = 0 then fieldAt (p % 9) 12 + fieldAt (p / 9) 8 + p
  else if o = 0x78 then 1000
  else if o = 0x70010 then 100
  else if o = 0x70020 then fieldAt 16 8 + fieldAt 8 16
  else 0

/-- Reset values inside routing die k (R146, R177, R178, R202, R231, R294). -/
def rdReset (k o : Nat) : Nat :=
  if o = 0 || o = 0x400000 || o = 0x800000 || o = 0xC00000 || o = 0x1000000 || o = 0x1400000 then k
  else if o = 0x400068 then 1000
  else if o = 0x1000070 then 200
  else if o = 0x1000078 then 10
  else if o = 0x1400018 then 200
  else if o = 0x1400020 then 12
  else if o = 0x1400028 then 100
  else if o = 0x1400038 then 50
  else if o = 0x1400048 then 3
  else if o = 0x1400050 then 1000
  else 0

/-- Reset values of port n (R258). -/
def vlReset (n o : Nat) : Nat :=
  if o = 0 then n + (if n < 15 then fieldAt 5 6 else fieldAt 1 5 + fieldAt 9 6)
  else if o = 0x48 then 1500
  else if o = 0x50 then 4
  else if o = 0x58 then 16
  else if o = 0x60 then 100 + fieldAt 3 16 + fieldAt 500 32
  else if o = 0x68 then 10
  else 0

/-- Reset values of the Silo dies, the HBM controllers and the tier engines (R335, R317, R318). -/
def memReset (a : Nat) : Nat :=
  if a < hbmBase 0 then
    let j := (a - siloBase 0) / 0x400000
    let o := (a - siloBase 0) % 0x400000
    if o = 0 then j
    else if o = 0x38 then (if j = 0 then 2000 else 0)
    else if o = 0x40 then 2 + fieldAt 8 4
    else if o = 0x50 then 200
    else if o = 0x58 then 5
    else if o = 0x60 then 64
    else 0
  else if a < tierBase 0 then
    let o := (a - hbmBase 0) % 0x1000000
    if o = 0 then (a - hbmBase 0) / 0x1000000
    else if o = 0x28 then 24
    else if o = 0x60 then 8
    else 0
  else
    if (a - tierBase 0) % 0x2000000 = 0 then (a - tierBase 0) / 0x2000000 else 0

/-- Reset values of the sideband blocks (R395, R427, R451, R466, R481, R482, R493); fused fields from Config. -/
def sidebandReset (a : Nat) : Nat :=
  if a < secBase then
    let o := a - mgtBase
    if o = 0 then
      (if Config.steppingA0 then 0xA0 else 0xB0) + fieldAt (ofBool Config.gradeF09) 8 + fieldAt Config.serial.toNat 16
    else if o = 0x103020 then 100
    else if o = 0x103028 then 1000
    else 0
  else if a < almBase then
    let o := a - secBase
    if o = 0 then
      Config.romVer.toNat + fieldAt Config.svnMin.toNat 8 + fieldAt Config.ownerKeys.val 16 +
        fieldAt (ofBool Config.debugAllow) 19
    else if o = 8 then fieldAt Config.keyEpoch.val 4
    else if o = 0x10 || o = 0x18 then Config.alarmMin.toNat
    else if o = 0x30 then 1
    else 0
  else if a < pciBase then
    let o := a - almBase
    if o = 0x20 then fieldAt 4 11
    else if o = 0x28 then (if Config.gradeF09 then 0x471C71C7 else 0x40000000)
    else if o = 0x80 then 100 + fieldAt 100 32
    else if o = 0x90 then 24
    else 0
  else if a < pwrBase then
    let o := a - pciBase
    if o = 0 then
      Config.pciVendor.toNat + fieldAt Config.pciDevice.toNat 16 +
        fieldAt (if Config.steppingA0 then 0xA0 else 0xB0) 32
    else if o = 0x18 then 0xFFFF
    else if o = 0x100 then 12 + fieldAt 1 11
    else 0
  else if a < clkBase then
    let o := a - pwrBase
    if o = 8 then 1250 + fieldAt 1500 16 + fieldAt 115 32 + fieldAt 105 40
    else if o = 0x10 then 1250 + fieldAt 1500 16
    else if o = 0x28 then 95 + fieldAt 85 8
    else 0
  else if a = clkBase then (if Config.gradeF09 then 3600 else 4000)
  else 0

/-- The value of every register after a cold reset (R11). -/
def regReset (a : Nat) : Word :=
  BitVec.ofNat 64 <|
    if a < 0x200005000000 then sidebandReset a
    else if a < 0x200020000000 then memReset a
    else if a < 0x200030000000 then rdReset ((a - rdBase 0) / 0x4000000) ((a - rdBase 0) % 0x4000000)
    else if a < 0x200031300000 then vlReset ((a - vlBase 0) / 0x100000) ((a - vlBase 0) % 0x100000)
    else if a < 0x200100000000 then 0
    else if a < 0x200109000000 then coreReset ((a - coreBase 0) / 0x100000) ((a - coreBase 0) % 0x100000)
    else 0

end Sys2Proof.Machine
end

