-- ==== Sys2Proof/Machine/Packet.lean ====
section
/-!
DEFINITION. Vadal packets (10_fabric_transactions R264, R265): the header's fields, its eight words, the extension
headers, and which packets are valid.
-/
namespace Sys2Proof.Machine

/-- The header fields of R264. -/
structure Hdr where
  ver : Nat := 1
  kind : Nat := 0
  cls : Nat := 0
  epoch : Nat := 0
  flag : Nat := 0
  flagG : Nat := 0
  opn : Nat := 0
  retx : Nat := 0
  ext : Nat := 0
  src : Nat := 0
  stream : Nat := 0
  dst : Nat := 0
  gen : Nat := 0
  psn : Nat := 0
  key : Nat := 0
  len : Nat := 64
  offset : Nat := 0
  size : Nat := 0
  op : Nat := 0
  ts : Nat := 0
  arrEn : Nat := 0
  lcore : Nat := 0
  ctr : Nat := 0
  inc : Nat := 0
  status : Nat := 0
  horizon : Nat := 0
  rack : Nat := 0
  sackBase : Nat := 0
  operand : Nat := 0
deriving DecidableEq, Repr

/-- Packet kinds of R264. -/
def kLoad : Nat := 1
def kLoadRsp : Nat := 2
def kStore : Nat := 3
def kAtomic : Nat := 4
def kAtomicRsp : Nat := 5
def kAck : Nat := 6
def kNack : Nat := 7
def kLand : Nat := 8
def kRet : Nat := 9
def kColl : Nat := 10
def kNotice : Nat := 11
def kClose : Nat := 12

/-- A field placed in a word. -/
def putF (v lo len : Nat) : Nat := (v % 2 ^ len) * 2 ^ lo

/-- The eight words of a header (R264). -/
def Hdr.words (h : Hdr) : List Nat :=
  [putF h.ver 0 4 + putF h.kind 4 4 + putF h.cls 8 1 + putF h.epoch 9 2 + putF h.flag 11 1 + putF h.flagG 12 1 +
      putF h.opn 13 1 + putF h.retx 14 1 + putF h.ext 15 1 + putF h.src 16 18 + putF h.stream 34 2 +
      putF h.dst 36 18 + putF h.gen 54 8,
    putF h.psn 0 32 + putF h.key 32 16 + putF h.len 48 12,
    putF h.offset 0 46 + putF h.size 46 12 + putF h.op 58 4,
    putF h.ts 0 32 + putF h.arrEn 32 1 + putF h.lcore 33 7 + putF h.ctr 40 10 + putF h.inc 50 8,
    putF h.status 0 16 + putF h.horizon 32 32,
    putF h.rack 0 32 + putF h.sackBase 32 32,
    h.operand % 2 ^ 64, h.operand / 2 ^ 64 % 2 ^ 64]

/-- The header that eight words spell (R264). -/
def Hdr.ofWords (w : List Nat) : Hdr :=
  let g := fun i => w.getD i 0
  { ver := bitsOf (g 0) 0 4, kind := bitsOf (g 0) 4 4, cls := bitsOf (g 0) 8 1, epoch := bitsOf (g 0) 9 2,
    flag := bitsOf (g 0) 11 1, flagG := bitsOf (g 0) 12 1, opn := bitsOf (g 0) 13 1, retx := bitsOf (g 0) 14 1,
    ext := bitsOf (g 0) 15 1, src := bitsOf (g 0) 16 18, stream := bitsOf (g 0) 34 2, dst := bitsOf (g 0) 36 18,
    gen := bitsOf (g 0) 54 8, psn := bitsOf (g 1) 0 32, key := bitsOf (g 1) 32 16, len := bitsOf (g 1) 48 12,
    offset := bitsOf (g 2) 0 46, size := bitsOf (g 2) 46 12, op := bitsOf (g 2) 58 4, ts := bitsOf (g 3) 0 32,
    arrEn := bitsOf (g 3) 32 1, lcore := bitsOf (g 3) 33 7, ctr := bitsOf (g 3) 40 10, inc := bitsOf (g 3) 50 8,
    status := bitsOf (g 4) 0 16, horizon := bitsOf (g 4) 32 32, rack := bitsOf (g 5) 0 32,
    sackBase := bitsOf (g 5) 32 32, operand := g 6 % 2 ^ 64 + g 7 % 2 ^ 64 * 2 ^ 64 }

/-- A packet: header, the eight words of an extension header where EXT = 1, and the data bytes (R264). A packet that came in
on a link port also bears the credit units and the channel of its frame, until the layer above the link takes it (R243). -/
structure Packet where
  h : Hdr
  ext : List Nat := []
  data : List Byte := []
  units : Nat := 0
  express : Bool := false
deriving DecidableEq, Repr

/-- Eight little-endian 64-bit words of a byte string. -/
def words8 (bs : List Byte) : List Nat := (List.range 8).map (fun i => ofBytes ((bs.drop (8 * i)).take 8))

/-- The packet in a frame's payload (R264). -/
def Packet.parse (bs : List Byte) : Packet :=
  let h := Hdr.ofWords (words8 bs)
  if h.ext = 1 then { h := h, ext := words8 (bs.drop 64), data := bs.drop 128 } else { h := h, data := bs.drop 64 }

/-- The bytes of a packet (R264). -/
def Packet.wire (p : Packet) : List Byte :=
  p.h.words.flatMap (toBytes 8) ++ (if p.h.ext = 1 then ((List.range 8).map (fun i => p.ext.getD i 0)).flatMap (toBytes 8) else []) ++
    p.data

/-- Kinds that carry SIZE data bytes; a LOAD's and an ATOMIC's SIZE names the bytes at the target (R264, R266). -/
def Hdr.carries (h : Hdr) : Bool :=
  h.kind == kLoadRsp || h.kind == kStore || h.kind == kLand || h.kind == kRet || h.kind == kColl

/-- Total size (R264). -/
def Hdr.total (h : Hdr) : Nat := 64 + 64 * h.ext + (if h.carries then h.size else 0)

/-- Whether VER, KIND and LEN, and the OP of an ATOMIC, are valid (R264). -/
def Packet.valid (p : Packet) : Bool :=
  p.h.ver == 1 && decide (1 ≤ p.h.kind) && decide (p.h.kind ≤ 12) && p.h.len == p.h.total &&
    decide (64 ≤ p.h.len) && decide (p.h.len ≤ 2176) && p.data.length == (if p.h.carries then p.h.size else 0) &&
    (p.h.kind != kAtomic || p.h.op == 1 || p.h.op == 2 || p.h.op == 3)

/-- Sequenced kinds (R264). -/
def Hdr.sequenced (h : Hdr) : Bool :=
  h.kind == kLoad || h.kind == kStore || h.kind == kAtomic || h.kind == kLand || h.kind == kRet || h.kind == kColl ||
    h.kind == kClose

/-- Bits of an extension word (R265). -/
def Packet.x (p : Packet) (w lo len : Nat) : Nat := bitsOf (p.ext.getD w 0) lo len

/-- Sets LEN, and the SIZE of a kind that carries data, from what a packet holds. -/
def Packet.sized (p : Packet) : Packet :=
  { p with h := { p.h with size := (if p.h.carries then p.data.length else p.h.size),
                           len := 64 + 64 * p.h.ext + p.data.length } }

/-- Where a packet comes in, or goes out: the package network of the own node, or a link port (R278). -/
inductive Via where
  | own
  | port (n : Nat)
deriving DecidableEq, Repr

/-- A path of a spray set (R278): the own package network, DIRECT over an ML port, RELAY over an ML port through a
peer node, or an uplink. -/
inductive Path where
  | own
  | direct (n : Nat)
  | relay (n : Nat) (peer : Nat)
  | up (n : Nat)
deriving DecidableEq, Repr

/-- First port of a path. -/
def Path.port : Path → Option Nat
  | .own => none
  | .direct n => some n
  | .relay n _ => some n
  | .up n => some n

/-- Who issued a request (R267, R268, R269): a core's MOVE, an operation slot, or a unit of the routing die (its kind,
ring, tag and destination node). -/
inductive Agent where
  | move (xid : Nat)
  | op (s : Nat)
  | unit (u ring tag node : Nat)
  | none
deriving DecidableEq, Repr

end Sys2Proof.Machine
end

