-- ==== Sys2Proof/Machine/Formats.lean ====
section
/-!
DEFINITION. The number formats (02_number_formats R30 to R42), rounding (R31, R33, R49, R50), block scales (R39,
R40, R51), and the conversions of R52. Every value is exact: a sign, a natural significand and a power of two.
-/
namespace Sys2Proof.Machine

/-- The format codes of R30; 0xE and 0xF are reserved. -/
inductive Format where
  | f32 | f16 | w16 | f8v | f8g | f4 | i8 | u8 | i4 | u4 | i32 | t96 | at64 | at96
deriving DecidableEq, Repr

/-- The format of a 4-bit code (R30). -/
def Format.ofCode (c : Nat) : Option Format :=
  match c with
  | 0 => some .f32 | 1 => some .f16 | 2 => some .w16 | 3 => some .f8v | 4 => some .f8g | 5 => some .f4
  | 6 => some .i8 | 7 => some .u8 | 8 => some .i4 | 9 => some .u4 | 10 => some .i32 | 11 => some .t96
  | 12 => some .at64 | 13 => some .at96 | _ => none

/-- Width of one element in bits (R30). -/
def Format.bits : Format → Nat
  | .f32 => 32 | .f16 => 16 | .w16 => 16 | .f8v => 8 | .f8g => 8 | .f4 => 4 | .i8 => 8 | .u8 => 8 | .i4 => 4
  | .u4 => 4 | .i32 => 32 | .t96 => 128 | .at64 => 64 | .at96 => 96

/-- Formats of four bits, packed two to a byte (R38). -/
def Format.isNibble (f : Format) : Bool := f.bits == 4

/-- Integer operand formats (R41). -/
def Format.isInt (f : Format) : Bool :=
  match f with
  | .i8 | .u8 | .i4 | .u4 => true
  | _ => false

/-- Floating-point array operand formats (R41). -/
def Format.isFloatOperand (f : Format) : Bool :=
  match f with
  | .f16 | .w16 | .f8v | .f8g | .f4 => true
  | _ => false

/-- Formats that carry block scales (R39). -/
def Format.scaled (f : Format) : Bool := f == .f8v || f == .f4

/-- Bytes that `n` packed elements occupy (R38). -/
def Format.bytes (f : Format) (n : Nat) : Nat := ceilDiv (n * f.bits) 8

/-- An exact value: `fin neg m e` is `(-1)^neg * m * 2^e`. A NaN records whether it is signalling. -/
inductive Val where
  | nan (signalling : Bool)
  | inf (neg : Bool)
  | fin (neg : Bool) (m : Nat) (e : Int)
deriving DecidableEq, Repr

/-- Whether an operand is a NaN, and whether it signals (R32). -/
def Val.isNaN : Val → Bool
  | .nan _ => true
  | _ => false
def Val.signals : Val → Bool
  | .nan s => s
  | _ => false

/-- A binary floating-point layout: width of the exponent and fraction fields and bias. -/
structure Layout where
  ebits : Nat
  fbits : Nat
  bias : Nat
deriving DecidableEq, Repr

/-- The layouts of R31, R34, R35, R36 and R37. -/
def Format.layout : Format → Layout
  | .f32 => ⟨8, 23, 127⟩ | .f16 => ⟨5, 10, 15⟩ | .w16 => ⟨8, 7, 127⟩
  | .f8v => ⟨4, 3, 7⟩ | .f8g => ⟨5, 2, 15⟩ | .f4 => ⟨2, 1, 1⟩
  | _ => ⟨8, 23, 127⟩

/-- The sign-free value of an exponent and fraction field (R31, and the text before R35). -/
def Layout.magnitude (l : Layout) (e f : Nat) : Nat × Int :=
  if e = 0 then (f, 1 - (l.bias : Int) - l.fbits)
  else (2 ^ l.fbits + f, (e : Int) - l.bias - l.fbits)

/-- Decodes one element code of a floating-point or integer format (R31, R34 to R37, R41); block scales apart. Every NaN code of F8G is
quiet: DESIGN CHOICE (log entry 43). -/
def decodeElem (fmt : Format) (c : Nat) : Val :=
  match fmt with
  | .f32 | .f16 | .w16 | .f8g =>
    let l := fmt.layout
    let f := bitsOf c 0 l.fbits
    let e := bitsOf c l.fbits l.ebits
    let s := bitOf c (l.ebits + l.fbits)
    if e = 2 ^ l.ebits - 1 then
      if f = 0 then .inf s else .nan (!bitOf c (l.fbits - 1) && fmt != .f8g)
    else .fin s (l.magnitude e f).1 (l.magnitude e f).2
  | .f8v | .f4 =>
    let l := fmt.layout
    let f := bitsOf c 0 l.fbits
    let e := bitsOf c l.fbits l.ebits
    let s := bitOf c (l.ebits + l.fbits)
    if s && e = 0 && f = 0 then .nan false
    else .fin s (l.magnitude e f).1 (l.magnitude e f).2
  | .i8 | .i4 | .i32 =>
    let v := signedOf (bitsOf c 0 fmt.bits) fmt.bits
    .fin (v < 0) v.natAbs 0
  | _ => .fin false (bitsOf c 0 fmt.bits) 0

/-- Multiplies a value by a power of two, as a block scale does (R39). -/
def Val.scale (v : Val) (t : Int) : Val :=
  match v with
  | .fin s m e => .fin s m (e + t)
  | w => w

/-- A scale byte (R39): none for a malformed one (R40); `some none` for a NaN block; else the exponent. -/
def scaleByte (fmt : Format) (b : Nat) : Option (Option Int) :=
  if b = 0x80 then some none
  else
    let t := signedOf (bitsOf b 0 5) 5
    if bitsOf b 5 3 ≠ 0 then none
    else if fmt = .f8v then (if -8 ≤ t ∧ t ≤ 7 then some (some t) else none)
    else some (some t)

/-- Rounding modes: the four of R31 and deterministic stochastic rounding with its random bits (R49, R50). -/
inductive Rounding where
  | rne | rtz | rup | rdn
  | dsr (r : Nat)
deriving DecidableEq, Repr

/-- Whether a magnitude with quotient `n`, remainder `rem` and divisor `den` is rounded up in magnitude. -/
def roundsUp (mode : Rounding) (neg : Bool) (n rem den : Nat) : Bool :=
  if rem = 0 then false
  else match mode with
    | .rne => decide (den < 2 * rem) || (decide (den = 2 * rem) && n % 2 == 1)
    | .rtz => false
    | .rup => !neg
    | .rdn => neg
    | .dsr r =>
      if neg then !decide (2 ^ 32 ≤ (den - rem) * 2 ^ 32 / den + r)
      else decide (2 ^ 32 ≤ rem * 2 ^ 32 / den + r)

/-- `floor(log2 (p / q))` for positive `p` and `q`. -/
def log2Ratio (p q : Nat) : Int :=
  let a : Int := (Nat.log2 p : Int) - (Nat.log2 q : Int)
  -- the candidate is right or one too large
  if q * 2 ^ a.toNat ≤ p * 2 ^ (-a).toNat then a else a - 1

/-- `p / q` in units of `2^qe`, rounded to an integer: the integer and whether it was exact. -/
def roundUnits (mode : Rounding) (neg : Bool) (p q : Nat) (qe : Int) : Nat × Bool :=
  let num := p * 2 ^ (-qe).toNat
  let den := q * 2 ^ qe.toNat
  let n := num / den
  let r := num % den
  (if roundsUp mode neg n r den then n + 1 else n, r == 0)

/-- The IEEE flags of R33. -/
structure Flags where
  invalid : Bool := false
  divzero : Bool := false
  overflow : Bool := false
  underflow : Bool := false
  inexact : Bool := false
deriving DecidableEq, Repr

/-- No flag raised. -/
def Flags.none : Flags := {}

/-- The INVALID flag alone. -/
def Flags.inv : Flags := { invalid := true }

/-- Flags are sticky, so raising several ORs them (R33). -/
def Flags.or (a b : Flags) : Flags :=
  { invalid := a.invalid || b.invalid, divzero := a.divzero || b.divzero, overflow := a.overflow || b.overflow,
    underflow := a.underflow || b.underflow, inexact := a.inexact || b.inexact }

/-- The flags as VX_FLAGS places them (R119). -/
def Flags.toNat (f : Flags) : Nat :=
  ofBool f.invalid + 2 * ofBool f.divzero + 4 * ofBool f.overflow + 8 * ofBool f.underflow + 16 * ofBool f.inexact

/-- Precision, exponent of the smallest normal magnitude and exponent of the largest binade of a format. -/
def Format.prec (f : Format) : Nat := f.layout.fbits + 1
def Format.emin (f : Format) : Int := 1 - (f.layout.bias : Int)
def Format.emax (f : Format) : Int :=
  match f with
  | .f8v => 8 | .f4 => 2
  | _ => (f.layout.bias : Int)

/-- The result of rounding a magnitude: significand, exponent of its unit, and the flags. -/
structure RoundedMag where
  sig : Nat
  qe : Int
  beyond : Bool
  flags : Flags
deriving DecidableEq, Repr

/-- Whether a magnitude `sig * 2^qe` exceeds the format's largest finite magnitude. -/
def overMax (fmt : Format) (sig : Nat) (qe : Int) : Bool :=
  let mx := 2 ^ fmt.prec - 1
  let me := fmt.emax - fmt.prec + 1
  decide (mx * 2 ^ (me - qe).toNat < sig * 2 ^ (qe - me).toNat)

/-- Rounds the positive ratio `p / q` to a floating-point format: R31 modes, or DSR within the range (R50), with
tininess detected after rounding (R33). -/
def roundMag (fmt : Format) (mode : Rounding) (neg : Bool) (p q : Nat) : RoundedMag :=
  if p = 0 then ⟨0, fmt.emin - fmt.prec + 1, false, .none⟩
  else
    let e := log2Ratio p q
    let u := e - fmt.prec + 1
    let qe := max u (fmt.emin - fmt.prec + 1)
    -- a value beyond the largest finite magnitude is treated as RNE treats it (R50)
    let beyond := overMax fmt (p * 2 ^ (-qe).toNat / (q * 2 ^ qe.toNat) + 1) qe &&
      (decide (q * 2 ^ qe.toNat * (2 ^ fmt.prec - 1) * 2 ^ (fmt.emax - fmt.prec + 1 - qe).toNat
        < p * 2 ^ (-qe).toNat * 2 ^ (qe - (fmt.emax - fmt.prec + 1)).toNat))
    let mode' := match mode with
      | .dsr r => if beyond then .rne else .dsr r
      | m => m
    let r := roundUnits mode' neg p q qe
    let t := roundUnits mode' neg p q u
    let tiny := decide ((t.1 : Int) * 2 ^ (u - (fmt.emin - fmt.prec)).toNat
      < 2 ^ fmt.prec * 2 ^ (fmt.emin - fmt.prec - u).toNat)
    let huge := overMax fmt r.1 qe
    ⟨r.1, qe, huge, { overflow := huge, inexact := !r.2 || huge, underflow := tiny && !r.2 }⟩

/-- Encodes a finite rounded magnitude in a floating-point layout. -/
def encodeFin (fmt : Format) (neg : Bool) (sig : Nat) (qe : Int) : Nat :=
  let l := fmt.layout
  let s := ofBool neg * 2 ^ (l.ebits + l.fbits)
  if sig = 0 then s
  else
    let (sg, q) := if 2 ^ fmt.prec ≤ sig then (sig / 2, qe + 1) else (sig, qe)
    if sg < 2 ^ l.fbits then s + sg
    else s + ((q + l.fbits + l.bias).toNat) * 2 ^ l.fbits + (sg - 2 ^ l.fbits)

/-- Canonical NaN codes of R32. -/
def canonNaN : Format → Nat
  | .f32 => 0x7FC00000 | .f16 => 0x7E00 | .w16 => 0x7FC0 | .f8v => 0x80 | .f8g => 0x7F | .f4 => 0x8
  | _ => 0x7FC00000

/-- Infinity codes of R32, for the formats that have one. -/
def infCode (fmt : Format) (neg : Bool) : Nat :=
  let l := fmt.layout
  ofBool neg * 2 ^ (l.ebits + l.fbits) + (2 ^ l.ebits - 1) * 2 ^ l.fbits

/-- The largest finite code of a sign. -/
def maxCode (fmt : Format) (neg : Bool) : Nat :=
  encodeFin fmt neg (2 ^ fmt.prec - 1) (fmt.emax - fmt.prec + 1)

/-- A floating-point result code of the exact non-negative ratio `p / q` with sign `neg`, and its flags. In the
formats without an infinity the result saturates (R51, R52); elsewhere overflow follows the mode (R31). A zero of
F8G, F8V and F4 is written as code 0 (R36, R51). -/
def encodeRatio (fmt : Format) (mode : Rounding) (neg : Bool) (p q : Nat) : Nat × Flags :=
  let r := roundMag fmt mode neg p q
  if r.beyond then
    if fmt.scaled then (maxCode fmt neg, r.flags)
    else
      let toMax := match mode with
        | .rtz => true
        | .rup => neg
        | .rdn => !neg
        | _ => false
      (if toMax then maxCode fmt neg else infCode fmt neg, r.flags)
  else if r.sig = 0 && (fmt == .f8g || fmt.scaled) then (0, r.flags)
  else (encodeFin fmt neg r.sig r.qe, r.flags)

/-- The ratio of an exact magnitude `m * 2^e`. -/
def ratioOf (m : Nat) (e : Int) : Nat × Nat := (m * 2 ^ e.toNat, 2 ^ (-e).toNat)

/-- Encodes any exact value in a floating-point format (R32, R52): specials by R32; an infinity in a format without
one is NaN and raises INVALID; a signalling NaN raises INVALID. -/
def encodeVal (fmt : Format) (mode : Rounding) (v : Val) : Nat × Flags :=
  match v with
  | .nan s => (canonNaN fmt, { invalid := s })
  | .inf s => if fmt.scaled then (canonNaN fmt, .inv) else (infCode fmt s, .none)
  | .fin s m e => encodeRatio fmt mode s (ratioOf m e).1 (ratioOf m e).2

/-- Rounds an exact value to an integer: the integer and whether it was exact. -/
def roundInt (mode : Rounding) (neg : Bool) (m : Nat) (e : Int) : Int × Bool :=
  let r := roundUnits mode neg (ratioOf m e).1 (ratioOf m e).2 0
  (if neg then -(r.1 : Int) else (r.1 : Int), r.2)

/-- Range of an integer format (R41). -/
def Format.intRange (f : Format) : Int × Int :=
  match f with
  | .i8 => (-128, 127) | .u8 => (0, 255) | .i4 => (-8, 7) | .u4 => (0, 15)
  | _ => (-(2 ^ 31 : Int), 2 ^ 31 - 1)

/-- Clamps to a range: the value and whether it was outside. -/
def clampInt (lo hi v : Int) : Int × Bool :=
  if v < lo then (lo, true) else if hi < v then (hi, true) else (v, false)

/-- Converts an exact value to an integer format as R52 states for binary32 sources. -/
def encodeInt (fmt : Format) (mode : Rounding) (v : Val) : Nat × Flags :=
  match v with
  | .nan _ => (0, .inv)
  | .inf s => (toBits (if s then fmt.intRange.1 else fmt.intRange.2) fmt.bits, .inv)
  | .fin s m e =>
    let r := roundInt mode s m e
    let c := clampInt fmt.intRange.1 fmt.intRange.2 r.1
    (toBits c.1 fmt.bits, if c.2 then .inv else { inexact := !r.2 })

/-- `floor(log2)` of an exact positive magnitude. -/
def Val.log2? (v : Val) : Option Int :=
  match v with
  | .fin _ m e => if m = 0 then none else some ((Nat.log2 m : Int) + e)
  | _ => none

/-- Block scale of R51 for the values of one block of up to 32 elements. -/
def blockScale (fmt : Format) (vs : List Val) : Int :=
  let g : Int := if fmt = .f8v then 8 else 2
  let lo : Int := if fmt = .f8v then -8 else -16
  let hi : Int := if fmt = .f8v then 7 else 15
  match (vs.filterMap Val.log2?).foldl (fun a b => match a with | none => some b | some x => some (max x b)) none with
  | none => 0
  | some l => (clampInt lo hi (l - g)).1

/-- The scale byte of an exponent (R39). -/
def encodeScale (t : Int) : Nat := toBits t 5

/-! The DSR hash of R50. -/

/-- One mixing round of R50. -/
def dsrMix (z : Nat) : Nat :=
  let a := ((z ^^^ (z >>> 30)) * 0xBF58476D1CE4E5B9) % 2 ^ 64
  let b := ((a ^^^ (a >>> 27)) * 0x94D049BB133111EB) % 2 ^ 64
  b ^^^ (b >>> 31)

/-- The 32 random bits of an element (R50). -/
def dsrBits (seed tid index : Nat) : Nat :=
  dsrMix (seed ^^^ dsrMix ((tid * 2 ^ 40) ||| index)) >>> 32

/-- The readout modes of R49: code 0 is RNE and code 4 is DSR with the element's random bits. -/
def readoutMode (code seed tid index : Nat) : Rounding :=
  if code = 4 then .dsr (dsrBits seed tid index) else .rne

/-! Packed element arrays (R38). -/

/-- Element `i` of a packed byte string. -/
def packedElem (fmt : Format) (bs : List Byte) (i : Nat) : Nat :=
  if fmt.isNibble then bitsOf ((bs.getD (i / 2) 0).toNat) (4 * (i % 2)) 4
  else ofBytes ((bs.drop (i * (fmt.bits / 8))).take (fmt.bits / 8))

/-- Packs element codes; an odd count of nibbles leaves the last byte's bits [7:4] zero (R38, R112). -/
def packElems (fmt : Format) : List Nat → List Byte
  | [] => []
  | c :: cs =>
    if fmt.isNibble then
      match cs with
      | [] => [BitVec.ofNat 8 c]
      | d :: ds => BitVec.ofNat 8 (c + 16 * d) :: packElems fmt ds
    else toBytes (fmt.bits / 8) c ++ packElems fmt cs

end Sys2Proof.Machine
end

