-- ==== Sys2Proof/Machine/Tally.lean ====
section
/-!
DEFINITION. Tally-96 (02_number_formats R43 to R47, R53), its readouts (R44, R46, R49, R51), and the anchored
tally formats (R55 to R58).
-/
namespace Sys2Proof.Machine

/-- An accumulator's exact content: N modulo `2^112`, the residue kept beside it, and the special flags (R43). -/
structure Tally where
  n : BitVec 112 := 0
  res : Nat := 0
  nan : Bool := false
  pinf : Bool := false
  ninf : Bool := false
deriving DecidableEq, Repr, Inhabited

/-- The value of N as a signed integer. -/
def Tally.value (t : Tally) : Int := t.n.toInt

/-- Adds an exact integer to N; the residue follows the exact sum, not the wrapped N (R45, R53). -/
def Tally.addInt (t : Tally) (v : Int) : Tally :=
  { t with n := t.n + BitVec.ofInt 112 v, res := (((t.res : Int) + v) % 7).toNat }

/-- The residue check of R53. -/
def Tally.residueOk (t : Tally) : Bool := decide ((t.value % 7).toNat = t.res)

/-- Sum of two exact contents (Tally-add, R276; residues add modulo 7). -/
def Tally.add (a b : Tally) : Tally :=
  { n := a.n + b.n, res := (a.res + b.res) % 7, nan := a.nan || b.nan, pinf := a.pinf || b.pinf,
    ninf := a.ninf || b.ninf }

/-- Integer of `m * 2^e` in units of `2^-sh`, for contributions that are exact (R42). -/
def tallyUnits (neg : Bool) (m : Nat) (e : Int) (sh : Int) : Int :=
  let k := e + sh
  let v : Int := ((m * 2 ^ k.toNat / 2 ^ (-k).toNat : Nat) : Int)
  if neg then -v else v

/-- Adds one exact product; `sh` is 48 in FLOAT plots and 0 in INT plots (R43, R46). The flag is INVALID: a product of zero and an
infinity (R46), or a signalling NaN operand (R32). -/
def Tally.addProduct (sh : Int) (t : Tally) (a b : Val) : Tally × Bool :=
  match a, b with
  | .nan x, y => ({ t with nan := true }, x || y.signals)
  | _, .nan y => ({ t with nan := true }, y)
  | .fin s m e, .fin u n f => (t.addInt (tallyUnits (s != u) (m * n) (e + f) sh), false)
  | .inf s, .inf u => (if s != u then { t with ninf := true } else { t with pinf := true }, false)
  | .inf s, .fin u n _ =>
    if n = 0 then ({ t with nan := true }, true)
    else (if s != u then { t with ninf := true } else { t with pinf := true }, false)
  | .fin s m _, .inf u =>
    if m = 0 then ({ t with nan := true }, true)
    else (if s != u then { t with ninf := true } else { t with pinf := true }, false)

/-- Sums products of two lists of values in order, which does not matter (R44). -/
def Tally.addProducts (sh : Int) : Tally → List (Val × Val) → Tally × Bool
  | t, [] => (t, false)
  | t, p :: ps =>
    let r := t.addProduct sh p.1 p.2
    let q := Tally.addProducts sh r.1 ps
    (q.1, r.2 || q.2)

/-- A T96 slot's 128 bits (R47). -/
def Tally.slot (t : Tally) : Nat :=
  t.n.toNat + t.res * 2 ^ 112 + ofBool t.nan * 2 ^ 115 + ofBool t.pinf * 2 ^ 116 + ofBool t.ninf * 2 ^ 117

/-- The content of a T96 slot (R47). -/
def Tally.ofSlot (w : Nat) : Tally :=
  { n := BitVec.ofNat 112 w, res := bitsOf w 112 3, nan := bitOf w 115, pinf := bitOf w 116, ninf := bitOf w 117 }

/-- Judgement of R44: the value clamped to 96 bits, and whether it was outside. -/
def Tally.judge (t : Tally) : Int × Bool := clampInt (-(2 ^ 95 : Int)) (2 ^ 95 - 1) t.value

/-- Readout value of R46 after the judgement of R44: the exact value, TALLY_OVF, and the INVALID flag. -/
def Tally.readVal (sh : Int) (t : Tally) : Val × Bool × Bool :=
  if t.nan || (t.pinf && t.ninf) then (.nan false, false, t.pinf && t.ninf)
  else if t.pinf then (.inf false, false, false)
  else if t.ninf then (.inf true, false, false)
  else ((Val.fin (t.judge.1 < 0) t.judge.1.natAbs (-sh)), t.judge.2, false)

/-- One element read out: code, flags and TALLY_OVF. -/
structure OutElem where
  code : Nat
  flags : Flags
  ovf : Bool
deriving DecidableEq, Repr

/-- Readout of a Tally-96 value to a format without block scales (R49). -/
def Tally.readElem (sh : Int) (fmt : Format) (mode : Rounding) (t : Tally) : OutElem :=
  match fmt with
  | .t96 => ⟨t.slot, .none, false⟩
  | .i32 =>
    if t.nan || t.pinf || t.ninf then
      ⟨(Config.specialToInt32 (ofBool t.nan + 2 * ofBool t.pinf + 4 * ofBool t.ninf)).toNat,
        { invalid := t.pinf && t.ninf }, false⟩
    else
      let c := clampInt (-(2 ^ 31 : Int)) (2 ^ 31 - 1) t.judge.1
      ⟨toBits c.1 32, .none, t.judge.2 || c.2⟩
  | _ =>
    let v := t.readVal sh
    let r := encodeVal fmt mode v.1
    -- positive zero for an exact zero: N has no negative zero (R43)
    ⟨r.1, r.2.or { invalid := v.2.2 }, v.2.1⟩

/-- Rounds one block of up to 32 values to F8V or F4 (R51): the codes, flags and the scale exponent. -/
def encodeBlock (fmt : Format) (modes : List Rounding) (vs : List Val) : List (Nat × Flags) × Int :=
  let t := blockScale fmt vs
  ((vs.zip modes).map (fun p => encodeVal fmt p.2 (p.1.scale (-t))), t)

/-- Splits a list into blocks of 32 (R39). -/
def blocks32 {α : Type} : Nat → List α → List (List α)
  | 0, _ => []
  | k + 1, l => if l.isEmpty then [] else l.take 32 :: blocks32 k (l.drop 32)

/-- A row of exact values encoded in a format: element codes, scale bytes and flags. Special readout flags
come with each value. -/
def encodeRow (fmt : Format) (vs : List (Val × Rounding)) : List Nat × List Nat × Flags :=
  if fmt.scaled then
    let bs := (blocks32 (vs.length + 1) vs).map (fun b => encodeBlock fmt (b.map (·.2)) (b.map (·.1)))
    let es := bs.flatMap (·.1)
    (es.map (·.1), bs.map (fun b => encodeScale b.2), es.foldl (fun f e => f.or e.2) Flags.none)
  else
    let es := vs.map (fun p => encodeVal fmt p.2 p.1)
    (es.map (·.1), [], es.foldl (fun f e => f.or e.2) Flags.none)

/-- A row of Tally-96 contents read out (R44, R46, R49, R51): codes, scale bytes, flags and TALLY_OVF. -/
def readRow (sh : Int) (fmt : Format) (ts : List (Tally × Rounding)) : List Nat × List Nat × Flags × Bool :=
  if fmt.scaled then
    let vs := ts.map (fun p => p.1.readVal sh)
    let r := encodeRow fmt ((vs.map (·.1)).zip (ts.map (·.2)))
    (r.1, r.2.1, vs.foldl (fun f v => f.or { invalid := v.2.2 }) r.2.2, vs.any (fun v => v.2.1))
  else
    let es := ts.map (fun p => p.1.readElem sh fmt p.2)
    (es.map (·.code), [], es.foldl (fun f e => f.or e.flags) Flags.none, es.any (·.ovf))

/-- Conversion of an exact value to a Tally-96 content (R52): RNE to the grid, clamp and TALLY_OVF. -/
def Tally.ofVal (sh : Int) (v : Val) : Tally × Bool :=
  match v with
  | .nan _ => ({ nan := true }, false)
  | .inf s => (if s then { ninf := true } else { pinf := true }, false)
  | .fin s m e =>
    let r := roundInt .rne s m (e + sh)
    let c := clampInt (-(2 ^ 95 : Int)) (2 ^ 95 - 1) r.1
    ({ n := BitVec.ofInt 112 c.1, res := (c.1 % 7).toNat }, c.2)

/-- The flags of that conversion (R52, R33): INEXACT when it rounds, INVALID for a signalling NaN. -/
def Tally.ofValFlags (sh : Int) (v : Val) : Flags :=
  { invalid := v.signals,
    inexact := match v with
      | .fin s m e => !(roundInt .rne s m (e + sh)).2
      | _ => false }

/-! The anchored tally of R55 to R58. -/

/-- The anchor word of one member's block (R55). -/
def anchorWord (vs : List Val) : Nat :=
  let e := (vs.filterMap Val.log2?).foldl (fun a b => max a ((b + 4096).toNat)) 0
  ofBool (vs.any (fun v => match v with | .nan _ => true | _ => false)) * 2 ^ 15 + ofBool (vs.any (fun v => v == .inf false)) * 2 ^ 14 +
    ofBool (vs.any (fun v => v == .inf true)) * 2 ^ 13 + e

/-- Anchor words combine by OR on [15:13] and maximum on [12:0] (R55). -/
def combineAnchor (a b : Nat) : Nat :=
  ((a >>> 13) ||| (b >>> 13)) * 2 ^ 13 + max (a % 2 ^ 13) (b % 2 ^ 13)

/-- Fraction bits of a wire format (R56). -/
def wireF (at96 : Bool) : Nat := if at96 then 78 else 46

/-- Phase-two integer of one value under a combined anchor word (R56). -/
def anchorQ (f : Nat) (word : Nat) (v : Val) : Int :=
  if word % 2 ^ 13 = 0 then 0
  else
    match v with
    | .fin s m e =>
      -- A = E + 1 = EXP - 4096 + 1
      tallyUnits s m e ((f : Int) - ((word % 2 ^ 13 : Nat) - 4096 + 1))
    | _ => 0

/-- Final rounding of a total (R58). -/
def anchorTotal (f : Nat) (word : Nat) (fmt : Format) (mode : Rounding) (sum : Int) : Nat × Flags :=
  if word / 2 ^ 13 ≠ 0 then (canonNaN fmt, .none)
  else encodeVal fmt mode (.fin (sum < 0) sum.natAbs ((word % 2 ^ 13 : Nat) - 4096 + 1 - (f : Int)))

end Sys2Proof.Machine
end

