-- ==== Sys2Proof/Machine/State.lean ====
section
/-!
DEFINITION. The state of the part as plain data: the register file, the memories, and the hidden state the spec
gives each unit, with the queue of commands that wait. Every register field of the register tables lives in `regs`
at its register address; an unlisted register holds its reset value (RegTable.lean).
-/
namespace Sys2Proof.Machine

/-- The three states of an accumulator (R103). -/
inductive AccKind where
  | empty | tally | float
deriving DecidableEq, Repr

/-- An accumulator: its state, its exact content, and its binary32 partial sum (R43, R48, R103). -/
structure Acc where
  kind : AccKind := .empty
  t : Tally := {}
  f : Nat := 0
deriving DecidableEq, Repr

/-- The operand reads of a matrix pass (R98): the cycle in which its front enters depth row 0, how many cell rows have been read,
the element bytes and scale bytes that each weight column and each activation row has given, and whether a word read was poisoned
(R69). -/
structure Pass where
  f : Nat
  cells : Nat := 0
  wgt : List (List Byte × List Byte) := []
  act : List (List Byte × List Byte) := []
  poison : Bool := false
deriving DecidableEq, Repr

/-- An early front (R98, R99): the ring index and words of the MXM that it is for, and what it has read. -/
structure Front where
  idx : Nat
  words : List Nat
  pass : Pass
deriving DecidableEq, Repr

/-- The latest MXM of an MP slot, which chaining compares with (R89, R99): its shape and formats, its completion cycle once it has
completed, the cycle in which the front of a chained successor must enter depth row 0, whether that successor is still awaited, the
cycles by which it is late, and its front once it has started. -/
structure Chain where
  shape : Nat
  fmtA : Nat
  fmtW : Nat
  next : Nat
  done : Option Nat := none
  awaited : Bool := true
  late : Nat := 0
  front : Option Front := none
deriving DecidableEq, Repr

/-- A command that has issued and not completed: its position in the list and in the ring, its slot and words, its
issue cycle, cost and commit length (R64, R88), the failure found while it executes (0 for none), and what it stages
(R75): core-store bytes, accumulator shadows, sticky flags (R115) and TALLY_OVF (R44); for an array command the shape in force at
its issue (R72), for an MXM the operand reads of its pass while they last (R98), for an MVM the strips consumed (R109). -/
structure CmdRec where
  ord : Nat
  idx : Nat
  slot : Slot
  words : List Nat
  issue : Nat
  cost : Nat
  commitLen : Nat
  code : Nat := 0
  writes : List (Nat × Byte) := []
  shadows : List (Nat × Acc) := []
  flags : Flags := {}
  ovf : Bool := false
  shape : Nat := 0
  pass : Option Pass := none
  strips : Nat := 0
deriving DecidableEq, Repr

/-- Hidden state of one core: in-flight commands in issue order; the ring base and size in force (R86); the list
position (the number of commands decoded so far); a kill in progress
(R77); ring indices that RESUME skips (R78); the latest MXM of each side since RUN or RESUME (R89); RUN and
ARM held by a row repair or a substitution (R436, R438); rows queued for repair, corrected-word counts per row, rows
repaired and spare rows used per bank (R436). -/
structure CoreHid where
  inflight : List CmdRec := []
  base : Nat := 0
  size : Nat := 0
  nextOrd : Nat := 0
  killing : Bool := false
  skip : List Nat := []
  chainA : Option Chain := none
  chainB : Option Chain := none
  heldRun : Bool := false
  heldArm : Bool := false
  rows : List Nat := []
  rowCorr : Tab Nat := []
  repaired : List Nat := []
  spareUsed : Tab Nat := []
deriving DecidableEq, Repr

/-- One entry of the coalescing table (R443): key, SEQ of its open record, almanac count of its latest occurrence. -/
structure CoalEntry where
  code : Nat
  die : Nat
  sub : Nat
  seq : Nat
  last : Nat
deriving DecidableEq, Repr


/-- One plot of the PLOTS section in force (R352, R401): EN, CLASS (0 LC, 1 BE), PERS, PAIR, RESMODE, PKEY, the mask
of logical cores, and the routing and tenancy parameters. -/
structure PlotCfg where
  en : Bool := false
  cls : Nat := 0
  pers : Nat := 0
  pair : Nat := 0
  resmode : Nat := 0
  pkey : Nat := 0
  cores : Nat := 0
  cap : Nat := 0
  capBeMin : Nat := 0
  batchTok : Nat := 0
  tenStepTok : Nat := 0
  tenFirst : Nat := 0
  tenCount : Nat := 0
deriving DecidableEq, Repr

/-- A sequenced packet that its source holds until it completes (R272): its number in the stream, PSN, issuer, packet as
last sent, path taken (R279), whether an ACK covered it and a response came, whether it waits after BUSY (R270), where
a LOAD's data goes (a core and a local address), the response's STATUS and value, and whether it travels on the uplink
of its engine's plane only (R213, R218). -/
structure OutReq where
  rid : Nat
  psn : Nat
  agent : Agent
  pkt : Packet
  path : Path
  acked : Bool := false
  answered : Bool := false
  busy : Bool := false
  land : Option (Nat × Nat) := none
  status : Nat := 0
  res : Nat := 0
  plane : Bool := false
deriving DecidableEq, Repr

/-- A send context (R270): engine, destination node, GEN, next PSN, counts of R272, whether CLOSE has been sent, the key
of the pair's last request, the outstanding packets, the spray set last used with each path's weight and credit (R279), and the lowest PSN whose
atomic result has not come back (R277). -/
structure SendCtx where
  k : Nat
  node : Nat
  gen : Nat
  next : Nat := 0
  issued : Nat := 0
  completed : Nat := 0
  closing : Bool := false
  key : Nat := 0
  out : List OutReq := []
  spray : List (Path × Nat × Int) := []
deriving DecidableEq, Repr

/-- A request not yet sent: held under FLAG_G (R274), or by VT_CTRL.ENABLE or a limit of its pair (R270, R277); `plane`
as in OutReq. -/
structure WaitReq where
  k : Nat
  rid : Nat
  node : Nat
  agent : Agent
  pkt : Packet
  land : Option (Nat × Nat) := none
  plane : Bool := false
deriving DecidableEq, Repr

/-- A receive context (R270, R271): source node and stream, GEN, HORIZON, the applied PSNs at or above it, packets held
under FLAG with where they came in, and APPLIED (R272). -/
structure RecvCtx where
  node : Nat
  k : Nat
  gen : Nat
  horizon : Nat := 0
  applied : List Nat := []
  held : List (Via × Packet) := []
  count : Nat := 0
deriving DecidableEq, Repr

/-- An atomic replay table (R277): the source stream it is bound to, and entries of PSN, STATUS and result. -/
structure ReplayTab where
  node : Nat
  k : Nat
  entries : List (Nat × Nat × Nat) := []
deriving DecidableEq, Repr

/-- A MOVE's transfer after its commit (R267): its core, counter, increment, requests not completed, and whether one
failed. -/
structure Xfer where
  xid : Nat
  core : Nat
  en : Bool
  ctr : Nat
  inc : Nat
  left : Nat
  bad : Bool := false
deriving DecidableEq, Repr

/-- A completed request of an operation slot or of a unit, until its issuer takes it up: issuer, engine, STATUS, result,
PSN and GEN. -/
structure DoneReq where
  agent : Agent
  k : Nat
  status : Nat
  res : Nat := 0
  psn : Nat := 0
  gen : Nat := 0
deriving DecidableEq, Repr

/-- A route table (R283): 16 local entries and the board entries by BOARD. -/
structure RouteTab where
  loc : Tab Nat := []
  board : Tab Nat := []
deriving DecidableEq, Repr

/-- A dead element (R287): node, port (31 the whole node), the far end that the loss named as TARGET, and, where a full
table took the whole node, the ports that are dead in it. -/
structure DeadEl where
  node : Nat
  port : Nat
  target : Nat
  ports : List Nat := []
deriving DecidableEq, Repr

/-- A notice accepted and in force (R288, R289): issuer, element, NTYPE, TARGET. -/
structure NoticeRec where
  issuer : Nat
  enode : Nat
  eport : Nat
  ntype : Nat
  target : Nat
  alm : Nat
deriving DecidableEq, Repr

/-- Hidden state of the transaction engines (10_fabric_transactions). `nextRid` numbers requests, `gens` holds the
next GEN of a pair by engine * 2^19 + node, `waiting` the requests not sent, `recv` the packets that wait to be
processed with where they came in, `rcur`, `rold` and `rstaged` the route tables of the epochs, `down` the nodes under
an accepted NODE_DOWN, `lost` the mesh peers lost with cause FAULT and when,
`issued` the targets of this part's own NODE_DOWN notices, `supLast` the latest count of suppression entry e, `supBy` the
engine that opened it, `again` the notices to be sent a second time. -/
structure VtState where
  send : List SendCtx := []
  recvCtx : List RecvCtx := []
  tabs : List ReplayTab := []
  gens : Tab Nat := []
  nextRid : Nat := 0
  waiting : List WaitReq := []
  recv : List (Via × Packet) := []
  xfers : List Xfer := []
  done : List DoneReq := []
  rcur : RouteTab := {}
  rold : RouteTab := {}
  rstaged : RouteTab := {}
  dead : List DeadEl := []
  notices : List NoticeRec := []
  down : List Nat := []
  lost : List (Nat × Nat) := []
  issued : List Nat := []
  supLast : Tab Nat := []
  supBy : Tab Nat := []
  again : List Packet := []
deriving DecidableEq, Repr

/-- A control block of R236, by TYPE and fields. -/
inductive Ctl where
  | idle
  | sof (ch seq len : Nat)
  | eof (ch seq fcrc : Nat)
  | ack (n x credN credX : Nat)
  | nak (ch seq : Nat)
  | lanemap (mapseq map width : Nat)
  | mapsw (mapseq : Nat)
  | align (mapseq cwcount : Nat)
  | hello (node port kind plane seen credN credX ts echo : Nat)
  | adv (units count caps : Nat)
  | bye (reason : Nat)
  | train (lane op : Nat)
deriving DecidableEq, Repr

/-- What a transmitter puts in one block slot (R235, R239): a control block, or the 32 bytes of data block `i` of the
open frame of a channel. -/
inductive Block where
  | ctl (c : Ctl)
  | data (ch i : Nat) (bytes : List Byte)
deriving DecidableEq, Repr

/-- A frame sent and not acknowledged (R241, R244): SEQ, packet, how many times it has been sent. -/
structure TxFrame where
  seq : Nat
  pkt : Packet
  sends : Nat
deriving DecidableEq, Repr

/-- A frame being sent (R237): SEQ, the packet's bytes and the data blocks sent so far. -/
structure OpenTx where
  seq : Nat
  bytes : List Byte
  sent : Nat
deriving DecidableEq, Repr

/-- A frame being received (R237, R240): SEQ and LEN of its SOF and the bytes of its data blocks so far. -/
structure RxFrame where
  seq : Nat
  len : Nat
  bytes : List Byte := []
deriving DecidableEq, Repr

/-- One channel of a port, both directions (R241 to R243): packets queued, frames unacknowledged, SEQs to replay, next
SEQ, the frame open, E of the receiver, the E for which a NAK stands and when it was sent, the peer's initial grant, its
cumulative returns, credits consumed, credits returned to the peer, and the frame being received. -/
structure Chan where
  queue : List Packet := []
  unacked : List TxFrame := []
  replay : List Nat := []
  next : Nat := 0
  opn : Option OpenTx := none
  e : Nat := 0
  nakFor : Option (Nat × Nat) := none
  granted : Nat := 0
  credit : Nat := 0
  used : Nat := 0
  returned : Nat := 0
  rx : Option RxFrame := none
deriving DecidableEq, Repr

/-- Hidden state of a link port (09_fabric_links): the normal and the express channel, which of the last 64 data blocks
were normal, normal blocks owed to the floor (R239), control blocks due, the block of the latest slot (none in electrical
idle), the physical lane it went to and how many blocks the map in force has carried (R235), the last ALIGN of the spare,
the map requested by the peer and not yet switched to (R249), whether a BYE arrived,
when PRSNT_N was last seen asserted again (R253), the code and time of a loss whose cause is open, whether a valid HELLO
was received and SEEN sent, whether the peer has sent SEEN (R246), the peer's latest TS, the map requested by this receiver
and not yet switched with the MAPSEQ requested last (R249), lanes' failed retraining attempts (R251), codewords since link-up
(R235), whether HERE_N is driven (R252), and the peer's offset estimated from the HELLO exchange (R378). -/
structure LinkHid where
  n : Chan := {}
  x : Chan := {}
  floor : List Bool := []
  owed : Nat := 0
  due : List Ctl := []
  last : Option Block := none
  lane : Nat := 0
  sent : Nat := 0
  spare : Option Ctl := none
  txReq : Option (Nat × Nat × Nat) := none
  bye : Bool := false
  prsntEnd : Option Nat := none
  loss : Option (Nat × Nat) := none
  seen : Bool := false
  seenSent : Bool := false
  peerSeen : Bool := false
  peerTs : Nat := 0
  mapReq : Option (Nat × Nat × Nat) := none
  mapSeq : Nat := 0
  tries : Tab Nat := []
  cw : Nat := 0
  here : Bool := false
  ofs : Int := 0
deriving DecidableEq, Repr

/-- A Winnower job in progress (R121, R122): ring, descriptor words, whether its load phase is complete, the bias bank
and the residency mask it read (R127), its next item, the warnings, the counts of its completion record (R143), and the
triples counted for each expert (R134). -/
structure WinJob where
  ring : Nat
  words : List Nat
  loaded : Bool := false
  bias : List Nat := []
  mask : List Byte := []
  item : Nat := 0
  warn : Nat := 0
  triples : Nat := 0
  nonfinite : Nat := 0
  short : Nat := 0
  active : Nat := 0
  stall : Nat := 0
  loads : Tab Nat := []
deriving DecidableEq, Repr

/-- A record on its way from a Winnower to the Thresher of its die: the Winnower ring it came from, and its two words
(R133). -/
structure WinRec where
  ring : Nat
  w0 : Nat
  w1 : Nat
deriving DecidableEq, Repr

/-- Hidden state of a Winnower: the jobs in progress, the ring served last, the LC and the BE ring served last (R122),
and the records that wait at the Thresher's intake (R155). -/
structure WinHid where
  jobs : List WinJob := []
  last : Nat := 15
  lastLc : Nat := 15
  lastBe : Nat := 15
  out : List WinRec := []
deriving DecidableEq, Repr

/-- An end-of-step token (R156, R157): sending die, ring, STEP_ID, digest, records forwarded, and the failure code it
carries with ABORT (0 without). -/
structure ThrTok where
  src : Nat
  ring : Nat
  stepId : Nat
  digest : Nat
  count : Nat
  code : Nat
deriving DecidableEq, Repr

/-- A manifest to send (R164). -/
structure ManRec where
  node : Nat
  lcore : Nat
  ctr : Nat
  manctr : Nat
  region : Nat
  count : Nat
deriving DecidableEq, Repr

/-- A kept row to send (R165, R166). -/
structure RowRec where
  cls : Nat
  tenant : Nat
  token : Nat
  expert : Nat
  replica : Nat
  slot : Nat
  node : Nat
  lcore : Nat
  ctr : Nat
  manctr : Nat
  region : Nat
deriving DecidableEq, Repr

/-- A step in progress on one die (R148 to R174): ring, descriptor, the failure code that this die has found (0 for
none), the expert map entries read at intake, triples passed by its Winnower, end markers counted, whether intake is closed,
the records of owned experts, how many were forwarded to and received from each peer, the tokens held, the code that all
four dies settled (R157), whether its record has been written while it still takes records, queued steps after it that a
flush has completed, and, from the cut on, the counts of R173, the rc spent, the manifests and rows to send, and the
Sower's progress. -/
structure ThrStep where
  ring : Nat
  words : List Nat
  own : Nat := 0
  maps : Tab (List Nat) := []
  aIn : Nat := 0
  marks : Nat := 0
  closed : Bool := false
  recs : List (Nat × Nat) := []
  sent : Tab Nat := []
  got : Tab Nat := []
  toks : List ThrTok := []
  verdict : Option Nat := none
  fin : Bool := false
  skip : Nat := 0
  cut : Bool := false
  aOwn : Nat := 0
  kept : Nat := 0
  dropLc : Nat := 0
  dropBe : Nat := 0
  nomap : Nat := 0
  rc : Nat := 0
  mans : List ManRec := []
  rows : List RowRec := []
  manSent : Bool := false
  manCount : Nat := 0
  status : Nat := 0
  sowRc : Nat := 0
  bytes : Nat := 0
  stallMan : Nat := 0
  stallTb : Nat := 0
deriving DecidableEq, Repr

/-- Hidden state of a Thresher: steps in progress, the records and tokens of its peers that wait (R154, R156), the tokens still
to come for steps that it has ended without them, as die, ring and STEP_ID (R157), and how many steps it has written by
ASSIGN_ADDR (R161). -/
structure ThrHid where
  steps : List ThrStep := []
  inRecs : List (Nat × Nat × Nat) := []
  inToks : List ThrTok := []
  gone : List (Nat × Nat × Nat) := []
  wrote : Tab Nat := []
deriving DecidableEq, Repr

/-- A row handed to the fabric and not completed: number, ring, pieces left, whether all so far succeeded, bytes. -/
structure RowOut where
  rid : Nat
  ring : Nat
  left : Nat
  ok : Bool
  bytes : Nat
deriving DecidableEq, Repr

/-- A partly landed row (R170): core, counter, region and slot, and the pieces that have landed. -/
structure Track where
  core : Nat
  ctr : Nat
  region : Nat
  slot : Nat
  pieces : List Nat
deriving DecidableEq, Repr

/-- Hidden state of a Sower: rows and manifests not completed, the node served last in each class (R166), bucket levels
in 1/1,000 row (R167), and the partly landed rows. -/
structure SowHid where
  nextRow : Nat := 0
  rowsOut : List RowOut := []
  manOut : List (Nat × Nat) := []
  lastLc : Option Nat := none
  lastBe : Option Nat := none
  tb : Tab Nat := []
  track : List Track := []
deriving DecidableEq, Repr

/-- What a RETURN job sends next (R186): the row of a slot of block `blk`, or the end marker of a segment. -/
structure RetAct where
  marker : Bool
  seg : Nat
  slot : Nat
  blk : Nat
deriving DecidableEq, Repr

/-- An active RETURN job (R186, R187): its number in order of activation, ring entry, descriptor, whether its counts and
segment table (NODE, TAG and COUNT of each segment) have been read, what is left to send, its blocks and how many are ready,
its failure code and the remote node concerned, and the figures of its record (R199). -/
structure RetJob where
  aid : Nat
  ring : Nat
  idx : Nat
  words : List Nat
  opn : Bool := false
  segs : List (Nat × Nat × Nat) := []
  todo : List RetAct := []
  blocks : Nat := 0
  ready : Nat := 0
  fail : Nat := 0
  peer : Nat := 0
  rows : Nat := 0
  marks : Nat := 0
  bytes : Nat := 0
  active : Nat := 0
  stall : Nat := 0
  stallSrc : Nat := 0
deriving DecidableEq, Repr

/-- A row or marker of a RETURN job handed to the fabric: number, job, node, whether it is a marker, pieces left, whether
all succeeded, bytes. -/
structure RetOut where
  oid : Nat
  aid : Nat
  node : Nat
  marker : Bool
  left : Nat
  ok : Bool
  bytes : Nat
deriving DecidableEq, Repr

/-- An open COMBINE job of one die (R189 to R195): context, ring, ring entry, its number in the order of the ring, descriptor, READY bits by 4 EXPERT + REPLICA, pairs whose
notice this die has sent, completed rows and the marker's COUNT + 1 of each pair, tokens of its share left, whether a READY
notice has come, the Threshers' written steps at its opening, and the figures of its record (R199). -/
structure CombJob where
  ctx : Nat
  ring : Nat
  idx : Nat := 0
  ord : Nat := 0
  words : List Nat
  ready : List Nat := []
  told : List Nat := []
  rows : Tab Nat := []
  marks : Tab Nat := []
  left : List Nat := []
  seen : Bool := false
  wrote : List Nat := []
  tokens : Nat := 0
  special : Nat := 0
  products : Nat := 0
  active : Nat := 0
  stall : Nat := 0
  stallSrc : Nat := 0
deriving DecidableEq, Repr

/-- A partly returned row (R191). -/
structure RetTrack where
  tag : Nat
  pair : Nat
  slot : Nat
  pieces : List Nat
deriving DecidableEq, Repr

/-- A READY notice on its way (R191): TAG, pair, digest. -/
structure ReadyNote where
  tag : Nat
  pair : Nat
  digest : Nat
deriving DecidableEq, Repr

/-- A failure of a COMBINE job whose copy here is still queued (R195): ring, the job's number in the order of the ring, code, and the
remote node concerned. -/
structure CombFail where
  ring : Nat
  ord : Nat
  code : Nat
  node : Nat
deriving DecidableEq, Repr

/-- Hidden state of a Gleaner: active RETURN jobs, ring entries completed out of order, queued jobs of each return ring that a flush
has still to end, rows and markers in flight, the job served last in each class (R187), open COMBINE jobs, entries of combine rings
completed out of order, entries taken from each combine ring, failures of jobs still queued, the context served last in each class
(R194), notices that wait, and partly returned rows. -/
structure GlnHid where
  nextAid : Nat := 0
  rets : List RetJob := []
  retDone : List (Nat × Nat) := []
  flushRet : Tab Nat := []
  nextOid : Nat := 0
  outs : List RetOut := []
  lastLc : Option Nat := none
  lastBe : Option Nat := none
  combs : List CombJob := []
  combDone : List (Nat × Nat) := []
  combOrd : Tab Nat := []
  combFails : List CombFail := []
  ctxLc : Nat := 7
  ctxBe : Nat := 7
  notes : List ReadyNote := []
  track : List RetTrack := []
deriving DecidableEq, Repr

/-- A COLL packet's data as received (R265): phase, swath or piece, rank, PSN, bytes. -/
structure ColChunk where
  phase : Nat
  index : Nat
  rank : Nat
  psn : Nat
  bytes : List Byte
deriving DecidableEq, Repr

/-- An open collective (R214): context, ring, descriptor, group context and whether it is open, SEQ, digest, state, engines
READY, CAUSE, warnings, whether a final result came, whether CLOSE and whether ABORT was sent, whether the deadline has
passed, the contexts each plane granted (R220), the counts read (R222), the source bytes by swath, received data, the swaths
whose output values stand in the workspace (R224), swaths rounded here, swaths that wait for their plane, those outstanding on it, swath phases to be sent again
(R221), slots landed (R223), and by engine the bytes sent and received, the rc of work and the retries; then the dropped
bytes, the clamped elements and the NaN blocks (R229). -/
structure ColJob where
  ctx : Nat
  ring : Nat
  words : List Nat
  g : Nat
  inGroup : Bool := true
  seq : Nat := 0
  dig : Nat := 0
  st : Nat := 1
  rdy : List Nat := []
  cause : Nat := 0
  warn : Nat := 0
  final : Bool := false
  closed : Bool := false
  voted : Bool := false
  late : Bool := false
  ran : Bool := false
  grants : List Nat := []
  sizes : List Nat := []
  src : Tab (List Byte) := []
  chunks : List ColChunk := []
  staged : List Nat := []
  rounded : List Nat := []
  pend : List Nat := []
  out : List Nat := []
  retry : List Nat := []
  landed : List Nat := []
  tx : Tab Nat := []
  rx : Tab Nat := []
  rc : Tab Nat := []
  nx : Tab Nat := []
  dropped : Nat := 0
  sat : Nat := 0
  nan : Nat := 0
deriving DecidableEq, Repr

/-- The votes that a combine point holds for one collective (R215): group context, SEQ, first digest, ranks that voted OPEN
and CLOSE, whether GO and whether the final result has been emitted, and the key and class of the votes. -/
structure ColVotes where
  g : Nat
  seq : Nat
  dig : Nat
  opens : List Nat := []
  closes : List Nat := []
  went : Bool := false
  fin : Bool := false
  late : Option Nat := none
  key : Nat := 0
  cls : Nat := 0
deriving DecidableEq, Repr

/-- Hidden state of the collective engines, which hold identical copies (R206): open collectives, the node lists of the
group contexts, combine-point votes, ABORT results held for queued collectives as group context, SEQ and code (R215), and
ring entries to be flushed. -/
structure ColState where
  jobs : List ColJob := []
  nodes : Tab (List Nat) := []
  votes : List ColVotes := []
  held : List (Nat × Nat × Nat) := []
  flush : List (Nat × Nat) := []
deriving DecidableEq, Repr

/-- A tier command in progress (R304, R305): engine, ring, descriptor, block INDEX and handle, class, whether it waits for
or holds a fetch slot (R331), which slot, the units to transfer in order, the pages of the current unit done, unit data on
its way by unit, the pages programmed by logical page and location, whether an eviction drains, a shard's retries, where
HEAD goes when it ends where its ring was flushed, the figures of its record (R315), and the number of its slot's grant (R332). -/
structure TierCmd where
  k : Nat
  ring : Nat
  words : List Nat
  index : Nat := 0
  handle : Nat := 0
  be : Bool := false
  needSilo : Bool := false
  slot : Option Nat := none
  todo : List Nat := []
  page : Nat := 0
  buf : List (Nat × List Byte) := []
  progs : List (Nat × Nat) := []
  drain : Bool := false
  tries : Nat := 0
  flushTo : Option Nat := none
  units : Nat := 0
  bytes : Nat := 0
  rc : Nat := 0
  stallFb : Nat := 0
  stallDrain : Nat := 0
  retries : Nat := 0
  ord : Nat := 0
deriving DecidableEq, Repr

/-- An erase block of the flash: erase count, read counter, whether it is retired, whether a band holds it (R327, R328). -/
structure FlashBlk where
  erases : Nat := 0
  reads : Nat := 0
  bad : Bool := false
  used : Bool := false
deriving DecidableEq, Repr

/-- The stripe open for writing: its band, its page position and the data positions filled (R324, R325). -/
structure OpenStripe where
  band : Nat
  page : Nat
  filled : Nat
deriving DecidableEq, Repr

/-- State of the Silo (12_silo_flash): erase blocks per channel and pages per erase block, the erase blocks by
channel * 2^24 + block, the erase blocks of each band by channel (R323), the number of the next band, the page map: logical
page to 1 + (band * pages + page) * 32 + channel (R323, R324), the content of each logical page as last reported written
(R325), the open stripe, stripes closed, erase blocks queued for rewrite as band and channel (R326), retirements as channel
and almanac count (R329), extents in use as first unit and length (R323), the black-box
copies by slot, the next copy slot, the freeze count and the SEQ of the freezing record (R446), the rows listed for hard repair (R437),
the slots granted so far (R332), and by 2 * engine + class one more than the ring that transferred a unit last (R304). -/
structure SiloState where
  nblk : Nat := 0
  ppb : Nat := 0
  blk : Tab FlashBlk := []
  bands : Tab (List Nat) := []
  nextBand : Nat := 0
  loc : Tab Nat := []
  data : Tab (List Byte) := []
  opn : Option OpenStripe := none
  next : Option (Nat × Nat) := none
  rewrite : List (Nat × Nat) := []
  retired : List (Nat × Nat) := []
  extents : List (Nat × Nat) := []
  copies : Tab (List Byte) := []
  copyNext : Nat := 0
  freezes : Nat := 0
  frozeAt : Nat := 0
  hardRows : List (Nat × Nat) := []
  grants : Nat := 0
  turns : Tab Nat := []
deriving DecidableEq, Repr

/-- A WEIGHT block of the model (R343, R344): directory block, INDEX, tag-table entry of its shard 0, units, and whether the
load holds a pin on it. -/
structure ModelBlk where
  b : Nat
  index : Nat
  tag : Nat
  len : Nat
  pin : Bool := false
deriving DecidableEq, Repr

/-- What is kept of a model's tables (R349): IMAGE_ID, NONCE_SALT, header and tables as read, and each kept extent by
directory block. -/
structure ModelKept where
  hdr : List Byte
  dir : List Byte
  lay : List Byte
  tags : List Byte
  ext : List (Nat × Nat)
deriving DecidableEq, Repr

/-- Hidden state of the model load (13_model_images): the source, the tables read, the model key while the cipher units hold
it (R340), the WEIGHT blocks, the directory blocks and shards still to stage, the failed tries of the first of them, whether ABORT is
pending, and the kept image. -/
structure ModelState where
  restage : Bool := false
  hdr : List Byte := []
  dir : List Byte := []
  lay : List Byte := []
  tags : List Byte := []
  key : Option Nat := none
  blocks : List ModelBlk := []
  stage : List (Nat × Nat) := []
  tries : Nat := 0
  abort : Bool := false
  kept : Option ModelKept := none
deriving DecidableEq, Repr

/-- Hidden state of an HBM controller: corrected words as row and almanac count, and the rows that have yielded an
uncorrectable word since their last repair (R437); the words of the stack whose code no longer matches, not found yet, with whether more
than one of their bits is wrong (R296; log entry 54); and by frame the accesses in flight (R299; log entry 11). -/
structure HbmHid where
  corr : List (Nat × Nat) := []
  bad : List Nat := []
  flips : Tab Bool := []
  flight : Tab Nat := []
deriving DecidableEq, Repr

/-- State of the security die SE (19_security): the private half of the sealed device model key (R456), DIK while it is held
(R453), whether the tier engines' cipher units hold their transport keys (R458), the nonce given out and not yet used
(R457), the measurements as 384-bit
numbers by index (R454), and whether debug access is granted (R463). -/
structure SecState where
  dmk : Option Nat := none
  dik : Option Nat := none
  transport : Bool := false
  nonce : Option Nat := none
  meas : Tab Nat := []
  debug : Bool := false
deriving DecidableEq, Repr

/-- Configuration in force (16_structure_image_firmware): the BOOT image in force; the pending AMEND (R512); whether the
latest image presented since the last applied or cancelled change passed (none: none presented); whether a change is staged
and the image it carries; GUARD_US and WIN_US latched by ANNOUNCE (R512); the shares of the resources of R402 that no
register shows, by 24 * resource + consumer; the offsets of the tenant table, the accounting array and the page map (R401,
R403); the signers of the SECURITY section and its alarm bytes (R403); a RESERVE section that the next reservation window takes
(R408); and the board boot flash as bytes by offset. -/
structure CfgState where
  boot : Option (List Byte) := none
  amend : Option (List Byte) := none
  shown : Option Bool := none
  staged : Option (List Byte) := none
  guardUs : Nat := 0
  winUs : Nat := 0
  shares : Tab Nat := []
  tenTable : Nat := 0
  tenAcct : Nat := 0
  pageMap : Nat × Nat := (0, 0)
  msigners : List Nat := []
  fsigners : List Nat := []
  alarms : Nat := 0
  rsvNext : Option (List Byte) := none
  flash : Tab Byte := []
deriving DecidableEq, Repr

/-- A host read of the part in flight (R421): its bus address, the bytes it wants, and those received so far. -/
structure HostRead where
  addr : Nat
  want : Nat
  got : List Byte := []
deriving DecidableEq, Repr

/-- State of the host port beside its registers (17_host_interface): the Command register, base addresses of BAR0, BAR2 and
BAR4, MSI-X enable and function mask, Device Control and Device Control 2, the power state, the MSI-X table by 4 * vector + word, the pending vectors, the latest completion as status (0 successful, 1
Unsupported Request) and data, the latest MSI-X message as address and data, the reads in flight for a presented image and
for a model load, and whether PERST_N is asserted. -/
structure PciState where
  command : Nat := 0
  bars : Tab Nat := []
  msixEn : Bool := false
  msixMask : Bool := false
  dev : Nat := 0
  dev2 : Nat := 0
  power : Nat := 0
  msix : Tab Nat := []
  pba : List Nat := []
  cpl : Option (Nat × List Byte) := none
  msg : Option (Nat × Nat) := none
  imgRead : Option HostRead := none
  modRead : Option HostRead := none
  perst : Bool := false
deriving DecidableEq, Repr

/-- A request that die firmware has read (R359, R362, R363): plot, tenant, REQ, the prompt's and the new tokens' lengths,
STOP, prompt tokens taken, tokens generated, output records that wait for room in the ring (R360), whether a CANCEL has been
read, and whether its FINAL record has been formed. -/
structure ServReq where
  plot : Nat
  tenant : Nat
  req : Nat
  promptLen : Nat := 0
  newLen : Nat := 0
  stop : Nat := 0
  taken : Nat := 0
  made : Nat := 0
  out : List (List Nat) := []
  cancel : Bool := false
  fin : Bool := false
deriving DecidableEq, Repr

/-- An expert that a step has touched under STRICT, which routing-die firmware fetches and pins (R365; log entry 56): die and ring of the
step, its ASSIGN_ADDR, LAYER and expert, tenant and class charged, the blocks still to be pinned (none before they are looked up), the first
frame and the count of frames of a FETCH posted and not ended, the blocks pinned, and how many dies' shares of the step's COMBINE are
DONE. -/
structure ColdExp where
  die : Nat
  ring : Nat
  assign : Nat
  layer : Nat
  expert : Nat
  tenant : Nat
  be : Bool
  todo : Option (List Nat) := none
  posted : Option (Nat × Nat × Nat) := none
  pins : List Nat := []
  done : Nat := 0
deriving DecidableEq, Repr

/-- State of the firmware of the die controllers that the spec describes: requests read and not yet ended, the tenant admitted
last by plot (R362; 8,192 for none yet), the cores being pre-empted with the phase: 1 killed for an LC list, 2 running it
(R369), and the experts that routing-die firmware fetches and pins for steps (R365). -/
structure ServState where
  cold : List ColdExp := []
  reqs : List ServReq := []
  last : Tab Nat := []
  pre : Tab Nat := []
deriving DecidableEq, Repr

/-- Hidden state of the almanac counter (R375, R376): consecutive accepted edges within 2 ns, whether ACQUIRE still waits
for its first edge, whether a value written to ALM_NEXT waits for EN, and the expected edge already counted as missed. -/
structure AlmState where
  good : Nat := 0
  first : Bool := false
  held : Bool := false
  missed : Option Nat := none
deriving DecidableEq, Repr

/-- A duty that an open throttle event puts on a die: its source (0 power, 1 management, 2 + d the sensor of die d). -/
structure Cut where
  src : Nat
  die : Nat
  duty : Nat
deriving DecidableEq, Repr

/-- An open throttle event (R388, R389): SEQ, CAUSE, its cuts, and the almanac count of the last cycle gated. -/
structure ThrEvent where
  seq : Nat
  cause : Nat
  cuts : List Cut := []
  last : Option Nat := none
deriving DecidableEq, Repr

/-- Power, clocks and reset (20_power_clocks_reset): the open throttle events; the target of the power cut in force (0 none)
and whether the excursion's deadline has passed (R469); dies at their warning threshold (R472); consecutive 1 us checks of
each rail out of band (R467); whether a trip waits for its power-off and whether PWR_FAULT_N is asserted (R473); whether
RESET_N waits for a copy, whether the part is in reset or unpowered (R476, R479, R480); lock losses of this bring-up
(R475). -/
structure PwrState where
  events : List ThrEvent := []
  target : Nat := 0
  past : Bool := false
  warm : List Nat := []
  rails : Tab Nat := []
  trip : Bool := false
  faultN : Bool := false
  resetWait : Bool := false
  inReset : Bool := false
  unpowered : Bool := false
  pllTries : Nat := 0
deriving DecidableEq, Repr

/-- State of the fence and package-network logic (18_reliability_and_spares): the release in progress as level, die and SUB
(R434), and for each package-network link, by 16 * routing die + link, the failed replays in a row and the almanac counts of
the replays of the last ms (R433). -/
structure RelState where
  release : Option (Nat × Nat × Nat) := none
  pnet : Tab (Nat × List Nat) := []
deriving DecidableEq, Repr

/-- A response or event message that the part has put on the management bus: a Renrel response by CMD, RSEQ, STATUS and payload
(R485), an MCTP control response, an SPDM response or error (R455), a PLDM completion code with the value (R488), and MGT_BUSY to a request
that is not Renrel's (R484). -/
inductive MgtRsp where
  | renrel (cmd rseq status : Nat) (payload : List Byte)
  | mctp (payload : List Byte)
  | spdm (kind : Nat) (payload : List Byte)
  | pldm (code value : Nat)
  | busy
deriving DecidableEq, Repr

/-- An open image buffer (R486): KIND, BYTES, what it holds before it is written, and the bytes written. -/
structure ImgBuf where
  kind : Nat
  size : Nat
  fill : Nat
  bytes : Tab Byte := []
deriving DecidableEq, Repr

/-- Hidden state of the management port and of Renrel (21_management_plane): how the bus was entered (0 not yet, 1 I3C, 2 SMBus), the
latest response, the image buffer, the PLDM events held and the discarded ones not yet reported, the event messages sent last with
the count each reports, the SPDM negotiation reached (1 version, 2 capabilities, 3 algorithms), the components of a firmware
update, whether they have passed, and those still to write. -/
structure MgtState where
  bus : Nat := 0
  rsp : Option MgtRsp := none
  buf : Option ImgBuf := none
  held : List PEvent := []
  lost : Nat := 0
  sent : List (PEvent × Nat) := []
  spdm : Nat := 0
  comps : List (Nat × List Byte) := []
  passed : Bool := false
  todo : List Nat := []
deriving DecidableEq, Repr

-- UNITS
/-- The whole state of the part. -/
structure State where
  /-- commands waiting, first in, first out -/
  pending : List Instr := []
  /-- field cycles elapsed (R4) -/
  fc : Nat := 0
  /-- free values drawn so far: the model's own field (log entry 4) -/
  free : Nat := 0
  /-- the register file: register address to value -/
  regs : Tab Word := []
  /-- HBM and core store by node offset (R260) -/
  mem : Tab Byte := []
  /-- ranges of `mem` that a self-test, a die's reset or an alarm has filled since reset, the latest first: first offset,
  bytes, and which free content they hold (0 zeros) -/
  fills : List (Nat × Nat × Nat) := []
  /-- poisoned 64-bit words, by node offset div 8 (R69, R296) -/
  poison : Tab Bool := []
  /-- accumulators: (4 p + array) * 16384 + k (R103) -/
  accs : Tab Acc := []
  /-- hidden state of core p -/
  cores : Tab CoreHid := []
  /-- coalescing table of HM (R443) -/
  coal : List CoalEntry := []
  /-- plots of the structure image in force, by number; none before bring-up (R401) -/
  plots : List PlotCfg := []
  /-- the replaced and the fallow core of the substitution requested last (R438) -/
  subst : Nat × Nat := (0, 0)
  /-- hidden state of the transaction engines -/
  vt : VtState := {}
  /-- hidden state of link port n -/
  links : Tab LinkHid := []
  /-- hidden state of the Winnower of routing die k -/
  wins : Tab WinHid := []
  /-- hidden state of the Thresher of routing die k -/
  thrs : Tab ThrHid := []
  /-- hidden state of the Sower of routing die k -/
  sows : Tab SowHid := []
  /-- hidden state of the Gleaner of routing die k -/
  glns : Tab GlnHid := []
  /-- hidden state of the collective engines -/
  col : ColState := {}
  /-- tier commands in progress -/
  tiers : List TierCmd := []
  /-- the Silo -/
  silo : SiloState := {}
  /-- the model load -/
  model : ModelState := {}
  /-- hidden state of the controller of stack s -/
  hbms : Tab HbmHid := []
  /-- the security die -/
  sec : SecState := {}
  /-- configuration in force -/
  cfg : CfgState := {}
  /-- the host port -/
  pci : PciState := {}
  /-- die firmware's serving loop -/
  serv : ServState := {}
  /-- the almanac counter -/
  tim : AlmState := {}
  /-- power, clocks and reset -/
  pwr : PwrState := {}
  /-- fence release and package network -/
  rel : RelState := {}
  /-- the management port and Renrel -/
  mgt : MgtState := {}
  -- FIELDS

deriving DecidableEq, Repr

/-- The part after a cold reset: every register at its reset value, the memories unlisted, nothing in flight. -/
def State.reset : State := {}

/-- Why the machine stops. No rule of the spec stops the block: every error is a status code in a register or a
record (R12, R506), so no meaning raises this. -/
inductive Fault where
  /-- Raised by nobody; the type is kept closed and non-empty. Safe. -/
  | none
deriving DecidableEq, Repr

/-- Why a command has no meaning. -/
inductive Refusal where
  /-- The command is not modelled yet, by its mnemonic. Raised by Dispatch alone. Safe. -/
  | notModelled (mnemonic : String)
deriving DecidableEq, Repr

end Sys2Proof.Machine
end

