-- ==== Sys2Proof/Machine/Ops.lean ====
section
/-!
DEFINITION. The named operations over the sparse tables, the register file, the memories, the error records and the
black box.
-/
namespace Sys2Proof.Machine

/-! Sparse tables in canonical form. -/

/-- What a key holds: its first listed value, else the default of that key. -/
def Tab.get {α : Type} (d : Nat → α) : Tab α → Nat → α
  | [], k => d k
  | (k', v) :: t, k => if k = k' then v else Tab.get d t k

/-- Inserts a pair before the first larger key. -/
def Tab.insert {α : Type} (k : Nat) (v : α) : Tab α → Tab α
  | [] => [(k, v)]
  | (k', v') :: t => if k < k' then (k, v) :: (k', v') :: t else (k', v') :: Tab.insert k v t

/-- Removes a key. -/
def Tab.erase {α : Type} (k : Nat) (t : Tab α) : Tab α := t.filter (fun p => p.1 != k)

/-- Writes a key; writing what an unlisted key reads as removes the entry. -/
def Tab.set {α : Type} [DecidableEq α] (d : Nat → α) (t : Tab α) (k : Nat) (v : α) : Tab α :=
  if v = d k then Tab.erase k t else Tab.insert k v (Tab.erase k t)

/-- Keys strictly rising from a bound. -/
def Tab.rising {α : Type} : Nat → Tab α → Bool
  | _, [] => true
  | lo, (k, _) :: t => decide (lo ≤ k) && Tab.rising (k + 1) t

/-- The canonical form: keys strictly rising, and no entry equal to what an unlisted key holds. -/
def Tab.wf {α : Type} [DecidableEq α] (d : Nat → α) (t : Tab α) : Bool :=
  Tab.rising 0 t && t.all (fun p => decide (p.2 ≠ d p.1))

/-! The register file. -/

/-- The stored word of a register. -/
def State.word (s : State) (a : Nat) : Word := Tab.get regReset s.regs a

/-- Stores a register's word. -/
def State.setWord (s : State) (a : Nat) (v : Word) : State := { s with regs := Tab.set regReset s.regs a v }

/-- The bits a field occupies. -/
def Fld.mask (f : Fld) : Word := (BitVec.ofNat 64 (2 ^ f.len - 1)) <<< f.lo

/-- A field's value in a word. -/
def Fld.of (f : Fld) (w : Word) : Nat := (w.toNat >>> f.lo) % 2 ^ f.len

/-- A word with a field replaced, the value kept to the field's width. -/
def Fld.put (f : Fld) (w : Word) (v : Nat) : Word :=
  (w &&& ~~~ f.mask) ||| ((BitVec.ofNat 64 (v % 2 ^ f.len)) <<< f.lo)

/-- Reads a register field. -/
def State.get (s : State) (f : Fld) : Nat := f.of (s.word f.addr)

/-- Writes a register field; the register's other bits are kept. -/
def State.set (s : State) (f : Fld) (v : Nat) : State := s.setWord f.addr (f.put (s.word f.addr) v)

/-- Sets a one-bit field. -/
def State.raise (s : State) (f : Fld) : State := s.set f 1

/-- Adds to a counter that wraps at its width. -/
def State.count (s : State) (f : Fld) (n : Nat) : State := s.set f (s.get f + n)

/-- Adds to a counter that saturates. -/
def State.countSat (s : State) (f : Fld) (n : Nat) : State := s.set f (min (s.get f + n) (2 ^ f.len - 1))

/-- Whether a one-bit field is set. -/
def State.flag (s : State) (f : Fld) : Bool := s.get f == 1

/-- The almanac count (R373). -/
def State.alm (s : State) : Nat := s.get ALM_COUNT_COUNT

/-! The memories. Reading a byte that nothing has written gives zero (log entry 8). -/

/-- What unlisted memory reads as: zero, or what its range was filled with last. -/
def memDef (fills : List (Nat × Nat × Nat)) (a : Nat) : Byte :=
  match fills.find? (fun f => decide (f.1 ≤ a) && decide (a < f.1 + f.2.1)) with
  | some f => if f.2.2 = 0 then 0 else Config.freeMem f.2.2 a
  | none => 0

/-- What an unlisted word's poison mark is. -/
def noPoison (_ : Nat) : Bool := false

/-- One byte at a node offset. -/
def State.byte (s : State) (a : Nat) : Byte := Tab.get (memDef s.fills) s.mem a

/-- Stores one byte. -/
def State.setByte (s : State) (a : Nat) (b : Byte) : State := { s with mem := Tab.set (memDef s.fills) s.mem a b }

/-- `n` bytes from an offset. -/
def State.bytes (s : State) (a n : Nat) : List Byte := (List.range n).map (fun i => s.byte (a + i))

/-- Stores bytes at consecutive offsets. -/
def State.setBytes (s : State) (a : Nat) : List Byte → State
  | [] => s
  | b :: bs => (s.setByte a b).setBytes (a + 1) bs

/-- A little-endian number of `n` bytes (R6). -/
def State.readLE (s : State) (a n : Nat) : Nat := ofBytes (s.bytes a n)

/-- Stores a little-endian number of `n` bytes. -/
def State.writeLE (s : State) (a n v : Nat) : State := s.setBytes a (toBytes n v)

/-- Fills a range with a free content, or with zeros for 0: its listed bytes go. -/
def State.fillRange (s : State) (a n id : Nat) : State :=
  let apart := fun (f : Nat × Nat × Nat) => decide (f.1 + f.2.1 ≤ a) || decide (a + n ≤ f.1)
  let inside := fun (f : Nat × Nat × Nat) => decide (a ≤ f.1) && decide (f.1 + f.2.1 ≤ a + n)
  let rest := s.fills.filter (fun f => !inside f)
  let fs := if id = 0 && rest.all apart then rest else (a, n, id) :: rest
  { s with mem := s.mem.filter (fun p => decide (p.1 < a) || decide (a + n ≤ p.1)), fills := fs }

/-- Leaves a range unknown: a fresh free content (log entry 4). -/
def State.unknownRange (s : State) (a n : Nat) : State :=
  let t := s.fillRange a n (s.free + 1)
  { t with free := t.free + 1 }

/-- Whether the 64-bit word at an offset is poisoned. -/
def State.poisoned (s : State) (a : Nat) : Bool := Tab.get noPoison s.poison (a / 8)

/-- Marks or clears a word's poison. -/
def State.setPoison (s : State) (a : Nat) (b : Bool) : State := { s with poison := Tab.set noPoison s.poison (a / 8) b }

/-- Whether any word of a byte range is poisoned. -/
def State.anyPoison (s : State) (a n : Nat) : Bool :=
  (List.range (if n = 0 then 0 else (a + n - 1) / 8 - a / 8 + 1)).any (fun i => s.poisoned (a / 8 * 8 + 8 * i))

/-- Node offset of local address `a` of core `p`'s store (R65). -/
def csOffset (p a : Nat) : Nat := 0x100000000000 + p * 0x2000000 + a

/-- Bytes of populated core store (R65). -/
def csSize : Nat := 0x1800000

/-- A number of `n` bytes in a core's store. -/
def State.csRead (s : State) (p a n : Nat) : Nat := s.readLE (csOffset p a) n

/-! Hidden state of the cores. -/

/-- A core with nothing in flight. -/
def coreHid0 (_ : Nat) : CoreHid := {}

/-- Hidden state of core `p`. -/
def State.core (s : State) (p : Nat) : CoreHid := Tab.get coreHid0 s.cores p

/-- Replaces the hidden state of core `p`. -/
def State.setCore (s : State) (p : Nat) (c : CoreHid) : State := { s with cores := Tab.set coreHid0 s.cores p c }

/-- The plot that holds core `p`: none for a fallow core and for a logical core that no plot names (R68, R352). -/
def State.plotOf (s : State) (p : Nat) : Option Nat :=
  if s.flag (CORE_ID_FALLOW p) then none
  else s.plots.findIdx? (fun q => q.en && q.cores.testBit (s.get (CORE_ID_LOGICAL p)))

/-- An accumulator after cold reset (R103). -/
def acc0 (_ : Nat) : Acc := {}

/-- Key of accumulator `k` of array `a` of core `p`. -/
def accKey (p a k : Nat) : Nat := (4 * p + a) * 16384 + k

/-- Accumulator `k` of array `a` of core `p`. -/
def State.acc (s : State) (p a k : Nat) : Acc := Tab.get acc0 s.accs (accKey p a k)

/-- Replaces an accumulator by its key. -/
def State.setAcc (s : State) (key : Nat) (v : Acc) : State := { s with accs := Tab.set acc0 s.accs key v }

/-- Draws a free word (log entry 4). -/
def State.drawWord (s : State) : Word × State := (Config.freeWord s.free, { s with free := s.free + 1 })

/-- Draws a free truth value. -/
def State.drawBool (s : State) : Bool × State := (Config.freeBool s.free, { s with free := s.free + 1 })

/-! Error records and the black box (R428 to R447). -/

/-- An error record before HM gives it a SEQ: CODE, LEVEL, KIND, DIE, SUB, COUNT and DETAIL (R428). -/
structure Rec where
  code : Nat
  level : Nat
  kind : Nat
  die : Nat
  sub : Nat
  detail : Nat := 0
  cnt : Nat := 1
  span : Nat := 0
deriving DecidableEq, Repr

/-- Word 0 of a record (R428). -/
def Rec.word0 (r : Rec) : Nat :=
  r.code + r.level * 2 ^ 16 + r.kind * 2 ^ 20 + r.die * 2 ^ 24 + r.sub * 2 ^ 30 + min r.cnt (2 ^ 24 - 1) * 2 ^ 40

/-- Stores the four words of a record at a register address. -/
def State.putRecord (s : State) (a : Nat) (r : Rec) (alm seq : Nat) : State :=
  (((s.setWord a (BitVec.ofNat 64 r.word0)).setWord (a + 8) (BitVec.ofNat 64 alm)).setWord (a + 16)
    (BitVec.ofNat 64 r.detail)).setWord (a + 24) (BitVec.ofNat 64 (seq + r.span * 2 ^ 32))

/-- Register address of black-box entry `i`. -/
def bbEntry (i : Nat) : Nat := mgtBase + 0x110000 + 32 * i

/-- Writes a record to the black box: the next SEQ at entry (SEQ - 1) mod 4096, or LOST while frozen (R444, R445). -/
def State.bbWriteAt (s : State) (r : Rec) (alm : Nat) : State :=
  if s.flag MGT_BB_FROZEN then s.countSat MGT_BB_LOST 1
  else
    let seq := s.get MGT_BB_SEQ + 1
    (s.set MGT_BB_SEQ seq).putRecord (bbEntry ((seq - 1) % 4096)) r alm seq

/-- Writes a record with the current almanac count. -/
def State.bbWrite (s : State) (r : Rec) : State := s.bbWriteAt r s.alm

/-- Bytes and time limit of a coalescing entry: HOLD_MS after its latest occurrence (R443). -/
def CoalEntry.live (e : CoalEntry) (now holdMs : Nat) : Bool := decide (now ≤ e.last + holdMs * 1000000)

/-- Adds an occurrence to the open record of an entry in place (R443). -/
def State.bbBump (s : State) (seq : Nat) : State :=
  let a := bbEntry ((seq - 1) % 4096)
  let w0 := s.word a
  let n := min (bitsOf w0.toNat 40 24 + 1) (2 ^ 24 - 1)
  let span := min ((s.alm - (s.word (a + 8)).toNat) / 1000) (2 ^ 32 - 1)
  (s.setWord a (BitVec.ofNat 64 (bitsOf w0.toNat 0 40 + n * 2 ^ 40))).setWord (a + 24)
    (BitVec.ofNat 64 (bitsOf (s.word (a + 24)).toNat 0 32 + span * 2 ^ 32))

/-- Writes a warning or record that R442 does not exempt, through the coalescing table (R443). -/
def State.report (s : State) (r : Rec) : State :=
  let now := s.alm
  let live := s.coal.filter (fun e => e.live now (s.get MGT_COALESCE_HOLD_MS))
  let hit := live.find? (fun e => e.code == r.code && e.die == r.die && e.sub == r.sub)
  let seq := s.get MGT_BB_SEQ
  let rest := live.filter (fun e => !(e.code == r.code && e.die == r.die && e.sub == r.sub))
  if s.flag MGT_BB_FROZEN then s.bbWrite r
  else
    match hit with
    | some e =>
      if seq < e.seq + 4096 then { s.bbBump e.seq with coal := rest ++ [{ e with last := now }] }
      else { s.bbWrite r with coal := rest ++ [⟨r.code, r.die, r.sub, seq + 1, now⟩] }
    | none =>
      if live.length < 256 then { s.bbWrite r with coal := rest ++ [⟨r.code, r.die, r.sub, seq + 1, now⟩] }
      else { (s.bbWrite r).countSat MGT_COALESCE_OVF 1 with coal := live }

/-- Freezes the black box: the freezing record has been written; BB_FROZEN follows (R445). -/
def State.bbFreeze (s : State) (die sub : Nat) : State :=
  if s.flag MGT_BB_FROZEN then s
  else
    let q := s.get MGT_BB_SEQ
    let t := (s.bbWrite { code := 0x0A45, level := 0, kind := 0, die := die, sub := sub }).set MGT_BB_FROZEN 1
    let t := (t.set MGT_BB_COPIED 0).set MGT_BB_COPY_FAIL 0
    { t with silo := { t.silo with freezes := t.silo.freezes + 1, frozeAt := q } }

/-- Writes a unit's first-fault record, or counts a later fault into it (R432), and the black box (R444). -/
def State.faultRecord (s : State) (a : Nat) (r : Rec) : State :=
  let w0 := (s.word a).toNat
  let t := s.bbWrite r
  if w0 = 0 then t.putRecord a r s.alm (if s.flag MGT_BB_FROZEN then 0 else t.get MGT_BB_SEQ)
  else
    let n := min (bitsOf w0 40 24 + 1) (2 ^ 24 - 1)
    let span := min ((s.alm - (s.word (a + 8)).toNat) / 1000) (2 ^ 32 - 1)
    (t.setWord a (BitVec.ofNat 64 (bitsOf w0 0 40 + n * 2 ^ 40))).setWord (a + 24)
      (BitVec.ofNat 64 (bitsOf (s.word (a + 24)).toNat 0 32 + span * 2 ^ 32))

end Sys2Proof.Machine
end

