-- ==== Sys2Proof/Machine/Memory.lean ====
section
/-!
DEFINITION. What an offset of the node reaches in HBM and core store (R65, R260, R295), and poisoned words (R69, R296).
-/
namespace Sys2Proof.Machine

/-- Bytes of HBM (R260). -/
def hbmSize : Nat := 0x8000000000

/-- Bytes of one stack (R295). -/
def stackSize : Nat := 0x1000000000

/-- Stack of an HBM offset. -/
def stackOf (a : Nat) : Nat := a / stackSize

/-- Bytes of a frame (R298). -/
def frameSize : Nat := 0x200000

/-- Frame of an HBM offset, within its stack. -/
def frameOf (a : Nat) : Nat := a % stackSize / frameSize

/-- Whether `n` bytes from an offset lie in HBM. -/
def inHbm (a n : Nat) : Bool := decide (a + n ≤ hbmSize)

/-- The core whose populated store holds `n` bytes from an offset (R65, R260). -/
def inCore (a n : Nat) : Option Nat :=
  if csOffset 0 0 ≤ a then
    let d := a - csOffset 0 0
    if d / 0x2000000 < 144 && decide (d % 0x2000000 + n ≤ csSize) then some (d / 0x2000000) else none
  else none

/-- The memory's canonical form: addresses strictly rising, and no entry equal to what an unlisted address reads as. -/
def Memory.wf (s : State) : Bool := Tab.wf (memDef s.fills) s.mem

/-! Poison. -/

/-- The register that counts the poisoned words of the memory an offset lies in. -/
def poisonCnt (a : Nat) : Fld :=
  match inCore a 1 with
  | some p => CS_POISON_CNT_COUNT p
  | none => HBM_POISON_CNT_COUNT (stackOf a)

/-- Poisons a word (R69, R296). -/
def poisonWord (a : Nat) (s : State) : State :=
  if s.poisoned a then s else (s.setPoison a true).count (poisonCnt a) 1

/-- Clears the poison of a word. -/
def cleanWord (a : Nat) (s : State) : State :=
  if s.poisoned a then (s.setPoison a false).set (poisonCnt a) (s.get (poisonCnt a) - 1) else s

/-- Clears the poison of every whole 64-byte line inside a written range (R69, R296). -/
def cleanLines (a n : Nat) (s : State) : State :=
  (List.range ((a + n) / 64 - ceilDiv a 64)).foldl
    (fun t i => (List.range 8).foldl (fun u j => cleanWord ((ceilDiv a 64 + i) * 64 + 8 * j) u) t) s

/-- Stores bytes by a path other than a command: whole lines lose their poison. -/
def storeBytes (a : Nat) (bs : List Byte) (s : State) : State := cleanLines a bs.length (s.setBytes a bs)

/-- Which bytes of each 64-byte line staged bytes fall on, one bit to a byte. -/
def lineMasks (ws : List (Nat × Byte)) : Tab Nat :=
  ws.foldl (fun t w => Tab.set (fun _ => 0) t (w.1 / 64) (Tab.get (fun _ => 0) t (w.1 / 64) ||| 2 ^ (w.1 % 64))) []

/-- Clears the poison of every line of core `p`'s store that staged bytes cover whole (R69). -/
def cleanStaged (p : Nat) (ws : List (Nat × Byte)) (s : State) : State :=
  (lineMasks ws).foldl (fun t l => if l.2 = 2 ^ 64 - 1 then cleanLines (csOffset p (64 * l.1)) 64 t else t) s

end Sys2Proof.Machine
end

