-- ==== Sys2Proof/Machine/Fence.lean ====
section
/-!
DEFINITION. Engine and core fences (R19, R20, R430, R432), and what a fenced die or part is (R431). The error
record of a unit is non-zero exactly while the unit holds its fence (R432, R434).
-/
namespace Sys2Proof.Machine

/-! Status codes of the cores. -/
def cOpndFormat : Nat := 0x0101
def cOpndScale : Nat := 0x0102
def cResidueFault : Nat := 0x0103
def cTallyOvf : Nat := 0x0104
def cCsUncorr : Nat := 0x0105
def cCmdIllegal : Nat := 0x0106
def cCmdBounds : Nat := 0x0107
def cListKilled : Nat := 0x0108
def cWaitTimeout : Nat := 0x0109
def cEngineFenced : Nat := 0x010A
def cArrSlot : Nat := 0x010B
def cLaunchPast : Nat := 0x010C
def cCoreFault : Nat := 0x010D
def cEngParity : Nat := 0x010E

/-- The plot settings of a core (R93). -/
def State.isInt (s : State) (p : Nat) : Bool := s.flag (CORE_PLOT_PERS p)
def State.isP2 (s : State) (p : Nat) : Bool := s.flag (CORE_PLOT_PAIR p)

/-- Binary point of the accumulators: 48 in FLOAT plots, 0 in INT plots (R43). -/
def State.tallyShift (s : State) (p : Nat) : Int := if s.isInt p then 0 else 48

/-- Arrays of a side (R61): n of them. -/
def State.sideCount (s : State) (p : Nat) : Nat := if s.isP2 p then 2 else 4

/-- Array `r mod n` of a side. -/
def State.sideArray (s : State) (p side r : Nat) : Nat := if s.isP2 p then 2 * side + r % 2 else r % 4

/-- Arrays of a side as engine indices. -/
def State.sideArrays (s : State) (p side : Nat) : List Nat :=
  if s.isP2 p then [2 * side, 2 * side + 1] else [0, 1, 2, 3]

/-! Throttle. -/

/-- Whether cycle `i` of a domain is gated under duty `d` (R470). -/
def gatedCycle (d i : Nat) : Bool := decide (i % 256 * d / 256 < (i % 256 + 1) * d / 256)

/-- Cycles of a die's domain in this field cycle that its duty gates: one fc of a compute die, two rc of any other (R4, R470). -/
def gatedNow (s : State) (d : Nat) : Nat :=
  let duty := s.get (PWR_DIE_DUTY d)
  if d < 16 then ofBool (gatedCycle duty s.fc)
  else ofBool (gatedCycle duty (2 * s.fc)) + ofBool (gatedCycle duty (2 * s.fc + 1))

/-! Records and fences. -/

/-- Address of word 0 of a die's record (R451). -/
def dieErr (d : Nat) : Nat := mgtBase + 0x102000 + 32 * d

/-- Address of word 0 of the part record. -/
def partErr : Nat := mgtBase + 0x102800

/-- Address of word 0 of a core's record. -/
def coreErr (p : Nat) : Nat := mgtBase + 0x100000 + 32 * p

/-- Address of word 0 of engine `e`'s record of core `p` (R450). -/
def engErr (p e : Nat) : Nat := coreBase p + 0x100 + 32 * e

/-- Whether die `d`, in R428's DIE order, is fenced. -/
def State.dieFenced (s : State) (d : Nat) : Bool := s.word (dieErr d) != 0

/-- Whether the part is fenced. -/
def State.partFenced (s : State) : Bool := s.word partErr != 0

/-- Whether the data plane runs: its dies have left reset (R477, phase 4) and the part is not fenced (R19). -/
def State.dataUp (s : State) : Bool := decide (5 ≤ s.get PWR_STATUS_PHASE) && !s.partFenced

/-- A step of the data plane: nothing happens while its dies are unpowered, in reset or fenced (R19, R29, R476). -/
def State.live (s : State) (f : State → State) : State := if s.dataUp then f s else s

/-- A write to a register of die `d` that is not held on the management sideband: it is discarded while the die is fenced or
unpowered (R29). -/
def State.liveDie (s : State) (d : Nat) (f : State → State) : State := s.live (fun t => if t.dieFenced d then t else f t)

/-- Die of core `p` (R13). -/
def dieOfCore (p : Nat) : Nat := p / 9

/-- SUB of unit `u` of core `p` (R429). -/
def coreSub (p u : Nat) : Nat := p % 9 * 8 + u

/-- The fenced mark of engine `e` of core `p` (R117 to R119). -/
def engFencedFld (p e : Nat) : Fld :=
  if e < 4 then MX_STATUS_FENCED p e else if e = 4 then MV_STATUS_FENCED p else VX_STATUS_FENCED p

/-- Whether engine `e` of core `p` is fenced. -/
def State.engFenced (s : State) (p e : Nat) : Bool := s.flag (engFencedFld p e)

/-- Whether an in-flight command has committed: its commit step has begun (R64). -/
def CmdRec.committed (r : CmdRec) (now : Nat) : Bool :=
  decide (r.issue + r.cost - r.commitLen ≤ now) && r.code == 0

/-- Engines that the commands of a slot use (R62). -/
def slotEngines (p : Nat) (sl : Slot) (s : State) : List Nat :=
  match sl with
  | .mpA | .mrA => s.sideArrays p 0
  | .mpB | .mrB => s.sideArrays p 1
  | .mv => [4]
  | .vx => [5]
  | _ => []

/-- A command that has not committed stops before its commit, and its staging is discarded (R19, R20): the list halts at it. -/
def CmdRec.stop (r : CmdRec) : CmdRec :=
  { r with code := cEngineFenced, writes := [], shadows := [], flags := {}, ovf := false }

/-- An early front that has started is discarded, and none starts (R99, R116). -/
def Chain.drop (h : Chain) : Chain := { h with awaited := false, front := none }

/-- The chain of a side (R89). -/
def CoreHid.chain (c : CoreHid) (side : Nat) : Option Chain := if side = 0 then c.chainA else c.chainB
def CoreHid.setChain (c : CoreHid) (side : Nat) (h : Option Chain) : CoreHid :=
  if side = 0 then { c with chainA := h } else { c with chainB := h }

/-- Discards the early fronts of both sides. -/
def CoreHid.dropFronts (c : CoreHid) : CoreHid :=
  { c with chainA := c.chainA.map Chain.drop, chainB := c.chainB.map Chain.drop }

/-- Discards the early front of a side. -/
def CoreHid.dropFront (c : CoreHid) (side : Nat) : CoreHid := c.setChain side ((c.chain side).map Chain.drop)

/-- Whether an early front of a side stands in its arrays. -/
def CoreHid.hasFront (c : CoreHid) (side : Nat) : Bool :=
  match c.chain side with
  | some h => h.front.isSome
  | none => false

/-- Fences one engine with its record (R19, R430, R432): other commands that use it and have not committed stop, and the early front in
a fenced array is discarded (R20, R116). -/
def fenceEngine (p e code detail : Nat) (s : State) : State :=
  let c := s.core p
  let fl := c.inflight.map (fun r =>
    if (slotEngines p r.slot s).contains e && !r.committed s.fc && r.code == 0 then r.stop else r)
  let d := if e < 4 then { c with inflight := fl }.dropFront (if s.isP2 p then e / 2 else 0) else { c with inflight := fl }
  ((s.setCore p d).raise (engFencedFld p e)).faultRecord (engErr p e)
    { code := code, level := 1, kind := 2, die := dieOfCore p, sub := coreSub p e, detail := detail }

/-- The busy mark of a side's arrays goes out: an early front keeps it (R117). -/
def clearArrays (p side : Nat) (s : State) : State :=
  if (s.core p).hasFront side then s else (s.sideArrays p side).foldl (fun t a => t.set (MX_STATUS_BUSY p a) 0) s

/-- The busy mark of the engines of a slot goes out (R62, R117 to R119). -/
def clearBusy (p : Nat) (sl : Slot) (s : State) : State :=
  match sl with
  | .mpA => clearArrays p 0 s
  | .mpB => if s.isP2 p then clearArrays p 1 s else s
  | .mv => s.set (MV_STATUS_BUSY p) 0
  | .vx => s.set (VX_STATUS_BUSY p) 0
  | _ => s

/-- Discards in-flight commands that have not committed, with their staging and shadows, and early fronts (R77, R116). -/
def discardUncommitted (p : Nat) (s : State) : State :=
  let c := s.core p
  let left := c.inflight.filter (fun r => r.committed s.fc)
  ([Slot.mpA, .mpB, .mv, .vx].filter (fun sl => !(left.any (fun r => r.slot == sl)))).foldl (fun t sl => clearBusy p sl t)
    (s.setCore p { c.dropFronts with inflight := left })

/-- STATE values of CORE_STATUS (R93). -/
def stIdle : Nat := 0
def stArmed : Nat := 1
def stRunning : Nat := 2
def stDone : Nat := 3
def stHalted : Nat := 4
def stKilled : Nat := 5
def stFenced : Nat := 6

/-- Stops a core as FENCED: committed commands complete, others are discarded (R20, R76). -/
def stopFenced (p : Nat) (s : State) : State :=
  let t := discardUncommitted p s
  let c := t.core p
  ((t.setCore p { c with killing := false, heldRun := false, heldArm := false }).set (CORE_STATUS_STATE p) stFenced).raise
    (CORE_IRQ_FENCED p)

/-- Fences a whole core with its record (R19, R430). -/
def fenceCore (p code detail : Nat) (s : State) : State :=
  (stopFenced p s).faultRecord (coreErr p)
    { code := code, level := 2, kind := 2, die := dieOfCore p, sub := coreSub p 7, detail := detail }

/-- A commit step that a die or part fence stops leaves its output bytes unknown: free values (R20). -/
def unknownBytes (p : Nat) : List (Nat × Byte) → State → State
  | [], s => s
  | (a, _) :: ws, s =>
    let d := s.drawWord
    unknownBytes p ws (d.2.setByte (csOffset p a) (BitVec.ofNat 8 d.1.toNat))

/-- Fences a core with its die: begun commit steps stop with unknown outputs, everything in flight ends (R20, R431), also on a core
that a fence of its own already holds. -/
def fenceCoreWithDie (p : Nat) (s : State) : State :=
  let c := s.core p
  let t := (c.inflight.filter (fun r => r.committed s.fc)).foldl (fun u r => unknownBytes p r.writes u) s
  let t := t.setCore p { c.dropFronts with inflight := [], killing := false, heldRun := false, heldArm := false }
  let t := c.inflight.foldl (fun u r => clearBusy p r.slot u) t
  if s.get (CORE_STATUS_STATE p) = stFenced then t
  else (t.set (CORE_STATUS_STATE p) stFenced).raise (CORE_IRQ_FENCED p)

end Sys2Proof.Machine
end

