-- ==== Sys2Proof/Machine/Flags.lean ====
section
/-!
DEFINITION. The sticky flags of a core's VX (R33, R115); the flags of one operation are `Flags` of Formats.lean.
-/
namespace Sys2Proof.Machine

/-- ORs sticky flags into VX_FLAGS (R33, R115). -/
def raiseFlags (p : Nat) (f : Flags) (s : State) : State :=
  s.setWord (vxBase p) (s.word (vxBase p) ||| BitVec.ofNat 64 f.toNat)

end Sys2Proof.Machine
end

