-- ==== Sys2Proof/Machine/Arith.lean ====
section
/-!
DEFINITION. The scalar functions of the vector engine (04_matrix_engines R112, R113, R115) over binary32 and INT32.
Every binary32 result is the exact result rounded once; the transcendental functions are bounded by rational
intervals narrow enough to decide the rounding.
-/
namespace Sys2Proof.Machine

/-- A binary32 code and the flags its computation raises. -/
abbrev Res32 := Nat × Flags

/-- Canonical NaN with INVALID. -/
def resInvalid : Res32 := (canonNaN .f32, .inv)

/-- Canonical NaN for NaN operands; a signalling one raises INVALID (R32). -/
def resNaN (sig : Bool) : Res32 := (canonNaN .f32, { invalid := sig })

/-- Sign of a value. -/
def Val.isNeg : Val → Bool
  | .nan _ => false
  | .inf s => s
  | .fin s _ _ => s

/-- Whether a value is a zero. -/
def Val.isZero : Val → Bool
  | .fin _ m _ => m == 0
  | _ => false

/-- Value with the opposite sign. -/
def Val.negate : Val → Val
  | .nan s => .nan s
  | .inf s => .inf (!s)
  | .fin s m e => .fin (!s) m e

/-- Signed integer of a finite value in units of `2^u`, `u` at most its exponent. -/
def unitsOf (neg : Bool) (m : Nat) (e u : Int) : Int :=
  let v : Int := (m : Int) * 2 ^ (e - u).toNat
  if neg then -v else v

/-- The finite value of a signed integer in units of `2^u`. -/
def Val.ofUnits (v u : Int) : Val := .fin (v < 0) v.natAbs u

/-- Sign of an exact zero sum (IEEE 754-2019 6.3): the common sign, else minus only toward -∞. -/
def zeroSign (mode : Rounding) (s1 s2 : Bool) : Bool :=
  if s1 == s2 then s1 else mode == .rdn

/-- Exact sum of two values rounded once. -/
def addVal (mode : Rounding) (a b : Val) : Res32 :=
  match a, b with
  | .nan s, y => resNaN (s || y.signals)
  | _, .nan s => resNaN s
  | .inf s, .inf t => if s == t then (infCode .f32 s, .none) else resInvalid
  | .inf s, _ => (infCode .f32 s, .none)
  | _, .inf s => (infCode .f32 s, .none)
  | .fin s m e, .fin t n f =>
    let u := min e f
    let v := unitsOf s m e u + unitsOf t n f u
    if v = 0 then
      (ofBool (if m = 0 && n = 0 then zeroSign mode s t else mode == .rdn) * 2 ^ 31, .none)
    else encodeVal .f32 mode (.ofUnits v u)

/-- Exact product of two finite values. -/
def mulFin (s : Bool) (m : Nat) (e : Int) (t : Bool) (n : Nat) (f : Int) : Val := .fin (s != t) (m * n) (e + f)

/-- Product of two values rounded once. -/
def mulVal (mode : Rounding) (a b : Val) : Res32 :=
  match a, b with
  | .nan s, y => resNaN (s || y.signals)
  | _, .nan s => resNaN s
  | .inf s, y => if y.isZero then resInvalid else (infCode .f32 (s != y.isNeg), .none)
  | x, .inf t => if x.isZero then resInvalid else (infCode .f32 (x.isNeg != t), .none)
  | .fin s m e, .fin t n f => encodeVal .f32 mode (mulFin s m e t n f)

/-- Fused multiply-add, one rounding. -/
def fmaVal (mode : Rounding) (a b c : Val) : Res32 :=
  let zeroInf := (a.isZero && (match b with | .inf _ => true | _ => false)) ||
    (b.isZero && (match a with | .inf _ => true | _ => false))
  if a.isNaN || b.isNaN then resNaN (a.signals || b.signals || c.signals)
  else if zeroInf then
    if c.isNaN then resNaN (c.signals || Config.fmaZeroInfNaN) else resInvalid
  else
    match a, b, c with
    | .fin s m e, .fin t n f, c =>
      match mulFin s m e t n f, c with
      | .fin ps pm pe, .fin cs cm ce =>
        let u := min pe ce
        let v := unitsOf ps pm pe u + unitsOf cs cm ce u
        if v = 0 then
          (ofBool (if pm = 0 && cm = 0 then zeroSign mode ps cs else mode == .rdn) * 2 ^ 31, .none)
        else encodeVal .f32 mode (.ofUnits v u)
      | p, q => addVal mode p q
    | _, _, c => addVal mode (.inf (a.isNeg != b.isNeg)) c

/-- Exact comparison of two values that are not NaN, with -0 below +0 (minimumNumber, maximumNumber). -/
def Val.lt (a b : Val) : Bool :=
  match a, b with
  | .inf s, .inf t => s && !t
  | .inf s, _ => s
  | _, .inf t => !t
  | .fin s m e, .fin t n f =>
    let u := min e f
    let x := unitsOf s m e u
    let y := unitsOf t n f u
    decide (x < y) || (decide (x = y) && m == 0 && s && !t)
  | _, _ => false

/-- The value as a binary32 code, which is exact for a binary32 operand. -/
def exact32 (v : Val) : Nat := (encodeVal .f32 .rne v).1

/-- minimumNumber and maximumNumber of IEEE 754-2019. -/
def minMaxVal (wantMax : Bool) (a b : Val) : Res32 :=
  let sig := a.signals || b.signals
  if a.isNaN && b.isNaN then resNaN sig
  else if a.isNaN then (exact32 b, { invalid := sig })
  else if b.isNaN then (exact32 a, { invalid := sig })
  else if (if wantMax then Val.lt a b else Val.lt b a) then (exact32 b, .none)
  else (exact32 a, .none)

/-- Quotient rounded once. -/
def divVal (mode : Rounding) (a b : Val) : Res32 :=
  match a, b with
  | .nan s, y => resNaN (s || y.signals)
  | _, .nan s => resNaN s
  | .inf _, .inf _ => resInvalid
  | .inf s, y => (infCode .f32 (s != y.isNeg), .none)
  | x, .inf t => (ofBool (x.isNeg != t) * 2 ^ 31, .none)
  | .fin s m e, .fin t n f =>
    if n = 0 then
      if m = 0 then resInvalid else (infCode .f32 (s != t), { divzero := true })
    else if m = 0 then (ofBool (s != t) * 2 ^ 31, .none)
    else encodeRatio .f32 mode (s != t) (m * 2 ^ (e - f).toNat) (n * 2 ^ (f - e).toNat)

/-- Integer square root by bits, from bit `k` downward. -/
def isqrtAux (x : Nat) : Nat → Nat → Nat
  | 0, r => r
  | k + 1, r =>
    let t := r + 2 ^ k
    isqrtAux x k (if t * t ≤ x then t else r)

/-- `floor(sqrt x)`. -/
def isqrt (x : Nat) : Nat := isqrtAux x (Nat.log2 x / 2 + 1) 0

/-- Rounds the square root of `p / q`, both scaled so that 128 extra bits are kept, exactly. -/
def sqrtRatio (mode : Rounding) (p q : Nat) : Res32 :=
  let x := p * 2 ^ 512 / q
  let r := isqrt x
  if r * r * q = p * 2 ^ 512 then encodeRatio .f32 mode false r (2 ^ 256)
  -- strictly between two integers: their midpoint rounds alike
  else encodeRatio .f32 mode false (2 * r + 1) (2 ^ 257)

/-- Square root (R113). -/
def sqrtVal (mode : Rounding) (a : Val) : Res32 :=
  match a with
  | .nan s => resNaN s
  | .inf s => if s then resInvalid else (infCode .f32 false, .none)
  | .fin s m e =>
    if m = 0 then (ofBool s * 2 ^ 31, .none)
    else if s then resInvalid
    else sqrtRatio mode (ratioOf m e).1 (ratioOf m e).2

/-- Reciprocal square root (R113; rSqrt of IEEE 754-2019 at the zeros and +∞). -/
def rsqrtVal (mode : Rounding) (a : Val) : Res32 :=
  match a with
  | .nan s => resNaN s
  | .inf s => if s then resInvalid else (0, .none)
  | .fin s m e =>
    if m = 0 then (infCode .f32 s, { divzero := true })
    else if s then resInvalid
    else sqrtRatio mode (ratioOf m e).2 (ratioOf m e).1

/-! Rational intervals for the transcendental functions: a pair of numbers scaled by `2^w`. -/

/-- Taylor series of `e^r - 1` terms: lower and upper sums of `n` terms from index `i`. -/
def expSeries (rlo rhi w : Nat) : Nat → Nat → Nat → Nat → Nat × Nat
  | 0, _, _, thi => (0, thi + 1)
  | n + 1, i, tlo, thi =>
    let s := expSeries rlo rhi w n (i + 1) (tlo * rlo / 2 ^ w / i) (thi * rhi / 2 ^ w / i + 1)
    (tlo + s.1, thi + s.2)

/-- Repeated squaring of an interval. -/
def squareTimes (w : Nat) : Nat → Nat × Nat → Nat × Nat
  | 0, b => b
  | n + 1, b => squareTimes w n (b.1 * b.1 / 2 ^ w, b.2 * b.2 / 2 ^ w + 1)

/-- Bounds of `e^(p/q)` for `0 ≤ p/q ≤ 128`, scaled by `2^w`. -/
def expBounds (w p q : Nat) : Nat × Nat :=
  let rlo := p * 2 ^ w / (q * 2 ^ 16)
  squareTimes w 16 (expSeries rlo (rlo + 1) w (w / 8 + 2) 1 (2 ^ w) (2 ^ w))

/-- Series of `atanh z / z`-like odd powers: sums `z^(2i+1)/(2i+1)` for `n` terms, lower and upper. -/
def atanhSeries (z2lo z2hi w : Nat) : Nat → Nat → Nat → Nat → Nat × Nat
  | 0, _, _, thi => (0, 2 * thi + 1)
  | n + 1, d, tlo, thi =>
    let s := atanhSeries z2lo z2hi w n (d + 2) (tlo * z2lo / 2 ^ w) (thi * z2hi / 2 ^ w + 1)
    (tlo / d + s.1, thi / d + 1 + s.2)

/-- Bounds of `2 atanh(p / q)` with `p / q ≤ 1/3`, scaled by `2^w`. -/
def atanhBounds (w p q : Nat) : Nat × Nat :=
  let zlo := p * 2 ^ w / q
  let zhi := zlo + 1
  let b := atanhSeries (zlo * zlo / 2 ^ w) (zhi * zhi / 2 ^ w + 1) w (w / 3 + 2) 1 zlo zhi
  (2 * b.1, 2 * b.2)

/-- Bounds of `ln (m * 2^e)` for `m > 0`, scaled by `2^w`. -/
def logBounds (w m : Nat) (e : Int) : Int × Int :=
  let k : Int := (Nat.log2 m : Int) + e
  let one := 2 ^ Nat.log2 m
  let f := atanhBounds w (m - one) (m + one)
  let l2 := atanhBounds w 1 3
  if 0 ≤ k then (k * l2.1 + f.1, k * l2.2 + f.2) else (k * l2.2 + f.1, k * l2.1 + f.2)

/-- The rounding of an interval when both ends round alike. -/
def settle (mode : Rounding) (neg : Bool) (lo hi : Nat × Nat) : Option Res32 :=
  let a := encodeRatio .f32 mode neg lo.1 lo.2
  let b := encodeRatio .f32 mode neg hi.1 hi.2
  if a = b then some a else none

/-- The code of a rounding mode, for the free constant of undecided cases. -/
def Rounding.code : Rounding → Nat
  | .rne => 0 | .rtz => 1 | .rup => 2 | .rdn => 3 | .dsr _ => 4

/-- Takes the first settled rounding of two precisions, else the free value of log entry 7. -/
def settleOr (fn : Nat) (mode : Rounding) (arg : Val) (a b : Option Res32) : Res32 :=
  match a with
  | some r => r
  | none =>
    match b with
    | some r => r
    | none => ((Config.hardCase fn mode.code (exact32 arg)).toNat, { inexact := true })

/-- A magnitude below every binary32 rounding boundary, and a ratio just below one. -/
def tinyRatio : Nat × Nat := (1, 2 ^ 400)

/-- `e^x` as bounds on a ratio, for `x = ± m * 2^e`: beyond ±128 any value of the same rounding serves. -/
def expRatio (w : Nat) (neg : Bool) (m : Nat) (e : Int) : (Nat × Nat) × (Nat × Nat) :=
  let r := ratioOf m e
  if 128 * r.2 < r.1 then
    if neg then (tinyRatio, tinyRatio) else ((2 ^ 200 + 1, 1), (2 ^ 200 + 1, 1))
  else
    let b := expBounds w r.1 r.2
    if neg then ((2 ^ w, b.2), (2 ^ w, b.1)) else ((b.1, 2 ^ w), (b.2, 2 ^ w))

/-- EXP (R112, R113). -/
def expVal (mode : Rounding) (a : Val) : Res32 :=
  match a with
  | .nan s => resNaN s
  | .inf s => if s then (0, .none) else (infCode .f32 false, .none)
  | .fin s m e =>
    if m = 0 then (0x3F800000, .none)
    else
      let t := fun w => settle mode false (expRatio w s m e).1 (expRatio w s m e).2
      settleOr 0x0C mode a (t 320) (t 700)

/-- LOG (R112, R113): -∞ with DIVZERO at the zeros, INVALID below zero (IEEE 754-2019). -/
def logVal (mode : Rounding) (a : Val) : Res32 :=
  match a with
  | .nan s => resNaN s
  | .inf s => if s then resInvalid else (infCode .f32 false, .none)
  | .fin s m e =>
    if m = 0 then (infCode .f32 true, { divzero := true })
    else if s then resInvalid
    else if (ratioOf m e).1 = (ratioOf m e).2 then (0, .none)
    else
      let t := fun w =>
        let b := logBounds w m e
        if 0 < b.1 then settle mode false (b.1.toNat, 2 ^ w) (b.2.toNat, 2 ^ w)
        else if b.2 < 0 then settle mode true ((-b.1).toNat, 2 ^ w) ((-b.2).toNat, 2 ^ w)
        else none
      settleOr 0x0D mode a (t 320) (t 700)

/-- Bounds of `1 / (1 + e^(-x))` as ratios. -/
def sigmoidRatio (w : Nat) (s : Bool) (m : Nat) (e : Int) : (Nat × Nat) × (Nat × Nat) :=
  let r := ratioOf m e
  if 128 * r.2 < r.1 then
    if s then (tinyRatio, tinyRatio) else ((2 ^ 400 - 1, 2 ^ 400), (2 ^ 400 - 1, 2 ^ 400))
  else
    let b := expBounds w r.1 r.2
    if s then ((2 ^ w, 2 ^ w + b.2), (2 ^ w, 2 ^ w + b.1))
    else ((b.1, 2 ^ w + b.1), (b.2, 2 ^ w + b.2))

/-- SIGMOID with its limits at the infinities (R113). -/
def sigmoidVal (mode : Rounding) (a : Val) : Res32 :=
  match a with
  | .nan s => resNaN s
  | .inf s => if s then (0, .none) else (0x3F800000, .none)
  | .fin s m e =>
    if m = 0 then (0x3F000000, .none)
    else
      let t := fun w => settle mode false (sigmoidRatio w s m e).1 (sigmoidRatio w s m e).2
      settleOr 0x0E mode a (t 320) (t 700)

/-- SILU with its limits at the infinities and zeros (R113). -/
def siluVal (mode : Rounding) (a : Val) : Res32 :=
  match a with
  | .nan s => resNaN s
  | .inf s => if s then (2 ^ 31, .none) else (infCode .f32 false, .none)
  | .fin s m e =>
    if m = 0 then (ofBool s * 2 ^ 31, .none)
    else
      let r := ratioOf m e
      let t := fun w =>
        let b := sigmoidRatio w s m e
        settle mode s (b.1.1 * r.1, b.1.2 * r.2) (b.2.1 * r.1, b.2.2 * r.2)
      settleOr 0x0F mode a (t 320) (t 700)

/-- Rounding mode of a VOP's RMODE field (R71). -/
def vopMode (c : Nat) : Rounding :=
  match c with
  | 1 => .rtz | 2 => .rup | 3 => .rdn | _ => .rne

/-- The element-wise binary32 functions of R112 (codes 0x01 to 0x0F and SELECT). -/
def vxScalar32 (fn : Nat) (mode : Rounding) (s0 s1 s2 : Nat) : Res32 :=
  let a := decodeElem .f32 s0
  let b := decodeElem .f32 s1
  let c := decodeElem .f32 s2
  match fn with
  | 0x01 => addVal mode a b
  | 0x02 => addVal mode a b.negate
  | 0x03 => mulVal mode a b
  | 0x04 => fmaVal mode a b c
  | 0x05 => minMaxVal false a b
  | 0x06 => minMaxVal true a b
  | 0x07 => if a.isNaN then resNaN a.signals else (bitsOf s0 0 31, .none)
  | 0x08 => if a.isNaN then resNaN a.signals else (s0 ^^^ 2 ^ 31, .none)
  | 0x09 => divVal mode a b
  | 0x0A => sqrtVal mode a
  | 0x0B => rsqrtVal mode a
  | 0x0C => expVal mode a
  | 0x0D => logVal mode a
  | 0x0E => sigmoidVal mode a
  | 0x0F => siluVal mode a
  | _ =>
    -- SELECT: s2 is an INT32; a NaN element is canonical (R32)
    let v := if s2 ≠ 0 then a else b
    (if v.isNaN then canonNaN .f32 else if s2 ≠ 0 then s0 else s1, { invalid := a.signals || b.signals })

/-- Saturation to INT32 with OVERFLOW (R115). -/
def sat32 (v : Int) : Res32 :=
  let c := clampInt (-(2 ^ 31 : Int)) (2 ^ 31 - 1) v
  (toBits c.1 32, { overflow := c.2 })

/-- The element-wise INT32 functions of R112. -/
def vxScalarInt (fn : Nat) (s0 s1 s2 : Nat) : Res32 :=
  let a := signedOf s0 32
  let b := signedOf s1 32
  match fn with
  | 0x01 => sat32 (a + b)
  | 0x02 => sat32 (a - b)
  | 0x03 => sat32 (a * b)
  | 0x05 => (if b < a then s1 else s0, .none)
  | 0x06 => (if a < b then s1 else s0, .none)
  | 0x07 => sat32 (if a < 0 then -a else a)
  | 0x08 => sat32 (-a)
  | 0x20 => (s0 &&& s1, .none)
  | 0x21 => (s0 ||| s1, .none)
  | 0x22 => (s0 ^^^ s1, .none)
  | 0x23 => ((s0 <<< (s1 % 32)) % 2 ^ 32, .none)
  | 0x24 => (toBits (a >>> (s1 % 32)) 32, .none)
  | _ => (if s2 ≠ 0 then s0 else s1, .none)

/-- Sums a list of binary32 codes from a starting code, rounding each addition. -/
def sumFrom (mode : Rounding) : Nat → List Nat → Res32
  | acc, [] => (acc, .none)
  | acc, x :: xs =>
    let r := addVal mode (decodeElem .f32 acc) (decodeElem .f32 x)
    let t := sumFrom mode r.1 xs
    (t.1, r.2.or t.2)

/-- One level of the lane tree: lane 2m plus lane 2m + 1 (R113). -/
def treeLevel (mode : Rounding) : List Nat → List Nat × Flags
  | a :: b :: rest =>
    let r := addVal mode (decodeElem .f32 a) (decodeElem .f32 b)
    let t := treeLevel mode rest
    (r.1 :: t.1, r.2.or t.2)
  | l => (l, .none)

/-- `k` levels of the lane tree. -/
def treeSum (mode : Rounding) : Nat → List Nat → List Nat × Flags
  | 0, l => (l, .none)
  | k + 1, l =>
    let r := treeLevel mode l
    let t := treeSum mode k r.1
    (t.1, r.2.or t.2)

/-- Elements l, l + 256, l + 512 and onward of a list. -/
def laneElems (l : Nat) (n : Nat) (get : Nat → Nat) : List Nat :=
  (List.range (ceilDiv (n - l) 256)).map (fun j => get (l + 256 * j))

/-- RSUM in binary32 (R113): 256 lane sums from +0, then the binary tree. -/
def rsum32 (mode : Rounding) (n : Nat) (get : Nat → Nat) : Res32 :=
  let lanes := (List.range 256).map (fun l => sumFrom mode 0 (laneElems l n get))
  let fl := lanes.foldl (fun f r => f.or r.2) Flags.none
  let t := treeSum mode 8 (lanes.map (fun r => r.1))
  (t.1.getD 0 0, fl.or t.2)

/-- RMAX: maximumNumber over the elements (R112). -/
def rmax32 (xs : List Nat) : Res32 :=
  match xs with
  | [] => (0, .none)
  | x :: rest =>
    let start : Res32 :=
      if (decodeElem .f32 x).isNaN then resNaN (decodeElem .f32 x).signals else (x, .none)
    rest.foldl (fun acc y =>
      let r := minMaxVal true (decodeElem .f32 acc.1) (decodeElem .f32 y)
      (r.1, acc.2.or r.2)) start

/-- RSUM and RMAX in INT32 (R113, R115). -/
def rsumInt (xs : List Nat) : Res32 := sat32 (xs.foldl (fun a x => a + signedOf x 32) 0)
def rmaxInt (xs : List Nat) : Res32 :=
  match xs with
  | [] => (0, .none)
  | x :: rest => (rest.foldl (fun a y => if signedOf a 32 < signedOf y 32 then y else a) x, .none)

end Sys2Proof.Machine
end

