-- ==== Sys2Proof/Machine/Operands.lean ====
section
/-!
DEFINITION. The operands of a core's commands in core store (R36 to R40, R67): packed rows of elements, their block scales, and
the values they stand for.
-/
namespace Sys2Proof.Machine

/-- Alignment and bounds of R67 for a range of `n` bytes from `a`. -/
def csInside (a n : Nat) : Bool := decide (a + n ≤ csSize)

/-- Values under block scales: a NaN block makes every element NaN (R39). -/
def scaledVals (fmt : Format) (codes : List Nat) (scales : List (Option Int)) : List Val :=
  codes.zipIdx.map (fun p =>
    match scales.getD (p.2 / 32) (some 0) with
    | none => .nan false
    | some t => (decodeElem fmt p.1).scale t)

/-- The values of `n` elements packed in `bs` with the scale bytes `ss`: none if one of these is malformed (R38 to R40). -/
def valsOf (fmt : Format) (n : Nat) (bs ss : List Byte) : Option (List Val) :=
  let codes := (List.range n).map (packedElem fmt bs)
  if fmt.scaled then
    match ss.mapM (fun b => scaleByte fmt b.toNat) with
    | none => none
    | some t => some (scaledVals fmt codes t)
  else some (codes.map (decodeElem fmt))

/-- Scale bytes of a row of `n` elements. -/
def Format.scaleBytes (fmt : Format) (n : Nat) : Nat := if fmt.scaled then ceilDiv n 32 else 0

/-- Values of a row of core store; none for a malformed scale byte. -/
def rowVals (s : State) (p a sa : Nat) (fmt : Format) (n : Nat) : Option (List Val) :=
  valsOf fmt n (s.bytes (csOffset p a) (fmt.bytes n)) (s.bytes (csOffset p sa) (fmt.scaleBytes n))

/-- Bytes with their local addresses, for staging. -/
def stageBytes (a : Nat) (bs : List Byte) : List (Nat × Byte) := bs.zipIdx.map (fun p => (a + p.2, p.1))

end Sys2Proof.Machine
end

