-- ==== Sys2Proof/Machine/CoreOps.lean ====
section
/-!
DEFINITION. The sequencer's shared operations (03_cores_and_command_lists): command words and fields, arrival
counters and waits (R80 to R83), issue (R63), halt, commit and completion (R64, R75, R79), and costs (R88).
-/
namespace Sys2Proof.Machine

/-! Command words (R70, R71). -/

/-- A command: its eight words. -/
abbrev Cmd := List Nat

/-- Bits `[lo + len - 1 : lo]` of word `w`. -/
def cf (c : Cmd) (w lo len : Nat) : Nat := bitsOf (c.getD w 0) lo len

/-- Word 0 fields (R70). -/
def cOp (c : Cmd) : Nat := cf c 0 0 8
def cSync (c : Cmd) : Bool := cf c 0 8 1 == 1
def cSigen (c : Cmd) : Bool := cf c 0 9 1 == 1
def cSigctr (c : Cmd) : Nat := cf c 0 10 10
def cSigval (c : Cmd) : Nat := cf c 0 20 8
def cTag (c : Cmd) : Nat := cf c 0 32 16

/-- Opcodes of R71. -/
def opNop : Nat := 0x00
def opEnd : Nat := 0x01
def opWait : Nat := 0x03
def opCtrset : Nat := 0x04
def opCtrcfg : Nat := 0x05
def opMxm : Nat := 0x10
def opAcrd : Nat := 0x11
def opAcsp : Nat := 0x12
def opAcfl : Nat := 0x13
def opAcz : Nat := 0x14
def opMvm : Nat := 0x20
def opVop : Nat := 0x30
def opMove : Nat := 0x40

/-- Defined opcodes. -/
def opcodes : List Nat := [0x00, 0x01, 0x03, 0x04, 0x05, 0x10, 0x11, 0x12, 0x13, 0x14, 0x20, 0x30, 0x40]

/-- The bits of words 0 to 7 that the tables of R70 and R71 leave out, which must be zero: for each opcode, the mask
of defined bits of each word. -/
def definedBits (op : Nat) : List Nat :=
  let w0 := 0xFFFF0FFFFFFF
  match op with
  | 0x03 => [w0, 0xFFFFFFFF000007FF, 0xFFFFFFFF, 0, 0, 0, 0, 0]
  | 0x04 => [w0, 0xFFFFFFFF000003FF, 0, 0, 0, 0, 0, 0]
  | 0x05 => [w0, 0x1FFFFFF, 0xFFFFFFFF, 0, 0, 0, 0, 0]
  | 0x10 => [w0, 0x3FFFFFFFFFFFFF, 2 ^ 64 - 1, 2 ^ 64 - 1, 2 ^ 64 - 1, 0xFFFFFFFF, 0, 0]
  | 0x11 => [w0, 0xFFFFFFFFFFFFF, 2 ^ 64 - 1, 0xFFFFFFFFFFFFFF, 0xFFFF, 0, 0, 0]
  | 0x12 => [w0, 0xFFFFFFFFFFE01, 2 ^ 64 - 1, 0, 0, 0, 0, 0]
  | 0x13 => [w0, 0xFFFFFFFFFFE01, 2 ^ 64 - 1, 0, 0, 0, 0, 0]
  | 0x14 => [w0, 0x3FFFFFE01, 0, 0, 0, 0, 0, 0]
  | 0x20 => [w0, 0x1FFFFFFFFFFFE, 2 ^ 64 - 1, 2 ^ 64 - 1, 0xFFFFFFFF, 2 ^ 64 - 1, 0xFFFFFFFF, 0xFFFFFF]
  | 0x30 => [w0, 0x1FFFFFF7FFF, 2 ^ 64 - 1, 2 ^ 64 - 1, 0xFFFFFF, 0, 0, 0]
  | 0x40 => [w0, 2 ^ 64 - 1, 2 ^ 64 - 1, 0x1FFFFFFFFFFF, 0xFFFFFFFF, 0, 0, 0]
  | _ => [w0, 0, 0, 0, 0, 0, 0, 0]

/-- Whether every reserved bit of a command is zero (R71). -/
def reservedClear (c : Cmd) : Bool :=
  (c.zip (definedBits (cOp c))).all (fun p => p.1 &&& (2 ^ 64 - 1 - p.2) == 0)

/-- Depth and width of a shape (R71, R97). -/
def shapeDepth (sh : Nat) : Nat := if sh = 0 then 64 else if sh = 1 then 32 else 16
def shapeWidth (sh : Nat) : Nat := if sh = 0 then 64 else if sh = 1 then 128 else 256

/-- Wavefront latency of a shape (R88, R97). -/
def shapeLat (sh : Nat) : Nat := if sh = 0 then 127 else if sh = 1 then 32 else 16

/-- Shape of the latest MXM of a side, as MX_STATUS.SHAPE shows (R72). -/
def State.sideShape (s : State) (p side : Nat) : Nat := s.get (MX_STATUS_SHAPE p (if s.isP2 p then 2 * side else 0))

/-- Key of the accumulator of logical row `r`, column `j` (R72, R103). -/
def accOf (s : State) (p side w accRow r j : Nat) : Nat :=
  accKey p (s.sideArray p side r) ((accRow + r / s.sideCount p) * w + j)

/-! Arrival counters (R80 to R83). -/

/-- A warning of core `p`'s sequencer: CORE_STATUS.CODE and a coalesced record (R443). -/
def coreWarn (p code : Nat) (s : State) : State :=
  (s.set (CORE_STATUS_CODE p) code).report
    { code := code, level := 0, kind := 1, die := dieOfCore p, sub := coreSub p 6 }

/-- Records ARR_SLOT without halting the list (R81). -/
def arrSlotError (p : Nat) (s : State) : State := coreWarn p cArrSlot (s.raise (CORE_IRQ_ARR_SLOT p))

/-- Whether a WAIT's condition holds (R71, R82). -/
def waitHolds (p : Nat) (c : Cmd) (s : State) : Bool :=
  let n := s.get (CORE_ARR_COUNT p (cf c 1 0 10))
  if cf c 1 10 1 = 0 then decide (cf c 1 32 32 ≤ n) else n == cf c 1 32 32

/-- Number of consecutive set bits from slot 0 of a bitmap (R80). -/
def prefixCount (p bitmap : Nat) (s : State) : Nat → Nat → Nat
  | 0, k => k
  | n + 1, k =>
    if (s.byte (csOffset p (bitmap + k / 8))).toNat.testBit (k % 8) then prefixCount p bitmap s n (k + 1) else k

/-- An increment arrival with no effect on held waits (R81). -/
def addArrival (p ctr inc : Nat) (s : State) : State :=
  if s.flag (CORE_ARR_MODE p ctr) then arrSlotError p s
  else s.set (CORE_ARR_COUNT p ctr) (s.get (CORE_ARR_COUNT p ctr) + inc)

/-- Ends a WAIT whose condition is true: its slot is freed and its SIGEN applies (R70, R82). One WAIT satisfied may
satisfy no other, since a core holds one WAIT. -/
def completeWait (p : Nat) (s : State) : State :=
  let c := s.core p
  match c.inflight.find? (fun r => cOp r.words == opWait) with
  | none => s
  | some r =>
    if waitHolds p r.words s then
      let t := s.setCore p { c with inflight := c.inflight.filter (fun q => q.ord != r.ord) }
      if cSigen r.words then addArrival p (cSigctr r.words) (cSigval r.words) t else t
    else s

/-- An increment arrival at a core's counter (R81, R82). -/
def arriveInc (p ctr inc : Nat) (s : State) : State := completeWait p (addArrival p ctr inc s)

/-- A slot arrival at a core's counter (R80, R81). -/
def arriveSlot (p ctr slot : Nat) (s : State) : State :=
  if !s.flag (CORE_ARR_MODE p ctr) || decide (s.get (CORE_ARR_SLOTS p ctr) ≤ slot) then arrSlotError p s
  else
    let bm := s.get (CORE_ARR_MAP_BITMAP p ctr)
    let a := csOffset p (bm + slot / 8)
    let b := s.byte a
    if b.toNat.testBit (slot % 8) then s.count (CORE_ARR_DUP_COUNT p) 1
    else
      let t := s.setByte a (b ||| BitVec.ofNat 8 (2 ^ (slot % 8)))
      completeWait p
        (t.set (CORE_ARR_COUNT p ctr) (prefixCount p bm t (t.get (CORE_ARR_SLOTS p ctr)) 0))

/-- CTRSET's effect on an ADD counter (R83). -/
def setCounter (p ctr v : Nat) (s : State) : State := s.set (CORE_ARR_COUNT p ctr) v

/-- CTRCFG's effect (R80): COUNT zero, bitmap lines cleared, mode set. -/
def configCounter (p ctr mode slots bitmap : Nat) (s : State) : State :=
  let t := if mode = 1 then storeBytes (csOffset p bitmap) (List.replicate (64 * ceilDiv slots 512) 0) s else s
  ((((t.set (CORE_ARR_COUNT p ctr) 0).set (CORE_ARR_MODE p ctr) mode).set (CORE_ARR_SLOTS p ctr) slots).set
    (CORE_ARR_MAP_BITMAP p ctr) bitmap)

/-! Issue (R63). -/

/-- The eight words of ring entry `i`: the stored bytes, also of a poisoned word (log entry 37). -/
def ringCmd (s : State) (p base i : Nat) : Cmd := (List.range 8).map (fun w => s.csRead p (base + 64 * i + 8 * w) 8)

/-- Whether a core's sequencer may decode: RUNNING, not stopping, and its clock not gated (R63, R77, R84). -/
def sequencing (s : State) (p : Nat) : Bool :=
  s.get (CORE_STATUS_STATE p) == stRunning && !(s.core p).killing && gatedNow s (dieOfCore p) == 0

/-- Passes over commands that RESUME marked as completed (R78). -/
def skipAhead (p : Nat) : Nat → State → State
  | 0, s => s
  | n + 1, s =>
    let c := s.core p
    let h := s.get (CORE_HEAD_HEAD p)
    if c.skip.contains h && c.size ≠ 0 then
      skipAhead p n ((s.set (CORE_HEAD_HEAD p) ((h + 1) % c.size)).setCore p
        { c with skip := c.skip.filter (fun x => x != h), nextOrd := c.nextOrd + 1 })
    else s

/-- The command at HEAD when the sequencer can decode one: none while the ring is empty or a WAIT holds the CTL slot
and blocks later issue (R82, R84). -/
def headCmd (p : Nat) (s : State) : Option Cmd :=
  let c := s.core p
  if sequencing s p && s.get (CORE_HEAD_HEAD p) != s.get (CORE_TAIL_TAIL p) &&
      !(c.inflight.any (fun r => cOp r.words == opWait)) then
    some (ringCmd s p c.base (s.get (CORE_HEAD_HEAD p)))
  else none

/-- Whether a command may issue into a slot: the slot is free and, with SYNC or for END, everything earlier has
completed (R63). -/
def slotFree (p : Nat) (sl : Slot) (c : Cmd) (s : State) : Bool :=
  let fl := (s.core p).inflight
  !(fl.any (fun r => r.slot == sl)) && (!(cSync c || cOp c == opEnd) || fl.isEmpty)

/-- SKIP of R78: bit k set when the command k + 1 after the one at position `ord`, ring index `idx`, had completed (or committed,
R92): it has been decoded and is not in flight uncommitted, or an earlier RESUME marked it and it has not been passed yet. -/
def skipBits (c : CoreHid) (now ord idx : Nat) : Nat :=
  (List.range 8).foldl (fun m k =>
    let o := ord + 1 + k
    let done := if o < c.nextOrd then !(c.inflight.any (fun r => r.ord == o && !r.committed now))
      else c.skip.contains ((idx + 1 + k) % c.size)
    if done then m + 2 ^ k else m) 0

/-- Halts the list at a failing command (R79): issue stops, uncommitted commands are discarded, and CODE, TAG and
RESUME name the failing command, also where an older one is in flight uncommitted (log entry 37). -/
def haltList (p ord idx code tag : Nat) (s : State) : State :=
  let c := s.core p
  let t := discardUncommitted p s
  (((((t.set (CORE_STATUS_STATE p) stHalted).set (CORE_STATUS_CODE p) code).set (CORE_STATUS_TAG p) tag).set
    (CORE_RESUME_PC p) idx).set (CORE_RESUME_SKIP p) (skipBits c s.fc ord idx)).raise (CORE_IRQ_HALTED p)

/-- A command at HEAD fails in its decode cycle: it never issues (R74). -/
def decodeFail (p : Nat) (c : Cmd) (code : Nat) (s : State) : State :=
  haltList p (s.core p).nextOrd (s.get (CORE_HEAD_HEAD p)) code (cTag c) s

/-- Issues the command at HEAD into a slot. -/
def issue (p : Nat) (r : CmdRec) (s : State) : State :=
  let c := s.core p
  let h := s.get (CORE_HEAD_HEAD p)
  (s.set (CORE_HEAD_HEAD p) ((h + 1) % c.size)).setCore p
    { c with inflight := c.inflight ++ [{ r with ord := c.nextOrd, idx := h, issue := s.fc }],
             nextOrd := c.nextOrd + 1 }

/-- A record to issue with nothing staged. -/
def plainRec (sl : Slot) (c : Cmd) (cost commitLen : Nat) : CmdRec :=
  { ord := 0, idx := 0, slot := sl, words := c, issue := 0, cost := cost, commitLen := commitLen }

/-- The next command of core `p`, after skipped ones, when its opcode is `op`: the command and the state in which it
stands at HEAD. -/
def atHead (p op : Nat) (s : State) : Option (Cmd × State) :=
  let t := skipAhead p 8 s
  match headCmd p t with
  | some c => if cOp c = op then some (c, t) else none
  | none => none

/-- Decode, slot and issue of one command. A command that cannot issue yet, for its slot, SYNC or the further condition `hold`, leaves
the state unchanged (R63). The checks are those of its decode cycle, the first in which it could issue (R74, R80, R104): they give 0 or
the failing code in the order of R74. -/
def issueCmd (p op : Nat) (slotOf : Cmd → State → Slot) (hold : Cmd → State → Bool) (check : Cmd → State → Nat)
    (run : Cmd → State → State) (s : State) : State :=
  match atHead p op s with
  | none => s
  | some (c, t) =>
    if !slotFree p (slotOf c t) c t || hold c t then s
    else if check c t ≠ 0 then decodeFail p c (check c t) t
    else run c t

/-- No further condition of issue. -/
def noHold (_ : Cmd) (_ : State) : Bool := false

/-! Commit and completion (R64, R75). -/

/-- Writes staged core-store bytes. -/
def commitBytes (p : Nat) : List (Nat × Byte) → State → State
  | [], s => s
  | (a, b) :: ws, s => commitBytes p ws (s.setByte (csOffset p a) b)

/-- Makes staged accumulator shadows current. -/
def commitAccs : List (Nat × Acc) → State → State
  | [], s => s
  | (k, v) :: ws, s => commitAccs ws (s.setAcc k v)

/-- MXM parameters (R71): both 4-bit operands double the depth, 16-bit operands halve the rate. -/
def mxmFmt (c : Cmd) : Option Format × Option Format := (Format.ofCode (cf c 1 4 4), Format.ofCode (cf c 1 8 4))
def mxmRho (c : Cmd) : Nat :=
  match mxmFmt c with
  | (some a, some w) => if a.isNibble && w.isNibble then 2 else 1
  | _ => 1
def mxmRate (c : Cmd) : Nat :=
  match mxmFmt c with
  | (some a, some w) => if a.bits == 16 || w.bits == 16 then 2 else 1
  | _ => 1

/-- Counters of a committed pass on the arrays of its side (R102, R117). -/
def countPass (p : Nat) (r : CmdRec) (s : State) : State :=
  let c := r.words
  let side := cf c 1 0 1
  let n := s.sideCount p
  let depth := cf c 1 12 8
  let width := cf c 1 20 9
  let rows := cf c 1 29 11
  let ma := ceilDiv rows n
  let on := ceilDiv depth (mxmRho c) * width
  (s.sideArrays p side).foldl (fun t a =>
    let i := if s.isP2 p then a - 2 * side else a
    let mine := ceilDiv (rows - min i rows) n
    ((t.count (MX_PASSES_COUNT p a) 1).count (MX_PRODUCTS_COUNT p a) (mine * depth * width)).count
      (MX_GATED_COUNT p a) ((4096 - on) * r.cost + (ma - mine) * on * mxmRate c)) s

/-- Register effects of a command's commit beside its staged data. -/
def commitCounts (p : Nat) (r : CmdRec) (s : State) : State :=
  let c := r.words
  if cOp c = opMxm then countPass p r s
  else if cOp c = opMvm then
    let k := cf c 1 34 15
    let n := cf c 1 17 17
    let bytes := match Format.ofCode (cf c 1 4 4) with
      | some f => n * f.bytes k
      | none => 0
    ((s.count (MV_BYTES_COUNT p) bytes).count (MV_COMMANDS_COUNT p) 1)
  else if cOp c = opVop then s.count (VX_ELEMS_COUNT p) (cf c 1 16 25)
  else if cOp c = opCtrset then setCounter p (cf c 1 0 10) (cf c 1 32 32) s
  else if cOp c = opCtrcfg then configCounter p (cf c 1 0 10) (cf c 1 10 1) (cf c 1 11 14) (cf c 2 0 32) s
  else s

/-- Removes a completed command from its slot. Positions never repeat, so a committed command of an earlier run keeps its own. -/
def retire (p ord : Nat) (s : State) : State :=
  let c := s.core p
  s.setCore p { c with inflight := c.inflight.filter (fun q => q.ord != ord) }

/-- SIGEN at completion (R70). -/
def sigen (p : Nat) (c : Cmd) (s : State) : State :=
  if cSigen c then arriveInc p (cSigctr c) (cSigval c) s else completeWait p s

/-- Commit and completion of a command that has not failed (R64, R70, R75, R115). -/
def commitCmd (p : Nat) (r : CmdRec) (s : State) : State :=
  let s1 := commitAccs r.shadows (cleanStaged p r.writes (commitBytes p r.writes s))
  let s2 := raiseFlags p r.flags s1
  let s3 := if r.ovf then coreWarn p cTallyOvf s2 else s2
  sigen p r.words (clearBusy p r.slot (retire p r.ord (commitCounts p r s3)))

/-! Failures found while a command executes. -/

/-- Picks the reported code of a command that meets several (R92): engine fault, poisoned word, scale byte. -/
def execCode (flt : Option EngFault) (residueBad poison scale : Bool) : Nat :=
  match flt with
  | some (.parity _) => cEngParity
  | some (.residue _) => cResidueFault
  | none => if residueBad then cResidueFault else if poison then cCsUncorr else if scale then cOpndScale else 0

/-- Engine of a reported fault. -/
def EngFault.engine : EngFault → Nat
  | .residue e => e.val
  | .parity e => e.val

/-- Fences the engine of a fault found during a command (R54, R430). -/
def fenceFault (p : Nat) (flt : Option EngFault) (s : State) : State :=
  match flt with
  | some (.residue e) => fenceEngine p e.val cResidueFault 0 s
  | some (.parity e) => fenceEngine p e.val cEngParity 0 s
  | none => s

end Sys2Proof.Machine
end

