-- ==== Sys2Proof/Machine/Control.lean ====
section
/-!
DEFINITION. The control commands of a core's list and the CORE_CMD actions (03_cores_and_command_lists): NOP, END,
WAIT, CTRSET, CTRCFG, RESERVED_OPCODE, RUN, ARM, LIST_LAUNCH, KILL, KILL_DONE, RESUME, CLEAR, ring and counter
writes, core-store scrubbing and row repair, and a core fault.
-/
namespace Sys2Proof.Machine

/-- CTL commands use the CTL slot (R62). -/
def ctlSlot (_ : Cmd) (_ : State) : Slot := .ctl

/-- NOP (R71): nothing for 1 fc. -/
def checkNop (c : Cmd) (_ : State) : Nat := if reservedClear c then 0 else cCmdIllegal

/-- Issues a NOP. -/
def nop (p : Nat) (s : State) : State :=
  issueCmd p opNop ctlSlot noHold checkNop (fun c t => issue p (plainRec .ctl c 1 1) t) s

def execNop (p : Fin 144) (s : State) : Host.Outcome State Fault Refusal := .next (s.live (nop p))

/-- END's own effect: it issues and completes in one cycle, which CORE_CYC_ACTIVE counts, ends the list and applies its SIGEN (R70, R71,
R90). -/
def finishList (p : Nat) (c : Cmd) (s : State) : State :=
  let h := s.get (CORE_HEAD_HEAD p)
  let k := s.core p
  let t := ((s.set (CORE_HEAD_HEAD p) ((h + 1) % k.size)).set (CORE_STATUS_STATE p) stDone).raise (CORE_IRQ_DONE p)
  let t := t.count (CORE_CYC_ACTIVE_COUNT p) 1
  sigen p c (t.setCore p { k with nextOrd := k.nextOrd + 1 })

/-- END (R63, R71). -/
def listEnd (p : Nat) (s : State) : State := issueCmd p opEnd ctlSlot noHold checkNop (fun c t => finishList p c t) s

def execEndList (p : Fin 144) (s : State) : Host.Outcome State Fault Refusal := .next (s.live (listEnd p))

/-- Decode check of WAIT: LIMIT_US is 0 or 1 to 10,000,000 (R71). -/
def checkWait (c : Cmd) (_ : State) : Nat :=
  if reservedClear c && decide (cf c 2 0 32 ≤ 10000000) then 0 else cCmdIllegal

/-- WAIT (R82): it holds the CTL slot until its condition is true. It has not committed while it waits, and the code it
would report is WAIT_TIMEOUT. -/
def waitCmd (p : Nat) (s : State) : State :=
  issueCmd p opWait ctlSlot noHold checkWait
    (fun c t => completeWait p (issue p { plainRec .ctl c 1 1 with code := cWaitTimeout } t)) s

def execWait (p : Fin 144) (s : State) : Host.Outcome State Fault Refusal := .next (s.live (waitCmd p))

/-- LIMIT_US of the held WAIT has passed: it completes if its condition is true, else fails (R82, R92). -/
def waitTimeout (p : Nat) (s : State) : State :=
  match (s.core p).inflight.find? (fun r => cOp r.words == opWait) with
  | none => s
  | some r =>
    if waitHolds p r.words s then completeWait p s
    else haltList p r.ord r.idx cWaitTimeout (cTag r.words) s

def execWaitTimeout (p : Fin 144) (s : State) : Host.Outcome State Fault Refusal := .next (s.live (waitTimeout p))

/-- CTRSET fails at decode on a PREFIX counter (R71, R80). -/
def checkCtrset (p : Nat) (c : Cmd) (s : State) : Nat :=
  if reservedClear c && !s.flag (CORE_ARR_MODE p (cf c 1 0 10)) then 0 else cCmdIllegal

/-- CTRSET (R83): its commit sets COUNT. -/
def ctrset (p : Nat) (s : State) : State :=
  issueCmd p opCtrset ctlSlot noHold (checkCtrset p) (fun c t => issue p (plainRec .ctl c 1 1) t) s

def execCtrset (p : Fin 144) (s : State) : Host.Outcome State Fault Refusal := .next (s.live (ctrset p))

/-- Decode check of CTRCFG (R67, R71): SLOTS 1 to 8,192 and an aligned bitmap inside core store in PREFIX mode, zero
fields in ADD mode. -/
def checkCtrcfg (c : Cmd) (_ : State) : Nat :=
  let slots := cf c 1 11 14
  let bm := cf c 2 0 32
  if !reservedClear c then cCmdIllegal
  else if cf c 1 10 1 = 0 then (if slots = 0 ∧ bm = 0 then 0 else cCmdIllegal)
  else if slots = 0 ∨ 8192 < slots then cCmdIllegal
  else if bm % 64 = 0 ∧ csInside bm (64 * ceilDiv slots 512) then 0
  else cCmdBounds

/-- CTRCFG (R80): cost 2 + ceil(SLOTS / 512) (R88). -/
def ctrcfg (p : Nat) (s : State) : State :=
  issueCmd p opCtrcfg ctlSlot noHold checkCtrcfg
    (fun c t => issue p (plainRec .ctl c (2 + ceilDiv (cf c 1 11 14) 512) 1) t) s

def execCtrcfg (p : Fin 144) (s : State) : Host.Outcome State Fault Refusal := .next (s.live (ctrcfg p))

/-- A reserved opcode fails at decode with CMD_ILLEGAL (R71, R74). -/
def reservedOpcode (p : Nat) (s : State) : State :=
  let t := skipAhead p 8 s
  match headCmd p t with
  | some c => if opcodes.contains (cOp c) then s else decodeFail p c cCmdIllegal t
  | none => s

def execReservedOpcode (p : Fin 144) (s : State) : Host.Outcome State Fault Refusal := .next (s.live (reservedOpcode p))

/-! CORE_CMD actions (R511). -/

/-- The ring conditions of R86. -/
def ringOk (p : Nat) (s : State) : Bool :=
  let n := s.get (CORE_RING_SIZE_ENTRIES p)
  decide (16 ≤ n) && decide (n ≤ 65536) && csInside (64 * s.get (CORE_RING_BASE_BASE p)) (64 * n)

/-- A core that takes no RUN or ARM: fallow, or in no plot (R71, R352, R511). -/
def runnable (p : Nat) (s : State) : Bool := (s.plotOf p).isSome

/-- Takes the ring settings into force: at RUN, and at ARM for the launch (R86). -/
def latchRing (p : Nat) (s : State) : State :=
  s.setCore p { s.core p with base := 64 * s.get (CORE_RING_BASE_BASE p), size := s.get (CORE_RING_SIZE_ENTRIES p) }

/-- Starts the list at a ring index (R78, R89): both MP slots are unchained. CORE_CYC_ACTIVE counts on from where it stands
(log entry 37). -/
def startList (p pc : Nat) (skip : List Nat) (s : State) : State :=
  let c := s.core p
  (((s.set (CORE_STATUS_STATE p) stRunning).set (CORE_HEAD_HEAD p) pc).setCore p
    { c with killing := false, skip := skip, chainA := none, chainB := none })

/-- Whether a substitution (R438) or a row repair (R436) holds RUN and ARM back. -/
def runHeld (p : Nat) (s : State) : Bool :=
  (s.flag MGT_SUBST_STAT_PENDING || s.flag MGT_SUBST_STAT_BUSY) &&
    (s.get (CORE_ID_DIE p) == s.subst.1 / 9) && (p == s.subst.1 || p == s.subst.2)

/-- RUN (R511, R86), held with a pending substitution (R438). -/
def runCore (p : Nat) (s : State) : State :=
  if s.get (CORE_STATUS_STATE p) ≠ stIdle then s
  else if runHeld p s then s.setCore p { s.core p with heldRun := true }
  else if !runnable p s then s.set (CORE_STATUS_CODE p) cCmdIllegal
  else if !ringOk p s then s.set (CORE_STATUS_CODE p) cCmdBounds
  else startList p (s.get (CORE_HEAD_HEAD p)) [] (latchRing p s)

def execRun (p : Fin 144) (s : State) : Host.Outcome State Fault Refusal := .next (s.live (runCore p))

/-- ARM (R379, R511): refused with LAUNCH_PAST if the count named is less than 1 µs ahead. -/
def armCore (p : Nat) (s : State) : State :=
  if s.get (CORE_STATUS_STATE p) ≠ stIdle then s
  else if runHeld p s then s.setCore p { s.core p with heldArm := true }
  else if !runnable p s then s.set (CORE_STATUS_CODE p) cCmdIllegal
  else if !ringOk p s then s.set (CORE_STATUS_CODE p) cCmdBounds
  else if s.get (CORE_LAUNCH_ALM_COUNT p) < s.alm + 1000 then s.set (CORE_STATUS_CODE p) cLaunchPast
  else (latchRing p s).set (CORE_STATUS_STATE p) stArmed

def execArm (p : Fin 144) (s : State) : Host.Outcome State Fault Refusal := .next (s.live (armCore p))

/-- An ARMED core starts once the count has reached CORE_LAUNCH_ALM (R379). -/
def listLaunch (p : Nat) (s : State) : State :=
  if s.get (CORE_STATUS_STATE p) = stArmed ∧ s.get (CORE_LAUNCH_ALM_COUNT p) ≤ s.alm then
    startList p (s.get (CORE_HEAD_HEAD p)) [] s
  else s

def execListLaunch (p : Fin 144) (s : State) : Host.Outcome State Fault Refusal := .next (s.live (listLaunch p))

/-- Position and ring index of the first command not decoded that no RESUME mark passes over (R78). -/
def restPoint (c : CoreHid) : Nat → Nat → Nat → Nat × Nat
  | 0, o, h => (o, h)
  | n + 1, o, h => if c.skip.contains h then restPoint c n (o + 1) ((h + 1) % c.size) else (o, h)

/-- The resume point of a kill: the oldest command that has neither completed nor committed (R77, R78, R92). -/
def killPoint (p : Nat) (s : State) : State :=
  let c := s.core p
  let x := match c.inflight.find? (fun r => !r.committed s.fc) with
    | some r => (r.ord, r.idx)
    | none => restPoint c 8 c.nextOrd (s.get (CORE_HEAD_HEAD p))
  (s.set (CORE_RESUME_PC p) x.2).set (CORE_RESUME_SKIP p) (skipBits c s.fc x.1 x.2)

/-- The core reaches KILLED (R77). -/
def becomeKilled (p : Nat) (s : State) : State :=
  (((s.set (CORE_STATUS_STATE p) stKilled).set (CORE_STATUS_CODE p) cListKilled).raise (CORE_IRQ_KILLED p)).setCore p
    { s.core p with killing := false }

/-- KILL (R77, R511): it stops issue and discards uncommitted commands, or cancels an armed launch. -/
def killCore (p : Nat) (s : State) : State :=
  let st := s.get (CORE_STATUS_STATE p)
  if st = stArmed then
    becomeKilled p ((s.set (CORE_RESUME_PC p) (s.get (CORE_HEAD_HEAD p))).set (CORE_RESUME_SKIP p) 0)
  else if st = stRunning ∧ !(s.core p).killing then
    let t := discardUncommitted p (killPoint p s)
    t.setCore p { t.core p with killing := true }
  else s

def execKill (p : Fin 144) (s : State) : Host.Outcome State Fault Refusal := .next (s.live (killCore p))

/-- KILLED once the committed commands have completed (R77). -/
def killDone (p : Nat) (s : State) : State :=
  if s.get (CORE_STATUS_STATE p) = stRunning ∧ (s.core p).killing ∧ (s.core p).inflight = [] then becomeKilled p s
  else s

def execKillDone (p : Fin 144) (s : State) : Host.Outcome State Fault Refusal := .next (s.live (killDone p))

/-- Ring indices that SKIP marks (R78). -/
def skipList (pc skip size : Nat) : List Nat :=
  (List.range 8).filterMap (fun k => if skip.testBit k then some ((pc + 1 + k) % size) else none)

/-- RESUME (R78, R86, R511). -/
def resumeCore (p : Nat) (s : State) : State :=
  let st := s.get (CORE_STATUS_STATE p)
  if st = stHalted ∨ st = stKilled then
    if !ringOk p s then s.set (CORE_STATUS_CODE p) cCmdBounds
    else
      let pc := s.get (CORE_RESUME_PC p)
      startList p pc (skipList pc (s.get (CORE_RESUME_SKIP p)) (s.core p).size) s
  else s

def execResume (p : Fin 144) (s : State) : Host.Outcome State Fault Refusal := .next (s.live (resumeCore p))

/-- CLEAR (R93, R511): STATE to IDLE, CODE and the stall counters to zero. -/
def clearCore (p : Nat) (s : State) : State :=
  let st := s.get (CORE_STATUS_STATE p)
  if st = stDone ∨ st = stHalted ∨ st = stKilled then
    (((((s.set (CORE_STATUS_STATE p) stIdle).set (CORE_STATUS_CODE p) 0).set (CORE_STALL_WAIT_COUNT p) 0).set
      (CORE_STALL_MEM_COUNT p) 0).set (CORE_STALL_LIST_COUNT p) 0).set (CORE_STALL_THR_COUNT p) 0
  else s

def execClear (p : Fin 144) (s : State) : Host.Outcome State Fault Refusal := .next (s.live (clearCore p))

/-! Writes that append commands and set counters. -/

/-- A write to CORE_TAIL (R85, R86). -/
def coreTailWrite (p : Nat) (v : Word) (s : State) : State :=
  let x := (CORE_TAIL_TAIL p).of v
  let st := s.get (CORE_STATUS_STATE p)
  let n := if st = stRunning ∨ st = stArmed then (s.core p).size else s.get (CORE_RING_SIZE_ENTRIES p)
  let h := s.get (CORE_HEAD_HEAD p)
  if n ≤ x ∨ (x = h ∧ s.get (CORE_TAIL_TAIL p) ≠ h) then s.raise (CORE_IRQ_RING_FULL p)
  else s.set (CORE_TAIL_TAIL p) x

def execCoreTailWrite (p : Fin 144) (v : Word) (s : State) : Host.Outcome State Fault Refusal :=
  .next (s.liveDie (dieOfCore p) (coreTailWrite p v))

/-- A write to CORE_ARR[n] (R93): CTRSET in ADD mode, discarded in PREFIX mode. -/
def coreArrWrite (p ctr : Nat) (v : Word) (s : State) : State :=
  if s.flag (CORE_ARR_MODE p ctr) then s
  else completeWait p (setCounter p ctr ((CORE_ARR_COUNT p ctr).of v) s)

def execCoreArrWrite (p : Fin 144) (ctr : Fin 1024) (v : Word) (s : State) : Host.Outcome State Fault Refusal :=
  .next (s.liveDie (dieOfCore p) (coreArrWrite p ctr v))

/-! Scrubbing and row repair (R69, R436). -/

/-- Row of a core-store address: lines interleave over 32 banks by address bits [10:6], 32 lines to a row (R65,
R436). Rows are numbered bank + 32 * row within the bank. -/
def csRow (a : Nat) : Nat := a / 64 % 32 + 32 * (a / 2048 / 32)

/-- Queues a row for repair (R436). -/
def queueRow (p row : Nat) (s : State) : State :=
  let c := s.core p
  if c.rows.contains row || c.repaired.contains row then s
  else (s.setCore p { c with rows := c.rows ++ [row] }).count (CS_REPAIR_QUEUED p) 1

/-- A corrected word found at an address (R69, R95, R436). -/
def csCorrected (p a : Nat) (s : State) : State :=
  let t := (s.countSat (CS_ECC_CORR_COUNT p) 1).raise (CS_ECC_STAT_CORR p)
  let c := t.core p
  let n := Tab.get (fun _ => 0) c.rowCorr (csRow a) + 1
  let u := t.setCore p { c with rowCorr := Tab.set (fun _ => 0) c.rowCorr (csRow a) n }
  if max 1 (u.get (CS_REPAIR_CORR_MAX p)) ≤ n then queueRow p (csRow a) u else u

/-- An uncorrectable word found at an address is poisoned (R69, R95, R436). -/
def csUncorrectable (p a : Nat) (s : State) : State :=
  let o := csOffset p a
  let t := (s.raise (CS_ECC_STAT_UNCORR p)).set (CS_ECC_STAT_LAST_ADDR p) a
  let u := poisonWord o t
  queueRow p (csRow a) u

/-- A background scrub pass finds the given corrected and uncorrectable words (R69). -/
def csScrub (p : Nat) (corr unc : List CsAddr) (s : State) : State :=
  unc.foldl (fun t a => csUncorrectable p (a / 8 * 8) t) (corr.foldl (fun t a => csCorrected p (a / 8 * 8) t) s)

def execCsScrub (p : Fin 144) (corrected uncorrectable : List CsAddr) (s : State) :
    Host.Outcome State Fault Refusal := .next (s.live (csScrub p corrected uncorrectable))

/-- Spare rows of a bank already used. -/
def spareUsed (c : CoreHid) (bank : Nat) : Nat := Tab.get (fun _ => 0) c.spareUsed bank

/-- The first queued row is repaired, or stays in service when its bank has no spare left (R436). -/
def csRowRepair (p : Nat) (s : State) : State :=
  let c := s.core p
  let st := s.get (CORE_STATUS_STATE p)
  match c.rows with
  | [] => s
  | row :: rest =>
    if !s.flag (CS_REPAIR_EN p) || st == stRunning || st == stArmed then s
    else
      let bank := row % 32
      let t := (s.set (CS_REPAIR_QUEUED p) (s.get (CS_REPAIR_QUEUED p) - 1))
      let sub := coreSub p 6
      if spareUsed c bank < 8 then
        let used := Tab.set (fun _ => 0) c.spareUsed bank (spareUsed c bank + 1)
        let u := t.setCore p { c with rows := rest, repaired := c.repaired ++ [row], spareUsed := used,
                                      rowCorr := Tab.set (fun _ => 0) c.rowCorr row 0 }
        let left := 8 - (spareUsed c bank + 1)
        let v := (u.countSat (CS_REPAIRS_COUNT p) 1).set (CS_REPAIR_SPARE_MIN p) (min left (s.get (CS_REPAIR_SPARE_MIN p)))
        v.report { code := 0x010F, level := 0, kind := 1, die := dieOfCore p, sub := sub, detail := row }
      else
        let u := (t.setCore p { c with rows := rest }).report
          { code := 0x0110, level := 0, kind := 1, die := dieOfCore p, sub := sub, detail := row }
        -- DETAIL bit 63 of the core record marks a substitution candidate (R451)
        u.setWord (coreErr p + 16) (u.word (coreErr p + 16) ||| BitVec.ofNat 64 (2 ^ 63))

def execCsRowRepair (p : Fin 144) (s : State) : Host.Outcome State Fault Refusal := .next (s.live (csRowRepair p))

/-- A parity error in sequencer decode state, counters or slot state fences the core (R430, DETAIL 1). -/
def coreFault (p : Nat) (s : State) : State := fenceCore p cCoreFault 1 s

def execCoreFault (p : Fin 144) (s : State) : Host.Outcome State Fault Refusal := .next (s.live (coreFault p))

end Sys2Proof.Machine
end

