-- ==== Sys2Proof/Machine/Access.lean ====
section
/-!
DEFINITION. Access to HBM and core store by offset: what an offset reaches (R260), partition keys and windows (R261,
R262), frame states (R298, R300), fences (R431), poison (R69, R296), and the bytes and granules that a stack counts
(R312, R317). An access is one step, which moves its bytes; it stands in INFLIGHT until the next tick (R299; log entry 11).
-/
namespace Sys2Proof.Machine

/-! Status codes of transactions and memory (R282, R293, R316). -/
def cVtWindow : Nat := 0x0501
def cRemoteTimeout : Nat := 0x0502
def cVtKey : Nat := 0x0503
def cVtPerm : Nat := 0x0504
def cVtAlign : Nat := 0x0505
def cVtPoison : Nat := 0x0506
def cVtResidue : Nat := 0x0507
def cVtDown : Nat := 0x0508
def cVtNoRoute : Nat := 0x0509
def cVtReg : Nat := 0x050A
def cVtFenced : Nat := 0x050B
def cMemUncorr : Nat := 0x0602

/-- Whether an offset is in register space (R260). -/
def inRegs (a : Nat) : Bool := decide (0x200000000000 ≤ a) && decide (a < 0x200200000000)

/-- This part's node number (R259). -/
def State.node (s : State) : Nat := s.get (VT_ID_NODE 0)

/-- Node and offset of a global address (R259). -/
def gaNode (a : Nat) : Nat := a / 2 ^ 46 % 2 ^ 18
def gaOff (a : Nat) : Nat := a % 2 ^ 46

/-- The PERM bits of R262. -/
def pR : Nat := 0
def pW : Nat := 1
def pA : Nat := 2
def pL : Nat := 3

/-- Whether window entry `i` of engine `k` is enabled and covers `n` bytes from an offset (R262). -/
def winCovers (s : State) (k off n i : Nat) : Bool :=
  s.flag (VT_WIN_A_EN k i) && decide (s.get (VT_WIN_A_BASE k i) ≤ off / 4096) &&
    decide ((off + (n - 1)) / 4096 ≤ s.get (VT_WIN_B_LIMIT k i))

/-- The key and permission check of R262: 0, or the first code that applies. -/
def windowCode (s : State) (k key perm off n : Nat) : Nat :=
  let c := (List.range 64).filter (winCovers s k off n)
  if c.isEmpty then cVtWindow
  else
    let d := c.filter (fun i => s.get (VT_WIN_B_KEY k i) == key)
    if d.isEmpty then cVtKey
    else if d.any (fun i => (s.get (VT_WIN_B_PERM k i)).testBit perm) then 0 else cVtPerm

/-- Frames that `n` bytes of HBM touch: stack and frame index. -/
def framesOf (off n : Nat) : List (Nat × Nat) :=
  (List.range ((off + (n - 1)) / frameSize - off / frameSize + 1)).map
    (fun i => (stackOf (off / frameSize * frameSize + i * frameSize), frameOf (off / frameSize * frameSize + i * frameSize)))

/-- Frame states (R298). -/
def fPlain : Nat := 0
def fVacant : Nat := 1
def fFetching : Nat := 2
def fResident : Nat := 3
def fEvicting : Nat := 4

/-- The frame check of R298 and R300: 0, VT_WINDOW or VT_PERM. -/
def frameCode (s : State) (write : Bool) (off n : Nat) : Nat :=
  let fs := framesOf off n
  if fs.any (fun f => let st := s.get (HBM_FRAME_A_STATE f.1 f.2); st == fVacant || st == fFetching || st == fEvicting) then
    cVtWindow
  else if write && fs.any (fun f => s.flag (HBM_FRAME_A_RO f.1 f.2)) then cVtPerm
  else 0

/-- Whether the store of core `p` is behind a fence (R19, R431). -/
def coreFenced (s : State) (p : Nat) : Bool := s.dieFenced (dieOfCore p) || s.get (CORE_STATUS_STATE p) == stFenced

/-- Whether a permission writes. -/
def permWrites (perm : Nat) : Bool := perm != pR

/-- The answer to an access of `n` bytes of memory by a key: 0 where it is accepted, else the refusal code (R260,
R262, R298, R300, R431). A frame that only the tier engine reaches lies, for every other access, outside every window (R298). -/
def accessCode (s : State) (k key perm off n : Nat) : Nat :=
  match inCore off n with
  | some p =>
    if (s.plotOf p).isNone then cVtWindow
    else if windowCode s k key perm off n ≠ 0 then windowCode s k key perm off n
    else if coreFenced s p then cVtFenced
    else 0
  | none =>
    if !inHbm off n || frameCode s false off n ≠ 0 then cVtWindow
    else if windowCode s k key perm off n ≠ 0 then windowCode s k key perm off n
    else if s.dieFenced (20 + stackOf off) then cVtFenced
    else frameCode s (permWrites perm) off n

/-- Counts a refusal under R298 (HBM_REFUSED). -/
def noteRefused (write : Bool) (off n : Nat) (s : State) : State :=
  if inHbm off n && frameCode s write off n == cVtWindow then s.countSat (HBM_REFUSED_COUNT (stackOf off)) 1 else s

/-! Accepted accesses. -/

/-! What a stack's controller keeps of an access. -/

/-- Hidden state of the controller of stack `m`. -/
def State.hbm (s : State) (m : Nat) : HbmHid := Tab.get (fun _ => ({} : HbmHid)) s.hbms m
def State.setHbm (s : State) (m : Nat) (h : HbmHid) : State := { s with hbms := Tab.set (fun _ => ({} : HbmHid)) s.hbms m h }

/-- INFLIGHT of frame `f` of stack `m` (R299). -/
def inflight (s : State) (m f : Nat) : Nat := Tab.get (fun _ => 0) (s.hbm m).flight f

/-- An accepted access of HBM raises the INFLIGHT of its frames; at 4,095 it is accepted as an earlier one completes (R299). -/
def accept (off n : Nat) (s : State) : State :=
  (framesOf off n).foldl (fun t f =>
    let h := t.hbm f.1
    t.setHbm f.1 { h with flight := Tab.set (fun _ => 0) h.flight f.2 (min 4095 (inflight t f.1 f.2 + 1)) }) s

/-- Row of a stack offset (R450). -/
def hbmRow (a : Nat) : Nat := a % stackSize / 2048

/-- One word found correctable (R296). -/
def hbmCorr (m a : Nat) (s : State) : State :=
  let h := s.hbm m
  ((s.countSat (HBM_ECC_CORR_COUNT m) 1).raise (HBM_ECC_STAT_CORR m)).setHbm m { h with corr := h.corr ++ [(hbmRow a, s.alm)] }

/-- One word found uncorrectable: it is poisoned (R296). -/
def hbmUncorr (m a : Nat) (s : State) : State :=
  let h := s.hbm m
  let t := ((poisonWord a s).raise (HBM_ECC_STAT_UNCORR m)).set (HBM_ECC_STAT_LAST_ADDR m) (a % stackSize / 64)
  t.setHbm m { h with bad := h.bad.filter (fun r => r != hbmRow a) ++ [hbmRow a] }

/-- The words of stack `m` among `n` bytes from an offset whose code no longer matches, as word numbers of the stack. -/
def flipsIn (m off n : Nat) (s : State) : Tab Bool :=
  (s.hbm m).flips.filter (fun x =>
    decide (off / 8 ≤ m * (stackSize / 8) + x.1) && decide (n ≠ 0) && decide (m * (stackSize / 8) + x.1 ≤ (off + (n - 1)) / 8))

/-- What an accepted read of stack `m` finds: each such word is corrected, or poisoned (R296). -/
def findIn (m off n : Nat) (s : State) : State :=
  let h := s.hbm m
  (flipsIn m off n s).foldl (fun t x =>
    let a := m * stackSize + 8 * x.1
    if t.poisoned a then t else if x.2 then hbmUncorr m a t else hbmCorr m a t)
    (if (flipsIn m off n s).isEmpty then s else s.setHbm m { h with flips := h.flips.filter (fun x => !(flipsIn m off n s).contains x) })

/-- What an accepted read of HBM finds (R296). -/
def hbmFind (off n : Nat) (s : State) : State :=
  if inHbm off n then
    (List.range (stackOf (off + (n - 1)) - stackOf off + 1)).foldl (fun t i => findIn (stackOf off + i) off n t) s
  else s

/-- Words written whole carry a fresh code (R296). -/
def dropFlips (off n : Nat) (s : State) : State :=
  let m := stackOf off
  let h := s.hbm m
  let keep := h.flips.filter (fun x =>
    let a := m * stackSize + 8 * x.1
    !(decide (off ≤ a) && decide (a + 8 ≤ off + n)))
  if keep.length = h.flips.length then s else s.setHbm m { h with flips := keep }

/-- One or more bits of word `w` of a stack turn over; a second one in the word makes it uncorrectable (R296). -/
def flipWord (w : Nat) (two : Bool) (t : Tab Bool) : Tab Bool :=
  Tab.insert w (two || t.any (fun x => x.1 == w)) (Tab.erase w t)

/-- A stack's cycle: its accesses complete (R299), and a word of it may go wrong, which the spec leaves open (R296; log entry 54). -/
def hbmCycle (s : State) (m : Nat) : State :=
  let h := s.hbm m
  s.setHbm m { h with
    flight := []
    flips := match Config.hbmUpset m s.fc with
      | none => h.flips
      | some w => flipWord (w.1 % 2 ^ 33) w.2 h.flips }

/-- Granules of 256 bytes that an access touches (R312). -/
def granules (off n : Nat) : Nat := if n = 0 then 0 else (off + (n - 1)) / 256 - off / 256 + 1

/-- Granules of an access that lie beyond the allowance of its consumer in this window; an unreserved access has none (R310, R312). -/
def beyond (cons : Option Nat) (off n : Nat) (s : State) : Nat :=
  let g := granules off n
  match cons with
  | some c =>
    if c < 24 then min g (s.get (HBM_RSV_USED (stackOf off) c) + g - s.get (HBM_RSV_ALLOW (stackOf off) c)) else g
  | none => g

/-- Charges granules to one of the 24 consumers of a stack (R310, R312); none is unreserved. -/
def chargeTo (cons : Option Nat) (off n : Nat) (s : State) : State :=
  match cons with
  | some c => if c < 24 then s.count (HBM_RSV_USED (stackOf off) c) (granules off n) else s
  | none => s

/-- Charges an access; what is beyond its consumer's allowance waits where the stack has accesses in flight (R312; log entry 55). -/
def charge (cons : Option Nat) (off n : Nat) (s : State) : State :=
  let t := chargeTo cons off n s
  if (s.hbm (stackOf off)).flight.isEmpty then t else t.count (HBM_DEFER_COUNT (stackOf off)) (beyond cons off n s)

/-- Sets the DIRTY bits of the RESIDENT frames that a write touches (R300). -/
def dirty (off n : Nat) (s : State) : State :=
  (List.range (if n = 0 then 0 else (off + (n - 1)) / 65536 - off / 65536 + 1)).foldl
    (fun t i =>
      let a := (off / 65536 + i) * 65536
      let f := HBM_FRAME_A_DIRTY (stackOf a) (frameOf a)
      if t.get (HBM_FRAME_A_STATE (stackOf a) (frameOf a)) = fResident then
        t.set f (t.get f ||| 2 ^ (a % frameSize / 65536))
      else t) s

/-- Accounting of a read. -/
def noteRead (cons : Option Nat) (off n : Nat) (s : State) : State :=
  if inHbm off n then accept off n ((charge cons off n s).count (HBM_RD_BYTES_COUNT (stackOf off)) n) else s

/-- Accounting of a write. -/
def noteWrite (cons : Option Nat) (off n : Nat) (s : State) : State :=
  if inHbm off n then accept off n (dropFlips off n ((charge cons off n s).count (HBM_WR_BYTES_COUNT (stackOf off)) n)) else s

/-- An accepted write. -/
def memWrite (cons : Option Nat) (off : Nat) (bs : List Byte) (s : State) : State :=
  let t := noteWrite cons off bs.length (storeBytes off bs s)
  if inHbm off bs.length then dirty off bs.length t else t

/-- The error value of R281. -/
def errVal (code : Nat) : Nat := 0x7FF4000000000000 + code % 256

/-- `n` bytes of error values. -/
def errBytes (code n : Nat) : List Byte := (List.range (n / 8)).flatMap (fun _ => toBytes 8 (errVal code))

/-- The data of an accepted load of 8-byte words: a poisoned word reads as the error value (R275). -/
def loadData (s : State) (off n : Nat) : List Byte :=
  (List.range (n / 8)).flatMap (fun i =>
    if s.poisoned (off + 8 * i) then toBytes 8 (errVal cVtPoison) else s.bytes (off + 8 * i) 8)

/-! Accesses by the units of a routing die. -/

/-- The agent of an access: the engine whose tables check it, its key, and the consumer it is charged to. -/
structure Who where
  k : Nat
  key : Nat
  cons : Option Nat := none
deriving DecidableEq, Repr

/-- Reads `n` bytes for a unit: 0 with the bytes, or a refusal code or MEM_UNCORR (R262, R296). -/
def unitRead (w : Who) (off n : Nat) (s : State) : Nat × List Byte × State :=
  if n = 0 then (0, [], s)
  else
    let c := accessCode s w.k w.key pR off n
    if c ≠ 0 then (c, [], noteRefused false off n s)
    else
      let t := hbmFind off n s
      if t.anyPoison off n then (cMemUncorr, [], noteRead w.cons off n t)
      else (0, s.bytes off n, noteRead w.cons off n t)

/-- Writes bytes for a unit; a write that the checks refuse is discarded (log entry 12). -/
def unitWrite (w : Who) (off : Nat) (bs : List Byte) (s : State) : State :=
  if bs.isEmpty then s
  else if accessCode s w.k w.key pW off bs.length ≠ 0 then noteRefused true off bs.length s
  else memWrite w.cons off bs s

/-- Physical core of a logical index (R16). -/
def physOf (s : State) (l : Nat) : Option Nat :=
  (List.range 144).find? (fun p => !s.flag (CORE_ID_FALLOW p) && s.get (CORE_ID_LOGICAL p) == l)

/-- Whether a logical core can take an arrival: it exists in a plot and is not fenced. -/
def coreReachable (s : State) (l : Nat) : Bool :=
  match physOf s l with
  | some p => (s.plotOf p).isSome && !coreFenced s p
  | none => false

/-- An increment arrival at a logical core's counter (R81). -/
def arriveLogical (l ctr inc : Nat) (s : State) : State :=
  match physOf s l with
  | some p => if coreReachable s l then arriveInc p ctr inc s else s
  | none => s

/-- Words of 64 bits of a byte string. -/
def wordsOf (bs : List Byte) (n : Nat) : List Nat := (List.range n).map (fun i => ofBytes ((bs.drop (8 * i)).take 8))

/-- A list of 64-bit words as bytes. -/
def bytesOfWords (ws : List Nat) : List Byte := ws.flatMap (toBytes 8)

end Sys2Proof.Machine
end

