-- ==== Sys2Proof/Machine/VtSend.lean ====
section
/-!
DEFINITION. The source side of the transaction engines (10_fabric_transactions): route tables and the spray set (R278,
R279), send contexts, PSNs and transmission (R270 to R272, R274), completion of requests (R267, R273, R281).
-/
namespace Sys2Proof.Machine

/-- VL_STATE.STATE values (R258). -/
def vlDisabled : Nat := 0
def vlAbsent : Nat := 1
def vlTraining : Nat := 2
def vlHello : Nat := 3
def vlUp : Nat := 4
def vlDown : Nat := 5

/-- Hidden state of port `n`. -/
def State.link (s : State) (n : Nat) : LinkHid := Tab.get (fun _ => ({} : LinkHid)) s.links n

/-- Replaces the hidden state of port `n`. -/
def State.setLink (s : State) (n : Nat) (l : LinkHid) : State :=
  { s with links := Tab.set (fun _ => ({} : LinkHid)) s.links n l }

/-- Hands a packet to a port: express for LC, normal for BE (R238). -/
def toPort (n : Nat) (p : Packet) (s : State) : State :=
  let l := s.link n
  if p.h.cls = 0 then s.setLink n { l with x := { l.x with queue := l.x.queue ++ [p] } }
  else s.setLink n { l with n := { l.n with queue := l.n.queue ++ [p] } }

/-- Routing die whose link die carries a port (R15). -/
def portDie (n : Nat) : Nat := if n < 15 then n / 4 else n - 15

/-- Raises a code in an engine's VT_LAST (R294). -/
def vtLast (k code node off : Nat) (s : State) : State :=
  ((s.set (VT_LAST_CODE k) code).set (VT_LAST_NODE k) node).set (VT_LAST_OFF_OFFSET k) off

/-- A warning of an engine: its record and VT_LAST (R293, R443). -/
def vtWarn (k code node detail : Nat) (irq : Fld) (s : State) : State :=
  ((vtLast k code node 0 s).raise irq).report
    { code := code, level := 0, kind := 1, die := 16 + k, sub := 5, detail := detail }

/-! Route tables and paths (R278, R283, R285, R287). -/

/-- A local or board entry of a table. -/
def RouteTab.l (r : RouteTab) (q : Nat) : Nat := Tab.get (fun _ => 0) r.loc q
def RouteTab.b (r : RouteTab) (b : Nat) : Nat := Tab.get (fun _ => 0) r.board b

/-- The mesh port whose peer is a node (R259): one that the structure image enables, else one whose peer it names; an
IMG register that the image leaves out reads zero and names none (R400; log entry 45). -/
def peerPort (s : State) (node : Nat) : Option Nat :=
  match (List.range 15).find? (fun n => s.flag (VL_CTRL_ENABLE n) && s.get (VL_EXPECT_NODE n) == node) with
  | some n => some n
  | none => (List.range 15).find? (fun n => s.get (VL_EXPECT_NODE n) == node && s.word (VL_EXPECT_NODE n).addr != 0)

/-- The node number that stands for the switch of UPk in the pairs of engine `k`: no part has it (R259; log entry 25). -/
def swNode : Nat := 2 ^ 18

/-- The node that a header names for a pair's far end: a packet for a switch, or from it, bears this part's own node
(log entry 25). -/
def hdrNode (s : State) (node : Nat) : Nat := if node = swNode then s.node else node

/-- Whether an element, or the whole node of it, is dead (R287). -/
def elemDead (s : State) (node port : Nat) : Bool :=
  s.vt.dead.any (fun d => d.node == node && (d.port == port || d.port == 31))

/-- Whether the mesh link between two other parts has a dead end. -/
def linkDead (s : State) (a b : Nat) : Bool :=
  s.vt.dead.any (fun d => (d.node == a && (d.target == b || d.port == 31)) || (d.node == b && (d.target == a || d.port == 31)))

/-- Weight of a port: its width while UP (R278). -/
def portWidth (s : State) (n : Nat) : Nat := if s.get (VL_STATE_STATE n) = vlUp then s.get (VL_STATE_TX_WIDTH n) else 0

/-- Paths within the board, by the local entry of a destination (R278). -/
def boardPaths (s : State) (e dst : Nat) : List (Path × Nat) :=
  let me := s.node
  let direct := match peerPort s dst with
    | some n =>
      if elemDead s me n || elemDead s dst (s.get (VL_EXPECT_PORT n)) then []
      else [(Path.direct n, bitsOf e 0 4 * portWidth s n)]
    | none => []
  let relay := (List.range 16).filterMap (fun q =>
    let r := dst / 16 * 16 + q
    if !(bitsOf e 8 16).testBit q || r == me || r == dst then none
    else
      match peerPort s r with
      | some n =>
        if elemDead s me n || elemDead s r (s.get (VL_EXPECT_PORT n)) || linkDead s r dst then none
        else some (Path.relay n r, bitsOf e 4 4 * portWidth s n)
      | none => none)
  direct ++ relay

/-- Paths to another board, by its board entry (R278). -/
def uplinkPaths (s : State) (e dst : Nat) : List (Path × Nat) :=
  (List.range 4).filterMap (fun p =>
    if elemDead s s.node (15 + p) || elemDead s dst (15 + p) then none
    else some (Path.up (15 + p), bitsOf e (4 * p) 4 * portWidth s (15 + p)))

/-- The spray set of a destination under a table (R278); empty where the entry is not VALID. -/
def spraySet (s : State) (r : RouteTab) (dst : Nat) : List (Path × Nat) :=
  if dst = s.node then [(.own, 1)]
  else if dst / 16 = s.node / 16 then
    (if bitOf (r.l (dst % 16)) 24 then (boardPaths s (r.l (dst % 16)) dst).filter (fun p => p.2 != 0) else [])
  else if bitOf (r.b (dst / 16)) 16 then (uplinkPaths s (r.b (dst / 16)) dst).filter (fun p => p.2 != 0) else []

/-- The one path of engine `k`'s plane: UPk, while it is UP (R213, R218). -/
def planeSet (s : State) (k : Nat) : List (Path × Nat) :=
  if portWidth s (15 + k) = 0 || elemDead s s.node (15 + k) then [] else [(.up (15 + k), portWidth s (15 + k))]

/-- The paths to a pair's far end under the current table. -/
def pathSet (s : State) (plane : Bool) (k node : Nat) : List (Path × Nat) :=
  if plane || node == swNode then planeSet s k else spraySet s s.vt.rcur node

/-- The path in a list with the greatest credit, the first among equals. -/
def bestPath : List (Path × Nat × Int) → Option (Path × Nat × Int)
  | [] => none
  | p :: ps =>
    match bestPath ps with
    | none => some p
    | some q => if p.2.2 < q.2.2 then some q else some p

/-- Smooth weighted round robin (R279): the path taken and the credits after it. A changed set starts from zero. -/
def wrrPick (set : List (Path × Nat)) (cur : List (Path × Nat × Int)) : Option (Path × List (Path × Nat × Int)) :=
  let base := if cur.map (fun p => (p.1, p.2.1)) = set then cur else set.map (fun p => (p.1, p.2, (0 : Int)))
  let total : Int := (base.foldl (fun a p => a + p.2.1) 0 : Nat)
  let up := base.map (fun p => (p.1, p.2.1, p.2.2 + (p.2.1 : Int)))
  match bestPath up with
  | none => none
  | some b => some (b.1, up.map (fun p => if p.1 = b.1 then (p.1, p.2.1, p.2.2 - total) else p))

/-- A packet has come in and waits to be processed by the engine of its stream. -/
def arrive (v : Via) (p : Packet) (s : State) : State :=
  { (s.count (VT_RX_PKTS_COUNT p.h.stream) 1) with vt := { s.vt with recv := s.vt.recv ++ [(v, p)] } }

/-- Sends a packet on a path. A node under NODE_DOWN gets nothing (R289). -/
def transmit (k : Nat) (path : Path) (p : Packet) (s : State) : State :=
  if s.vt.down.contains p.h.dst then s
  else
    let t := s.count (VT_TX_PKTS_COUNT k) 1
    match path.port with
    | none => arrive .own p t
    | some n => toPort n p t

/-- Sends a packet that is not sequenced to the far end of a pair: any path of the set, a free choice (log entry 14). -/
def sendFree (k node : Nat) (p : Packet) (s : State) : State :=
  let set := pathSet s false k node
  if set.isEmpty then s
  else
    let d := s.drawWord
    match set[d.1.toNat % set.length]? with
    | some q => transmit k q.1 p d.2
    | none => s

/-! Contexts and completion. -/

/-- PSN order modulo 2^32: whether `a` is before `b`. -/
def psnLt (a b : Nat) : Bool := let d := (b + 2 ^ 32 - a) % 2 ^ 32; d != 0 && decide (d < 2 ^ 31)

/-- The send context of a pair that is not closing. -/
def sendCtx (s : State) (k node : Nat) : Option SendCtx := s.vt.send.find? (fun c => c.k == k && c.node == node)

/-- Counts packets last sent under the old epoch and unacknowledged (R284). -/
def oldInflight (s : State) : Nat :=
  s.vt.send.foldl (fun a c => a + (c.out.filter (fun o => !o.acked && o.pkt.h.epoch == s.get (VT_EPOCH_OLD c.k))).length) 0

/-- Shows VT_OLD_INFLIGHT on the four engines (R284): the count while the headland window is open. -/
def showInflight (s : State) : State :=
  (List.range 4).foldl (fun t k => t.set (VT_OLD_INFLIGHT_COUNT k) (if t.flag (VT_EPOCH_WINDOW k) then oldInflight s else 0)) s

/-- VT_OLD_INFLIGHT follows the send contexts while the window is open. -/
def noteInflight (s : State) : State := if s.flag (VT_EPOCH_WINDOW 0) then showInflight s else s

/-- Replaces the send context of a pair. -/
def putSend (c : SendCtx) (s : State) : State :=
  noteInflight { s with vt := { s.vt with send := s.vt.send.map (fun d => if d.k == c.k && d.node == c.node then c else d) } }

/-- Removes the send context of a pair. -/
def dropSend (k node : Nat) (s : State) : State :=
  if s.vt.send.any (fun d => d.k == k && d.node == node) then
    let t := { s with vt := { s.vt with send := s.vt.send.filter (fun d => !(d.k == k && d.node == node)) } }
    noteInflight (t.set (VT_STATUS_SCTX k) (s.get (VT_STATUS_SCTX k) - 1))
  else s

/-- The credits of every context whose set or a weight of it has changed go back to zero (R279). -/
def refreshSpray (s : State) : State :=
  { s with vt := { s.vt with send := s.vt.send.map (fun c =>
      let set := pathSet s false c.k c.node
      if c.spray.map (fun p => (p.1, p.2.1)) = set then c else { c with spray := set.map (fun p => (p.1, p.2, (0 : Int))) }) } }

/-- The path of a transmission (R279), and the context with its credits after it: a packet of one plane takes UPk and
moves no credit. -/
def pickPath (s : State) (plane : Bool) (c : SendCtx) : Option (Path × SendCtx) :=
  let set := pathSet s plane c.k c.node
  if plane then (match set with | q :: _ => some (q.1, c) | [] => none)
  else
    match wrrPick set c.spray with
    | none => none
    | some (path, cur) => some (path, { c with spray := cur })

/-- A MOVE request has completed (R267, R273): DONECTR advances when the last one has, and none failed. -/
def xferStep (xid status : Nat) (s : State) : State :=
  match s.vt.xfers.find? (fun x => x.xid == xid) with
  | none => s
  | some x =>
    let y := { x with left := x.left - 1, bad := x.bad || status != 0 }
    let rest := s.vt.xfers.filter (fun z => z.xid != xid)
    if y.left = 0 then
      let t := { s with vt := { s.vt with xfers := rest } }
      if y.bad || !y.en || coreFenced s y.core then t else arriveInc y.core y.ctr y.inc t
    else { s with vt := { s.vt with xfers := rest ++ [y] } }

/-- A request completes at its issuer with a STATUS and a result (R268, R273, R275). -/
def completeReq (k : Nat) (agent : Agent) (status res psn gen : Nat) (s : State) : State :=
  match agent with
  | .move x => xferStep x status s
  | .none => s
  | _ => { s with vt := { s.vt with done := s.vt.done ++ [⟨agent, k, status, res, psn, gen⟩] } }

/-- Writes a LOAD's data, or error values, where the load lands (R266, R275, R281). -/
def landLoad (land : Option (Nat × Nat)) (bs : List Byte) (s : State) : State :=
  match land with
  | some (p, a) => if coreFenced s p then s else storeBytes (csOffset p a) bs s
  | none => s

/-- A request refused at its source (R266, R278): it completes as a refused request does. -/
def refuseAtSource (k : Nat) (agent : Agent) (p : Packet) (land : Option (Nat × Nat)) (code : Nat) (s : State) : State :=
  let t := (vtLast k code p.h.dst p.h.offset s).raise (VT_IRQ_REFUSED k)
  let t := if p.h.kind = kLoad then landLoad land (errBytes code p.h.size) t else t
  completeReq k agent code (if p.h.kind = kLoad then errVal code else 0) 0 0 t

/-- Requests of engine `k` not completed, by number. -/
def earlierOpen (s : State) (k rid : Nat) : Bool :=
  s.vt.send.any (fun c => c.k == k && c.out.any (fun o => decide (o.rid < rid))) ||
    s.vt.waiting.any (fun w => w.k == k && decide (w.rid < rid))

/-- Whether a waiting request can be sent now (R270, R274, R277, R294). -/
def sendable (s : State) (w : WaitReq) : Bool :=
  s.flag (VT_CTRL_ENABLE w.k) && !(w.pkt.h.flagG == 1 && earlierOpen s w.k w.rid) &&
    (match sendCtx s w.k w.node with
     | some c =>
       !c.closing && decide (c.out.length < 4096) &&
         (w.pkt.h.kind != kAtomic ||
           decide ((c.out.filter (fun o => o.pkt.h.kind == kAtomic && !o.answered)).length < 256))
     | none => decide ((s.vt.send.filter (fun c => c.k == w.k)).length < 4096))

/-- The lowest PSN whose atomic result has not come back (RACK, R264). -/
def rackOf (c : SendCtx) : Nat :=
  match c.out.find? (fun o => o.pkt.h.kind == kAtomic && !o.answered) with
  | some o => o.psn
  | none => c.next

/-- The pair's context, opened with the next GEN where there is none (R270). -/
def openSend (k node : Nat) (s : State) : SendCtx × State :=
  match sendCtx s k node with
  | some c => (c, s)
  | none =>
    let key := k * 2 ^ 19 + node
    let g := Tab.get (fun _ => 0) s.vt.gens key
    let c : SendCtx := { k := k, node := node, gen := g }
    let t := { s with vt := { s.vt with send := s.vt.send ++ [c],
                                        gens := Tab.set (fun _ => 0) s.vt.gens key ((g + 1) % 256) } }
    (c, t.set (VT_STATUS_SCTX k) (s.get (VT_STATUS_SCTX k) + 1))

/-- Sends a request for the first time: it takes a PSN of its pair and a path (R264, R271, R272, R279). A set that has
become empty refuses it (R278). -/
def sendReq (w : WaitReq) (s : State) : State :=
  if (pathSet s w.plane w.k w.node).isEmpty then refuseAtSource w.k w.agent w.pkt w.land cVtNoRoute s
  else
    let o := openSend w.k w.node s
    match pickPath s w.plane o.1 with
    | none => s
    | some (path, c) =>
      let h := { w.pkt.h with src := s.node, dst := hdrNode s w.node, stream := w.k, gen := c.gen, psn := c.next,
                              opn := (if c.next = 0 ∧ c.issued = 0 then 1 else 0), epoch := s.get (VT_EPOCH_CUR w.k),
                              ts := s.alm % 2 ^ 32, rack := rackOf c, flag := max w.pkt.h.flag w.pkt.h.flagG }
      let p := ({ w.pkt with h := h } : Packet).sized
      let r : OutReq := { rid := w.rid, psn := c.next, agent := w.agent, pkt := p, path := path, land := w.land,
                          plane := w.plane }
      transmit w.k path p
        (putSend { c with key := w.pkt.h.key, next := (c.next + 1) % 2 ^ 32, issued := (c.issued + 1) % 2 ^ 32, out := c.out ++ [r] }
          o.2)

/-- Sends every waiting request that can go, oldest first; a request held under FLAG_G goes when FLAG_G_RELEASE finds
it free (R274). -/
def pumpList : List WaitReq → State → State
  | [], s => s
  | w :: ws, s =>
    if w.pkt.h.flagG = 0 && sendable s w then
      pumpList ws (sendReq w { s with vt := { s.vt with waiting := s.vt.waiting.filter (fun v => !(v.k == w.k && v.rid == w.rid)) } })
    else pumpList ws s

/-- Sends what can be sent. -/
def pump (s : State) : State := pumpList s.vt.waiting s

/-- Issues one request: it joins the requests of its stream and is sent at once where nothing holds it; `plane` keeps it
on the uplink of the engine's plane. -/
def vtIssueOn (plane : Bool) (k node : Nat) (agent : Agent) (p : Packet) (land : Option (Nat × Nat)) (s : State) : State :=
  let rid := s.vt.nextRid
  let w : WaitReq := { k := k, rid := rid, node := node, agent := agent,
                       pkt := { p with h := { p.h with dst := hdrNode s node } }, land := land, plane := plane }
  let t := { s with vt := { s.vt with nextRid := rid + 1 } }
  if sendable { t with vt := t.vt } w && (w.pkt.h.flagG = 0 || !earlierOpen t k rid) then sendReq w t
  else { t with vt := { t.vt with waiting := t.vt.waiting ++ [w] } }

/-- Issues one request on any path of its spray set. -/
def vtIssue (k node : Nat) (agent : Agent) (p : Packet) (land : Option (Nat × Nat)) (s : State) : State :=
  vtIssueOn false k node agent p land s

/-- Removes a completed packet from its context and counts it (R272). -/
def finishOut (k node psn : Nat) (s : State) : State :=
  match sendCtx s k node with
  | none => s
  | some c => putSend { c with completed := (c.completed + 1) % 2 ^ 32, out := c.out.filter (fun o => o.psn != psn) } s

/-- A packet of a pair is done: acknowledged, and answered where it needs an answer (R272, R273). -/
def settleReq (k node psn : Nat) (s : State) : State :=
  match sendCtx s k node with
  | none => s
  | some c =>
    match c.out.find? (fun o => o.psn == psn) with
    | none => s
    | some o =>
      if !o.acked then s
      else if (o.pkt.h.kind == kLoad || o.pkt.h.kind == kAtomic) && !o.answered then s
      else if o.pkt.h.kind = kClose then dropSend k node s
      else
        let t := finishOut k node psn s
        let t := if o.status = 0 then t else (vtLast k o.status node o.pkt.h.offset t).raise (VT_IRQ_REFUSED k)
        completeReq k o.agent o.status o.res psn c.gen t

/-- Updates one outstanding packet. -/
def mapOut (k node psn : Nat) (f : OutReq → OutReq) (s : State) : State :=
  match sendCtx s k node with
  | none => s
  | some c => putSend { c with out := c.out.map (fun o => if o.psn == psn then f o else o) } s

/-- Sends an outstanding packet again: RETX, the original PSN and GEN, the current epoch, a path of the current set
(R272, R284). An empty set sends nothing (R278). -/
def resend (k node psn : Nat) (s : State) : State :=
  match sendCtx s k node with
  | none => s
  | some c =>
    match c.out.find? (fun o => o.psn == psn) with
    | none => s
    | some o =>
      match pickPath s o.plane c with
      | none => s
      | some (path, d) =>
        let p := { o.pkt with h := { o.pkt.h with retx := 1, epoch := s.get (VT_EPOCH_CUR k), ts := s.alm % 2 ^ 32,
                                                  rack := rackOf c } }
        let t := putSend { d with out := c.out.map (fun q =>
          if q.psn == psn then { q with pkt := p, path := path, busy := false } else q) } s
        transmit k path p (t.count (VT_RETX_COUNT k) 1)

/-- Sends again every outstanding packet that a test picks. -/
def resendAll (pick : SendCtx → OutReq → Bool) (s : State) : State :=
  s.vt.send.foldl (fun t c => c.out.foldl (fun u o => if pick c o then resend c.k c.node o.psn u else u) t) s

end Sys2Proof.Machine
end

