-- ==== Sys2Proof/Machine/VtRecv.lean ====
section
/-!
DEFINITION. The destination side of the transaction engines (10_fabric_transactions): ingress (R263, R284), receive
contexts, duplicates and holding (R270, R271, R274), acknowledgements and responses (R271, R273, R275), and atomic
replay (R277).
-/
namespace Sys2Proof.Machine

/-- The transaction layer takes a packet from a port: the units of its frame go back to the peer (R243). While it leaves
packets at ingress, their credits stay out. -/
def creditBack (v : Via) (p : Packet) (s : State) : State :=
  match v with
  | .port n =>
    if p.units = 0 then s
    else
      let l := s.link n
      let back := fun (c : Chan) => { c with returned := (c.returned + p.units) % 2 ^ 24 }
      s.setLink n (if p.express then { l with x := back l.x } else { l with n := back l.n })
  | .own => s

/-- The i-th packet that waits to be processed, and the state without it. -/
def takeRecv (i : Nat) (s : State) : Option (Via × Packet × State) :=
  match s.vt.recv[i]? with
  | some (v, p) =>
    some (v, { p with units := 0 }, creditBack v p { s with vt := { s.vt with recv := s.vt.recv.eraseIdx i } })
  | none => none

/-- Whether a key stands in the key table (R263). -/
def keyKnown (s : State) (key : Nat) : Bool :=
  (List.range 64).any (fun i => s.flag (VT_KEY_EN 0 i) && s.get (VT_KEY_KEY 0 i) == key)

/-- Whether a packet's epoch is routable: current, old in an open window, or staged (R284). -/
def epochKnown (s : State) (e : Nat) : Bool :=
  e == s.get (VT_EPOCH_CUR 0) || (s.flag (VT_EPOCH_WINDOW 0) && e == s.get (VT_EPOCH_OLD 0)) ||
    (s.flag (VT_EPOCH_STAGED 0) && e == s.get (VT_EPOCH_NEXT 0))

/-- Ingress of a packet on a link port: the straggler and key checks (R263, R284). Packets of the own node come over the
package network and pass. NOTICE packets carry no plot's key: the straggler check is theirs, and R288 authenticates
them. -/
def ingress (v : Via) (p : Packet) (s : State) : Bool × State :=
  match v with
  | .own => (true, s)
  | .port n =>
    let k := portDie n
    if !epochKnown s p.h.epoch then
      (false, vtWarn k 0x050C p.h.src 0 (VT_IRQ_EPOCH_DROP k) (s.count (VT_EPOCH_DROPS_COUNT k) 1))
    else if p.h.kind ≠ kNotice && !keyKnown s p.h.key then
      (false, vtWarn k 0x050D p.h.src 0 (VT_IRQ_KEY_DROP k) (s.count (VT_KEY_DROPS_COUNT k) 1))
    else (true, s)

/-- A packet on an uplink that bears this part's own node as SRC, or the RANK of a switch, is the switch's: its pair is
that of the switch and the plane (R265; log entry 25). -/
def switchSide (s : State) (v : Via) (p : Packet) : Packet :=
  match v with
  | .port n =>
    if 15 ≤ n && (p.h.src == s.node || (p.h.kind == kColl && p.x 3 32 17 == 0x1FFFF)) then
      { p with h := { p.h with src := swNode, stream := n - 15 } }
    else p
  | .own => p

/-- The receive context of a pair. -/
def recvCtx (s : State) (k node : Nat) : Option RecvCtx := s.vt.recvCtx.find? (fun c => c.k == k && c.node == node)

/-- Replaces a receive context. -/
def putRecv (c : RecvCtx) (s : State) : State :=
  { s with vt := { s.vt with recvCtx := s.vt.recvCtx.map (fun d => if d.k == c.k && d.node == c.node then c else d) } }

/-- Whether a PSN is below HORIZON or has been applied (R271). -/
def RecvCtx.has (c : RecvCtx) (psn : Nat) : Bool := psnLt psn c.horizon || c.applied.contains psn

/-- The header of an answer to a packet. -/
def replyHdr (s : State) (p : Packet) (kind : Nat) : Hdr :=
  { kind := kind, cls := p.h.cls, epoch := s.get (VT_EPOCH_CUR p.h.stream), src := s.node, stream := p.h.stream,
    dst := hdrNode s p.h.src, gen := p.h.gen, psn := p.h.psn, key := p.h.key, ts := s.alm % 2 ^ 32 }

/-- SACK_BASE of the ACK for a packet (R271): the step of 128 PSNs from HORIZON that holds it, so that every applied PSN is
reported. -/
def sackBase (c : RecvCtx) (psn : Nat) : Nat :=
  if psnLt psn c.horizon then c.horizon else (c.horizon + (psn + 2 ^ 32 - c.horizon) % 2 ^ 32 / 128 * 128) % 2 ^ 32

/-- Bitmap of 128 PSNs from a base: those that have been applied. -/
def sackBits (c : RecvCtx) (base : Nat) : Nat :=
  (List.range 128).foldl (fun m i => if c.has ((base + i) % 2 ^ 32) then m + 2 ^ i else m) 0

/-- Sends an ACK for a pair (R264, R271). -/
def sendAck (p : Packet) (s : State) : State :=
  match recvCtx s p.h.stream p.h.src with
  | none => s
  | some c =>
    let base := sackBase c p.h.psn
    let h := { replyHdr s p kAck with horizon := c.horizon, sackBase := base, operand := sackBits c base }
    sendFree p.h.stream p.h.src { h := h } s

/-- Sends a NACK: a refusal code (R273), or BUSY with OP 0xF (R270). -/
def sendNack (p : Packet) (status op : Nat) (s : State) : State :=
  sendFree p.h.stream p.h.src { h := { replyHdr s p kNack with status := status, op := op } } s

/-- Sends a response with data or a result (R264, R275, R277). -/
def sendRsp (p : Packet) (kind status : Nat) (data : List Byte) (res : Nat) (s : State) : State :=
  sendFree p.h.stream p.h.src
    ({ h := { replyHdr s p kind with status := status, operand := res }, data := data } : Packet).sized s

/-- Releases packets held under FLAG whose turn has come: they wait to be processed again, past ingress (R274). -/
def releaseHeld (c : RecvCtx) (s : State) : State :=
  let ready := c.held.filter (fun q => q.2.h.psn == c.horizon)
  let t := putRecv { c with held := c.held.filter (fun q => q.2.h.psn != c.horizon) } s
  { t with vt := { t.vt with recv := t.vt.recv ++ ready.map (fun q => (.own, q.2)) } }

/-- HORIZON passes every applied PSN (R271). -/
def advanceHorizon : Nat → RecvCtx → RecvCtx
  | 0, c => c
  | n + 1, c =>
    if c.applied.contains c.horizon then
      advanceHorizon n { c with applied := c.applied.filter (fun x => x != c.horizon), horizon := (c.horizon + 1) % 2 ^ 32 }
    else c

/-- A packet has been applied, or its refusal decided: it is marked and acknowledged at once (R271, R273). -/
def vtApplied (p : Packet) (s : State) : State :=
  match recvCtx s p.h.stream p.h.src with
  | none => s
  | some c =>
    let c1 := { c with applied := c.applied ++ [p.h.psn], count := (c.count + 1) % 2 ^ 32 }
    sendAck p (releaseHeld (advanceHorizon 4096 c1) s)

/-- A packet has been refused: HORIZON advances past it, and the NACK that carries the code answers it (R273). -/
def vtRefused (p : Packet) (code : Nat) (s : State) : State :=
  match recvCtx s p.h.stream p.h.src with
  | none => s
  | some c =>
    let c1 := { c with applied := c.applied ++ [p.h.psn], count := (c.count + 1) % 2 ^ 32 }
    sendNack p code 0 (releaseHeld (advanceHorizon 4096 c1) s)

/-- What a received sequenced packet is (R270, R271, R274). -/
inductive RxKind where
  | gone (s : State)
  | again (p : Packet) (s : State)
  | fresh (p : Packet) (s : State)

/-- Frees the replay table of a source stream at an engine (R277). -/
def freeTab (k node : Nat) (s : State) : State :=
  if s.vt.tabs.any (fun t => t.k == k && t.node == node) then
    let t := { s with vt := { s.vt with tabs := s.vt.tabs.filter (fun t => !(t.k == k && t.node == node)) } }
    t.set (VT_STATUS_RTAB k) (s.get (VT_STATUS_RTAB k) - 1)
  else s

/-- A receive context for a pair's new generation (R270). -/
def openRecv (p : Packet) (s : State) : State :=
  let k := p.h.stream
  let c : RecvCtx := { node := p.h.src, k := k, gen := p.h.gen }
  match recvCtx s k p.h.src with
  | some _ => freeTab k p.h.src (putRecv c s)
  | none =>
    let t := { s with vt := { s.vt with recvCtx := s.vt.recvCtx ++ [c] } }
    t.set (VT_STATUS_RCTX k) (s.get (VT_STATUS_RCTX k) + 1)

/-- Whether an OPEN takes over or makes the context: 0 the context stands, 1 it opens one, 2 BUSY, 3 stale (R270). -/
def openCase (s : State) (p : Packet) : Nat :=
  match recvCtx s p.h.stream p.h.src with
  | some c =>
    if c.gen = p.h.gen then 0
    else if p.h.opn = 1 ∧ 1 ≤ (p.h.gen + 256 - c.gen) % 256 ∧ (p.h.gen + 256 - c.gen) % 256 ≤ 127 then 1
    else 3
  | none =>
    if p.h.opn = 0 then 3
    else if (s.vt.recvCtx.filter (fun c => c.k == p.h.stream)).length < 4096 then 1
    else 2

/-- Sorts a packet into duplicate, held and fresh within its context. -/
def sortPsn (v : Via) (p : Packet) (s : State) : RxKind :=
  match recvCtx s p.h.stream p.h.src with
  | none => RxKind.gone s
  | some c =>
    if c.has p.h.psn then .again p (sendAck p (s.count (VT_DUPS_COUNT p.h.stream) 1))
    else if p.h.flag = 1 ∧ p.h.psn ≠ c.horizon then
      -- a copy of a held packet is not held twice
      if c.held.any (fun q => q.2.h.psn == p.h.psn) then .gone s
      else .gone (putRecv { c with held := c.held ++ [(v, p)] } s)
    else .fresh p s

/-- Frees entries below the RACK of any packet of the pair (R277). -/
def rackFree (p : Packet) (s : State) : State :=
  { s with vt := { s.vt with tabs := s.vt.tabs.map (fun t =>
      if t.k == p.h.stream && t.node == p.h.src then
        { t with entries := t.entries.filter (fun e => !psnLt e.1 p.h.rack) } else t) } }

/-- Receives the i-th waiting packet when it is of a kind, for this node, and its sender is not a discarded one: the
packet with the state in which it is to be applied. The test `ok` picks the packets a command acts on. -/
def vtTake (ok : Packet → Bool) (i : Nat) (s : State) : RxKind :=
  match takeRecv i s with
  | none => .gone s
  | some (v, p, t) =>
    if !(p.valid && p.h.dst == s.node && ok p) then .gone s
    else
      let g := ingress v p t
      let p := switchSide s v p
      if !g.1 then .gone g.2
      else
        match openCase g.2 p with
        | 0 => sortPsn v p (rackFree p g.2)
        | 1 => sortPsn v p (openRecv p g.2)
        | 2 => .gone (sendNack p 0 0xF g.2)
        | _ => .gone (g.2.count (VT_STALE_COUNT p.h.stream) 1)

/-- Receives the i-th waiting packet of an unsequenced kind; one that ingress discards comes out with KIND 0. -/
def vtTakeReply (ok : Packet → Bool) (i : Nat) (s : State) : Option (Packet × State) :=
  match takeRecv i s with
  | none => none
  | some (v, p, t) =>
    if !(p.valid && p.h.dst == s.node && ok p) then none
    else
      let g := ingress v p t
      some (if g.1 then switchSide s v p else ({ p with h := { p.h with kind := 0 } } : Packet), g.2)

/-- The plot that carries a partition key (R310). -/
def plotOfKey (s : State) (key : Nat) : Option Nat := s.plots.findIdx? (fun q => q.en && q.pkey == key)

/-- Who a received packet acts for. -/
def whoOf (s : State) (p : Packet) : Who := { k := p.h.stream, key := p.h.key, cons := plotOfKey s p.h.key }

/-- The counter arrival that a packet carries, after its data (R264, R271). -/
def arriveOf (p : Packet) (s : State) : State :=
  if p.h.arrEn = 1 then arriveLogical p.h.lcore p.h.ctr p.h.inc s else s

/-- The check of a received access to memory: R262 with the permission of its kind, and L where it carries a counter
update. -/
def packetCode (s : State) (p : Packet) (perm n : Nat) : Nat :=
  let c := accessCode s p.h.stream p.h.key perm p.h.offset n
  if c ≠ 0 then c
  else if p.h.arrEn = 1 then accessCode s p.h.stream p.h.key pL p.h.offset n else 0

/-! Atomics (R276, R277). -/

/-- The replay table of a stream. -/
def replayTab (s : State) (k node : Nat) : Option ReplayTab := s.vt.tabs.find? (fun t => t.k == k && t.node == node)

/-- Binds a table to a stream at its first atomic; false where there is no free table or entry (R277). -/
def bindTab (p : Packet) (s : State) : Bool × State :=
  match replayTab s p.h.stream p.h.src with
  | some t => (decide (t.entries.length < 256), s)
  | none =>
    if (s.vt.tabs.filter (fun t => t.k == p.h.stream)).length < 1024 then
      let t := { s with vt := { s.vt with tabs := s.vt.tabs ++ [({ node := p.h.src, k := p.h.stream } : ReplayTab)] } }
      (true, t.set (VT_STATUS_RTAB p.h.stream) (s.get (VT_STATUS_RTAB p.h.stream) + 1))
    else (false, s)

/-- Stores an atomic's outcome. -/
def storeReplay (p : Packet) (status res : Nat) (s : State) : State :=
  { s with vt := { s.vt with tabs := s.vt.tabs.map (fun t =>
      if t.k == p.h.stream && t.node == p.h.src then { t with entries := t.entries ++ [(p.h.psn, status, res)] } else t) } }

/-- A duplicate atomic returns its stored result (R277). -/
def replayAtomic (p : Packet) (s : State) : State :=
  match replayTab s p.h.stream p.h.src with
  | none => s
  | some t =>
    match t.entries.find? (fun e => e.1 == p.h.psn) with
    | some e => sendRsp p kAtomicRsp e.2.1 [] e.2.2 s
    | none => s

/-- One atomic operation: status, old value and the state after it (R276). A refused atomic reads nothing: its old value
is free (log entry 4). -/
def atomicOp (op n : Nat) (p : Packet) (s : State) : Nat × Nat × State :=
  let off := p.h.offset
  let c := packetCode s p pA n
  if c ≠ 0 then
    let d := s.drawWord
    -- a TALLY_ADD returns no old value (R268)
    (c, if op = 3 then 0 else d.1.toNat, noteRefused true off n d.2)
  else if (hbmFind off n s).anyPoison off n then (cVtPoison, errVal cVtPoison, noteRead (plotOfKey s p.h.key) off n (hbmFind off n s))
  else
    let cons := plotOfKey s p.h.key
    let old := s.readLE off n
    let t := noteRead cons off n (hbmFind off n s)
    if op = 1 then (0, old, memWrite cons off (toBytes 8 ((old + p.h.operand) % 2 ^ 64)) t)
    else if op = 2 then
      (0, old, if old = p.h.operand % 2 ^ 64 then memWrite cons off (toBytes 8 (p.h.operand / 2 ^ 64)) t else t)
    else
      let a := Tally.ofSlot old
      let b := Tally.ofSlot p.h.operand
      if a.residueOk && b.residueOk then (0, 0, memWrite cons off (toBytes 16 (Tally.slot (a.add b))) t)
      else (cVtResidue, 0, vtLast p.h.stream cResidueFault p.h.src off t)

/-- A received atomic of operation `op` on `n` bytes: performed once, its outcome kept and returned (R270, R276, R277).
A LOAD, STORE or atomic with a counter arrival applies it after its data. -/
def recvAtomic (op n i : Nat) (s : State) : State :=
  match vtTake (fun p => p.h.kind == kAtomic && p.h.op == op) i s with
  | .gone t => t
  | .again p t => replayAtomic p t
  | .fresh p t =>
    let b := bindTab p t
    if !b.1 then sendNack p 0 0xF b.2
    else
      let r := atomicOp op n p b.2
      let u := if r.1 = 0 then arriveOf p r.2.2 else r.2.2
      vtApplied p (sendRsp p kAtomicRsp r.1 [] r.2.1 (storeReplay p r.1 r.2.1 u))

def execFetchAdd (i : Nat) (s : State) : Host.Outcome State Fault Refusal := .next (s.live (recvAtomic 1 8 i))
def execCas (i : Nat) (s : State) : Host.Outcome State Fault Refusal := .next (s.live (recvAtomic 2 8 i))
def execTallyAdd (i : Nat) (s : State) : Host.Outcome State Fault Refusal := .next (s.live (recvAtomic 3 16 i))

/-! Answers that come back to a source. -/

/-- A LOAD response: the first one for its PSN delivers the data or the error values (R275). -/
def loadRsp (i : Nat) (s : State) : State :=
  match vtTakeReply (fun p => p.h.kind == kLoadRsp) i s with
  | none => s
  | some (p, t) =>
    if p.h.kind ≠ kLoadRsp then t
    else
      let k := p.h.stream
      match sendCtx t k p.h.src with
      | none => t
      | some c =>
        match c.out.find? (fun o => o.psn == p.h.psn && o.pkt.h.kind == kLoad && !o.answered) with
        | none => t
        | some o =>
          if c.gen ≠ p.h.gen then t
          else
            let u := landLoad o.land p.data (mapOut k p.h.src p.h.psn
              (fun q => { q with answered := true, status := p.h.status, res := ofBytes (p.data.take 8) }) t)
            pump (settleReq k p.h.src p.h.psn u)

def execLoadRsp (i : Nat) (s : State) : Host.Outcome State Fault Refusal := .next (s.live (loadRsp i))

/-- An atomic's response: the old value, and the source's RACK moves past it (R277). -/
def atomicRsp (i : Nat) (s : State) : State :=
  match vtTakeReply (fun p => p.h.kind == kAtomicRsp) i s with
  | none => s
  | some (p, t) =>
    if p.h.kind ≠ kAtomicRsp then t
    else
      let k := p.h.stream
      match sendCtx t k p.h.src with
      | none => t
      | some c =>
        if c.gen ≠ p.h.gen || !c.out.any (fun o => o.psn == p.h.psn && o.pkt.h.kind == kAtomic && !o.answered) then t
        else
          pump (settleReq k p.h.src p.h.psn (mapOut k p.h.src p.h.psn
            (fun q => { q with answered := true, status := p.h.status, res := p.h.operand % 2 ^ 64 }) t))

def execAtomicRsp (i : Nat) (s : State) : Host.Outcome State Fault Refusal := .next (s.live (atomicRsp i))

/-- Whether an ACK covers a PSN: below HORIZON, or its bit in the bitmap (R264, R271). -/
def ackCovers (h : Hdr) (psn : Nat) : Bool :=
  psnLt psn h.horizon ||
    (let d := (psn + 2 ^ 32 - h.sackBase) % 2 ^ 32; decide (d < 128) && h.operand.testBit d)

/-- A transaction ACK (R271, R272, R273): the packets it covers are acknowledged, and those complete complete. -/
def vtAck (i : Nat) (s : State) : State :=
  match vtTakeReply (fun p => p.h.kind == kAck) i s with
  | none => s
  | some (p, t) =>
    if p.h.kind ≠ kAck then t
    else
      let k := p.h.stream
      match sendCtx t k p.h.src with
      | none => t
      | some c =>
        if c.gen ≠ p.h.gen then t
        else
          let hit := (c.out.filter (fun o => ackCovers p.h o.psn)).map (fun o => o.psn)
          let u := hit.foldl (fun u psn => mapOut k p.h.src psn (fun q => { q with acked := true }) u) t
          pump (hit.foldl (fun u psn => settleReq k p.h.src psn u) u)

def execVtAck (i : Nat) (s : State) : Host.Outcome State Fault Refusal := .next (s.live (vtAck i))

/-- A NACK (R270, R273): a refused request completes with its code; BUSY leaves it to be sent again. -/
def nack (i : Nat) (s : State) : State :=
  match vtTakeReply (fun p => p.h.kind == kNack) i s with
  | none => s
  | some (p, t) =>
    if p.h.kind ≠ kNack then t
    else
      let k := p.h.stream
      match sendCtx t k p.h.src with
      | none => t
      | some c =>
        match c.out.find? (fun o => o.psn == p.h.psn) with
        | none => t
        | some o =>
          if c.gen ≠ p.h.gen then t
          else if p.h.op = 0xF then mapOut k p.h.src p.h.psn (fun q => { q with busy := true }) t
          else
            let u := (vtLast k p.h.status p.h.src o.pkt.h.offset (finishOut k p.h.src p.h.psn t)).raise (VT_IRQ_REFUSED k)
            pump (completeReq k o.agent p.h.status 0 p.h.psn c.gen u)

def execNack (i : Nat) (s : State) : Host.Outcome State Fault Refusal := .next (s.live (nack i))

/-- A CLOSE (R270): once every lower PSN has been applied it is acknowledged and the receive context retires. -/
def close (i : Nat) (s : State) : State :=
  match vtTake (fun p => p.h.kind == kClose) i s with
  | .gone t => t
  | .again _ t => t
  | .fresh p t =>
    match recvCtx t p.h.stream p.h.src with
    | none => t
    | some c =>
      if c.horizon ≠ p.h.psn then putRecv { c with held := c.held ++ [(.own, p)] } t
      else
        let u := vtApplied p t
        let v := { u with vt := { u.vt with recvCtx := u.vt.recvCtx.filter (fun d => !(d.k == c.k && d.node == c.node)) } }
        freeTab c.k c.node (v.set (VT_STATUS_RCTX c.k) (v.get (VT_STATUS_RCTX c.k) - 1))

def execClose (i : Nat) (s : State) : Host.Outcome State Fault Refusal := .next (s.live (close i))

/-! The received LOAD and STORE of memory; register targets are served in Machine/RegWrite.lean. -/

/-- The answer to an accepted or refused LOAD of memory (R275): status and data. -/
def loadMem (p : Packet) (s : State) : Nat × List Byte × State :=
  let c := packetCode s p pR p.h.size
  if c ≠ 0 then (c, errBytes c p.h.size, noteRefused false p.h.offset p.h.size s)
  else
    let t := hbmFind p.h.offset p.h.size s
    (if t.anyPoison p.h.offset p.h.size then cVtPoison else 0, loadData t p.h.offset p.h.size,
      noteRead (plotOfKey s p.h.key) p.h.offset p.h.size t)

/-- A STORE to memory: its status and effect (R273). -/
def storeMem (p : Packet) (s : State) : Nat × State :=
  let c := packetCode s p pW p.h.size
  if c ≠ 0 then (c, noteRefused true p.h.offset p.h.size s)
  else (0, memWrite (plotOfKey s p.h.key) p.h.offset p.data s)

end Sys2Proof.Machine
end

