-- ==== Sys2Proof/Machine/Rings.lean ====
section
/-!
DEFINITION. What the descriptor rings of the Winnower, Thresher, Gleaner, collective engine and tier engine share
(R120, R123, R147): TAIL and size writes, reading a descriptor, completion records and the DONE counter (R143).
-/
namespace Sys2Proof.Machine

/-- The registers of one ring: plot enable, size, base, HEAD, TAIL, the unit's RING_FULL bit, and the CODE and RING
fields of its LAST register, with the ring's number and the unit's descriptor code (R147). -/
structure RingRegs where
  en : Fld
  size : Fld
  base : Fld
  head : Fld
  tail : Fld
  full : Fld
  lastCode : Fld
  lastRing : Fld
  ring : Nat
  code : Nat
deriving DecidableEq, Repr

/-- Records a discarded write in the unit's LAST register (R147). -/
def ringNote (r : RingRegs) (s : State) : State := (s.set r.lastCode r.code).set r.lastRing r.ring

/-- Whether a ring's ENTRIES is in range (R147). -/
def sizeOk (n : Nat) : Bool := decide (16 ≤ n) && decide (n ≤ 4096)

/-- Whether a TAIL write is discarded (R120, R123, R147). -/
def tailBad (r : RingRegs) (v : Nat) (s : State) : Bool :=
  !s.flag r.en || !sizeOk (s.get r.size) || decide (s.get r.size ≤ v) ||
    (v == s.get r.head && s.get r.tail != s.get r.head)

/-- A write to a ring's TAIL register: jobs are posted, or the write is discarded (R123, R147). -/
def tailWrite (r : RingRegs) (v : Word) (s : State) : State :=
  let n := r.tail.of v
  if tailBad r n s then (ringNote r s).raise r.full else s.set r.tail n

/-- A write to a ring's size register (R147). -/
def sizeWrite (r : RingRegs) (v : Word) (s : State) : State :=
  let n := r.size.of v
  if !sizeOk n || s.get r.head != s.get r.tail then ringNote r s else s.set r.size n

/-- Whether a ring holds entries that its unit has not completed. -/
def ringHas (r : RingRegs) (s : State) : Bool := s.get r.head != s.get r.tail && sizeOk (s.get r.size)

/-- The entry after one, in the ring. -/
def ringNext (r : RingRegs) (s : State) (i : Nat) : Nat := (i + 1) % max 1 (s.get r.size)

/-- HEAD passes the oldest entry. -/
def ringAdvance (r : RingRegs) (s : State) : State := s.set r.head (ringNext r s (s.get r.head))

/-- Reads the sixteen words of a ring entry under the ring's key; none where a read is refused or a word is poisoned. -/
def readDescr (w : Who) (r : RingRegs) (i : Nat) (s : State) : Option (List Nat) × State :=
  let a := s.get r.base * 128 + 128 * i
  let d := unitRead w a 128 s
  if d.1 = 0 then (some (wordsOf d.2.1 16), d.2.2) else (none, d.2.2)

/-- Bits of a descriptor word. -/
def dw (ws : List Nat) (w lo len : Nat) : Nat := bitsOf (ws.getD w 0) lo len

/-- Whether every bit outside the masks of a descriptor's words is zero. -/
def onlyBits (ws : List Nat) (masks : List Nat) : Bool := (ws.zip masks).all (fun p => p.1 &&& (2 ^ 64 - 1 - p.2) == 0)

/-- Mask of bits [hi : lo]. -/
def bitMask (lo hi : Nat) : Nat := 2 ^ (hi + 1) - 2 ^ lo

/-- A full word. -/
def allBits : Nat := 2 ^ 64 - 1

/-- A global address on this node with an alignment (R125). -/
def gaOk (s : State) (al a : Nat) : Bool := gaNode a == s.node && a % al == 0

/-- The DONE fields as they stand in one word: LCORE, CTR, VAL, EN (R124). -/
structure DoneF where
  lcore : Nat
  ctr : Nat
  val : Nat
  en : Bool
deriving DecidableEq, Repr

/-- Reads them from a word whose low 26 bits hold them. -/
def doneOf (w : Nat) : DoneF := ⟨bitsOf w 0 7, bitsOf w 7 10, bitsOf w 17 8, bitOf w 25⟩

/-- Whether the core they name exists, where the counter is to be advanced (R125). -/
def DoneF.ok (d : DoneF) (s : State) : Bool := !d.en || (physOf s d.lcore).isSome

/-- Advances the DONE counter (R81, R143). -/
def DoneF.run (d : DoneF) (s : State) : State := if d.en then arriveLogical d.lcore d.ctr d.val s else s

/-- Writes a record of 64-bit words at a global address for a unit. -/
def writeWords (w : Who) (ga : Nat) (ws : List Nat) (s : State) : State := unitWrite w (gaOff ga) (bytesOfWords ws) s

/-- The unit of a ring acts under the ring's key (R120). -/
def ringWho (k : Nat) (key : Fld) (s : State) : Who := { k := k, key := s.get key, cons := plotOfKey s (s.get key) }

/-- A coalesced warning of unit `sub` of routing die `k` (R429, R443). -/
def rdWarn (k sub code detail : Nat) (s : State) : State :=
  s.report { code := code, level := 0, kind := 1, die := 16 + k, sub := sub, detail := detail }

/-- Rings 0 to 15 in turn, from the one after a ring (R122). -/
def turnFrom (r : Nat) : List Nat := (List.range 16).map (fun i => (r + 1 + i) % 16)

end Sys2Proof.Machine
end

