-- ==== Sys2Proof/Machine/Winnower.lean ====
section
/-!
DEFINITION. The Winnower (05_winnower_scoring): posting, choice of the next item, scores, selection and weights (R128 to
R132), sampling (R137 to R139), records, costs and flushes.
-/
namespace Sys2Proof.Machine

/-! Status codes (R144). -/
def cWinDesc : Nat := 0x0201
def cWinInput : Nat := 0x0202
def cWinNonfinite : Nat := 0x0203
def cWinShort : Nat := 0x0204
def cSampleTrunc : Nat := 0x0205
def cWinBias : Nat := 0x0206
def cSampleParam : Nat := 0x0207
def cWinFlushed : Nat := 0x0208

/-- Hidden state of a Winnower. -/
def State.win (s : State) (k : Nat) : WinHid := Tab.get (fun _ => ({} : WinHid)) s.wins k
def State.setWin (s : State) (k : Nat) (w : WinHid) : State :=
  { s with wins := Tab.set (fun _ => ({} : WinHid)) s.wins k w }

/-- Registers of ring `n` (R146). -/
def winRing (k n : Nat) : RingRegs :=
  { en := WIN_PLOT_EN k n, size := WIN_RING_SIZE_ENTRIES k n, base := WIN_RING_BASE_BASE k n, head := WIN_HEAD_HEAD k n,
    tail := WIN_TAIL_TAIL k n, full := WIN_IRQ_RING_FULL k, lastCode := WIN_LAST_CODE k, lastRing := WIN_LAST_RING k,
    ring := n, code := cWinDesc }

/-- WIN_TAIL_WRITE (R123, R147). -/
def winTailWrite (k n : Nat) (v : Word) (s : State) : State := tailWrite (winRing k n) v s

def execWinTailWrite (k : Fin 4) (n : Fin 16) (v : Word) (s : State) : Host.Outcome State Fault Refusal :=
  .next (s.live (winTailWrite k n v))

/-- The job in progress of a ring. -/
def winJob (s : State) (k n : Nat) : Option WinJob := (s.win k).jobs.find? (fun j => j.ring == n)

/-- Replaces a ring's job. -/
def putJob (k : Nat) (j : WinJob) (s : State) : State :=
  let h := s.win k
  s.setWin k { h with jobs := h.jobs.filter (fun i => i.ring != j.ring) ++ [j] }

/-! Descriptors (R124, R125, R137). -/

def wjKind (d : List Nat) : Nat := dw d 0 0 4
def wjFmt (d : List Nat) : Option Format :=
  match Format.ofCode (dw d 0 4 4) with
  | some .f32 => some .f32
  | some .f16 => some .f16
  | some .w16 => some .w16
  | _ => none
def wjSigmoid (d : List Nat) : Bool := dw d 0 8 1 == 1
def wjBias (d : List Nat) : Bool := dw d 0 9 1 == 1
def wjNorm (d : List Nat) : Bool := dw d 0 10 1 == 1
def wjMask (d : List Nat) : Bool := dw d 0 11 1 == 1
def wjBank (d : List Nat) : Nat := dw d 0 12 1
def wjLayer (d : List Nat) : Nat := dw d 0 13 7
def wjK (d : List Nat) : Nat := dw d 0 20 6
def wjG (d : List Nat) : Nat := dw d 0 26 7
def wjTG (d : List Nat) : Nat := dw d 0 33 7
def wjGJ (d : List Nat) : Nat := dw d 0 40 3
def wjE (d : List Nat) : Nat := dw d 1 0 15
def wjT (d : List Nat) : Nat := dw d 1 15 21
def wjToken0 (d : List Nat) : Nat := dw d 1 36 24
def wjLogit (d : List Nat) : Nat := dw d 2 0 64
def wjStride (d : List Nat) : Nat := dw d 3 0 32
def wjScale (d : List Nat) : Nat := dw d 3 32 32
def wjJobId (d : List Nat) : Nat := if wjKind d = 2 then dw d 7 26 16 else dw d 11 0 16
def wjTring (d : List Nat) : Nat := dw d 11 16 4
def wjTstep (d : List Nat) : Nat := dw d 11 20 16
def wjCompl (d : List Nat) : Nat := if wjKind d = 2 then dw d 6 0 64 else dw d 9 0 64
def wjDone (d : List Nat) : DoneF := if wjKind d = 2 then doneOf (d.getD 7 0) else doneOf (d.getD 10 0)
def wjV (d : List Nat) : Nat := dw d 1 0 20
def wjRows (d : List Nat) : Nat := dw d 1 20 13

/-- Items of a job (R121). -/
def wjItems (d : List Nat) : Nat := if wjKind d = 2 then wjRows d else wjT d

/-- The value of a binary32 code. -/
def f32v (c : Nat) : Val := decodeElem .f32 c

/-- Whether a value is finite. -/
def Val.isFin : Val → Bool
  | .fin _ _ _ => true
  | _ => false

/-- Bytes of a row of logits. -/
def logitBytes (d : List Nat) (n : Nat) : Nat := match wjFmt d with | some f => f.bytes n | none => 0

/-- Whether a ROUTE descriptor keeps R124 and R125. -/
def routeOk (s : State) (d : List Nat) : Bool :=
  onlyBits d [bitMask 0 42, bitMask 0 59, allBits, allBits, allBits, allBits, allBits, allBits, allBits, allBits,
    bitMask 0 25, bitMask 0 35, 0, 0, 0, 0] &&
  (wjFmt d).isSome && decide (1 ≤ wjK d) && decide (wjK d ≤ 32) && decide (1 ≤ wjG d) && decide (wjG d ≤ 64) &&
  decide (1 ≤ wjTG d) && decide (wjTG d ≤ wjG d) && decide (1 ≤ wjGJ d) && decide (wjGJ d ≤ 4) &&
  decide (1 ≤ wjE d) && decide (wjE d ≤ 16384) && decide (1 ≤ wjT d) && decide (wjT d ≤ 2 ^ 20) &&
  decide (wjToken0 d + wjT d ≤ 2 ^ 24) &&
  wjStride d % 64 == 0 && decide (logitBytes d (wjE d) ≤ wjStride d) &&
  (f32v (wjScale d)).isFin && !(f32v (wjScale d)).isNeg && !(f32v (wjScale d)).isZero &&
  gaOk s 64 (wjLogit d) && (!wjBias d || gaOk s 64 (dw d 4 0 64)) && (!wjMask d || gaOk s 64 (dw d 5 0 64)) &&
  gaOk s 64 (dw d 6 0 64) && gaOk s 64 (dw d 7 0 64) && gaOk s 64 (wjCompl d) &&
  wjE d % wjG d == 0 && decide (wjGJ d ≤ wjE d / wjG d) && decide (wjK d ≤ wjTG d * (wjE d / wjG d)) &&
  (!wjBias d || wjSigmoid d)

/-- Whether a SAMPLE descriptor keeps R137. -/
def sampleOk (s : State) (d : List Nat) : Bool :=
  onlyBits d [bitMask 0 7, bitMask 0 32, allBits, bitMask 0 31, allBits, allBits, allBits, bitMask 0 41,
    0, 0, 0, 0, 0, 0, 0, 0] &&
  (wjFmt d).isSome && decide (1 ≤ wjV d) && decide (wjV d ≤ 524288) && decide (1 ≤ wjRows d) &&
  decide (wjRows d ≤ 4096) && wjStride d % 64 == 0 && decide (logitBytes d (wjV d) ≤ wjStride d) &&
  gaOk s 64 (wjLogit d) && gaOk s 64 (dw d 4 0 64) && gaOk s 64 (dw d 5 0 64) && gaOk s 64 (wjCompl d)

/-! Warnings, triples and the end of a job. -/

/-- A warning of a job: its WARN bit, WIN_IRQ.WARN and a coalesced record (R143, R144). -/
def winWarn (k bit code : Nat) (j : WinJob) (s : State) : WinJob × State :=
  ({ j with warn := j.warn ||| 2 ^ bit }, rdWarn k 0 code 0 (s.raise (WIN_IRQ_WARN k)))

/-- Hands one record to the Thresher's intake. -/
def winPass (k : Nat) (r : WinRec) (s : State) : State :=
  let h := s.win k
  s.setWin k { h with out := h.out ++ [r] }

/-- The end marker of a ROUTE job (R133). -/
def endMarker (j : WinJob) (abort : Bool) : WinRec :=
  { ring := j.ring, w0 := 0,
    w1 := putF (wjJobId j.words) 32 16 + putF 1 48 1 + putF (ofBool abort) 49 1 + putF (wjTring j.words) 50 4 +
      putF (wjTstep j.words) 54 10 }

/-- The completion record (R143). -/
def winRecord (j : WinJob) (status : Nat) : List Nat :=
  let d := j.words
  [putF status 0 16 + putF (wjJobId d) 16 16 + putF j.warn 32 4 + putF (wjKind d) 36 4,
   putF j.item 0 32 + putF j.triples 32 32, putF j.nonfinite 0 32 + putF j.short 32 32,
   if wjKind d = 1 ∧ wjMask d then dw d 8 0 64 else 0, j.active % 2 ^ 64, j.stall % 2 ^ 64, 0, 0]

/-- Shows whether an item is in progress (R146): a job has items left; commands being whole items, the next one stands for it
(log entry 17). -/
def winBusy (k : Nat) (s : State) : State :=
  s.set (WIN_STATUS_BUSY k) (ofBool ((s.win k).jobs.any (fun j => decide (j.item < wjItems j.words))))

/-- Ends a job (R123, R125, R133, R143, R144): the end marker of a ROUTE job, the completion record, the DONE counter,
WIN_LAST and the interrupt; HEAD passes the job. -/
def winFinish (k : Nat) (j : WinJob) (status : Nat) (s : State) : State :=
  let n := j.ring
  let d := j.words
  let told := (wjKind d = 1 ∨ wjKind d = 2) && gaOk s 64 (wjCompl d) && (status != cWinDesc || (wjDone d).ok s)
  let s1 := if wjKind d = 1 then winPass k (endMarker j (status != 0)) s else s
  let s2 := if told then (wjDone d).run (writeWords (ringWho k (WIN_PLOT_PKEY k n) s1) (wjCompl d) (winRecord j status) s1)
    else s1
  let s3 := if status = 0 then s2.raise (WIN_IRQ_JOB_DONE k)
    else (((s2.set (WIN_LAST_CODE k) status).set (WIN_LAST_RING k) n).set (WIN_LAST_JOB_ID k) (wjJobId d)).raise
      (WIN_IRQ_JOB_FAIL k)
  let h := s3.win k
  let s4 := winBusy k (s3.setWin k { h with jobs := h.jobs.filter (fun i => i.ring != n) })
  ringAdvance (winRing k n) (s4.setWord (WIN_RSTAT_ACTIVE k n).addr 0)

/-- A descriptor that cannot be read: only WIN_LAST and JOB_FAIL report it (R125; log entry 15). -/
def winUnread (k n : Nat) (s : State) : State :=
  ringAdvance (winRing k n)
    (((s.set (WIN_LAST_CODE k) cWinDesc).set (WIN_LAST_RING k) n).raise (WIN_IRQ_JOB_FAIL k))

/-! The choice of R122. -/

/-- Whether the Thresher of die `k` has a step in intake in a ring, with the low bits of its STEP_ID (R155). -/
def thrOpen (s : State) (k ring tag : Nat) : Bool :=
  s.flag (THR_RSTAT_ACTIVE k ring) && s.get (THR_RSTAT_PHASE k ring) == 1 && s.get (THR_RSTAT_STEP_ID k ring) % 1024 == tag

/-- TRING and TSTEP of a record (R133). -/
def recRing (w1 : Nat) : Nat := bitsOf w1 50 4
def recTag (w1 : Nat) : Nat := bitsOf w1 54 10

/-- Whether a record of a ring's job is held at the intake for want of a step in progress (R155). -/
def winHeld (s : State) (k n : Nat) : Bool :=
  (s.win k).out.any (fun r => r.ring == n && !thrOpen s k (recRing r.w1) (recTag r.w1))

/-- Whether a ring has a pending item: one of the job in progress, or a job that can start. -/
def winPending (s : State) (k n : Nat) : Bool :=
  match winJob s k n with
  | some j => decide (j.item < wjItems j.words) && !winHeld s k n
  | none => ringHas (winRing k n) s && s.flag (WIN_CTRL_ENABLE k) && !winHeld s k n

/-- The ring served next (R122). -/
def winChoose (k : Nat) (s : State) : Option Nat :=
  let h := s.win k
  match (turnFrom h.lastLc).find? (fun n => winPending s k n && !s.flag (WIN_PLOT_CLASS k n)) with
  | some n => some n
  | none => (turnFrom h.lastBe).find? (fun n => winPending s k n && s.flag (WIN_PLOT_CLASS k n))

/-- Notes the ring served. -/
def winServed (k n : Nat) (s : State) : State :=
  let h := s.win k
  (s.setWin k (if s.flag (WIN_PLOT_CLASS k n) then { h with last := n, lastBe := n } else { h with last := n, lastLc := n })).set
    (WIN_STATUS_RING k) n

/-! Starting a job (R121, R126, R127). -/

/-- Shows a started job in WIN_RSTAT. -/
def winShow (k : Nat) (j : WinJob) (s : State) : State :=
  ((((winBusy k s).set (WIN_RSTAT_ACTIVE k j.ring) 1).set (WIN_RSTAT_LOADED k j.ring) (ofBool j.loaded)).set
    (WIN_RSTAT_JOB_ID k j.ring) (wjJobId j.words)).set (WIN_RSTAT_ITEM k j.ring) j.item

/-- Load-phase costs (R140). -/
def loadRc (d : List Nat) : Nat :=
  if wjKind d = 2 then 64
  else 64 + (if wjBias d then ceilDiv (wjE d) 128 else 0) + (if wjMask d then ceilDiv (wjE d) 4096 else 0)

/-- Bytes a job reads from a global address: one request, that one window entry must cover (R262; log entry 44). -/
def winRead (k n : Nat) (ga len : Nat) (s : State) : Nat × List Byte × State :=
  unitRead (ringWho k (WIN_PLOT_PKEY k n) s) (gaOff ga) len s

/-- binary32 codes of a byte string. -/
def codes32 (bs : List Byte) (n : Nat) : List Nat := (List.range n).map (fun i => ofBytes ((bs.drop (4 * i)).take 4))

/-- The load phase of a ROUTE job: bias bank, then mask; then its failure, or the job with LOADED. -/
def winLoad (k : Nat) (j : WinJob) (s : State) : State :=
  let d := j.words
  let j := { j with active := loadRc d }
  let b := if wjBias d then winRead k j.ring (dw d 4 0 64 + wjBank d * 65536) (4 * wjE d) s else (0, [], s)
  let m := if wjMask d then winRead k j.ring (dw d 5 0 64) (ceilDiv (wjE d) 8) b.2.2 else (0, [], b.2.2)
  let bias := if wjBias d then codes32 b.2.1 (wjE d) else []
  if b.1 ≠ 0 then winFinish k j cWinInput b.2.2
  else if bias.any (fun c => !(f32v c).isFin) then winFinish k j cWinBias b.2.2
  else if m.1 ≠ 0 then winFinish k j cWinInput m.2.2
  else
    let j2 := { j with loaded := true, bias := bias, mask := m.2.1 }
    winShow k j2 (putJob k j2 m.2.2)

/-- Starts the job at HEAD of the ring served next, when its kind is the command's. -/
def winStart (sample : Bool) (k : Nat) (s : State) : State :=
  match winChoose k s with
  | none => s
  | some n =>
    match winJob s k n with
    | some _ => s
    | none =>
      let r := winRing k n
      match readDescr (ringWho k (WIN_PLOT_PKEY k n) s) r (s.get r.head) s with
      | (none, t) => if sample then s else winUnread k n t
      | (some d, t) =>
        if (wjKind d == 2) != sample then s
        else
          let j : WinJob := { ring := n, words := d }
          if (wjKind d = 1 ∧ routeOk t d) ∨ (wjKind d = 2 ∧ sampleOk t d) then winLoad k j t
          else winFinish k j cWinDesc t

/-- ROUTE (R128). A descriptor of no known kind fails here (R125). -/
def route (k : Nat) (s : State) : State := winStart false k s
def execRoute (k : Fin 4) (s : State) : Host.Outcome State Fault Refusal := .next (s.live (route k))

/-- SAMPLE (R139): the job starts; its rows are the items of WIN_ITEM. -/
def sample (k : Nat) (s : State) : State := winStart true k s
def execSample (k : Fin 4) (s : State) : Host.Outcome State Fault Refusal := .next (s.live (sample k))

/-! Scores and selection (R128 to R132). -/

/-- A result of binary32 arithmetic as a value. -/
def resVal (r : Res32) : Val := f32v r.1

/-- Order of numbers, with the zeros equal (R129). -/
def numLt (a b : Val) : Bool := Val.lt a b && !(a.isZero && b.isZero)

/-- Whether one keyed index ranks before another (R129). -/
def ranksBefore (a b : Nat × Val) : Bool := numLt b.2 a.2 || (!numLt a.2 b.2 && decide (a.1 < b.1))

/-- Inserts a keyed index at its place. -/
def rankInsert (a : Nat × Val) : List (Nat × Val) → List (Nat × Val)
  | [] => [a]
  | b :: l => if ranksBefore a b then a :: b :: l else b :: rankInsert a l

/-- Keyed indices in the order of R129. -/
def rankSort (l : List (Nat × Val)) : List (Nat × Val) := l.foldr rankInsert []

/-- A finite non-negative binary32 value in units of 2^-149. -/
def scoreUnits : Val → Nat
  | .fin _ m e => (unitsOf false m e (-149)).toNat
  | _ => 0

/-- The score accumulator's exact sum (R128). -/
def scoreSum (vs : List Val) : Nat := vs.foldl (fun a v => a + scoreUnits v) 0

/-- A sum rounded to binary32. -/
def roundSum (u : Nat) : Val := resVal (encodeVal .f32 .rne (.fin false u (-149)))

/-- round(exp(round(a - b))). -/
def expDiff (a b : Val) : Val := resVal (expVal .rne (resVal (addVal .rne a b.negate)))

/-- The first of the largest values. -/
def largest (l : List (Nat × Val)) : Option (Nat × Val) :=
  l.foldl (fun acc x => match acc with
    | none => some x
    | some y => if ranksBefore x y then some x else some y) none

/-- Scores and keys of the eligible experts: index, u, key (R128). -/
def winScores (d : List Nat) (bias : List Nat) (l : List Val) (elig : List Nat) : List (Nat × Val × Val) :=
  let at' := fun e => l.getD e (.fin false 0 0)
  if wjSigmoid d then
    elig.map (fun e =>
      let u := resVal (sigmoidVal .rne (at' e))
      (e, u, if wjBias d then resVal (addVal .rne u (f32v (bias.getD e 0))) else u))
  else
    match largest (elig.map (fun e => (e, at' e))) with
    | none => []
    | some m =>
      let es := elig.map (fun e => (e, expDiff (at' e) m.2))
      let z := roundSum (scoreSum (es.map (·.2)))
      es.map (fun p => (p.1, resVal (divVal .rne p.2 z), at' p.1))

/-- Adds keys in order, each sum rounded (R130). -/
def addKeys : List Val → Option Val
  | [] => none
  | v :: vs => some (vs.foldl (fun a x => resVal (addVal .rne a x)) v)

/-- The experts selected for a token, in rank order (R129, R130). -/
def winSelect (d : List Nat) (order : List (Nat × Val)) : List Nat :=
  let gs := wjE d / wjG d
  let kept := if wjG d ≤ 1 then order
    else
      let scores := (List.range (wjG d)).filterMap (fun g =>
        (addKeys (((order.filter (fun x => x.1 / gs == g)).take (wjGJ d)).map (·.2))).map (fun v => (g, v)))
      let groups := ((rankSort scores).take (wjTG d)).map (·.1)
      order.filter (fun x => groups.contains (x.1 / gs))
  (kept.take (wjK d)).map (·.1)

/-- The weights of the selected experts, from their u in rank order (R132). -/
def winWeights (d : List Nat) (us : List Val) : List Nat :=
  let sc := f32v (wjScale d)
  let sum := scoreSum us
  if wjNorm d && sum != 0 then
    us.map (fun u => (mulVal .rne (resVal (divVal .rne u (roundSum sum))) sc).1)
  else us.map (fun u => (mulVal .rne u sc).1)

/-- A triple (R133). -/
def triple (j : WinJob) (cls tenant rank expert weight : Nat) : WinRec :=
  let d := j.words
  { ring := j.ring,
    w0 := putF (wjToken0 d + j.item) 0 24 + putF expert 24 14 + putF rank 38 5 + putF tenant 43 13 + putF cls 56 1 +
      putF (wjLayer d) 57 7,
    w1 := putF weight 0 32 + putF (wjJobId d) 32 16 + putF (wjTring d) 50 4 + putF (wjTstep d) 54 10 }

/-- Logits of row `i` of a job as values (R126). -/
def winLogits (k : Nat) (j : WinJob) (n : Nat) (s : State) : Nat × List Val × State :=
  let d := j.words
  let r := winRead k j.ring (wjLogit d + j.item * wjStride d) (logitBytes d n) s
  match wjFmt d with
  | some f => (r.1, (List.range n).map (fun i => decodeElem f (packedElem f r.2.1 i)), r.2.2)
  | none => (r.1, [], r.2.2)

/-- What a processed item gives: a failure code (0 for none), the job, its cost in rc, and the state. -/
structure ItemOut where
  code : Nat := 0
  job : WinJob
  cost : Nat
  st : State

/-- Rc of one ROUTE item (R140). -/
def routeRc (d : List Nat) : Nat := max (ceilDiv (wjE d) 256) (ceilDiv (wjK d) 8)

/-- One token of a ROUTE job (R126, R128 to R134). -/
def routeItem (k : Nat) (j : WinJob) (s : State) : ItemOut :=
  let d := j.words
  let meta' := winRead k j.ring (dw d 6 0 64 + 4 * j.item) 4 s
  let word := ofBytes meta'.2.1
  if meta'.1 ≠ 0 then { code := cWinInput, job := j, cost := routeRc d, st := meta'.2.2 }
  else if word / 2 ^ 13 ≠ 0 then { code := cWinDesc, job := j, cost := routeRc d, st := meta'.2.2 }
  else
    let r := winLogits k j (wjE d) meta'.2.2
    if r.1 ≠ 0 then { code := cWinInput, job := j, cost := routeRc d, st := r.2.2 }
    else
      let t := r.2.2.count (WIN_LOGITS_COUNT k) (wjE d)
      if r.2.1.any (fun v => !v.isFin) then
        let w := winWarn k 0 cWinNonfinite { j with nonfinite := j.nonfinite + 1 } t
        { job := w.1, cost := routeRc d, st := w.2 }
      else
        let elig := (List.range (wjE d)).filter (fun e => !wjMask d || (j.mask.getD (e / 8) 0).toNat.testBit (e % 8))
        let sc := winScores d j.bias r.2.1 elig
        let sel := winSelect d (rankSort (sc.map (fun x => (x.1, x.2.2))))
        let us := sel.map (fun e => match sc.find? (fun x => x.1 == e) with | some x => x.2.1 | none => .fin false 0 0)
        let ws := winWeights d us
        let cls := s.get (WIN_PLOT_CLASS k j.ring)
        let recs := (sel.zip ws).zipIdx.map (fun x => triple j cls (word % 2 ^ 13) x.2 x.1.1 x.1.2)
        let u := (recs.foldl (fun u x => winPass k x u) t).count (WIN_TRIPLES_COUNT k) recs.length
        let j2 := { j with triples := j.triples + recs.length,
                           loads := sel.foldl (fun l e => Tab.set (fun _ => 0) l e (Tab.get (fun _ => 0) l e + 1)) j.loads }
        let w := if sel.length < wjK d then winWarn k 1 cWinShort { j2 with short := j2.short + 1 } u else (j2, u)
        { job := w.1, cost := routeRc d, st := w.2 }

/-! Sampling (R138, R139). -/

/-- The output of an invalid parameter record. -/
def badSample : Nat := 0xFFFFFFFF + 0x7FC00000 * 2 ^ 32

/-- sample_bits of R139. -/
def sampleBits (seed req pos : Nat) : Nat := dsrMix (seed ^^^ dsrMix (req * 2 ^ 32 + pos)) / 2 ^ 32

/-- Whether a parameter record keeps R138. -/
def paramOk (bs : List Byte) : Bool :=
  let t := f32v (ofBytes ((bs.drop 16).take 4))
  let p := f32v (ofBytes ((bs.drop 20).take 4))
  t.isFin && (!t.isNeg || t.isZero) && p.isFin && !p.isNeg && !p.isZero && !numLt (.fin false 1 0) p &&
    decide (ofBytes ((bs.drop 24).take 2) ≤ 1024) && ofBytes ((bs.drop 26).take 6) == 0

/-- Exact product of a binary32 value and a sum in units of 2^-149, in units of 2^-298. -/
def timesSum (p : Val) (z : Nat) : Nat := scoreUnits p * z

/-- The least n in 1 to c with the first n sums at or above a bound, of sums in units of 2^-298. -/
def massPoint : List Nat → Nat → Nat → Nat → Option Nat
  | [], _, _, _ => none
  | x :: xs, acc, n, need => if need ≤ (acc + x) * 2 ^ 149 then some (n + 1) else massPoint xs (acc + x) (n + 1) need

/-- The draw: the least i with 2^32 * (sum to i) above r * zk. -/
def drawPoint : List Nat → Nat → Nat → Nat → Option Nat
  | [], _, _, _ => none
  | x :: xs, acc, i, lim => if lim < (acc + x) * 2 ^ 32 then some i else drawPoint xs (acc + x) (i + 1) lim

/-- sample_row of R139 for a row that is not greedy, from its x: the token, its probability, and whether the top-p mass
was not reached; none where every x has rounded to -infinity, whose result R139 does not state. -/
def sampleRow (x : List Val) (seed req pos topk : Nat) (topp : Val) : Option (Nat × Nat × Bool) :=
  let ix := (x.zipIdx).map (fun p => (p.2, p.1))
  match largest ix with
  | none => none
  | some m =>
    if m.2 = .inf true then none
    else if m.2 = .inf false then some (m.1, 0x3F800000, false)
    else
      let v := x.length
      let c := if topk ≠ 0 then min topk v else min 1024 v
      let cand := (rankSort ix).take c
      let sc := fun (a : Val) => expDiff a m.2
      let cs := cand.map (fun p => scoreUnits (sc p.2))
      let z := if topk ≠ 0 then cs.foldl (· + ·) 0 else scoreSum (x.map sc)
      let n := massPoint cs 0 0 (timesSum topp z)
      let take := match n with | some n => n | none => c
      let zk := (cs.take take).foldl (· + ·) 0
      let r := sampleBits seed req pos
      let i := match drawPoint (cs.take take) 0 0 (r * zk) with | some i => i | none => take - 1
      match cand[i]? with
      | some p => some (p.1, (divVal .rne (sc p.2) (roundSum z)).1, n.isNone)
      | none => none

/-- The output record of a row. -/
def outRec (tok prob : Nat) : Nat := putF tok 0 32 + putF prob 32 32

/-- One row of a SAMPLE job (R138 to R140). -/
def sampleItem (k : Nat) (j : WinJob) (s : State) : ItemOut :=
  let d := j.words
  let greedyRc := ceilDiv (wjV d) 256 + 16
  let pr := winRead k j.ring (dw d 4 0 64 + 32 * j.item) 32 s
  let bs := pr.2.1
  let put := fun (j : WinJob) (cost out : Nat) (t : State) =>
    ({ job := j, cost := cost,
       st := unitWrite (ringWho k (WIN_PLOT_PKEY k j.ring) t) (gaOff (dw d 5 0 64 + 8 * j.item)) (toBytes 8 out) t } : ItemOut)
  if pr.1 ≠ 0 then { code := cWinInput, job := j, cost := greedyRc, st := pr.2.2 }
  else if !paramOk bs then
    let w := winWarn k 3 cSampleParam { j with short := j.short + 1 } pr.2.2
    put w.1 16 badSample w.2
  else
    let r := winLogits k j (wjV d) pr.2.2
    if r.1 ≠ 0 then { code := cWinInput, job := j, cost := greedyRc, st := r.2.2 }
    else
      let t := r.2.2.count (WIN_LOGITS_COUNT k) (wjV d)
      let l := r.2.1
      let temp := f32v (ofBytes ((bs.drop 16).take 4))
      let topk := ofBytes ((bs.drop 24).take 2)
      let c := if topk ≠ 0 then min topk (wjV d) else min 1024 (wjV d)
      let nonfin := fun (cost : Nat) (u : State) =>
        let w := winWarn k 0 cWinNonfinite { j with nonfinite := j.nonfinite + 1 } u
        put w.1 cost badSample w.2
      if l.any (fun v => v.isNaN || v == .inf false) || l.all (fun v => v == .inf true) then nonfin greedyRc t
      else if temp.isZero then
        match largest (l.zipIdx.map (fun p => (p.2, p.1))) with
        | some m => put j greedyRc (outRec m.1 0x3F800000) t
        | none => nonfin greedyRc t
      else
        let x := l.map (fun v => resVal (divVal .rne v temp))
        let rc := 2 * ceilDiv (wjV d) 256 + ceilDiv c 16 + 32
        match sampleRow x (ofBytes (bs.take 8)) (ofBytes ((bs.drop 8).take 4)) (ofBytes ((bs.drop 12).take 4)) topk
            (f32v (ofBytes ((bs.drop 20).take 4))) with
        | some o =>
          let w := if o.2.2 then winWarn k 2 cSampleTrunc { j with short := j.short + 1 } t else (j, t)
          put w.1 rc (outRec o.1 o.2.1) w.2
        -- finite logits whose quotients all round to -infinity: taken as a row of -infinity (log entry 16)
        | none => nonfin greedyRc t

/-- WIN_ITEM (R122, R140, R141): the next item of the ring served next, with the rc it waited for input. -/
def winItem (k stall : Nat) (s : State) : State :=
  match winChoose k s with
  | none => s
  | some n =>
    match winJob s k n with
    | none => s
    | some j =>
      let d := j.words
      let sampling := wjKind d == 2
      let extra := if !sampling && decide (0 < j.item) && (s.win k).last != n then routeRc d + 16 else 0
      let t := (winServed k n s).set (WIN_STATUS_SAMPLING k) (ofBool sampling)
      let t := t.count (WIN_STALL_IN_COUNT k) stall
      let o := if sampling then sampleItem k j t else routeItem k j t
      let j2 := { o.job with active := o.job.active + o.cost + extra, stall := o.job.stall + stall }
      if o.code ≠ 0 then winFinish k j2 o.code o.st
      else
        let j3 := { j2 with item := j2.item + 1 }
        winShow k j3 (putJob k j3 (o.st.count (WIN_ITEMS_COUNT k) 1))

def execWinItem (k : Fin 4) (stall : Nat) (s : State) : Host.Outcome State Fault Refusal := .next (s.live (winItem k stall))

/-- Ends a job all of whose items are done: load counts, record and DONE (R134, R143). -/
def winClose (k : Nat) (j : WinJob) (s : State) : State :=
  let d := j.words
  if wjKind d = 2 then winFinish k j 0 s
  else
    let loads := (List.range (wjE d)).flatMap (fun e => toBytes 4 (Tab.get (fun _ => 0) j.loads e))
    let t := unitWrite (ringWho k (WIN_PLOT_PKEY k j.ring) s) (gaOff (dw d 7 0 64)) loads s
    winFinish k { j with active := j.active + routeRc d } 0 t

/-- WIN_JOB_COMPLETE (R143). -/
def winJobComplete (k n : Nat) (s : State) : State :=
  match winJob s k n with
  | none => s
  | some j => if j.item = wjItems j.words then winClose k j s else s

def execWinJobComplete (k : Fin 4) (n : Fin 16) (s : State) : Host.Outcome State Fault Refusal :=
  .next (s.live (winJobComplete k n))

/-- Completes a ring's queued jobs with WIN_FLUSHED, without running them (R145). -/
def winFlushQueue (k n : Nat) : Nat → State → State
  | 0, s => s
  | f + 1, s =>
    let r := winRing k n
    if !ringHas r s then s
    else
      match readDescr (ringWho k (WIN_PLOT_PKEY k n) s) r (s.get r.head) s with
      | (some d, t) => winFlushQueue k n f (winFinish k { ring := n, words := d } cWinFlushed t)
      | (none, t) => winFlushQueue k n f (winUnread k n t)

/-- WIN_FLUSH (R145): a job whose last item is done completes normally; another running job stops here, between items. -/
def winFlush (k n : Nat) (s : State) : State :=
  let t := match winJob s k n with
    | some j => if j.item = wjItems j.words then winClose k j s else winFinish k j cWinFlushed s
    | none => s
  winFlushQueue k n 4096 t

def execWinFlush (k : Fin 4) (n : Fin 16) (s : State) : Host.Outcome State Fault Refusal := .next (s.live (winFlush k n))

end Sys2Proof.Machine
end

