-- ==== Sys2Proof/Machine/Thresher.lean ====
section
/-!
DEFINITION. The Thresher (06_thresher_and_sower R148 to R162, R175 to R177): intake, the exchange between the four dies,
the cut, placement and outputs.
-/
namespace Sys2Proof.Machine

/-! Status codes (R175). -/
def cThrDesc : Nat := 0x0211
def cThrMismatch : Nat := 0x0212
def cThrJobAbort : Nat := 0x0213
def cThrTimeout : Nat := 0x0214
def cThrMap : Nat := 0x0215
def cThrNomap : Nat := 0x0216
def cThrRange : Nat := 0x0217
def cThrScratch : Nat := 0x0218
def cThrFlushed : Nat := 0x0219
def cThrDrops : Nat := 0x021A
def cSowAct : Nat := 0x0221
def cSowSend : Nat := 0x0222
def cSowLand : Nat := 0x0223
def cSowFlushed : Nat := 0x0224

def State.thr (s : State) (k : Nat) : ThrHid := Tab.get (fun _ => ({} : ThrHid)) s.thrs k
def State.setThr (s : State) (k : Nat) (h : ThrHid) : State :=
  { s with thrs := Tab.set (fun _ => ({} : ThrHid)) s.thrs k h }

/-- Registers of ring `n` (R177). -/
def thrRing (k n : Nat) : RingRegs :=
  { en := THR_PLOT_EN k n, size := THR_RING_SIZE_ENTRIES k n, base := THR_RING_BASE_BASE k n, head := THR_HEAD_HEAD k n,
    tail := THR_TAIL_TAIL k n, full := THR_IRQ_RING_FULL k, lastCode := THR_LAST_CODE k, lastRing := THR_LAST_RING k,
    ring := n, code := cThrDesc }

/-- THR_TAIL_WRITE (R148). -/
def thrTailWrite (k n : Nat) (v : Word) (s : State) : State := tailWrite (thrRing k n) v s
def execThrTailWrite (k : Fin 4) (n : Fin 16) (v : Word) (s : State) : Host.Outcome State Fault Refusal :=
  .next (s.live (thrTailWrite k n v))

/-- The step in progress of a ring. -/
def thrStepOf (s : State) (k n : Nat) : Option ThrStep := (s.thr k).steps.find? (fun x => x.ring == n)

/-- Who a Thresher or Sower acts as in a ring. -/
def thrWho (k n : Nat) (s : State) : Who := ringWho k (THR_PLOT_PKEY k n) s

/-! Descriptors (R150, R151). -/

def tsKind (d : List Nat) : Nat := dw d 0 0 4
def tsLayer (d : List Nat) : Nat := dw d 0 4 7
def tsK (d : List Nat) : Nat := dw d 0 11 6
def tsCap (d : List Nat) : Nat := dw d 0 17 14
def tsBeMin (d : List Nat) : Nat := dw d 0 31 14
def tsNseg (d : List Nat) : Nat := dw d 0 45 7
def tsSeg (d : List Nat) : Nat := dw d 0 52 6
def tsPadzero (d : List Nat) : Nat := dw d 0 58 1
def tsFmt (d : List Nat) : Option Format := if 1 ≤ dw d 0 59 4 ∧ dw d 0 59 4 ≤ 9 then Format.ofCode (dw d 0 59 4) else none
def tsStepId (d : List Nat) : Nat := dw d 1 0 16
def tsJobs (d : List Nat) (k : Nat) : Nat := dw d 1 (16 + 8 * k) 8
def tsE (d : List Nat) : Nat := dw d 2 0 15
def tsMapIndex (d : List Nat) : Nat := dw d 2 15 21
def tsTokBase (d : List Nat) : Nat := dw d 3 0 24
def tsNtok (d : List Nat) : Nat := dw d 3 24 21
def tsAct (d : List Nat) : Nat := dw d 4 0 64
def tsActStride (d : List Nat) : Nat := dw d 5 0 32
def tsElems (d : List Nat) : Nat := dw d 5 32 17
def tsAsc (d : List Nat) : Nat := dw d 6 0 64
def tsAscStride (d : List Nat) : Nat := dw d 7 0 32
def tsSlotStride (d : List Nat) : Nat := dw d 7 32 32
def tsAssign (d : List Nat) : Nat := dw d 8 0 64
def tsScratch (d : List Nat) : Nat := dw d 9 0 64
def tsScratchBytes (d : List Nat) : Nat := dw d 10 0 32
def tsDrop (d : List Nat) : Nat := dw d 11 0 64
def tsTouch (d : List Nat) : Nat := dw d 12 0 64
def tsCompl (d : List Nat) : Nat := dw d 13 0 64

/-- Element bytes and scale bytes of a row. -/
def tsElemBytes (d : List Nat) : Nat := match tsFmt d with | some f => f.bytes (tsElems d) | none => 0
def tsScaleBytes (d : List Nat) : Nat :=
  match tsFmt d with
  | some f => if f.scaled then tsElems d / 32 else 0
  | none => 0

/-- ROW_BYTES (R150). -/
def tsRowBytes (d : List Nat) : Nat := tsElemBytes d + tsScaleBytes d

/-- Whether a step descriptor keeps R150 and R151; every address is checked, ASC_ADDR too where the format has no scale bytes (R151
excepts none). -/
def stepOk (s : State) (k n : Nat) (d : List Nat) : Bool :=
  onlyBits d [bitMask 0 62, bitMask 0 47, bitMask 0 35, bitMask 0 44, allBits, bitMask 0 48, allBits, allBits, allBits,
    allBits, bitMask 0 31, allBits, allBits, allBits, bitMask 0 25, 0] &&
  tsKind d == 3 && decide (1 ≤ tsK d) && decide (tsK d ≤ 32) && decide (1 ≤ tsCap d) && decide (tsCap d ≤ 8192) &&
  decide (tsBeMin d ≤ tsCap d) && decide (1 ≤ tsNseg d) && decide (tsNseg d ≤ 64) && decide (tsNseg d * tsCap d ≤ 8192) &&
  decide (tsSeg d < tsNseg d) && decide (1 ≤ tsE d) && decide (tsE d ≤ 16384) &&
  decide (tsMapIndex d + tsE d ≤ min (s.get (THR_MAP_SIZE_ENTRIES k)) 2097152) &&
  decide (1 ≤ tsNtok d) && decide (tsNtok d ≤ 2 ^ 20) && decide (tsTokBase d + tsNtok d ≤ 2 ^ 24) &&
  tsActStride d % 64 == 0 && decide (64 ≤ tsElems d) && decide (tsElems d ≤ 65536) &&
  tsSlotStride d % 64 == 0 && decide (tsRowBytes d ≤ tsSlotStride d) && tsScratchBytes d % 64 == 0 &&
  gaOk s 64 (tsAct d) && gaOk s 64 (tsAssign d) && gaOk s 64 (tsScratch d) && gaOk s 64 (tsDrop d) &&
  gaOk s 64 (tsTouch d) && gaOk s 64 (tsCompl d) && gaOk s 1 (tsAsc d) &&
  (match tsFmt d with
   | some f => tsElems d * f.bits % 512 == 0 && (!f.scaled || tsElems d % 32 == 0) &&
      f.isInt == ((s.plots.getD n {}).pers == 1)
   | none => false)

/-- step_digest of R157. -/
def stepDigest (d : List Nat) : Nat :=
  (List.range 16).foldl (fun g i =>
    let x := d.getD i 0
    dsrMix (g ^^^ (if i = 1 then x &&& (allBits - bitMask 16 47) else x))) 0

/-! Steps of a die. -/

/-- What THR_STATUS and THR_RSTAT show of a step (R177): 1 intake, 2 awaiting tokens, 3 sort. -/
def stepPhase (x : ThrStep) : Nat :=
  if x.fin || x.cut then (if x.closed then 0 else 1)
  else if !x.closed then 1 else if x.verdict.isSome then 3 else 2

/-- Shows a step. -/
def showStep (k : Nat) (x : ThrStep) (s : State) : State :=
  (((((s.set (THR_RSTAT_ACTIVE k x.ring) 1).set (THR_RSTAT_PHASE k x.ring) (stepPhase x)).set
    (THR_RSTAT_STEP_ID k x.ring) (tsStepId x.words)).set (THR_STATUS_BUSY k) 1).set (THR_STATUS_RING k) x.ring).set
    (THR_STATUS_PHASE k) (stepPhase x)

/-- Replaces a ring's step. -/
def putStep (k : Nat) (x : ThrStep) (s : State) : State :=
  let h := s.thr k
  showStep k x (s.setThr k { h with steps := h.steps.filter (fun y => y.ring != x.ring) ++ [x] })

/-- A step leaves its ring: HEAD passes it and the queued steps that a flush completed; waiting records and tokens of it
are dropped, and tokens that have not come yet will be. -/
def retireStep (k : Nat) (x : ThrStep) (s : State) : State :=
  let h := s.thr k
  let id := tsStepId x.words
  let own := fun (r : ThrTok) => r.ring == x.ring && r.stepId == id
  let missing := (List.range 4).filter (fun j => j != k && !(x.toks ++ h.inToks.filter own).any (fun r => r.src == j))
  let t := s.setThr k { h with
    steps := h.steps.filter (fun y => y.ring != x.ring),
    inRecs := h.inRecs.filter (fun r => !(recRing r.2.2 == x.ring && recTag r.2.2 == id % 1024)),
    inToks := h.inToks.filter (fun r => !own r),
    gone := h.gone ++ missing.map (fun j => (j, x.ring, id)) }
  let r := thrRing k x.ring
  let t := (List.range (x.skip + 1)).foldl (fun u _ => ringAdvance r u) t
  let t := t.setWord (THR_RSTAT_ACTIVE k x.ring).addr 0
  match (t.thr k).steps.getLast? with
  | some y => showStep k y t
  | none => (t.set (THR_STATUS_BUSY k) 0).set (THR_STATUS_PHASE k) 0

/-- The completion record of die `k` (R173); SOW_RC takes in the record's own 8 rc (R171). -/
def stepRecord (k : Nat) (x : ThrStep) (code : Nat) : List Nat :=
  let warn := ofBool (x.nomap != 0) + 2 * ofBool (x.dropLc + x.dropBe != 0)
  [putF code 0 16 + putF (tsStepId x.words) 16 16 + putF k 32 2 + putF warn 34 2,
   putF x.aOwn 0 32 + putF x.kept 32 32, putF x.dropLc 0 32 + putF x.dropBe 32 32,
   putF x.nomap 0 32 + putF x.manCount 32 32, x.bytes % 2 ^ 64, putF x.rc 0 32 + putF (x.sowRc + 8) 32 32,
   putF x.stallMan 0 32 + putF x.stallTb 32 32, 0]

/-- Writes a step's record and advances its DONE counter (R173); a record whose address is invalid is not written. -/
def finishStep (k : Nat) (x : ThrStep) (code : Nat) (s : State) : State :=
  let d := x.words
  let t := if gaOk s 64 (tsCompl d) then writeWords (thrWho k x.ring s) (tsCompl d + 64 * k) (stepRecord k x code) s else s
  let t := (doneOf (d.getD 14 0)).run t
  let t := if cThrDesc ≤ code ∧ code ≤ cThrDrops then
      ((t.set (THR_LAST_CODE k) code).set (THR_LAST_RING k) x.ring).set (THR_LAST_STEP_ID k) (tsStepId d)
    else t
  t.raise (if code = 0 then THR_IRQ_STEP_DONE k else THR_IRQ_STEP_FAIL k)

/-- A step fails before its cut (R157, R173): the record is written; a step still in intake keeps taking its records until
intake closes (log entry 18). -/
def failStep (k : Nat) (x : ThrStep) (code : Nat) (s : State) : State :=
  let x := { x with rc := ceilDiv x.aIn 4 }
  let t := finishStep k x code s
  if x.closed then retireStep k x t else putStep k { x with fin := true, own := code } t

/-- Notes the first failure that a die finds. -/
def ThrStep.found (x : ThrStep) (code : Nat) : ThrStep := if x.own = 0 then { x with own := code } else x

/-! The exchange (R156, R157). -/

/-- Whether a die holds everything it needs: intake closed, three tokens, and every record they count (R156); the records
do not matter once the step has failed somewhere. -/
def stepReady (x : ThrStep) : Bool :=
  x.closed && !x.fin && x.toks.length == 3 &&
    (x.own != 0 || x.toks.any (fun t => t.code != 0) || x.toks.all (fun t => Tab.get (fun _ => 0) x.got t.src == t.count))

/-- The copy of a step on die `j`: the step in progress there in the same ring that bears the STEP_ID of the token which die `j`
has sent, or where none has been taken the step's own. -/
def twin (s : State) (x : ThrStep) (j : Nat) : Option ThrStep :=
  match thrStepOf s j x.ring with
  | some y =>
    let id := match x.toks.find? (fun r => r.src == j) with | some r => r.stepId | none => tsStepId x.words
    if tsStepId y.words = id then some y else none
  | none => none

/-- What die `j` brings to the outcome of a step: the code it has found (0 for none), once it is ready; where it has ended the step
already, the code of its token; none while it is not known. -/
def standing (s : State) (x : ThrStep) (j : Nat) : Option Nat :=
  match twin s x j with
  | some y => if stepReady y then some y.own else none
  | none => (x.toks.find? (fun r => r.src == j && r.code != 0)).map (·.code)

/-- When the outcome of all four dies is known they settle one: the first code in die order, so that no outcome depends on which
die saw a fault first (R157; log entry 18). -/
def settleStep (x : ThrStep) (s : State) : State :=
  let ys := (List.range 4).map (standing s x)
  if ys.all Option.isSome then
    let code := (ys.filterMap id).foldl (fun a c => if a = 0 then c else a) 0
    (List.range 4).foldl (fun t j =>
      match twin t x j with
      | some y => putStep j { y with verdict := some code } t
      | none => t) s
  else s

/-- Sends the end-of-step tokens of a die; RD0 first clears the assignment table (R156), where ASSIGN_ADDR is an address of this
node at all (log entry 18). A token for a step that its receiver has ended is dropped. -/
def sendTokens (k : Nat) (x : ThrStep) (s : State) : State :=
  let d := x.words
  let s := if k = 0 ∧ gaOk s 64 (tsAssign d) then
      unitWrite (thrWho k x.ring s) (gaOff (tsAssign d)) (List.replicate (16 * tsNtok d * tsK d) 0) s
    else s
  (List.range 4).foldl (fun t j =>
    if j = k then t
    else
      let h := t.thr j
      let tok : ThrTok := ⟨k, x.ring, tsStepId d, stepDigest d, Tab.get (fun _ => 0) x.sent j, x.own⟩
      let g := (k, x.ring, tsStepId d)
      if h.gone.contains g then t.setThr j { h with gone := h.gone.erase g }
      else t.setThr j { h with inToks := h.inToks ++ [tok] }) s

/-- Closes intake once JOBSk end markers are counted (R154, R155). -/
def closeIntake (k : Nat) (x : ThrStep) (s : State) : State :=
  if !x.closed && x.marks == tsJobs x.words k then
    let y := { x with closed := true }
    let t := sendTokens k y s
    if y.fin then retireStep k y t else settleStep y (putStep k y t)
  else putStep k x s

/-! Starting a step (R150 to R153). -/

/-- Experts of a step that die `k` owns (R149). -/
def ownedExperts (k : Nat) (d : List Nat) : List Nat := (List.range (tsE d)).filter (fun e => e % 4 == k)

/-- Replica `r` of a map entry. -/
def repW0 (m : List Nat) (r : Nat) : Nat := m.getD (2 * r) 0
def repW1 (m : List Nat) (r : Nat) : Nat := m.getD (2 * r + 1) 0
def repValid (m : List Nat) (r : Nat) : Bool := bitOf (repW0 m r) 45

/-- The replica count R, or none for an entry that breaks R153. -/
def repCount (m : List Nat) : Option Nat :=
  let n := ((List.range 4).filter (repValid m)).length
  if (List.range 4).all (fun r => repValid m r == decide (r < n)) &&
      (List.range 4).all (fun r => repW0 m r / 2 ^ 46 == 0 && repW1 m r / 2 ^ 19 == 0) then some n
  else none

/-- Reads the entries of owned experts; none where one is refused, cannot be read or breaks R153. -/
def readMaps (k : Nat) (w : Who) (d : List Nat) : List Nat → State → Option (Tab (List Nat)) × State
  | [], s => (some [], s)
  | e :: es, s =>
    let r := unitRead w (s.get (THR_MAP_BASE_BASE k) * 64 + 64 * (tsMapIndex d + e)) 64 s
    let m := wordsOf r.2.1 8
    if r.1 ≠ 0 || (repCount m).isNone then (none, r.2.2)
    else
      match readMaps k w d es r.2.2 with
      | (some t, u) => (some ((e, m) :: t), u)
      | (none, u) => (none, u)

/-- Forgets what an earlier step of the same ring and STEP_ID has left: tokens it still missed here, and its own tokens that no
peer has taken. -/
def freshStep (k n id : Nat) (s : State) : State :=
  (List.range 4).foldl (fun t j =>
    let h := t.thr j
    if j = k then t.setThr j { h with gone := h.gone.filter (fun g => !(g.2.1 == n && g.2.2 == id)) }
    else t.setThr j { h with inToks := h.inToks.filter (fun r => !(r.src == k && r.ring == n && r.stepId == id)) }) s

/-- THR_STEP (R150): the step at HEAD of a ring starts intake. -/
def thrStep (k n : Nat) (s : State) : State :=
  let r := thrRing k n
  if (thrStepOf s k n).isSome || !ringHas r s || !s.flag (THR_CTRL_ENABLE k) then s
  else
    match readDescr (thrWho k n s) r (s.get r.head) s with
    -- a descriptor that cannot be read breaks R150 and names no JOBS: the step ends at once (log entry 15)
    | (none, t) => ringAdvance r ((ringNote r t).raise (THR_IRQ_STEP_FAIL k))
    | (some d, t) =>
      let x : ThrStep := { ring := n, words := d }
      let t := freshStep k n (tsStepId d) t
      if !stepOk t k n d then closeIntake k (x.found cThrDesc) t
      else
        match readMaps k (thrWho k n t) d (ownedExperts k d) t with
        | (some m, u) => closeIntake k { x with maps := m } u
        | (none, u) => closeIntake k (x.found cThrMap) u

def execThrStep (k : Fin 4) (n : Fin 16) (s : State) : Host.Outcome State Fault Refusal := .next (s.live (thrStep k n))

/-! Intake (R154, R155). -/

/-- Fields of a triple (R133). -/
def trToken (w0 : Nat) : Nat := bitsOf w0 0 24
def trExpert (w0 : Nat) : Nat := bitsOf w0 24 14
def trRank (w0 : Nat) : Nat := bitsOf w0 38 5
def trTenant (w0 : Nat) : Nat := bitsOf w0 43 13
def trClass (w0 : Nat) : Nat := bitsOf w0 56 1
def trLayer (w0 : Nat) : Nat := bitsOf w0 57 7
def recMark (w1 : Nat) : Bool := bitOf w1 48
def recAbort (w1 : Nat) : Bool := bitOf w1 49

/-- Appends a record to the owner's scratch (R154, R158). -/
def ownRecord (k : Nat) (x : ThrStep) (w0 w1 : Nat) (s : State) : ThrStep × State :=
  if x.own ≠ 0 then (x, s)
  else
    let d := x.words
    let i := x.recs.length
    if tsScratchBytes d < 16 * (i + 1) then (x.found cThrScratch, s)
    else
      let t := unitWrite (thrWho k x.ring s) (gaOff (tsScratch d + k * tsScratchBytes d + 16 * i)) (bytesOfWords [w0, w1]) s
      let y := { x with recs := x.recs ++ [(w0, w1)] }
      if x.recs.any (fun r => trExpert r.1 == trExpert w0 && trToken r.1 == trToken w0) then (y.found cThrRange, t) else (y, t)

/-- Whether a triple belongs in its step (R154). -/
def tripleOk (d : List Nat) (w0 : Nat) : Bool :=
  trLayer w0 == tsLayer d && decide (tsTokBase d ≤ trToken w0) && decide (trToken w0 < tsTokBase d + tsNtok d) &&
    decide (trExpert w0 < tsE d)

/-- The oldest record at the intake of die `k` that a step in progress takes, of the asked kind. -/
def intakeNext (s : State) (k : Nat) (mark : Bool) : Option (WinRec × ThrStep) :=
  match (s.win k).out.find? (fun r => thrOpen s k (recRing r.w1) (recTag r.w1)) with
  | some r => if recMark r.w1 == mark then (thrStepOf s k (recRing r.w1)).map (fun x => (r, x)) else none
  | none => none

/-- Removes the first occurrence of a record. -/
def dropRec (r : WinRec) : List WinRec → List WinRec
  | [] => []
  | q :: l => if q = r then l else q :: dropRec r l

/-- Takes a record from the intake. -/
def takeWin (k : Nat) (r : WinRec) (s : State) : State :=
  let h := s.win k
  s.setWin k { h with out := dropRec r h.out }

/-- TRIPLE (R154). -/
def tripleIn (k : Nat) (s : State) : State :=
  match intakeNext s k false with
  | none => s
  | some (r, x) =>
    let t := takeWin k r s
    let y := { x with aIn := x.aIn + 1 }
    let o := trExpert r.w0 % 4
    if y.own ≠ 0 then putStep k y t
    else if !tripleOk y.words r.w0 then putStep k (y.found cThrRange) t
    else if o = k then
      let z := ownRecord k y r.w0 r.w1 t
      putStep k z.1 z.2
    else
      let h := t.thr o
      let u := t.setThr o { h with inRecs := h.inRecs ++ [(k, r.w0, r.w1)] }
      putStep k { y with sent := Tab.set (fun _ => 0) y.sent o (Tab.get (fun _ => 0) y.sent o + 1) } u

def execTriple (k : Fin 4) (s : State) : Host.Outcome State Fault Refusal := .next (s.live (tripleIn k))

/-- END_MARKER (R155): counted toward closing intake; ABORT fails the step (R156). -/
def endMarkerIn (k : Nat) (s : State) : State :=
  match intakeNext s k true with
  | none => s
  | some (r, x) =>
    let y := { x with marks := x.marks + 1 }
    closeIntake k (if recAbort r.w1 then y.found cThrJobAbort else y) (takeWin k r s)

def execEndMarker (k : Fin 4) (s : State) : Host.Outcome State Fault Refusal := .next (s.live (endMarkerIn k))

/-- FORWARDED_RECORD (R154, R155): the oldest forwarded record whose step is in progress here. -/
def forwardedRecord (k : Nat) (s : State) : State :=
  let h := s.thr k
  match h.inRecs.zipIdx.find? (fun r => match thrStepOf s k (recRing r.1.2.2) with
      | some x => tsStepId x.words % 1024 == recTag r.1.2.2 && x.verdict.isNone
      | none => false) with
  | none => s
  | some ((src, w0, w1), i) =>
    match thrStepOf s k (recRing w1) with
    | none => s
    | some x =>
      let t := s.setThr k { h with inRecs := h.inRecs.eraseIdx i }
      let y := ownRecord k { x with got := Tab.set (fun _ => 0) x.got src (Tab.get (fun _ => 0) x.got src + 1) } w0 w1 t
      settleStep y.1 (putStep k y.1 y.2)

def execForwardedRecord (k : Fin 4) (s : State) : Host.Outcome State Fault Refusal := .next (s.live (forwardedRecord k))

/-- Whether the step in progress of its ring takes a token: the copies of one step meet in ring order (R148), so a token of the
same STEP_ID, or where none waits, that of the step which its sender holds in that ring (log entry 18). -/
def tokenFits (s : State) (k : Nat) (r : ThrTok) : Bool :=
  match thrStepOf s k r.ring with
  | some x =>
    let id := tsStepId x.words
    x.verdict.isNone && !x.toks.any (fun t => t.src == r.src) &&
      (r.stepId == id || (!(s.thr k).inToks.any (fun t => t.src == r.src && t.ring == r.ring && t.stepId == id) &&
        (match thrStepOf s r.src r.ring with | some y => tsStepId y.words == r.stepId | none => false)))
  | none => false

/-- END_OF_STEP_TOKEN (R156, R157). The code of a token with ABORT reaches this die's outcome when all four settle. -/
def endOfStepToken (k : Nat) (s : State) : State :=
  let h := s.thr k
  match h.inToks.zipIdx.find? (fun r => tokenFits s k r.1) with
  | none => s
  | some (tok, i) =>
    match thrStepOf s k tok.ring with
    | none => s
    | some x =>
      let t := s.setThr k { h with inToks := h.inToks.eraseIdx i }
      let y := { x with toks := x.toks ++ [tok] }
      let y := if tok.code = 0 && tok.digest != stepDigest x.words then y.found cThrMismatch else y
      settleStep y (putStep k y t)

def execEndOfStepToken (k : Fin 4) (s : State) : Host.Outcome State Fault Refusal := .next (s.live (endOfStepToken k))

/-- Marks the tokens that die `k` has sent for a step with the code it has failed with since: a failure on any one die fails the
step on all four (R157; log entry 18). -/
def abortTokens (k : Nat) (x : ThrStep) (code : Nat) (s : State) : State :=
  let mark := fun (r : ThrTok) => if r.src == k && r.ring == x.ring && r.stepId == tsStepId x.words && r.code == 0 then
      { r with code := code } else r
  (List.range 4).foldl (fun t j =>
    let h := t.thr j
    t.setThr j { h with inToks := h.inToks.map mark, steps := h.steps.map (fun y => { y with toks := y.toks.map mark }) }) s

/-- THR_TIMEOUT (R157): tokens are missing at the limit. A die whose intake is still open although a token has told it of the
failure ends with that token's code. -/
def thrTimeout (k n : Nat) (s : State) : State :=
  match thrStepOf s k n with
  | none => s
  | some x =>
    let told := (x.toks.find? (fun r => r.code != 0)).map (·.code)
    if x.fin || x.cut || x.verdict.isSome || (x.toks.length == 3 && (x.closed || told.isNone)) then s
    else
      let code := if x.toks.length = 3 then told.getD cThrTimeout else cThrTimeout
      let t := abortTokens k x code (failStep k x code s)
      (List.range 4).foldl (fun u j =>
        match (if j = k then none else thrStepOf u j n) with
        | some y => if y.verdict.isNone then settleStep y u else u
        | none => u) t

def execThrTimeout (k : Fin 4) (n : Fin 16) (s : State) : Host.Outcome State Fault Refusal := .next (s.live (thrTimeout k n))

/-! The cut (R158 to R162). -/

/-- Order of the priority key (R158). -/
def keyLt (a b : Nat) : Bool :=
  let k := fun w => (trClass w * 2 ^ 13 + trTenant w) * 2 ^ 24 + trToken w
  decide (k a < k b)

/-- Inserts a record at its place in key order. -/
def keyInsert (a : Nat × Nat) : List (Nat × Nat) → List (Nat × Nat)
  | [] => [a]
  | b :: l => if keyLt a.1 b.1 then a :: b :: l else b :: keyInsert a l

/-- The kept and the dropped assignments of one expert (R159). -/
def cutExpert (d : List Nat) (asg : List (Nat × Nat)) : List (Nat × Nat) × List (Nat × Nat) :=
  let sorted := asg.foldr keyInsert []
  let lc := sorted.filter (fun a => trClass a.1 == 0)
  let be := sorted.filter (fun a => trClass a.1 == 1)
  let keepLc := min lc.length (tsCap d - min be.length (tsBeMin d))
  let keepBe := min be.length (tsCap d - keepLc)
  (lc.take keepLc ++ be.take keepBe, lc.drop keepLc ++ be.drop keepBe)

/-- Replica and slot of each kept assignment (R159). -/
def place (d : List Nat) (r : Nat) : Tab Nat → List (Nat × Nat) → List ((Nat × Nat) × Nat × Nat)
  | _, [] => []
  | rank, a :: l =>
    let q := trToken a.1 % r
    let n := Tab.get (fun _ => 0) rank q
    (a, q, tsSeg d * tsCap d + n) :: place d r (Tab.set (fun _ => 0) rank q (n + 1)) l

/-- One entry of the assignment table (R161). -/
def assignEntry (a : Nat × Nat) (state node lcore slot replica : Nat) : List Nat :=
  [putF node 0 18 + putF lcore 18 7 + putF slot 25 13 + putF (trExpert a.1) 38 14 + putF replica 52 2 + putF state 54 2,
   bitsOf a.2 0 32]

/-- Writes an entry. -/
def putEntry (k : Nat) (x : ThrStep) (a : Nat × Nat) (e : List Nat) (s : State) : State :=
  let d := x.words
  writeWords (thrWho k x.ring s) (tsAssign d + 16 * ((trToken a.1 - tsTokBase d) * tsK d + trRank a.1)) e s

/-- Counts a drop or a NOMAP assignment for its tenant (R162). -/
def tenantDrop (k : Nat) (a : Nat × Nat) (s : State) : State :=
  s.countSat (if trClass a.1 = 0 then THR_TDROP_LC k (trTenant a.1) else THR_TDROP_BE k (trTenant a.1)) 1

/-- Writes an expert's drop count and touch bit (R161): an owner changes its own experts' bits of a byte alone. -/
def expertOut (k : Nat) (x : ThrStep) (e drops : Nat) (touched : Bool) (s : State) : State :=
  let d := x.words
  let w := thrWho k x.ring s
  let t := unitWrite w (gaOff (tsDrop d + 4 * e)) (toBytes 4 drops) s
  let a := gaOff (tsTouch d + e / 8)
  let b := (t.byte a).toNat
  let v := if touched then b ||| 2 ^ (e % 8) else b &&& (255 - 2 ^ (e % 8))
  unitWrite w a [BitVec.ofNat 8 v] t

/-- One owned expert (R153, R159 to R161). -/
def cutOne (k e : Nat) (r : ThrStep × State) : ThrStep × State :=
  let x := r.1
  let asg := x.recs.filter (fun a => trExpert a.1 == e)
  let m := Tab.get (fun _ => []) x.maps e
  match repCount m with
  | some 0 | none =>
    let t := asg.foldl (fun u a => tenantDrop k a (putEntry k x a (assignEntry a 3 0 0 0 0) u)) r.2
    ({ x with nomap := x.nomap + asg.length }, expertOut k x e 0 false t)
  | some n =>
    let c := cutExpert x.words asg
    let ps := place x.words n [] c.1
    let t := ps.foldl (fun u p => putEntry k x p.1
      (assignEntry p.1 1 (bitsOf (repW0 m p.2.1) 0 18) (bitsOf (repW0 m p.2.1) 18 7) p.2.2 p.2.1) u) r.2
    let t := c.2.foldl (fun u a => tenantDrop k a (putEntry k x a (assignEntry a 2 0 0 0 0) u)) t
    let man := (List.range n).map (fun q =>
      ({ node := bitsOf (repW0 m q) 0 18, lcore := bitsOf (repW0 m q) 18 7, ctr := bitsOf (repW0 m q) 25 10,
         manctr := bitsOf (repW0 m q) 35 10, region := bitsOf (repW1 m q) 0 19,
         count := (ps.filter (fun p => p.2.1 == q)).length } : ManRec))
    let rows := ps.map (fun p =>
      ({ cls := trClass p.1.1, tenant := trTenant p.1.1, token := trToken p.1.1, expert := e, replica := p.2.1, slot := p.2.2,
         node := bitsOf (repW0 m p.2.1) 0 18, lcore := bitsOf (repW0 m p.2.1) 18 7, ctr := bitsOf (repW0 m p.2.1) 25 10,
         manctr := bitsOf (repW0 m p.2.1) 35 10, region := bitsOf (repW1 m p.2.1) 0 19 } : RowRec))
    ({ x with kept := x.kept + c.1.length, dropLc := x.dropLc + (c.2.filter (fun a => trClass a.1 == 0)).length,
              dropBe := x.dropBe + (c.2.filter (fun a => trClass a.1 == 1)).length, mans := x.mans ++ man, rows := x.rows ++ rows },
      expertOut k x e c.2.length (!c.1.isEmpty) t)

/-- Rc of the Thresher's phases (R171): intake, close, sort and outputs; map reads lie within intake. -/
def thrRc (k : Nat) (x : ThrStep) : Nat :=
  let own := (ownedExperts k x.words).length
  ceilDiv x.aIn 4 + 32 + 2 * ceilDiv x.aOwn 4 + ceilDiv own 16 + ceilDiv x.aOwn 4 + ceilDiv own 16

/-- Whether an LC step waits for its close while a BE ring is asked (R355). -/
def lcFirst (k n : Nat) (s : State) : Bool :=
  s.flag (THR_PLOT_CLASS k n) &&
    (s.thr k).steps.any (fun y => !s.flag (THR_PLOT_CLASS k y.ring) && y.verdict.isSome && !y.cut && !y.fin)

/-- What routing-die firmware is to fetch and pin for a step under STRICT: each expert with a kept assignment, charged to the tenant and the
class of the first one in key order (R158, R365). -/
def coldOf (k : Nat) (x : ThrStep) (s : State) : List ColdExp :=
  if (s.plots.getD x.ring {}).resmode ≠ 0 then []
  else
    (ownedExperts k x.words).filterMap (fun e => (x.rows.find? (fun r => r.expert == e)).map (fun r =>
      ({ die := k, ring := x.ring, assign := tsAssign x.words, layer := tsLayer x.words, expert := e, tenant := r.tenant,
         be := r.cls != 0 } : ColdExp)))

/-- Firmware takes them up. -/
def coldAdd (xs : List ColdExp) (s : State) : State := { s with serv := { s.serv with cold := s.serv.cold ++ xs } }

/-- CUT (R159, R355): with all tokens and records held, the outcome that the four dies settled is carried out on die `k`. -/
def thrCut (k n : Nat) (s : State) : State :=
  match thrStepOf s k n with
  | none => s
  | some x =>
    if x.fin || x.cut || lcFirst k n s then s
    else
      match x.verdict with
      | none => s
      | some (c + 1) => failStep k x (c + 1) s
      | some 0 =>
        let r := (ownedExperts k x.words).foldl (fun r e => cutOne k e r) ({ x with aOwn := x.recs.length }, s)
        let y := r.1
        let t := (((r.2.count (THR_ASSIGNED_COUNT k) y.aOwn).count (THR_KEPT_COUNT k) y.kept).count (THR_DROPPED_COUNT k)
          (y.dropLc + y.dropBe)).count (THR_NOMAPPED_COUNT k) y.nomap
        let t := if y.nomap = 0 then t else rdWarn k 1 cThrNomap 0 (t.raise (THR_IRQ_WARN k))
        let t := if y.dropLc + y.dropBe = 0 then t else rdWarn k 1 cThrDrops 0 (t.raise (THR_IRQ_WARN k))
        let h := t.thr k
        let n := Tab.get (fun _ => 0) h.wrote (tsAssign x.words) + 1
        let t := t.setThr k { h with wrote := Tab.set (fun _ => 0) h.wrote (tsAssign x.words) n }
        let t := coldAdd (coldOf k y t) t
        putStep k { y with cut := true, rc := thrRc k y, recs := [], rows := (if y.status = 0 then y.rows else []) } t

def execCut (k : Fin 4) (n : Fin 16) (s : State) : Host.Outcome State Fault Refusal := .next (s.live (thrCut k n))

/-! Flush and clear (R175, R177). -/

/-- Completes the queued steps of a ring with THR_FLUSHED, from an entry; gives how many. -/
def flushQueued (k n : Nat) : Nat → Nat → State → Nat × State
  | 0, _, s => (0, s)
  | f + 1, i, s =>
    let r := thrRing k n
    if i = s.get r.tail then (0, s)
    else
      let t := match readDescr (thrWho k n s) r i s with
        | (some d, t) => finishStep k { ring := n, words := d } cThrFlushed t
        | (none, t) => (((t.set (THR_LAST_CODE k) cThrFlushed).set (THR_LAST_RING k) n)).raise (THR_IRQ_STEP_FAIL k)
      let q := flushQueued k n f (ringNext r s i) t
      (q.1 + 1, q.2)

/-- Skips entries from one. -/
def skipFrom (r : RingRegs) (s : State) : Nat → Nat → Nat
  | 0, i => i
  | n + 1, i => skipFrom r s n (ringNext r s i)

/-- SOW_CMD.FLUSH, and a THR flush that comes after the cut (R174, R176). -/
def sowFail (k : Nat) (x : ThrStep) (code node : Nat) (s : State) : State :=
  if x.status ≠ 0 then s
  else
    putStep k { x with status := code, rows := [] }
      ((((s.set (SOW_LAST_CODE k) code).set (SOW_LAST_NODE k) node).set (SOW_LAST_STEP_ID k) (tsStepId x.words)).raise
        (SOW_IRQ_SEND_FAIL k))

/-- THR_FLUSH (R175, R176): the running step fails at its next phase boundary, through the tokens; a step whose cut is
decided goes on and its Sower is flushed; queued steps get records without running. -/
def thrFlush (k n : Nat) (s : State) : State :=
  let r := thrRing k n
  match thrStepOf s k n with
  | none =>
    let q := flushQueued k n 4096 (s.get r.head) s
    q.2.set r.head (q.2.get r.tail)
  | some x =>
    let q := flushQueued k n 4096 (skipFrom r s (x.skip + 1) (s.get r.head)) s
    let y := { x with skip := x.skip + q.1 }
    if x.fin then putStep k y q.2
    else if x.cut || x.verdict == some 0 then sowFail k y cSowFlushed 0 (putStep k y q.2)
    else putStep k (y.found cThrFlushed) q.2

def execThrFlush (k : Fin 4) (n : Fin 16) (s : State) : Host.Outcome State Fault Refusal := .next (s.live (thrFlush k n))

/-- THR_TDCLR (R177). -/
def thrTdclr (k : Nat) (s : State) : State :=
  { s with regs := s.regs.filter (fun r => !(decide ((THR_TDROP_LC k 0).addr ≤ r.1) && decide (r.1 < (THR_TDROP_LC k 8192).addr))) }

def execThrTdclr (k : Fin 4) (s : State) : Host.Outcome State Fault Refusal := .next (s.live (thrTdclr k))

end Sys2Proof.Machine
end

