-- ==== Sys2Proof/Machine/Sower.lean ====
section
/-!
DEFINITION. The Sower (06_thresher_and_sower R163 to R170, R173, R174, R178): manifests, rows, token-rate buckets,
landings at the destination, and the completion of a step.
-/
namespace Sys2Proof.Machine

def State.sow (s : State) (k : Nat) : SowHid := Tab.get (fun _ => ({} : SowHid)) s.sows k
def State.setSow (s : State) (k : Nat) (h : SowHid) : State :=
  { s with sows := Tab.set (fun _ => ({} : SowHid)) s.sows k h }

/-- Unit number of the Sower as an agent of the fabric (R269). -/
def uSow : Nat := 2

/-! Completions of what it sent. -/

/-- One completed request: a manifest (tag 0) or a piece of row tag - 1 (R164, R174, R178). -/
def sowDone (k : Nat) (d : DoneReq) (s : State) : State :=
  match d.agent with
  | .unit _ ring tag node =>
    let h := s.sow k
    let fail := fun (t : State) =>
      if d.status = 0 then t
      else
        match thrStepOf t k ring with
        | some x => sowFail k x cSowSend node t
        | none => t
    if tag = 0 then fail (s.setSow k { h with manOut := h.manOut.erase (node, ring) })
    else
      match h.rowsOut.find? (fun r => r.rid + 1 == tag) with
      | none => s
      | some r =>
        let r2 := { r with left := r.left - 1, ok := r.ok && d.status == 0 }
        let rest := h.rowsOut.filter (fun q => q.rid + 1 != tag)
        if r2.left ≠ 0 then fail (s.setSow k { h with rowsOut := rest ++ [r2] })
        else
          let t := s.setSow k { h with rowsOut := rest }
          if !r2.ok then fail t
          else
            let t := (t.count (SOW_ROWS_SENT_COUNT k) 1).count (SOW_BYTES_SENT_COUNT k) r2.bytes
            match thrStepOf t k r2.ring with
            | some x => putStep k { x with bytes := x.bytes + r2.bytes } t
            | none => t
  | _ => s

/-- Takes up the completions of requests that a unit of die `k` issued. -/
def takeDone (k u : Nat) (f : DoneReq → State → State) (s : State) : State :=
  let mine := fun (d : DoneReq) => d.k == k && (match d.agent with | .unit v _ _ _ => v == u | _ => false)
  (s.vt.done.filter mine).foldl (fun t d => f d t)
    { s with vt := { s.vt with done := s.vt.done.filter (fun d => !mine d) } }

/-- The Sower takes up its completions. -/
def sowCollect (k : Nat) (s : State) : State := takeDone k uSow (sowDone k) s

/-! Manifests (R164). -/

/-- The extension words of a manifest (R265). -/
def manExt (d : List Nat) (m : ManRec) : List Nat :=
  [putF 1 0 4 + putF m.lcore 4 7 + putF m.ctr 11 10 + putF m.manctr 21 10 + putF m.region 31 19,
   putF (tsSeg d) 0 6 + putF (tsCap d) 6 14 + putF (tsNseg d) 20 7 + putF m.count 27 14 + putF (tsPadzero d) 41 1,
   putF (tsSlotStride d) 0 32, 0, 0, 0, 0, 0]

/-- SOW_DISPATCH (R164): the manifests of a step whose cut is done. -/
def sowDispatch (k n : Nat) (s0 : State) : State :=
  let s := sowCollect k s0
  match thrStepOf s k n with
  | none => s
  | some x =>
    if !x.cut || x.manSent || !s.flag (SOW_CTRL_ENABLE k) then s
    else
      let d := x.words
      let h := s.sow k
      let t := s.setSow k { h with manOut := h.manOut ++ x.mans.map (fun m => (m.node, n)) }
      let t := putStep k { x with manSent := true, manCount := x.mans.length, sowRc := x.sowRc + ceilDiv x.mans.length 8 } t
      let t := x.mans.foldl (fun u m =>
        vtIssue k m.node (.unit uSow n 0 m.node)
          ({ h := { kind := kLand, cls := s.get (THR_PLOT_CLASS k n), key := s.get (THR_PLOT_PKEY k n), ext := 1 },
             ext := manExt d m } : Packet).sized none u) t
      (t.set (SOW_STATUS_BUSY k) 1).set (SOW_STATUS_RING k) n

def execSowDispatch (k : Fin 4) (n : Fin 16) (s : State) : Host.Outcome State Fault Refusal := .next (s.live (sowDispatch k n))

/-- MANIFEST_COMPLETE (R164): completed manifests release the rows of their nodes. -/
def manifestComplete (k : Nat) (s : State) : State := sowCollect k s

def execManifestComplete (k : Fin 4) (s : State) : Host.Outcome State Fault Refusal := .next (s.live (manifestComplete k))

/-! Rows (R165, R166). -/

/-- A tenant's level in 1/1,000 row (R167). -/
def tbLevel (s : State) (k t : Nat) : Nat := Tab.get (fun _ => 0) (s.sow k).tb t

/-- Whether a row of a tenant may go now (R167). -/
def tbOk (s : State) (k t : Nat) : Bool := s.get (SOW_TB_RATE k t) == 0 || decide (1000 ≤ tbLevel s k t)

/-- Sets a tenant's level and shows it in whole rows. -/
def setTb (k t v : Nat) (s : State) : State :=
  let h := s.sow k
  (s.setSow k { h with tb := Tab.set (fun _ => 0) h.tb t v }).set (SOW_TB_LEVEL k t) (v / 1000)

/-- Rows of a class that can go now, with their rings: the node's manifests have completed and the bucket allows. -/
def sowReady (k cls : Nat) (s : State) : List (Nat × RowRec) :=
  (s.thr k).steps.flatMap (fun x =>
    if x.cut && x.manSent && x.status == 0 then
      (x.rows.filter (fun r => r.cls == cls && tbOk s k r.tenant && !(s.sow k).manOut.any (fun m => m.1 == r.node))).map
        (fun r => (x.ring, r))
    else [])

/-- Order of rows within a node (R166); rows of several steps with one key go by ring. -/
def rowKey (r : Nat × RowRec) : Nat := ((r.2.expert * 4 + r.2.replica) * 8192 + r.2.slot) * 16 + r.1

/-- The row with the least key. -/
def leastRow : List (Nat × RowRec) → Option (Nat × RowRec)
  | [] => none
  | r :: rs =>
    match leastRow rs with
    | none => some r
    | some q => if rowKey q < rowKey r then some q else some r

/-- The least node of a list, above a bound if there is one, else the least of all: the rounds of R166. -/
def nextNode (last : Option Nat) (ns : List Nat) : Option Nat :=
  let least := fun (l : List Nat) => l.foldl (fun a n => match a with | none => some n | some m => some (min m n)) none
  match last with
  | none => least ns
  | some v => match least (ns.filter (fun n => decide (v < n))) with
    | some n => some n
    | none => least ns

/-- The row sent next in a class. -/
def pickRow (k cls : Nat) (s : State) : Option (Nat × RowRec) :=
  let rs := sowReady k cls s
  match nextNode (if cls = 0 then (s.sow k).lastLc else (s.sow k).lastBe) (rs.map (fun r => r.2.node)) with
  | none => none
  | some n => leastRow (rs.filter (fun r => r.2.node == n))

/-- Pieces of 2,048 bytes. -/
def pieces2k : Nat → List Byte → List (List Byte)
  | 0, _ => []
  | n + 1, bs => if bs.isEmpty then [] else bs.take 2048 :: pieces2k n (bs.drop 2048)

/-- The extension words of a landing piece (R265). -/
def pieceExt (d : List Nat) (r : RowRec) (i n : Nat) : List Nat :=
  [putF 2 0 4 + putF r.lcore 4 7 + putF r.ctr 11 10 + putF r.manctr 21 10 + putF r.region 31 19, 0,
   putF (tsSlotStride d) 0 32 + putF r.slot 32 13 + putF i 45 7 + putF n 52 7, 0, 0, 0, 0, 0]

/-- Sends one row as landing pieces (R165). -/
def sendRow (k n : Nat) (r : RowRec) (x : ThrStep) (s : State) : State :=
  let d := x.words
  let w := thrWho k n s
  let i := r.token - tsTokBase d
  let e := unitRead w (gaOff (tsAct d + i * tsActStride d)) (tsElemBytes d) s
  let c := if tsScaleBytes d = 0 then (0, [], e.2.2) else unitRead w (gaOff (tsAsc d + i * tsAscStride d)) (tsScaleBytes d) e.2.2
  let y := { x with rows := x.rows.filter (fun q => q ≠ r), sowRc := x.sowRc + ceilDiv (tsRowBytes d) 500 }
  if e.1 ≠ 0 then sowFail k y cSowAct 0 e.2.2
  else if c.1 ≠ 0 then sowFail k y cSowAct 0 c.2.2
  else
    let ps := pieces2k 64 (e.2.1 ++ c.2.1)
    let h := s.sow k
    let rid := h.nextRow
    let t := c.2.2
    let t := if s.get (SOW_TB_RATE k r.tenant) = 0 then t else setTb k r.tenant (tbLevel t k r.tenant - 1000) t
    let h := t.sow k
    let h := if r.cls = 0 then { h with lastLc := some r.node } else { h with lastBe := some r.node }
    let t := t.setSow k { h with nextRow := rid + 1, rowsOut := h.rowsOut ++ [⟨rid, n, ps.length, true, tsRowBytes d⟩] }
    let t := ((putStep k y t).set (SOW_STATUS_RING k) n).set (SOW_STATUS_CLASS k) r.cls
    ps.zipIdx.foldl (fun u q =>
      vtIssue k r.node (.unit uSow n (rid + 1) r.node)
        ({ h := { kind := kLand, cls := r.cls, key := s.get (THR_PLOT_PKEY k n), ext := 1 },
           ext := pieceExt d r q.2 ps.length, data := q.1 } : Packet).sized none u) t

/-- SOW_ROW_SEND (R166): the next eligible row, LC before BE, with the rc it waited for input, manifests and buckets. -/
def sowRowSend (k stallIn stallMan stallTb : Nat) (s0 : State) : State :=
  let s := sowCollect k s0
  if !s.flag (SOW_CTRL_ENABLE k) then s
  else
    match (match pickRow k 0 s with | some r => some r | none => pickRow k 1 s) with
    | none => s
    | some (n, r) =>
      match thrStepOf s k n with
      | none => s
      | some x =>
        let t := ((s.count (SOW_STALL_IN_COUNT k) stallIn).count (SOW_STALL_MAN_COUNT k) stallMan).count
          (SOW_STALL_TB_COUNT k) stallTb
        sendRow k n r { x with stallMan := x.stallMan + stallMan, stallTb := x.stallTb + stallTb } t

def execSowRowSend (k : Fin 4) (stallIn stallMan stallTb : Nat) (s : State) : Host.Outcome State Fault Refusal :=
  .next (s.live (sowRowSend k stallIn stallMan stallTb))

/-! Buckets (R167). -/

/-- Tenants of die `k` whose bucket register has been written. -/
def tbTenants (k : Nat) (s : State) : List Nat :=
  (s.regs.filter (fun r => decide ((SOW_TB_RATE k 0).addr ≤ r.1) && decide (r.1 < (SOW_TB_RATE k 8192).addr) &&
    r.1 % 8 == 0)).map (fun r => (r.1 - (SOW_TB_RATE k 0).addr) / 8)

/-- SOW_TB_TICK (R167). -/
def sowTbTick (k : Nat) (s : State) : State :=
  (tbTenants k s).foldl (fun u t =>
    if u.get (SOW_TB_RATE k t) = 0 then u
    else setTb k t (min (tbLevel u k t + u.get (SOW_TB_RATE k t)) (1000 * max 1 (u.get (SOW_TB_BURST k t)))) u) s

def execSowTbTick (k : Fin 4) (s : State) : Host.Outcome State Fault Refusal := .next (s.live (sowTbTick k))

/-- SOW_TB_WRITE (R167). -/
def sowTbWrite (k t : Nat) (v : Word) (s : State) : State :=
  let u := (s.set (SOW_TB_RATE k t) ((SOW_TB_RATE k t).of v)).set (SOW_TB_BURST k t) ((SOW_TB_BURST k t).of v)
  setTb k t (1000 * max 1 ((SOW_TB_BURST k t).of v)) u

def execSowTbWrite (k : Fin 4) (t : Fin 8192) (v : Word) (s : State) : Host.Outcome State Fault Refusal :=
  .next (s.live (sowTbWrite k t v))

/-! Completion and flush (R173, R174). -/

/-- SOW_COMPLETION (R173): every row and manifest of a ring's step has completed. -/
def sowCompletion (k n : Nat) (s0 : State) : State :=
  let s := sowCollect k s0
  match thrStepOf s k n with
  | none => s
  | some x =>
    let h := s.sow k
    if !x.cut || !x.manSent || !x.rows.isEmpty || h.manOut.any (fun m => m.2 == n) || h.rowsOut.any (fun r => r.ring == n) then s
    else
      let t := retireStep k x (finishStep k x x.status s)
      let t := if x.status = 0 then t.raise (SOW_IRQ_SEND_DONE k) else t
      if (t.thr k).steps.any (fun y => y.manSent) then t else t.set (SOW_STATUS_BUSY k) 0

def execSowCompletion (k : Fin 4) (n : Fin 16) (s : State) : Host.Outcome State Fault Refusal := .next (s.live (sowCompletion k n))

/-- SOW_FLUSH (R174). -/
def sowFlush (k n : Nat) (s0 : State) : State :=
  let s := sowCollect k s0
  match thrStepOf s k n with
  | none => s
  | some x => if x.cut then sowFail k x cSowFlushed 0 s else s

def execSowFlush (k : Fin 4) (n : Fin 16) (s : State) : Host.Outcome State Fault Refusal := .next (s.live (sowFlush k n))

/-! Landing (R168 to R170). -/

/-- Fields of a LAND extension (R265). -/
def ldSub (p : Packet) : Nat := p.x 0 0 4
def ldCore (p : Packet) : Nat := p.x 0 4 7
def ldCtr (p : Packet) : Nat := p.x 0 11 10
def ldManctr (p : Packet) : Nat := p.x 0 21 10
def ldBase (p : Packet) : Nat := p.x 0 31 19 * 64
def ldSeg (p : Packet) : Nat := p.x 1 0 6
def ldCap (p : Packet) : Nat := p.x 1 6 14
def ldNseg (p : Packet) : Nat := p.x 1 20 7
def ldCount (p : Packet) : Nat := p.x 1 27 14
def ldPad (p : Packet) : Bool := p.x 1 41 1 == 1
def ldStride (p : Packet) : Nat := p.x 2 0 32
def ldSlot (p : Packet) : Nat := p.x 2 32 13
def ldPiece (p : Packet) : Nat := p.x 2 45 7
def ldPieces (p : Packet) : Nat := p.x 2 52 7

/-- Local address of a slot (R163). -/
def slotAddr (p : Packet) (i : Nat) : Nat := ldBase p + 1280 + i * ldStride p

/-- The checks of R168 on a landing at physical core `c`: SOW_LAND, or the fabric's own refusal (R262, R431), or 0. The
window is checked over the whole region for a manifest, and over its own bytes for a piece (log entry 19). -/
def landCode (p : Packet) (c : Nat) (s : State) : Nat :=
  let slots := s.get (CORE_ARR_SLOTS c (ldCtr p))
  let man := ldSub p == 1
  let plotOk := match s.plotOf c with | some i => (s.plots.getD i {}).pkey == p.h.key | none => false
  let fit := if man then
      ldNseg p * ldCap p == slots && decide (ldSeg p * ldCap p + ldCount p ≤ slots)
    else decide (ldSlot p < slots)
  if !(ldSub p == 1 || ldSub p == 2) || !fit || decide (csSize < slotAddr p slots) || !plotOk then cSowLand
  else if man then accessCode s p.h.stream p.h.key pL (csOffset c (ldBase p)) (slotAddr p slots - ldBase p)
  else accessCode s p.h.stream p.h.key pL (csOffset c (slotAddr p (ldSlot p) + 2048 * ldPiece p)) p.data.length

/-- A refused landing (R168, R273). -/
def landRefuse (p : Packet) (c code : Nat) (s : State) : State :=
  let k := c / 36
  let t := if code = cSowLand then
      ((((s.countSat (SOW_LAND_REJ_COUNT k) 1).set (SOW_LAST_CODE k) cSowLand).set (SOW_LAST_NODE k) p.h.src).set
        (SOW_LAST_STEP_ID k) 0).raise (SOW_IRQ_LAND_REJ k)
    else s
  vtRefused p code t

/-- Sets or clears one validity bit of a landing region (R163). -/
def setValid (c : Nat) (p : Packet) (i : Nat) (on : Bool) (s : State) : State :=
  let a := csOffset c (ldBase p + 256 + i / 8)
  let b := (s.byte a).toNat
  s.setByte a (BitVec.ofNat 8 (if on then b ||| 2 ^ (i % 8) else b &&& (255 - 2 ^ (i % 8))))

/-- A manifest is applied in the order of R169. -/
def applyManifest (c : Nat) (p : Packet) (s : State) : State :=
  let first := ldSeg p * ldCap p
  let s1 := storeBytes (csOffset c (ldBase p + 4 * ldSeg p)) (toBytes 4 (ldCount p)) s
  let s2 := (List.range (max (ldCap p) (ldCount p))).foldl (fun t i => setValid c p (first + i) (decide (i < ldCount p)) t) s1
  let pads := (List.range (ldCap p)).filter (fun i => decide (ldCount p ≤ i))
  let s3 := if ldPad p then
      pads.foldl (fun t i => storeBytes (csOffset c (slotAddr p (first + i))) (List.replicate (ldStride p) 0) t) s2
    else s2
  let s4 := pads.foldl (fun t i => arriveSlot c (ldCtr p) (first + i) t) s3
  (arriveInc c (ldManctr p) 1 s4).count (SOW_MAN_LANDED_COUNT (c / 36)) 1

/-- The physical core of a landing; none is refused under the die that received it. -/
def landCore (p : Packet) (s : State) : Option Nat := physOf s (ldCore p)

/-- LAND_MANIFEST (R168, R169). -/
def landManifest (i : Nat) (s : State) : State :=
  match vtTake (fun p => p.h.kind == kLand && ldSub p != 2) i s with
  | .gone t => t
  | .again _ t => t
  | .fresh p t =>
    match landCore p t with
    | none => landRefuse p (36 * p.h.stream) cSowLand t
    | some c =>
      let code := landCode p c t
      if code ≠ 0 then landRefuse p c code t else vtApplied p (applyManifest c p t)

def execLandManifest (i : Nat) (s : State) : Host.Outcome State Fault Refusal := .next (s.live (landManifest i))

/-- Shows the number of tracked rows, and the peak (R178). -/
def showTrack (k : Nat) (s : State) : State :=
  let n := (s.sow k).track.length
  (s.set (SOW_STATUS_TRACK k) n).set (SOW_TRACK_PEAK_PEAK k) (max n (s.get (SOW_TRACK_PEAK_PEAK k)))

/-- A piece lands: its bytes, then, when it is the last of its row, one PREFIX arrival (R170). -/
def applyPiece (c : Nat) (p : Packet) (s : State) : State :=
  let k := c / 36
  let t := storeBytes (csOffset c (slotAddr p (ldSlot p) + 2048 * ldPiece p)) p.data s
  let h := t.sow k
  let same := fun (r : Track) => r.core == c && r.ctr == ldCtr p && r.region == ldBase p && r.slot == ldSlot p
  let got := match h.track.find? same with
    | some r => (r.pieces.filter (fun q => q != ldPiece p)) ++ [ldPiece p]
    | none => [ldPiece p]
  let rest := h.track.filter (fun r => !same r)
  if ldPieces p ≤ got.length then
    (arriveSlot c (ldCtr p) (ldSlot p) (showTrack k (t.setSow k { h with track := rest }))).count (SOW_ROWS_LANDED_COUNT k) 1
  else showTrack k (t.setSow k { h with track := rest ++ [⟨c, ldCtr p, ldBase p, ldSlot p, got⟩] })

/-- Whether a piece would start a new row while the tracker is full: it is held at ingress (R170). -/
def trackFull (p : Packet) (s : State) : Bool :=
  match landCore p s with
  | none => false
  | some c =>
    let h := s.sow (c / 36)
    decide (4096 ≤ h.track.length) &&
      !h.track.any (fun r => r.core == c && r.ctr == ldCtr p && r.region == ldBase p && r.slot == ldSlot p)

/-- LAND_PIECE (R170): a repeated piece is discarded before the tracker is asked. -/
def landPiece (i : Nat) (s : State) : State :=
  match vtTake (fun p => p.h.kind == kLand && ldSub p == 2) i s with
  | .gone t => t
  | .again _ t => t
  | .fresh p t =>
    if trackFull p s then s
    else
      match landCore p t with
      | none => landRefuse p (36 * p.h.stream) cSowLand t
      | some c =>
        let code := landCode p c t
        if code ≠ 0 then landRefuse p c code t else vtApplied p (applyPiece c p t)

def execLandPiece (i : Nat) (s : State) : Host.Outcome State Fault Refusal := .next (s.live (landPiece i))

end Sys2Proof.Machine
end

