-- ==== Sys2Proof/Machine/Gleaner.lean ====
section
/-!
DEFINITION. The Gleaner (07_gleaner_and_expert_passes): RETURN jobs (R185 to R188), COMBINE jobs and the exact weighted sum
(R189 to R195), records and codes (R199, R200).
-/
namespace Sys2Proof.Machine

/-! Status codes (R200). -/
def cGlnDesc : Nat := 0x0231
def cGlnMismatch : Nat := 0x0232
def cGlnInput : Nat := 0x0233
def cGlnTimeout : Nat := 0x0234
def cGlnRemoteAbort : Nat := 0x0235
def cGlnRetRange : Nat := 0x0236
def cGlnRetStale : Nat := 0x0237
def cGlnRetSend : Nat := 0x0238
def cGlnReadyTimeout : Nat := 0x0239
def cGlnFlushed : Nat := 0x023A
def cGlnSpecial : Nat := 0x023B

def State.gln (s : State) (k : Nat) : GlnHid := Tab.get (fun _ => ({} : GlnHid)) s.glns k
def State.setGln (s : State) (k : Nat) (h : GlnHid) : State :=
  { s with glns := Tab.set (fun _ => ({} : GlnHid)) s.glns k h }

/-- Unit number of the Gleaner as an agent of the fabric. -/
def uGln : Nat := 3

/-- Registers of return ring `n` and combine ring `n` (R202). -/
def glnRing (comb : Bool) (k n : Nat) : RingRegs :=
  { en := GLN_PLOT_EN k n, size := if comb then GLN_CSIZE_ENTRIES k n else GLN_RSIZE_ENTRIES k n,
    base := if comb then GLN_CBASE_BASE k n else GLN_RBASE_BASE k n,
    head := if comb then GLN_CHEAD_HEAD k n else GLN_RHEAD_HEAD k n,
    tail := if comb then GLN_CTAIL_TAIL k n else GLN_RTAIL_TAIL k n, full := GLN_IRQ_RING_FULL k,
    lastCode := GLN_LAST_CODE k, lastRing := GLN_LAST_RING k, ring := n, code := cGlnDesc }

/-- GLN_TAIL_WRITE (R184, R147). -/
def glnTailWrite (comb : Bool) (k n : Nat) (v : Word) (s : State) : State :=
  let r := glnRing comb k n
  let t := tailWrite r v s
  if tailBad r (r.tail.of v) s then t.set (GLN_LAST_KIND k) (ofBool comb) else t

def execGlnTailWrite (k : Fin 4) (comb : Bool) (n : Fin 16) (v : Word) (s : State) : Host.Outcome State Fault Refusal :=
  .next (s.live (glnTailWrite comb k n v))

/-- A Gleaner's size register write (R147, R202). -/
def glnSizeWrite (comb : Bool) (k n : Nat) (v : Word) (s : State) : State :=
  let r := glnRing comb k n
  let t := sizeWrite r v s
  if !sizeOk (r.size.of v) || s.get r.head != s.get r.tail then t.set (GLN_LAST_KIND k) (ofBool comb) else t

def glnWho (k n : Nat) (s : State) : Who := ringWho k (GLN_PLOT_PKEY k n) s

/-- GLN_LAST (R202). -/
def glnLast (k code ring kind job node : Nat) (s : State) : State :=
  ((((s.set (GLN_LAST_CODE k) code).set (GLN_LAST_RING k) ring).set (GLN_LAST_KIND k) kind).set (GLN_LAST_JOB_ID k) job).set
    (GLN_LAST_NODE k) node

/-! RETURN jobs (R185 to R188). -/

def rjCap (d : List Nat) : Nat := dw d 0 4 14
def rjNseg (d : List Nat) : Nat := dw d 0 18 7
def rjRblk (d : List Nat) : Nat := dw d 0 25 14
def rjExpert (d : List Nat) : Nat := dw d 0 39 14
def rjReplica (d : List Nat) : Nat := dw d 0 53 2
def rjLcore (d : List Nat) : Nat := dw d 1 0 7
def rjManctr (d : List Nat) : Nat := dw d 1 7 10
def rjReadyCtr (d : List Nat) : Nat := dw d 1 17 10
def rjJobId (d : List Nat) : Nat := dw d 1 27 16
def rjRegion (d : List Nat) : Nat := dw d 2 0 19 * 64
def rjOut (d : List Nat) : Nat := dw d 3 0 32
def rjStride (d : List Nat) : Nat := dw d 3 32 32
def rjElems (d : List Nat) : Nat := dw d 4 0 17
def rjSegtab (d : List Nat) : Nat := dw d 5 0 64
def rjCompl (d : List Nat) : Nat := dw d 6 0 64
def rjLimit (d : List Nat) : Nat := dw d 8 0 32

/-- Whether a RETURN descriptor keeps R184 and R185. -/
def returnOk (s : State) (k : Nat) (d : List Nat) : Bool :=
  onlyBits d [bitMask 0 54, bitMask 0 42, bitMask 0 18, allBits, bitMask 0 16, allBits, allBits, bitMask 0 25, bitMask 0 31,
    0, 0, 0, 0, 0, 0, 0] &&
  dw d 0 0 4 == 5 && decide (1 ≤ rjCap d) && decide (rjCap d ≤ 8192) && decide (1 ≤ rjNseg d) && decide (rjNseg d ≤ 64) &&
  decide (rjNseg d * rjCap d ≤ 8192) && decide (1 ≤ rjRblk d) && decide (rjRblk d ≤ 8192) &&
  (match physOf s (rjLcore d) with | some p => p / 36 == k | none => false) &&
  rjOut d % 64 == 0 && rjStride d % 64 == 0 && decide (2 * rjElems d ≤ rjStride d) && decide (64 ≤ rjElems d) &&
  decide (rjElems d ≤ 65536) && rjElems d % 32 == 0 && gaOk s 1 (rjSegtab d) && gaOk s 1 (rjCompl d) &&
  decide (1 ≤ rjLimit d) && decide (rjLimit d ≤ 10000000)

/-- Replaces a RETURN job. -/
def putRet (k : Nat) (j : RetJob) (s : State) : State :=
  let h := s.gln k
  s.setGln k { h with rets := h.rets.map (fun i => if i.aid == j.aid then j else i) }

/-- Shows the active RETURN jobs of a ring (R202). -/
def showRet (k n : Nat) (s : State) : State :=
  let h := s.gln k
  let t := (s.set (GLN_STATUS_RET_ACTIVE k) h.rets.length).set (GLN_STATUS_RET_FULL k) (ofBool (h.rets.length == 256))
  match h.rets.find? (fun j => j.ring == n) with
  | some j => (t.set (GLN_RRSTAT_ACTIVE k n) 1).set (GLN_RRSTAT_JOB_ID k n) (rjJobId j.words)
  | none => t.setWord (GLN_RRSTAT_ACTIVE k n).addr 0

/-- HEAD passes the completed jobs of a return ring. -/
def passRet (k n : Nat) : Nat → State → State
  | 0, s => s
  | f + 1, s =>
    let h := s.gln k
    let r := glnRing false k n
    if h.retDone.contains (n, s.get r.head) then
      passRet k n f (ringAdvance r (s.setGln k { h with retDone := h.retDone.erase (n, s.get r.head) }))
    else s

/-- The record of a RETURN job, DONE, interrupts and GLN_LAST (R199). -/
def retRecord (k : Nat) (j : RetJob) (code : Nat) (s : State) : State :=
  let d := j.words
  let w := [putF code 0 16 + putF (rjJobId d) 16 16 + putF 5 32 4 + putF k 36 2, putF j.rows 0 32 + putF j.marks 32 32,
    j.bytes % 2 ^ 64, j.active % 2 ^ 64, j.stall % 2 ^ 64, j.stallSrc % 2 ^ 64, 0, 0]
  let t := if gaOk s 1 (rjCompl d) then writeWords (glnWho k j.ring s) (rjCompl d) w s else s
  let t := (doneOf (d.getD 7 0)).run t
  if code = 0 then t.raise (GLN_IRQ_JOB_DONE k)
  else (glnLast k code j.ring 0 (rjJobId d) j.peer t).raise (GLN_IRQ_JOB_FAIL k)

/-- Ends an active RETURN job. -/
def retEnd (k : Nat) (j : RetJob) (code : Nat) (s : State) : State :=
  let t := retRecord k j code s
  let h := t.gln k
  let t := t.setGln k { h with rets := h.rets.filter (fun i => i.aid != j.aid), retDone := h.retDone ++ [(j.ring, j.idx)] }
  showRet k j.ring (passRet k j.ring 4096 t)

/-- A ring entry whose descriptor cannot be read (log entry 15). -/
def retUnread (k n i code : Nat) (s : State) : State :=
  let t := (glnLast k code n 0 0 0 s).raise (GLN_IRQ_JOB_FAIL k)
  let h := t.gln k
  passRet k n 4096 (t.setGln k { h with retDone := h.retDone ++ [(n, i)] })

/-- Reads the segment table (R185): 0 with NODE and TAG of each segment; GLN_INPUT where it is refused or cannot be read, GLN_DESC
where an entry has a set upper bit. -/
def readSegs (k : Nat) (j : RetJob) (s : State) : Nat × List (Nat × Nat) × State :=
  let r := unitRead (glnWho k j.ring s) (gaOff (rjSegtab j.words)) (8 * rjNseg j.words) s
  let ws := wordsOf r.2.1 (rjNseg j.words)
  if r.1 ≠ 0 then (cGlnInput, [], r.2.2)
  else if ws.any (fun w => w / 2 ^ 34 != 0) then (cGlnDesc, [], r.2.2)
  else (0, ws.map (fun w => (bitsOf w 0 18, bitsOf w 18 16)), r.2.2)

/-- A failed RETURN job sends ABORT markers for the segments whose marker is not sent (R188). A job that fails before its
counts are read takes the segments from the table (log entry 20). -/
def retFail (k : Nat) (j : RetJob) (code : Nat) (s : State) : State :=
  if j.fail ≠ 0 then s
  else
    let base := if j.opn then (0, j.segs.map (fun g => (g.1, g.2.1)), s) else readSegs k j s
    let segs := base.2.1
    let open' := if j.opn then (j.todo.filter (fun a => a.marker)).map (fun a => a.seg) else List.range segs.length
    let counts := if j.opn then j.segs else segs.map (fun g => (g.1, g.2, 0))
    let acts := open'.map (fun g => ({ marker := true, seg := g, slot := 0, blk := 0 } : RetAct))
    putRet k { j with fail := code, opn := true, segs := counts, todo := acts, ready := 0 } base.2.2

/-- What a RETURN job has to send (R179, R186): the markers of empty segments at once, then blocks in order with each
segment's marker after its last block. -/
def retPlan (d : List Nat) (counts : List Nat) : List RetAct × Nat :=
  let empty := (counts.zipIdx.filter (fun c => c.1 == 0)).map (fun c => ({ marker := true, seg := c.2, slot := 0, blk := 0 } : RetAct))
  let r := counts.zipIdx.foldl (fun (acc : List RetAct × Nat) c =>
    if c.1 = 0 then acc
    else
      let rows := (List.range c.1).map (fun i =>
        ({ marker := false, seg := c.2, slot := c.2 * rjCap d + i, blk := acc.2 + i / rjRblk d } : RetAct))
      let nb := acc.2 + ceilDiv c.1 (rjRblk d)
      (acc.1 ++ rows ++ [{ marker := true, seg := c.2, slot := 0, blk := nb - 1 }], nb)) ([], 0)
  (empty ++ r.1, r.2)

/-- Opens an active job once MANCTR has reached NSEG (R186). -/
def retOpen (k : Nat) (j : RetJob) (s : State) : State :=
  let d := j.words
  match physOf s (rjLcore d) with
  | none => s
  | some p =>
    if s.get (CORE_ARR_COUNT p (rjManctr d)) < rjNseg d then s
    else
      let c := unitRead (glnWho k j.ring s) (csOffset p (rjRegion d)) (4 * rjNseg d) s
      if c.1 ≠ 0 then retFail k j cGlnInput c.2.2
      else
        let g := readSegs k j c.2.2
        if g.1 ≠ 0 then retFail k j g.1 g.2.2
        else
          let counts := (List.range (rjNseg d)).map (fun i => ofBytes ((c.2.1.drop (4 * i)).take 4))
          let plan := retPlan d counts
          putRet k { j with opn := true, segs := (g.2.1.zip counts).map (fun x => (x.1.1, x.1.2, x.2)), todo := plan.1,
                            blocks := plan.2, active := j.active + 16 + ceilDiv (rjNseg d) 8 } g.2.2

/-- BE jobs may hold 192 of the 256 places (R356). -/
def retRoom (k n : Nat) (s : State) : Bool :=
  let h := s.gln k
  decide (h.rets.length < 256) &&
    (!s.flag (GLN_PLOT_CLASS k n) || decide ((h.rets.filter (fun j => s.flag (GLN_PLOT_CLASS k j.ring))).length < 192))

/-- Ring entry that activates next. -/
def retNext (k n : Nat) (s : State) : Nat :=
  let h := s.gln k
  let busy := (h.rets.filter (fun j => j.ring == n)).length + (h.retDone.filter (fun j => j.1 == n)).length
  (s.get (GLN_RHEAD_HEAD k n) + busy) % max 1 (s.get (GLN_RSIZE_ENTRIES k n))

/-- Takes up the queued jobs of a flushed return ring as failed ones, while fewer than 256 are active (R187, R188): each sends its
ABORT markers and ends. -/
def flushRets (k n : Nat) : Nat → State → State
  | 0, s => s
  | f + 1, s =>
    let h := s.gln k
    let left := Tab.get (fun _ => 0) h.flushRet n
    if left = 0 || 256 ≤ h.rets.length then s
    else
      let i := retNext k n s
      let s1 := s.setGln k { h with flushRet := Tab.set (fun _ => 0) h.flushRet n (left - 1) }
      match readDescr (glnWho k n s1) (glnRing false k n) i s1 with
      | (none, t) => flushRets k n f (retUnread k n i cGlnFlushed t)
      | (some d, t) =>
        let h := t.gln k
        let j : RetJob := { aid := h.nextAid, ring := n, idx := i, words := d }
        let t := t.setGln k { h with nextAid := h.nextAid + 1, rets := h.rets ++ [j] }
        flushRets k n f (if returnOk t k d then showRet k n (retFail k j cGlnFlushed t) else retEnd k j cGlnFlushed t)

/-- Queued jobs of a return ring. -/
def retQueued (k n : Nat) (s : State) : Nat :=
  let m := max 1 (s.get (GLN_RSIZE_ENTRIES k n))
  (s.get (GLN_RTAIL_TAIL k n) + m - retNext k n s) % m

/-- RETURN (R186): the ring's oldest job that waits for MANCTR opens if it can, else the next job activates. -/
def returnJob (k n : Nat) (s : State) : State :=
  let waits := fun (j : RetJob) => j.ring == n && !j.opn &&
    (match physOf s (rjLcore j.words) with
     | some p => decide (rjNseg j.words ≤ s.get (CORE_ARR_COUNT p (rjManctr j.words)))
     | none => false)
  match (s.gln k).rets.find? waits with
  | some j => retOpen k j s
  | none =>
    let r := glnRing false k n
    let i := retNext k n s
    if Tab.get (fun _ => 0) (s.gln k).flushRet n ≠ 0 then flushRets k n 4096 s
    else if !ringHas r s || i == s.get r.tail || !s.flag (GLN_CTRL_ENABLE k) || !retRoom k n s then s
    else
      match readDescr (glnWho k n s) r i s with
      | (none, t) => retUnread k n i cGlnDesc t
      | (some d, t) =>
        let h := t.gln k
        let j : RetJob := { aid := h.nextAid, ring := n, idx := i, words := d }
        let t := t.setGln k { h with nextAid := h.nextAid + 1, rets := h.rets ++ [j] }
        if !returnOk t k d then retEnd k j cGlnDesc t else showRet k n (retOpen k j t)

/-- RETURN_BLOCK_READY (R186): READY_CTR of active job `i` has reached j + 1 for its next block j. -/
def returnBlockReady (k i : Nat) (s : State) : State :=
  match (s.gln k).rets[i]? with
  | none => s
  | some j =>
    match physOf s (rjLcore j.words) with
    | none => s
    | some p =>
      if j.opn && j.fail == 0 && decide (j.ready < j.blocks) && decide (j.ready + 1 ≤ s.get (CORE_ARR_COUNT p (rjReadyCtr j.words)))
      then putRet k { j with ready := j.ready + 1 } s else s

/-- Whether an active job waits for MANCTR, or with its earlier blocks sent for READY_CTR (R186). -/
def retWaits (j : RetJob) (s : State) : Bool :=
  match physOf s (rjLcore j.words) with
  | none => true
  | some p =>
    if j.opn then
      match j.todo with
      | a :: _ => !a.marker && decide (j.ready ≤ a.blk) && decide (s.get (CORE_ARR_COUNT p (rjReadyCtr j.words)) < a.blk + 1)
      | [] => false
    else decide (s.get (CORE_ARR_COUNT p (rjManctr j.words)) < rjNseg j.words)

/-- GLN_READY_TIMEOUT (R188): the wait of active job `i` has exceeded READY_LIMIT_US. -/
def glnReadyTimeout (k i : Nat) (s : State) : State :=
  match (s.gln k).rets[i]? with
  | none => s
  | some j => if j.fail == 0 && retWaits j s then retFail k j cGlnReadyTimeout s else s

/-- A completed piece or marker (R188). -/
def retDoneReq (k : Nat) (d : DoneReq) (s : State) : State :=
  match d.agent with
  | .unit _ _ tag node =>
    let h := s.gln k
    match h.outs.find? (fun o => o.oid == tag) with
    | none => s
    | some o =>
      let o2 := { o with left := o.left - 1, ok := o.ok && d.status == 0 }
      let rest := h.outs.filter (fun q => q.oid != tag)
      let t := s.setGln k { h with outs := if o2.left = 0 then rest else rest ++ [o2] }
      match (t.gln k).rets.find? (fun j => j.aid == o.aid) with
      | none => t
      | some j =>
        let t := if o2.left = 0 ∧ o2.ok then
            (if o.marker then t
             else (putRet k { j with rows := j.rows + 1, bytes := j.bytes + o.bytes } t).count (GLN_RET_SENT_COUNT k) 1)
          else t
        match (t.gln k).rets.find? (fun j => j.aid == o.aid) with
        | some j2 => if d.status ≠ 0 then retFail k { j2 with peer := node } cGlnRetSend t else t
        | none => t
  | _ => s

/-- Whether a job's next act can go (R186): its block is ready, and its node has no end marker of this job in flight. -/
def retCan (k : Nat) (s : State) (j : RetJob) : Bool :=
  j.opn &&
  match j.todo with
  | [] => false
  | a :: _ =>
    if a.marker then true
    else
      let node := (j.segs.getD a.seg (0, 0, 0)).1
      decide (a.blk < j.ready) && !(s.gln k).outs.any (fun o => o.aid == j.aid && o.marker && o.node == node)

/-- Extension words of a return piece or marker (R265). -/
def retExt (sub tag : Nat) (d : List Nat) (slot piece pieces count abort : Nat) : List Nat :=
  [putF sub 0 4 + putF tag 4 16 + putF (rjExpert d) 20 14 + putF (rjReplica d) 34 2 + putF slot 36 13 + putF piece 49 7 +
     putF pieces 56 7, putF count 0 14 + putF abort 14 1, 0, 0, 0, 0, 0, 0]

/-- Hands packets of one row or marker to the fabric. -/
def retSend (k : Nat) (j : RetJob) (node : Nat) (marker : Bool) (bytes : Nat) (ps : List Packet) (s : State) : State :=
  let h := s.gln k
  let oid := h.nextOid
  let t := s.setGln k { h with nextOid := oid + 1, outs := h.outs ++ [⟨oid, j.aid, node, marker, ps.length, true, bytes⟩] }
  ps.foldl (fun u p => vtIssue k node (.unit uGln j.ring oid node) p.sized none u) t

/-- Sends a job's next act. -/
def retAct (k : Nat) (j : RetJob) (s : State) : State :=
  let d := j.words
  match j.todo with
  | [] => s
  | a :: rest =>
    let g := j.segs.getD a.seg (0, 0, 0)
    let hd : Hdr := { kind := kRet, cls := s.get (GLN_PLOT_CLASS k j.ring), key := s.get (GLN_PLOT_PKEY k j.ring), ext := 1 }
    if a.marker then
      let abort := ofBool (j.fail != 0)
      let p : Packet := { h := hd, ext := retExt 2 g.2.1 d (a.seg * rjCap d) 0 0 g.2.2 abort }
      retSend k j g.1 true 0 [p] (putRet k { j with todo := rest, marks := j.marks + 1, active := j.active + 1 } s)
    else
      match physOf s (rjLcore d) with
      | none => s
      | some c =>
        let r := unitRead (glnWho k j.ring s) (csOffset c (rjOut d + a.slot * rjStride d)) (2 * rjElems d) s
        if r.1 ≠ 0 then retFail k j cGlnInput r.2.2
        else
          let bs := pieces2k 64 r.2.1
          let ps := bs.zipIdx.map (fun b =>
            ({ h := hd, ext := retExt 1 g.2.1 d a.slot b.2 bs.length 0 0, data := b.1 } : Packet))
          retSend k j g.1 false (2 * rjElems d) ps
            (putRet k { j with todo := rest, active := j.active + ceilDiv (2 * rjElems d) 500 } r.2.2)

/-- Ends the jobs that have sent everything and whose sends have completed (R199). -/
def retSweep (k : Nat) (s : State) : State :=
  (s.gln k).rets.foldl (fun t j =>
    if j.opn && j.todo.isEmpty && !(t.gln k).outs.any (fun o => o.aid == j.aid) then retEnd k j j.fail t else t) s

/-- The job served next in a class (R187). -/
def pickRet (k : Nat) (be : Bool) (s : State) : Option RetJob :=
  let h := s.gln k
  let js := h.rets.filter (fun j => s.flag (GLN_PLOT_CLASS k j.ring) == be && retCan k s j)
  match nextNode (if be then h.lastBe else h.lastLc) (js.map (fun j => j.aid)) with
  | none => none
  | some a => js.find? (fun j => j.aid == a)

/-- RETURN_ROW_SEND (R187): completions are taken up, jobs that have finished end, and one row or marker goes. The operands
are the rc waited for READY_CTR or MANCTR and for reads. -/
def returnRowSend (k stall stallSrc : Nat) (s0 : State) : State :=
  let s := retSweep k (takeDone k uGln (retDoneReq k) s0)
  let s := (List.range 16).foldl (fun t n => flushRets k n 4096 t) s
  match (match pickRet k false s with | some j => some (j, false) | none => (pickRet k true s).map (fun j => (j, true))) with
  | none => s
  | some (j, be) =>
    let h := s.gln k
    let t := s.setGln k (if be then { h with lastBe := some j.aid } else { h with lastLc := some j.aid })
    let t := t.count (GLN_STALL_SRC_COUNT k) stallSrc
    retAct k { j with stall := j.stall + stall, stallSrc := j.stallSrc + stallSrc } t

/-! COMBINE jobs: descriptors and contexts (R189, R190). -/

def cjK (d : List Nat) : Nat := dw d 0 4 6
def cjFmt (d : List Nat) : Option Format :=
  match dw d 0 10 4 with
  | 0 => some .f32 | 1 => some .f16 | 2 => some .w16 | 3 => some .f8v | 4 => some .f8g | 5 => some .f4 | 11 => some .t96
  | _ => none
def cjRmode (d : List Nat) : Nat := dw d 0 14 3
def cjRes (d : List Nat) : Bool := dw d 0 17 1 == 1
def cjWprec (d : List Nat) : Bool := dw d 0 18 1 == 1
def cjCap (d : List Nat) : Nat := dw d 0 19 14
def cjSeg (d : List Nat) : Nat := dw d 0 33 6
def cjRmax (d : List Nat) : Nat := dw d 0 39 2 + 1
def cjTag (d : List Nat) : Nat := dw d 0 41 16
def cjE (d : List Nat) : Nat := dw d 1 0 15
def cjTokBase (d : List Nat) : Nat := dw d 1 15 24
def cjNtok (d : List Nat) : Nat := dw d 1 39 21
def cjAssign (d : List Nat) : Nat := dw d 2 0 64
def cjRet (d : List Nat) : Nat := dw d 3 0 64
def cjRetStride (d : List Nat) : Nat := dw d 4 0 32
def cjElems (d : List Nat) : Nat := dw d 4 32 17
def cjResAddr (d : List Nat) : Nat := dw d 5 0 64
def cjResStride (d : List Nat) : Nat := dw d 6 0 32
def cjOutStride (d : List Nat) : Nat := dw d 6 32 32
def cjOut (d : List Nat) : Nat := dw d 7 0 64
def cjOsc (d : List Nat) : Nat := dw d 8 0 64
def cjOscStride (d : List Nat) : Nat := dw d 9 0 32
def cjTid (d : List Nat) : Nat := dw d 9 32 24
def cjSeed (d : List Nat) : Nat := dw d 10 0 64
def cjCompl (d : List Nat) : Nat := dw d 11 0 64
def cjJobId (d : List Nat) : Nat := dw d 12 26 16
def cjLimit (d : List Nat) : Nat := dw d 13 0 32

/-- Digest of all sixteen words (R191). -/
def combDigest (d : List Nat) : Nat := (List.range 16).foldl (fun g i => dsrMix (g ^^^ d.getD i 0)) 0

/-- Whether a COMBINE descriptor keeps R184 and R189, in the state of the node's open jobs: every address names this node, OSC_ADDR
too where the format has no scale bytes; a format or mode outside the table is GLN_DESC (log entry 42). -/
def combineOk (s : State) (k n : Nat) (d : List Nat) : Bool :=
  onlyBits d [bitMask 0 56, bitMask 0 59, allBits, allBits, bitMask 0 48, allBits, allBits, allBits, allBits, bitMask 0 55,
    allBits, allBits, bitMask 0 41, bitMask 0 31, 0, 0] &&
  dw d 0 0 4 == 4 && decide (1 ≤ cjK d) && decide (cjK d ≤ 32) && (cjRmode d == 0 || cjRmode d == 4) &&
  (!cjRes d || cjFmt d == some .f16) && decide (1 ≤ cjCap d) && decide (cjCap d ≤ 8192) && decide (1 ≤ cjE d) &&
  decide (cjE d ≤ 16384) && decide (1 ≤ cjNtok d) && decide (cjNtok d ≤ 2 ^ 20) && decide (cjTokBase d + cjNtok d ≤ 2 ^ 24) &&
  cjRetStride d % 64 == 0 && decide (2 * cjElems d ≤ cjRetStride d) && decide (64 ≤ cjElems d) &&
  decide (cjElems d ≤ 65536) && cjElems d % 32 == 0 && cjResStride d % 64 == 0 && cjOutStride d % 64 == 0 &&
  decide (10 ≤ cjLimit d) && decide (cjLimit d ≤ 10000000) && gaOk s 64 (cjAssign d) && gaOk s 64 (cjRet d) &&
  gaOk s 64 (cjResAddr d) && gaOk s 64 (cjOut d) && gaOk s 64 (cjCompl d) && gaOk s 1 (cjOsc d) &&
  inHbm (gaOff (cjRet d)) (cjE d * cjRmax d * cjCap d * cjRetStride d) &&
  (cjFmt d).isSome &&
  (s.plots.getD n {}).pers != 1 && !(s.gln k).combs.any (fun j => cjTag j.words == cjTag d)

/-- Tokens of die `k`'s share (R192). -/
def shareOf (k : Nat) (d : List Nat) : List Nat := ((List.range (cjNtok d)).filter (fun i => i % 4 == k)).map (fun i => cjTokBase d + i)

/-- The open COMBINE job of a TAG on a die. -/
def combOf (s : State) (k tag : Nat) : Option CombJob := (s.gln k).combs.find? (fun j => cjTag j.words == tag)

/-- Replaces an open job, and shows its context. -/
def putComb (k : Nat) (j : CombJob) (s : State) : State :=
  let h := s.gln k
  (s.setGln k { h with combs := h.combs.map (fun i => if i.ctx == j.ctx then j else i) }).set (GLN_CTX_DONE_TOK k j.ctx) j.tokens

/-- Shows the open contexts (R202). -/
def showCtx (k : Nat) (s : State) : State :=
  s.set (GLN_STATUS_CTX_OPEN k) ((s.gln k).combs.foldl (fun m j => m + 2 ^ j.ctx) 0)

/-- Firmware learns that a die's share of a step's COMBINE is DONE (R365). -/
def combTold (assign : Nat) (s : State) : State :=
  { s with serv := { s.serv with cold := s.serv.cold.map (fun x => if x.assign == assign then { x with done := x.done + 1 } else x) } }

/-- The record of a die's share (R199), with the 8 rc of the record itself (R196); DONE, interrupts and GLN_LAST. -/
def combRecord (k : Nat) (j : CombJob) (code node : Nat) (s : State) : State :=
  let d := j.words
  let w := [putF code 0 16 + putF (cjJobId d) 16 16 + putF 4 32 4 + putF k 36 2 + putF (ofBool (j.special != 0)) 38 1,
    putF j.tokens 0 32 + putF j.special 32 32, j.products % 2 ^ 64, (j.active + 8) % 2 ^ 64, j.stall % 2 ^ 64,
    j.stallSrc % 2 ^ 64, 0, 0]
  let t := if gaOk s 64 (cjCompl d) then writeWords (glnWho k j.ring s) (cjCompl d + 64 * k) w s else s
  let t := combTold (cjAssign d) ((doneOf (d.getD 12 0)).run t)
  if code = 0 then t.raise (GLN_IRQ_JOB_DONE k)
  else (glnLast k code j.ring 1 (cjJobId d) node t).raise (GLN_IRQ_JOB_FAIL k)

/-- Shows a combine ring (R202): its oldest open job. -/
def showComb (k n : Nat) (s : State) : State :=
  match (s.gln k).combs.find? (fun j => j.ring == n) with
  | some j => ((s.set (GLN_CRSTAT_ACTIVE k n) 1).set (GLN_CRSTAT_OPEN k n) 1).set (GLN_CRSTAT_JOB_ID k n) (cjJobId j.words)
  | none => s.setWord (GLN_CRSTAT_ACTIVE k n).addr 0

/-- HEAD passes the completed jobs of a combine ring. -/
def passComb (k n : Nat) : Nat → State → State
  | 0, s => s
  | f + 1, s =>
    let h := s.gln k
    let r := glnRing true k n
    if h.combDone.contains (n, s.get r.head) then
      passComb k n f (ringAdvance r (s.setGln k { h with combDone := h.combDone.erase (n, s.get r.head) }))
    else s

/-- Notes an entry of a combine ring as completed. -/
def combPass (k n i : Nat) (s : State) : State :=
  let h := s.gln k
  passComb k n 4096 (s.setGln k { h with combDone := h.combDone ++ [(n, i)] })

/-- Ring entry that opens next. -/
def combNext (k n : Nat) (s : State) : Nat :=
  let h := s.gln k
  let busy := (h.combs.filter (fun j => j.ring == n)).length + (h.combDone.filter (fun j => j.1 == n)).length
  (s.get (GLN_CHEAD_HEAD k n) + busy) % max 1 (s.get (GLN_CSIZE_ENTRIES k n))

/-- Whether a combine ring has a job that has not opened. -/
def combWaiting (k n : Nat) (s : State) : Bool :=
  ringHas (glnRing true k n) s && combNext k n s != s.get (GLN_CTAIL_TAIL k n)

/-- The number that the next job of a combine ring has in the order of the ring: the copies of a job on the four Gleaners, posted in
one order (R190), have the same. -/
def combOrd (k n : Nat) (s : State) : Nat := Tab.get (fun _ => 0) (s.gln k).combOrd n

/-- Takes the next job of a combine ring. -/
def combTake (k n : Nat) (s : State) : State :=
  let h := s.gln k
  s.setGln k { h with combOrd := Tab.set (fun _ => 0) h.combOrd n (combOrd k n s + 1) }

/-- Ends the next job of a combine ring without opening it. -/
def combSkip (k n code node : Nat) (s : State) : State :=
  let i := combNext k n s
  match readDescr (glnWho k n s) (glnRing true k n) i (combTake k n s) with
  | (some d, t) => combPass k n i (combRecord k { ctx := 0, ring := n, words := d } code node t)
  | (none, t) => combPass k n i ((glnLast k code n 1 0 node t).raise (GLN_IRQ_JOB_FAIL k))

/-- Ends the queued jobs that have failed already and whose turn has come (R195). -/
def combDrain (k n : Nat) : Nat → State → State
  | 0, s => s
  | f + 1, s =>
    let h := s.gln k
    let mine := fun (c : CombFail) => c.ring == n && c.ord == combOrd k n s
    match h.combFails.find? mine with
    | some c =>
      if combWaiting k n s then
        combDrain k n f (combSkip k n c.code c.node (s.setGln k { h with combFails := h.combFails.filter (fun c => !mine c) }))
      else s
    | none => s

/-- The open copy of a job on a die. -/
def combCopy (k n ord : Nat) (s : State) : Option CombJob := (s.gln k).combs.find? (fun j => j.ring == n && j.ord == ord)

/-- Closes a job's context on one die. -/
def combClose (k : Nat) (j : CombJob) (code node : Nat) (s : State) : State :=
  let t := combRecord k j code node s
  let h := t.gln k
  let t := t.setGln k { h with
    combs := h.combs.filter (fun i => i.ctx != j.ctx), track := h.track.filter (fun r => r.tag != cjTag j.words),
    notes := h.notes.filter (fun r => r.tag != cjTag j.words) }
  let t := t.setWord (GLN_CTX_OPEN k j.ctx).addr 0
  let t := t.set (GLN_STATUS_TRACK k) (t.gln k).track.length
  showComb k j.ring (showCtx k (combPass k j.ring j.idx t))

/-- A job fails on all four Gleaners (R195): open copies close; a copy still queued ends when its turn comes. -/
def combFailAt (n ord code node : Nat) (s : State) : State :=
  (List.range 4).foldl (fun t k =>
    match combCopy k n ord t with
    | some j => combClose k j code node t
    | none =>
      let h := t.gln k
      if combOrd k n t ≤ ord ∧ !h.combFails.any (fun c => c.ring == n && c.ord == ord) then
        combDrain k n 4096 (t.setGln k { h with combFails := h.combFails ++ [⟨n, ord, code, node⟩] })
      else t) s

/-- An open job of die `k`, with its figures so far, fails. -/
def combFail (k : Nat) (j : CombJob) (code node : Nat) (s : State) : State := combFailAt j.ring j.ord code node (putComb k j s)

/-- When all four shares are combined, the job ends on all four: a context stays open while its owner may still take returns
for other shares (R195; log entry 21). -/
def combEnd (n ord : Nat) (s : State) : State :=
  if (List.range 4).all (fun k => match combCopy k n ord s with | some j => j.left.isEmpty | none => false) then
    combFailAt n ord 0 0 s
  else s

/-- BE jobs may hold 6 of the 8 contexts (R356). -/
def ctxRoom (k n : Nat) (s : State) : Bool :=
  let h := s.gln k
  decide (h.combs.length < 8) &&
    (!s.flag (GLN_PLOT_CLASS k n) || decide ((h.combs.filter (fun j => s.flag (GLN_PLOT_CLASS k j.ring))).length < 6))

/-- The combine ring whose job opens next (R190): LC before BE, ascending. -/
def combPick (k : Nat) (s : State) : Option Nat :=
  let ok := fun (be : Bool) (n : Nat) => s.flag (GLN_PLOT_CLASS k n) == be && combWaiting k n s && ctxRoom k n s
  match (List.range 16).find? (ok false) with
  | some n => some n
  | none => (List.range 16).find? (ok true)

/-- Opens a COMBINE job in a context (R190). -/
def combOpenAt (k n c i : Nat) (d : List Nat) (s : State) : State :=
  let share := shareOf k d
  let j : CombJob :=
    { ctx := c, ring := n, idx := i, ord := combOrd k n s, words := d, left := share,
      wrote := (List.range 4).map (fun q => Tab.get (fun _ => 0) (s.thr q).wrote (cjAssign d)),
      active := 16 + ceilDiv (cjE d * cjRmax d) 4096 + ceilDiv (share.length * cjK d) 16 }
  let t := combTake k n s
  let h := t.gln k
  let t := t.setGln k { h with combs := h.combs ++ [j] }
  let t := (((t.set (GLN_CTX_OPEN k c) 1).set (GLN_CTX_RING k c) n).set (GLN_CTX_TAG k c) (cjTag d)).set (GLN_CTX_DONE_TOK k c) 0
  combEnd n j.ord (showComb k n (showCtx k t))

/-- COMBINE_OPEN (R190). -/
def combineOpen (k : Nat) (s0 : State) : State :=
  let s := (List.range 16).foldl (fun t n => combDrain k n 4096 t) s0
  if !s.flag (GLN_CTRL_ENABLE k) then s
  else
    match combPick k s with
    | none => s
    | some n =>
      let i := combNext k n s
      match readDescr (glnWho k n s) (glnRing true k n) i s with
      | (none, _) => combSkip k n cGlnDesc 0 s
      | (some d, t) =>
        match (List.range 8).find? (fun c => !(t.gln k).combs.any (fun j => j.ctx == c)) with
        | none => s
        | some c => if !combineOk t k n d then combSkip k n cGlnDesc 0 s else combOpenAt k n c i d t

/-! Returns at the source (R191). -/

/-- Fields of a RET extension (R265). -/
def rtSub (p : Packet) : Nat := p.x 0 0 4
def rtTag (p : Packet) : Nat := p.x 0 4 16
def rtExpert (p : Packet) : Nat := p.x 0 20 14
def rtReplica (p : Packet) : Nat := p.x 0 34 2
def rtSlot (p : Packet) : Nat := p.x 0 36 13
def rtPiece (p : Packet) : Nat := p.x 0 49 7
def rtPieces (p : Packet) : Nat := p.x 0 56 7
def rtCount (p : Packet) : Nat := p.x 1 0 14
def rtAbort (p : Packet) : Bool := p.x 1 14 1 == 1
def rtPair (p : Packet) : Nat := 4 * rtExpert p + rtReplica p

/-- Gleaner that accepts a return (R191). -/
def rtDie (p : Packet) : Nat := rtExpert p % 4

/-- The range checks of R191. -/
def rtOk (d : List Nat) (p : Packet) : Bool :=
  (rtSub p == 1 || rtSub p == 2) && decide (rtExpert p < cjE d) && decide (rtReplica p < cjRmax d) &&
    decide (cjSeg d * cjCap d ≤ rtSlot p) && decide (rtSlot p < (cjSeg d + 1) * cjCap d)

/-- Index of a row in the return buffer (R191). -/
def retIndex (d : List Nat) (expert replica slot : Nat) : Nat := (expert * cjRmax d + replica) * cjCap d + slot - cjSeg d * cjCap d

/-- A refused return (R190, R191, R273). -/
def rtRefuse (p : Packet) (code : Nat) (s : State) : State :=
  let k := rtDie p
  let j := combOf s k (rtTag p)
  let ring := match j with | some c => c.ring | none => 0
  let job := match j with | some c => cjJobId c.words | none => 0
  vtRefused p code ((glnLast k code ring 1 job p.h.src (s.countSat (GLN_RET_REJ_COUNT k) 1)).raise (GLN_IRQ_RET_REJ k))

/-- Sends a READY notice to all four Gleaners once the marker's COUNT equals the completed rows (R191); fewer than the rows
fails the job. -/
def checkReady (k : Nat) (tag pair node : Nat) (s : State) : State :=
  match combOf s k tag with
  | none => s
  | some j =>
    let m := Tab.get (fun _ => 0) j.marks pair
    let n := Tab.get (fun _ => 0) j.rows pair
    if m = 0 || j.told.contains pair then s
    else if m - 1 < n then combFail k j cGlnRetRange node s
    else if m - 1 = n then
      let t := putComb k { j with told := j.told ++ [pair] } s
      (List.range 4).foldl (fun u q =>
        let h := u.gln q
        u.setGln q { h with notes := h.notes ++ [⟨tag, pair, combDigest j.words⟩] }) t
    else s

/-- A piece is written; a completed row is counted (R191). -/
def applyRet (j : CombJob) (p : Packet) (s : State) : State :=
  let k := rtDie p
  let d := j.words
  let a := gaOff (cjRet d) + retIndex d (rtExpert p) (rtReplica p) (rtSlot p) * cjRetStride d + 2048 * rtPiece p
  let t := memWrite (plotOfKey s p.h.key) a p.data s
  let h := t.gln k
  let same := fun (r : RetTrack) => r.tag == rtTag p && r.pair == rtPair p && r.slot == rtSlot p
  let got := match h.track.find? same with
    | some r => (r.pieces.filter (fun q => q != rtPiece p)) ++ [rtPiece p]
    | none => [rtPiece p]
  let rest := h.track.filter (fun r => !same r)
  if rtPieces p ≤ got.length then
    let u := t.setGln k { h with track := rest }
    let u := (u.set (GLN_STATUS_TRACK k) rest.length).count (GLN_RET_RECV_COUNT k) 1
    let u := putComb k { j with rows := Tab.set (fun _ => 0) j.rows (rtPair p) (Tab.get (fun _ => 0) j.rows (rtPair p) + 1) } u
    checkReady k (rtTag p) (rtPair p) p.h.src u
  else (t.setGln k { h with track := rest ++ [⟨rtTag p, rtPair p, rtSlot p, got⟩] }).set (GLN_STATUS_TRACK k) (rest.length + 1)

/-- Whether a piece would start a new row while the tracker is full (R191). -/
def retFull (p : Packet) (s : State) : Bool :=
  let h := s.gln (rtDie p)
  (combOf s (rtDie p) (rtTag p)).isSome && decide (4096 ≤ h.track.length) &&
    !h.track.any (fun r => r.tag == rtTag p && r.pair == rtPair p && r.slot == rtSlot p)

/-- RET_PIECE (R190, R191): a repeated piece is discarded before the tracker is asked. -/
def retPiece (i : Nat) (s : State) : State :=
  match vtTake (fun p => p.h.kind == kRet && rtSub p != 2) i s with
  | .gone t => t
  | .again _ t => t
  | .fresh p t =>
    if retFull p s then s
    else
      match combOf t (rtDie p) (rtTag p) with
      | none => rtRefuse p cGlnRetStale t
      | some j =>
        let d := j.words
        if !rtOk d p then rtRefuse p cGlnRetRange t
        else
          let a := gaOff (cjRet d) + retIndex d (rtExpert p) (rtReplica p) (rtSlot p) * cjRetStride d + 2048 * rtPiece p
          let code := accessCode t p.h.stream p.h.key pL a p.data.length
          if code ≠ 0 then rtRefuse p code t
          else if j.told.contains (rtPair p) then combFail (rtDie p) j cGlnRetRange p.h.src (rtRefuse p cGlnRetRange t)
          else vtApplied p (applyRet j p t)

/-- RET_MARKER (R191). -/
def retMarker (i : Nat) (s : State) : State :=
  match vtTake (fun p => p.h.kind == kRet && rtSub p == 2) i s with
  | .gone t => t
  | .again _ t => t
  | .fresh p t =>
    let k := rtDie p
    match combOf t k (rtTag p) with
    | none => rtRefuse p cGlnRetStale t
    | some j =>
      if !rtOk j.words p then rtRefuse p cGlnRetRange t
      else if rtAbort p then combFail k j cGlnRemoteAbort p.h.src (vtApplied p t)
      else
        vtApplied p (checkReady k (rtTag p) (rtPair p) p.h.src
          (putComb k { j with marks := Tab.set (fun _ => 0) j.marks (rtPair p) (rtCount p + 1) } t))

/-- READY_NOTICE (R191): the oldest notice that waits at die `k`. -/
def readyNotice (k : Nat) (s : State) : State :=
  let h := s.gln k
  match h.notes with
  | [] => s
  | n :: rest =>
    let t := s.setGln k { h with notes := rest }
    match combOf t k n.tag with
    | none => t
    | some j =>
      if n.digest ≠ combDigest j.words then combFail k j cGlnMismatch 0 t
      else putComb k { j with ready := j.ready ++ [n.pair], seen := true } t

/-! The exact weighted sum (R192 to R194). -/

/-- Fields of an assignment entry (R161). -/
def aeExpert (w0 : Nat) : Nat := bitsOf w0 38 14
def aeReplica (w0 : Nat) : Nat := bitsOf w0 52 2
def aeSlot (w0 : Nat) : Nat := bitsOf w0 25 13
def aeKept (w0 : Nat) : Bool := bitsOf w0 54 2 == 1

/-- The K entries of a token: words 0 and 1. -/
def tokenEntries (d : List Nat) (t : Nat) (s : State) : List (Nat × Nat) :=
  (List.range (cjK d)).map (fun j =>
    let a := gaOff (cjAssign d) + 16 * ((t - cjTokBase d) * cjK d + j)
    (s.readLE a 8, s.readLE (a + 8) 8))

/-- Whether the Threshers have written the step that a job serves: all four have written one with its ASSIGN_ADDR since it
opened, or a READY notice has come while no Thresher still holds such a step before its cut (log entry 22). -/
def combIndexed (s : State) (j : CombJob) : Bool :=
  let d := j.words
  (List.range 4).all (fun q => decide (j.wrote.getD q 0 < Tab.get (fun _ => 0) (s.thr q).wrote (cjAssign d))) ||
    (j.seen && !(List.range 4).any (fun q => (s.thr q).steps.any (fun x => tsAssign x.words == cjAssign d && !x.cut && !x.fin)))

/-- Whether a token is ready (R192); an entry whose REPLICA is out of range is taken up, to fail the job. -/
def tokenReady (s : State) (j : CombJob) (t : Nat) : Bool :=
  (tokenEntries j.words t s).all (fun e =>
    !aeKept e.1 || decide (cjRmax j.words ≤ aeReplica e.1) || j.ready.contains (4 * aeExpert e.1 + aeReplica e.1))

/-- The token a job combines next (R194): the lowest ready one among the 256 lowest left. -/
def nextToken (s : State) (j : CombJob) : Option Nat :=
  if combIndexed s j then (j.left.take 256).find? (tokenReady s j) else none

/-- Contexts in turn from the one after a context. -/
def ctxFrom (c : Nat) : List Nat := (List.range 8).map (fun i => (c + 1 + i) % 8)

/-- The context served next (R194): its job and token. -/
def pickComb (k : Nat) (s : State) : Option (CombJob × Nat) :=
  let h := s.gln k
  let pick := fun (be : Bool) (c : Nat) => match h.combs.find? (fun j => j.ctx == c && s.flag (GLN_PLOT_CLASS k j.ring) == be) with
    | some j => (nextToken s j).map (fun t => (j, t))
    | none => none
  match (ctxFrom h.ctxLc).findSome? (pick false) with
  | some x => some x
  | none => (ctxFrom h.ctxBe).findSome? (pick true)

/-- Weight parts of an entry (R192): binary16 parts of a binary32 weight. -/
def weightParts (two : Bool) (w : Nat) : List Val :=
  let hi := decodeElem .f16 (encodeVal .f16 .rne (f32v w)).1
  if two then
    let lo := addVal .rne (f32v w) hi.negate
    [hi, decodeElem .f16 (encodeVal .f16 .rne (resVal lo)).1]
  else [hi]

/-- Values of a binary16 row. -/
def f16Row (bs : List Byte) (n : Nat) : List Val := (List.range n).map (fun i => decodeElem .f16 (packedElem .f16 bs i))

/-- Adds a weighted row to the accumulators (R192). -/
def addRow (w : Val) (row : List Val) (acc : List Tally) : List Tally :=
  (acc.zip row).map (fun x => (Tally.addProduct 48 x.1 w x.2).1)

/-- Reads the return rows of the KEPT entries: their weights' parts and values, or a failure code. -/
def readRows (k : Nat) (j : CombJob) : List (Nat × Nat) → State → Nat × List (List Val × List Val) × State
  | [], s => (0, [], s)
  | e :: es, s =>
    if !aeKept e.1 then readRows k j es s
    else
      let d := j.words
      let a := gaOff (cjRet d) + retIndex d (aeExpert e.1) (aeReplica e.1) (aeSlot e.1) * cjRetStride d
      let r := unitRead (glnWho k j.ring s) a (2 * cjElems d) s
      if r.1 ≠ 0 then (r.1, [], r.2.2)
      else
        let q := readRows k j es r.2.2
        (q.1, (weightParts (cjWprec d) (bitsOf e.2 0 32), f16Row r.2.1 (cjElems d)) :: q.2.1, q.2.2)

/-- B_out of R196. -/
def combOutBytes (d : List Nat) (f : Format) : Nat := f.bytes (cjElems d) + (if f.scaled then cjElems d / 32 else 0)

/-- Writes a combined row and its scale bytes (R193). -/
def putRow (k : Nat) (j : CombJob) (t : Nat) (bs sc : List Byte) (s : State) : State :=
  let d := j.words
  let i := t - cjTokBase d
  let w := glnWho k j.ring s
  unitWrite w (gaOff (cjOsc d) + i * cjOscStride d) sc (unitWrite w (gaOff (cjOut d) + i * cjOutStride d) bs s)

/-- A combined token: the job with its figures. -/
def tokenDone (k : Nat) (j : CombJob) (t cost products : Nat) (special : Bool) (s : State) : State :=
  let h := s.gln k
  let s1 := s.setGln k (if s.flag (GLN_PLOT_CLASS k j.ring) then { h with ctxBe := j.ctx } else { h with ctxLc := j.ctx })
  let j2 := { j with left := j.left.filter (fun x => x != t), tokens := j.tokens + 1, products := j.products + products,
                     active := j.active + cost, special := j.special + ofBool special }
  let s2 := ((putComb k j2 s1).count (GLN_TOKENS_COUNT k) 1).count (GLN_PRODUCTS_COUNT k) products
  let s3 := if special then rdWarn k 3 cGlnSpecial 0 (s2.raise (GLN_IRQ_WARN k)) else s2
  combEnd j.ring j.ord s3

/-- Combines one token (R192, R193). -/
def combineOne (k : Nat) (j : CombJob) (t : Nat) (f : Format) (s : State) : State :=
  let d := j.words
  let i := t - cjTokBase d
  let w := glnWho k j.ring s
  let e := unitRead w (gaOff (cjAssign d) + 16 * (i * cjK d)) (16 * cjK d) s
  let es := tokenEntries d t s
  let kept := es.filter (fun x => aeKept x.1)
  let pt := kept.length * (if cjWprec d then 2 else 1) + ofBool (cjRes d)
  let cost := 8 + ceilDiv (cjElems d) 512 * pt + ceilDiv (combOutBytes d f) 1024
  if e.1 ≠ 0 then combFail k j cGlnInput 0 e.2.2
  else if kept.any (fun x => decide (cjRmax d ≤ aeReplica x.1)) then combFail k j cGlnDesc 0 e.2.2
  else
    let r := if cjRes d then unitRead w (gaOff (cjResAddr d) + i * cjResStride d) (2 * cjElems d) e.2.2 else (0, [], e.2.2)
    if r.1 ≠ 0 then combFail k j cGlnInput 0 r.2.2
    else if kept.isEmpty then
      let bs := if cjRes d then r.2.1 else List.replicate (f.bytes (cjElems d)) 0
      let sc := if f.scaled then List.replicate (cjElems d / 32) 0 else []
      tokenDone k j t cost 0 false (putRow k j t bs sc r.2.2)
    else
      let q := readRows k j kept r.2.2
      if q.1 ≠ 0 then combFail k j cGlnInput 0 q.2.2
      else
        let zero : List Tally := (List.range (cjElems d)).map (fun _ => {})
        let acc := if cjRes d then addRow (.fin false 1 0) (f16Row r.2.1 (cjElems d)) zero else zero
        let acc := q.2.1.foldl (fun a x => x.1.foldl (fun b wt => addRow wt x.2 b) a) acc
        let out := readRow 48 f (acc.zipIdx.map (fun x =>
          (x.1, readoutMode (cjRmode d) (cjSeed d) (cjTid d) (i * cjElems d + x.2))))
        let special := acc.any (fun x => x.nan || x.pinf || x.ninf)
        let products := kept.length * (if cjWprec d then 2 else 1) * cjElems d
        tokenDone k j t cost products special
          (putRow k j t (packElems f out.1) (out.2.1.map (BitVec.ofNat 8)) q.2.2)

/-- COMBINE_TOKEN (R192, R194), with the rc waited for ready tokens and for reads. -/
def combineToken (k stall stallSrc : Nat) (s : State) : State :=
  match pickComb k s with
  | none => s
  | some (j, t) =>
    match cjFmt j.words with
    | none => s
    | some f =>
      combineOne k { j with stall := j.stall + stall, stallSrc := j.stallSrc + stallSrc } t f
        ((s.count (GLN_STALL_RDY_COUNT k) stall).count (GLN_STALL_SRC_COUNT k) stallSrc)

/-- Combines the tokens of a job's share that are ready, lowest first. -/
def combReady (k n ord : Nat) : Nat → State → State
  | 0, s => s
  | f + 1, s =>
    match combCopy k n ord s with
    | none => s
    | some j =>
      match nextToken s j, cjFmt j.words with
      | some t, some fm => combReady k n ord f (combineOne k j t fm s)
      | _, _ => s

/-- GLN_TIMEOUT (R195, R201): at LIMIT_US the tokens that are ready are still combined, on every die; the job of context `c` fails if
any token remains. -/
def glnTimeout (k c : Nat) (s : State) : State :=
  match (s.gln k).combs.find? (fun j => j.ctx == c) with
  | some j =>
    let t := (List.range 4).foldl (fun u q =>
      match combCopy q j.ring j.ord u with
      | some i => combReady q j.ring j.ord i.left.length u
      | none => u) s
    if (combCopy k j.ring j.ord t).isSome then combFailAt j.ring j.ord cGlnTimeout 0 t else t
  | none => s

/-- The queued jobs of a flushed combine ring fail, on all four Gleaners (R195). -/
def flushCombs (k n : Nat) : Nat → State → State
  | 0, s => s
  | f + 1, s => if combWaiting k n s then flushCombs k n f (combFailAt n (combOrd k n s) cGlnFlushed 0 s) else s

/-- GLN_FLUSH (R188, R195): active, open and queued jobs of the ring fail; a failed RETURN job ends when its ABORT markers have been
sent. -/
def glnFlush (comb : Bool) (k n : Nat) (s : State) : State :=
  if comb then
    flushCombs k n 4096 (((s.gln k).combs.filter (fun j => j.ring == n)).foldl
      (fun t j => combFailAt n j.ord cGlnFlushed 0 t) s)
  else
    let t := ((s.gln k).rets.filter (fun j => j.ring == n)).foldl (fun u j => retFail k j cGlnFlushed u) s
    let h := t.gln k
    let t := if ringHas (glnRing false k n) t then
        t.setGln k { h with flushRet := Tab.set (fun _ => 0) h.flushRet n (retQueued k n t) }
      else t
    retSweep k (flushRets k n 4096 t)

/-- Whether a class has a return row that can go. -/
def retRow (k : Nat) (be : Bool) (s : State) : Bool :=
  match pickRet k be s with
  | some j => j.todo.head?.any (fun a => !a.marker)
  | none => false

/-- Shows whether a token or a return row can go at once (R202): commands being whole tokens and rows, the next one stands for the
one in progress (log entry 17). -/
def glnBusy (k : Nat) (s : State) : State :=
  s.set (GLN_STATUS_BUSY k) (ofBool ((pickComb k s).isSome || retRow k false s || retRow k true s))

/-- A command of the Gleaners, with what GLN_STATUS shows after it. -/
def glnShow (f : State → State) (s : State) : State := (List.range 4).foldl (fun t k => glnBusy k t) (f s)

/-! The commands. -/

def execReturnJob (k : Fin 4) (n : Fin 16) (s : State) : Host.Outcome State Fault Refusal :=
  .next (s.live (glnShow (returnJob k n)))

def execReturnBlockReady (k : Fin 4) (i : Nat) (s : State) : Host.Outcome State Fault Refusal :=
  .next (s.live (glnShow (returnBlockReady k i)))

def execGlnReadyTimeout (k : Fin 4) (i : Nat) (s : State) : Host.Outcome State Fault Refusal :=
  .next (s.live (glnShow (glnReadyTimeout k i)))

def execReturnRowSend (k : Fin 4) (stall stallSrc : Nat) (s : State) : Host.Outcome State Fault Refusal :=
  .next (s.live (glnShow (returnRowSend k stall stallSrc)))

def execCombineOpen (k : Fin 4) (s : State) : Host.Outcome State Fault Refusal :=
  .next (s.live (glnShow (combineOpen k)))

def execRetPiece (i : Nat) (s : State) : Host.Outcome State Fault Refusal :=
  .next (s.live (glnShow (retPiece i)))

def execRetMarker (i : Nat) (s : State) : Host.Outcome State Fault Refusal :=
  .next (s.live (glnShow (retMarker i)))

def execReadyNotice (k : Fin 4) (s : State) : Host.Outcome State Fault Refusal :=
  .next (s.live (glnShow (readyNotice k)))

def execCombineToken (k : Fin 4) (stall stallSrc : Nat) (s : State) : Host.Outcome State Fault Refusal :=
  .next (s.live (glnShow (combineToken k stall stallSrc)))

def execGlnTimeout (k : Fin 4) (c : Fin 8) (s : State) : Host.Outcome State Fault Refusal :=
  .next (s.live (glnShow (glnTimeout k c)))

def execGlnFlush (k : Fin 4) (comb : Bool) (n : Fin 16) (s : State) : Host.Outcome State Fault Refusal :=
  .next (s.live (glnShow (glnFlush comb k n)))

end Sys2Proof.Machine
end

