-- ==== Sys2Proof/Machine/VtEvents.lean ====
section
/-!
DEFINITION. The remaining commands of the transaction engines (10_fabric_transactions): relaying and invalid packets
(R264, R280), resends (R270, R272), FLAG_G (R274), timeout and its records (R281, R290, R441), idle pairs (R270), route
epochs (R283, R284), notices (R285 to R289), and operation slots (R268).
-/
namespace Sys2Proof.Machine

/-- PACKET_RELAY (R280): the packet goes on by the DIRECT port to its destination, once, or is dropped; under NODE_DOWN
nothing is transmitted to a node (R289). -/
def packetRelay (i : Nat) (s : State) : State :=
  match takeRecv i s with
  | none => s
  | some (v, p, t) =>
    if !p.valid || p.h.kind = kNotice || p.h.dst == s.node then s
    else
      let k := match v with | .port n => portDie n | .own => 0
      let g := ingress v p t
      let drop := fun (u : State) => u.count (VT_RELAY_DROPS_COUNT k) 1
      if !epochKnown s p.h.epoch then drop g.2
      else if !g.1 then g.2
      else
        -- a packet that its source did not hand to this part itself has been forwarded before
        let first := match v with
          | .port n => decide (15 ≤ n) || s.get (VL_EXPECT_NODE n) == p.h.src
          | .own => false
        match (if first && p.h.dst / 16 == s.node / 16 && !s.vt.down.contains p.h.dst then peerPort s p.h.dst else none) with
        | some n => if s.get (VL_STATE_STATE n) = vlUp then toPort n p g.2 else drop g.2
        | none => drop g.2

def execPacketRelay (i : Nat) (s : State) : Host.Outcome State Fault Refusal := .next (s.live (packetRelay i))

/-- INVALID_PACKET (R264). -/
def invalidPacket (i : Nat) (s : State) : State :=
  match takeRecv i s with
  | none => s
  | some (_, p, t) => if p.valid then s else t.count (VT_RX_BAD_COUNT p.h.stream) 1

def execInvalidPacket (i : Nat) (s : State) : Host.Outcome State Fault Refusal := .next (s.live (invalidPacket i))

/-- RTO_RESEND (R272): a packet neither acknowledged nor answered is sent again. -/
def rtoResend (k node psn : Nat) (s : State) : State :=
  match sendCtx s k node with
  | none => s
  | some c => if c.out.any (fun o => o.psn == psn && !o.acked && !o.answered && !o.busy) then resend k node psn s else s

def execRtoResend (k : Fin 4) (node psn : Nat) (s : State) : Host.Outcome State Fault Refusal :=
  .next (s.live (rtoResend k node psn))

/-- BUSY_RESEND (R270). -/
def busyResend (k node psn : Nat) (s : State) : State :=
  match sendCtx s k node with
  | none => s
  | some c =>
    if c.out.any (fun o => o.psn == psn && o.busy) then resend k node psn (s.count (VT_BUSY_NACKS_COUNT k) 1) else s

def execBusyResend (k : Fin 4) (node psn : Nat) (s : State) : Host.Outcome State Fault Refusal :=
  .next (s.live (busyResend k node psn))

/-- FLAG_G_RELEASE (R274): the oldest request of stream `k` held under FLAG_G goes once nothing earlier is open. -/
def flagGRelease (k : Nat) (s : State) : State :=
  match s.vt.waiting.find? (fun w => w.k == k && w.pkt.h.flagG == 1 && sendable s w) with
  | none => s
  | some w => sendReq w { s with vt := { s.vt with waiting := s.vt.waiting.filter (fun v => !(v.k == k && v.rid == w.rid)) } }

def execFlagGRelease (k : Fin 4) (s : State) : Host.Outcome State Fault Refusal := .next (s.live (flagGRelease k))

/-! Timeout and suppression (R281, R290, R441). -/

/-- For each engine. -/
def eachEngine (f : Nat → State → State) (s : State) : State := (List.range 4).foldl (fun t k => f k t) s

/-- Suppression entry open for a target: the part has one table, which the four engines show alike (R290, R292). -/
def supEntry (s : State) (target : Nat) : Option Nat :=
  (List.range 64).find? (fun e => s.flag (VT_SUP_A_OPEN 0 e) && s.get (VT_SUP_A_TARGET 0 e) == target)

/-- Adds to a suppression entry. -/
def supCount (e : Nat) (s : State) : State :=
  let t := eachEngine (fun k u => u.countSat (VT_SUP_A_COUNT k e) 1) s
  { t with vt := { t.vt with supLast := Tab.set (fun _ => 0) t.vt.supLast e s.alm } }

/-- Engine `k` opens suppression entry `e` for a target, with its first count. -/
def supOpen (k e target : Nat) (s : State) : State :=
  let t := eachEngine (fun j u => (((u.set (VT_SUP_A_TARGET j e) target).set (VT_SUP_A_OPEN j e) 1).set
    (VT_SUP_A_COUNT j e) 0).set (VT_SUP_B_FIRST_ALM j e) s.alm) s
  supCount e { t with vt := { t.vt with supBy := Tab.set (fun _ => 0) t.vt.supBy e k } }

/-- The record of a timeout that engine `k` finds (R290): counted in the target's entry; an entry opened under NODE_DOWN
counts without a record (log entry 46). -/
def recordTimeout (k target : Nat) (s : State) : State :=
  match supEntry s target with
  | some e => supCount e s
  | none =>
    let down := s.vt.down.contains target
    let t := if down then s else
      (vtLast k 0x050F target 0 (s.raise (VT_IRQ_SECOND k))).bbWrite
        { code := 0x050F, level := 0, kind := 0, die := 16 + k, sub := 5, detail := target }
    match (List.range 64).find? (fun e => !s.flag (VT_SUP_A_OPEN 0 e)) with
    | some e => supOpen k e target t
    | none =>
      let u := t.count (VT_SUP_OVF_COUNT k) 1
      if down then u else vtWarn k 0x0512 target target (VT_IRQ_SUP_FULL k) u

/-- One outstanding request fails with its pair (R281): a LOAD writes error values; an atomic's old value is free. -/
def expireOne (k code : Nat) (o : OutReq) (s : State) : State :=
  let t := if o.pkt.h.kind = kLoad then landLoad o.land (errBytes code o.pkt.h.size) s else s
  let d := t.drawWord
  if o.pkt.h.kind = kLoad then completeReq k o.agent code (errVal code) o.psn o.pkt.h.gen t
  else if o.pkt.h.kind = kAtomic ∧ o.pkt.h.op ≠ 3 then completeReq k o.agent code d.1.toNat o.psn o.pkt.h.gen d.2
  else completeReq k o.agent code 0 o.psn o.pkt.h.gen t

/-- REQUEST_TIMEOUT (R281): every outstanding request of the pair fails, and its context closes without CLOSE. -/
def requestTimeout (k node : Nat) (s : State) : State :=
  match sendCtx s k node with
  | none => s
  | some c =>
    if c.out.isEmpty then s
    else
      let code := if s.vt.down.contains node then cVtDown else cRemoteTimeout
      let off := match c.out with | o :: _ => o.pkt.h.offset | [] => 0
      let t := (vtLast k code node off (dropSend k node s)).raise (VT_IRQ_TIMEOUT k)
      pump (recordTimeout k (hdrNode s node) (c.out.foldl (fun u o => expireOne k code o u) t))

def execRequestTimeout (k : Fin 4) (node : Nat) (s : State) : Host.Outcome State Fault Refusal :=
  .next (s.live (requestTimeout k node))

/-- A suppression entry closes on every engine and HM writes its summary (R290, R441). -/
def closeSup (e : Nat) (s : State) : State :=
  if s.flag (VT_SUP_A_OPEN 0 e) then
    let first := s.get (VT_SUP_B_FIRST_ALM 0 e)
    let last := Tab.get (fun _ => 0) s.vt.supLast e
    let target := s.get (VT_SUP_A_TARGET 0 e)
    let t := s.bbWriteAt
      { code := 0x050F, level := 0, kind := 3, die := 16 + Tab.get (fun _ => 0) s.vt.supBy e, sub := 5, detail := target,
        cnt := s.get (VT_SUP_A_COUNT 0 e), span := (last - first) / 1000 } first
    let t := eachEngine (fun k u => u.set (VT_SUP_A_OPEN k e) 0) t
    { t with
      vt := { t.vt with notices := t.vt.notices.filter (fun n => n.target != target || t.vt.down.contains target) } }
  else s

/-- The hold of an entry expires on whichever engine the command names: the entry is the part's. -/
def execSuppressHoldExpiry (_k : Fin 4) (e : Fin 64) (s : State) : Host.Outcome State Fault Refusal :=
  .next (s.live (closeSup e))

/-- CONTEXT_IDLE (R270): an idle pair sends CLOSE. -/
def contextIdle (k node : Nat) (s : State) : State :=
  match sendCtx s k node with
  | none => s
  | some c =>
    if !c.out.isEmpty || c.closing || c.issued = 0 || s.vt.waiting.any (fun w => w.k == k && w.node == node) then s
    else
      match pickPath s false c with
      | none => s
      | some (path, d) =>
        let h : Hdr := { kind := kClose, epoch := s.get (VT_EPOCH_CUR k), src := s.node, stream := k, dst := hdrNode s node,
                         gen := c.gen, psn := c.next, key := c.key, ts := s.alm % 2 ^ 32, rack := c.next }
        let o : OutReq := { rid := s.vt.nextRid, psn := c.next, agent := .none, pkt := { h := h }, path := path }
        let t := putSend { d with closing := true, next := (c.next + 1) % 2 ^ 32, issued := (c.issued + 1) % 2 ^ 32,
                                  out := [o] } s
        transmit k path { h := h } { t with vt := { t.vt with nextRid := t.vt.nextRid + 1 } }

def execContextIdle (k : Fin 4) (node : Nat) (s : State) : Host.Outcome State Fault Refusal :=
  .next (s.live (contextIdle k node))

/-! Route epochs (R283, R284). -/

/-- The old epoch retires: packets still unacknowledged under it are sent again at once (R284). -/
def retireOld (s : State) : State :=
  if s.flag (VT_EPOCH_WINDOW 0) then
    let old := s.get (VT_EPOCH_OLD 0)
    let t := eachEngine (fun k u => u.set (VT_EPOCH_WINDOW k) 0) s
    showInflight (resendAll (fun _ o => !o.acked && o.pkt.h.epoch == old)
      { t with vt := { t.vt with rold := {} } })
  else s

/-- EPOCH_RETIRE (R284): nothing sent under the old epoch is unacknowledged. -/
def epochRetire (s : State) : State := if oldInflight s = 0 then retireOld s else s

def execEpochRetire (s : State) : Host.Outcome State Fault Refusal := .next (s.live epochRetire)

/-- HEADLAND_END (R284). -/
def headlandEnd (s : State) : State := retireOld s

def execHeadlandEnd (s : State) : Host.Outcome State Fault Refusal := .next (s.live headlandEnd)

/-- Stages a route table for an almanac count (R284, R294). -/
def stageRoute (r : RouteTab) (count : Nat) (s : State) : State :=
  let t := retireOld s
  eachEngine (fun k u => ((u.set (VT_EPOCH_STAGED k) 1).set (VT_EPOCH_NEXT k) ((u.get (VT_EPOCH_CUR k) + 1) % 4)).set
    (VT_SWAP_ALM_COUNT k) count) { t with vt := { t.vt with rstaged := r } }

/-- Drops a staged route table. -/
def unstageRoute (s : State) : State :=
  eachEngine (fun k u => (u.set (VT_EPOCH_STAGED k) 0).set (VT_SWAP_ALM_COUNT k) 0) { s with vt := { s.vt with rstaged := {} } }

/-- The staged table becomes current and the headland window opens (R284). -/
def applyRoute (s : State) : State :=
  if s.flag (VT_EPOCH_STAGED 0) then
    let t := eachEngine (fun k u =>
      ((((u.set (VT_EPOCH_OLD k) (u.get (VT_EPOCH_CUR k))).set (VT_EPOCH_CUR k) (u.get (VT_EPOCH_NEXT k))).set
        (VT_EPOCH_WINDOW k) 1).set (VT_EPOCH_STAGED k) 0).set (VT_SWAP_ALM_COUNT k) 0) s
    refreshSpray (showInflight { t with vt := { t.vt with rold := t.vt.rcur, rcur := t.vt.rstaged, rstaged := {} } })
  else s

/-! Dead elements and notices (R285 to R289). -/

/-- The dead elements are replaced: their number is shown, and the spray sets follow (R279, R287). -/
def setDead (ds : List DeadEl) (s : State) : State :=
  refreshSpray (eachEngine (fun k u => u.set (VT_DEAD_CNT_COUNT k) (min ds.length 1024)) { s with vt := { s.vt with dead := ds } })

/-- The ports of a node that an entry keeps dead. -/
def DeadEl.all (d : DeadEl) : List Nat := if d.ports.isEmpty then [d.port] else d.ports

/-- Enters a dead element; a full table takes its whole node, which stands for every dead port of it (R287; log entry 47). -/
def addDead (k node port target : Nat) (s : State) : State :=
  if s.vt.dead.any (fun d => d.node == node && d.all.contains port) then s
  else if s.vt.dead.length < 1024 then setDead (s.vt.dead ++ [⟨node, port, target, []⟩]) s
  else
    let mine := s.vt.dead.filter (fun d => d.node == node)
    vtWarn k 0x0511 node node (VT_IRQ_DEAD_FULL k)
      (setDead (s.vt.dead.filter (fun d => d.node != node) ++ [⟨node, 31, target, mine.flatMap DeadEl.all ++ [port]⟩]) s)

/-- What is left of an entry when an element leaves the table; port 31 takes every entry of its node with it. -/
def DeadEl.without (node port : Nat) (d : DeadEl) : List DeadEl :=
  if d.node ≠ node then [d]
  else if port = 31 then []
  else
    let left := d.all.filter (fun q => q != port)
    if left.isEmpty then [] else if d.ports.isEmpty then [d] else [{ d with ports := left }]

/-- An element leaves the table (R287). -/
def dropDead (node port : Nat) (s : State) : State := setDead (s.vt.dead.flatMap (DeadEl.without node port)) s

/-- What is left of an entry when a target is restored: its NODE_DOWN no longer keeps the whole node dead. -/
def DeadEl.restored (target : Nat) (d : DeadEl) : List DeadEl :=
  if d.node ≠ target then [d]
  else
    let left := d.all.filter (fun q => q != 31)
    if left.isEmpty then [] else if d.ports.isEmpty then [d] else [{ d with ports := left }]

/-- Whether a path to a node crosses an element (R285). -/
def crosses (s : State) (path : Path) (dst node port target : Nat) : Bool :=
  let hit := fun (a b : Nat) => a == node && (b == port || port == 31)
  match path with
  | .own => false
  | .direct n => hit s.node n || hit dst (s.get (VL_EXPECT_PORT n))
  | .relay n r =>
    hit s.node n || hit r (s.get (VL_EXPECT_PORT n)) || (node == r && (target == dst || port == 31)) ||
      (node == dst && (target == r || port == 31))
  | .up n => hit s.node n || hit dst n

/-- Notice fields of the operand (R288). -/
def noteTarget (w : Nat) : Nat := bitsOf w 0 18
def noteENode (w : Nat) : Nat := bitsOf w 18 18
def noteEPort (w : Nat) : Nat := bitsOf w 36 5
def noteType (w : Nat) : Nat := bitsOf w 41 2
def noteKind (w : Nat) : Nat := bitsOf w 43 1

/-- Word 6 of a notice (R288). -/
def noteWord (target enode eport ntype ikind : Nat) : Nat :=
  putF target 0 18 + putF enode 18 18 + putF eport 36 5 + putF ntype 41 2 + putF ikind 43 1

/-- Sends a notice on every UP port (R288). -/
def castNotice (p : Packet) (s : State) : State :=
  (List.range 19).foldl (fun t n => if t.get (VL_STATE_STATE n) = vlUp then toPort n p t else t) s

/-- Issues a notice: once now, and again at NOTICE_REPEAT (R288). -/
def issueNotice (target enode eport ntype cause : Nat) (s : State) : State :=
  let h : Hdr := { kind := kNotice, epoch := s.get (VT_EPOCH_CUR 0), src := s.node, ts := s.alm % 2 ^ 32,
                   operand := noteWord target enode eport ntype 0 + cause % 2 ^ 64 * 2 ^ 64 }
  let t := castNotice { h := h } s
  { t with vt := { t.vt with again := t.vt.again ++ [{ h := h }] } }

/-- NOTICE_REPEAT (R288): notices issued are sent a second time. -/
def noticeRepeat (s : State) : State :=
  let t := s.vt.again.foldl (fun u p => castNotice p u) s
  { t with vt := { t.vt with again := [] } }

def execNoticeRepeat (s : State) : Host.Outcome State Fault Refusal := .next (s.live noticeRepeat)

/-- Packets for a target leave the queue of a channel; notices stay. -/
def Chan.purge (target : Nat) (c : Chan) : Chan :=
  { c with queue := c.queue.filter (fun p => p.h.dst != target || p.h.kind == kNotice) }

/-- NODE_DOWN for a target: transmissions to it stop, and what waits for it at the ports is withdrawn (R289). -/
def markDown (target : Nat) (s : State) : State :=
  if s.vt.down.contains target then s
  else
    let t := { s with vt := { s.vt with down := s.vt.down ++ [target] } }
    (List.range 19).foldl (fun u n =>
      let l := u.link n
      if l.x.queue.isEmpty && l.n.queue.isEmpty then u
      else u.setLink n { l with x := l.x.purge target, n := l.n.purge target }) t

/-- A board peer with its own FAULT loss to a target and LINK_DOWN notices of enough other peers within 10 µs issues
NODE_DOWN, whether or not another peer has (R288, R292). -/
def quorum (target : Nat) (s : State) : State :=
  match s.vt.lost.find? (fun l => l.1 == target) with
  | none => s
  | some l =>
    let held := s.vt.notices.filter (fun n => n.ntype == 0 && n.target == target && n.issuer != target &&
      n.issuer != s.node && n.issuer / 16 == s.node / 16 && decide (n.alm ≤ l.2 + 10000) && decide (l.2 ≤ n.alm + 10000))
    let q := max 1 (s.get (VT_QUORUM_Q 0))
    if target / 16 == s.node / 16 && decide (q ≤ (held.map (fun n => n.issuer)).eraseDups.length + 1) &&
        !s.vt.issued.contains target then
      let t := issueNotice target target 31 1 0 s
      markDown target (addDead 0 target 31 target { t with vt := { t.vt with issued := t.vt.issued ++ [target] } })
    else s

/-- Whether a notice is authoritative (R288). -/
def noticeOk (v : Via) (p : Packet) : Bool :=
  let w := p.h.operand
  if noteKind w = 1 then (match v with | .port n => decide (15 ≤ n) | .own => false)
  else p.h.src == noteTarget w || p.h.src / 16 == noteTarget w / 16

/-- The record of an accepted DOWN notice (R289). -/
def noticeRecord (k : Nat) (p : Packet) (s : State) : State :=
  let w := p.h.operand
  (vtLast k 0x050E (noteTarget w) 0 (s.raise (VT_IRQ_NOTICE k))).bbWrite
    { code := 0x050E, level := 0, kind := 0, die := 16 + k, sub := 5,
      detail := putF (noteENode w) 0 18 + putF (noteEPort w) 18 5 + putF (noteType w) 23 2 + putF p.h.src 25 18 +
        putF (noteTarget w) 43 18 }

/-- RESTORED of a node: it is no longer down, and the notices that named it are forgotten. -/
def forgetDown (target : Nat) (s : State) : State :=
  { s with vt := { s.vt with down := s.vt.down.filter (fun d => d != target), issued := s.vt.issued.filter (fun d => d != target),
                             notices := s.vt.notices.filter (fun n => n.target != target) } }

/-- A notice accepted is remembered. -/
def keepNotice (r : NoticeRec) (s : State) : State := { s with vt := { s.vt with notices := s.vt.notices ++ [r] } }

/-- An accepted notice (R287 to R290). -/
def noticeAct (k : Nat) (p : Packet) (s : State) : State :=
  let w := p.h.operand
  let target := noteTarget w
  let en := noteENode w
  let ep := noteEPort w
  let ty := noteType w
  let same := fun (n : NoticeRec) => n.issuer == p.h.src && n.enode == en && n.eport == ep && n.ntype == ty && n.target == target
  if ty = 3 then
    let t := dropDead en ep s
    let t := setDead (t.vt.dead.flatMap (DeadEl.restored target)) t
    let t := forgetDown target t
    match supEntry t target with
    | some e => closeSup e t
    | none => t
  else if s.vt.notices.any same then s
  else
    let r : NoticeRec := ⟨p.h.src, en, ep, ty, target, s.alm⟩
    let t := keepNotice r s
    if ty = 1 then noticeRecord k p (markDown target (addDead k en ep target t))
    else
      let t := resendAll (fun c o => !o.acked && crosses s o.path c.node en ep target) (addDead k en ep target t)
      if ty = 0 then quorum target (noticeRecord k p t) else t

/-- A received notice, as far as the transaction engines go (R288, R289); the node it took down, if any. -/
def noticeVt (i : Nat) (s : State) : State :=
  match takeRecv i s with
  | none => s
  | some (v, p, t) =>
    if !p.valid || p.h.kind ≠ kNotice then s
    else
      let k := match v with | .port n => portDie n | .own => 0
      let g := ingress v p t
      let t := g.2
      if !g.1 then t
      else if noticeOk v p then noticeAct k p t
      else
        (vtLast k 0x0510 p.h.src 0 t).report
          { code := 0x0510, level := 0, kind := 1, die := 16 + k, sub := 5, detail := p.h.src }

/-! Own ports (R286, R287). -/

/-- A port's packets handed back when it goes down: relayed ones are discarded, the part's own are sent again from the
reduced set, under the current epoch (R284, R286). A packet for the own node can only have been a switch's (log
entry 25); a notice goes out again on the ports that are UP. -/
def handBack (ps : List Packet) (s : State) : State :=
  ps.foldl (fun t p =>
    let node := if p.h.dst = t.node then swNode else p.h.dst
    let q := { p with h := { p.h with epoch := t.get (VT_EPOCH_CUR p.h.stream), ts := t.alm % 2 ^ 32 } }
    if p.h.src ≠ t.node then t
    else if p.h.sequenced then resend p.h.stream node p.h.psn t
    else if p.h.kind = kNotice then castNotice q t
    else sendFree p.h.stream node q t) s

/-! Operation slots (R268). -/

/-- Completion of an operation slot (R268, R294). -/
def opComplete (k sl : Nat) (s : State) : State :=
  match s.vt.done.find? (fun d => d.k == k && d.agent == Agent.op sl) with
  | none => s
  | some d =>
    let t := { s with vt := { s.vt with done := s.vt.done.filter (fun e => !(e.k == k && e.agent == Agent.op sl)) } }
    (((((t.set (VT_OP_STAT_BUSY k sl) 0).set (VT_OP_STAT_DONE k sl) 1).set (VT_OP_STAT_STATUS k sl) d.status).set
      (VT_OP_RES0_RES k sl) d.res).set (VT_OP_RES1_PSN k sl) d.psn).set (VT_OP_RES1_GEN k sl) d.gen

def execOpComplete (k : Fin 4) (sl : Fin 16) (s : State) : Host.Outcome State Fault Refusal := .next (s.live (opComplete k sl))

/-- The check of R266 on a slot's request: 0 or the refusal code. -/
def opCheck (kind op off : Nat) : Nat :=
  if inRegs off then (if kind = kAtomic then cVtReg else if off % 8 = 0 then 0 else cVtAlign)
  else if kind = kAtomic ∧ ¬ (op = 1 ∨ op = 2 ∨ op = 3) then cVtAlign
  else if off % (if kind = kAtomic ∧ op = 3 then 16 else 8) = 0 then 0 else cVtAlign

/-- A VT_OP_CMD write (R268): the slot sends its request, refused requests complete at once. -/
def opCmd (k sl : Nat) (v : Word) (s : State) : State :=
  let w := v.toNat
  let kind := bitsOf w 0 4
  let op := bitsOf w 4 4
  if s.flag (VT_OP_STAT_BUSY k sl) || !(kind == kLoad || kind == kStore || kind == kAtomic) then s
  else
    let ga := s.get (VT_OP_ADDR_ADDR k sl)
    let a := s.get (VT_OP_A_A k sl)
    let b := s.get (VT_OP_B_B k sl)
    let h : Hdr := { kind := kind, cls := bitsOf w 10 1, flag := bitsOf w 8 1, flagG := bitsOf w 9 1, dst := gaNode ga,
                     key := s.get (VT_OP_KEY_KEY k sl), offset := gaOff ga, op := (if kind = kAtomic then op else 0),
                     arrEn := bitsOf w 11 1, lcore := bitsOf w 12 7, ctr := bitsOf w 19 10, inc := bitsOf w 29 8,
                     size := (if kind = kAtomic ∧ op = 3 then 16 else 8), operand := (if kind = kAtomic then a + b * 2 ^ 64 else 0) }
    let p : Packet := { h := h, data := (if kind = kStore then toBytes 8 a else []) }
    let t := s.set (VT_OP_STAT_BUSY k sl) 1
    let c := if kind = kAtomic ∧ ¬ (op = 1 ∨ op = 2 ∨ op = 3) then cVtAlign else opCheck kind op h.offset
    if c ≠ 0 then opComplete k sl (refuseAtSource k (.op sl) p none c t)
    else opComplete k sl (vtIssue k h.dst (.op sl) p none t)

def execOpLoad (k : Fin 4) (sl : Fin 16) (v : Word) (s : State) : Host.Outcome State Fault Refusal :=
  .next (s.live (fun t => if bitsOf v.toNat 0 4 = kLoad then opCmd k sl v t else t))
def execOpStore (k : Fin 4) (sl : Fin 16) (v : Word) (s : State) : Host.Outcome State Fault Refusal :=
  .next (s.live (fun t => if bitsOf v.toNat 0 4 = kStore then opCmd k sl v t else t))
def execOpAtomic (k : Fin 4) (sl : Fin 16) (v : Word) (s : State) : Host.Outcome State Fault Refusal :=
  .next (s.live (fun t => if bitsOf v.toNat 0 4 = kAtomic then opCmd k sl v t else t))

end Sys2Proof.Machine
end

