-- ==== Sys2Proof/Machine/Collectives.lean ====
section
/-!
DEFINITION. The collective engines (08_collectives): groups (R203 to R205), descriptors and digests (R206 to R213), votes
(R214 to R217), algorithms (R218 to R223), commit (R224), records and codes (R229, R230).
The four engines of the part hold identical copies of every job (R206), so the model keeps each job once and writes the
registers and records of all four engines.
-/
namespace Sys2Proof.Machine

/-! Status codes (R230). -/
def cCollMismatch : Nat := 0x0301
def cCollTimeout : Nat := 0x0302
def cCollAborted : Nat := 0x0303
def cCollDesc : Nat := 0x0304
def cCollGroup : Nat := 0x0305
def cCollSwitch : Nat := 0x0306
def cCollInput : Nat := 0x0307
def cCollFlushed : Nat := 0x0308
def cCollOverflow : Nat := 0x0309
def cCollIntSat : Nat := 0x030A
def cCollSpecial : Nat := 0x030B

/-! PHASE values (R265). -/
def phOpen : Nat := 1
def phClose : Nat := 2
def phAbort : Nat := 3
def phGo : Nat := 4
def phCommit : Nat := 5
def phResult : Nat := 6
def phAnchor : Nat := 7
def phLanes : Nat := 8
def phAnchorR : Nat := 9
def phTotals : Nat := 10
def phValues : Nat := 11
def phPiece : Nat := 12
def phNoctx : Nat := 13

/-- RANK of a packet from a switch (R265). -/
def rankSwitch : Nat := 0x1FFFF

/-! States of COL_CTX (R231). -/
def csOpening : Nat := 1
def csRunning : Nat := 2
def csReady : Nat := 3
def csAborting : Nat := 4
def csCommitting : Nat := 5

/-- Does something for each of the four engines. -/
def four (f : Nat → State → State) (s : State) : State := f 3 (f 2 (f 1 (f 0 s)))

/-- Registers of ring `n` of engine `k` (R231). -/
def colRing (k n : Nat) : RingRegs :=
  { en := COL_PLOT_EN k n, size := COL_RING_SIZE_ENTRIES k n, base := COL_RING_BASE_BASE k n, head := COL_HEAD_HEAD k n,
    tail := COL_TAIL_TAIL k n, full := COL_IRQ_RING_FULL k, lastCode := COL_LAST_STATUS k, lastRing := COL_LAST_RING k,
    ring := n, code := cCollDesc }

/-- Whether engine `k` has work in progress (R231; log entry 17): a collective is RUNNING there and the engine is not
READY, or is COMMITTING. -/
def colWorks (s : State) (k : Nat) : Bool :=
  s.col.jobs.any (fun j => (j.st == csRunning && !j.rdy.contains k) || j.st == csCommitting)

/-- A step of the collective engines, which shows COL_STATUS.BUSY after it. -/
def colStep (f : State → State) (s : State) : State :=
  let t := f s
  four (fun k u => u.set (COL_STATUS_BUSY k) (ofBool (colWorks t k))) t

def execColTailWrite (k : Fin 4) (n : Fin 16) (v : Word) (s : State) : Host.Outcome State Fault Refusal :=
  .next (s.live (tailWrite (colRing k n) v))

def colWho (k n : Nat) (s : State) : Who := ringWho k (COL_PLOT_PKEY k n) s

/-! COLL descriptor fields (R207). -/
def cdOp (d : List Nat) : Nat := dw d 0 4 4
def cdDtype (d : List Nat) : Nat := dw d 0 8 4
def cdOut (d : List Nat) : Nat := dw d 0 12 4
def cdRed (d : List Nat) : Nat := dw d 0 16 2
def cdWire (d : List Nat) : Nat := dw d 0 18 2
def cdAlgo (d : List Nat) : Nat := dw d 0 20 2
def cdRmode (d : List Nat) : Nat := dw d 0 22 3
def cdStream (d : List Nat) : Bool := bitOf (d.getD 0 0) 25
def cdGctx (d : List Nat) : Nat := dw d 0 26 8
def cdRoot (d : List Nat) : Nat := dw d 0 34 16
def cdCount (d : List Nat) : Nat := dw d 1 0 36
def cdSwath (d : List Nat) : Nat := dw d 1 36 16
def cdCap (d : List Nat) : Nat := dw d 2 0 32
def cdSstride (d : List Nat) : Nat := dw d 2 32 32
def cdSrc (d : List Nat) : Nat := d.getD 3 0
def cdDst (d : List Nat) : Nat := d.getD 4 0
def cdWork (d : List Nat) : Nat := d.getD 5 0
def cdWorkBytes (d : List Nat) : Nat := dw d 6 0 40
def cdSize (d : List Nat) : Nat := d.getD 7 0
def cdOutcnt (d : List Nat) : Nat := d.getD 8 0
def cdSeed (d : List Nat) : Nat := d.getD 9 0
def cdTid (d : List Nat) : Nat := dw d 10 0 24
def cdLimit (d : List Nat) : Nat := dw d 10 24 32
def cdPlcore (d : List Nat) : Nat := dw d 11 0 7
def cdPctr (d : List Nat) : Nat := dw d 11 7 10
def cdCmtctr (d : List Nat) : Nat := dw d 11 17 10
def cdCmtEn (d : List Nat) : Bool := bitOf (d.getD 11 0) 27
def cdCompl (d : List Nat) : Nat := d.getD 12 0
def cdJobId (d : List Nat) : Nat := dw d 13 26 16

/-- Reductions are ALLREDUCE and REDUCE_SCATTER (R207). -/
def cdIsRed (d : List Nat) : Bool := cdOp d == 1 || cdOp d == 2

/-- Whether the wire carries anchored tallies (R211). -/
def cdAt (d : List Nat) : Bool := decide (cdWire d < 2)

/-- Lane width in bytes (R220). -/
def laneBytes (d : List Nat) : Nat := if cdWire d = 1 then 12 else 8

/-- Bytes of an element of a format code. -/
def fmtBytes (c : Nat) : Nat := match Format.ofCode c with | some f => f.bits / 8 | none => 1

/-! Group contexts (R203 to R205). -/

def gOpen (s : State) (g : Nat) : Bool := s.flag (COL_GCTX_A_OPEN 0 g)
def gSize (s : State) (g : Nat) : Nat := s.get (COL_GCTX_A_SIZE 0 g)
def gRank (s : State) (g : Nat) : Nat := s.get (COL_GCTX_A_RANK 0 g)
def gHier (s : State) (g : Nat) : Bool := s.flag (COL_GCTX_A_HIER_OK 0 g)
def gNext (s : State) (g : Nat) : Nat := s.get (COL_GCTX_B_NEXT_SEQ 0 g)
def gDig (s : State) (g : Nat) : Nat := s.get (COL_GDIG_DIGEST 0 g)
def gNodes (s : State) (g : Nat) : List Nat := Tab.get (fun _ => []) s.col.nodes g
def gNode (s : State) (g r : Nat) : Nat := (gNodes s g).getD r 0

/-- The group digest (R204). -/
def groupDigest (gid : Nat) (nodes : List Nat) : Nat :=
  nodes.foldl (fun x n => dsrMix (x ^^^ n)) (dsrMix (gid ||| nodes.length * 2 ^ 32 % 2 ^ 64))

/-- The collective digest (R209). -/
def collDigest (d : List Nat) (gdig seq epoch : Nat) : Nat :=
  [cdOp d + cdDtype d * 2 ^ 4 + cdOut d * 2 ^ 8 + cdRed d * 2 ^ 12 + cdWire d * 2 ^ 14 + cdAlgo d * 2 ^ 16 +
     cdRmode d * 2 ^ 18 + cdRoot d * 2 ^ 24 + epoch * 2 ^ 40,
   cdCount d + cdSwath d * 2 ^ 36, cdCap d, cdSeed d, cdTid d, seq, gdig].foldl (fun x w => dsrMix (x ^^^ w)) 0

/-! GROUP jobs (R204). -/

/-- Fields of a GROUP descriptor. -/
def gdAction (d : List Nat) : Nat := dw d 0 4 1
def gdGctx (d : List Nat) : Nat := dw d 0 5 8
def gdGid (d : List Nat) : Nat := dw d 1 0 32
def gdSize (d : List Nat) : Nat := dw d 1 32 17
def gdTable (d : List Nat) : Nat := d.getD 2 0
def gdJobId (d : List Nat) : Nat := dw d 4 26 16

/-- Whether only the bits of R204's table are set. -/
def groupBits (d : List Nat) : Bool :=
  onlyBits d [bitMask 0 12, bitMask 0 48, allBits, allBits, bitMask 0 41, 0, 0, 0, 0, 0, 0, 0, 0, 0, 0, 0]

/-- COL_LAST of one engine (R231). -/
def colLast (k status cause ring job : Nat) (s : State) : State :=
  (((s.set (COL_LAST_STATUS k) status).set (COL_LAST_CAUSE k) cause).set (COL_LAST_RING k) ring).set (COL_LAST_JOB_ID k) job

/-- One engine's completion record, DONE, interrupts and COL_LAST (R229, R231). A fenced engine writes nothing. -/
def colRecord (k kind ring compl job : Nat) (done : DoneF) (status cause : Nat) (indoubt : Bool) (warn : Nat)
    (rest : List Nat) (s : State) : State :=
  if s.dieFenced (16 + k) then s
  else
    let w0 := putF status 0 16 + putF cause 16 16 + putF job 32 16 + putF kind 48 4 + putF k 52 2 + putF (ofBool indoubt) 54 1 +
      putF warn 55 3
    let t := if gaOk s 64 compl then writeWords (colWho k ring s) (compl + 64 * k) ([w0] ++ rest ++ [s.alm % 2 ^ 64]) s else s
    let t := done.run t
    let t := if status = 0 then t.raise (COL_IRQ_DONE k) else (colLast k status cause ring job t).raise (COL_IRQ_ABORT k)
    if indoubt then t.raise (COL_IRQ_INDOUBT k) else t

/-- HEAD of ring `n` passes the ended entry on every engine; a flush of the entry is spent with it. -/
def colAdvance (n : Nat) (s : State) : State :=
  let e := (n, s.get (COL_HEAD_HEAD 0 n))
  four (fun k t => ringAdvance (colRing k n) t) { s with col := { s.col with flush := s.col.flush.filter (fun f => f != e) } }

/-- The group table (R204): the nodes, or none where it breaks the checks or cannot be read. -/
def groupTable (n : Nat) (d : List Nat) (s : State) : Option (List Nat) × State :=
  let p := gdSize d
  if p = 0 || decide (65536 < p) || !gaOk s 64 (gdTable d) then (none, s)
  else
    let r := unitRead (colWho 0 n s) (gaOff (gdTable d)) (4 * p) s
    let ns := (List.range p).map (fun i => ofBytes ((r.2.1.drop (4 * i)).take 4))
    if r.1 ≠ 0 || ns.any (fun x => x / 2 ^ 18 != 0) || (ns.filter (fun x => x == s.node)).length != 1 ||
        ns.eraseDups.length != p then (none, r.2.2)
    else (some ns, r.2.2)

/-- HIER_OK (R204): this part's block of 16 ranks is the part and 15 of its mesh peers. -/
def hierOk (ns : List Nat) (rank : Nat) (s : State) : Bool :=
  ns.length % 16 == 0 &&
    ((ns.drop (rank / 16 * 16)).take 16).all (fun x => x == s.node || (peerPort s x).isSome)

/-- Sets the registers of a group context on all four engines. -/
def setGroup (g : Nat) (opn hier : Bool) (rank size gid next dig : Nat) (s : State) : State :=
  four (fun k t =>
    ((((((t.set (COL_GCTX_A_OPEN k g) (ofBool opn)).set (COL_GCTX_A_HIER_OK k g) (ofBool hier)).set (COL_GCTX_A_RANK k g) rank).set
      (COL_GCTX_A_SIZE k g) size).set (COL_GCTX_B_GROUP_ID k g) gid).set (COL_GCTX_B_NEXT_SEQ k g) next).set
      (COL_GDIG_DIGEST k g) dig) s

/-- Whether the four copies of a descriptor are equal, and engine 0's copy; none where one cannot be read. -/
def colCopies (n : Nat) (s : State) : Option (List Nat × Bool) × State :=
  let r0 := readDescr (colWho 0 n s) (colRing 0 n) (s.get (COL_HEAD_HEAD 0 n)) s
  let r1 := readDescr (colWho 1 n s) (colRing 1 n) (s.get (COL_HEAD_HEAD 1 n)) r0.2
  let r2 := readDescr (colWho 2 n s) (colRing 2 n) (s.get (COL_HEAD_HEAD 2 n)) r1.2
  let r3 := readDescr (colWho 3 n s) (colRing 3 n) (s.get (COL_HEAD_HEAD 3 n)) r2.2
  match r0.1, r1.1, r2.1, r3.1 with
  | some a, some b, some c, some d => (some (a, a == b && a == c && a == d), r3.2)
  | _, _, _, _ => (none, r3.2)

/-- Whether all four engines hold an entry of ring `n`, no job of the ring is open, and no routing die is fenced. -/
def colReadyRing (n : Nat) (s : State) : Bool :=
  (List.range 4).all (fun k => ringHas (colRing k n) s && !s.dieFenced (16 + k)) &&
    !s.col.jobs.any (fun j => j.ring == n) && !s.partFenced

/-- KIND of the entry at the head of ring `n`; 16 where it cannot be read. -/
def colHeadKind (n : Nat) (s : State) : Nat × Nat :=
  match (colCopies n s).1 with
  | some (d, _) => (dw d 0 0 4, gdAction d)
  | none => (16, 0)

/-- Words 0 of the COLL entries of a group context that stand in ring `n`, in order (R205). -/
def colEntries (n g : Nat) (s : State) : List Nat :=
  let r := colRing 0 n
  let size := s.get r.size
  let len := if sizeOk size then (s.get r.tail + size - s.get r.head) % size else 0
  ((List.range len).map (fun i => s.readLE (s.get r.base * 128 + 128 * ((s.get r.head + i) % max 1 size)) 8)).filter
    (fun w => bitsOf w 0 4 == 6 && bitsOf w 26 8 == g)

/-- Whether a collective of a group context stands in some ring (R204). -/
def colQueued (g : Nat) (s : State) : Bool := (List.range 16).any (fun n => !(colEntries n g s).isEmpty)

/-- Ends a GROUP job with its four records (R229). -/
def groupEnd (n : Nat) (d : List Nat) (code : Nat) (s : State) : State :=
  colAdvance n (four (fun k t =>
    colRecord k 7 n (d.getD 3 0) (gdJobId d) (doneOf (dw d 4 0 26)) code 0 false 0 [putF (gdGctx d) 32 8, 0, 0, 0, 0, 0] t) s)

/-- A GROUP job at the head of ring `n` (R204). Differing copies break R204 (log entry 23). -/
def groupJob (action n : Nat) (s : State) : State :=
  if !colReadyRing n s || colHeadKind n s != (7, action) then s
  else
    match colCopies n s with
    | (none, t) => t
    | (some (d, same), t) =>
      let g := gdGctx d
      if !same || !groupBits d then groupEnd n d cCollGroup t
      else if action = 1 then
        (if !gOpen t g || colQueued g t || t.col.jobs.any (fun j => j.inGroup && j.g == g) then groupEnd n d cCollGroup t
         else
          let t := { t with col := { t.col with votes := t.col.votes.filter (fun v => v.g != g),
                                                held := t.col.held.filter (fun h => h.1 != g) } }
          groupEnd n d 0 (four (fun k u => u.set (COL_GCTX_A_OPEN k g) 0) t))
      else if gOpen t g then groupEnd n d cCollGroup t
      else
        match groupTable n d t with
        | (none, u) => groupEnd n d cCollGroup u
        | (some ns, u) =>
          let rank := ns.findIdx (fun x => x == u.node)
          let u := { u with col := { u.col with nodes := Tab.set (fun _ => []) u.col.nodes g ns } }
          groupEnd n d 0 (setGroup g true (hierOk ns rank u) rank ns.length (gdGid d) 0 (groupDigest (gdGid d) ns) u)

def execGroupOpen (n : Fin 16) (s : State) : Host.Outcome State Fault Refusal := .next (s.live (colStep (groupJob 0 n)))
def execGroupClose (n : Fin 16) (s : State) : Host.Outcome State Fault Refusal := .next (s.live (colStep (groupJob 1 n)))

/-! Swaths and shares (R210, R213). -/

def numBlocks (d : List Nat) : Nat := ceilDiv (cdCount d) 64
def numSwaths (d : List Nat) : Nat := ceilDiv (numBlocks d) (max 1 (cdSwath d))
def swathLo (d : List Nat) (i : Nat) : Nat := 64 * i * cdSwath d
def swathHi (d : List Nat) (i : Nat) : Nat := min (cdCount d) (64 * (i + 1) * cdSwath d)
def swathLen (d : List Nat) (i : Nat) : Nat := swathHi d i - swathLo d i

/-- The elements that rank `r` receives (R210). -/
def colShare (d : List Nat) (p r : Nat) : Nat × Nat :=
  if cdOp d = 2 then (r * (cdCount d / p), (r + 1) * (cdCount d / p)) else (0, cdCount d)

/-- The part of swath `i` in a rank's share. -/
def shareSpan (d : List Nat) (p r i : Nat) : Nat × Nat :=
  let q := colShare d p r
  (max q.1 (swathLo d i), min q.2 (swathHi d i))

/-- Bytes of a member's output at most, of its input, and of the workspace (R210, R224). -/
def outBytes (d : List Nat) (p : Nat) : Nat :=
  match cdOp d with
  | 1 => cdCount d * fmtBytes (cdOut d)
  | 2 => cdCount d / max 1 p * fmtBytes (cdOut d)
  | 3 => p * cdCount d
  | 5 => cdCount d
  | 4 | 7 => p * cdCap d
  | _ => 0

def inBytes (d : List Nat) (p rank : Nat) : Nat :=
  match cdOp d with
  | 1 | 2 => cdCount d * fmtBytes (cdDtype d)
  | 3 => cdCount d
  | 5 => if rank = cdRoot d then cdCount d else 0
  | 4 => cdCap d
  | 7 => if p = 0 then 0 else (p - 1) * cdSstride d + cdCap d
  | _ => 0

def workNeed (d : List Nat) (p : Nat) : Nat :=
  if cdIsRed d then 64 * numBlocks d * (laneBytes d + fmtBytes (cdOut d)) + 2 * numBlocks d
  else if cdStream d then 0 else outBytes d p

/-- R211's combinations. -/
def comboOk (d : List Nat) : Bool :=
  let inF := cdDtype d == 0 || cdDtype d == 1 || cdDtype d == 2 || cdDtype d == 4
  let outF := cdOut d == 0 || cdOut d == 1 || cdOut d == 2 || cdOut d == 4
  if cdRed d = 0 then
    (if cdAt d then (inF || cdDtype d == 11) && outF else cdWire d == 2 && cdDtype d == 10 && cdOut d == 10)
  else decide (cdRed d < 3) && cdWire d == 3 && (inF || cdDtype d == 10) && cdDtype d == cdOut d

/-- The fields of R207, R210, R211 and R223 without the addresses. -/
def collFieldsOk (d : List Nat) (p : Nat) : Bool :=
  let op := cdOp d
  onlyBits d [bitMask 0 49, bitMask 0 51, allBits, allBits, allBits, allBits, bitMask 0 39, allBits, allBits, allBits,
    bitMask 0 55, bitMask 0 27, allBits, bitMask 0 41, 0, 0] &&
  dw d 0 0 4 == 6 && decide (1 ≤ op) && decide (op ≤ 7) && decide (cdAlgo d < 3) && (cdRmode d == 0 || cdRmode d == 4) &&
  decide (100 ≤ cdLimit d) && decide (cdLimit d ≤ 10000000) &&
  (if op = 5 then decide (cdRoot d < p) else cdRoot d == 0) &&
  (if cdIsRed d then
    comboOk d && cdCount d != 0 && cdSwath d != 0 && cdCap d == 0 && cdSstride d == 0 && (op == 1 || cdCount d % p == 0)
   else
    cdDtype d == 0 && cdOut d == 0 && cdRed d == 0 && cdSwath d == 0 && ((cdCount d == 0) == (op == 6)) &&
      (if op = 3 ∨ op = 5 then cdCount d % 64 == 0 else true) &&
      (if op = 4 ∨ op = 7 then cdCap d % 64 == 0 else cdCap d == 0) &&
      (if op = 7 then cdSstride d % 64 == 0 else cdSstride d == 0)) &&
  (!cdStream d || ((op == 3 || op == 5) && cdCount d % 2048 == 0))

/-- Whether byte ranges, as address and length, do not overlap one another. -/
def disjoint : List (Nat × Nat) → Bool
  | [] => true
  | (a, n) :: rest => rest.all (fun b => decide (a + n ≤ b.1) || decide (b.1 + b.2 ≤ a)) && disjoint rest

/-- The addresses of a descriptor (R208): global address, bytes that the operation uses there, and alignment. -/
def collSpans (d : List Nat) (p rank : Nat) : List (Nat × Nat × Nat) :=
  let v := cdOp d == 4 || cdOp d == 7
  [(cdSrc d, inBytes d p rank, 64), (cdDst d, outBytes d p, 64), (cdWork d, cdWorkBytes d, 64),
   (cdSize d, (if cdOp d = 4 then 4 else if cdOp d = 7 then 4 * p else 0), 1),
   (cdOutcnt d, (if v then 4 * p else 0), 1)]

/-- A streamed collective's DST lies in PLCORE's core store, with at most 8,192 slots (R223). -/
def streamOk (d : List Nat) (p : Nat) (s : State) : Bool :=
  !cdStream d ||
    (match physOf s (cdPlcore d) with
     | some c => inCore (gaOff (cdDst d)) (outBytes d p) == some c && decide (outBytes d p / 2048 ≤ 8192)
     | none => false)

/-- Whether a descriptor keeps R207, R208, R210, R211, R218, R220 (SWATH of DIRECT) and R223, R224. -/
def collOk (d : List Nat) (g : Nat) (s : State) : Bool :=
  let p := gSize s g
  let sp := collSpans d p (gRank s g)
  collFieldsOk d p && gaOk s 64 (cdCompl d) && sp.all (fun x => gaOk s x.2.2 x.1) &&
  disjoint ((sp.filter (fun x => x.2.1 != 0)).map (fun x => (gaOff x.1, x.2.1))) && decide (workNeed d p ≤ cdWorkBytes d) &&
  (cdWorkBytes d == 0 || inHbm (gaOff (cdWork d)) (cdWorkBytes d)) && streamOk d p s &&
  (cdAlgo d != 0 || (decide (p ≤ 256) && (!cdIsRed d || decide (cdSwath d ≤ 4096)))) && (cdAlgo d != 2 || gHier s g)

/-- The capability bits that a collective uses (R220). -/
def capsNeed (d : List Nat) : Nat :=
  8 + (if cdIsRed d then (if cdWire d = 1 then 2 else 1) + (if cdAt d then 4 else 0) else if cdOp d = 6 then 0 else 16)

/-- The check of R220 on every plane: 0, COLL_DESC or COLL_SWITCH. -/
def planeCheck (d : List Nat) (s : State) : Nat :=
  if cdAlgo d = 0 then 0
  else if cdIsRed d && (List.range 4).any (fun k => decide (s.get (COL_RCTX_UNITS k k) * 4096 < cdSwath d * 64 * laneBytes d))
    then cCollDesc
  else if (List.range 4).any (fun k => s.get (COL_RCTX_COUNT k k) == 0 || s.get (COL_RCTX_CAPS k k) &&& capsNeed d != capsNeed d)
    then cCollSwitch
  else 0

/-! Sending (R214, R218, R221, R265). -/

def addTab (t : Tab Nat) (k n : Nat) : Tab Nat := Tab.set (fun _ => 0) t k (Tab.get (fun _ => 0) t k + n)

/-- A COLL packet of a collective. -/
def colPkt (g seq dig key cls phase code index rank contrib lw : Nat) (data : List Byte) (s : State) : Packet :=
  ({ h := { kind := kColl, cls := cls, key := key, ext := 1 },
     ext := [gDig s g, dig, putF seq 0 32 + putF phase 32 4 + putF code 36 16, putF index 0 32 + putF rank 32 17,
             putF contrib 0 17 + putF lw 17 2, 0, 0, 0], data := data } : Packet).sized

/-- Sends one packet to the switch of UPk, as a packet of engine `k`'s pair with it (R264, R270; log entry 25). -/
def toSwitch (k : Nat) (p : Packet) (s : State) : State := vtIssue k swNode .none p none s

/-- Data cut into packets of up to 2,048 bytes; at least one. -/
def cut2k (bs : List Byte) : List (List Byte) :=
  if bs.isEmpty then [[]] else pieces2k (bs.length / 2048 + 1) bs

def lwOf (d : List Nat) : Nat := if cdIsRed d && cdWire d == 1 then 1 else 0

def jobClass (j : ColJob) (s : State) : Nat := s.get (COL_PLOT_CLASS 0 j.ring)
def jobKey (j : ColJob) (s : State) : Nat := s.get (COL_PLOT_PKEY 0 j.ring)

/-- Charges bytes sent to an engine (R229, R231). -/
def sentBytes (k n : Nat) (js : ColJob × State) : ColJob × State :=
  ({ js.1 with tx := addTab js.1.tx k n }, js.2.count (COL_BYTES_TX_COUNT k) n)

/-- Engine work in rc (R227). -/
def workRc (k n : Nat) (j : ColJob) : ColJob := { j with rc := addTab j.rc k n }

/-- Sends data of one phase to ranks of the group; nothing more is sent once ABORTING (R214). -/
def sendRanks (k phase index : Nat) (ranks : List Nat) (data : List Byte) (js : ColJob × State) : ColJob × State :=
  if js.1.st = csAborting then js
  else
    ranks.foldl (fun u r =>
      let t := (cut2k data).foldl (fun t bs =>
        vtIssue k (gNode t js.1.g r) .none (colPkt js.1.g js.1.seq js.1.dig (jobKey js.1 t) (jobClass js.1 t) phase 0 index
          (gRank t js.1.g) 1 (lwOf js.1.words) bs t) none t) u.2
      sentBytes k data.length (u.1, t)) js

/-- Sends data of one phase over the plane of engine `k` (R218, R221), as the member whose RANK is given: to its switch, or
through it to one node. -/
def sendPlane (k phase index rank node contrib : Nat) (data : List Byte) (js : ColJob × State) : ColJob × State :=
  if js.1.st = csAborting then js
  else
    let t := (cut2k data).foldl (fun t bs =>
      vtIssueOn true k node .none (colPkt js.1.g js.1.seq js.1.dig (jobKey js.1 t) (jobClass js.1 t) phase 0 index rank contrib
        (lwOf js.1.words) bs t) none t) js.2
    sentBytes k data.length (js.1, t)

/-- Casts the part's vote at the combine point (R214, R215). -/
def castVote (j : ColJob) (phase code : Nat) (s : State) : State :=
  let p := colPkt j.g j.seq j.dig (jobKey j s) (jobClass j s) phase code 0 (gRank s j.g) 1 0 [] s
  match cdAlgo j.words with
  | 1 => toSwitch 0 p s
  | 2 => vtIssue 0 (gNode s j.g (gRank s j.g / 16 * 16)) .none p none s
  | _ => vtIssue 0 (gNode s j.g 0) .none p none s

/-! Showing and ending a collective (R229, R231). -/

/-- Shows a context's registers on all four engines; READY engines show READY. -/
def showJob (j : ColJob) (s : State) : State :=
  four (fun k t =>
    let st := if j.st = csRunning ∧ j.rdy.contains k then csReady else j.st
    let w := 1 + putF j.ring 1 4 + putF st 5 3 + putF j.g 8 8 + putF j.seq 16 32 + putF (cdJobId j.words) 48 16
    ((t.setWord (COL_CTX_OPEN k j.ctx).addr (BitVec.ofNat 64 w)).set (COL_RSTAT_ACTIVE k j.ring) 1).set
      (COL_RSTAT_JOB_ID k j.ring) (cdJobId j.words)) s

/-- Replaces an open collective. -/
def putCol (js : ColJob × State) : State :=
  showJob js.1 { js.2 with col := { js.2.col with jobs := js.2.col.jobs.map (fun q => if q.ctx == js.1.ctx then js.1 else q) } }

/-- STATUS.OPEN on all four engines. -/
def showOpen (s : State) : State := four (fun k t => t.set (COL_STATUS_OPEN k) s.col.jobs.length) s

/-- The workspace holds no defined content once the collective has ended (R224): free bytes. -/
def scramble (who : Who) (ga n : Nat) (s : State) : State :=
  let bs := (List.range n).map (fun i => BitVec.ofNat 8 (Config.freeWord (s.free + i)).toNat)
  unitWrite who (gaOff ga) bs { s with free := s.free + n }

/-- Ends a collective (R214, R229): NEXT_SEQ advances, the context is freed, concluded votes go with it, records and DONE,
HEAD passes. -/
def colEnd (j : ColJob) (status : Nat) (indoubt : Bool) (s : State) : State :=
  let gone := fun (v : ColVotes) => j.inGroup && v.g == j.g && v.seq == j.seq && v.fin
  let t := { s with col := { s.col with jobs := s.col.jobs.filter (fun q => q.ctx != j.ctx),
                                        votes := s.col.votes.filter (fun v => !gone v) } }
  let t := if j.inGroup then four (fun k u => u.set (COL_GCTX_B_NEXT_SEQ k j.g) (j.seq + 1)) t else t
  let t := four (fun k u => (u.setWord (COL_CTX_OPEN k j.ctx).addr 0).setWord (COL_RSTAT_ACTIVE k j.ring).addr 0) t
  let t := if j.ran then scramble (colWho 0 j.ring t) (cdWork j.words) (cdWorkBytes j.words) t else t
  let d := j.words
  let t := four (fun k u =>
    let g := fun (x : Tab Nat) => Tab.get (fun _ => 0) x k
    let u := u.count (if status = 0 then COL_DONE_CNT_COUNT k else COL_ABORT_CNT_COUNT k) 1
    colRecord k 6 j.ring (cdCompl d) (cdJobId d) (doneOf (dw d 13 0 26)) status j.cause indoubt j.warn
      [putF j.seq 0 32 + putF (cdGctx d) 32 8, j.dropped % 2 ^ 64, putF j.sat 0 32 + putF j.nan 32 32, g j.tx % 2 ^ 64,
       g j.rx % 2 ^ 64, putF (g j.rc) 0 32 + putF (g j.nx) 32 32] u) t
  colAdvance j.ring (showOpen t)

/-- Votes ABORT once (R216): from READY the collective stays READY, since R214 gives it no move to ABORTING. -/
def colAbort (code cause : Nat) (js : ColJob × State) : ColJob × State :=
  let j := js.1
  if j.final || j.voted || j.st == csCommitting then js
  else
    let j := { j with cause := if j.cause = 0 then cause else j.cause, voted := true,
                      st := if j.st = csReady then csReady else csAborting }
    (j, castVote j phAbort code js.2)

/-- The open collective of a group context and SEQ. -/
def colLive (s : State) (g seq : Nat) : Option ColJob := s.col.jobs.find? (fun j => j.inGroup && j.g == g && j.seq == seq)

/-- The collective in a context. -/
def colAt (s : State) (c : Nat) : Option ColJob := s.col.jobs.find? (fun j => j.ctx == c)

/-! The combine point (R215). -/

/-- The votes of a collective held here. -/
def votesOf (s : State) (g seq : Nat) : Option ColVotes := s.col.votes.find? (fun v => v.g == g && v.seq == seq)

def putVotes (v : ColVotes) (s : State) : State :=
  { s with col := { s.col with votes := s.col.votes.filter (fun w => !(w.g == v.g && w.seq == v.seq)) ++ [v] } }

/-- ALGO of a collective that this part has open or queued: the entries of its ring take SEQ from NEXT_SEQ on (R205). -/
def algoOf (s : State) (g seq : Nat) : Option Nat :=
  match colLive s g seq with
  | some j => some (cdAlgo j.words)
  | none =>
    let at_ := (seq + 2 ^ 32 - gNext s g) % 2 ^ 32
    (((List.range 16).map (fun n => colEntries n g s)).find? (fun es => !es.isEmpty)).bind
      (fun es => es[at_]?.map (fun w => bitsOf w 20 2))

/-- Whether the votes of a collective here are those of one block (R215, R218): a combine point other than rank 0 is a
block's; DIRECT needs no HIER_OK, takes at most 256 members, and votes come from any rank. None while it does not show
(log entry 48). -/
def hierHere (s : State) (v : ColVotes) : Option Bool :=
  if gRank s v.g ≠ 0 then some true
  else
    match algoOf s v.g v.seq with
    | some a => some (a == 2)
    | none =>
      if !gHier s v.g || (v.opens ++ v.closes).any (fun r => decide (16 ≤ r)) then some false
      else if 256 < gSize s v.g then some true
      else none

/-- The ranks that vote here: all in DIRECT; a block of 16 in HIER, whose combine point passes its result to the plane-0
apex. -/
def voteRanks (s : State) (v : ColVotes) : List Nat :=
  if (hierHere s v).getD false then (List.range 16).map (fun i => gRank s v.g / 16 * 16 + i) else List.range (gSize s v.g)

/-- A vote or result packet of a combine point. -/
def cpPkt (v : ColVotes) (phase code : Nat) (s : State) : Packet :=
  colPkt v.g v.seq v.dig v.key v.cls phase code 0 (gRank s v.g) 1 0 [] s

/-- What a combine point emits: its members get it in DIRECT; a block's combine point votes at the apex in HIER. -/
def conclude (v : ColVotes) (result vote code : Nat) (s : State) : State :=
  if (hierHere s v).getD false then toSwitch 0 (cpPkt v vote code s) s
  else (voteRanks s v).foldl (fun t r => vtIssue 0 (gNode t v.g r) .none (cpPkt v result code t) none t) s

/-- Ends the votes with an ABORT (R215); where DIRECT and HIER cannot yet be told apart, once the part's own collective
leaves QUEUED (log entry 48). -/
def concludeAbort (v : ColVotes) (code : Nat) (s : State) : State :=
  match hierHere s v with
  | none => putVotes { v with fin := true, late := some code } s
  | some _ => conclude v phResult phAbort code (putVotes { v with fin := true } s)

/-- A collective has left QUEUED: an ABORT that waited for its ALGO goes out. -/
def concludeLate (g seq : Nat) (s : State) : State :=
  match votesOf s g seq with
  | some v =>
    (match v.late with
     | some code => conclude v phResult phAbort code (putVotes { v with late := none } s)
     | none => s)
  | none => s

/-! Leaving QUEUED (R205, R206, R208, R209, R214, R215, R222). -/

/-- The lowest free context, where the ring's class may take one (R206, R356). -/
def freeCtx (n : Nat) (s : State) : Option Nat :=
  if s.flag (COL_PLOT_CLASS 0 n) &&
      decide (12 ≤ (s.col.jobs.filter (fun j => s.flag (COL_PLOT_CLASS 0 j.ring))).length) then none
  else (List.range 16).find? (fun c => !s.col.jobs.any (fun j => j.ctx == c))

/-- The ring whose head is granted a context next: LC before BE, ascending (R206). -/
def nextRing (s : State) : Option Nat :=
  let ok := fun n => colReadyRing n s && (List.range 4).all (fun k => s.flag (COL_CTRL_ENABLE k)) && (colHeadKind n s).1 != 7
  let fit := fun n => ok n && (freeCtx n s).isSome
  match (List.range 16).find? (fun n => !s.flag (COL_PLOT_CLASS 0 n) && fit n) with
  | some n => some n
  | none => (List.range 16).find? (fun n => s.flag (COL_PLOT_CLASS 0 n) && fit n)

/-- Reads the counts of ALLGATHERV and ALLTOALL (R222): none where the read fails. -/
def readCounts (j : ColJob) (s : State) : Option (List Nat) × State :=
  let n := if cdOp j.words = 4 then 1 else if cdOp j.words = 7 then gSize s j.g else 0
  if n = 0 then (some [], s)
  else
    let r := unitRead (colWho 0 j.ring s) (gaOff (cdSize j.words)) (4 * n) s
    if r.1 ≠ 0 then (none, r.2.2)
    else (some ((List.range n).map (fun i => ofBytes ((r.2.1.drop (4 * i)).take 4))), r.2.2)

/-- What keeps a collective with an open group from sending OPEN: 0, or the cause. -/
def openCause (j : ColJob) (same flushed : Bool) (s : State) : Nat :=
  if !collOk j.words j.g s then cCollDesc
  else if !same then cCollMismatch
  else if planeCheck j.words s ≠ 0 then planeCheck j.words s
  else if flushed then cCollFlushed
  else 0

/-- A collective with an open group takes SEQ and EPOCH, and votes (R208, R209, R214, R215). -/
def openJob (j0 : ColJob) (same flushed : Bool) (s : State) : State :=
  let seq := gNext s j0.g
  let j : ColJob := { j0 with
    seq := seq, dig := collDigest j0.words (gDig s j0.g) seq (s.get ALM_MODE_CUR),
    grants := (List.range 4).map (fun k => s.get (COL_RCTX_COUNT k k)) }
  let t := concludeLate j.g seq (showOpen { s with col := { s.col with jobs := s.col.jobs ++ [j] } })
  match t.col.held.find? (fun h => h.1 == j.g && h.2.1 == seq) with
  | some h =>
    colEnd j h.2.2 false { t with col := { t.col with held := t.col.held.filter (fun q => !(q.1 == j.g && q.2.1 == seq)) } }
  | none =>
    let c := openCause j same flushed t
    if c ≠ 0 then putCol (colAbort (if c = cCollMismatch then c else cCollAborted) c (j, t))
    else
      match readCounts j t with
      | (none, u) => putCol (colAbort cCollAborted cCollInput (j, u))
      | (some cs, u) => putCol ({ j with sizes := cs }, castVote j phOpen 0 u)

/-- COLL_OPENING: the next ring head leaves QUEUED (R206, R208, R214). -/
def collOpening (s : State) : State :=
  match nextRing s with
  | none => s
  | some n =>
    match freeCtx n s, colCopies n s with
    | some c, (some (d, same), t) =>
      let idx := t.get (COL_HEAD_HEAD 0 n)
      let flushed := t.col.flush.contains (n, idx)
      let j : ColJob := { ctx := c, ring := n, words := d, g := cdGctx d }
      if gOpen t j.g then openJob j same flushed t else colEnd { j with inGroup := false } cCollDesc false t
    | _, (_, t) =>
      -- a descriptor that cannot be read ends with the unit's descriptor code (log entry 15)
      colAdvance n (four (fun k u => (colLast k cCollDesc 0 n 0 u).raise (COL_IRQ_ABORT k)) t)

def execCollOpening (s : State) : Host.Outcome State Fault Refusal := .next (s.live (colStep collOpening))

end Sys2Proof.Machine
end

