-- ==== Sys2Proof/Machine/CollData.lean ====
section
/-!
DEFINITION. Votes and results at the combine point and at the members (R214 to R217), the data phases of the algorithms
(R218 to R223), commit (R224), flush and node loss (R216).
-/
namespace Sys2Proof.Machine

/-! Fields of a COLL packet (R265). -/
def cpGdig (p : Packet) : Nat := p.x 0 0 64
def cpDig (p : Packet) : Nat := p.x 1 0 64
def cpSeq (p : Packet) : Nat := p.x 2 0 32
def cpPhase (p : Packet) : Nat := p.x 2 32 4
def cpCode (p : Packet) : Nat := p.x 2 36 16
def cpIndex (p : Packet) : Nat := p.x 3 0 32
def cpRank (p : Packet) : Nat := p.x 3 32 17
def cpContrib (p : Packet) : Nat := p.x 4 0 17
def cpLw (p : Packet) : Nat := p.x 4 17 2

/-- The open group context that a packet's group digest names. -/
def groupOf (s : State) (p : Packet) : Option Nat :=
  (List.range 256).find? (fun g => gOpen s g && gDig s g == cpGdig p)

/-- The open collective that a packet names. -/
def liveOf (s : State) (p : Packet) : Option ColJob := (groupOf s p).bind (fun g => colLive s g (cpSeq p))

/-- The engine that serves a packet: the one of its swath or piece, engine 0 for votes and results (R213, R214). -/
def engineOf (p : Packet) : Nat := if phAnchor ≤ cpPhase p then cpIndex p % 4 else 0

/-- Whether a waiting packet is a switch's (log entry 25). -/
def fromSwitch (s : State) (v : Via) (p : Packet) : Bool := (switchSide s v p).h.src == swNode

/-- Takes the i-th waiting packet when it is a COLL packet of one of the phases; the transaction layer acknowledges it and
discards a repeated one (R264, R226). With the packet, whether it is a switch's. -/
def colTake (phases : List Nat) (sw : Option Bool) (i : Nat) (s : State) : Option Packet × Bool × State :=
  match s.vt.recv[i]? with
  | none => (none, false, s)
  | some (v, p) =>
    if p.h.kind ≠ kColl || !phases.contains (cpPhase p) || (sw.isSome && sw != some (fromSwitch s v p)) then (none, false, s)
    else
      match vtTake (fun q => q.h.kind == kColl && phases.contains (cpPhase q)) i s with
      | .gone t => (none, false, t)
      | .again _ t => (none, false, t)
      | .fresh q t => (some q, q.h.src == swNode, vtApplied q t)

/-- A packet of no open collective is discarded and counted (R226). -/
def stray (p : Packet) (s : State) : State := s.countSat (COL_STRAY_COUNT (engineOf p)) 1

/-! Votes and results (R215). -/

/-- The member of the combine point detects the mismatch (R216). -/
def noteMismatch (g seq : Nat) (s : State) : State :=
  match colLive s g seq with
  | some j => if j.final then s else putCol ({ j with cause := if j.cause = 0 then cCollMismatch else j.cause }, s)
  | none => s

/-- Whether a collective of a group has ended on this part (R205, R226). -/
def colEnded (s : State) (g seq : Nat) : Bool :=
  (colLive s g seq).isNone && decide (2 ^ 31 ≤ (seq + 2 ^ 32 - gNext s g) % 2 ^ 32)

/-- A packet of an open collective with another digest: the member votes ABORT (R216, R226). -/
def mismatch (g seq : Nat) (s : State) : State :=
  match colLive s g seq with
  | some j => putCol (colAbort cCollMismatch cCollMismatch (j, s))
  | none => s

/-- One vote at the combine point (R215). A vote for a group that is not open, or for a collective that has ended with no
vote open here, is a stray packet (R226). -/
def voteAt (p : Packet) (s : State) : State :=
  match groupOf s p with
  | none => stray p s
  | some g =>
    let seq := cpSeq p
    let v := match votesOf s g seq with
      | some v => v
      | none => { g := g, seq := seq, dig := cpDig p, key := p.h.key, cls := p.h.cls }
    if colEnded s g seq && (v.fin || (votesOf s g seq).isNone) then stray p s
    else if v.fin || gRank s g % 16 != 0 then s
    else if cpPhase p = phAbort then concludeAbort v (cpCode p) s
    else if cpPhase p = phOpen then
      let v2 := { v with opens := (v.opens.filter (fun r => r != cpRank p)) ++ [cpRank p] }
      (if cpDig p ≠ v.dig then noteMismatch g seq (concludeAbort v2 cCollMismatch s)
       else if v2.opens.length = (voteRanks s v2).length && !v2.went then conclude v2 phGo phOpen 0 (putVotes { v2 with went := true } s)
       else putVotes v2 s)
    else if cpDig p ≠ v.dig then mismatch g seq (putVotes v s)
    else
      let v2 := { v with closes := (v.closes.filter (fun r => r != cpRank p)) ++ [cpRank p] }
      if v2.closes.length = (voteRanks s v2).length then
        -- a block's combine point still passes the apex's result on
        conclude v2 phCommit phClose 0 (putVotes { v2 with fin := !(hierHere s v2).getD false } s)
      else putVotes v2 s

/-- OPEN_VOTE, CLOSE_VOTE, ABORT_VOTE (R215). -/
def vote (phase i : Nat) (s : State) : State :=
  match colTake [phase] none i s with
  | (some p, _, t) => voteAt p t
  | (none, _, t) => t

def execOpenVote (i : Nat) (s : State) : Host.Outcome State Fault Refusal := .next (s.live (colStep (vote phOpen i)))
def execCloseVote (i : Nat) (s : State) : Host.Outcome State Fault Refusal := .next (s.live (colStep (vote phClose i)))
def execAbortVote (i : Nat) (s : State) : Host.Outcome State Fault Refusal := .next (s.live (colStep (vote phAbort i)))

/-- In HIER, the member of rank 16b passes a result of the apex to its block (R215). The algorithm shows by the collective,
open or queued, or by the votes that the block's combine point holds. -/
def passOn (sw : Bool) (p : Packet) (s : State) : State :=
  match groupOf s p with
  | some g =>
    let hier := match algoOf s g (cpSeq p) with | some a => a == 2 | none => (votesOf s g (cpSeq p)).isSome
    if sw && hier && gRank s g % 16 == 0 then
      (List.range 15).foldl (fun t i =>
        vtIssue 0 (gNode t g (gRank t g + i + 1)) .none
          (colPkt g (cpSeq p) (cpDig p) p.h.key p.h.cls (cpPhase p) (cpCode p) 0 (gRank t g) 1 0 [] t) none t) s
    else s
  | none => s

/-! Data received and formed (R55 to R58, R212, R218). -/

/-- Inserts a chunk by PSN (log entry 25). -/
def insChunk (c : ColChunk) : List ColChunk → List ColChunk
  | [] => [c]
  | d :: ds => if psnLt c.psn d.psn then c :: d :: ds else d :: insChunk c ds

/-- The bytes received of a phase, index and rank, in order of PSN. -/
def gather (j : ColJob) (phase index rank : Nat) : List Byte :=
  ((j.chunks.filter (fun c => c.phase == phase && c.index == index && c.rank == rank)).foldl
    (fun l c => insChunk c l) []).flatMap (fun c => c.bytes)

/-- Bytes that a phase of swath `i` has for rank `r` of `p` members. -/
def phaseLen (d : List Nat) (p r phase i : Nat) : Nat :=
  if phase = phAnchor ∨ phase = phAnchorR then 2 * ceilDiv (swathLen d i) 64
  else if phase = phValues then
    ((shareSpan d p r i).2 - (shareSpan d p r i).1) * fmtBytes (cdOut d)
  else swathLen d i * laneBytes d

/-- Whether a phase of a swath has come whole from a rank. -/
def haveAll (s : State) (j : ColJob) (phase i rank : Nat) : Bool :=
  (gather j phase i rank).length == phaseLen j.words (gSize s j.g) (gRank s j.g) phase i &&
    j.chunks.any (fun c => c.phase == phase && c.index == i && c.rank == rank)

/-- Rank that sums swath `i` for this member (R218). -/
def ownerOf (s : State) (j : ColJob) (i : Nat) : Nat :=
  match cdAlgo j.words with
  | 0 => i % max 1 (gSize s j.g)
  | 2 => gRank s j.g / 16 * 16 + i % 16
  | _ => gRank s j.g

/-- The members whose contributions the owner sums. -/
def peersOf (s : State) (j : ColJob) : List Nat :=
  match cdAlgo j.words with
  | 0 => List.range (gSize s j.g)
  | 2 => (List.range 16).map (fun i => gRank s j.g / 16 * 16 + i)
  | _ => [gRank s j.g]

def owns (s : State) (j : ColJob) (i : Nat) : Bool := ownerOf s j i == gRank s j.g

/-- Contributors that a switch result must bear (R221). -/
def contribOf (s : State) (j : ColJob) : Nat := if cdAlgo j.words = 2 then gSize s j.g / 16 else gSize s j.g

/-- Words of `n` bytes of a byte string. -/
def unitsOfBytes (n : Nat) (bs : List Byte) : List Nat :=
  (List.range (bs.length / max 1 n)).map (fun i => ofBytes ((bs.drop (i * n)).take n))

/-- Values of an element code: a T96 slot is judged by R44 first (R55). A slot with both PINF and NINF set reads as a NaN, so
its anchor word raises NAN alone (log entry 43). -/
def elemVal (fmt c : Nat) : Val :=
  if fmt = 11 then ((Tally.ofSlot c).readVal 48).1
  else match Format.ofCode fmt with | some f => decodeElem f c | none => .fin false 0 0

/-- This member's input elements of swath `i`, as codes. -/
def swathCodes (j : ColJob) (i : Nat) : List Nat :=
  unitsOfBytes (fmtBytes (cdDtype j.words)) (Tab.get (fun _ => []) j.src i)

/-- Blocks of 64. -/
def blocks64 {α : Type} : Nat → List α → List (List α)
  | 0, _ => []
  | k + 1, l => if l.isEmpty then [] else l.take 64 :: blocks64 k (l.drop 64)

/-- This member's anchor words of a swath (R55). -/
def ownAnchors (j : ColJob) (i : Nat) : List Nat :=
  let vs := (swathCodes j i).map (elemVal (cdDtype j.words))
  (blocks64 (vs.length + 1) vs).map anchorWord

/-- The order-preserving key of a RAW lane (R212; log entry 26): a two's-complement integer; a NaN never wins. -/
def rawKey (d : List Nat) (c : Nat) : Int :=
  let bits := 8 * fmtBytes (cdDtype d)
  if cdDtype d = 10 then signedOf c 32
  else if (elemVal (cdDtype d) c).isNaN then (if cdRed d = 1 then -(2 ^ 63 : Int) else 2 ^ 63 - 1)
  else if c < 2 ^ (bits - 1) then (c : Int)
  else -((c - 2 ^ (bits - 1) : Nat) : Int) - 1

/-- The code that a key stands for; only members that are all NaN leave the NaN key. An F8G zero is 0x00 (R36). -/
def keyCode (d : List Nat) (v : Int) : Nat :=
  let bits := 8 * fmtBytes (cdDtype d)
  if cdDtype d = 10 then toBits v 32
  else if v = -(2 ^ 63 : Int) ∨ v = 2 ^ 63 - 1 then (match Format.ofCode (cdOut d) with | some f => canonNaN f | none => 0)
  else
    let c := if 0 ≤ v then v.toNat else 2 ^ (bits - 1) + (-v - 1).toNat
    if cdDtype d = 4 ∧ c % 2 ^ 7 = 0 then 0 else c

/-- This member's lanes of a swath under the combined anchor words (R56, R212). -/
def ownLanes (j : ColJob) (i : Nat) (words : List Nat) : List Int :=
  let d := j.words
  (swathCodes j i).zipIdx.map (fun e =>
    match cdWire d with
    | 2 => signedOf e.1 32
    | 3 => rawKey d e.1
    | w => anchorQ (wireF (w == 1)) (words.getD (e.2 / 64) 0) (elemVal (cdDtype d) e.1))

def anchorBytes (ws : List Nat) : List Byte := ws.flatMap (toBytes 2)
def laneData (d : List Nat) (vs : List Int) : List Byte :=
  vs.flatMap (fun v => toBytes (laneBytes d) (toBits v (8 * laneBytes d)))
def lanesOf (d : List Nat) (bs : List Byte) : List Int :=
  (unitsOfBytes (laneBytes d) bs).map (fun u => signedOf u (8 * laneBytes d))

/-- Lanes of contributors combined: sums, or the largest or smallest (R57, R212). -/
def combineLanes (d : List Nat) (a b : List Int) : List Int :=
  (a.zip b).map (fun q => match cdRed d with | 1 => max q.1 q.2 | 2 => min q.1 q.2 | _ => q.1 + q.2)

/-- Folds contributions; the first stands alone. -/
def foldAll {α : Type} (f : List α → List α → List α) : List (List α) → List α
  | [] => []
  | x :: xs => xs.foldl f x

/-- The block's anchor words and lanes at the member that owns swath `i`. -/
def sumAnchors (s : State) (j : ColJob) (i : Nat) : List Nat :=
  if cdAlgo j.words = 1 then ownAnchors j i
  else foldAll (fun a b => (a.zip b).map (fun q => combineAnchor q.1 q.2))
    ((peersOf s j).map (fun r => unitsOfBytes 2 (gather j phAnchor i r)))

/-- The anchor words in force for swath `i` here: the switch's result, the owner's, or the own combination. -/
def anchorsOf (s : State) (j : ColJob) (i : Nat) : List Nat :=
  if cdAlgo j.words = 1 then unitsOfBytes 2 (gather j phAnchorR i rankSwitch)
  else if cdAlgo j.words = 2 && owns s j i then unitsOfBytes 2 (gather j phAnchorR i rankSwitch)
  else if owns s j i then sumAnchors s j i
  else unitsOfBytes 2 (gather j phAnchorR i (ownerOf s j i))

def sumLanes (s : State) (j : ColJob) (i : Nat) : List Int :=
  if cdAlgo j.words = 1 then ownLanes j i (anchorsOf s j i)
  else foldAll (combineLanes j.words) ((peersOf s j).map (fun r => lanesOf j.words (gather j phLanes i r)))

/-- Rounds totals of swath `i` (R58, R212): a code for each element, and how many elements were clamped. -/
def roundTotals (s : State) (j : ColJob) (i : Nat) (tot : List Int) : List (Nat × Bool) :=
  let d := j.words
  let ws := anchorsOf s j i
  let fmt := (Format.ofCode (cdOut d)).getD .f32
  tot.zipIdx.map (fun e =>
    match cdWire d with
    | 2 => let c := clampInt (-(2 ^ 31 : Int)) (2 ^ 31 - 1) e.1
           (toBits c.1 32, c.2)
    | 3 => (keyCode d e.1, false)
    | w => ((anchorTotal (wireF (w == 1)) (ws.getD (e.2 / 64) 0) fmt
              (readoutMode (cdRmode d) (cdSeed d) (cdTid d) (swathLo d i + e.2)) e.1).1, false))

/-- Raises a warning once (R212, R222): bit 0 COLL_OVERFLOW, 1 COLL_INT_SAT, 2 COLL_SPECIAL. -/
def colWarn (k bit : Nat) (js : ColJob × State) : ColJob × State :=
  if js.1.warn.testBit bit then js
  else ({ js.1 with warn := js.1.warn + 2 ^ bit },
        (rdWarn k 4 (cCollOverflow + bit) 0 js.2).raise (COL_IRQ_WARN k))

/-- Offsets in the workspace (R224; log entry 49): a reduction's lanes stand first, its output values after them, both by
element number; a movement's workspace is the image of its output. -/
def workLanes (j : ColJob) (e : Nat) : Nat := gaOff (cdWork j.words) + e * laneBytes j.words
def workVals (j : ColJob) (e : Nat) : Nat :=
  gaOff (cdWork j.words) + 64 * numBlocks j.words * laneBytes j.words + e * fmtBytes (cdOut j.words)

/-- Bytes are written to the workspace by engine `k` (R224, R227). -/
def workWrite (k off : Nat) (bs : List Byte) (js : ColJob × State) : ColJob × State :=
  (workRc k (ceilDiv bs.length 1024) js.1, unitWrite (colWho k js.1.ring js.2) off bs js.2)

/-- Bytes are read from the workspace by engine `k` (R216, R224, R227); none where the read fails. -/
def workRead (k off n : Nat) (js : ColJob × State) : Option (List Byte) × ColJob × State :=
  let r := unitRead (colWho k js.1.ring js.2) off n js.2
  ((if r.1 = 0 then some r.2.1 else none), workRc k (ceilDiv n 1024) js.1, r.2.2)

/-- Output values of swath `i` are staged in the workspace (R224); blocks delivered as NaN are counted (R58). -/
def stage (i : Nat) (bs : List Byte) (js : ColJob × State) : ColJob × State :=
  let j := js.1
  let s := js.2
  let sp := shareSpan j.words (gSize s j.g) (gRank s j.g) i
  let nanB := if cdIsRed j.words && cdAt j.words then
      ((anchorsOf s j i).zipIdx.filter (fun w =>
        w.1 / 2 ^ 13 != 0 && decide (sp.1 < swathLo j.words i + 64 * w.2 + 64) && decide (swathLo j.words i + 64 * w.2 < sp.2))).length
    else 0
  let js := workWrite (i % 4) (workVals j sp.1) bs ({ j with staged := j.staged ++ [i], nan := j.nan + nanB }, s)
  if nanB = 0 then js else colWarn (i % 4) 2 js

/-- Adds to COL_VALUES (R231). -/
def countVals (k n : Nat) (js : ColJob × State) : ColJob × State := (js.1, js.2.count (COL_VALUES_COUNT k) n)

/-- The totals of swath `i` are rounded and the values go to the members whose share holds them; in SWITCH they stay here
(R218). -/
def sendValues (i : Nat) (tot : List Int) (js : ColJob × State) : ColJob × State :=
  let j := js.1
  let d := j.words
  let k := i % 4
  let es := roundTotals js.2 j i tot
  let me := gRank js.2 j.g
  let p := gSize js.2 j.g
  let mine := if cdAlgo d = 1 then shareSpan d p me i else (swathLo d i, swathHi d i)
  let used := (es.drop (mine.1 - swathLo d i)).take (mine.2 - mine.1)
  let sat := (used.filter (fun e => e.2)).length
  let js := countVals k used.length (workRc k (ceilDiv used.length 256) { j with sat := j.sat + sat, rounded := j.rounded ++ [i] }, js.2)
  let js := if sat = 0 then js else colWarn k 1 js
  let part := fun (a b : Nat) =>
    ((es.drop (a - swathLo d i)).take (b - a)).flatMap (fun e => toBytes (fmtBytes (cdOut d)) e.1)
  if cdAlgo d = 1 then (if mine.1 < mine.2 then stage i (part mine.1 mine.2) js else js)
  else
    (peersOf js.2 js.1).foldl (fun u r =>
      let q := shareSpan d p r i
      if q.1 < q.2 then sendRanks k phValues i [r] (part q.1 q.2) u else u) js

/-- The totals of swath `i` are held here, in the workspace; they are read back to be rounded (R216, R224). -/
def roundSwath (i : Nat) (tot : List Int) (js : ColJob × State) : ColJob × State :=
  let k := i % 4
  let at_ := workLanes js.1 (swathLo js.1.words i)
  let bs := laneData js.1.words tot
  let r := workRead k at_ bs.length (workWrite k at_ bs js)
  match r.1 with
  | some cs => sendValues i (lanesOf js.1.words cs) r.2
  | none => colAbort cCollAborted cCollInput r.2

/-- Data that swath `i` sends to its switch next (R221): anchor words, then lanes. -/
def swPhase (j : ColJob) (i : Nat) : Nat :=
  if cdAt j.words && !j.chunks.any (fun c => c.phase == phAnchorR && c.index == i && c.rank == rankSwitch) then phAnchor
  else phLanes

def sendSwath (i : Nat) (js : ColJob × State) : ColJob × State :=
  let j := js.1
  let ph := swPhase j i
  let data := if ph = phAnchor then anchorBytes (sumAnchors js.2 j i) else laneData j.words (sumLanes js.2 j i)
  sendPlane (i % 4) ph i (gRank js.2 j.g) swNode 1 data
    (if ph = phLanes && cdAlgo j.words == 1 then
      countVals (i % 4) (swathLen j.words i) (workRc (i % 4) (ceilDiv (swathLen j.words i) 256) j, js.2) else js)

/-- Swaths outstanding on plane `k`, over every open collective (R221): a job's own list stands for its copy in State. -/
def planeOut (k : Nat) (js : ColJob × State) : Nat :=
  ((js.1 :: js.2.col.jobs.filter (fun q => q.ctx != js.1.ctx)).map (fun q => (q.out.filter (fun i => i % 4 == k)).length)).sum

/-- Starts swaths on plane `k` while it has contexts left (R221). -/
def pumpPlane (k : Nat) : Nat → ColJob × State → ColJob × State
  | 0, js => js
  | f + 1, js =>
    let j := js.1
    match j.pend.find? (fun i => i % 4 == k) with
    | none => js
    | some i =>
      if planeOut k js < j.grants.getD k 0 then
        pumpPlane k f (sendSwath i ({ j with pend := j.pend.filter (fun q => q != i), out := j.out ++ [i] }, js.2))
      else js

/-- Starts the swaths of every open collective that a plane has contexts for (R221). -/
def pumpAll (s : State) : State :=
  s.col.jobs.foldl (fun t q =>
    match colAt t q.ctx with
    | none => t
    | some j =>
      if j.pend.isEmpty || j.voted then t
      else putCol ((List.range 4).foldl (fun js k => pumpPlane k (j.pend.length + 1) js) (j, t))) s

/-- A swath is ready for its plane. -/
def toPlane (i : Nat) (js : ColJob × State) : ColJob × State :=
  pumpPlane (i % 4) 1 ({ js.1 with pend := js.1.pend ++ [i] }, js.2)

/-- The combined anchor words of swath `i` are here: this member forms its lanes and sends them to the owner. -/
def sendLanes (i : Nat) (js : ColJob × State) : ColJob × State :=
  let j := js.1
  let k := i % 4
  sendRanks k phLanes i [ownerOf js.2 j i] (laneData j.words (ownLanes j i (anchorsOf js.2 j i)))
    (countVals k (swathLen j.words i) (workRc k (ceilDiv (swathLen j.words i) 256) j, js.2))

/-- All contributions of a phase of swath `i` are here (DIRECT and HIER owners). -/
def allHere (s : State) (j : ColJob) (phase i : Nat) : Bool := (peersOf s j).all (fun r => haveAll s j phase i r)

/-- The owner of swath `i` has all contributions of a phase. -/
def ownerAct (phase i : Nat) (js : ColJob × State) : ColJob × State :=
  let j := js.1
  if phase = phAnchor then
    (if cdAlgo j.words = 2 then toPlane i js
     else sendRanks (i % 4) phAnchorR i (peersOf js.2 j) (anchorBytes (sumAnchors js.2 j i)) js)
  else
    let js := (workRc (i % 4) (ceilDiv (swathLen j.words i) 256 * (peersOf js.2 j).length) j, js.2)
    if cdAlgo j.words = 2 then (if cdAt j.words then sendSwath i js else toPlane i js)
    else roundSwath i (sumLanes js.2 js.1 i) js

/-! Movement (R210, R213, R222, R223). -/

/-- Pieces that the area of one destination takes in the numbering of ALLTOALL: its pieces are numbered over the areas of
all destinations (R213, R265; log entry 50). -/
def areaPieces (d : List Nat) : Nat := max 1 (ceilDiv (cdCap d) 2048)

/-- The number of piece `q` for a destination rank. -/
def pieceNo (d : List Nat) (dest q : Nat) : Nat := if cdOp d = 7 then dest * areaPieces d + q else q

/-- The place of a piece in the bytes of its rank for this member. -/
def pieceIdx (d : List Nat) (i : Nat) : Nat := if cdOp d = 7 then i % areaPieces d else i

/-- Sends one piece of this member: to ranks in DIRECT, by the switch of its plane in SWITCH; in HIER within the block over
the mesh, where the piece's block rank takes it on for the other blocks (R218). ALLTOALL has one rank. -/
def sendPiece (ranks : List Nat) (no : Nat) (bs : List Byte) (js : ColJob × State) : ColJob × State :=
  let d := js.1.words
  let me := gRank js.2 js.1.g
  let dest := ranks.headD me
  let k := no % 4
  let js := (workRc k (ceilDiv bs.length 1024) js.1, js.2)
  if cdAlgo d = 1 then
    sendPlane k phPiece no me (if cdOp d = 7 then gNode js.2 js.1.g dest else swNode) 1 bs js
  else if cdAlgo d = 2 then
    sendRanks k phPiece no
      (if cdOp d ≠ 7 then (List.range 16).map (fun i => me / 16 * 16 + i)
       else if dest / 16 = me / 16 then [dest] else [me / 16 * 16 + no % 16]) bs js
  else sendRanks k phPiece no ranks bs js

/-- Sends a member's bytes to ranks, cut into pieces; piece q by the engine of RD(q mod 4). Variable counts close with a
piece below 2,048 bytes unless CAP is reached (log entry 25). -/
def sendPieces (ranks : List Nat) (bs : List Byte) (open_ : Bool) (js : ColJob × State) : ColJob × State :=
  let d := js.1.words
  let ps := pieces2k (bs.length / 2048 + 1) bs
  let ps := if open_ && bs.length % 2048 == 0 && decide (bs.length < cdCap d ∨ bs.length = 0) then ps ++ [[]] else ps
  ps.zipIdx.foldl (fun u q => sendPiece ranks (pieceNo d (ranks.headD 0) q.2) q.1 u) js

/-- Reads source bytes for the engine `k`. -/
def readSrc (j : ColJob) (k off n : Nat) (s : State) : Option (List Byte) × State :=
  let r := unitRead (colWho k j.ring s) (gaOff (cdSrc j.words) + off) n s
  (if r.1 = 0 then some r.2.1 else none, r.2.2)

/-- A movement starts (R218, R222). -/
def moveGo (js : ColJob × State) : ColJob × State :=
  let d := js.1.words
  let p := gSize js.2 js.1.g
  let me := gRank js.2 js.1.g
  match cdOp d with
  | 3 =>
    let r := readSrc js.1 0 0 (cdCount d) js.2
    (match r.1 with
     | some bs => sendPieces (List.range p) bs false (js.1, r.2)
     | none => colAbort cCollAborted cCollInput (js.1, r.2))
  | 5 =>
    if me ≠ cdRoot d then js
    else
      let r := readSrc js.1 0 0 (cdCount d) js.2
      (match r.1 with
       | some bs => sendPieces (List.range p) bs false (js.1, r.2)
       | none => colAbort cCollAborted cCollInput (js.1, r.2))
  | 4 | 7 =>
    let dests := if cdOp d = 4 then [(0, List.range p)] else (List.range p).map (fun q => (q, [q]))
    dests.foldl (fun u q =>
      let n := u.1.sizes.getD q.1 0
      let spill := n - cdCap d
      let u := if spill = 0 then u else colWarn 0 0 ({ u.1 with dropped := u.1.dropped + spill }, u.2)
      let r := readSrc u.1 0 (q.1 * cdSstride d) (min n (cdCap d)) u.2
      match r.1 with
      | some bs => sendPieces q.2 bs true (u.1, r.2)
      | none => colAbort cCollAborted cCollInput (u.1, r.2)) js
  | _ => js

/-- A reduction starts: the source is read by swath (R218). -/
def redGo (js : ColJob × State) : ColJob × State :=
  let d := js.1.words
  let e := fmtBytes (cdDtype d)
  let js := (List.range (numSwaths d)).foldl (fun u i =>
    if u.1.st = csAborting then u
    else
      let k := i % 4
      let r := readSrc u.1 k (swathLo d i * e) (swathLen d i * e) u.2
      match r.1 with
      | none => colAbort cCollAborted cCollInput (u.1, r.2)
      | some bs =>
        -- a T96 slot whose residue fails is an uncorrectable source word (R53; log entry 23)
        if cdDtype d = 11 && (unitsOfBytes 16 bs).any (fun c => !(Tally.ofSlot c).residueOk) then
          colAbort cCollAborted cCollInput (u.1, r.2)
        else (workRc k (ceilDiv bs.length 1024) { u.1 with src := Tab.set (fun _ => []) u.1.src i bs }, r.2)) js
  if js.1.st = csAborting then js
  else
    (List.range (numSwaths d)).foldl (fun u i =>
      if cdAlgo d = 1 then toPlane i u
      else if cdAt d then sendRanks (i % 4) phAnchor i [ownerOf u.2 u.1 i] (anchorBytes (ownAnchors u.1 i)) u
      else sendLanes i u) js

/-- GO (R214): the collective is RUNNING and its phases start. -/
def goAct (j : ColJob) (s : State) : State :=
  if j.st ≠ csOpening then s
  else
    let js := ({ j with st := csRunning, ran := true }, s)
    putCol (if cdIsRed j.words then redGo js else moveGo js)

/-- A received GO. -/
def collGo (i : Nat) (s : State) : State :=
  match colTake [phGo] none i s with
  | (none, _, t) => t
  | (some p, sw, t) =>
    match liveOf t p with
    | none => stray p t
    | some j =>
      if cpDig p ≠ j.dig then putCol (colAbort cCollMismatch cCollMismatch (j, t))
      else goAct j (passOn sw p t)

def execGo (i : Nat) (s : State) : Host.Outcome State Fault Refusal := .next (s.live (colStep (collGo i)))

/-! Data packets (R218, R221, R223, R226). -/

/-- Whether this member may take data: OPENING, RUNNING or READY. -/
def takesData (j : ColJob) : Bool := decide (j.st ≤ csReady)

/-- A piece of a streamed collective lands at once (R223). -/
def landStream (p : Packet) (js : ColJob × State) : ColJob × State :=
  let d := js.1.words
  let q := cdCount d / 2048
  let slot := if cdOp d = 5 then cpIndex p else cpRank p * q + cpIndex p
  if js.1.landed.contains slot then js
  else
    let t := unitWrite (colWho (cpIndex p % 4) js.1.ring js.2) (gaOff (cdDst d) + 2048 * slot) p.data js.2
    let t := match physOf t (cdPlcore d) with
      | some c => if coreReachable t (cdPlcore d) then arriveSlot c (cdPctr d) slot t else t
      | none => t
    ({ js.1 with landed := js.1.landed ++ [slot] }, t)

/-- Where the bytes of a rank begin in this member's output (R210, R222). -/
def rankBase (d : List Nat) (q : Nat) : Nat := if cdOp d = 3 then q * cdCount d else if cdOp d = 5 then 0 else q * cdCap d

/-- A piece for this member: landed at once where the collective streams (R223), else staged in the workspace (R224). -/
def keepPiece (p : Packet) (js : ColJob × State) : ColJob × State :=
  let d := js.1.words
  if cdStream d then landStream p js
  else workWrite (engineOf p) (gaOff (cdWork d) + rankBase d (cpRank p) + 2048 * pieceIdx d (cpIndex p)) p.data js

/-- A piece that a member received: kept once; in HIER the block rank of the piece takes it on to the other blocks, by its
switch (R218). -/
def pieceAct (sw : Bool) (p : Packet) (js : ColJob × State) : ColJob × State :=
  let d := js.1.words
  let i := cpIndex p
  let r := cpRank p
  let me := gRank js.2 js.1.g
  let dest := if cdOp d = 7 then i / areaPieces d else me
  if dest ≠ me then
    (if cdAlgo d = 2 then sendPlane (i % 4) phPiece i r (gNode js.2 js.1.g dest) 1 p.data js else js)
  else if js.1.chunks.any (fun c => c.phase == phPiece && c.index == i && c.rank == r) then js
  else
    let js := keepPiece p ({ js.1 with chunks := js.1.chunks ++ [⟨phPiece, i, r, p.h.psn, p.data⟩] }, js.2)
    if !sw && cdAlgo d == 2 && cdOp d != 7 && me % 16 == i % 16 then sendPlane (i % 4) phPiece i r swNode 1 p.data js
    else js

/-- Received data that this member keeps, and what follows from it. -/
def dataAct (sw : Bool) (p : Packet) (js : ColJob × State) : ColJob × State :=
  let i := cpIndex p
  let ph := cpPhase p
  let r := cpRank p
  let j := js.1
  let was := if ph = phAnchor ∨ ph = phLanes then allHere js.2 j ph i else haveAll js.2 j ph i r
  let j2 := { j with chunks := j.chunks ++ [⟨ph, i, r, p.h.psn, p.data⟩] }
  let now := if ph = phAnchor ∨ ph = phLanes then allHere js.2 j2 ph i else haveAll js.2 j2 ph i r
  let fires := now && !was
  if ph = phPiece then pieceAct sw p js
  else if !fires then (j2, js.2)
  else if ph = phAnchor ∨ ph = phLanes then (if owns js.2 j2 i then ownerAct ph i (j2, js.2) else (j2, js.2))
  else if ph = phAnchorR then sendLanes i (j2, js.2)
  else if ph = phValues then stage i (gather j2 phValues i r) (j2, js.2)
  else (j2, js.2)

/-- COLL_DATA: anchors, lanes, an owner's anchor result, values and pieces. -/
def collData (i : Nat) (s : State) : State :=
  let none_ := fun (_ : Unit) => s
  match s.vt.recv[i]? with
  | none => none_ ()
  | some (_, q) =>
    if cpRank q = rankSwitch then none_ ()
    else
      match colTake [phAnchor, phLanes, phAnchorR, phValues, phPiece] none i s with
      | (none, _, t) => t
      | (some p, sw, t) =>
        match liveOf t p with
        | none => stray p t
        | some j =>
          if cpDig p ≠ j.dig then putCol (colAbort cCollMismatch cCollMismatch (j, t))
          else if !takesData j then t
          else
            let k := engineOf p
            putCol (dataAct sw p ({ j with rx := addTab j.rx k p.data.length }, t.count (COL_BYTES_RX_COUNT k) p.data.length))

def execCollData (i : Nat) (s : State) : Host.Outcome State Fault Refusal := .next (s.live (colStep (collData i)))

/-- A switch result of a swath phase that keeps R221's tags, width and count: combined anchors or totals. -/
def switchAct (p : Packet) (js : ColJob × State) : ColJob × State :=
  let i := cpIndex p
  let ph := cpPhase p
  let j := { js.1 with chunks := js.1.chunks ++ [⟨ph, i, rankSwitch, p.h.psn, p.data⟩] }
  if !haveAll js.2 j ph i rankSwitch then (j, js.2)
  else if ph = phAnchorR then
    (if cdAlgo j.words = 1 then sendSwath i (j, js.2)
     else sendRanks (i % 4) phAnchorR i (peersOf js.2 j) (gather j phAnchorR i rankSwitch) (j, js.2))
  else
    let js2 := roundSwath i (lanesOf j.words (gather j phTotals i rankSwitch)) ({ j with out := j.out.filter (fun q => q != i) }, js.2)
    if js2.1.voted then js2 else pumpPlane (i % 4) (js2.1.pend.length + 1) js2

/-- SWITCH_RESULT (R221): a second result, a wrong width or a wrong count is a switch breach. -/
def switchResult (i : Nat) (s : State) : State :=
  match colTake [phAnchorR, phTotals] (some true) i s with
  | (none, _, t) => t
  | (some p, _, t) =>
    match liveOf t p with
    | none => stray p t
    | some j =>
      let k := engineOf p
      let have2 := phaseLen j.words (gSize t j.g) (gRank t j.g) (cpPhase p) (cpIndex p)
      let got := (gather j (cpPhase p) (cpIndex p) rankSwitch).length
      if cpDig p ≠ j.dig then putCol (colAbort cCollMismatch cCollMismatch (j, t))
      else if !takesData j then t
      else
        let js := ({ j with rx := addTab j.rx k p.data.length }, t.count (COL_BYTES_RX_COUNT k) p.data.length)
        if haveAll t j (cpPhase p) (cpIndex p) rankSwitch || decide (have2 < got + p.data.length) || cpLw p != lwOf j.words ||
            cpContrib p != contribOf t j || !j.out.contains (cpIndex p) then
          putCol (colAbort cCollAborted cCollSwitch js)
        else pumpAll (putCol (switchAct p js))

def execSwitchResult (i : Nat) (s : State) : Host.Outcome State Fault Refusal := .next (s.live (colStep (switchResult i)))

/-- NOCTX (R221): the swath's phase is to be sent again. -/
def noctx (i : Nat) (s : State) : State :=
  match colTake [phNoctx] none i s with
  | (none, _, t) => t
  | (some p, _, t) =>
    match liveOf t p with
    | none => stray p t
    | some j =>
      if cpDig p ≠ j.dig then putCol (colAbort cCollMismatch cCollMismatch (j, t))
      else if takesData j && j.out.contains (cpIndex p) && !j.retry.contains (cpIndex p) then
        putCol ({ j with retry := j.retry ++ [cpIndex p] }, t)
      else t

def execNoctx (i : Nat) (s : State) : Host.Outcome State Fault Refusal := .next (s.live (colStep (noctx i)))

/-- NOCTX_RETRY: RETRY_US have passed since the NOCTX of swath `i` of context `c` (R221). -/
def noctxRetry (c i : Nat) (s : State) : State :=
  match colAt s c with
  | none => s
  | some j =>
    if !j.retry.contains i || !takesData j then s
    else
      let k := i % 4
      putCol (sendSwath i ({ j with retry := j.retry.filter (fun q => q != i), nx := addTab j.nx k 1 },
        s.countSat (COL_NOCTX_COUNT k) 1))

def execNoctxRetry (c : Fin 16) (i : Nat) (s : State) : Host.Outcome State Fault Refusal := .next (s.live (colStep (noctxRetry c i)))

/-! READY, commit and end (R214, R224). -/

/-- Pieces that rank `q` sends to this member, once they are known (R222). -/
def piecesFrom (j : ColJob) (q : Nat) : Option Nat :=
  let d := j.words
  if cdOp d = 3 ∨ cdOp d = 5 then some (ceilDiv (cdCount d) 2048)
  else
    (j.chunks.find? (fun c => c.phase == phPiece && c.rank == q &&
      (decide (c.bytes.length < 2048) || decide (cdCap d ≤ (pieceIdx d c.index + 1) * 2048)))).map
        (fun c => pieceIdx d c.index + 1)

/-- The ranks whose bytes a movement brings here. -/
def senders (s : State) (j : ColJob) : List Nat :=
  if cdOp j.words = 6 then [] else if cdOp j.words = 5 then [cdRoot j.words] else List.range (gSize s j.g)

/-- Whether every swath or piece of engine `k` is complete (R214). -/
def engineDone (k : Nat) (s : State) (j : ColJob) : Bool :=
  let d := j.words
  if cdIsRed d then
    (List.range (numSwaths d)).all (fun i =>
      i % 4 != k ||
        ((!owns s j i || j.rounded.contains i) &&
          (let sp := shareSpan d (gSize s j.g) (gRank s j.g) i
           decide (sp.2 ≤ sp.1) || j.staged.contains i)))
  else
    (senders s j).all (fun q =>
      match piecesFrom j q with
      | none => false
      | some n => ((List.range n).map (pieceNo d (gRank s j.g))).all (fun i =>
          i % 4 != k || j.chunks.any (fun c => c.phase == phPiece && c.rank == q && c.index == i)))

/-- COLL_READY: engine `k` of the collective in context `c` has completed; with all four READY engine 0 sends CLOSE. -/
def collReady (c k : Nat) (s : State) : State :=
  match colAt s c with
  | none => s
  | some j =>
    if j.st ≠ csRunning || j.rdy.contains k || !engineDone k s j then s
    else
      let j := { j with rdy := j.rdy ++ [k] }
      if j.rdy.length < 4 then putCol (j, s)
      else putCol ({ j with st := csReady, closed := true }, castVote j phClose 0 s)

def execCollReady (c : Fin 16) (k : Fin 4) (s : State) : Host.Outcome State Fault Refusal := .next (s.live (colStep (collReady c k)))

/-- COMMIT (R214, R217): a member commits on a COMMIT that it has received after its CLOSE. -/
def collCommit (i : Nat) (s : State) : State :=
  match colTake [phCommit] none i s with
  | (none, _, t) => t
  | (some p, sw, t) =>
    match liveOf t p with
    | none => stray p t
    | some j =>
      if cpDig p ≠ j.dig then putCol (colAbort cCollMismatch cCollMismatch (j, t))
      else if j.final || j.st ≠ csReady then t
      else putCol ({ j with st := csCommitting, final := true }, passOn sw p t)

def execCommit (i : Nat) (s : State) : Host.Outcome State Fault Refusal := .next (s.live (colStep (collCommit i)))

/-- What is copied from the workspace at commit: engine, global address, offset of the staged bytes, length (R210, R222,
R224). -/
def colOutputs (s : State) (j : ColJob) : List (Nat × Nat × Nat × Nat) :=
  let d := j.words
  let p := gSize s j.g
  if cdStream d then []
  else if cdIsRed d then
    j.staged.map (fun i =>
      let sp := shareSpan d p (gRank s j.g) i
      (i % 4, cdDst d + (sp.1 - (colShare d p (gRank s j.g)).1) * fmtBytes (cdOut d), workVals j sp.1,
        (sp.2 - sp.1) * fmtBytes (cdOut d)))
  else
    (j.chunks.filter (fun c => c.phase == phPiece)).map (fun c =>
      let o := rankBase d c.rank + 2048 * pieceIdx d c.index
      (c.index % 4, cdDst d + o, gaOff (cdWork d) + o, c.bytes.length))

/-- What is written beside the staged bytes: the zeros that fill each CAP area, and the sent counts (R222). -/
def colFills (s : State) (j : ColJob) : List (Nat × List Byte) :=
  let d := j.words
  if cdOp d = 4 ∨ cdOp d = 7 then
    (senders s j).flatMap (fun q =>
      let len := ((j.chunks.filter (fun c => c.phase == phPiece && c.rank == q)).map (fun c => c.bytes.length)).sum
      [(cdDst d + q * cdCap d + len, List.replicate (cdCap d - len) 0), (cdOutcnt d + 4 * q, toBytes 4 len)])
  else []

/-- Bytes of unknown value. -/
def freeBytes (n : Nat) (s : State) : List Byte × State :=
  ((List.range n).map (fun i => BitVec.ofNat 8 (Config.freeWord (s.free + i)).toNat), { s with free := s.free + n })

/-- Writes one output; an engine whose die is fenced leaves it unknown (R20, R224). -/
def writeOut (k ga : Nat) (bs : List Byte) (js : ColJob × State) : ColJob × State :=
  let b := if js.2.dieFenced (16 + k) then freeBytes bs.length js.2 else (bs, js.2)
  (workRc k (ceilDiv bs.length 1024) js.1, unitWrite (colWho k js.1.ring b.2) (gaOff ga) b.1 b.2)

/-- Copies one output out of the workspace. COMMIT stands whatever a read finds: an output whose staged bytes cannot be
read is left unknown (log entry 49). -/
def copyOut (o : Nat × Nat × Nat × Nat) (js : ColJob × State) : ColJob × State :=
  let r := workRead o.1 o.2.2.1 o.2.2.2 js
  match r.1 with
  | some bs => writeOut o.1 o.2.1 bs r.2
  | none => let b := freeBytes o.2.2.2 r.2.2; writeOut o.1 o.2.1 b.1 (r.2.1, b.2)

/-- COMMIT_DONE (R224): the outputs are written, CMTCTR advances, and the collective ends. -/
def commitDone (c : Nat) (s : State) : State :=
  match colAt s c with
  | none => s
  | some j =>
    if j.st ≠ csCommitting then s
    else
      let js := (colOutputs s j).foldl (fun u o => copyOut o u) (j, s)
      let js := (colFills s j).foldl (fun u o => writeOut 0 o.1 o.2 u) js
      let t := if cdCmtEn j.words then arriveLogical (cdPlcore j.words) (cdCmtctr j.words) 1 js.2 else js.2
      pumpAll (colEnd js.1 0 false t)

def execCommitDone (c : Fin 16) (s : State) : Host.Outcome State Fault Refusal := .next (s.live (colStep (commitDone c)))

/-- ABORT_RESULT (R215): it ends the open collective, is held for a queued one, and is a stray packet otherwise. -/
def abortResult (i : Nat) (s : State) : State :=
  match colTake [phResult] none i s with
  | (none, _, t) => t
  | (some p, sw, t) =>
    match groupOf t p with
    | none => stray p t
    | some g =>
      match colLive t g (cpSeq p) with
      | some j => if j.final then t else pumpAll (colEnd { j with final := true } (cpCode p) false (passOn sw p t))
      | none =>
        if (cpSeq p + 2 ^ 32 - gNext t g) % 2 ^ 32 < 2 ^ 31 then
          let t := passOn sw p t
          (if t.col.held.any (fun h => h.1 == g && h.2.1 == cpSeq p) then t
           else { t with col := { t.col with held := t.col.held ++ [(g, cpSeq p, cpCode p)] } })
        else stray p t

def execAbortResult (i : Nat) (s : State) : Host.Outcome State Fault Refusal := .next (s.live (colStep (abortResult i)))

/-! Deadline, grace, flush, node loss (R216, R217). -/

/-- COLL_DEADLINE: LIMIT_US have passed without a final result (R217). -/
def collDeadline (c : Nat) (s : State) : State :=
  match colAt s c with
  | none => s
  | some j =>
    if j.final || j.late then s
    else
      let js := colAbort cCollTimeout cCollTimeout (j, s)
      putCol ({ js.1 with late := true }, js.2)

def execCollDeadline (c : Fin 16) (s : State) : Host.Outcome State Fault Refusal := .next (s.live (colStep (collDeadline c)))

/-- COLL_GRACE_EXPIRY: GRACE_US more have passed (R217). -/
def collGrace (c : Nat) (s : State) : State :=
  match colAt s c with
  | none => s
  | some j => if j.final || !j.late then s else pumpAll (colEnd j cCollTimeout j.closed s)

def execCollGraceExpiry (c : Fin 16) (s : State) : Host.Outcome State Fault Refusal := .next (s.live (colStep (collGrace c)))

/-- COL_FLUSH (R216): the open collective of the ring votes ABORT; its queued ones do as each leaves QUEUED (log
entry 23). -/
def colFlush (n : Nat) (s : State) : State :=
  let r := colRing 0 n
  let size := max 1 (s.get r.size)
  let openN := (s.col.jobs.filter (fun j => j.ring == n)).length
  let len := if sizeOk (s.get r.size) then (s.get r.tail + size - s.get r.head) % size else 0
  let q := (List.range (len - openN)).map (fun i => (n, (s.get r.head + openN + i) % size))
  let t := { s with col := { s.col with flush := s.col.flush.filter (fun f => !q.contains f) ++ q } }
  match t.col.jobs.find? (fun j => j.ring == n) with
  | none => t
  | some j => if j.inGroup then putCol (colAbort cCollAborted cCollFlushed (j, t)) else t

/-- The flush is given to one engine and acts for the part. -/
def execColFlush (_k : Fin 4) (n : Fin 16) (s : State) : Host.Outcome State Fault Refusal := .next (s.live (colStep (colFlush n)))

/-- A member node is lost by an authoritative notice (R216, R289). -/
def colNodeDown (target : Nat) (s : State) : State :=
  s.col.jobs.foldl (fun t j =>
    if j.inGroup && (gNodes t j.g).contains target then putCol (colAbort cCollAborted cCollAborted (j, t)) else t) s

/-- After a step that may take nodes down, collectives with a member newly lost vote ABORT (R216, R228). -/
def withDowns (f : State → State) (s : State) : State :=
  let t := f s
  (t.vt.down.filter (fun n => !s.vt.down.contains n)).foldl (fun u n => colNodeDown n u) t

/-- NOTICE (R288, R289): the transaction engines act, and the collective engines after them. -/
def notice (i : Nat) (s : State) : State := withDowns (noticeVt i) s

def execNotice (i : Nat) (s : State) : Host.Outcome State Fault Refusal := .next (s.live (colStep (notice i)))

end Sys2Proof.Machine
end

