-- ==== Sys2Proof/Machine/Links.lean ====
section
/-!
DEFINITION. The mesh links and optical uplinks (09_fabric_links): blocks and frames (R235 to R240), acknowledgement and
replay (R241 to R244), link-up (R245 to R247), lanes (R248 to R251), presence and loss (R252 to R254).
Ports 0 to 14 are ML0 to ML14, 15 to 18 are UP0 to UP3 (R27). A control block and a frame arrive as the operand of a
command; the block that a transmitter sends stands in `last` of its port.
-/
namespace Sys2Proof.Machine

/-! Codes (R257). -/
def cLinkDown : Nat := 0x0401
def cLinkReplay : Nat := 0x0402
def cLinkSilent : Nat := 0x0403
def cLaneLost : Nat := 0x0404
def cLinkDegraded : Nat := 0x0405
def cLinkTrain : Nat := 0x0406
def cLinkPeer : Nat := 0x0407
def cLinkRtt : Nat := 0x0408
def cLinkLaser : Nat := 0x0409
def cLinkAdv : Nat := 0x040A
def cLaneFailed : Nat := 0x040B

/-- Whether a port is an uplink. -/
def isUp (n : Nat) : Bool := decide (15 ≤ n)

/-- Data lanes, physical lanes and the narrowest width (R233). -/
def fullWidth (n : Nat) : Nat := if isUp n then 8 else 4
def physLanes (n : Nat) : Nat := if isUp n then 9 else 5
def narrowest (n : Nat) : Nat := if isUp n then 4 else 2

/-- Die of a port in R428's order: XD or OE. -/
def linkDie (n : Nat) : Nat := if isUp n then 32 + (n - 15) else 28 + n / 4

/-- Whether the dies that carry a port are unfenced (R431): its link die, and the optical engine of an uplink. -/
def portDieOk (s : State) (n : Nat) : Bool :=
  if isUp n then !s.dieFenced (28 + (n - 15)) && !s.dieFenced (32 + (n - 15)) else !s.dieFenced (28 + n / 4)

/-- A step of a port. -/
def State.livePort (s : State) (n : Nat) (f : State → State) : State := if s.dataUp && portDieOk s n then f s else s

/-- Latest code of a port (R258). -/
def vlLast (n code lane dir : Nat) (s : State) : State :=
  (((s.set (VL_LAST_CODE n) code).set (VL_LAST_LANE n) lane).set (VL_LAST_DIR n) dir).set (VL_LAST_ALM_COUNT n) s.alm

/-- A warning of a port (R257, R429, R443); lane 15 is the whole port. -/
def vlWarn (n code lane dir : Nat) (irq : Option Fld) (s : State) : State :=
  let t := vlLast n code lane dir s
  let t := match irq with | some f => t.raise f | none => t
  t.report { code := code, level := 0, kind := 1, die := linkDie n, sub := n * 16 + lane }

def vlState (s : State) (n : Nat) : Nat := s.get (VL_STATE_STATE n)

/-! CRCs (R236, R237). -/

/-- One bit of a reflected CRC-32C. -/
def crc32cBit (c : Nat) : Nat := if c % 2 = 1 then c / 2 ^^^ 0x82F63B78 else c / 2

def crc32cByte (c : Nat) (b : Byte) : Nat :=
  crc32cBit (crc32cBit (crc32cBit (crc32cBit (crc32cBit (crc32cBit (crc32cBit (crc32cBit (c ^^^ b.toNat))))))))

/-- CRC-32C of a byte string (R237). -/
def crc32c (bs : List Byte) : Nat := bs.foldl crc32cByte 0xFFFFFFFF ^^^ 0xFFFFFFFF

/-- One bit of a CRC-16 with polynomial 0x1021, most significant bit first. -/
def crc16Bit (c : Nat) (b : Bool) : Nat :=
  if (c.testBit 15) != b then (c * 2 % 2 ^ 16) ^^^ 0x1021 else c * 2 % 2 ^ 16

/-- BCRC over bits [239:0] of a control block (R236): by bytes in order, each from its highest bit (log entry 27). -/
def bcrc (w : Nat) : Nat :=
  ((List.range 30).flatMap (fun i => (List.range 8).map (fun j => w.testBit (8 * i + (7 - j))))).foldl crc16Bit 0xFFFF

/-- FCRC of a frame: SOF bytes 1 to 4, then the payload (R237). -/
def fcrc (ch seq len : Nat) (bs : List Byte) : Nat := crc32c (toBytes 4 (ch + seq * 2 + len * 2 ^ 17) ++ bs)

/-- Bits of a control block that its TYPE defines (R236); none for a reserved TYPE. -/
def ctlMask (ty : Nat) : Option Nat :=
  match ty with
  | 0x01 => some (bitMask 0 7)
  | 0x02 => some (bitMask 0 36)
  | 0x03 => some (bitMask 0 56)
  | 0x04 => some (bitMask 0 7 + bitMask 9 88)
  | 0x05 => some (bitMask 0 24)
  | 0x06 => some (bitMask 0 51)
  | 0x07 => some (bitMask 0 11)
  | 0x08 => some (bitMask 0 43)
  | 0x09 => some (bitMask 0 7 + bitMask 9 147)
  | 0x0A => some (bitMask 0 41)
  | 0x0B => some (bitMask 0 15)
  | 0x0C => some (bitMask 0 13)
  | _ => none

/-- Whether a control block is discarded (R236): its BCRC fails, a reserved bit is set, or its TYPE is reserved. -/
def ctlBad (w : Nat) : Bool :=
  bitsOf w 240 16 != bcrc w ||
    (match ctlMask (bitsOf w 0 8) with
     | none => true
     | some m => bitsOf w 0 240 &&& m != bitsOf w 0 240)

/-- The bits of a control block below BCRC: TYPE and the fields at their places (R236). -/
def Ctl.body : Ctl → Nat
  | .idle => 0x01
  | .sof ch seq len => 0x02 + putF ch 8 1 + putF seq 9 16 + putF len 25 12
  | .eof ch seq f => 0x03 + putF ch 8 1 + putF seq 9 16 + putF f 25 32
  | .ack n x cn cx => 0x04 + putF n 9 16 + putF x 25 16 + putF cn 41 24 + putF cx 65 24
  | .nak ch seq => 0x05 + putF ch 8 1 + putF seq 9 16
  | .lanemap q m w => 0x06 + putF q 8 4 + putF m 12 36 + putF w 48 4
  | .mapsw q => 0x07 + putF q 8 4
  | .align q c => 0x08 + putF q 8 4 + putF c 12 32
  | .hello node port kind plane seen cn cx ts echo =>
    0x09 + putF node 9 18 + putF port 27 5 + putF kind 32 1 + putF plane 33 2 + putF seen 35 1 + putF cn 36 24 + putF cx 60 24 +
      putF ts 84 32 + putF echo 116 32
  | .adv u c k => 0x0A + putF u 8 13 + putF c 21 16 + putF k 37 5
  | .bye r => 0x0B + putF r 8 8
  | .train l op => 0x0C + putF l 8 4 + putF op 12 2

/-- The 256 bits of a control block, with its BCRC (R236). -/
def Ctl.word (c : Ctl) : Nat := c.body + putF (bcrc c.body) 240 16

/-- The control block that 256 intact bits spell (R236). -/
def Ctl.ofWord (w : Nat) : Option Ctl :=
  let f := bitsOf w
  match f 0 8 with
  | 0x01 => some .idle
  | 0x02 => some (.sof (f 8 1) (f 9 16) (f 25 12))
  | 0x03 => some (.eof (f 8 1) (f 9 16) (f 25 32))
  | 0x04 => some (.ack (f 9 16) (f 25 16) (f 41 24) (f 65 24))
  | 0x05 => some (.nak (f 8 1) (f 9 16))
  | 0x06 => some (.lanemap (f 8 4) (f 12 36) (f 48 4))
  | 0x07 => some (.mapsw (f 8 4))
  | 0x08 => some (.align (f 8 4) (f 12 32))
  | 0x09 => some (.hello (f 9 18) (f 27 5) (f 32 1) (f 33 2) (f 35 1) (f 36 24) (f 60 24) (f 84 32) (f 116 32))
  | 0x0A => some (.adv (f 8 13) (f 21 16) (f 37 5))
  | 0x0B => some (.bye (f 8 8))
  | 0x0C => some (.train (f 8 4) (f 12 2))
  | _ => none

/-- The 257 bits of a block: C in bit 0, then the payload (R235). -/
def Block.bits : Block → Nat
  | .ctl c => 1 + 2 * c.word
  | .data _ _ bs => 2 * ofBytes bs

/-! Channels. -/

/-- A channel of a port: express is true. -/
def LinkHid.ch (l : LinkHid) (x : Bool) : Chan := if x then l.x else l.n
def LinkHid.setCh (l : LinkHid) (x : Bool) (c : Chan) : LinkHid := if x then { l with x := c } else { l with n := c }

/-- What a control block that falls due supersedes: at most one ACK, one NAK of each channel and one LANEMAP are due at a
time (R239, R249); a BYE, a TRAIN, an ALIGN or a MAPSW supersedes none. -/
def Ctl.renews : Ctl → Ctl → Bool
  | .ack _ _ _ _, .ack _ _ _ _ => true
  | .nak a _, .nak b _ => a == b
  | .lanemap _ _ _, .lanemap _ _ _ => true
  | _, _ => false

/-- Control blocks due, with one more. -/
def addDue (ds : List Ctl) (c : Ctl) : List Ctl := ds.filter (fun d => !c.renews d) ++ [c]

/-- Control blocks fall due. -/
def dueCtl (n : Nat) (cs : List Ctl) (s : State) : State :=
  let l := s.link n
  s.setLink n { l with due := cs.foldl addDue l.due }

/-- A block goes out: dealt to the next position of the lane map in force (R235). -/
def emitBlock (n : Nat) (b : Block) (s : State) : State :=
  let l := s.link n
  let at_ := l.sent % max 1 (s.get (VL_STATE_TX_WIDTH n))
  s.setLink n { l with last := some b, lane := bitsOf (s.get (VL_MAP_TX_MAP n)) (4 * at_) 4, sent := l.sent + 1 }

/-- Units of 64 bytes that a packet consumes (R243). -/
def creditUnits (p : Packet) : Nat := ceilDiv p.h.len 64

/-- Credits available (R243). -/
def Chan.avail (c : Chan) : Nat := (c.granted + c.credit + 2 ^ 24 - c.used % 2 ^ 24) % 2 ^ 24

/-- Whether the channel has a frame ready: a replay, or a new one covered by credits (R239, R241, R243). -/
def Chan.ready (c : Chan) : Bool :=
  !c.replay.isEmpty ||
    (match c.queue with
     | p :: _ => decide (creditUnits p ≤ c.avail) && decide (c.unacked.length < 1024)
     | [] => false)

/-! Going down (R244, R247, R253, R286, R287). -/

/-- The far end of a port (R288): the peer of a mesh port, the part itself for an uplink. -/
def farEnd (n : Nat) (s : State) : Nat := if isUp n then s.node else s.get (VL_EXPECT_NODE n)

/-- The switch's advertisement is lost (R247). -/
def dropAdv (n : Nat) (s : State) : State :=
  if isUp n then s.setWord (COL_RCTX_UNITS (n - 15) (n - 15)).addr 0 else s

/-- A port leaves UP for a state: its frames go back to the transaction layer (R244, R286), its fragments and credits are
cleared. -/
def leaveUp (n st : Nat) (s : State) : State :=
  let l := s.link n
  let ps := l.x.unacked.map (fun f => f.pkt) ++ l.n.unacked.map (fun f => f.pkt) ++ l.x.queue ++ l.n.queue
  let t := s.setLink n { l with x := {}, n := {}, due := [], owed := 0, floor := [], mapReq := none, txReq := none }
  -- frames already handed on return no credit to a link that is gone (R244)
  let t := { t with vt := { t.vt with recv := t.vt.recv.map (fun (q : Via × Packet) =>
    if q.1 = Via.port n then (q.1, { q.2 with units := 0 }) else q) } }
  handBack ps (dropAdv n (addDead (portDie n) s.node n (farEnd n s) (t.set (VL_STATE_STATE n) st)))

/-- An UP port goes down with a code; LOSS_CAUSE decides the cause (R244, R253). -/
def portDown (n code : Nat) (s : State) : State :=
  if vlState s n ≠ vlUp then s
  else
    let t := leaveUp n vlDown s
    t.setLink n { t.link n with loss := some (code, s.alm) }

/-- Whether the peer is present: an uplink has no presence signal. -/
def present (n : Nat) (s : State) : Bool := isUp n || s.flag (VL_STATE_PRSNT n)

/-- A port enters a state before UP with its link state cleared. -/
def enterState (n st : Nat) (s : State) : State :=
  let l := s.link n
  (s.setLink n { l with n := {}, x := {}, due := [], owed := 0, floor := [], seen := false, seenSent := false, peerSeen := false,
                        mapReq := none, mapSeq := 0, txReq := none, tries := [], cw := 0, sent := 0, loss := none,
                        bye := false }).set (VL_STATE_STATE n) st

/-- A port in DOWN whose PRSNT_N is deasserted goes ABSENT, once the cause of its loss is decided (R245, R253). -/
def settleDown (n : Nat) (s : State) : State :=
  if vlState s n = vlDown && !present n s && (s.link n).loss.isNone then enterState n vlAbsent s else s

/-- LOSS_CAUSE (R253, R288): PLANNED after a BYE, ABSENT where PRSNT_N was deasserted within 1 µs of the loss, else FAULT. -/
def lossCause (n : Nat) (s : State) : State :=
  let l := s.link n
  match l.loss with
  | none => s
  | some (code, at_) =>
    let absent := !isUp n &&
      (!s.flag (VL_STATE_PRSNT n) || (match l.prsntEnd with | some a => decide (at_ ≤ a + 1000) | none => false))
    let t := s.setLink n { l with loss := none, bye := false }
    let target := farEnd n s
    if l.bye || absent then
      settleDown n (issueNotice target s.node n 2 code
        ((t.set (VL_STATE_CAUSE n) (if l.bye then 1 else 2)).countSat (VL_DOWN_CNT_OTHER n) 1))
    else
      let t := vlLast n code 15 0 (((t.set (VL_STATE_CAUSE n) 3).countSat (VL_DOWN_CNT_FAULT n) 1).raise (VL_IRQ_DOWN n))
      let t := t.report { code := code, level := 0, kind := 2, die := linkDie n, sub := n * 16 + 15, detail := target }
      let t := issueNotice target s.node n 0 code t
      if isUp n then t
      else
        quorum target { t with vt := { t.vt with lost := t.vt.lost.filter (fun q => q.1 != target) ++ [(target, s.alm)] } }

/-- The part's management decides the cause, also of a port lost with its link die (R19, R253); a NODE_DOWN that the part
issues makes its collectives vote ABORT (R216). -/
def execLossCause (n : Fin 19) (s : State) : Host.Outcome State Fault Refusal :=
  .next (s.live (colStep (withDowns (lossCause n))))

/-- LINK_SILENT: no valid block for 1 µs (R244). -/
def execLinkSilent (n : Fin 19) (s : State) : Host.Outcome State Fault Refusal := .next (s.livePort n (portDown n cLinkSilent))

/-- ACK_LIMIT_EXPIRY: a frame is unacknowledged LIMIT_NS after its first transmission (R244). -/
def ackLimitExpiry (n : Nat) (s : State) : State :=
  let l := s.link n
  if l.n.unacked.isEmpty && l.x.unacked.isEmpty then s else portDown n cLinkReplay s

def execAckLimitExpiry (n : Fin 19) (s : State) : Host.Outcome State Fault Refusal := .next (s.livePort n (ackLimitExpiry n))

/-! Link-up (R245, R246, R252). -/

/-- PORT_ENABLE: a write to VL_CTRL (R245, R254, R258). Disabling an UP port sends BYE and withdraws its traffic. -/
def portEnable (n : Nat) (v : Word) (s : State) : State :=
  if (VL_CTRL_ENABLE n).of v = 1 then
    let t := s.set (VL_CTRL_ENABLE n) 1
    if vlState s n ≠ vlDisabled then t
    else
      let u := enterState n (if present n t then vlTraining else vlAbsent) t
      u.setLink n { u.link n with here := !isUp n }
  else
    let t := s.set (VL_CTRL_ENABLE n) 0
    let t := if vlState s n = vlUp then leaveUp n vlDisabled t else t
    let u := enterState n vlDisabled t
    u.setLink n { u.link n with here := false, last := if vlState s n = vlUp then some (.ctl (.bye 2)) else (s.link n).last }

def execPortEnable (n : Fin 19) (v : Word) (s : State) : Host.Outcome State Fault Refusal := .next (s.livePort n (portEnable n v))

/-- PRSNT_CHANGE: the sampled state of MLn_PRSNT_N (R252). -/
def prsntChange (n : Nat) (asserted : Bool) (s : State) : State :=
  let l := s.link n
  let t := s.set (VL_STATE_PRSNT n) (ofBool asserted)
  if asserted && !s.flag (VL_STATE_PRSNT n) then t.setLink n { l with prsntEnd := some s.alm } else settleDown n t

def execPrsntChange (n : Fin 15) (asserted : Bool) (s : State) : Host.Outcome State Fault Refusal :=
  .next (s.livePort n (prsntChange n asserted))

/-- PRSNT_SETTLED (R245). -/
def prsntSettled (n : Nat) (s : State) : State :=
  if vlState s n = vlAbsent && s.flag (VL_STATE_PRSNT n) then enterState n vlTraining s else s

def execPrsntSettled (n : Fin 15) (s : State) : Host.Outcome State Fault Refusal := .next (s.livePort n (prsntSettled n))

/-- A lane map of physical lanes in order, unused positions 0xF (R236). -/
def mapOf (lanes : List Nat) : Nat := (List.range 9).foldl (fun m i => m + putF (lanes.getD i 0xF) (4 * i) 4) 0

/-- Physical lanes of a map of a width. -/
def lanesOfMap (m w : Nat) : List Nat := (List.range w).map (fun i => bitsOf m (4 * i) 4)

/-! Lane states (R258): 0 data, 1 spare, 2 lost, 3 retraining, 4 soaking, 5 failed, 7 not present. -/
def laneStat (w l : Nat) : Nat := bitsOf w (3 * l) 3
def setLaneStat (w l v : Nat) : Nat := w - laneStat w l * 2 ^ (3 * l) + v * 2 ^ (3 * l)

/-- Lane states of a direction after training: the first lanes carry data, one more is the spare, the others are lost. -/
def trainedStat (n : Nat) (lanes : List Nat) : Nat :=
  (List.range 9).foldl (fun w l =>
    let v := if physLanes n ≤ l then 7
      else match (lanes.take (fullWidth n + 1)).idxOf? l with
        | some i => if i < fullWidth n then 0 else 1
        | none => 2
    w + v * 2 ^ (3 * l)) 0

def setRxStat (n l v : Nat) (s : State) : State := s.set (VL_LANE_STAT_RX n) (setLaneStat (s.get (VL_LANE_STAT_RX n)) l v)
def rxStat (n l : Nat) (s : State) : Nat := laneStat (s.get (VL_LANE_STAT_RX n)) l

/-- A lost lane starts to retrain: the receiver sends TRAIN start (R251). -/
def retrain (n l : Nat) (s : State) : State := setRxStat n l 3 (dueCtl n [.train l 0] s)

/-- TRAINING_DONE: the lanes that trained in each direction (R245, R248). -/
def trainingDone (n : Nat) (tx rx : List Nat) (s : State) : State :=
  if vlState s n ≠ vlTraining || decide (tx.length < narrowest n) || decide (rx.length < narrowest n) then s
  else
    let wt := min (fullWidth n) tx.length
    let wr := min (fullWidth n) rx.length
    let t := enterState n vlHello s
    let t := (((t.set (VL_STATE_TX_WIDTH n) wt).set (VL_STATE_RX_WIDTH n) wr).set (VL_STATE_TX_SPARE n)
      (ofBool (decide (fullWidth n < tx.length)))).set (VL_STATE_RX_SPARE n) (ofBool (decide (fullWidth n < rx.length)))
    let t := (((t.set (VL_MAP_TX_MAP n) (mapOf (tx.take wt))).set (VL_MAP_TX_MAPSEQ n) 0).set (VL_MAP_RX_MAP n)
      (mapOf (rx.take wr))).set (VL_MAP_RX_MAPSEQ n) 0
    let t := (t.set (VL_LANE_STAT_RX n) (trainedStat n rx)).set (VL_LANE_STAT_TX n) (trainedStat n tx)
    -- lanes that failed are lost lanes, which retrain in the background (R245, R248, R251)
    ((List.range (physLanes n)).filter (fun l => !rx.contains l)).foldl
      (fun u l => retrain n l (vlWarn n cLaneLost l 0 (some (VL_IRQ_LANE n)) u)) t

def execTrainingDone (n : Fin 19) (tx rx : List Nat) (s : State) : Host.Outcome State Fault Refusal :=
  .next (s.livePort n (trainingDone n tx rx))

/-- TRAINING_LIMIT (R245). -/
def trainingLimit (n : Nat) (s : State) : State :=
  if vlState s n = vlTraining then settleDown n ((vlLast n cLinkTrain 15 0 s).set (VL_STATE_STATE n) vlDown) else s

def execTrainingLimit (n : Fin 19) (s : State) : Host.Outcome State Fault Refusal := .next (s.livePort n (trainingLimit n))

/-- LIMIT_NS within its range (R258). -/
def ackLimit (n : Nat) (s : State) : Nat := min 1900 (max 400 (s.get (VL_ACK_LIMIT_LIMIT_NS n)))

/-- The port comes UP (R246, R287, R288): credits and SEQ start at zero; the element leaves the dead table. -/
def portUp (n : Nat) (s : State) : State :=
  let l := s.link n
  let g := fun (c : Chan) => ({ granted := c.granted } : Chan)
  let was := s.vt.dead.any (fun d => d.node == s.node && d.port == n)
  let t := (s.setLink n { l with n := g l.n, x := g l.x }).set (VL_STATE_STATE n) vlUp
  let t := dropDead t.node n (t.raise (VL_IRQ_UP n))
  let t := { t with vt := { t.vt with lost := t.vt.lost.filter (fun q => isUp n || q.1 != farEnd n s) } }
  pump (if was then issueNotice (farEnd n s) s.node n 3 0 t else t)

/-- The peer's offset as a mesh port goes UP (R378): ALM_PEER_OFS, with ALM_PEER_SKEW beyond the limit. -/
def peerOffset (n : Nat) (s : State) : State :=
  let o := (s.link n).ofs
  if isUp n then s
  else
    let d := if -32768 ≤ o ∧ o ≤ 32767 then (toBits o 16, s) else (s.drawWord.1.toNat, s.drawWord.2)
    let t := (d.2.set (ALM_PEER_OFS_OFS n) d.1).set (ALM_PEER_OFS_VALID n) 1
    if s.get ALM_PEER_LIMIT_NS < o.natAbs then
      (t.raise ALM_IRQ_PEER_SKEW).report { code := 0x0A08, level := 0, kind := 1, die := linkDie n, sub := n * 16 + 15 }
    else t

/-- UP once both sides have sent SEEN (R246). -/
def tryUp (n : Nat) (s : State) : State :=
  let l := s.link n
  if vlState s n = vlHello && l.seenSent && l.peerSeen then peerOffset n (portUp n s) else s

/-- HELLO: a HELLO block with its fields, and the peer's holding time in ns (R246). -/
def hello (n node port kind plane : Nat) (seen : Bool) (credN credX ts echo hold : Nat) (s : State) : State :=
  if vlState s n ≠ vlHello then s
  else
    let t := (((s.set (VL_PEER_NODE n) node).set (VL_PEER_PORT n) port).set (VL_PEER_KIND n) kind).set (VL_PEER_PLANE n) plane
    let good := if isUp n then kind == 1 && plane == n - 15
      else kind == 0 && node == s.get (VL_EXPECT_NODE n) && port == s.get (VL_EXPECT_PORT n)
    if !good then settleDown n (((vlLast n cLinkPeer 15 0 t).raise (VL_IRQ_PEER n)).set (VL_STATE_STATE n) vlDown)
    else
      let l := t.link n
      let l := { l with seen := true, peerTs := ts, n := { l.n with granted := credN }, x := { l.x with granted := credX } }
      if !seen then t.setLink n l
      else
        let rtt := (s.alm + 2 ^ 32 - echo) % 2 ^ 32 - hold
        let ofs := signedOf ((ts + rtt / 2 + 2 ^ 32 - s.alm % 2 ^ 32) % 2 ^ 32) 32
        let t := (t.setLink n { l with peerSeen := true, ofs := ofs }).set (VL_RTT_RTT_NS n) (min rtt 65535)
        if ackLimit n t < 2 * rtt then settleDown n ((vlLast n cLinkRtt 15 0 t).set (VL_STATE_STATE n) vlDown) else tryUp n t

def execHello (n : Fin 19) (node : BitVec 18) (port : BitVec 5) (kind : BitVec 1) (plane : BitVec 2) (seen : Bool)
    (credN credX : BitVec 24) (ts echo : BitVec 32) (hold : Nat) (s : State) : Host.Outcome State Fault Refusal :=
  .next (s.livePort n (hello n node.toNat port.toNat kind.toNat plane.toNat seen credN.toNat credX.toNat ts.toNat echo.toNat hold))

/-- HELLO_TICK: the port sends its HELLO block (R246). -/
def helloTick (n : Nat) (s : State) : State :=
  if vlState s n ≠ vlHello then s
  else
    let l := s.link n
    let c := Ctl.hello s.node n 0 (if isUp n then n - 15 else 0) (ofBool l.seen) 4096 1024 (s.alm % 2 ^ 32) l.peerTs
    tryUp n (emitBlock n (.ctl c) (s.setLink n { l with seenSent := l.seenSent || l.seen }))

def execHelloTick (n : Fin 19) (s : State) : Host.Outcome State Fault Refusal := .next (s.livePort n (helloTick n))

/-- ADV (R247). -/
def adv (n units cnt caps : Nat) (s : State) : State :=
  if !isUp n then s.count (VL_CTL_ERR_COUNT n) 1
  else
    let k := n - 15
    if 4096 < units then vlWarn n cLinkAdv 15 0 (some (VL_IRQ_ADV n)) (dropAdv n s)
    else ((s.set (COL_RCTX_UNITS k k) units).set (COL_RCTX_COUNT k k) cnt).set (COL_RCTX_CAPS k k) caps

def execAdv (n : Fin 19) (units : BitVec 13) (cnt : BitVec 16) (caps : BitVec 5) (s : State) :
    Host.Outcome State Fault Refusal := .next (s.livePort n (adv n units.toNat cnt.toNat caps.toNat))

/-- BYE: a following loss is PLANNED; after a loss it decides nothing (R253). -/
def bye (n : Nat) (s : State) : State :=
  if (s.link n).loss.isSome then s else s.setLink n { s.link n with bye := true }

def execBye (n : Fin 19) (s : State) : Host.Outcome State Fault Refusal := .next (s.livePort n (bye n))

/-- HOLD_EXPIRY (R245). -/
def holdExpiry (n : Nat) (s : State) : State :=
  if vlState s n ≠ vlDown then s
  else if !present n s then enterState n vlAbsent s
  else if s.flag (VL_CTRL_ENABLE n) then enterState n vlTraining s
  else s

def execHoldExpiry (n : Fin 19) (s : State) : Host.Outcome State Fault Refusal := .next (s.livePort n (holdExpiry n))

/-! Receiving frames and acknowledgements (R241 to R243). -/

/-- Cumulative SEQ of the last frame accepted. -/
def lastOk (c : Chan) : Nat := (c.e + 65535) % 65536

/-- The ACK block of a port (R236, R241). -/
def ackBlock (l : LinkHid) : Ctl := .ack (lastOk l.n) (lastOk l.x) (l.n.returned % 2 ^ 24) (l.x.returned % 2 ^ 24)

/-- NAK(E), unless one for the same E stands and RTT_NS has not passed (R242). -/
def sendNak (n : Nat) (x : Bool) (s : State) : State :=
  let l := s.link n
  let c := l.ch x
  let stands := match c.nakFor with
    | some (e, a) => e == c.e && decide (s.alm ≤ a + s.get (VL_RTT_RTT_NS n))
    | none => false
  if stands then s
  else dueCtl n [.nak (ofBool x) c.e] (s.setLink n (l.setCh x { c with nakFor := some (c.e, s.alm) }))

/-- FRAME: an SOF's CH, SEQ and LEN, the payload, and the EOF's CH, SEQ and FCRC (R237, R241). The packet waits at ingress
for the transaction layer, and its credit comes back when that takes it (R243). -/
def recvFrame (n : Nat) (x : Bool) (seq len : Nat) (bs : List Byte) (x2 : Bool) (seq2 crc : Nat) (s : State) : State :=
  if vlState s n ≠ vlUp then s
  else
    let l := s.link n
    let c := l.ch x
    let intact := x == x2 && seq == seq2 && bs.length == len && decide (1 ≤ len) && decide (len ≤ 2176) &&
      crc == fcrc (ofBool x) seq len bs
    let back := (c.e + 65536 - seq) % 65536
    if !intact then sendNak n x (s.count (VL_CRC_ERR_COUNT n) 1)
    else if back = 0 then
      let c2 := { c with e := (c.e + 1) % 65536, nakFor := none }
      arrive (.port n) { Packet.parse bs with units := ceilDiv len 64, express := x } ((s.setLink n (l.setCh x c2)).countSat
        (if x then VL_RX_FRAMES_EXPRESS n else VL_RX_FRAMES_NORMAL n) 1)
    else if back ≤ 1024 then dueCtl n [ackBlock l] (s.count (VL_DUPS_COUNT n) 1)
    else sendNak n x s

def execFrame (n : Fin 19) (x : Bool) (seq : BitVec 16) (len : BitVec 12) (bs : List Byte) (x2 : Bool) (seq2 : BitVec 16)
    (crc : BitVec 32) (s : State) : Host.Outcome State Fault Refusal :=
  .next (s.livePort n (recvFrame n x seq.toNat len.toNat bs x2 seq2.toNat crc.toNat))

/-- Frees the frames of a channel up to a SEQ and takes a cumulative credit return (R241, R243). -/
def ackChan (a cred : Nat) (c : Chan) : Chan :=
  let done := fun (q : Nat) => decide ((a + 65536 - q) % 65536 < 32768)
  { c with unacked := c.unacked.filter (fun f => !done f.seq), replay := c.replay.filter (fun q => !done q), credit := cred }

/-- LINK_ACK: a received ACK block. -/
def linkAck (n an ax cn cx : Nat) (s : State) : State :=
  let l := s.link n
  s.setLink n { l with n := ackChan an cn l.n, x := ackChan ax cx l.x }

def execLinkAck (n : Fin 19) (an ax : BitVec 16) (cn cx : BitVec 24) (s : State) : Host.Outcome State Fault Refusal :=
  .next (s.livePort n (linkAck n an.toNat ax.toNat cn.toNat cx.toNat))

/-- ACK_TICK (R242). -/
def ackTick (n : Nat) (s : State) : State := if vlState s n = vlUp then dueCtl n [ackBlock (s.link n)] s else s

def execAckTick (n : Fin 19) (s : State) : Host.Outcome State Fault Refusal := .next (s.livePort n (ackTick n))

/-- VL_REPLAY.LIMIT within its range (R258). -/
def replayLimit (n : Nat) (s : State) : Nat := min 8 (max 1 (s.get (VL_REPLAY_LIMIT n)))

/-- NAK(S): every unacknowledged frame of the channel from S on is to be sent again (R242); a frame that has been sent LIMIT
times takes the port down (R244). -/
def nakRecv (n : Nat) (x : Bool) (seq : Nat) (s : State) : State :=
  let l := s.link n
  let c := l.ch x
  if vlState s n ≠ vlUp then s
  else
    let from_ := c.unacked.dropWhile (fun f => f.seq != seq)
    if from_.isEmpty then (if seq = c.next then s else s.count (VL_CTL_ERR_COUNT n) 1)
    else if from_.any (fun f => decide (replayLimit n s ≤ f.sends)) then portDown n cLinkReplay s
    else s.setLink n (l.setCh x { c with replay := from_.map (fun f => f.seq) })

def execNak (n : Fin 19) (x : Bool) (seq : BitVec 16) (s : State) : Host.Outcome State Fault Refusal :=
  .next (s.livePort n (nakRecv n x seq.toNat))

/-! The transmitter (R237 to R239). -/

/-- Notes a data block in the window of 64 (R239). -/
def noteData (normal : Bool) (l : LinkHid) : LinkHid :=
  let f := l.floor ++ [normal]
  { l with floor := if 64 < f.length then f.drop 1 else f, owed := if normal && decide (1 < l.owed) then l.owed - 1 else l.owed }

/-- The next block of the open frame: a data block, or EOF when all have gone. -/
def contFrame (n : Nat) (x : Bool) (o : OpenTx) (s : State) : State :=
  let l := s.link n
  let c := l.ch x
  let blocks := ceilDiv o.bytes.length 32
  if o.sent < blocks then
    let b := (o.bytes.drop (32 * o.sent)).take 32
    let b := b ++ List.replicate (32 - b.length) 0
    emitBlock n (.data (ofBool x) o.sent b)
      (s.setLink n (noteData (!x) (l.setCh x { c with opn := some { o with sent := o.sent + 1 } })))
  else
    emitBlock n (.ctl (.eof (ofBool x) o.seq (fcrc (ofBool x) o.seq o.bytes.length o.bytes)))
      (s.setLink n (l.setCh x { c with opn := none }))

/-- Starts a frame: a replay first, else the next packet of the queue, which consumes credits (R241 to R243). -/
def startFrame (n : Nat) (x : Bool) (s : State) : State :=
  let l := s.link n
  let c := l.ch x
  let sof := fun (seq len : Nat) => Block.ctl (.sof (ofBool x) seq len)
  match c.replay with
  | q :: rest =>
    (match c.unacked.find? (fun f => f.seq == q) with
     | none => s.setLink n (l.setCh x { c with replay := rest })
     | some f =>
       let bs := f.pkt.wire
       let c2 := { c with replay := rest, opn := some { seq := q, bytes := bs, sent := 0 },
                          unacked := c.unacked.map (fun g => if g.seq == q then { g with sends := g.sends + 1 } else g) }
       (emitBlock n (sof q bs.length) (s.setLink n (l.setCh x c2))).count (VL_REPLAYS_COUNT n) 1)
  | [] =>
    match c.queue with
    | [] => s
    | p :: ps =>
      let bs := p.wire
      let c2 := { c with queue := ps, next := (c.next + 1) % 65536, used := (c.used + creditUnits p) % 2 ^ 24,
                         opn := some { seq := c.next, bytes := bs, sent := 0 }, unacked := c.unacked ++ [⟨c.next, p, 1⟩] }
      (emitBlock n (sof c.next bs.length) (s.setLink n (l.setCh x c2))).countSat
        (if x then VL_TX_FRAMES_EXPRESS n else VL_TX_FRAMES_NORMAL n) 1

/-- Whether the BE floor is met (R239). -/
def floorMet (n : Nat) (l : LinkHid) (s : State) : Bool :=
  decide (s.get (VL_BE_FLOOR_FLOOR n) ≤ (l.floor.filter (fun b => b)).length)

/-- Rule 4 of R239: the open normal frame continues, or a ready one starts, or IDLE. -/
def normalSlot (n : Nat) (s : State) : State :=
  let l := s.link n
  match l.n.opn with
  | some o => contFrame n false o s
  | none => if l.n.ready then startFrame n false s else emitBlock n (.ctl .idle) s

/-- Lane states after a new transmit map (R250, R258). -/
def txStat (n : Nat) (old new : List Nat) (w : Nat) : Nat :=
  (List.range (physLanes n)).foldl (fun w l =>
    if new.contains l then setLaneStat w l 0 else if old.contains l && laneStat w l == 0 then setLaneStat w l 2 else w) w

/-- MAPSW goes out: the map that the peer requested is in force from here, and its width is reported (R249, R250). -/
def applyMap (n : Nat) (s : State) : State :=
  match (s.link n).txReq with
  | none => s
  | some (q, map, width) =>
    let old := lanesOfMap (s.get (VL_MAP_TX_MAP n)) (s.get (VL_STATE_TX_WIDTH n))
    let w := txStat n old (lanesOfMap map width) (s.get (VL_LANE_STAT_TX n))
    let spare := (List.range (physLanes n)).any (fun l => laneStat w l == 1)
    let narrower := decide (width < s.get (VL_STATE_TX_WIDTH n))
    let t := s.setLink n { s.link n with txReq := none, sent := 0 }
    let t := ((((t.set (VL_MAP_TX_MAP n) map).set (VL_MAP_TX_MAPSEQ n) q).set (VL_STATE_TX_WIDTH n) width).set
      (VL_LANE_STAT_TX n) w).set (VL_STATE_TX_SPARE n) (ofBool spare)
    refreshSpray (if narrower then vlWarn n cLinkDegraded 15 1 (some (VL_IRQ_DEGRADED n)) t else t)

/-- Whether the transmitters are in electrical idle or train (R245, R254): no block goes out. -/
def idleState (n : Nat) (s : State) : Bool :=
  vlState s n == vlDisabled || vlState s n == vlAbsent || vlState s n == vlTraining

/-- An express frame is ready on an UP port (rule 3 of R239): it starts at a 64-byte boundary of the open normal frame, once
the floor is met or its two normal data blocks have gone. From an odd count only the block that reaches the boundary goes: it is
one of the two, and after one more R238 would hold the express frame back again (log entry 27). -/
def expressSlot (n : Nat) (s : State) : State :=
  let l := s.link n
  let odd := match l.n.opn with | some o => o.sent % 2 == 1 | none => false
  let owed := if l.owed = 0 && !floorMet n l s then (if odd then 2 else 3) else l.owed
  if (l.n.opn.isSome || l.n.ready) && decide (1 < owed) then normalSlot n (s.setLink n { l with owed := owed })
  else if odd then normalSlot n s
  else
    let t := s.setLink n { l with owed := 0 }
    startFrame n true (if l.n.opn.isSome then t.count (VL_PREEMPT_COUNT n) 1 else t)

/-- BLOCK_SLOT (R239). -/
def blockSlot (n : Nat) (s : State) : State :=
  let l := s.link n
  if idleState n s then s.setLink n { l with last := none }
  else
    match l.due with
    | c :: rest =>
      let t := s.setLink n { l with due := rest }
      emitBlock n (.ctl c) (match c with | .mapsw _ => applyMap n t | _ => t)
    | [] =>
      if vlState s n ≠ vlUp then emitBlock n (.ctl .idle) s
      else
        match l.x.opn with
        | some o => contFrame n true o s
        | none => if l.x.ready then expressSlot n s else normalSlot n s

def execBlockSlot (n : Fin 19) (s : State) : Host.Outcome State Fault Refusal := .next (s.livePort n (blockSlot n))

/-- ALIGN_BLOCK: every 4,096 codewords each lane of the map and the spare carry ALIGN (R235). -/
def alignBlock (n : Nat) (s : State) : State :=
  if idleState n s then s
  else
    let l := s.link n
    let c := Ctl.align (s.get (VL_MAP_TX_MAPSEQ n)) ((l.cw + 4096) % 2 ^ 32)
    s.setLink n { l with cw := l.cw + 4096, due := l.due ++ List.replicate (s.get (VL_STATE_TX_WIDTH n)) c,
                         spare := if s.flag (VL_STATE_TX_SPARE n) then some c else l.spare }

def execAlignBlock (n : Fin 19) (s : State) : Host.Outcome State Fault Refusal := .next (s.livePort n (alignBlock n))

/-! Lanes (R248 to R251). -/

/-- Requests a receive map (R249): MAPSEQ rises by one; a later request supersedes an earlier one. -/
def requestMap (n : Nat) (lanes : List Nat) (s : State) : State :=
  let l := s.link n
  let q := (l.mapSeq + 1) % 16
  dueCtl n [.lanemap q (mapOf lanes) lanes.length]
    (s.setLink n { l with mapSeq := q, mapReq := some (q, mapOf lanes, lanes.length) })

/-- The receive lanes of the latest map: the one requested, or the one in force. -/
def rxLanes (n : Nat) (s : State) : List Nat :=
  match (s.link n).mapReq with
  | some (_, m, w) => lanesOfMap m w
  | none => lanesOfMap (s.get (VL_MAP_RX_MAP n)) (s.get (VL_STATE_RX_WIDTH n))

/-- TRIES within its range (R258). -/
def laneTries (n : Nat) (s : State) : Nat := max 1 (s.get (VL_RETRAIN_TRIES n))

/-- A NAK for each channel with a frame outstanding at the receiver: one whose fragment it holds (R249; log entry 51). -/
def nakOpen (n : Nat) (s : State) : State :=
  let t := if (s.link n).x.rx.isSome then sendNak n true s else s
  if (t.link n).n.rx.isSome then sendNak n false t else t

/-- Too few lanes are left (R250): an UP port goes down under R244, and a port in HELLO with it. -/
def tooNarrow (n : Nat) (s : State) : State :=
  if vlState s n = vlUp then portDown n cLinkDown s
  else settleDown n ((vlLast n cLinkDown 15 0 s).set (VL_STATE_STATE n) vlDown)

/-- A receive lane is declared lost (R248 to R250). -/
def loseLane (n lane : Nat) (s : State) : State :=
  let st := rxStat n lane s
  if (vlState s n ≠ vlUp && vlState s n ≠ vlHello) || (st != 0 && st != 1) then s
  else
    let t := setRxStat n lane 2 (vlWarn n cLaneLost lane 0 (some (VL_IRQ_LANE n)) s)
    if st = 1 then retrain n lane (t.set (VL_STATE_RX_SPARE n) 0)
    else
      let lanes := rxLanes n t
      match (List.range (physLanes n)).find? (fun l => rxStat n l t == 1) with
      | some sp =>
        let t := requestMap n (lanes.map (fun l => if l == lane then sp else l)) (setRxStat n sp 0 (t.set (VL_STATE_RX_SPARE n) 0))
        retrain n lane (nakOpen n t)
      | none =>
        let rest := lanes.filter (fun l => l != lane)
        if rest.length < narrowest n then tooNarrow n t
        else
          let t := vlWarn n cLinkDegraded lane 0 (some (VL_IRQ_DEGRADED n)) (requestMap n rest t)
          retrain n lane (nakOpen n t)

/-- LANE_LOSS: eight consecutive bad codewords (R248). -/
def execLaneLoss (n : Fin 19) (lane : Fin 9) (s : State) : Host.Outcome State Fault Refusal := .next (s.livePort n (loseLane n lane))

/-- UNCORR_MAX within its range (R258). -/
def uncorrMax (n : Nat) (s : State) : Nat := max 1 (s.get (VL_BER_UNCORR_MAX n))

/-- LANE_ERROR_PERIOD: each lane's corrected and uncorrectable codewords of the 1 ms period, and an uplink's laser input
powers in µW (R234, R248, R258). -/
def laneErrorPeriod (n : Nat) (errs : List (Fin 9 × Nat × Nat)) (pwr : List (Fin 9 × Nat)) (s : State) : State :=
  let t := (errs.filter (fun e => decide (e.1.val < physLanes n))).foldl (fun u e =>
    let u := (u.countSat (VL_LANE_ERR_CORR n e.1) e.2.1).countSat (VL_LANE_ERR_UNCORR n e.1) e.2.2
    if uncorrMax n u ≤ e.2.2 then loseLane n e.1 u else u) s
  if !isUp n then t
  else
    pwr.foldl (fun u p =>
      let u := u.set (VL_OPT_PWR_PWR_UW n p.1) (min p.2 65535)
      if p.2 < u.get (VL_OPT_PWR_MIN_UW n p.1) then vlWarn n cLinkLaser p.1 0 (some (VL_IRQ_LASER n)) u else u) t

def execLaneErrorPeriod (n : Fin 19) (errs : List (Fin 9 × Nat × Nat)) (pwr : List (Fin 9 × Nat)) (s : State) :
    Host.Outcome State Fault Refusal := .next (s.livePort n (laneErrorPeriod n errs pwr))

/-- LANEMAP: the transmitter is to go over to the peer's map, of the latest MAPSEQ (R249, R250): MAPSW falls due on every lane
of it, in place of the MAPSW of a map that has not taken effect (R256). -/
def lanemap (n mapseq map width : Nat) (s : State) : State :=
  let l := s.link n
  let latest := match l.txReq with | some r => r.1 | none => s.get (VL_MAP_TX_MAPSEQ n)
  let ahead := (mapseq + 16 - latest) % 16
  if (vlState s n ≠ vlUp && vlState s n ≠ vlHello) || ahead == 0 || decide (8 ≤ ahead) then s
  else
    let old := match l.txReq with | some r => l.due.filter (fun c => c != .mapsw r.1) | none => l.due
    s.setLink n { l with txReq := some (mapseq, map, width), due := old ++ List.replicate width (.mapsw mapseq) }

def execLanemap (n : Fin 19) (mapseq : BitVec 4) (map : BitVec 36) (width : BitVec 4) (s : State) :
    Host.Outcome State Fault Refusal := .next (s.livePort n (lanemap n mapseq.toNat map.toNat width.toNat))

/-- LANEMAP_REPEAT (R249). -/
def lanemapRepeat (n : Nat) (s : State) : State :=
  match (s.link n).mapReq with
  | some (q, m, w) => dueCtl n [.lanemap q m w] s
  | none => s

def execLanemapRepeat (n : Fin 19) (s : State) : Host.Outcome State Fault Refusal := .next (s.livePort n (lanemapRepeat n))

/-- MAPSW: the receiver reads the new map from here (R249). -/
def mapsw (n mapseq : Nat) (s : State) : State :=
  match (s.link n).mapReq with
  | some (q, m, w) =>
    if q ≠ mapseq then s
    else
      let t := s.setLink n { s.link n with mapReq := none }
      ((t.set (VL_MAP_RX_MAP n) m).set (VL_MAP_RX_MAPSEQ n) q).set (VL_STATE_RX_WIDTH n) w
  | none => s

def execMapsw (n : Fin 19) (mapseq : BitVec 4) (s : State) : Host.Outcome State Fault Refusal := .next (s.livePort n (mapsw n mapseq.toNat))

/-- TRAIN: the peer's receiver reports a transmit lane's retraining (R251, R258): start, passed, abandoned. A lane that the
map in force still names can only start, where the map to come leaves it out. A passed lane is the spare until a map takes
it, and one that starts again is none. -/
def train (n lane op : Nat) (s : State) : State :=
  let w := s.get (VL_LANE_STAT_TX n)
  let st := laneStat w lane
  let leaves := match (s.link n).txReq with | some r => !(lanesOfMap r.2.1 r.2.2).contains lane | none => false
  if 2 < op || st = 7 || (st = 0 && !(op == 0 && leaves)) then s
  else
    let w := setLaneStat w lane (if op = 0 then 3 else if op = 1 then 1 else 5)
    (s.set (VL_LANE_STAT_TX n) w).set (VL_STATE_TX_SPARE n) (ofBool ((List.range (physLanes n)).any (fun l => laneStat w l == 1)))

def execTrain (n : Fin 19) (lane : Fin 9) (op : Fin 3) (s : State) : Host.Outcome State Fault Refusal := .next (s.livePort n (train n lane op))

/-- RETRAIN_SOAK_END: a lane's retraining or its soak ends (R251; log entry 52). Retraining that passes starts the soak; a lane
that passes its soak rejoins; a lane that fails is retried up to TRIES times. -/
def retrainSoakEnd (n lane : Nat) (pass : Bool) (s : State) : State :=
  let st := rxStat n lane s
  let l := s.link n
  let tries := Tab.get (fun _ => 0) l.tries lane
  let setTries := fun (v : Nat) => s.setLink n { l with tries := Tab.set (fun _ => 0) l.tries lane v }
  if (vlState s n ≠ vlUp && vlState s n ≠ vlHello) || (st != 3 && st != 4) then s
  else if pass then
    if st = 3 then setRxStat n lane 4 s
    else
      let t := dueCtl n [.train lane 1] (setTries 0)
      let lanes := rxLanes n t
      if lanes.length < fullWidth n then requestMap n (lanes ++ [lane]) (setRxStat n lane 0 t)
      else (setRxStat n lane 1 t).set (VL_STATE_RX_SPARE n) 1
  else if tries < laneTries n s then retrain n lane (setTries (tries + 1))
  else vlWarn n cLaneFailed lane 0 (some (VL_IRQ_LANE n)) (setRxStat n lane 5 (dueCtl n [.train lane 2] s))

def execRetrainSoakEnd (n : Fin 19) (lane : Fin 9) (pass : Bool) (s : State) : Host.Outcome State Fault Refusal :=
  .next (s.livePort n (retrainSoakEnd n lane pass))

/-- A frame that is queued and not covered by credit: VL_CRED_STALL counts this rc (R258). -/
def credStall (n : Nat) (s : State) : State :=
  let l := s.link n
  let stalled := fun (c : Chan) => match c.queue with | p :: _ => decide (c.avail < creditUnits p) | [] => false
  if vlState s n = vlUp && (stalled l.n || stalled l.x) then s.count (VL_CRED_STALL_COUNT n) 1 else s

/-! Blocks received one at a time (R235 to R237, R240). -/

/-- A data block: 32 bytes for the open express frame, else for the open normal frame, else for none (R237). -/
def dataBlock (n : Nat) (bs : List Byte) (s : State) : State :=
  let l := s.link n
  let more := fun (c : Chan) (f : RxFrame) => { c with rx := some { f with bytes := f.bytes ++ bs } }
  match l.x.rx, l.n.rx with
  | some f, _ => s.setLink n { l with x := more l.x f }
  | none, some f => s.setLink n { l with n := more l.n f }
  | none, none => s

/-- SOF: a frame opens; one of its channel that is still open has no EOF and is discarded (R237, R241). -/
def recvSof (n : Nat) (x : Bool) (seq len : Nat) (s : State) : State :=
  if vlState s n ≠ vlUp then s
  else
    let t := if ((s.link n).ch x).rx.isSome then sendNak n x (s.count (VL_CRC_ERR_COUNT n) 1) else s
    let l := t.link n
    t.setLink n (l.setCh x { l.ch x with rx := some { seq := seq, len := len } })

/-- EOF: the open express frame ends, or else the open normal frame, and is delivered at once where it is intact (R237,
R240). -/
def recvEof (n : Nat) (x2 : Bool) (seq2 crc : Nat) (s : State) : State :=
  let l := s.link n
  let x := l.x.rx.isSome
  match (l.ch x).rx with
  | none => s
  | some f =>
    let bs := if f.bytes.length = 32 * ceilDiv f.len 32 then f.bytes.take f.len else f.bytes
    recvFrame n x f.seq f.len bs x2 seq2 crc (s.setLink n (l.setCh x { l.ch x with rx := none }))

/-- An intact control block acts as the command of its TYPE. The holding time of a HELLO is no field of it: a free value
(log entry 53). -/
def recvCtl (n : Nat) (c : Ctl) (s : State) : State :=
  match c with
  | .idle | .align _ _ => s
  | .sof ch seq len => recvSof n (ch == 1) seq len s
  | .eof ch seq f => recvEof n (ch == 1) seq f s
  | .ack a x cn cx => linkAck n a x cn cx s
  | .nak ch seq => nakRecv n (ch == 1) seq s
  | .lanemap q m w => lanemap n q m w s
  | .mapsw q => mapsw n q s
  | .hello node port kind plane seen cn cx ts echo =>
    let d := s.drawWord
    hello n node port kind plane (seen == 1) cn cx ts echo d.1.toNat d.2
  | .adv u k caps => adv n u k caps s
  | .bye _ => bye n s
  | .train l op => train n l op s

/-- CONTROL_BLOCK_DISCARD: a block of 257 bits is received, C in bit 0 (R235). A bad control block changes nothing but the count
(R236); a data block and an intact control block act as what they are. -/
def controlBlockDiscard (n w : Nat) (s : State) : State :=
  if w % 2 = 0 then dataBlock n (toBytes 32 (w / 2)) s
  else if ctlBad (w / 2) then s.count (VL_CTL_ERR_COUNT n) 1
  else
    match Ctl.ofWord (w / 2) with
    | some c => recvCtl n c s
    | none => s

def execControlBlockDiscard (n : Fin 19) (w : Nat) (s : State) : Host.Outcome State Fault Refusal :=
  .next (s.livePort n (controlBlockDiscard n w))

/-- BYE on every UP port before reset or power-down (R254): the ports' traffic is withdrawn and HERE_N released. -/
def byeAll (reason : Nat) (s : State) : State :=
  (List.range 19).foldl (fun t n =>
    let up := vlState t n == vlUp
    let t := if up then leaveUp n vlDisabled t else t
    t.setLink n { t.link n with here := false, last := if up then some (.ctl (.bye reason)) else (t.link n).last }) s

/-- What is left of the ports after the BYE of a reset or power-down: the block sent last (R254). -/
def byeOnly (reason : Nat) (ls : Tab LinkHid) : Tab LinkHid :=
  ls.filterMap (fun e => if e.2.last = some (.ctl (.bye reason)) then some (e.1, { last := e.2.last }) else none)

end Sys2Proof.Machine
end

