-- ==== Sys2Proof/Machine/Silo.lean ====
section
/-!
DEFINITION. The Silo's flash translation (12_silo_flash): extents and zones (R322, R323), stripes and placement (R324,
R325), reading (R326, R327), wear and retirement (R328 to R330). The flash devices themselves are outside the part: what a
page read, program or erase yields is an operand of its command.
-/
namespace Sys2Proof.Machine

/-! Codes of the Silo. -/
def cSiloUncorr : Nat := 0x0701
def cSiloChFail : Nat := 0x0702
def cSiloSpareLow : Nat := 0x0703
def cSiloFull : Nat := 0x0704
def cSiloLcLate : Nat := 0x0705
def cSiloProgFail : Nat := 0x0706
def cSiloProfile : Nat := 0x0707
def cSiloExtent : Nat := 0x0708

/-- Silo die of a channel (R319). -/
def sdOf (c : Nat) : Nat := c / 16

/-- Bytes of a flash page's data, and of a logical unit (R321, R322). -/
def pageBytes : Nat := 16384
def unitBytes : Nat := 65536

/-- Latest code of the Silo (R335). -/
def siloLast (j code ch lu : Nat) (s : State) : State :=
  ((s.set (SILO_LAST_CODE j) code).set (SILO_LAST_CHANNEL j) ch).set (SILO_LAST_LU j) lu

/-- A warning of the Silo (R429, R443). -/
def siloWarn (j code ch lu : Nat) (irq : Fld) (s : State) : State :=
  ((siloLast j code ch lu s).raise irq).report
    { code := code, level := 0, kind := 1, die := 36 + j, sub := ch % 16, detail := ch }

/-- STATE of a channel (R335). -/
def chState (s : State) (c : Nat) : Nat := s.get (SILO_CH_STATE (sdOf c) (c % 16))
def chActive : Nat := 1
def chFailed : Nat := 2

/-- Channels that are FAILED. -/
def failedChs (s : State) : List Nat := (List.range 32).filter (fun c => chState s c == chFailed)

/-- An erase block. -/
def blkKey (c b : Nat) : Nat := c * 2 ^ 24 + b
def getBlk (s : State) (c b : Nat) : FlashBlk := Tab.get (fun _ => ({} : FlashBlk)) s.silo.blk (blkKey c b)
def setFblk (c b : Nat) (v : FlashBlk) (s : State) : State :=
  { s with silo := { s.silo with blk := Tab.set (fun _ => ({} : FlashBlk)) s.silo.blk (blkKey c b) v } }

/-- Spare blocks of a channel: neither retired nor held by a band. -/
def spareBlks (s : State) (c : Nat) : List Nat :=
  (List.range s.silo.nblk).filter (fun b => let x := getBlk s c b; !x.bad && !x.used)

/-- The free block of a channel with the lowest erase count, the lowest number among equals (R328). -/
def pickBlk (s : State) (c : Nat) : Option Nat :=
  (spareBlks s c).foldl (fun best b =>
    match best with
    | none => some b
    | some a => if (getBlk s c b).erases < (getBlk s c a).erases then some b else some a) none

/-- Shows a channel's spare share and raises its warnings (R328, R335). -/
def showSpare (c : Nat) (s : State) : State :=
  let j := sdOf c
  let n := s.silo.nblk
  if n = 0 then s
  else
    let pct := (spareBlks s c).length * 100 / n
    let t := s.set (SILO_CH_SPARE_PCT j (c % 16)) pct
    let t := if pct < s.get (SILO_SPARE_WARN j) && !decide (s.get (SILO_CH_SPARE_PCT j (c % 16)) < s.get (SILO_SPARE_WARN j))
      then siloWarn j cSiloSpareLow c 0 (SILO_IRQ_SPARE j) t else t
    if (spareBlks s c).length * 100 < n then (t.set (SILO_STATUS_FULL 0) 1).set (SILO_STATUS_FULL 1) 1 else t

/-- Whether every write is refused (R328, R330). -/
def siloFull (s : State) : Bool := s.flag (SILO_STATUS_FULL 0)

/-- A channel becomes FAILED (R320, R329, R330): a second one leaves the Silo read-only. -/
def failChannel (c : Nat) (s : State) : State :=
  let j := sdOf c
  if chState s c = chFailed then s
  else
    let second := !(failedChs s).isEmpty
    let t := s.set (SILO_CH_STATE j (c % 16)) chFailed
    let t := siloWarn j cSiloChFail c 0 (SILO_IRQ_CH_FAIL j) t
    let t := (t.set (SILO_STATUS_DEGRADED 0) 1).set (SILO_STATUS_DEGRADED 1) 1
    if second then
      ((((t.set (SILO_STATUS_READONLY 0) 1).set (SILO_STATUS_READONLY 1) 1).set (SILO_STATUS_FULL 0) 1).set (SILO_STATUS_FULL 1) 1)
    else t

/-- CHANNEL_FAIL (R329): SILO_CH_FAIL_MIN blocks of the channel have been retired within one hour. -/
def channelFail (c : Nat) (s : State) : State :=
  let lim := max 1 (s.get (SILO_CH_FAIL_MIN_BLOCKS (sdOf c)))
  let n := (s.silo.retired.filter (fun r => r.1 == c && decide (s.alm ≤ r.2 + 3600000000000))).length
  if lim ≤ n then failChannel c s else s

def execChannelFail (c : Fin 32) (s : State) : Host.Outcome State Fault Refusal := .next (s.live (channelFail c))

/-- A block is retired (R328): it goes to the bad-block table and its band takes another block of the channel, to which its
valid pages are rewritten. -/
def retireBlk (c b : Nat) (s : State) : State :=
  let j := sdOf c
  let x := getBlk s c b
  let t := setFblk c b { x with bad := true, used := false } s
  let t := { t with silo := { t.silo with retired := t.silo.retired ++ [(c, s.alm)] } }
  let t := siloWarn j cSiloProgFail c 0 (SILO_IRQ_PROG_FAIL j) t
  let t := (t.count (SILO_RETIRED_COUNT j) 1).countSat (SILO_CH_RETIRED j (c % 16)) 1
  let t := match t.silo.bands.find? (fun d => d.2.getD c (2 ^ 24) == b) with
    | none => t
    | some (id, bs) =>
      match pickBlk t c with
      | none => t
      | some b2 =>
        let u := setFblk c b2 { getBlk t c b2 with used := true } t
        { u with silo := { u.silo with bands := Tab.set (fun _ => []) u.silo.bands id (bs.set c b2) } }
  showSpare c t

/-! Extents (R323). -/

/-- First unit of the page zone, and the end of the logical space. -/
def zoneUnits (s : State) : Nat := s.get (SILO_LOGICAL_ZONE 0) * 4096
def siloUnits (s : State) : Nat := s.get (SILO_LOGICAL_UNITS 0)

/-- The lowest free run of units in a zone (first fit; log entry 28). -/
def fitExtent (s : State) (weight : Bool) (len : Nat) : Option Nat :=
  let lo := if weight then 0 else zoneUnits s
  let hi := if weight then min (zoneUnits s) (siloUnits s) else siloUnits s
  let ok := fun a => decide (a + len ≤ hi) && s.silo.extents.all (fun e => decide (e.1 + e.2 ≤ a) || decide (a + len ≤ e.1))
  ((lo :: (s.silo.extents.map (fun e => e.1 + e.2)).filter (fun a => decide (lo ≤ a))).filter ok).foldl
    (fun best a => match best with | none => some a | some b => some (min a b)) none

/-- Free units of a zone, for the admission of a model (R342). -/
def freeUnits (s : State) : Nat :=
  min (zoneUnits s) (siloUnits s) - (s.silo.extents.filter (fun e => decide (e.1 < zoneUnits s))).foldl (fun a e => a + e.2) 0

/-- Releases an extent: its units are unwritten again. -/
def freeExtent (lu len : Nat) (s : State) : State :=
  let out := fun (p : Nat) => decide (p < 4 * lu) || decide (4 * (lu + len) ≤ p)
  { s with silo := { s.silo with extents := s.silo.extents.filter (fun e => e != (lu, len)),
                                 loc := s.silo.loc.filter (fun e => out e.1), data := s.silo.data.filter (fun e => out e.1) } }

/-! Placement (R324, R325). -/

/-- Whether a logical page has been written. -/
def mapped (s : State) (lp : Nat) : Bool := s.silo.loc.any (fun e => e.1 == lp)

/-- Content of a logical page; a page never written is zero (R305). -/
def pageData (s : State) (lp : Nat) : List Byte :=
  match s.silo.data.find? (fun e => e.1 == lp) with
  | some e => e.2
  | none => List.replicate pageBytes 0

/-- Content of a logical unit. -/
def unitData (s : State) (lu : Nat) : List Byte := (List.range 4).flatMap (fun i => pageData s (4 * lu + i))

/-- Opens a band: on each channel in use the free block with the lowest erase count (R323, R328). -/
def openBand (s : State) : Nat × State :=
  let id := s.silo.nextBand
  let pick := (List.range 32).map (fun c => if chState s c = chActive then (pickBlk s c).getD (2 ^ 24) else 2 ^ 24)
  let t := (List.range 32).foldl (fun u c =>
    let b := pick.getD c (2 ^ 24)
    if b = 2 ^ 24 then u else showSpare c (setFblk c b { getBlk u c b with used := true } u)) s
  (id, { t with silo := { t.silo with bands := Tab.set (fun _ => []) t.silo.bands id pick, nextBand := id + 1 } })

/-- The stripe to write to: the open one, the next of the band written last, or the first of a new band. -/
def getStripe (s : State) : OpenStripe × State :=
  match s.silo.opn with
  | some o => (o, s)
  | none =>
    match s.silo.next with
    | some (b, p) =>
      if p < s.silo.ppb then (⟨b, p, 0⟩, s)
      else let r := openBand s
           (⟨r.1, 0, 0⟩, r.2)
    | none => let r := openBand s
              (⟨r.1, 0, 0⟩, r.2)

/-- Channel of data position `i` of stripe `st`: positions skip the parity channel (R324) and FAILED channels (R329). -/
def dataChans (s : State) (st : Nat) : List Nat :=
  (List.range 32).filter (fun c => c != st % 32 && chState s c == chActive)

/-- Location of a page: band, page position and channel as one number. -/
def locOf (s : State) (band page ch : Nat) : Nat := (band * max 1 s.silo.ppb + page) * 32 + ch

/-- Closes the open stripe: the remaining positions take filler pages and the parity page is programmed (R325). -/
def closeStripe (s : State) : State :=
  match s.silo.opn with
  | none => s
  | some o => { s with silo := { s.silo with opn := none, next := some (o.band, o.page + 1) } }

/-- Programs a page at the next data position: its location, and the stripe closes when it is full (R324, R325). -/
def placePage (s : State) : Nat × State :=
  let r := getStripe s
  let o := r.1
  let t := r.2
  let chans := dataChans t (o.band * max 1 t.silo.ppb + o.page)
  let l := locOf t o.band o.page (chans.getD o.filled 0)
  let t := { t with silo := { t.silo with opn := some { o with filled := o.filled + 1 } } }
  (l, if chans.length ≤ o.filled + 1 then closeStripe t else t)

/-- Whether the stripe of a location is closed. -/
def stripeClosed (s : State) (l : Nat) : Bool :=
  match s.silo.opn with
  | none => true
  | some o => l / 32 != o.band * max 1 s.silo.ppb + o.page

/-- Band, page and channel of a location. -/
def locBand (s : State) (l : Nat) : Nat := l / 32 / max 1 s.silo.ppb
def locCh (l : Nat) : Nat := l % 32

/-- The page map takes a page's new location and its content becomes the one reported written (R325). -/
def mapPage (lp l : Nat) (bs : List Byte) (s : State) : State :=
  { s with silo := { s.silo with loc := Tab.set (fun _ => 0) s.silo.loc lp (l + 1),
                                 data := Tab.insert lp bs (Tab.erase lp s.silo.data) } }

/-- Writes a unit whole: its pages are placed, programmed and mapped. -/
def storeUnit (lu : Nat) (bs : List Byte) (s : State) : State :=
  (List.range 4).foldl (fun t i =>
    let r := placePage t
    mapPage (4 * lu + i) r.1 ((bs.drop (pageBytes * i)).take pageBytes) r.2) s

/-! Reading (R326, R327, R330). -/

/-- Retry steps that a class may take (R326, R335). -/
def retrySteps (s : State) (j : Nat) (be : Bool) : Nat :=
  if be then s.get (SILO_RETRY_BE_STEPS j) else min 8 (s.get (SILO_RETRY_LC_STEPS j))

/-- Reads one mapped page: whether it yields its content, with the counters and the queue for rewrite (R326, R327, R330). -/
def readPage (lp : Nat) (be : Bool) (r : PageRead) (s : State) : Bool × State :=
  let l := Tab.get (fun _ => 0) s.silo.loc lp - 1
  let ch := locCh l
  let j := sdOf ch
  let band := locBand s l
  let b := (Tab.get (fun _ => []) s.silo.bands band).getD ch (2 ^ 24)
  let x := getBlk s ch b
  let t := setFblk ch b { x with reads := x.reads + 1 } s
  let t := (t.count (SILO_RD_BYTES_COUNT j) pageBytes).count (SILO_LDPC_CORR_COUNT j) r.corrected
  let lost := chState s ch == chFailed
  let steps := retrySteps s j be
  let hit := if lost then none else r.good.find? (fun g => decide (g ≤ steps))
  let hard := fun (u : State) =>
    if u.silo.rewrite.contains (band, ch) || lost then u
    else { u with silo := { u.silo with rewrite := u.silo.rewrite ++ [(band, ch)] } }
  match hit with
  | some 0 => (true, t)
  | some _ => (true, hard (t.count (SILO_RETRIES_COUNT j) 1))
  | none =>
    let others := (failedChs s).filter (fun c => c != ch)
    if r.stripe && others.isEmpty then (true, hard (t.count (SILO_REBUILDS_COUNT j) 1))
    else (false, (siloLast j cSiloUncorr ch (lp / 4) t).raise (SILO_IRQ_UNCORR j))

/-! Housekeeping (R326 to R328). -/

/-- Logical pages that lie in a band on a channel. -/
def pagesIn (s : State) (band ch : Nat) : List Nat :=
  (s.silo.loc.filter (fun e => locBand s (e.2 - 1) == band && locCh (e.2 - 1) == ch)).map (fun e => e.1)

/-- Rewrites valid pages out of place, with their map update (R327). -/
def movePages (lps : List Nat) (s : State) : State :=
  closeStripe (lps.foldl (fun t lp =>
    let r := placePage t
    mapPage lp r.1 (pageData t lp) r.2) s)

/-- READ_DISTURB_REWRITE (R326, R327): the valid pages of an erase block past THRESH, or of one queued for rewrite, move. -/
def readDisturb (band ch : Nat) (s : State) : State :=
  let b := (Tab.get (fun _ => []) s.silo.bands band).getD ch (2 ^ 24)
  let x := getBlk s ch b
  let due := decide (max 1 (s.get (SILO_RD_THRESH (sdOf ch))) < x.reads) || s.silo.rewrite.contains (band, ch)
  if !due || siloFull s then s
  else
    let t := movePages (pagesIn s band ch) s
    setFblk ch b { getBlk t ch b with reads := 0 }
      { t with silo := { t.silo with rewrite := t.silo.rewrite.filter (fun q => q != (band, ch)) } }

def execReadDisturbRewrite (band : Nat) (ch : Fin 32) (s : State) : Host.Outcome State Fault Refusal :=
  .next (s.live (readDisturb band ch))

/-- Erase-count extremes of a channel among blocks in service. -/
def eraseMax (s : State) (c : Nat) : Nat :=
  ((List.range s.silo.nblk).filter (fun b => !(getBlk s c b).bad)).foldl (fun m b => max m (getBlk s c b).erases) 0

/-- WEAR_LEVEL (R328): the data of the less-worn of two blocks of a channel more than DELTA apart moves. -/
def wearLevel (band ch : Nat) (s : State) : State :=
  let b := (Tab.get (fun _ => []) s.silo.bands band).getD ch (2 ^ 24)
  let x := getBlk s ch b
  if x.used && decide (x.erases + max 10 (s.get (SILO_WEAR_DELTA (sdOf ch))) < eraseMax s ch) && !siloFull s then
    movePages (pagesIn s band ch) s
  else s

def execWearLevel (band : Nat) (ch : Fin 32) (s : State) : Host.Outcome State Fault Refusal := .next (s.live (wearLevel band ch))

/-- BLOCK_ERASE (R328): an erase block of a band that holds no valid page is erased and free, or is retired where its erase
fails. -/
def blockErase (band ch : Nat) (ok : Bool) (s : State) : State :=
  let bs := Tab.get (fun _ => []) s.silo.bands band
  let b := bs.getD ch (2 ^ 24)
  let openHere := match s.silo.opn with | some o => o.band == band | none => false
  let nextHere := match s.silo.next with | some q => q.1 == band && decide (q.2 < s.silo.ppb) | none => false
  if b = 2 ^ 24 || !(pagesIn s band ch).isEmpty || openHere || nextHere then s
  else
    let t := { s with silo := { s.silo with bands := Tab.set (fun _ => []) s.silo.bands band (bs.set ch (2 ^ 24)) } }
    if ok then
      let x := getBlk t ch b
      let t := setFblk ch b { x with erases := x.erases + 1, reads := 0, used := false } t
      let f := SILO_CH_MAX_ERASE (sdOf ch) (ch % 16)
      showSpare ch (t.set f (max (t.get f) (x.erases + 1)))
    else retireBlk ch b t

def execBlockErase (band : Nat) (ch : Fin 32) (ok : Bool) (s : State) : Host.Outcome State Fault Refusal :=
  .next (s.live (blockErase band ch ok))

/-! Bring-up of the Silo (R320, R322). -/

/-- LOGICAL_UNITS of R322; OP_PCT 12 means 12.5 %. -/
def logicalUnits (rawGb opPct : Nat) : Nat :=
  let raw := rawGb * 10 ^ 9
  let op := if opPct = 12 then 125 else opPct * 10
  (raw * 31 * (1000 - op) * 8 - raw * 1000) / (32 * 1000 * 8 * 65536)

/-- The check of R320 at bring-up. -/
def siloProbe (ps : List ChanProbe) (s : State) : State :=
  let good := ps.filter (fun p => p.pass)
  let geom := fun (p : ChanProbe) => (p.targets, p.blocks, p.pages)
  let equal := good.all (fun p => good.all (fun q => geom p == geom q))
  let g := good.headD ⟨false, 0, 0, 0, 0⟩
  if good.length < 31 || !equal then
    siloLast 0 cSiloProfile 0 0 (((s.set (SILO_STATUS_READY 0) 0).set (SILO_STATUS_READY 1) 0))
  else
    let total := good.foldl (fun a p => a + p.rawGb) 0
    let raw := min 64000 total
    let units := logicalUnits raw (s.get (SILO_OP_OP_PCT 0))
    let t := { s with silo := { s.silo with nblk := g.blocks, ppb := g.pages } }
    let t := (List.range 2).foldl (fun u j =>
      ((((u.set (SILO_STATUS_READY j) 1).set (SILO_STATUS_EXCESS j) (ofBool (decide (64000 < total)))).set
        (SILO_GEOM_TARGETS j) g.targets).set (SILO_GEOM_RAW_GB j) total).set (SILO_LOGICAL_UNITS j) units) t
    ps.zipIdx.foldl (fun u p =>
      if p.1.pass then u.set (SILO_CH_STATE (sdOf p.2) (p.2 % 16)) chActive else failChannel p.2 u) t

/-- Whether the Silo can serve (R320, R431). -/
def siloReady (s : State) : Bool :=
  s.flag (SILO_STATUS_READY 0) && !s.dieFenced 36 && !s.dieFenced 37

end Sys2Proof.Machine
end

