-- ==== Sys2Proof/Machine/Tier.lean ====
section
/-!
DEFINITION. The tier engines (11_bulk_memory_tiers): blocks and handles (R301 to R303), tier commands (R304 to R308),
quotas (R309), fetch slots (R331), page reads and programs (R325, R326), and completion (R315).
-/
namespace Sys2Proof.Machine

/-! Codes (R316). -/
def cTierDesc : Nat := 0x0603
def cTierHandle : Nat := 0x0604
def cTierState : Nat := 0x0605
def cTierFrames : Nat := 0x0606
def cQuotaHbm : Nat := 0x0607
def cQuotaSilo : Nat := 0x0608
def cTierPinned : Nat := 0x0609
def cTierSilo : Nat := 0x060A
def cTierTag : Nat := 0x060B
def cTierFlushed : Nat := 0x060C
def cLoadNoKey : Nat := 0x0618
def cSecTagEvent : Nat := 0x0807

/-- Registers of ring `n` of tier engine `k` (R318). -/
def tierRing (k n : Nat) : RingRegs :=
  { en := TIER_PLOT_EN k n, size := TIER_RING_SIZE_ENTRIES k n, base := TIER_RING_BASE_BASE k n, head := TIER_HEAD_HEAD k n,
    tail := TIER_TAIL_TAIL k n, full := TIER_IRQ_RING_FULL k, lastCode := TIER_LAST_CODE k, lastRing := TIER_LAST_RING k,
    ring := n, code := cTierDesc }

/-- TIER_TAIL_WRITE (R123, R304). -/
def tierTailWrite (k n : Nat) (v : Word) (s : State) : State := tailWrite (tierRing k n) v s

def execTierTailWrite (k : Fin 4) (n : Fin 16) (v : Word) (s : State) : Host.Outcome State Fault Refusal :=
  .next (s.live (tierTailWrite k n v))

/-- Consumer of a tier command's traffic (R310). -/
def tierCons (k : Nat) (be : Bool) : Nat := 16 + 2 * k + ofBool be

/-- What ring `n` of engine `k` acts as. -/
def tierWho (k n : Nat) (s : State) : Who :=
  { k := k, key := s.get (TIER_PLOT_PKEY k n), cons := some (tierCons k (s.flag (TIER_PLOT_CLASS k n))) }

/-! Descriptors (R304). -/

def tdOp (d : List Nat) : Nat := dw d 0 4 4
def tdTenant (d : List Nat) : Nat := dw d 0 8 13
def tdBkind (d : List Nat) : Nat := dw d 0 21 3
def tdLen (d : List Nat) : Nat := dw d 0 24 16
def tdHandle (d : List Nat) : Nat := dw d 1 0 32
def tdUnit0 (d : List Nat) : Nat := dw d 2 0 16
def tdUnits (d : List Nat) : Nat := dw d 2 16 16
def tdOff (d : List Nat) : Nat := dw d 3 0 46
def tdCompl (d : List Nat) : Nat := dw d 4 0 64
def tdDone (d : List Nat) : DoneF := doneOf (d.getD 5 0)
def tdJobId (d : List Nat) : Nat := dw d 5 26 16

/-- The seven commands. -/
def opAlloc : Nat := 1
def opFree : Nat := 2
def opFetch : Nat := 3
def opWriteback : Nat := 4
def opEvict : Nat := 5
def opPin : Nat := 6
def opUnpin : Nat := 7

/-- Kinds of block (R302). -/
def bkWeight : Nat := 0
def bkScratch : Nat := 3

/-- Whether a descriptor is well formed (R304). -/
def tierDescOk (d : List Nat) (s : State) : Bool :=
  let op := tdOp d
  onlyBits d [bitMask 0 39, bitMask 0 31, bitMask 0 31, bitMask 0 45, allBits, bitMask 0 41, 0, 0, 0, 0, 0, 0, 0, 0, 0, 0] &&
    dw d 0 0 4 == 8 && decide (1 ≤ op) && decide (op ≤ 7) &&
    (op != opAlloc || (decide (1 ≤ tdBkind d) && decide (tdBkind d ≤ 3) && decide (1 ≤ tdLen d))) &&
    gaNode (tdCompl d) == s.node && (tdDone d).ok s

/-! The block table (R302). -/

/-- A block-table entry. -/
structure Blk where
  st : Nat := 0
  busy : Bool := false
  kind : Nat := 0
  ro : Bool := false
  tenant : Nat := 0
  gen : Nat := 0
  len : Nat := 0
  pins : Nat := 0
  off : Nat := 0
  lu : Nat := 0
  last : Nat := 0
deriving DecidableEq, Repr

/-- STATE values of a block. -/
def bUnused : Nat := 0
def bAbsent : Nat := 1
def bFetching : Nat := 2
def bResident : Nat := 3
def bEvicting : Nat := 4

/-- HBM offset of entry `i`. -/
def btAddr (s : State) (i : Nat) : Nat := s.get (TIER_BT_BASE_BASE 0) * 64 + 64 * i

/-- Entry `i` of the block table. -/
def blkAt (s : State) (i : Nat) : Blk :=
  let w0 := s.readLE (btAddr s i) 8
  { st := bitsOf w0 0 3, busy := bitOf w0 3, kind := bitsOf w0 4 3, ro := bitOf w0 7, tenant := bitsOf w0 8 13,
    gen := bitsOf w0 21 12, len := bitsOf w0 33 16, pins := bitsOf w0 49 15,
    off := bitsOf (s.readLE (btAddr s i + 8) 8) 0 46, lu := bitsOf (s.readLE (btAddr s i + 16) 8) 0 32,
    last := bitsOf (s.readLE (btAddr s i + 24) 8) 0 16 }

/-- Words of an entry. -/
def Blk.words (b : Blk) : List Nat :=
  [b.st + ofBool b.busy * 2 ^ 3 + b.kind * 2 ^ 4 + ofBool b.ro * 2 ^ 7 + b.tenant * 2 ^ 8 + b.gen * 2 ^ 21 + b.len * 2 ^ 33 +
    b.pins * 2 ^ 49, b.off, b.lu, b.last, 0, 0, 0, 0]

/-- Writes entry `i` for a consumer (R310); the table is the engines' own, outside every window. -/
def putBlk (cons i : Nat) (b : Blk) (s : State) : State := memWrite (some cons) (btAddr s i) (bytesOfWords b.words) s

/-- The read of entry `i` that starts a command on its block (R296, R310). -/
def btRead (cons i : Nat) (s : State) : State := noteRead (some cons) (btAddr s i) 64 (hbmFind (btAddr s i) 64 s)

/-- Whether the table's stack is fenced or an entry holds a word that cannot be read (R296, R431). -/
def btDead (s : State) (i : Nat) : Bool :=
  s.dieFenced (20 + stackOf (btAddr s i)) || s.anyPoison (btAddr s i) 64

/-- Handle of an entry (R301). -/
def handleOf (i gen : Nat) : Nat := i + gen * 2 ^ 20

/-- The lowest UNUSED INDEX of engine `k`, from one on. -/
def unusedFrom (s : State) (size : Nat) : Nat → Nat → Option Nat
  | 0, _ => none
  | f + 1, i => if size ≤ i then none else if (blkAt s i).st = bUnused then some i else unusedFrom s size f (i + 4)

/-- The lowest UNUSED INDEX with INDEX mod 4 = k (R305). -/
def unusedIndex (s : State) (k : Nat) : Option Nat :=
  let n := s.get (TIER_BT_SIZE_ENTRIES k)
  unusedFrom s n (n / 4 + 1) k

/-! Frames (R298, R303). -/

/-- Frames that a block of LEN units takes. -/
def frameCount (len : Nat) : Nat := ceilDiv len 32

/-- The frames of a block, as stack and index. -/
def blkFrames (off len : Nat) : List (Nat × Nat) :=
  (List.range (frameCount len)).map (fun i => (stackOf off, frameOf off + i))

/-- Whether a block may be placed at an offset: aligned, within one stack of engine `k`, every frame VACANT in its tier
region (R303). -/
def framesFree (s : State) (k off len : Nat) : Bool :=
  off % frameSize == 0 && stackOf off / 2 == k && inHbm off 1 &&
    (blkFrames off len).all (fun f =>
      let i := stackOf off % 2
      decide (s.get (TIER_REGION_FIRST k i) ≤ f.2) &&
        decide (f.2 < s.get (TIER_REGION_FIRST k i) + s.get (TIER_REGION_COUNT k i)) && decide (f.2 < 32768) &&
        s.get (HBM_FRAME_A_STATE f.1 f.2) == fVacant)

/-- Sets the state of a block's frames; the block's INDEX and RO stand in them while they are not VACANT. -/
def setFrames (i : Nat) (b : Blk) (st : Nat) (s : State) : State :=
  (blkFrames b.off b.len).foldl (fun t f =>
    let u := t.set (HBM_FRAME_A_STATE f.1 f.2) st
    if st = fVacant then ((u.set (HBM_FRAME_A_BLOCK f.1 f.2) 0).set (HBM_FRAME_A_RO f.1 f.2) 0).set (HBM_FRAME_A_DIRTY f.1 f.2) 0
    else (u.set (HBM_FRAME_A_BLOCK f.1 f.2) i).set (HBM_FRAME_A_RO f.1 f.2) (ofBool b.ro)) s

/-- Zeroes a range of memory whose lines are whole, which clears its poison (R296). -/
def zeroRange (a n : Nat) (s : State) : State :=
  let t := (s.poison.filter (fun p => decide (a ≤ 8 * p.1) && decide (8 * p.1 < a + n))).foldl (fun u p => cleanWord (8 * p.1) u) s
  (dropFlips a n t).fillRange a n 0

/-- Zeroes a block's frames. -/
def zeroFrames (b : Blk) (s : State) : State := zeroRange b.off (frameCount b.len * frameSize) s

/-- DIRTY bit of unit `u` of a block. -/
def dirtyFld (b : Blk) (u : Nat) : Fld := HBM_FRAME_A_DIRTY (stackOf b.off) (frameOf b.off + u / 32)
def isDirty (s : State) (b : Blk) (u : Nat) : Bool := (s.get (dirtyFld b u)).testBit (u % 32)
def setDirty (b : Blk) (u : Nat) (on : Bool) (s : State) : State :=
  let w := s.get (dirtyFld b u)
  if w.testBit (u % 32) = on then s else s.set (dirtyFld b u) (w ^^^ 2 ^ (u % 32))

/-! Quotas (R309), held in engine 0. -/

/-- Charges or credits a block's frames: WEIGHT frames are counted in TIER_MODEL_FRAMES. -/
def chargeFrames (k : Nat) (b : Blk) (s : State) : State :=
  if b.kind = bkWeight then s.count (TIER_MODEL_FRAMES_COUNT k) (frameCount b.len)
  else s.count (TIER_QUOTA_A_HBM_USED 0 b.tenant) (frameCount b.len)
def creditFrames (k : Nat) (b : Blk) (s : State) : State :=
  if b.kind = bkWeight then s.set (TIER_MODEL_FRAMES_COUNT k) (s.get (TIER_MODEL_FRAMES_COUNT k) - frameCount b.len)
  else s.set (TIER_QUOTA_A_HBM_USED 0 b.tenant) (s.get (TIER_QUOTA_A_HBM_USED 0 b.tenant) - frameCount b.len)

/-- Whether a tenant's HBM limit has no room for a block. -/
def overHbm (s : State) (b : Blk) : Bool :=
  b.kind != bkWeight && decide (s.get (TIER_QUOTA_A_HBM_LIMIT 0 b.tenant) < s.get (TIER_QUOTA_A_HBM_USED 0 b.tenant) + frameCount b.len)

/-- Silo quota units of a length. -/
def siloQuota (len : Nat) : Nat := ceilDiv len 4096

/-- Takes one unit from a tenant's fetch budget: none where the tenant must wait. -/
def takeBudget (tn : Nat) (s : State) : Option State :=
  if s.get (TIER_FB_RATE 0 tn) = 0 then some s
  else if s.get (TIER_FB_LEVEL 0 tn) = 0 then none
  else some (s.set (TIER_FB_LEVEL 0 tn) (s.get (TIER_FB_LEVEL 0 tn) - 1))

/-! Commands in progress. -/

/-- Whether a command of a ring is in progress. -/
def tierCmd (s : State) (k n : Nat) : Option TierCmd := s.tiers.find? (fun c => c.k == k && c.ring == n)

/-- Shows the commands in progress of an engine (R318). -/
def tierShow (k : Nat) (s : State) : State :=
  let cs := s.tiers.filter (fun c => c.k == k)
  (s.set (TIER_STATUS_ACTIVE k) cs.length).set (TIER_STATUS_LC k)
    (ofBool (cs.any (fun c => !c.be && (!c.todo.isEmpty || !c.buf.isEmpty))))

/-- Replaces a command in progress. -/
def putTier (c : TierCmd) (s : State) : State :=
  tierShow c.k { s with tiers := s.tiers.map (fun d => if d.k == c.k && d.ring == c.ring then c else d) }

/-- A command's completion record (R315). -/
def tierRecord (c : TierCmd) (status : Nat) : List Nat :=
  [status + tdJobId c.words * 2 ^ 16 + tdOp c.words * 2 ^ 32 + c.k * 2 ^ 36,
   c.handle + c.units * 2 ^ 32 + c.retries * 2 ^ 48, c.bytes, c.rc, c.stallFb, c.stallDrain, 0, 0]

/-- Tells software of a command's end, whatever its status: the record where COMPL_ADDR names this node, then DONE, then the interrupt and
TIER_LAST (R315, R318; log entry 15). -/
def tierTell (c : TierCmd) (status cause : Nat) (s : State) : State :=
  let t := if gaNode (tdCompl c.words) = s.node then writeWords (tierWho c.k c.ring s) (tdCompl c.words) (tierRecord c status) s else s
  let t := (tdDone c.words).run t
  if status = 0 then t.raise (TIER_IRQ_JOB_DONE c.k)
  else
    ((((((t.set (TIER_LAST_CODE c.k) status).set (TIER_LAST_CAUSE c.k) cause).set (TIER_LAST_RING c.k) c.ring).set
      (TIER_LAST_JOB_ID c.k) (tdJobId c.words)).set (TIER_LAST_HANDLE_HANDLE c.k) c.handle).raise (TIER_IRQ_JOB_FAIL c.k))

/-- Ends a command: its slot is free again and HEAD passes it. -/
def tierEnd (c : TierCmd) (status cause : Nat) (s : State) : State :=
  let t := tierTell c status cause s
  let t := match c.slot with
    | some i => t.set (SILO_SLOTS_BUSY 0) (t.get (SILO_SLOTS_BUSY 0) &&& (2 ^ 32 - 1 - 2 ^ i))
    | none => t
  let t := { t with tiers := t.tiers.filter (fun d => !(d.k == c.k && d.ring == c.ring)) }
  let t := tierShow c.k (t.setWord (TIER_RSTAT_ACTIVE c.k c.ring).addr 0)
  match c.flushTo with
  | some h => t.set (TIER_HEAD_HEAD c.k c.ring) h
  | none => ringAdvance (tierRing c.k c.ring) t

/-- A command that a block refuses: LAST records it. -/
def tierRefuse (c : TierCmd) (b : Blk) (status cause : Nat) (s : State) : State :=
  tierEnd c status cause (putBlk (tierCons c.k c.be) c.index { b with last := status } s)

/-- A started command's block becomes BUSY. -/
def tierBegin (c : TierCmd) (b : Blk) (s : State) : State :=
  let t := putBlk (tierCons c.k c.be) c.index { b with busy := true } { s with tiers := s.tiers ++ [c] }
  tierShow c.k (t.setWord (TIER_RSTAT_ACTIVE c.k c.ring).addr (BitVec.ofNat 64 (1 + tdJobId c.words * 2 ^ 16)))

/-- The CAUSE of a TIER_SILO failure for want of the Silo: why it is not enabled (R320). -/
def siloCause (s : State) : Nat := if s.flag (SILO_STATUS_READY 0) then 0 else cSiloProfile

/-- Whether a block's stack is fenced (R431). -/
def blkFenced (s : State) (b : Blk) : Bool := s.dieFenced (20 + stackOf b.off)

/-! ALLOC, FREE, PIN, UNPIN (R305). -/

/-- ALLOC: order of checks free entry, then frames or Silo, then quota (log entry 29). -/
def tierAlloc (c : TierCmd) (s : State) : State :=
  let d := c.words
  match unusedIndex s c.k with
  | none => tierEnd c cTierState 0 s
  | some i =>
    let s := btRead (tierCons c.k c.be) i s
    let e := blkAt s i
    let b : Blk := { st := bAbsent, kind := tdBkind d, tenant := tdTenant d, gen := e.gen, len := tdLen d }
    let h := { c with index := i, handle := handleOf i e.gen }
    if btDead s i then tierEnd c cMemUncorr 0 s
    else if tdBkind d = bkScratch then
      let b := { b with st := bResident, off := tdOff d }
      if !framesFree s c.k b.off b.len then tierEnd c cTierFrames 0 s
      else if blkFenced s b then tierEnd c cMemUncorr 0 s
      else if overHbm s b then tierEnd c cQuotaHbm 0 s
      else tierEnd h 0 0 (putBlk (tierCons c.k c.be) i b (chargeFrames c.k b (zeroFrames b (setFrames i b fResident s))))
    else if s.get (TIER_QUOTA_B_SILO_LIMIT 0 b.tenant) < s.get (TIER_QUOTA_B_SILO_USED 0 b.tenant) + siloQuota b.len then
      tierEnd c cQuotaSilo 0 s
    else if !siloReady s then tierEnd c cTierSilo (siloCause s) s
    else
      match fitExtent s false b.len with
      | none => tierEnd c cTierSilo cSiloExtent (siloLast 0 cSiloExtent 0 0 s)
      | some lu =>
        let t := s.count (TIER_QUOTA_B_SILO_USED 0 b.tenant) (siloQuota b.len)
        tierEnd h 0 0 (putBlk (tierCons c.k c.be) i { b with lu := lu } { t with silo := { t.silo with extents := t.silo.extents ++ [(lu, b.len)] } })

/-- Releases a block: frames, quotas, extent and entry; GEN advances (R305). -/
def releaseBlk (cons k i : Nat) (b : Blk) (keep : Bool) (s : State) : State :=
  let t := if b.st = bResident then creditFrames k b (setFrames i b fVacant s) else s
  let t := if b.kind = bkScratch then t
    else
      let u := if keep then t else freeExtent b.lu b.len t
      if b.kind = bkWeight then u
      else u.set (TIER_QUOTA_B_SILO_USED 0 b.tenant) (u.get (TIER_QUOTA_B_SILO_USED 0 b.tenant) - siloQuota b.len)
  putBlk cons i { gen := (b.gen + 1) % 4096 } t

/-- Whether an access of a block's frames is in flight (R299, R308). -/
def blkBusy (s : State) (b : Blk) : Bool := (blkFrames b.off b.len).any (fun f => inflight s f.1 f.2 != 0)

/-- A block's frames drain: EVICT_DRAIN_DONE ends the wait (R308). -/
def tierDrain (c : TierCmd) (b : Blk) (s : State) : State :=
  tierBegin { c with drain := true } { b with st := bEvicting } (setFrames c.index b fEvicting s)

/-- FREE: a RESIDENT block with accesses in flight drains first (R305, R308). -/
def tierFree (c : TierCmd) (b : Blk) (s : State) : State :=
  if b.busy || (b.st != bAbsent && b.st != bResident) then tierEnd c cTierState 0 s
  else if b.st = bResident && b.pins != 0 then tierRefuse c b cTierPinned 0 s
  else if b.st = bResident && blkFenced s b then tierRefuse c b cMemUncorr 0 s
  else if b.st = bResident && blkBusy s b then tierDrain c b s
  else tierEnd c 0 0 (releaseBlk (tierCons c.k c.be) c.k c.index b false s)

/-- PIN and UNPIN; a PIN of a full count is refused as a state (log entry 29). -/
def tierPin (up : Bool) (c : TierCmd) (b : Blk) (s : State) : State :=
  if b.busy || b.st != bResident || (if up then b.pins == 32767 else b.pins == 0) then tierEnd c cTierState 0 s
  else tierEnd c 0 0 (putBlk (tierCons c.k c.be) c.index { b with pins := if up then b.pins + 1 else b.pins - 1 } s)

/-! FETCH. -/

/-- The units that a FETCH or WRITEBACK names: first and count; none where they leave the block (R304). -/
def namedUnits (d : List Nat) (len : Nat) : Option (Nat × Nat) :=
  let n := if tdUnits d = 0 then len - tdUnit0 d else tdUnits d
  if tdUnit0 d < len && decide (tdUnit0 d + n ≤ len) then some (tdUnit0 d, n) else none

/-- Widened to whole shards (R346). -/
def wholeShards (len u n : Nat) : Nat × Nat :=
  let a := u / 16 * 16
  let z := min len (ceilDiv (u + n) 16 * 16)
  (a, z - a)

/-- A FETCH ends well (R305). -/
def fetchDone (c : TierCmd) (s : State) : State :=
  let b := blkAt s c.index
  let t := (blkFrames b.off b.len).foldl (fun u f => u.set (HBM_FRAME_A_DIRTY f.1 f.2) 0) (setFrames c.index b fResident s)
  tierEnd c 0 0 (putBlk (tierCons c.k c.be) c.index { b with st := bResident, busy := false } t)

/-- A FETCH fails: its frames are VACANT, its quota is credited and the block is ABSENT (R305). -/
def fetchFail (c : TierCmd) (status cause : Nat) (s : State) : State :=
  let b := blkAt s c.index
  let t := creditFrames c.k b (setFrames c.index b fVacant s)
  tierEnd c status cause (putBlk (tierCons c.k c.be) c.index { b with st := bAbsent, off := 0, busy := false, last := status } t)

/-- Whether a word of a range is poisoned. -/
def poisonIn (a n : Nat) (s : State) : Bool := s.poison.any (fun p => p.2 && decide (a ≤ 8 * p.1) && decide (8 * p.1 < a + n))

/-- The units that a FETCH names, whole shards of a WEIGHT block (R304, R346). -/
def fetchUnits (d : List Nat) (b : Blk) : Option (Nat × Nat) :=
  (namedUnits d b.len).map (fun r => if b.kind = bkWeight then wholeShards b.len r.1 r.2 else r)

/-- The last unit of a FETCH has landed: a word of the units named that has turned uncorrectable meanwhile fails it (R314). -/
def fetchEnd (c : TierCmd) (s : State) : State :=
  let b := blkAt s c.index
  let r := (fetchUnits c.words b).getD (0, 0)
  if poisonIn (b.off + r.1 * unitBytes) (r.2 * unitBytes) s then fetchFail c cMemUncorr 0 s else fetchDone c s

/-- FETCH starts (R303, R305, R309, R346). -/
def tierFetch (c : TierCmd) (b : Blk) (s : State) : State :=
  let d := c.words
  if b.busy || b.st != bAbsent then tierEnd c cTierState 0 s
  else
    match fetchUnits d b with
    | none => tierRefuse c b cTierDesc 0 s
    | some r =>
      let todo := ((List.range r.2).map (fun i => r.1 + i)).filter (fun i => mapped s (4 * (b.lu + i)))
      let f := { b with st := bFetching, off := tdOff d }
      if !framesFree s c.k f.off f.len then tierRefuse c b cTierFrames 0 s
      else if blkFenced s f then tierRefuse c b cMemUncorr 0 s
      else if overHbm s f then tierRefuse c b cQuotaHbm 0 s
      else if b.kind = bkWeight && s.model.key.isNone then tierRefuse c b cTierTag cLoadNoKey s
      else if !todo.isEmpty && !siloReady s then tierRefuse c b cTierSilo (siloCause s) s
      else
        let e := { c with todo := todo, needSilo := !todo.isEmpty }
        let t := tierBegin e f (chargeFrames c.k f (zeroFrames f (setFrames c.index f fFetching s)))
        if todo.isEmpty then fetchDone e t else t

/-! WRITEBACK and EVICT. -/

/-- A WRITEBACK or EVICT ends well (R308). -/
def writeDone (c : TierCmd) (s : State) : State :=
  let b := blkAt s c.index
  if tdOp c.words = opEvict then
    let t := creditFrames c.k b (setFrames c.index b fVacant s)
    tierEnd c 0 0 ((putBlk (tierCons c.k c.be) c.index { b with st := bAbsent, off := 0, busy := false } t).count (TIER_EVICTS_COUNT c.k) 1)
  else tierEnd c 0 0 (putBlk (tierCons c.k c.be) c.index { b with busy := false } s)

/-- Units reported written: their pages are mapped in the same step (R325). -/
def reportUnit (c : TierCmd) (b : Blk) (u : Nat) (bs : List Byte) (s : State) : TierCmd × State :=
  let t := (List.range 4).foldl (fun t i =>
    let lp := 4 * (b.lu + u) + i
    let l := match c.progs.find? (fun p => p.1 == lp) with | some p => p.2 | none => 0
    mapPage lp l ((bs.drop (pageBytes * i)).take pageBytes) t) s
  ({ c with units := c.units + 1, bytes := c.bytes + unitBytes, buf := c.buf.filter (fun p => p.1 != u),
            progs := c.progs.filter (fun p => p.1 / 4 != b.lu + u) },
   t.count (TIER_WB_BYTES_COUNT c.k) unitBytes)

/-- Whether every page of a unit lies in a closed stripe. -/
def unitClosed (c : TierCmd) (b : Blk) (u : Nat) (s : State) : Bool :=
  let ps := c.progs.filter (fun p => p.1 / 4 == b.lu + u)
  ps.length == 4 && ps.all (fun p => stripeClosed s p.2)

/-- A WRITEBACK or EVICT fails: units reported written stand, every other unit is DIRTY again, and an evicted block is
RESIDENT again (R307, R308). The command's open stripe closes first where the Silo can still program (R325). -/
def writeFail (c : TierCmd) (status cause : Nat) (s : State) : State :=
  let b := blkAt s c.index
  let t := if siloFull s || !siloReady s then s else if c.buf.isEmpty then s else closeStripe s
  let r := c.buf.foldl (fun (q : TierCmd × State) u =>
    if unitClosed q.1 b u.1 q.2 then reportUnit q.1 b u.1 u.2 q.2 else (q.1, setDirty b u.1 true q.2)) (c, t)
  let t := if tdOp c.words = opEvict then setFrames c.index b fResident r.2 else r.2
  tierEnd r.1 status cause (putBlk (tierCons c.k c.be) c.index { b with st := bResident, busy := false, last := status } t)

/-- The dirty units of a block within a range, ascending. -/
def dirtyUnits (s : State) (b : Blk) (u n : Nat) : List Nat :=
  if b.ro then [] else ((List.range n).map (fun i => u + i)).filter (isDirty s b)

/-- WRITEBACK starts (R307). -/
def tierWriteback (c : TierCmd) (b : Blk) (s : State) : State :=
  if b.busy || b.st != bResident || b.kind = bkScratch then tierEnd c cTierState 0 s
  else
    match namedUnits c.words b.len with
    | none => tierRefuse c b cTierDesc 0 s
    | some (u, n) =>
      let todo := dirtyUnits s b u n
      if blkFenced s b then tierRefuse c b cMemUncorr 0 s
      else if !todo.isEmpty && !siloReady s then tierRefuse c b cTierSilo (siloCause s) s
      else
        let e := { c with todo := todo, needSilo := !todo.isEmpty }
        let t := tierBegin e b s
        if todo.isEmpty then writeDone e t else t

/-- EVICT starts: block and frames become EVICTING in one rc (R308). -/
def tierEvict (c : TierCmd) (b : Blk) (s : State) : State :=
  if b.busy || b.st != bResident || b.kind = bkScratch then tierEnd c cTierState 0 s
  else if b.pins ≠ 0 then tierRefuse c b cTierPinned 0 s
  else if blkFenced s b then tierRefuse c b cMemUncorr 0 s
  else tierDrain c b s

/-- EVICT_DRAIN_DONE (R308), with the rc waited on INFLIGHT; a FREE's block is then released without write-back (R305). -/
def evictDrainDone (k n stall : Nat) (s : State) : State :=
  match tierCmd s k n with
  | none => s
  | some c =>
    let b := blkAt s c.index
    if !c.drain || blkBusy s b then s
    else if tdOp c.words = opFree then
      tierEnd { c with stallDrain := stall } 0 0 (releaseBlk (tierCons c.k c.be) c.k c.index { b with st := bResident } false s)
    else
      let todo := dirtyUnits s b 0 b.len
      let e := { c with drain := false, todo := todo, needSilo := !todo.isEmpty, stallDrain := stall }
      let t := putTier e s
      if todo.isEmpty then writeDone e t
      else if !siloReady s then writeFail e cTierSilo (siloCause s) t
      else t

def execEvictDrainDone (k : Fin 4) (n : Fin 16) (stall : Nat) (s : State) : Host.Outcome State Fault Refusal :=
  .next (s.live (evictDrainDone k n stall))

/-! Starting a command. -/

/-- Runs the command of ring `n` (R301, R304, R305). -/
def tierRun (k n : Nat) (d : List Nat) (s : State) : State :=
  let h := if tdOp d = opAlloc then 0 else tdHandle d
  let c : TierCmd := { k := k, ring := n, words := d, be := s.flag (TIER_PLOT_CLASS k n), handle := h, index := tdHandle d % 2 ^ 20 }
  if !tierDescOk d s then tierEnd c cTierDesc 0 s
  else if tdOp d = opAlloc then tierAlloc c s
  else if c.index % 4 != k || decide (s.get (TIER_BT_SIZE_ENTRIES k) ≤ c.index) then tierEnd c cTierHandle 0 s
  else
    let s := btRead (tierCons k c.be) c.index s
    let b := blkAt s c.index
    if btDead s c.index then tierEnd c cMemUncorr 0 s else
    if b.gen ≠ tdHandle d / 2 ^ 20 then tierEnd c cTierHandle 0 s
    else if b.kind ≠ bkWeight && b.tenant != tdTenant d then tierEnd c cTierDesc 0 s
    else
      let op := tdOp d
      if op = opFree then tierFree c b s
      else if op = opFetch then tierFetch c b s
      else if op = opWriteback then tierWriteback c b s
      else if op = opEvict then tierEvict c b s
      else tierPin (op == opPin) c b s

/-- The code of a descriptor that cannot be read: MEM_UNCORR for a word that is poisoned, TIER_DESC where the read is refused (R296; log
entry 15). -/
def unreadCode (k n i : Nat) (s : State) : Nat :=
  if (unitRead (tierWho k n s) (s.get (TIER_RING_BASE_BASE k n) * 128 + 128 * i) 128 s).1 = cMemUncorr then cMemUncorr else cTierDesc

/-- Records a descriptor that cannot be read. -/
def tierUnreadNote (k n i : Nat) (s : State) : State :=
  ((s.set (TIER_LAST_CODE k) (unreadCode k n i s)).set (TIER_LAST_RING k) n).raise (TIER_IRQ_JOB_FAIL k)

/-- A descriptor that cannot be read is passed. -/
def tierUnread (k n : Nat) (s : State) : State :=
  ringAdvance (tierRing k n) (tierUnreadNote k n (s.get (TIER_HEAD_HEAD k n)) s)

/-- The oldest command of ring `n` starts where it is of one OP; ALLOC stands also for a reserved OP and for a descriptor
that cannot be read. -/
def tierStart (op k n : Nat) (s : State) : State :=
  let r := tierRing k n
  if s.partFenced || !s.flag (TIER_CTRL_ENABLE k) || (tierCmd s k n).isSome || !ringHas r s then s
  else
    match readDescr (tierWho k n s) r (s.get r.head) s with
    | (none, t) => if op = opAlloc then tierUnread k n t else s
    | (some d, t) =>
      let o := tdOp d
      if o == op || (op == opAlloc && (o == 0 || decide (7 < o))) then tierRun k n d t else s

def execAlloc (k : Fin 4) (n : Fin 16) (s : State) : Host.Outcome State Fault Refusal := .next (s.live (tierStart opAlloc k n))
def execFree (k : Fin 4) (n : Fin 16) (s : State) : Host.Outcome State Fault Refusal := .next (s.live (tierStart opFree k n))
def execFetch (k : Fin 4) (n : Fin 16) (s : State) : Host.Outcome State Fault Refusal := .next (s.live (tierStart opFetch k n))
def execWriteback (k : Fin 4) (n : Fin 16) (s : State) : Host.Outcome State Fault Refusal :=
  .next (s.live (tierStart opWriteback k n))
def execEvict (k : Fin 4) (n : Fin 16) (s : State) : Host.Outcome State Fault Refusal := .next (s.live (tierStart opEvict k n))
def execPin (k : Fin 4) (n : Fin 16) (s : State) : Host.Outcome State Fault Refusal := .next (s.live (tierStart opPin k n))
def execUnpin (k : Fin 4) (n : Fin 16) (s : State) : Host.Outcome State Fault Refusal := .next (s.live (tierStart opUnpin k n))

/-- Completes the commands of a ring that have not started with TIER_FLUSHED, from entry `i` to TAIL. -/
def tierFlushFrom (k n : Nat) : Nat → Nat → State → State
  | 0, _, s => s
  | f + 1, i, s =>
    let r := tierRing k n
    if i = s.get r.tail then s
    else
      match readDescr (tierWho k n s) r i s with
      | (some d, t) =>
        let h := if tdOp d = opAlloc then 0 else tdHandle d
        tierFlushFrom k n f (ringNext r s i) (tierTell { k := k, ring := n, words := d, handle := h } cTierFlushed 0 t)
      | (none, t) =>
        tierFlushFrom k n f (ringNext r s i) (tierUnreadNote k n i t)

/-- TIER_FLUSH (R314, R318): a command in progress completes; what an earlier flush has completed is not completed again. -/
def tierFlush (k n : Nat) (s : State) : State :=
  let r := tierRing k n
  if s.partFenced || !ringHas r s then s
  else
    match tierCmd s k n with
    | some c =>
      putTier { c with flushTo := some (s.get r.tail) } (tierFlushFrom k n 4096 (c.flushTo.getD (ringNext r s (s.get r.head))) s)
    | none => (tierFlushFrom k n 4096 (s.get r.head) s).set r.head (s.get r.tail)

def execTierFlush (k : Fin 4) (n : Fin 16) (s : State) : Host.Outcome State Fault Refusal := .next (s.live (tierFlush k n))

/-! Fetch slots (R331). -/

/-- Whether a fetch slot is held. -/
def slotHeld (s : State) (i : Nat) : Bool := (s.get (SILO_SLOTS_BUSY 0)).testBit i

/-- The slot that a command would take: an LC FETCH first a reserved one, of which its tenant holds at most PER_TENANT. -/
def slotFor (s : State) (c : TierCmd) : Option Nat :=
  let n := s.get (SILO_LC_SLOTS_N 0)
  let tn := tdTenant c.words
  let held := (s.tiers.filter (fun d => tdTenant d.words == tn && (match d.slot with | some i => decide (i < n) | none => false))).length
  let res := if !c.be && tdOp c.words == opFetch && decide (held < max 1 (s.get (SILO_LC_SLOTS_PER_TENANT 0))) then
      (List.range n).find? (fun i => !slotHeld s i) else none
  match res with
  | some i => some i
  | none => ((List.range 32).filter (fun i => decide (n ≤ i))).find? (fun i => !slotHeld s i)

/-- The waiting commands in the order of R22 and R331: class, ring, engine. -/
def slotOrder (s : State) : List TierCmd :=
  [false, true].flatMap (fun be => (List.range 16).flatMap (fun n =>
    s.tiers.filter (fun c => c.be == be && c.ring == n && c.needSilo && c.slot.isNone && !c.drain)))

/-- SLOT_GRANT (R331): the first waiting command for which a slot is free takes it. -/
def slotGrant (s : State) : State :=
  if s.partFenced || !s.flag (SILO_CTRL_ENABLE 0) || !siloReady s then s
  else
    match (slotOrder s).find? (fun c => (slotFor s c).isSome) with
    | none => s
    | some c =>
      match slotFor s c with
      | none => s
      | some i =>
        putTier { c with slot := some i, ord := s.silo.grants }
          { s.set (SILO_SLOTS_BUSY 0) (s.get (SILO_SLOTS_BUSY 0) ||| 2 ^ i) with silo := { s.silo with grants := s.silo.grants + 1 } }

def execSlotGrant (s : State) : Host.Outcome State Fault Refusal := .next (s.live slotGrant)

/-- SILO_LC_LATE (R333): an LC FETCH with a slot is still running LIMIT_US after it was granted. -/
def siloLcLate (k n : Nat) (s : State) : State :=
  match tierCmd s k n with
  | some c =>
    if !c.be && tdOp c.words == opFetch && c.slot.isSome then
      siloWarn 0 cSiloLcLate 0 ((blkAt s c.index).lu + c.todo.headD 0) (SILO_IRQ_LC_LATE 0) s
    else s
  | none => s

def execSiloLcLate (k : Fin 4) (n : Fin 16) (s : State) : Host.Outcome State Fault Refusal := .next (s.live (siloLcLate k n))

/-! Whose page operation comes next (R304, R332). -/

/-- Whether a command has a page operation that may be issued: it holds a slot, and its tenant's budget has a unit for it. -/
def pageDue (s : State) (c : TierCmd) : Bool :=
  c.slot.isSome && !c.drain && !c.todo.isEmpty && (c.page != 0 || (takeBudget (tdTenant c.words) s).isSome)

/-- Ring that has taken a unit last on an engine, in a class; 15 for none yet. -/
def lastTurn (s : State) (k : Nat) (be : Bool) : Nat := (Tab.get (fun _ => 0) s.silo.turns (2 * k + ofBool be) + 15) % 16

/-- A ring has taken a unit. -/
def noteTurn (c : TierCmd) (s : State) : State :=
  { s with silo := { s.silo with turns := Tab.set (fun _ => 0) s.silo.turns (2 * c.k + ofBool c.be) ((c.ring + 1) % 16) } }

/-- The command whose unit engine `k` transfers: LC before BE, within a class the one whose unit is begun, else the next ring in turn
(R304). -/
def unitTurn (s : State) (k : Nat) : Option TierCmd :=
  let due := s.tiers.filter (fun c => c.k == k && pageDue s c)
  let be := due.all (fun c => c.be)
  let cs := due.filter (fun c => c.be == be)
  match cs.find? (fun c => c.page != 0) with
  | some c => some c
  | none => (turnFrom (lastTurn s k be)).findSome? (fun n => cs.find? (fun c => c.ring == n))

/-- The channel of a command's next page (R324, R326). -/
def pageChan (s : State) (c : TierCmd) : Nat :=
  if tdOp c.words = opFetch then
    locCh (Tab.get (fun _ => 0) s.silo.loc (4 * ((blkAt s c.index).lu + c.todo.headD 0) + c.page) - 1)
  else
    let r := getStripe s
    (dataChans r.2 (r.1.band * max 1 r.2.silo.ppb + r.1.page)).getD r.1.filled 0

/-- Whether `a`'s pages go before `b`'s on a channel: LC FETCH first, then by slot grant (R332). -/
def pageFirst (a b : TierCmd) : Bool :=
  let lc := fun (c : TierCmd) => !c.be && tdOp c.words == opFetch
  (lc a && !lc b) || (lc a == lc b && decide (a.ord < b.ord))

/-- Whether a command's next page operation is the one that its engine and its channel issue (R304, R332). -/
def pageTurn (s : State) (c : TierCmd) : Bool :=
  (match unitTurn s c.k with | some d => d.ring == c.ring | none => false) &&
    (List.range 4).all (fun k =>
      match unitTurn s k with
      | some d => k == c.k || pageChan s d != pageChan s c || !pageFirst d c
      | none => true)

/-! Shards (R338, R346, R464). -/

/-- Additional data of a shard (R338). -/
def shardAad (m : ModelState) (b j n : Nat) : List Byte :=
  (m.hdr.drop 16).take 8 ++ toBytes 4 b ++ toBytes 4 j ++ toBytes 4 n

/-- Nonce of a shard (R338), its twelve bytes as a number. -/
def shardNonce (m : ModelState) (b j : Nat) : Nat := ofBytes ((m.hdr.drop 24).take 4 ++ toBytes 4 b ++ toBytes 4 j)

/-- The plaintext of a shard whose tag checks; none where it fails or no key is held. -/
def openShard (m : ModelState) (b j : Nat) (cipher : List Byte) (tag : Nat) : Option (List Byte) :=
  match m.key with
  | none => none
  | some key =>
    if (Config.gcmTag key (shardNonce m b j) (shardAad m b j cipher.length) cipher).toNat = tag then
      some (Config.gcmPlain key (shardNonce m b j) cipher)
    else none

/-- A tag failure is a security event (R464). -/
def secTagEvent (handle : Nat) (s : State) : State :=
  ((((s.countSat SEC_TAG_EVENTS_COUNT 1).raise SEC_IRQ_TAG_EVENT).set SEC_LAST_CODE cSecTagEvent).set SEC_LAST_DETAIL handle).bbWrite
    { code := cSecTagEvent, level := 0, kind := 0, die := 39, sub := 0, detail := handle }

/-- HBM offset of a tag-table entry (R338, R343). -/
def tagAddr (s : State) (i : Nat) : Nat := s.get (TIER_MODEL_TTAB_BASE 0) * 64 + 16 * i

/-- Writes a unit's plaintext to its frame. -/
def landUnit (cons : Nat) (b : Blk) (u : Nat) (bs : List Byte) (s : State) : State :=
  noteWrite (some cons) (b.off + u * unitBytes) bs.length (storeBytes (b.off + u * unitBytes) bs s)

/-- Writes the units of a shard. -/
def landShard (cons : Nat) (b : Blk) (us : List Nat) (plain : List Byte) (s : State) : State :=
  us.zipIdx.foldl (fun t p => landUnit cons b p.1 ((plain.drop (unitBytes * p.2)).take unitBytes) t) s

/-! Page reads (R326). -/

/-- The tag of a shard, read from the tag table (R338, R310): none where the word cannot be read. -/
def tagRead (cons ta : Nat) (s : State) : Option Nat × State :=
  let t := noteRead (some cons) ta 16 (hbmFind ta 16 s)
  (if t.anyPoison ta 16 || t.dieFenced (20 + stackOf ta) then none else some (t.readLE ta 16), t)

/-- Units that have landed: the FETCH goes on or ends. -/
def fetchOn (c : TierCmd) (s : State) : State := if c.todo.isEmpty then fetchEnd c s else putTier c s

/-- Whether a word of one of some units is poisoned: the units are then not completed (R314). -/
def unitsBad (b : Blk) (us : List Nat) (s : State) : Bool := us.any (fun u => poisonIn (b.off + u * unitBytes) unitBytes s)

/-- A whole shard of a WEIGHT block has been read: it lands when its tag checks, and is read again, up to 3 times, when it does not
(R346). -/
def shardRead (c : TierCmd) (b : Blk) (u : Nat) (s : State) : State :=
  match s.model.blocks.find? (fun m => m.index == c.index) with
  | none => fetchFail c cTierTag (if s.model.key.isNone then cLoadNoKey else 0) s
  | some m =>
    let j := u / 16
    let us := c.buf.map Prod.fst
    let cons := tierCons c.k c.be
    let q := tagRead cons (tagAddr s (m.tag + j)) s
    let t := q.2
    match q.1 with
    | none => fetchFail c cMemUncorr 0 t
    | some tag =>
      match openShard t.model m.b j (c.buf.flatMap Prod.snd) tag with
      | some plain =>
        if unitsBad b us t then fetchFail c cMemUncorr 0 t
        else fetchOn { c with buf := [], tries := 0, units := c.units + us.length } (landShard cons b us plain t)
      | none =>
        if t.model.key.isNone then fetchFail c cTierTag cLoadNoKey t
        else
          let t := secTagEvent c.handle t
          if 3 ≤ c.tries then fetchFail c cTierTag 0 t
          else putTier { c with todo := us ++ c.todo, buf := [], tries := c.tries + 1, retries := min 3 (c.retries + 1) } t

/-- A whole unit of a FETCH has been read; UNITS counts it once it has landed (R315). -/
def unitRead2 (c : TierCmd) (b : Blk) (u : Nat) (s : State) : State :=
  let rest := c.todo.drop 1
  let bs := unitData s (b.lu + u)
  let e := { c with todo := rest, page := 0, bytes := c.bytes + unitBytes }
  let s := noteTurn c (s.count (TIER_FETCH_BYTES_COUNT c.k) unitBytes)
  if b.kind ≠ bkWeight then
    if unitsBad b [u] s then fetchFail e cMemUncorr 0 s
    else fetchOn { e with units := c.units + 1 } (landUnit (tierCons c.k c.be) b u bs s)
  else
    let e := { e with buf := c.buf ++ [(u, bs)] }
    if rest.headD (u + 16) / 16 = u / 16 then putTier e s else shardRead e b u s

/-- PAGE_READ (R309, R326, R332, R346): the next page of a FETCH that holds a slot, once its turn has come, with what the flash yields,
the rc of transfer and the rc waited on the fetch budget. -/
def tierPageRead (k n : Nat) (r : PageRead) (rc stall : Nat) (s : State) : State :=
  match tierCmd s k n with
  | none => s
  | some c =>
    let b := blkAt s c.index
    if tdOp c.words != opFetch || c.slot.isNone then s
    else
      match c.todo with
      | [] => s
      | u :: _ =>
        if !siloReady s then fetchFail c cTierSilo (siloCause s) s
        else if blkFenced s b then fetchFail c cMemUncorr 0 s
        else
          match (if c.page = 0 then takeBudget (tdTenant c.words) s else some s) with
          | none => putTier { c with stallFb := c.stallFb + stall } s
          | some t =>
            if !pageTurn s c then s else
            let c := { c with rc := c.rc + rc, stallFb := c.stallFb + stall }
            let q := readPage (4 * (b.lu + u) + c.page) c.be r t
            if !q.1 then fetchFail c cTierSilo cSiloUncorr q.2
            else if c.page < 3 then putTier { c with page := c.page + 1 } q.2
            else unitRead2 c b u q.2

def execPageRead (k : Fin 4) (n : Fin 16) (r : PageRead) (rc stall : Nat) (s : State) : Host.Outcome State Fault Refusal :=
  .next (s.live (tierPageRead k n r rc stall))

/-! Page programs (R325, R328). -/

/-- Reads a dirty unit for write-back: its DIRTY bit clears; none where a word cannot be read (R296, R307). -/
def takeUnit (c : TierCmd) (b : Blk) (u : Nat) (s : State) : Option (List Byte × State) :=
  let a := b.off + u * unitBytes
  let t := hbmFind a unitBytes s
  if t.anyPoison a unitBytes then none
  else some (s.bytes a unitBytes, setDirty b u false (noteRead (some (tierCons c.k c.be)) a unitBytes t))

/-- The unit whose next page is programmed: read with its first page, which takes a unit of the tenant's budget (R309); none while
the budget is spent. -/
def takePage (c : TierCmd) (b : Blk) (u : Nat) (s : State) : Option (Option (List Byte × State)) :=
  if c.page = 0 then (takeBudget (tdTenant c.words) s).map (takeUnit c b u)
  else some (some (((c.buf.find? (fun p => p.1 == u)).map Prod.snd).getD [], s))

/-- PAGE_PROGRAM (R307, R325, R328, R332): the next page of a WRITEBACK or EVICT that holds a slot is programmed, once its turn has come; a
failed program retires the block and the page is programmed again in another. -/
def tierPageProgram (k n : Nat) (ok : Bool) (rc stall : Nat) (s : State) : State :=
  match tierCmd s k n with
  | none => s
  | some c =>
    let b := blkAt s c.index
    if (tdOp c.words != opWriteback && tdOp c.words != opEvict) || c.slot.isNone then s
    else
      match c.todo with
      | [] => s
      | u :: rest =>
        if !siloReady s then writeFail c cTierSilo (siloCause s) s
        else if blkFenced s b then writeFail c cMemUncorr 0 s
        else if siloFull s then writeFail c cTierSilo cSiloFull (siloLast 0 cSiloFull 0 (b.lu + u) s)
        else
          match takePage c b u s with
          | none => putTier { c with stallFb := c.stallFb + stall } s
          | some none => if pageTurn s c then writeFail c cMemUncorr 0 (hbmFind (b.off + u * unitBytes) unitBytes s) else s
          | some (some (bs, t)) =>
            if !pageTurn s c then s else
            let buf := if c.page = 0 then c.buf ++ [(u, bs)] else c.buf
            let c := { c with rc := c.rc + rc, stallFb := c.stallFb + stall, buf := buf }
            let p := placePage t
            let ch := locCh p.1
            let t := p.2.count (SILO_WR_BYTES_COUNT (sdOf ch)) pageBytes
            let t := if ok then t else retireBlk ch ((Tab.get (fun _ => []) t.silo.bands (locBand t p.1)).getD ch (2 ^ 24)) t
            if !ok && siloFull t then writeFail c cTierSilo cSiloFull (siloLast 0 cSiloFull ch (b.lu + u) t)
            else
              let c := { c with progs := c.progs ++ [(4 * (b.lu + u) + c.page, p.1)] }
              if c.page < 3 then putTier { c with page := c.page + 1 } t
              else putTier { c with page := 0, todo := rest } (noteTurn c (if rest.isEmpty then closeStripe t else t))

def execPageProgram (k : Fin 4) (n : Fin 16) (ok : Bool) (rc stall : Nat) (s : State) : Host.Outcome State Fault Refusal :=
  .next (s.live (tierPageProgram k n ok rc stall))

/-- SILO_UNIT_WRITTEN (R325): the oldest unit whose stripes are programmed is reported, its pages are mapped in the same
step, and the command completes after its last unit. -/
def siloUnitWritten (k n : Nat) (s : State) : State :=
  match tierCmd s k n with
  | none => s
  | some c =>
    let b := blkAt s c.index
    match c.buf with
    | [] => s
    | (u, bs) :: _ =>
      if (tdOp c.words != opWriteback && tdOp c.words != opEvict) || !unitClosed c b u s then s
      else
        let r := reportUnit c b u bs s
        if r.1.buf.isEmpty && r.1.todo.isEmpty then writeDone r.1 r.2 else putTier r.1 r.2

def execSiloUnitWritten (k : Fin 4) (n : Fin 16) (s : State) : Host.Outcome State Fault Refusal := .next (s.live (siloUnitWritten k n))

/-! Fetch budgets (R309, R318). -/

/-- The tenants whose TIER_FB register is listed; the others have RATE 0. -/
def fbTenants (s : State) : List Nat :=
  (s.regs.filter (fun p => decide (tierBase 0 + 0x10000 ≤ p.1) && decide (p.1 < tierBase 0 + 0x50000) && p.1 % 32 == 16)).map
    (fun p => (p.1 - (tierBase 0 + 0x10000)) / 32)

/-- FETCH_BUDGET_TICK (R309). -/
def fetchBudgetTick (s : State) : State :=
  (fbTenants s).foldl (fun t tn =>
    if t.get (TIER_FB_RATE 0 tn) = 0 then t
    else t.set (TIER_FB_LEVEL 0 tn)
      (min (t.get (TIER_FB_LEVEL 0 tn) + t.get (TIER_FB_RATE 0 tn)) (max 1 (t.get (TIER_FB_BURST 0 tn))))) s

def execFetchBudgetTick (s : State) : Host.Outcome State Fault Refusal := .next (s.live fetchBudgetTick)

/-- TIER_FB_WRITE (R318): the level becomes BURST. -/
def tierFbWrite (tn : Nat) (v : Word) (s : State) : State :=
  let t := (s.set (TIER_FB_RATE 0 tn) ((TIER_FB_RATE 0 tn).of v)).set (TIER_FB_BURST 0 tn) ((TIER_FB_BURST 0 tn).of v)
  t.set (TIER_FB_LEVEL 0 tn) (max 1 ((TIER_FB_BURST 0 tn).of v))

def execTierFbWrite (tn : Fin 8192) (v : Word) (s : State) : Host.Outcome State Fault Refusal := .next (s.live (tierFbWrite tn v))

end Sys2Proof.Machine
end

