-- ==== Sys2Proof/Machine/Hbm.lean ====
section
/-!
DEFINITION. The HBM controllers' own steps (11_bulk_memory_tiers R296, R297, R312; 18_reliability_and_spares R437).
-/
namespace Sys2Proof.Machine

/-- HBM_REFRESH (R297): a refresh at the temperature that the stack reports; whether that doubles the rate is the HBM4
standard's to say. -/
def hbmRefresh (m temp : Nat) (hot : Bool) (s : State) : State :=
  if s.dieFenced (20 + m) || s.partFenced then s
  else (((s.set (HBM_STATUS_TEMP_C m) temp).set (HBM_STATUS_HOT m) (ofBool hot)).count (HBM_REFRESH_CNT_COUNT m) 1)

def execHbmRefresh (j : Fin 8) (temp : BitVec 8) (hot : Bool) (s : State) : Host.Outcome State Fault Refusal :=
  .next (s.live (hbmRefresh j temp.toNat hot))

/-- HBM_SCRUB (R297): the next unit is read; its words that decode wrong are corrected or poisoned, those
that the model holds as such and those that the operands name. -/
def hbmScrub (m : Nat) (corr bad : List Nat) (s : State) : State :=
  if s.dieFenced (20 + m) || s.partFenced then s
  else
    let u := s.get (HBM_SCRUB_POS_UNIT m)
    let a := m * stackSize + 64 * u
    let t := corr.foldl (fun t w => hbmCorr m (a + 8 * w) t) (hbmFind a 64 s)
    let t := bad.foldl (fun t w => hbmUncorr m (a + 8 * w) t) t
    t.set (HBM_SCRUB_POS_UNIT m) (u + 1)

def execHbmScrub (j : Fin 8) (corrected uncorrectable : List (Fin 8)) (s : State) : Host.Outcome State Fault Refusal :=
  .next (s.live (hbmScrub j (corrected.map Fin.val) (uncorrectable.map Fin.val)))

/-- Nanoseconds in a day, in which corrected words of a row add up (R437). -/
def dayNs : Nat := 86400000000000

/-- Whether a row is due for repair (R437). -/
def hbmRowDue (m row : Nat) (s : State) : Bool :=
  let h := s.hbm m
  h.bad.contains row ||
    decide (max 1 (s.get (HBM_REPAIR_CORR_MAX m)) ≤ (h.corr.filter (fun c => c.1 == row && decide (s.alm ≤ c.2 + dayNs))).length)

/-- HBM_ROW_REPAIR (R437): the row moves to a spare one, its content and poison marks kept, and is listed for hard repair;
without a spare row it stays in service. -/
def hbmRowRepair (m row : Nat) (spare : Bool) (s : State) : State :=
  if !hbmRowDue m row s || s.dieFenced (20 + m) || s.partFenced then s
  else
    let h := s.hbm m
    let t := s.setHbm m { h with corr := h.corr.filter (fun c => c.1 != row), bad := h.bad.filter (fun r => r != row) }
    if spare then
      let u := (t.countSat (HBM_REPAIR_SOFT m) 1).set (HBM_REPAIR_LAST_ROW m) row
      rdWarn (m / 2) (7 + m % 2) 0x060D 0 { u with silo := { u.silo with hardRows := u.silo.hardRows ++ [(m, row)] } }
    else rdWarn (m / 2) (7 + m % 2) 0x060E 0 t

def execHbmRowRepair (j : Fin 8) (row : Fin 33554432) (spare : Bool) (s : State) : Host.Outcome State Fault Refusal :=
  .next (s.live (hbmRowRepair j row spare))

/-- Loads a RESERVE section (R402): the stacks' shares show in HBM_RSV, the others have no register. -/
def applyReserve (bs : List Byte) (s : State) : State :=
  let share := fun (i : Nat) => (bs.getD i 0).toNat
  let t := (List.range 8).foldl (fun t m => (List.range 24).foldl (fun u c =>
    (u.set (HBM_RSV_SHARE m c) (share (24 * m + c))).set (HBM_RSV_ALLOW m c) (512 * share (24 * m + c))) t) s
  let rest := (List.range (73 * 24)).foldl (fun u i => Tab.set (fun _ => 0) u (192 + i) (share (192 + i))) ([] : Tab Nat)
  { t with cfg := { t.cfg with shares := rest, rsvNext := none } }

/-- RSV_WINDOW (R312, R408): a new window starts with nothing charged, under a table that has been swapped in since. -/
def rsvWindow (s : State) : State :=
  let s := match s.cfg.rsvNext with | some bs => applyReserve bs s | none => s
  (List.range 8).foldl (fun t m => (List.range 24).foldl (fun u c => u.set (HBM_RSV_USED m c) 0) t) s

def execRsvWindow (s : State) : Host.Outcome State Fault Refusal := .next (s.live rsvWindow)

end Sys2Proof.Machine
end

