-- ==== Sys2Proof/Machine/Pci.lean ====
section
/-!
DEFINITION. What the host port's steps share (17_host_interface): codes and PCI_LAST (R425, R427), MSI-X (R420), and the
part's own reads of host memory (R421).
-/
namespace Sys2Proof.Machine

/-! Codes (R425). -/
def cPciBarRefused : Nat := 0x0A30
def cPciAccess : Nat := 0x0A31
def cPciDbRange : Nat := 0x0A32
def cPciPoison : Nat := 0x0A33
def cPciCto : Nat := 0x0A34
def cPciDmaWindow : Nat := 0x0A35
def cPciDegraded : Nat := 0x0A36
def cPciLinkDown : Nat := 0x0A37

/-- HM in R428's DIE order. -/
def dieHm : Nat := 38

/-! MSI-X (R420). -/

/-- A word of the MSI-X table; the Vector Control word reads masked after reset, as PCIe has it. -/
def msixDef (i : Nat) : Nat := if i % 4 = 3 then 1 else 0
def msixWord (s : State) (v w : Nat) : Nat := Tab.get msixDef s.pci.msix (4 * v + w)

/-- Whether a vector may not send: its mask bit, the function mask, or MSI-X not enabled. -/
def msixMasked (s : State) (v : Nat) : Bool := msixWord s v 3 % 2 == 1 || s.pci.msixMask || !s.pci.msixEn

/-- Sends a vector's message. -/
def msixSend (v : Nat) (s : State) : State :=
  { s with pci := { s.pci with msg := some (msixWord s v 0 + msixWord s v 1 * 2 ^ 32, msixWord s v 2),
                               pba := s.pci.pba.filter (fun u => u != v) } }

/-- Raises a vector: it sends, or sets its Pending Bit while it is masked or already pending. -/
def msixRaise (v : Nat) (s : State) : State :=
  if msixMasked s v || s.pci.pba.contains v then
    { s with pci := { s.pci with pba := s.pci.pba.filter (fun u => u != v) ++ [v] } }
  else msixSend v s

/-- Sends the pending vectors that are no longer masked. -/
def msixUnmask (s : State) : State := s.pci.pba.foldl (fun t v => if msixMasked t v then t else msixSend v t) s

/-- Sets a PCI_IRQ bit; a bit that becomes set and is enabled raises vector 0 (R420). -/
def pciIrq (code : Nat) (s : State) : State :=
  let i := code - cPciBarRefused
  let f : Fld := ⟨PCI_IRQ_BAR_REFUSED.addr, i, 1⟩
  if s.flag f then s
  else
    let t := s.raise f
    if (t.get PCI_IRQ_EN_EN).testBit i then msixRaise 0 t else t

/-- Records a code in PCI_LAST with its PCI_IRQ bit (R425). -/
def pciNote (code cause addr : Nat) (s : State) : State :=
  pciIrq code (((s.set PCI_LAST_CODE code).set PCI_LAST_CAUSE cause).set PCI_LAST_ADDR addr)

/-! The part's reads (R421). -/

/-- Whether one enabled window covers a range. -/
def dmaCovered (s : State) (a n : Nat) : Bool :=
  (List.range 4).any (fun w => s.flag (PCI_DMA_WIN_A_EN w) && decide (s.get (PCI_DMA_WIN_A_BASE w) ≤ a / 4096) &&
    decide ((a + (n - 1)) / 4096 ≤ s.get (PCI_DMA_WIN_B_LIMIT w)))

/-- Whether the link is up. -/
def pcieUp (s : State) : Bool := s.get PCI_LINK_SPEED != 0

/-- The code that keeps a transfer from issuing its read: 0 where it may. -/
def dmaRefusal (s : State) (a n : Nat) : Nat :=
  if !pcieUp s then cPciLinkDown else if dmaCovered s a n then 0 else cPciDmaWindow

end Sys2Proof.Machine
end

