-- ==== Sys2Proof/Machine/Model.lean ====
section
/-!
DEFINITION. Model images (13_model_images): the image's tables (R336 to R339), the model key (R340), load, admission,
staging and placing (R341 to R344), unloading (R349).
-/
namespace Sys2Proof.Machine

/-! Codes. -/
def cLoadRefused : Nat := 0x0610
def cLoadFormat : Nat := 0x0611
def cLoadSig : Nat := 0x0612
def cLoadKey : Nat := 0x0613
def cLoadTag : Nat := 0x0614
def cLoadState : Nat := 0x0615
def cLoadSource : Nat := 0x0616
def cLoadSilo : Nat := 0x0617
def cLoadAborted : Nat := 0x0619

/-- States of the model (R341). -/
def mEmpty : Nat := 0
def mVerify : Nat := 1
def mStage : Nat := 3
def mPlace : Nat := 4
def mResident : Nat := 5

/-- State of the model. -/
def modelSt (s : State) : Nat := s.get (TIER_MODEL_STATUS_STATE 0)

/-- A little-endian field of a byte string. -/
def le (bs : List Byte) (off n : Nat) : Nat := ofBytes ((bs.drop off).take n)

/-! Header and tables (R336, R337). -/

def mhId (h : List Byte) : Nat := le h 16 8
def mhBlocks (h : List Byte) : Nat := le h 28 4
def mhLayers (h : List Byte) : Nat := le h 32 4
def mhDirOff (h : List Byte) : Nat := le h 36 4
def mhLayerOff (h : List Byte) : Nat := le h 40 4
def mhTagOff (h : List Byte) : Nat := le h 44 8
def mhPayload (h : List Byte) : Nat := le h 52 8
def mhBytes (h : List Byte) : Nat := le h 60 8

/-- Whether bytes are all zero. -/
def allZero (bs : List Byte) : Bool := bs.all (fun b => b == 0)

/-- Whether a header is well formed. -/
def modelHdrOk (h : List Byte) : Bool :=
  h.take 8 == [0x4B, 0x58, 0x4D, 0x4F, 0x44, 0x45, 0x4C, 0x31] && le h 8 4 == 1 && le h 12 4 == 512 &&
    decide (1 ≤ mhBlocks h) && decide (mhBlocks h ≤ 1048576) && decide (mhLayers h ≤ 128) && mhPayload h % 65536 == 0 &&
    allZero ((h.drop 205).take 3) && allZero ((h.drop 353).take 63)

/-- A directory entry. -/
structure DirEnt where
  kind : Nat
  hint : Nat
  layer : Nat
  expert : Nat
  part : Nat
  len : Nat
  unit : Nat
  tag : Nat
deriving DecidableEq, Repr

/-- Directory entry `b`. -/
def dirEnt (d : List Byte) (b : Nat) : DirEnt :=
  let w0 := le d (32 * b) 8
  { kind := bitsOf w0 0 8, hint := bitsOf w0 8 2, layer := bitsOf w0 10 7, expert := bitsOf w0 17 14, part := bitsOf w0 31 3,
    len := bitsOf w0 34 16, unit := bitsOf (le d (32 * b + 8) 8) 0 40, tag := bitsOf (le d (32 * b + 16) 8) 0 32 }

/-- E of layer `l`. -/
def layerE (lay : List Byte) (l : Nat) : Nat := bitsOf (le lay (4 * l) 4) 0 15

/-- Shards of a block (R338). -/
def shards (len : Nat) : Nat := ceilDiv len 16

/-- Whether a directory entry is well formed: a SHARED block has no use for LAYER, EXPERT and PART, which are then zero, and a
block lies inside the image (log entry 30). -/
def dirEntOk (h lay d : List Byte) (b : Nat) : Bool :=
  let e := dirEnt d b
  le d (32 * b) 8 / 2 ^ 50 == 0 && le d (32 * b + 8) 8 / 2 ^ 40 == 0 && le d (32 * b + 16) 8 / 2 ^ 32 == 0 &&
    le d (32 * b + 24) 8 == 0 && decide (e.kind ≤ 1) && e.hint != 3 && decide (1 ≤ e.len) &&
    (if e.kind = 1 then decide (e.layer < mhLayers h) && decide (e.expert < layerE lay e.layer)
     else e.layer == 0 && e.expert == 0 && e.part == 0) &&
    decide (mhPayload h + 65536 * (e.unit + e.len) ≤ mhBytes h)

/-- Whether the tables obey R336 and R337. -/
def modelTablesOk (h lay d : List Byte) : Bool :=
  modelHdrOk h &&
    (List.range (mhLayers h)).all (fun l => le lay (4 * l) 4 / 2 ^ 15 == 0 && decide (1 ≤ layerE lay l) && decide (layerE lay l ≤ 16384)) &&
    (List.range (mhBlocks h)).all (dirEntOk h lay d) &&
    (let xs := ((List.range (mhBlocks h)).map (dirEnt d)).filter (fun e => e.kind == 1)
     (xs.map (fun e => (e.layer, e.expert, e.part))).Nodup)

/-- Entries of the tag table: up to the last shard of any block. -/
def tagCount (h d : List Byte) : Nat :=
  (List.range (mhBlocks h)).foldl (fun m b => max m ((dirEnt d b).tag + shards (dirEnt d b).len)) 0

/-- How many bytes of the image must be read for its tables, as far as those read so far tell. -/
def tablesWant (g : List Byte) : Nat :=
  if g.length < 512 then 512
  else
    let a := max 512 (max (mhDirOff g + 32 * min (mhBlocks g) 1048576) (mhLayerOff g + 4 * min (mhLayers g) 128))
    if g.length < a then a
    else max a (mhTagOff g + 16 * tagCount g ((g.drop (mhDirOff g)).take (32 * min (mhBlocks g) 1048576)))

/-! Ending a load (R341). -/

/-- Erases the model key from SE and the cipher units (R340). -/
def eraseModelKey (s : State) : State :=
  { (s.set SEC_STATE_MODEL_KEY 0) with model := { s.model with key := none } }

/-- The accesses in flight in a block's frames complete (R308). -/
def drainFrames (b : Blk) (s : State) : State :=
  (blkFrames b.off b.len).foldl (fun t f =>
    let h := t.hbm f.1
    t.setHbm f.1 { h with flight := Tab.set (fun _ => 0) h.flight f.2 0 }) s

/-- Frees the WEIGHT blocks of the load or of the resident model; their frames are zeroed before they are VACANT (R341,
R349). -/
def dropBlocks (keep : Bool) (s : State) : State :=
  let t := s.model.blocks.foldl (fun t m =>
    let b := blkAt t m.index
    if b.kind ≠ bkWeight || b.st = bUnused then t
    else
      let t := if b.st = bResident then zeroFrames b (drainFrames b t) else t
      releaseBlk (tierCons (m.index % 4) true) (m.index % 4) m.index b keep t) s
  { t with model := { t.model with blocks := [] } }

/-- Records a code of the load. -/
def modelCode (code reason : Nat) (s : State) : State :=
  ((s.set (TIER_MODEL_STATUS_CODE 0) code).set (TIER_MODEL_STATUS_REASON 0) reason).raise (TIER_MODEL_IRQ_FAIL 0)

/-- A load fails: everything done for it is undone and the state is EMPTY (R341). -/
def modelFail (code reason : Nat) (s : State) : State :=
  let t := eraseModelKey (dropBlocks s.model.restage s)
  let t := { t with model := { kept := t.model.kept }, pci := { t.pci with modRead := none } }
  (modelCode code reason t).set (TIER_MODEL_STATUS_STATE 0) mEmpty

/-- Starts a read of the image from the host: a range that no window covers or a lost link ends the load (R421). -/
def modelRead (off n : Nat) (s : State) : State :=
  let a := (s.get (TIER_MODEL_SRC_ADDR 0) + off) % 2 ^ 64
  let c := dmaRefusal s a n
  if c ≠ 0 then modelFail cLoadSource 0 (pciNote c 0 0 s)
  else { s with pci := { s.pci with modRead := some { addr := a, want := n } } }

/-- MODEL_LOAD (R340, R341, R349). -/
def modelLoad (restage : Bool) (s : State) : State :=
  if s.partFenced then s
  else if modelSt s ≠ mEmpty then modelCode cLoadState 0 s
  else if s.sec.dmk.isNone then modelCode cLoadNoKey 0 s
  else if restage && s.model.kept.isNone then modelCode cLoadSource 0 s
  else
    let t := (((s.set (TIER_MODEL_STATUS_STATE 0) mVerify).set (TIER_MODEL_STATUS_CODE 0) 0).set (TIER_MODEL_STATUS_REASON 0) 0)
    let t := ((t.set (TIER_MODEL_PROG_STAGED 0) 0).set (TIER_MODEL_PROG_PLACED 0) 0).set (TIER_MODEL_RETRIES_COUNT 0) 0
    let t := { t with model := { restage := restage, kept := t.model.kept } }
    if restage then t else modelRead 0 512 t

def execModelLoad (restage : Bool) (s : State) : Host.Outcome State Fault Refusal := .next (s.live (modelLoad restage))

/-! Admission (R342). -/

/-- Whether a directory entry is selected (R341). -/
def selected (s : State) (e : DirEnt) : Bool :=
  let m := s.get (TIER_MODEL_SEL_MOD 0)
  decide (m < 2) || e.kind != 1 || e.expert % m == s.get (TIER_MODEL_SEL_RES 0)

/-- The selected directory blocks, in directory order. -/
def selBlocks (s : State) : List Nat :=
  (List.range (mhBlocks s.model.hdr)).filter (fun b => selected s (dirEnt s.model.dir b))

/-- The selected blocks to be placed. -/
def hinted (s : State) : List Nat := (selBlocks s).filter (fun b => decide (1 ≤ (dirEnt s.model.dir b).hint))

/-- Whether a frame of engine `k` is VACANT and not among those taken. -/
def vacant (s : State) (taken : List (Nat × Nat)) (f : Nat × Nat) : Bool :=
  s.get (HBM_FRAME_A_STATE f.1 f.2) == fVacant && !taken.contains f

/-- The lowest run of `n` VACANT frames of engine `k` (R344): stack 2k, then stack 2k + 1. -/
def findRun (s : State) (k n : Nat) (taken : List (Nat × Nat)) : Option (Nat × Nat) :=
  ([0, 1].flatMap (fun i =>
    (List.range (s.get (TIER_REGION_COUNT k i) + 1 - n)).map (fun j => (2 * k + i, s.get (TIER_REGION_FIRST k i) + j)))).find?
    (fun p => (List.range n).all (fun j => vacant s taken (p.1, p.2 + j)))

/-- Whether first-fit placement of blocks succeeds (REASON 2). -/
def placeable (s : State) : List Nat → List (Nat × Nat) → Bool
  | [], _ => true
  | b :: bs, taken =>
    let n := frameCount (dirEnt s.model.dir b).len
    match findRun s (b % 4) n taken with
    | none => false
    | some p => placeable s bs (taken ++ (List.range n).map (fun j => (p.1, p.2 + j)))

/-- UNUSED block-table entries of engine `k`. -/
def unusedCount (s : State) (k : Nat) : Nat :=
  ((List.range (s.get (TIER_BT_SIZE_ENTRIES 0))).filter (fun i => i % 4 == k && (blkAt s i).st == bUnused)).length

/-- Sum of E over the layers below one. -/
def layerSum (m : ModelState) (n : Nat) : Nat := (List.range n).foldl (fun a l => a + layerE m.lay l) 0

/-- The first REASON that refuses the load; 0 where it is admitted (R342). -/
def admitReason (s : State) : Nat :=
  let m := s.model
  let sel := selBlocks s
  let ent := fun b => dirEnt m.dir b
  if s.get (TIER_MODEL_LIMIT_FRAMES 0) < (hinted s).foldl (fun a b => a + frameCount (ent b).len) 0 then 1
  else if !placeable s (hinted s) [] then 2
  else if !m.restage && decide (freeUnits s < sel.foldl (fun a b => a + (ent b).len) 0) then 3
  else if s.get (THR_MAP_SIZE_ENTRIES 0) < s.get (TIER_MODEL_LIMIT_MAP_BASE 0) + layerSum m (mhLayers m.hdr) then 4
  else if (List.range 4).any (fun k => decide (unusedCount s k < (sel.filter (fun b => b % 4 == k)).length)) then 5
  else if s.get (TIER_MODEL_TABSZ_HTAB 0) * 64 < 8 * (mhLayers m.hdr + mhBlocks m.hdr) ||
      decide (s.get (TIER_MODEL_TABSZ_TTAB 0) * 65536 < 16 * tagCount m.hdr m.dir) then 6
  else 0

/-! Blocks (R343). -/

/-- Creates the WEIGHT block of directory block `b` over an extent. -/
def createBlk (b lu i : Nat) (s : State) : State :=
  let e := dirEnt s.model.dir b
  let t := putBlk (tierCons (b % 4) true) i { st := bAbsent, kind := bkWeight, ro := true, gen := (blkAt s i).gen, len := e.len, lu := lu } s
  { t with model := { t.model with blocks := t.model.blocks ++ [{ b := b, index := i, tag := e.tag, len := e.len }] } }

/-- Creates a block with a new extent of the block zone; none where no entry or no extent is free. -/
def newBlk (b : Nat) (s : State) : Option State :=
  let e := dirEnt s.model.dir b
  match unusedIndex s (b % 4), fitExtent s true e.len with
  | some i, some lu => some (createBlk b lu i { s with silo := { s.silo with extents := s.silo.extents ++ [(lu, e.len)] } })
  | _, _ => none

/-- The WEIGHT block of a directory block. -/
def mblk (s : State) (b : Nat) : Option ModelBlk := s.model.blocks.find? (fun m => m.b == b)

/-- Byte length of shard `j` (R338). -/
def shardUnits (len j : Nat) : Nat := min (16 * j + 16) len - 16 * j

/-- The host read of the next shard to stage (R343). -/
def nextShard (s : State) : State :=
  match s.model.stage with
  | [] => s
  | (b, j) :: _ =>
    let e := dirEnt s.model.dir b
    modelRead (mhPayload s.model.hdr + 65536 * (e.unit + 16 * j)) (65536 * shardUnits e.len j) s

/-- Writes a block's tags to the HBM tag table (R343). -/
def putTag (i : Nat) (s : State) : State :=
  memWrite (some (tierCons 0 true)) (tagAddr s i) ((s.model.tags.drop (16 * i)).take 16) s

/-- Re-creates the blocks of a kept image, with their tags (R349); none where a selected block was not kept. -/
def restageBlks (k : ModelKept) : List Nat → State → Option State
  | [], s => some s
  | b :: bs, s =>
    match k.ext.find? (fun e => e.1 == b), unusedIndex s (b % 4) with
    | some e, some i =>
      let d := dirEnt s.model.dir b
      restageBlks k bs ((List.range (shards d.len)).foldl (fun t j => putTag (d.tag + j) t) (createBlk b e.2 i s))
    | _, _ => none

/-- MODEL_VERIFY (R339 to R342): the tables are at hand; they are checked, the key is unwrapped, and admission is decided. -/
def modelVerify (s : State) : State :=
  if modelSt s ≠ mVerify || s.partFenced then s
  else
    let tabs : Option (List Byte × List Byte × List Byte × List Byte) :=
      if s.model.restage then s.model.kept.map (fun k => (k.hdr, k.dir, k.lay, k.tags))
      else match s.pci.modRead with
        | some r =>
          if r.got.length < tablesWant r.got then none
          else
            let h := r.got.take 512
            let d := (r.got.drop (mhDirOff h)).take (32 * min (mhBlocks h) 1048576)
            some (h, d, (r.got.drop (mhLayerOff h)).take (4 * min (mhLayers h) 128),
              (r.got.drop (mhTagOff h)).take (16 * tagCount h d))
        | none => none
    match tabs with
    | none => s
    | some (h, d, lay, tags) =>
      let t := { s with model := { s.model with hdr := h, dir := d, lay := lay, tags := tags },
                        pci := { s.pci with modRead := none } }
      let pub := (h.drop 256).take 97
      if !modelTablesOk h lay d then modelFail cLoadFormat 0 t
      else if (Config.sha384 pub).toNat ≠ le h 208 48 || !s.cfg.msigners.contains (le h 208 48) ||
          !Config.ecdsaVerify (Config.sha384 pub) (Config.sha384 (h.take 416 ++ d ++ lay ++ tags)) ((h.drop 416).take 96) then
        modelFail cLoadSig 0 t
      else
        match s.sec.dmk with
        | none => modelFail cLoadNoKey 0 t
        | some dmk =>
          match Config.unwrapKey dmk ((h.drop 68).take 97 ++ (h.drop 16).take 8) ((h.drop 165).take 40) with
          | none => modelFail cLoadKey 0 t
          | some key =>
            let t := { (t.set SEC_STATE_MODEL_KEY 1) with model := { t.model with key := some key } }
            let r := admitReason t
            if r ≠ 0 then modelFail cLoadRefused r t
            else if t.model.abort then modelFail cLoadAborted 0 t
            else
              let t := t.set (TIER_MODEL_ID_IMAGE_ID 0) (mhId h)
              match (if t.model.restage then t.model.kept else none) with
              | some k =>
                match restageBlks k (selBlocks t) t with
                | some u => u.set (TIER_MODEL_STATUS_STATE 0) mPlace
                | none => modelFail cLoadSource 0 t
              | none =>
                let todo := (selBlocks t).flatMap (fun b => (List.range (shards (dirEnt d b).len)).map (fun j => (b, j)))
                nextShard ({ t with model := { t.model with stage := todo } }.set (TIER_MODEL_STATUS_STATE 0)
                  (if todo.isEmpty then mPlace else mStage))

def execModelVerify (s : State) : Host.Outcome State Fault Refusal := .next (s.live modelVerify)

/-! STAGE (R343). -/

/-- The ciphertext of a shard goes to its extent and its tag to the tag table. -/
def storeShard (m : ModelBlk) (lu j : Nat) (bs : List Byte) (s : State) : State :=
  let n := shardUnits m.len j
  let t := (List.range n).foldl (fun t i => storeUnit (lu + 16 * j + i) ((bs.drop (unitBytes * i)).take unitBytes) t) s
  putTag (m.tag + j) t

/-- MODEL_STAGE (R343): the shard read last is checked and staged, or read again. -/
def modelStage (s : State) : State :=
  if modelSt s ≠ mStage || s.partFenced then s
  else
    match s.model.stage, s.pci.modRead with
    | (b, j) :: rest, some r =>
      if r.got.length < r.want then s
      else
        match (if (mblk s b).isSome then some s else newBlk b s) with
        | none => modelFail cLoadSilo 0 s
        | some t =>
          match mblk t b with
          | none => modelFail cLoadSilo 0 t
          | some m =>
            let e := blkAt t m.index
            match openShard t.model b j r.got (le t.model.tags (16 * (m.tag + j)) 16) with
            | none =>
              let t := secTagEvent (handleOf m.index e.gen) t
              if 3 ≤ t.model.tries then modelFail cLoadTag 0 t
              else if t.model.abort then modelFail cLoadAborted 0 t
              else
                nextShard ({ t with model := { t.model with tries := t.model.tries + 1 } }.countSat (TIER_MODEL_RETRIES_COUNT 0) 1)
            | some _ =>
              if !siloReady t || siloFull t then modelFail cLoadSilo 0 t
              else
                let t := storeShard m e.lu j r.got t
                let last := j + 1 = shards m.len
                let t := if last then (closeStripe t).count (TIER_MODEL_PROG_STAGED 0) 1 else t
                let t := { t with model := { t.model with stage := rest, tries := 0 }, pci := { t.pci with modRead := none } }
                if t.model.abort then modelFail cLoadAborted 0 t
                else if rest.isEmpty then t.set (TIER_MODEL_STATUS_STATE 0) mPlace
                else nextShard t
    | _, _ => s

def execModelStage (s : State) : Host.Outcome State Fault Refusal := .next (s.live modelStage)

/-! PLACE (R344). -/

/-- Takes the next page outcome; a page without one decodes at once. -/
def nextRead : List PageRead → PageRead × List PageRead
  | [] => (⟨[0], 0, true⟩, [])
  | r :: rs => (r, rs)

/-- Reads the pages of units: whether all decode. -/
def readPages : List Nat → List PageRead → State → Bool × List PageRead × State
  | [], rs, s => (true, rs, s)
  | lp :: lps, rs, s =>
    let q := nextRead rs
    let r := readPage lp true q.1 s
    if r.1 then readPages lps q.2 r.2 else (false, q.2, r.2)

/-- Fetches shard `j` of a block in PLACE, with up to 3 retries (R346): a code, 0 where it landed. -/
def placeShard (m : ModelBlk) (j : Nat) : Nat → List PageRead → State → Nat × List PageRead × State
  | 0, rs, s => (cTierTag, rs, s)
  | f + 1, rs, s =>
    let b := blkAt s m.index
    let us := (List.range (shardUnits m.len j)).map (fun i => 16 * j + i)
    let q := readPages (us.flatMap (fun u => (List.range 4).map (fun i => 4 * (b.lu + u) + i))) rs s
    if !q.1 then (cTierSilo, q.2.1, q.2.2)
    else
      let g := tagRead (tierCons (m.index % 4) true) (tagAddr q.2.2 (m.tag + j)) q.2.2
      let t := g.2
      match g.1, g.1.bind (fun tag => openShard t.model m.b j (us.flatMap (fun u => unitData t (b.lu + u))) tag) with
      | none, _ => (cMemUncorr, q.2.1, t)
      | some _, some plain =>
        (0, q.2.1, (landShard (tierCons (m.index % 4) true) b us plain t).count (TIER_FETCH_BYTES_COUNT (m.index % 4)) (unitBytes * us.length))
      | some _, none =>
        let t := secTagEvent (handleOf m.index b.gen) t
        if f = 0 then (cTierTag, q.2.1, t) else placeShard m j f q.2.1 (t.countSat (TIER_MODEL_RETRIES_COUNT 0) 1)

/-- Fetches shards in turn. -/
def placeShards (m : ModelBlk) : List Nat → List PageRead → State → Nat × List PageRead × State
  | [], rs, s => (0, rs, s)
  | j :: js, rs, s =>
    let r := placeShard m j 4 rs s
    if r.1 = 0 then placeShards m js r.2.1 r.2.2 else r

/-- Places one hinted block (R344). -/
def placeBlk (b : Nat) (rs : List PageRead) (s : State) : Nat × List PageRead × State :=
  match mblk s b with
  | none => (cTierHandle, rs, s)
  | some m =>
    let e := blkAt s m.index
    match findRun s (b % 4) (frameCount m.len) [] with
    | none => (cTierFrames, rs, s)
    | some p =>
      let f := { e with st := bResident, off := p.1 * stackSize + p.2 * frameSize }
      if blkFenced s f then (cMemUncorr, rs, s)
      else
        let pin := (dirEnt s.model.dir b).hint == 2
        let g := { f with pins := if pin then f.pins + 1 else f.pins }
        let t := putBlk (tierCons (b % 4) true) m.index g (chargeFrames (b % 4) g (zeroFrames g (setFrames m.index g fResident s)))
        let r := placeShards m (List.range (shards m.len)) rs t
        if r.1 ≠ 0 then r
        else
          let u := r.2.2.count (TIER_MODEL_PROG_PLACED 0) 1
          (0, r.2.1, { u with model := { u.model with blocks := u.model.blocks.map (fun x => if x.b == b then { x with pin := pin } else x) } })

/-- Places the hinted blocks in directory order. -/
def placeBlks : List Nat → List PageRead → State → Nat × State
  | [], _, s => (0, s)
  | b :: bs, rs, s =>
    let r := placeBlk b rs s
    if r.1 = 0 then placeBlks bs r.2.1 r.2.2 else (r.1, r.2.2)

/-- The handle table (R344). -/
def handleTable (s : State) : List Nat :=
  let m := s.model
  (List.range (mhLayers m.hdr)).map (fun l =>
    (s.get (TIER_MODEL_LIMIT_MAP_BASE 0) + layerSum m l) % 2 ^ 21 + layerE m.lay l * 2 ^ 21) ++
  (List.range (mhBlocks m.hdr)).map (fun b =>
    match mblk s b with
    | some x => handleOf x.index (blkAt s x.index).gen + 2 ^ 32
    | none => 0)

/-- HBM offset of the handle table. -/
def htabAddr (s : State) : Nat := s.get (TIER_MODEL_HTAB_BASE 0) * 64

/-- Measurement 10 (R454): IMAGE_ID and SIGNER_ID of the resident model. -/
def measModel (s : State) : Nat := (Config.sha384 ((s.model.hdr.drop 16).take 8 ++ (s.model.hdr.drop 208).take 48)).toNat

/-- Replaces a measurement; a value of zero stands for none. -/
def setMeas (i v : Nat) (s : State) : State := { s with sec := { s.sec with meas := Tab.set (fun _ => 0) s.sec.meas i v } }

/-- MODEL_PLACE (R344), with what the flash yields for the pages in the order read. -/
def modelPlace (rs : List PageRead) (s : State) : State :=
  if modelSt s ≠ mPlace || s.partFenced then s
  else if s.model.abort then modelFail cLoadAborted 0 s
  else if !siloReady s && !(hinted s).isEmpty then modelFail cTierSilo 0 s
  else
    let r := placeBlks (hinted s) rs s
    if r.1 ≠ 0 then modelFail r.1 0 r.2
    else
      let t := memWrite (some (tierCons 0 true)) (htabAddr r.2) (bytesOfWords (handleTable r.2)) r.2
      setMeas 10 (measModel t) ((t.set (TIER_MODEL_STATUS_STATE 0) mResident).raise (TIER_MODEL_IRQ_DONE 0))

def execModelPlace (reads : List PageRead) (s : State) : Host.Outcome State Fault Refusal := .next (s.live (modelPlace reads))

/-! UNLOAD and ABORT (R341, R349). -/

/-- Whether an UNLOAD is accepted: no WEIGHT block BUSY, no pin but the load's own. -/
def unloadOk (s : State) : Bool :=
  modelSt s == mResident && s.model.blocks.all (fun m =>
    let b := blkAt s m.index
    b.kind != bkWeight || (!b.busy && b.pins == ofBool m.pin))

/-- What a KEEP_SILO unload keeps. -/
def keptOf (s : State) : ModelKept :=
  { hdr := s.model.hdr, dir := s.model.dir, lay := s.model.lay, tags := s.model.tags,
    ext := (s.model.blocks.filter (fun m => (blkAt s m.index).kind == bkWeight && (blkAt s m.index).st != bUnused)).map
      (fun m => (m.b, (blkAt s m.index).lu)) }

/-- Releases an image kept before. -/
def dropKept (s : State) : State :=
  match s.model.kept with
  | none => s
  | some k =>
    let t := k.ext.foldl (fun t e => freeExtent e.2 (dirEnt k.dir e.1).len t) s
    { t with model := { t.model with kept := none } }

/-- MODEL_UNLOAD (R349). -/
def modelUnload (keep : Bool) (s : State) : State :=
  if s.partFenced then s
  else if !unloadOk s then modelCode cLoadState 0 s
  else
    let k := keptOf s
    let n := 8 * (mhLayers s.model.hdr + mhBlocks s.model.hdr)
    let t := s.model.blocks.foldl (fun t m =>
      let b := blkAt t m.index
      if b.kind = bkWeight && m.pin then putBlk (tierCons (m.index % 4) true) m.index { b with pins := 0 } t else t) s
    let same := s.model.restage
    -- an image kept before a load from the host is released with the blocks of neither kept
    let t := if same then t else dropKept t
    let t := eraseModelKey (dropBlocks keep t)
    let t := memWrite (some (tierCons 0 true)) (htabAddr t) (List.replicate n 0) t
    let t := { t with model := { kept := if keep then some k else none } }
    let t := (t.set (TIER_MODEL_STATUS_STATE 0) mEmpty).raise (TIER_MODEL_IRQ_DONE 0)
    setMeas 10 0 (if keep then t else t.set (TIER_MODEL_ID_IMAGE_ID 0) 0)

def execModelUnload (keep : Bool) (s : State) : Host.Outcome State Fault Refusal := .next (s.live (modelUnload keep))

/-- MODEL_ABORT (R341): takes effect at the next shard boundary of a load in progress. -/
def modelAbort (s : State) : State :=
  if modelSt s = mEmpty || modelSt s = mResident || s.partFenced then s
  else { s with model := { s.model with abort := true } }

def execModelAbort (s : State) : Host.Outcome State Fault Refusal := .next (s.live modelAbort)

end Sys2Proof.Machine
end

