-- ==== Sys2Proof/Machine/Tenants.lean ====
section
/-!
DEFINITION. Tenants (14_plots_and_tenants) and doorbells (17_host_interface R418, R419): request queues, output rings, the
serving loop of die firmware (R358 to R363, R366), and pre-emption (R369).
-/
namespace Sys2Proof.Machine

/-! Codes. -/
def cTenReq : Nat := 0x0A20
def cTenCancelled : Nat := 0x0A21
def cTenClosed : Nat := 0x0A22

/-! Doorbells. -/

/-- The plot whose tenant range holds `tn` (R354). -/
def plotOfTenant (s : State) (tn : Nat) : Option Nat :=
  s.plots.findIdx? (fun q => q.en && decide (q.tenFirst ≤ tn) && decide (tn < q.tenFirst + q.tenCount))

/-- A write to a doorbell page (R418, R419, R423): at the offset it lands on, with its width in bytes. -/
def doorbell (want : Nat) (f : Fld) (tn off width : Nat) (poisoned : Bool) (v : Word) (s : State) : State :=
  if !s.flag PCI_STATUS_READY || s.pci.perst then s
  else if poisoned then pciNote cPciPoison 0 (tn * 512 + off / 8) (s.countSat PCI_DB_DROP_COUNT 1)
  else if off ≠ want || (width != 4 && width != 8) then s.countSat PCI_DB_DROP_COUNT 1
  else if (plotOfTenant s tn).isNone then
    pciNote cPciDbRange 0 (tn * 512 + off / 8) (s.countSat PCI_DB_DROP_COUNT 1)
  else
    let p := PCI_DB_PEND_PEND (tn / 64)
    (s.set f (f.of v)).set p (s.get p ||| 2 ^ (tn % 64))

/-- DOORBELL_QTAIL (R418, R419). -/
def doorbellQtail (tn off width : Nat) (poisoned : Bool) (v : Word) (s : State) : State :=
  doorbell 0 (PCI_DB_Q_QTAIL tn) tn off width poisoned v s

def execDoorbellQtail (tn : Fin 8192) (off : Fin 4096) (width : Nat) (poisoned : Bool) (v : Word) (s : State) :
    Host.Outcome State Fault Refusal :=
  .next (doorbellQtail tn off width poisoned v s)

/-- DOORBELL_OHEAD (R418, R419). -/
def doorbellOhead (tn off width : Nat) (poisoned : Bool) (v : Word) (s : State) : State :=
  doorbell 8 (PCI_DB_O_OHEAD tn) tn off width poisoned v s

def execDoorbellOhead (tn : Fin 8192) (off : Fin 4096) (width : Nat) (poisoned : Bool) (v : Word) (s : State) :
    Host.Outcome State Fault Refusal :=
  .next (doorbellOhead tn off width poisoned v s)

/-! The tenant table (R357). -/

/-- A tenant's entry. -/
structure TenEnt where
  state : Nat := 0
  qsize : Nat := 0
  osize : Nat := 0
  qbase : Nat := 0
  obase : Nat := 0
  maxPrompt : Nat := 0
  maxNew : Nat := 0
  qhead : Nat := 0
  otail : Nat := 0
deriving DecidableEq, Repr

def tenOpen : Nat := 1
def tenDraining : Nat := 2

/-- HBM offset of a tenant's entry. -/
def tenAddr (s : State) (tn : Nat) : Nat := s.cfg.tenTable + 64 * tn

/-- What die firmware of plot `n` accesses memory as (log entry 31). -/
def servWho (n : Nat) (s : State) : Who := { k := 0, key := (s.plots.getD n {}).pkey, cons := some n }

/-- A tenant's entry; one that breaks R357 or cannot be read stands as CLOSED (R358). -/
def tenEnt (n tn : Nat) (s : State) : TenEnt :=
  let r := unitRead (servWho n s) (tenAddr s tn) 64 s
  let w := wordsOf r.2.1 8
  let f := fun i lo len => bitsOf (w.getD i 0) lo len
  let e : TenEnt := { state := f 0 1 2, qsize := f 0 7 13, osize := f 0 20 17, qbase := f 2 0 46, obase := f 3 0 46,
                      maxPrompt := f 4 0 32, maxNew := f 4 32 32, qhead := f 5 0 13, otail := f 5 32 17 }
  let ok := r.1 == 0 && f 0 0 1 == 1 && f 0 3 4 == n && decide (e.state ≤ 2) && decide (16 ≤ e.qsize) && decide (e.qsize ≤ 4096) &&
    decide (16 ≤ e.osize) && decide (e.osize ≤ 65536) && e.qbase % 64 == 0 && e.obase % 64 == 0 && decide (1 ≤ e.maxPrompt) &&
    decide (1 ≤ e.maxNew) &&
    onlyBits w [bitMask 0 36, allBits, bitMask 0 45, bitMask 0 45, allBits, bitMask 0 12 + bitMask 32 48, 0, 0]
  if ok then e else { e with state := 0 }

/-- Writes word 5 of an entry: QHEAD and OTAIL, die firmware's own. -/
def putHeads (n tn qhead otail : Nat) (s : State) : State :=
  unitWrite (servWho n s) (tenAddr s tn + 40) (toBytes 8 (qhead + otail * 2 ^ 32)) s

/-! Output (R360, R361). -/

/-- An output record. -/
def outWords (req pos token prob rdig status : Nat) (final : Bool) : List Nat :=
  [req + pos * 2 ^ 32, token + prob * 2 ^ 32, rdig, status + ofBool final * 2 ^ 16]

/-- The FINAL record of a request. -/
def finalRec (r : ServReq) (status : Nat) : List Nat :=
  outWords r.req (r.promptLen + r.made) 0xFFFFFFFF 0x7FC00000 0 status true

/-- Ends a request: its FINAL record is formed. -/
def endReq (status : Nat) (r : ServReq) : ServReq := { r with out := r.out ++ [finalRec r status], fin := true }

/-- Writes the output records that the ring has room for; an ended request with STATUS 0 is counted in the accounting array
(R361). -/
def flushOut (n : Nat) (r : ServReq) : List (List Nat) → State → List (List Nat) × State
  | [], s => ([], s)
  | ws :: rest, s =>
    let e := tenEnt n r.tenant s
    if e.osize = 0 || (e.otail + 1) % e.osize == s.get (PCI_DB_O_OHEAD r.tenant) then (ws :: rest, s)
    else
      let t := unitWrite (servWho n s) (e.obase + 32 * e.otail) (bytesOfWords ws) s
      let t := putHeads n r.tenant e.qhead ((e.otail + 1) % e.osize) t
      let w3 := ws.getD 3 0
      let acct := t.cfg.tenAcct + 8 * r.tenant
      let who := servWho n t
      let t := if w3 = 2 ^ 16 && accessCode t who.k who.key pA acct 8 == 0 then
          memWrite who.cons acct (toBytes 8 (t.readLE acct 8 + 1)) t else t
      flushOut n r rest t

/-- Writes what every request of the plot has waiting; an ended request with nothing left is gone. -/
def flushAll (n : Nat) (s : State) : State :=
  s.serv.reqs.foldl (fun t r =>
    if r.plot ≠ n then { t with serv := { t.serv with reqs := t.serv.reqs ++ [r] } }
    else
      let q := flushOut n r r.out t
      let r2 := { r with out := q.1 }
      let keep := !(r2.fin && r2.out.isEmpty)
      { q.2 with serv := { q.2.serv with reqs := q.2.serv.reqs ++ (if keep then [r2] else []) } })
    { s with serv := { s.serv with reqs := [] } }

/-! Reading requests (R359). -/

/-- Whether a running request of a tenant has a REQ. -/
def running (s : State) (tn req : Nat) : Bool := s.serv.reqs.any (fun r => r.tenant == tn && r.req == req && !r.fin)

/-- Whether a GENERATE or CANCEL record obeys the table. -/
def reqOk (e : TenEnt) (w : List Nat) : Bool :=
  let kind := dw w 0 0 4
  if kind = 1 then
    onlyBits w [bitMask 0 35, allBits, allBits, allBits, bitMask 0 15 + bitMask 32 63, 0, 0, 0] &&
      decide (1 ≤ dw w 2 0 32) && decide (dw w 2 0 32 ≤ e.maxPrompt) && decide (1 ≤ dw w 2 32 32) && decide (dw w 2 32 32 ≤ e.maxNew)
  else kind == 2 && onlyBits w [bitMask 0 35, 0, 0, 0, 0, bitMask 0 31, 0, 0]

/-- The request that a record asks for. -/
def reqOf (n tn : Nat) (w : List Nat) : ServReq :=
  { plot := n, tenant := tn, req := dw w 0 4 32, promptLen := dw w 2 0 32, newLen := dw w 2 32 32, stop := dw w 4 32 32 }

/-- Reads a tenant's next request record: its words, with QHEAD advanced. -/
def readReq (n tn : Nat) (e : TenEnt) (s : State) : List Nat × State :=
  let r := unitRead (servWho n s) (e.qbase + 64 * e.qhead) 64 s
  (wordsOf r.2.1 8, putHeads n tn ((e.qhead + 1) % e.qsize) e.otail r.2.2)

/-- Whether a tenant is OPEN with unread requests. -/
def hasWork (n tn : Nat) (s : State) : Bool :=
  let e := tenEnt n tn s
  e.state == tenOpen && e.qhead != s.get (PCI_DB_Q_QTAIL tn)

/-- Adds a request to those that die firmware holds. -/
def addReq (r : ServReq) (s : State) : State := { s with serv := { s.serv with reqs := s.serv.reqs ++ [r] } }

/-- Tokens that a request contributes to an iteration (R362): 0 while it waits or has ended. -/
def contrib (stepTok : Nat) (r : ServReq) : Nat :=
  if r.fin || !r.out.isEmpty then 0 else if r.taken < r.promptLen then min stepTok (r.promptLen - r.taken) else 1

/-- Admits requests (R362): the batch's tokens so far, and turns left. -/
def admitReqs (n : Nat) : Nat → Nat → State → State
  | 0, _, s => s
  | f + 1, tok, s =>
    let q := s.plots.getD n {}
    let last := Tab.get (fun _ => 8192) s.serv.last n
    let range := (List.range q.tenCount).map (fun i => q.tenFirst + i)
    let order := range.filter (fun tn => last == 8192 || decide (last < tn)) ++ range.filter (fun tn => last != 8192 && decide (tn ≤ last))
    match order.find? (fun tn => hasWork n tn s) with
    | none => s
    | some tn =>
      let e := tenEnt n tn s
      let rd := readReq n tn e s
      let w := rd.1
      let r := reqOf n tn w
      let here := fun (t : State) => { t with serv := { t.serv with last := Tab.set (fun _ => 8192) t.serv.last n tn } }
      if !reqOk e w || (dw w 0 0 4 == 1 && running s tn r.req) then
        admitReqs n f tok (here (addReq (endReq cTenReq { r with promptLen := 0 }) rd.2))
      else if dw w 0 0 4 = 2 then
        let t := { rd.2 with serv := { rd.2.serv with reqs := rd.2.serv.reqs.map (fun x =>
          if x.tenant == tn && x.req == dw w 5 0 32 && !x.fin then { x with cancel := true } else x) } }
        admitReqs n f tok (here t)
      else
        let c := contrib q.tenStepTok r
        if q.batchTok < tok + c then s
        else admitReqs n f (tok + c) (here (addReq r rd.2))

/-- Residency digest of a token (R366). -/
def rdigOf (rs : List Word) : Nat := rs.foldl (fun d r => dsrMix (d ^^^ r.toNat)) 0

/-- One iteration's work on a request (R362, R363). -/
def iterate (q : PlotCfg) (outs : List IterOut) (r : ServReq) : ServReq :=
  if contrib q.tenStepTok r = 0 then r
  else
    match outs.find? (fun o => o.tenant.toNat == r.tenant && o.req.toNat == r.req) with
    | some o =>
      if o.fail ≠ 0 then endReq o.fail.toNat r
      else if r.taken < r.promptLen then { r with taken := r.taken + contrib q.tenStepTok r }
      else
        let rdig := if q.resmode = 1 then rdigOf o.rsets else 0
        let r2 := { r with out := r.out ++ [outWords r.req (r.promptLen + r.made) o.token.toNat o.prob.toNat rdig 0 false],
                           made := r.made + 1 }
        if r2.made = r.newLen || (r.stop != 0xFFFFFFFF && o.token.toNat == r.stop) then endReq 0 r2 else r2
    | none => if r.taken < r.promptLen then { r with taken := r.taken + contrib q.tenStepTok r } else r

/-- SERVING_ITERATION (R358 to R363, R366): waiting output is written, cancels take effect, the batch is filled, and the
iteration brings each request its outcome. -/
def servingIteration (n : Nat) (outs : List IterOut) (s : State) : State :=
  let q := s.plots.getD n {}
  if !q.en || s.partFenced then s
  else
    let t := flushAll n s
    let t := { t with serv := { t.serv with reqs := t.serv.reqs.map (fun r =>
      if r.plot == n && r.cancel && !r.fin then endReq cTenCancelled r else r) } }
    let tok := (t.serv.reqs.filter (fun r => r.plot == n)).foldl (fun a r => a + contrib q.tenStepTok r) 0
    let t := admitReqs n 65536 tok t
    let t := { t with serv := { t.serv with reqs := t.serv.reqs.map (fun r => if r.plot == n then iterate q outs r else r) } }
    flushAll n t

def execServingIteration (n : Fin 16) (outs : List IterOut) (s : State) : Host.Outcome State Fault Refusal :=
  .next (s.live (servingIteration n outs))

/-- Ends a draining tenant's queued requests with TEN_CLOSED (R358). -/
def closeQueued (n tn : Nat) : Nat → State → State
  | 0, s => s
  | f + 1, s =>
    let e := tenEnt n tn s
    if e.qhead = s.get (PCI_DB_Q_QTAIL tn) then s
    else
      let rd := readReq n tn e s
      closeQueued n tn f (addReq (endReq cTenClosed { reqOf n tn rd.1 with promptLen := 0 }) rd.2)

/-- TENANT_DRAINING (R358): queued requests end, and the tenant is CLOSED once its admitted ones have. -/
def tenantDrain (tn : Nat) (s : State) : State :=
  match plotOfTenant s tn with
  | none => s
  | some n =>
    if (tenEnt n tn s).state ≠ tenDraining || s.partFenced then s
    else
      let t := flushAll n (closeQueued n tn 4096 s)
      if t.serv.reqs.any (fun r => r.tenant == tn) then t
      else
        let w0 := t.readLE (tenAddr t tn) 8
        unitWrite (servWho n t) (tenAddr t tn) (toBytes 8 (w0 - bitsOf w0 1 2 * 2)) t

def execTenantDraining (tn : Fin 8192) (s : State) : Host.Outcome State Fault Refusal := .next (s.live (tenantDrain tn))

/-! Pre-emption (R369). -/

/-- Clears a stopped core and runs it on a ring. -/
def runRing (p : Nat) (base size tail : Word) (s : State) : State :=
  let t := clearCore p s
  let t := (t.set (CORE_RING_BASE_BASE p) ((CORE_RING_BASE_BASE p).of base)).set (CORE_RING_SIZE_ENTRIES p)
    ((CORE_RING_SIZE_ENTRIES p).of size)
  runCore p (coreTailWrite p tail t)

/-- PREEMPT (R369, R370): die firmware kills the BE list of a core; once it is KILLED, it runs the LC list's ring, and after
that list's END the ring that re-runs the BE list from its segment's first command. Each step is one of the three. -/
def preempt (p : Nat) (base size tail : Word) (s : State) : State :=
  let ph := Tab.get (fun _ => 0) s.serv.pre p
  let st := s.get (CORE_STATUS_STATE p)
  let be := match s.plotOf p with | some n => (s.plots.getD n {}).cls == 1 | none => false
  let phase := fun (v : Nat) (t : State) => { t with serv := { t.serv with pre := Tab.set (fun _ => 0) t.serv.pre p v } }
  if ph = 0 then (if be && st == stRunning then phase 1 (killCore p s) else s)
  else if ph = 1 then (if st = stKilled then phase 2 (runRing p base size tail s) else if st = stRunning then s else phase 0 s)
  else if st = stDone then phase 0 (runRing p base size tail s)
  else if st = stRunning then s else phase 0 s

def execPreempt (p : Fin 144) (base size tail : Word) (s : State) : Host.Outcome State Fault Refusal :=
  .next (s.live (preempt p base size tail))

end Sys2Proof.Machine
end

