-- ==== Sys2Proof/Machine/Image.lean ====
section
/-!
DEFINITION. Structure and firmware images (16_structure_image_firmware): the container (R396 to R398), sections (R399 to
R404), the checks of R405, and what each section loads.
-/
namespace Sys2Proof.Machine

/-! Codes. -/
def cImgFormat : Nat := 0x0A10
def cImgSig : Nat := 0x0A11
def cImgVersion : Nat := 0x0A12
def cImgCheck : Nat := 0x0A13
def cFwSig : Nat := 0x0A14
def cFwMissing : Nat := 0x0A15
def cRsvOversub : Nat := 0x0601

/-! Header fields (R396). -/

def ihId (g : List Byte) : Nat := le g 16 8
def ihSvn (g : List Byte) : Nat := le g 24 4
def ihSections (g : List Byte) : Nat := le g 28 4
def ihDirOff (g : List Byte) : Nat := le g 32 4
def ihKind (g : List Byte) : Nat := le g 36 4
def ihBytes (g : List Byte) : Nat := le g 40 8
def ihSteps (g : List Byte) : Nat := le g 48 2
def ihGrades (g : List Byte) : Nat := le g 50 2
def ihBase (g : List Byte) : Nat := le g 52 8
def ihRole (g : List Byte) : Nat := le g 60 1
def ihSigner (g : List Byte) : Nat := le g 112 48

/-- The header's fixed parts, common to both formats. -/
def hdrOk (g : List Byte) : Bool :=
  decide (512 ≤ g.length) && le g 8 4 == 1 && le g 12 4 == 512 && decide (512 ≤ ihBytes g) && decide (ihBytes g ≤ 67108864) &&
    ihBytes g == g.length && allZero ((g.drop 61).take 3) && allZero ((g.drop 68).take 44) && allZero ((g.drop 257).take 159)

/-- A structure image's header. -/
def structHdrOk (g : List Byte) : Bool :=
  hdrOk g && g.take 8 == [0x4B, 0x58, 0x53, 0x54, 0x52, 0x55, 0x43, 0x31] && decide (1 ≤ ihSections g) &&
    decide (ihSections g ≤ 64) && ihDirOff g % 64 == 0 && decide (ihKind g ≤ 1) && (ihKind g == 1 || ihBase g == 0) &&
    ihRole g == 0 && le g 64 4 == 0

/-- A firmware image's header. -/
def fwHdrOk (g : List Byte) : Bool :=
  hdrOk g && g.take 8 == [0x4B, 0x58, 0x46, 0x57, 0x49, 0x4D, 0x47, 0x31] && ihSections g == 0 && ihDirOff g == 0 &&
    ihKind g == 2 && ihBase g == 0 && decide (1 ≤ ihRole g) && decide (ihRole g ≤ 3) && (ihRole g == 2 || le g 64 4 == 0)

/-- Whether a signature verifies and its signer is among those trusted (R397). -/
def imageSigned (g : List Byte) (trusted : List Nat) : Bool :=
  (Config.sha384 ((g.drop 160).take 97)).toNat == ihSigner g && trusted.contains (ihSigner g) &&
    Config.ecdsaVerify (Config.sha384 ((g.drop 160).take 97)) (Config.sha384 (g.take 416 ++ g.drop 512)) ((g.drop 416).take 96)

/-- The owner keys fused (R452). -/
def ownerKeys : List Nat := (List.range Config.ownerKeys.val).map (fun i => (Config.ownerKeyHash i).toNat)

/-- Whether SVN, stepping and grade fit the part (R397). -/
def imageFits (g : List Byte) : Bool :=
  decide (Config.svnMin.toNat ≤ ihSvn g) && (ihSteps g).testBit (if Config.steppingA0 then 0 else 1) &&
    (ihGrades g).testBit (if Config.gradeF09 then 1 else 0)

/-! Sections (R398, R399). -/

/-- A directory entry: ID, offset and bytes. -/
structure Sect where
  id : Nat
  off : Nat
  len : Nat
deriving DecidableEq, Repr

/-- The section directory. -/
def sects (g : List Byte) : List Sect :=
  (List.range (ihSections g)).map (fun i =>
    let a := ihDirOff g + 32 * i
    { id := bitsOf (le g a 8) 0 16, off := le g (a + 8) 8, len := le g (a + 16) 8 })

/-- Bytes of a section; none where the image does not carry it. -/
def sect (g : List Byte) (id : Nat) : Option (List Byte) :=
  ((sects g).find? (fun x => x.id == id)).map (fun x => (g.drop x.off).take x.len)

/-- The sections that may be swapped. -/
def swappable (id : Nat) : Bool := id == 5 || id == 7 || id == 8 || id == 9

/-- REG sections. -/
def isReg (id : Nat) : Bool := [1, 2, 4, 5, 6, 7, 9, 0xB].contains id

/-- Bytes of the BLOB sections (R401 to R404). -/
def blobLen (id : Nat) : Nat :=
  if id = 3 then 1088 else if id = 8 then 1944 else if id = 0xA then 48 else if id = 0xC then 88 else if id = 0xD then 640 else 240

/-- Whether two byte ranges are apart. -/
def apart (a n b m : Nat) : Bool := decide (a + n ≤ b) || decide (b + m ≤ a) || n == 0 || m == 0

/-- Whether every two members of a list of ranges are apart. -/
def allApart : List (Nat × Nat) → Bool
  | [] => true
  | x :: xs => xs.all (fun y => apart x.1 x.2 y.1 y.2) && allApart xs

/-- The directory obeys R398 and R399, with every section of its fixed size. -/
def dirOk (g : List Byte) : Bool :=
  let ss := sects g
  (List.range (ihSections g)).all (fun i =>
    let a := ihDirOff g + 32 * i
    le g a 8 / 2 ^ 24 == 0 && bitsOf (le g a 8) 16 8 == 1 && le g (a + 24) 8 == 0) &&
  ss.all (fun x => decide (1 ≤ x.id) && decide (x.id ≤ 0xE) && x.off % 64 == 0 && decide (x.off + x.len ≤ ihBytes g) &&
    (if isReg x.id then x.len % 16 == 0 else x.len == blobLen x.id)) &&
  (ss.map (fun x => x.id)).Nodup &&
  allApart ((0, 512) :: (ihDirOff g, 32 * ihSections g) :: ss.map (fun x => (x.off, x.len))) &&
  (ihKind g == 1 || (List.range 14).all (fun i => ss.any (fun x => x.id == i + 1)))

/-! REG sections (R399, R400). -/

/-- Registers that a section loads: section, first address, two repeat counts and strides, the bits loaded, those of them
that are IMG, and the stride of its copies in the routing dies where it is named at its RD0 instance (R400). -/
structure LoadReg where
  sec : Nat
  base : Nat
  n1 : Nat := 1
  s1 : Nat := 1
  n2 : Nat := 1
  s2 : Nat := 1
  mask : Nat
  img : Nat
  rep : Nat := 0
deriving DecidableEq, Repr

/-- Bits [hi : lo]. -/
def bm (hi lo : Nat) : Nat := bitMask lo hi

/-- The table of R399. The expert map's registers are taken as replicated (log entry 33). -/
def loadRegs : List LoadReg :=
  [{ sec := 1, base := vtBase 0, mask := bm 19 2, img := bm 19 2, rep := 0x4000000 },
   { sec := 2, base := coreBase 0, n1 := 144, s1 := 0x100000, mask := bm 23 16, img := bm 23 16 },
   { sec := 4, base := vlBase 0 + 0x8, n1 := 19, s1 := 0x100000, mask := 1, img := 1 },
   { sec := 4, base := vlBase 0 + 0x38, n1 := 19, s1 := 0x100000, mask := bm 22 0 + bm 25 24, img := bm 22 0 + bm 25 24 },
   { sec := 4, base := vlBase 0 + 0x70, n1 := 19, s1 := 0x100000, mask := bm 5 0, img := bm 5 0 },
   { sec := 4, base := vlBase 15 + 0x180, n1 := 4, s1 := 0x100000, n2 := 9, s2 := 8, mask := bm 31 16, img := bm 31 16 },
   { sec := 5, base := vtBase 0 + 0xC00, n1 := 16, s1 := 8, mask := bm 24 0, img := bm 24 0, rep := 0x4000000 },
   { sec := 5, base := vtBase 0 + 0x10000, n1 := 16384, s1 := 8, mask := bm 16 0, img := bm 16 0, rep := 0x4000000 },
   { sec := 6, base := tierBase 0 + 0x40, n1 := 4, s1 := 0x2000000, n2 := 2, s2 := 8, mask := bm 14 0 + bm 31 16,
     img := bm 14 0 + bm 31 16 }] ++
  [{ sec := 6, base := tierBase 0 + 0x30, mask := bm 45 6, img := bm 45 6, rep := 0x2000000 },
   { sec := 6, base := tierBase 0 + 0x38, mask := bm 20 0, img := bm 20 0, rep := 0x2000000 },
   { sec := 6, base := thrBase 0 + 0x30, mask := bm 45 6, img := bm 45 6, rep := 0x4000000 },
   { sec := 6, base := thrBase 0 + 0x38, mask := bm 21 0, img := bm 21 0, rep := 0x4000000 },
   { sec := 6, base := tierBase 0 + 0x80038, n1 := 2, s1 := 8, mask := bm 45 6, img := bm 45 6 },
   { sec := 6, base := tierBase 0 + 0x80048, mask := bm 25 0 + bm 57 32, img := bm 25 0 + bm 57 32 },
   { sec := 6, base := tierBase 0 + 0x80050, mask := bm 39 0, img := bm 39 0 }] ++
  [{ sec := 7, base := vtBase 0 + 0x400, n1 := 64, s1 := 16, mask := bm 34 0, img := bm 34 0, rep := 0x4000000 },
   { sec := 7, base := vtBase 0 + 0x408, n1 := 64, s1 := 16, mask := bm 53 0, img := bm 53 0, rep := 0x4000000 },
   { sec := 7, base := vtBase 0 + 0x800, n1 := 64, s1 := 8, mask := bm 16 0, img := bm 16 0, rep := 0x4000000 },
   { sec := 7, base := vtBase 0 + 0x1030, n1 := 4, s1 := 0x4000000, n2 := 64, s2 := 64, mask := bm 15 0, img := bm 15 0 },
   { sec := 9, base := tierBase 0 + 0x10000, n1 := 8192, s1 := 32, mask := bm 18 0, img := bm 18 0 },
   { sec := 9, base := tierBase 0 + 0x10008, n1 := 8192, s1 := 32, mask := bm 17 0, img := bm 17 0 },
   { sec := 9, base := tierBase 0 + 0x10010, n1 := 8192, s1 := 32, mask := bm 39 0, img := bm 39 0 },
   { sec := 0xB, base := almBase + 0x20, mask := bm 15 0, img := bm 10 0 }]

/-- Whether an address is one of a row's registers. -/
def LoadReg.hits (r : LoadReg) (a : Nat) : Bool :=
  if a < r.base then false
  else
    let d := a - r.base
    if r.n1 = 1 then d == 0
    else
      let i := d / r.s1
      let e := d % r.s1
      decide (i < r.n1) && (if r.n2 = 1 then e == 0 else e % r.s2 == 0 && decide (e / r.s2 < r.n2))

/-- The row of a section that an address belongs to. -/
def loadReg (id a : Nat) : Option LoadReg := loadRegs.find? (fun r => r.sec == id && r.hits a)

/-- The records of a REG section: address and value. -/
def regRecs (bs : List Byte) : List (Nat × Nat) :=
  (List.range (bs.length / 16)).map (fun i => (le bs (16 * i) 8, le bs (16 * i + 8) 8))

/-- Whether a REG section obeys R400. -/
def regSectOk (id : Nat) (bs : List Byte) : Bool :=
  (regRecs bs).all (fun r => match loadReg id r.1 with
    | some x => r.2 &&& (2 ^ 64 - 1 - x.mask) == 0
    | none => false) && ((regRecs bs).map Prod.fst).Nodup

/-- What an image gives a register: its section's record, zero where the section does not name it (R400). -/
def imgReg (g : List Byte) (id a : Nat) : Option Nat :=
  (sect g id).map (fun bs => match (regRecs bs).find? (fun r => r.1 == a) with | some r => r.2 | none => 0)

/-- What a register will hold under an image: its value in force where an AMEND does not carry the section. -/
def imgVal (s : State) (g : List Byte) (id a : Nat) : Nat := (imgReg g id a).getD (s.word a).toNat

/-- A field of it. -/
def imgFld (s : State) (g : List Byte) (id : Nat) (f : Fld) : Nat := bitsOf (imgVal s g id f.addr) f.lo f.len

/-! BLOB sections (R401, R403). -/

/-- Plot `n` of a PLOTS section. -/
def plotEnt (bs : List Byte) (n : Nat) : PlotCfg :=
  let w := fun i => le bs (64 + 64 * n + 8 * i) 8
  { en := bitOf (w 0) 0, cls := bitsOf (w 0) 1 1, pers := bitsOf (w 0) 2 1, pair := bitsOf (w 0) 3 1,
    resmode := bitsOf (w 0) 4 1, pkey := bitsOf (w 0) 16 16, cores := w 1 + w 2 * 2 ^ 64, cap := bitsOf (w 3) 0 14,
    capBeMin := bitsOf (w 3) 14 14, batchTok := bitsOf (w 3) 28 21, tenStepTok := bitsOf (w 4) 0 21,
    tenFirst := bitsOf (w 4) 21 13, tenCount := bitsOf (w 4) 34 14 }

/-- The sixteen plots. -/
def plotEnts (bs : List Byte) : List PlotCfg := (List.range 16).map (plotEnt bs)

/-- Whether the unused bits of PLOTS are zero. -/
def plotsForm (bs : List Byte) : Bool :=
  allZero ((bs.drop 16).take 48) && (List.range 16).all (fun n =>
    let w := fun i => le bs (64 + 64 * n + 8 * i) 8
    onlyBits [w 0, w 3, w 4, w 5, w 6, w 7] [bm 4 0 + bm 31 16, bm 48 0, bm 47 0, 0, 0, 0])

/-! The checks of R405. -/

/-- Row 4: R16. -/
def coresOk (bs : List Byte) : Bool :=
  let v := fun p => match (regRecs bs).find? (fun r => r.1 == coreBase p) with | some r => r.2 | none => 0
  let fal := fun p => bitOf (v p) 23
  let log := fun p => bitsOf (v p) 16 7
  (List.range 16).all (fun d => ((List.range 9).filter (fun i => fal (9 * d + i))).length == 1) &&
    (List.range 144).all (fun p => !fal p || log p == 0) &&
    (List.range 128).all (fun l => ((List.range 144).filter (fun p => !fal p && log p == l)).length == 1)

/-- Row 5: PLOTS. -/
def plotsOk (s : State) (g bs : List Byte) : Bool :=
  let ps := (plotEnts bs).filter (fun q => q.en)
  let keyed := fun (k : Nat) => (List.range 64).any (fun i => imgFld s g 7 (VT_KEY_EN 0 i) == 1 && imgFld s g 7 (VT_KEY_KEY 0 i) == k)
  (List.range 128).all (fun l => decide ((ps.filter (fun q => q.cores.testBit l)).length ≤ 1)) &&
    allApart (ps.map (fun q => (q.tenFirst, q.tenCount))) &&
    ps.all (fun q => decide (1 ≤ q.cap) && decide (q.cap ≤ 8192) && decide (q.capBeMin ≤ q.cap) && decide (q.tenStepTok ≤ q.batchTok) &&
      decide (q.tenFirst + q.tenCount ≤ 8192) && keyed q.pkey && q.pkey != 0xFFFF) &&
    (ps.map (fun q => q.pkey)).Nodup

/-- Row 6: PORTS (R259). -/
def portsOk (s : State) (g : List Byte) : Bool :=
  let node := imgFld s g 1 (VT_ID_NODE 0)
  let peers := ((List.range 15).filter (fun n => imgFld s g 4 ⟨vlBase n + 0x8, 0, 1⟩ == 1)).map (fun n => imgFld s g 4 ⟨vlBase n + 0x38, 0, 18⟩)
  peers.all (fun p => p / 16 == node / 16 && p % 16 != node % 16) && (peers.map (fun p => p % 16)).Nodup

/-- The regions of row 7 at their full extent, as offset and bytes: tier regions, then block table, expert map, handle and tag
tables, page map, tenant table, accounting array. -/
def mapRegions (s : State) (g : List Byte) : List (Nat × Nat) :=
  let v := imgFld s g 6
  let tab := fun (f : Fld) => v f * 64
  let pm := match sect g 0xA with | some b => (bitsOf (le b 16 8) 0 46, le b 24 8) | none => s.cfg.pageMap
  let tt := match sect g 3 with | some b => (le b 0 8, le b 8 8) | none => (s.cfg.tenTable, s.cfg.tenAcct)
  (List.range 8).map (fun m => (m * stackSize + v (TIER_REGION_FIRST (m / 2) (m % 2)) * frameSize,
    v (TIER_REGION_COUNT (m / 2) (m % 2)) * frameSize)) ++
  [(tab (TIER_BT_BASE_BASE 0), v (TIER_BT_SIZE_ENTRIES 0) * 64), (tab (THR_MAP_BASE_BASE 0), v (THR_MAP_SIZE_ENTRIES 0) * 64),
   (tab (TIER_MODEL_HTAB_BASE 0), v (TIER_MODEL_TABSZ_HTAB 0) * 64), (tab (TIER_MODEL_TTAB_BASE 0), v (TIER_MODEL_TABSZ_TTAB 0) * 65536),
   pm, (tt.1, 524288), (tt.2, 65536)]

/-- Row 7. -/
def memmapOk (s : State) (g : List Byte) : Bool :=
  let rs := mapRegions s g
  rs.all (fun r => r.2 == 0 || inHbm r.1 r.2) && allApart rs &&
    (List.range 8).all (fun m => decide (imgFld s g 6 (TIER_REGION_FIRST (m / 2) (m % 2)) + imgFld s g 6 (TIER_REGION_COUNT (m / 2) (m % 2)) ≤ 32768)) &&
    (match sect g 3 with | some b => le b 0 8 % 64 == 0 && le b 8 8 % 64 == 0 | none => true)

/-- Whether a window covers only offsets that reach something (R260). -/
def winMapped (lo n : Nat) : Bool :=
  inHbm lo n || (decide (csOffset 0 0 ≤ lo) && decide (lo + n ≤ csOffset 144 0)) ||
    (decide (0x200000000000 ≤ lo) && decide (lo + n ≤ 0x200200000000))

/-- Row 8: WINDOWS. -/
def windowsOk (s : State) (g : List Byte) : Bool :=
  let prot := (mapRegions s g).drop 8
  let prot := [prot.getD 0 (0, 0), prot.getD 2 (0, 0), prot.getD 3 (0, 0), prot.getD 4 (0, 0)]
  (List.range 64).all (fun i =>
    let v := imgFld s g 7
    let b := v (VT_WIN_A_BASE 0 i)
    let l := v (VT_WIN_B_LIMIT 0 i)
    v (VT_WIN_A_EN 0 i) == 0 ||
      (decide (b ≤ l) && winMapped (b * 4096) ((l + 1 - b) * 4096) &&
        (v (VT_WIN_B_PERM 0 i) / 2 == 0 || prot.all (fun r => apart (b * 4096) ((l + 1 - b) * 4096) r.1 r.2))))

/-- Row 9: the reservation table (R310, R311, R402). -/
def reserveOk (bs : List Byte) : Bool :=
  (List.range 81).all (fun r =>
    let sh := (List.range 24).map (fun c => (bs.getD (24 * r + c) 0).toNat)
    sh.all (fun x => decide (x ≤ 100)) && decide (sh.foldl (· + ·) 0 ≤ (if r < 8 then 85 else 90)))

/-- Row 10: SILO. The page zone is taken over the capacity probed last (log entry 32). -/
def siloSectOk (s : State) (bs : List Byte) : Bool :=
  let w0 := le bs 0 8
  let zone := bitsOf w0 14 14
  decide (bitsOf (le bs 40 8) 16 16 ≤ 40) && decide (8 ≤ bitsOf (le bs 32 8) 32 4) && decide (bitsOf w0 28 5 ≤ 16) &&
    decide (4 * (4 * (siloUnits s - 4096 * zone)) ≤ le bs 24 8)

/-- Row 11: POWER. -/
def powerSectOk (bs : List Byte) : Bool :=
  decide (le bs 0 2 ≤ le bs 2 2) && decide ((List.range 40).foldl (fun a d => a + le bs (8 + 2 * d) 2) 0 ≤ le bs 0 2)

/-- Entry of FIRMWARE for a role (R404). -/
def fwEnt (bs : List Byte) (role : Nat) : Option (List Byte) :=
  ((List.range 3).map (fun i => (bs.drop (80 * i)).take 80)).find? (fun e => le e 0 1 == role)

/-- Row 12: SECURITY and FIRMWARE. -/
def secFwOk (sec fw : List Byte) : Bool :=
  decide (1 ≤ le sec 1 1) && decide (le sec 1 1 ≤ 4) && decide (le sec 0 1 ≤ 8) && [1, 2, 3].all (fun r => (fwEnt fw r).isSome)

/-- Firmware signers of a SECURITY section (R403). -/
def fwSigners (sec : List Byte) : List Nat := (List.range (min 4 (le sec 1 1))).map (fun i => le sec (392 + 48 * i) 48)

/-- Model signers of a SECURITY section. -/
def modelSigners (sec : List Byte) : List Nat := (List.range (min 8 (le sec 0 1))).map (fun i => le sec (8 + 48 * i) 48)

/-- Bytes of the boot flash. -/
def flashBytes (s : State) (off n : Nat) : List Byte := (List.range n).map (fun i => Tab.get (fun _ => 0) s.cfg.flash (off + i))

/-- The image that a FIRMWARE entry references; none where it cannot be read: an image said to be pushed has no command that
pushes it. -/
def fwImage (s : State) (e : List Byte) : Option (List Byte) :=
  if le e 1 1 = 0 && decide (512 ≤ le e 16 8) && decide (le e 16 8 ≤ 67108864) then some (flashBytes s (le e 8 8) (le e 16 8)) else none

/-- R404. -/
def fwOk (e fw : List Byte) (signers : List Nat) : Bool :=
  (Config.sha384 fw).toNat == le e 24 48 && fwHdrOk fw && imageSigned fw signers && imageFits fw && ihRole fw == le e 0 1 &&
    decide (le e 4 4 ≤ ihSvn fw)

/-- The outcome of a check: code, section and row. -/
abbrev ImgRes := Nat × Nat × Nat

/-- The checks of rows 1 to 12 on a structure image, the first that fails (R405). -/
def imgCheck12 (s : State) (g : List Byte) : Option ImgRes :=
  let has := fun id => (sect g id).getD []
  let carries := fun id => (sect g id).isSome
  let bad := fun (id : Nat) => carries id && isReg id && !regSectOk id (has id)
  if !structHdrOk g || !dirOk g then some (cImgFormat, 0, 1)
  else
    match (sects g).find? (fun x => bad x.id || (x.id == 3 && !plotsForm (has 3))) with
    | some x => some (cImgFormat, x.id, 1)
    | none =>
      let base := s.cfg.boot.getD []
      if !imageSigned g ownerKeys then some (cImgSig, 0, 2)
      else if !imageFits g || (ihKind g == 1 && (s.cfg.boot.isNone || ihBase g != ihId base || decide (ihSvn g < ihSvn base) ||
          (sects g).any (fun x => !swappable x.id))) then some (cImgVersion, 0, 3)
      else if carries 2 && !coresOk (has 2) then some (cImgCheck, 2, 4)
      else if carries 3 && !plotsOk s g (has 3) then some (cImgCheck, 3, 5)
      else if carries 4 && !portsOk s g then some (cImgCheck, 4, 6)
      else if carries 6 && !memmapOk s g then some (cImgCheck, 6, 7)
      else if carries 7 && !windowsOk s g then some (cImgCheck, 7, 8)
      else if carries 8 && !reserveOk (has 8) then some (cRsvOversub, 8, 9)
      else if carries 0xA && !siloSectOk s (has 0xA) then some (cImgCheck, 0xA, 10)
      else if carries 0xC && !powerSectOk (has 0xC) then some (cImgCheck, 0xC, 11)
      else if carries 0xD && !secFwOk (has 0xD) (has 0xE) then some (cImgCheck, 0xD, 12)
      else none

/-- Rows 13 and 14, of BOOT images. -/
def fwCheck (s : State) (g : List Byte) : Option ImgRes :=
  let fw := (sect g 0xE).getD []
  let signers := fwSigners ((sect g 0xD).getD [])
  let es := [1, 2, 3].filterMap (fwEnt fw)
  if es.any (fun e => (fwImage s e).isNone) then some (cFwMissing, 0xE, 13)
  else if es.any (fun e => match fwImage s e with | some f => !fwOk e f signers | none => false) then some (cFwSig, 0xE, 14)
  else none

/-- The whole check (R405). -/
def imgCheck (s : State) (g : List Byte) : Option ImgRes :=
  match imgCheck12 s g with
  | some r => some r
  | none => if ihKind g = 0 then fwCheck s g else none

/-- Records the result of a check (R405, R493). -/
def noteCheck (kind : Nat) (r : Option ImgRes) (s : State) : State :=
  let x := r.getD (0, 0, 0)
  let t := (((s.set MGT_CFG_STAT_CODE x.1).set MGT_CFG_STAT_SECTION x.2.1).set MGT_CFG_STAT_ROW x.2.2).set MGT_CFG_STAT_KIND kind
  t.raise MGT_IRQ_CFG

/-! Applying sections. -/

/-- Loads the bits of a register, in each of its copies. -/
def loadWord (r : LoadReg) (a v : Nat) (s : State) : State :=
  (List.range (if r.rep = 0 then 1 else 4)).foldl (fun t k =>
    let b := a + k * r.rep
    t.setWord b (BitVec.ofNat 64 (((t.word b).toNat &&& (2 ^ 64 - 1 - r.mask)) + (v &&& r.mask)))) s

/-- Zeroes the IMG bits of a section's registers that hold anything, before its records are loaded (R400). -/
def clearSect (id : Nat) (s : State) : State :=
  s.regs.foldl (fun t p =>
    match loadRegs.find? (fun r => r.sec == id && ((List.range (if r.rep = 0 then 1 else 4)).any (fun k => decide (k * r.rep ≤ p.1) && r.hits (p.1 - k * r.rep)))) with
    | some r => t.setWord p.1 (BitVec.ofNat 64 ((t.word p.1).toNat &&& (2 ^ 64 - 1 - r.img)))
    | none => t) s

/-- Loads a REG section. -/
def applyReg (id : Nat) (bs : List Byte) (s : State) : State :=
  (regRecs bs).foldl (fun t r => match loadReg id r.1 with | some x => loadWord x r.1 r.2 t | none => t) (clearSect id s)

/-- The route table of a ROUTE section (R283). -/
def routeOf (bs : List Byte) : RouteTab :=
  (regRecs bs).foldl (fun t r =>
    if r.1 < vtBase 0 + 0x10000 then { t with loc := Tab.set (fun _ => 0) t.loc ((r.1 - (vtBase 0 + 0xC00)) / 8) r.2 }
    else { t with board := Tab.set (fun _ => 0) t.board ((r.1 - (vtBase 0 + 0x10000)) / 8) r.2 }) {}

/-- CORE_PLOT of a core, from PLOTS and CORE_ID (R399). -/
def setCorePlot (p : Nat) (s : State) : State :=
  match s.plotOf p with
  | some n =>
    let q := s.plots.getD n {}
    (((s.set (CORE_PLOT_PLOT p) n).set (CORE_PLOT_PERS p) q.pers).set (CORE_PLOT_PAIR p) q.pair).set (CORE_PLOT_PKEY p) q.pkey
  | none => s.setWord (CORE_PLOT_PLOT p).addr 0

/-- The PLOT register of ring `n` of every routing-die unit. -/
def setUnitPlots (n : Nat) (q : PlotCfg) (s : State) : State :=
  let w := BitVec.ofNat 64 (ofBool q.en + q.cls * 2 + q.pkey * 2 ^ 16)
  (List.range 4).foldl (fun t k =>
    ((((t.setWord (WIN_PLOT_EN k n).addr w).setWord (THR_PLOT_EN k n).addr w).setWord (GLN_PLOT_EN k n).addr w).setWord
      (COL_PLOT_EN k n).addr w).setWord (TIER_PLOT_EN k n).addr w) s

/-- PLOTS (R401). -/
def applyPlots (bs : List Byte) (s : State) : State :=
  let t := { s with plots := plotEnts bs, cfg := { s.cfg with tenTable := le bs 0 8, tenAcct := le bs 8 8 } }
  let t := (List.range 144).foldl (fun u p => setCorePlot p u) t
  (plotEnts bs).zipIdx.foldl (fun u q => setUnitPlots q.2 q.1 u) t

/-- Frame states of the tier regions (R298, R399). -/
def applyFrames (s : State) : State :=
  (List.range 8).foldl (fun t m =>
    (List.range (t.get (TIER_REGION_COUNT (m / 2) (m % 2)))).foldl (fun u i =>
      u.set (HBM_FRAME_A_STATE m (u.get (TIER_REGION_FIRST (m / 2) (m % 2)) + i)) fVacant) t) s

/-- SILO (R403). -/
def applySilo (bs : List Byte) (s : State) : State :=
  let w0 := le bs 0 8
  let t := (List.range 2).foldl (fun t j =>
    (((t.set (SILO_GEOM_RATE j) (bitsOf w0 0 8)).set (SILO_OP_OP_PCT j) (bitsOf w0 8 6)).set (SILO_LOGICAL_ZONE j) (bitsOf w0 14 14)).set
      (SILO_RD_THRESH j) (bitsOf (le bs 8 8) 0 32)) s
  let t := (t.set (SILO_LC_SLOTS_N 0) (bitsOf w0 28 5)).set (SILO_LC_SLOTS_PER_TENANT 0) (bitsOf w0 33 5)
  { t with cfg := { t.cfg with pageMap := (bitsOf (le bs 16 8) 0 46, le bs 24 8) } }

/-- POWER (R403, R469): a figure above its fused value stands at that. -/
def applyPower (bs : List Byte) (s : State) : State :=
  let t := (s.set PWR_CAP_SUST (min (le bs 0 2) (s.get PWR_FUSE_SUST_W))).set PWR_CAP_EXC (min (le bs 2 2) (s.get PWR_FUSE_EXC_W))
  (List.range 40).foldl (fun t d => t.set (PWR_DIE_BUDGET_W d) (le bs (8 + 2 * d) 2)) t

/-- Applied alarm level of sensor `i` (R461). -/
def alarmLevel (alarms i : Nat) : Nat := max (bitsOf Config.alarmMin.toNat (2 * i) 2) (min 3 (bitsOf alarms (8 * i) 8))

/-- SECURITY (R403, R461, R463). -/
def applySecurity (bs : List Byte) (s : State) : State :=
  let al := le bs 2 4
  let t := (s.set SEC_ALARM_LVL_LEVEL ((List.range 4).foldl (fun a i => a + alarmLevel al i * 2 ^ (2 * i)) 0)).set SEC_STATE_JTAG (le bs 6 1)
  { t with cfg := { t.cfg with msigners := modelSigners bs, fsigners := fwSigners bs, alarms := al } }

/-- QUOTAS (R408): each bucket's level is at most the new BURST. -/
def applyQuotas (bs : List Byte) (s : State) : State :=
  let t := applyReg 9 bs s
  (fbTenants t).foldl (fun u tn =>
    u.set (TIER_FB_LEVEL 0 tn) (min (u.get (TIER_FB_LEVEL 0 tn)) (max 1 (u.get (TIER_FB_BURST 0 tn))))) t

/-- Applies one section at bring-up (R399). -/
def applySection (id : Nat) (bs : List Byte) (s : State) : State :=
  if id = 3 then applyPlots bs s
  else if id = 5 then { s with vt := { s.vt with rcur := routeOf bs } }
  else if id = 6 then applyFrames (applyReg 6 bs s)
  else if id = 8 then applyReserve bs s
  else if id = 9 then applyQuotas bs s
  else if id = 0xA then applySilo bs s
  else if id = 0xC then applyPower bs s
  else if id = 0xD then applySecurity bs s
  else if id = 0xE then s
  else applyReg id bs s

/-- Applies every section of a BOOT image in ascending ID (R406). -/
def applyBoot (g : List Byte) (s : State) : State :=
  (List.range 14).foldl (fun t i => match sect g (i + 1) with | some bs => applySection (i + 1) bs t | none => t) s

/-! Presentation (R422) and pending AMENDs (R512). -/

/-- Takes a checked AMEND: a passing one is the pending AMEND unless a STAGE has been accepted. -/
def takeAmend (g : List Byte) (r : Option ImgRes) (s : State) : State :=
  if s.cfg.staged.isSome || s.get ALM_MODE_PSTATE == 2 then s
  else
    match r with
    | none => { s with cfg := { s.cfg with amend := some g, shown := some true } }
    | some _ => { s with cfg := { s.cfg with shown := some false } }

/-- Starts a read of the presented image (R421). -/
def presentRead (s : State) : State :=
  let a := s.get PCI_IMG_SRC_ADDR
  let n := s.get PCI_IMG_BYTES_BYTES
  let c := dmaRefusal s a n
  if c ≠ 0 then pciNote c 0 0 ((s.set PCI_IMG_STAT_CODE c).set PCI_IMG_STAT_BUSY 0)
  else { (s.set PCI_IMG_STAT_BUSY 1) with pci := { s.pci with imgRead := some { addr := a, want := n } } }

/-- PRESENT (R422). -/
def presentImage (s : State) : State :=
  if s.flag PCI_IMG_STAT_BUSY || s.partFenced then s else presentRead s

def execPresent (s : State) : Host.Outcome State Fault Refusal := .next (presentImage s)

/-- IMAGE_CHECK (R405, R422): the presented image has been read whole. -/
def imageCheck (s : State) : State :=
  match s.pci.imgRead with
  | none => s
  | some r =>
    if r.got.length < r.want then s
    else
      let g := r.got.take r.want
      let t := { s with pci := { s.pci with imgRead := none } }
      let res := if structHdrOk g && ihKind g == 0 then some (cImgFormat, 0, 1) else imgCheck t g
      let t := noteCheck 1 res t
      let t := (t.set PCI_IMG_STAT_CODE (res.getD (0, 0, 0)).1).set PCI_IMG_STAT_BUSY 0
      takeAmend g res t

def execImageCheck (s : State) : Host.Outcome State Fault Refusal := .next (imageCheck s)

end Sys2Proof.Machine
end

