-- ==== Sys2Proof/Machine/Almanac.lean ====
section
/-!
DEFINITION. The almanac counter (15_time_and_determinism R373 to R376), throttle events and their log (R388, R389, R470),
and mode changes (R391, R407, R408, R512).
-/
namespace Sys2Proof.Machine

/-! The counter (R373). -/

def cThrottle : Nat := 0x0901
def cModeLate : Nat := 0x0A04
def cModeRefused : Nat := 0x0A05
def cAlmHoldover : Nat := 0x0A06
def cAlmUnlock : Nat := 0x0A07
def cAlmStep : Nat := 0x0A09

def almFree : Nat := 0
def almAcquire : Nat := 1
def almLocked : Nat := 2
def almHoldover : Nat := 3

/-- The count with its fraction, in units of 2^-32 ns. -/
def almFull (s : State) : Nat := s.alm * 2 ^ 32 + s.get ALM_FRAC_FRAC

/-- Advances every copy of the counter by root cycles at RATE. -/
def almAdvance (cycles : Nat) (s : State) : State :=
  let v := almFull s + cycles * s.get ALM_RATE_RATE
  (s.set ALM_COUNT_COUNT (v / 2 ^ 32)).set ALM_FRAC_FRAC (v % 2 ^ 32)

/-- Nominal RATE (R373). -/
def almNominal : Nat := if Config.gradeF09 then 0x471C71C7 else 0x40000000

/-- PERIOD_MS, taken at the nearer end outside 1 to 1,000, in ns (R395). -/
def almPeriod (s : State) : Nat := min 1000 (max 1 (s.get ALM_SYNC_PERIOD_MS)) * 1000000

/-- A record or warning of the counter. -/
def almReport (code kind : Nat) (f : Fld) (s : State) : State :=
  (s.raise f).report { code := code, level := 0, kind := kind, die := dieHm, sub := 0 }

/-- Error of the count against the count that an edge carries, in 2^-32 ns. -/
def almError (s : State) : Int := (almFull s : Int) - (s.get ALM_NEXT_COUNT * 2 ^ 32 : Nat)

/-- A time in ns as such an error. -/
def nsErr (n : Nat) : Int := (n * 2 ^ 32 : Nat)

/-- Sets RATE so that an error is removed by the next edge, within 200 ppm of nominal (R373, R375). -/
def almSlew (e : Int) (s : State) : State :=
  let p := almPeriod s
  let n := p * (if Config.gradeF09 then 36 else 40) / 10
  let r := ((p * 2 ^ 32 : Nat) - e) / (n : Int)
  let d := almNominal * 200 / 1000000
  s.set ALM_RATE_RATE (min (almNominal + d) (max (almNominal - d) r.toNat))

/-- Steps the count to the one that the edge carries (R375). -/
def almStep (s : State) : State :=
  almReport cAlmStep 1 ALM_IRQ_STEP ((s.set ALM_COUNT_COUNT (s.get ALM_NEXT_COUNT)).set ALM_FRAC_FRAC 0)

/-- The counter becomes FREE at its last RATE. -/
def almToFree (s : State) : State :=
  { (s.set ALM_STATE_STATE almFree).set ALM_STATE_MISSED 0 with tim := {} }

/-- A missed edge in the state that the counter is in (R375). -/
def almMissed (s : State) : State :=
  let st := s.get ALM_STATE_STATE
  let n := min 255 (s.get ALM_STATE_MISSED + 1)
  let t := s.set ALM_STATE_MISSED n
  let t := { t with tim := { t.tim with good := 0 } }
  if st = almLocked || st = almHoldover then
    let t := if st = almLocked then almReport cAlmHoldover 1 ALM_IRQ_HOLDOVER (t.set ALM_STATE_STATE almHoldover) else t
    if max 1 (s.get ALM_SYNC_HOLD_MAX) ≤ n then almReport cAlmUnlock 2 ALM_IRQ_UNLOCK (almToFree t) else t
  else t

/-- Notes an accepted edge: its error, the count after any step, and what the next edge carries (R374, R395). -/
def almNote (e : Int) (s : State) : State :=
  let x := e / (2 ^ 28 : Nat)
  let d := if -32768 ≤ x ∧ x ≤ 32767 then (toBits x 16, s) else (s.drawWord.1.toNat, s.drawWord.2)
  let t := ((d.2.set ALM_ERR_ERR d.1).set ALM_LAST_EDGE_COUNT s.alm).set ALM_STATE_MISSED 0
  t.set ALM_NEXT_COUNT (t.get ALM_NEXT_COUNT + almPeriod t)

/-- An accepted edge in ACQUIRE (R375). -/
def almAcquireEdge (e : Int) (s : State) : State :=
  let first := s.tim.first
  let t := if first || e.natAbs > (nsErr 64).natAbs then almStep s else almSlew e s
  let good := if e.natAbs ≤ (nsErr 2).natAbs then s.tim.good + 1 else 0
  let t := almNote e { t with tim := { t.tim with first := false, good := good, missed := none } }
  if 3 ≤ good then t.set ALM_STATE_STATE almLocked else t

/-- ALM_SYNC_EDGE (R374, R375): an edge within 1 us of the count expected is accepted, and the first edge of ACQUIRE always
is; any other is ignored and counted as missed, one miss for each expected edge. -/
def almSyncEdge (s : State) : State :=
  let st := s.get ALM_STATE_STATE
  let e := almError s
  if st = almFree then s
  else if st = almAcquire && s.tim.first then almAcquireEdge e s
  else if e.natAbs ≤ (nsErr 1000).natAbs then
    if st = almAcquire then almAcquireEdge e s
    else
      let t := almNote e { s with tim := { s.tim with missed := none } }
      if e.natAbs ≤ (nsErr 32).natAbs then (almSlew e t).set ALM_STATE_STATE almLocked
      else almReport cAlmUnlock 2 ALM_IRQ_UNLOCK (almToFree t)
  else
    let next := s.get ALM_NEXT_COUNT
    let near := if s.alm + almPeriod s / 2 < next then next - almPeriod s else next
    if s.tim.missed = some near then s else almMissed { s with tim := { s.tim with missed := some near } }

def execAlmSyncEdge (s : State) : Host.Outcome State Fault Refusal := .next (almSyncEdge s)

/-- MISSED_EDGE (R375): 1 us past the count expected with no edge accepted. -/
def missedEdge (s : State) : State :=
  let st := s.get ALM_STATE_STATE
  let next := s.get ALM_NEXT_COUNT
  if st = almFree || (st = almAcquire && s.tim.first) || decide (s.alm ≤ next + 1000) then s
  else
    let t := if s.tim.missed = some next then s else almMissed { s with tim := { s.tim with missed := some next } }
    if t.get ALM_STATE_STATE = almFree then t else t.set ALM_NEXT_COUNT (next + almPeriod s)

def execMissedEdge (s : State) : Host.Outcome State Fault Refusal := .next (missedEdge s)

/-- Enters or restarts ACQUIRE (R375, R376). -/
def almToAcquire (s : State) : State :=
  { (s.set ALM_STATE_STATE almAcquire).set ALM_STATE_MISSED 0 with tim := { first := true } }

/-- ALM_NEXT_WRITE (R376). -/
def almNextWrite (v : Word) (s : State) : State :=
  let st := s.get ALM_STATE_STATE
  if st = almLocked || st = almHoldover then s
  else
    let t := s.set ALM_NEXT_COUNT v.toNat
    if st = almAcquire || s.flag ALM_SYNC_EN then almToAcquire t else { t with tim := { t.tim with held := true } }

def execAlmNextWrite (v : Word) (s : State) : Host.Outcome State Fault Refusal := .next (almNextWrite v s)

/-- ALM_SYNC_WRITE (R376, R395). -/
def almSyncWrite (v : Word) (s : State) : State :=
  let t := ((s.set ALM_SYNC_EN (ALM_SYNC_EN.of v)).set ALM_SYNC_PERIOD_MS (ALM_SYNC_PERIOD_MS.of v)).set ALM_SYNC_HOLD_MAX
    (ALM_SYNC_HOLD_MAX.of v)
  if ALM_SYNC_EN.of v = 0 then if s.get ALM_STATE_STATE = almFree then t else almToFree t
  else if s.get ALM_STATE_STATE = almFree && !s.flag ALM_SYNC_EN && s.tim.held then almToAcquire t
  else t

def execAlmSyncWrite (v : Word) (s : State) : Host.Outcome State Fault Refusal := .next (almSyncWrite v s)

/-! Throttle events (R388, R389, R470). -/

/-- Dies that may be gated (R470). -/
def gateable (d : Nat) : Bool := decide (d < 20) || (decide (28 ≤ d) && decide (d < 32)) || d == 36 || d == 37

/-- Bit of a die in DIES (R389). -/
def thrBit (d : Nat) : Nat := if d < 20 then d else if d < 32 then d - 8 else d - 12

/-- Word `w` of the log entry of event `q`. -/
def thrLog (q w : Nat) : Fld := ALM_THR_LOG_WORD (q % 256) w

/-- Opens an event: its record is written, and copied to the black box, before any cycle is gated (R388, R389). -/
def openEvent (cause : Nat) (s : State) : State :=
  let q := s.get ALM_THR_SEQ_SEQ + 1
  let t := (((s.set (thrLog q 0) s.alm).set (thrLog q 1) 0).set (thrLog q 2) 0).set (thrLog q 3) (q % 2 ^ 32 + cause * 2 ^ 32)
  let t := ((t.set ALM_THR_SEQ_SEQ q).set ALM_THR_OPEN_OPEN 1).raise ALM_IRQ_THROTTLE
  let t := t.bbWrite { code := cThrottle, level := 0, kind := 0, die := dieHm, sub := 0, detail := q }
  { t with pwr := { t.pwr with events := t.pwr.events ++ [{ seq := q, cause := cause }] } }

/-- The duty in force on a die: the largest of its cuts (R472, R480). -/
def dutyOf (s : State) (d : Nat) : Nat :=
  s.pwr.events.foldl (fun m e => (e.cuts.filter (fun c => c.die == d)).foldl (fun m c => max m c.duty) m) 0

/-- Shows every die's duty (R481). -/
def showDuties (s : State) : State := (List.range 40).foldl (fun t d => t.set (PWR_DIE_DUTY d) (dutyOf s d)) s

/-- Replaces the cuts of an event, its record's DIES and DUTY following (R389). -/
def setCuts (q : Nat) (cuts : List Cut) (s : State) : State :=
  let t := { s with pwr := { s.pwr with events := s.pwr.events.map (fun (e : ThrEvent) => if e.seq = q then { e with cuts := cuts } else e) } }
  let dies := cuts.foldl (fun m c => if c.duty = 0 then m else m ||| 2 ^ thrBit c.die) (t.get (thrLog q 2))
  let top := cuts.foldl (fun m c => max m c.duty) (bitsOf (t.get (thrLog q 3)) 40 9)
  showDuties ((t.set (thrLog q 2) dies).set (thrLog q 3) (t.get (thrLog q 3) % 2 ^ 40 + top * 2 ^ 40))

/-- The event that carries a source's cuts. -/
def eventOf (s : State) (src : Nat) : Option ThrEvent := s.pwr.events.find? (fun e => e.cuts.any (fun c => c.src == src))

/-- Replaces a source's cuts, opening an event for it where none carries them. -/
def putCuts (src cause : Nat) (cuts : List Cut) (s : State) : State :=
  match eventOf s src with
  | some e => setCuts e.seq (e.cuts.filter (fun c => c.src != src) ++ cuts) s
  | none =>
    if cuts.any (fun c => c.duty != 0) then
      let t := openEvent cause s
      setCuts (t.get ALM_THR_SEQ_SEQ) cuts t
    else s

/-- Cuts of a source in force. -/
def cutsOf (s : State) (src : Nat) : List Cut :=
  match eventOf s src with
  | some e => e.cuts.filter (fun c => c.src == src)
  | none => []

/-- THROTTLE_OPEN (R388): the controller opens an event of a cause on the gateable dies named. -/
def throttleOpen (cause : Nat) (dies : List Nat) (duty : Nat) (s : State) : State :=
  let ds := dies.filter gateable
  if ds.isEmpty || duty = 0 then s
  else
    let src := fun d => if cause ≤ 2 then 0 else if cause = 3 then 2 + d else 1
    let t := openEvent cause s
    setCuts (t.get ALM_THR_SEQ_SEQ) (ds.map (fun d => { src := src d, die := d, duty := duty })) t

def execThrottleOpen (cause : Fin 4) (dies : List (Fin 40)) (duty : Fin 257) (s : State) : Host.Outcome State Fault Refusal :=
  .next (throttleOpen (cause + 1) (dies.map Fin.val) duty s)

/-- THROTTLE_CLOSE (R389): events whose every duty is 0 close. END is unstated where no cycle was gated: a free value. -/
def throttleClose (s : State) : State :=
  let t := s.pwr.events.foldl (fun t e =>
    if e.cuts.all (fun c => c.duty == 0) then
      match e.last with
      | some a => t.set (thrLog e.seq 1) a
      | none => t.drawWord.2.set (thrLog e.seq 1) t.drawWord.1.toNat
    else t) s
  let es := s.pwr.events.filter (fun e => !e.cuts.all (fun c => c.duty == 0))
  { t.set ALM_THR_OPEN_OPEN (ofBool !es.isEmpty) with pwr := { t.pwr with events := es } }

def execThrottleClose (s : State) : Host.Outcome State Fault Refusal := .next (throttleClose s)

/-! Mode changes (R391, R512). -/

/-- GUARD_US or WIN_US at the nearer end outside 10 to 100,000 (R395). -/
def modeUs (v : Nat) : Nat := min 100000 (max 10 v)

/-- Count of the guard deadline of the pending change. -/
def guardCount (s : State) : Nat := s.get ALM_MODE_COUNT_COUNT - s.cfg.guardUs * 1000

/-- Refuses a mode command. -/
def modeRefused (s : State) : State := s.set ALM_MODE_CODE cModeRefused

/-- ANNOUNCE (R391, R512). -/
def announce (ep : Nat) (s : State) : State :=
  let g := modeUs (s.get ALM_MODE_TIME_GUARD_US)
  let c := s.get ALM_MODE_ARG_COUNT
  if s.get ALM_MODE_PSTATE = 0 && ep == (s.get ALM_MODE_CUR + 1) % 256 && decide (s.alm + g * 1000 + 1000 ≤ c) then
    let t := ((s.set ALM_MODE_PSTATE 1).set ALM_MODE_PEND ep).set ALM_MODE_COUNT_COUNT c
    { t with cfg := { t.cfg with guardUs := g, winUs := modeUs (s.get ALM_MODE_TIME_WIN_US) } }
  else modeRefused s

def execAnnounce (epoch : BitVec 8) (s : State) : Host.Outcome State Fault Refusal := .next (announce epoch.toNat s)

/-- The change becomes LATE and at once NONE; the old mode is kept (R391). -/
def modeLate (s : State) : State :=
  ((((s.set ALM_MODE_PSTATE 4).set ALM_MODE_CODE cModeLate).raise ALM_IRQ_MODE_LATE).report
    { code := cModeLate, level := 0, kind := 2, die := dieHm, sub := 0 }).set ALM_MODE_PSTATE 0

/-- GUARD_DEADLINE (R391). -/
def guardDeadline (s : State) : State :=
  if s.get ALM_MODE_PSTATE = 1 && decide (guardCount s ≤ s.alm) then modeLate s else s

def execGuardDeadline (s : State) : Host.Outcome State Fault Refusal := .next (guardDeadline s)

/-- STAGE (R391, R394, R512): it takes the pending AMEND, or none where no image has been presented. A ROUTE section is
staged with the count (R284, R411). -/
def modeStage (s : State) : State :=
  let s := guardDeadline s
  if s.get ALM_MODE_PSTATE ≠ 1 || s.cfg.shown == some false then modeRefused s
  else
    let t := { s.set ALM_MODE_PSTATE 2 with cfg := { s.cfg with staged := s.cfg.amend } }
    match s.cfg.amend.bind (fun g => sect g 5) with
    | some bs => stageRoute (routeOf bs) (s.get ALM_MODE_COUNT_COUNT) t
    | none => t

def execStage (s : State) : Host.Outcome State Fault Refusal := .next (modeStage s)

/-- A change ended by application or CANCEL: its AMEND is discarded (R512). -/
def endChange (s : State) : State := { s with cfg := { s.cfg with amend := none, staged := none, shown := none } }

/-- MODE_CANCEL (R391, R394). -/
def modeCancel (s : State) : State :=
  let st := s.get ALM_MODE_PSTATE
  if st = 1 || (st = 2 && decide (s.alm < guardCount s)) then
    unstageRoute (endChange (s.set ALM_MODE_PSTATE 0))
  else modeRefused s

def execModeCancel (s : State) : Host.Outcome State Fault Refusal := .next (modeCancel s)

/-- The staged sections take effect together (R408); the AMEND is measured (R454). -/
def applyAmend (g : List Byte) (s : State) : State :=
  let t := applyRoute s
  let t := match sect g 8 with | some bs => { t with cfg := { t.cfg with rsvNext := some bs } } | none => t
  let t := match sect g 7 with | some bs => applyReg 7 bs t | none => t
  let t := match sect g 9 with | some bs => applyQuotas bs t | none => t
  setMeas 4 (Config.sha384 g).toNat t

/-- MODE_APPLY (R391): in the fc in which the count reaches ALM_MODE_COUNT. -/
def modeApply (s : State) : State :=
  if s.get ALM_MODE_PSTATE = 2 && decide (s.get ALM_MODE_COUNT_COUNT ≤ s.alm) then
    let t := ((s.set ALM_MODE_CUR (s.get ALM_MODE_PEND)).set ALM_MODE_APPLIED_COUNT s.alm).raise ALM_IRQ_MODE_APPLIED
    let t := match s.cfg.staged with | some g => applyAmend g t | none => t
    endChange (t.set ALM_MODE_PSTATE 3)
  else s

def execModeApply (s : State) : Host.Outcome State Fault Refusal := .next (modeApply s)

/-- MODE_WINDOW_END (R391). -/
def modeWindowEnd (s : State) : State :=
  if s.get ALM_MODE_PSTATE = 3 && decide (s.get ALM_MODE_APPLIED_COUNT + s.cfg.winUs * 1000 ≤ s.alm) then s.set ALM_MODE_PSTATE 0
  else s

def execModeWindowEnd (s : State) : Host.Outcome State Fault Refusal := .next (modeWindowEnd s)

end Sys2Proof.Machine
end

