-- ==== Sys2Proof/Machine/Reliability.lean ====
section
/-!
DEFINITION. Die and part fences (R19, R20, R430 to R433), their release (R434), fallow substitution (R17, R438, R439), and
the black box after a freeze (R446, R447).
-/
namespace Sys2Proof.Machine

def cPnetReplay : Nat := 0x0A40
def cDieFault : Nat := 0x0A41
def cPartFault : Nat := 0x0A42
def cFenceRefused : Nat := 0x0A43
def cSubstRefused : Nat := 0x0A44
def cBbCopyFail : Nat := 0x0A46
def cSubstDone : Nat := 0x0A47

/-! Fences. -/

/-- The ports that a link die or an optical engine carries (R14, R431). -/
def portsOfDie (d : Nat) : List Nat :=
  if 28 ≤ d ∧ d < 32 then ((List.range 4).map (fun i => 4 * (d - 28) + i)).filter (fun n => decide (n < 15)) ++ [15 + (d - 28)]
  else if 32 ≤ d ∧ d < 36 then [15 + (d - 32)]
  else []

/-- A host read in flight ends without its data (R421): the presentation shows `code`, a model load LOAD_SOURCE. -/
def imgReadFail (code : Nat) (s : State) : State :=
  { (s.set PCI_IMG_STAT_CODE code).set PCI_IMG_STAT_BUSY 0 with pci := { s.pci with imgRead := none } }
def modReadFail (s : State) : State := modelFail cLoadSource 0 s

/-- Host transfers fail as the host link is lost (R424). -/
def hostLost (s : State) : State :=
  let any := s.pci.imgRead.isSome || s.pci.modRead.isSome
  let t := if s.pci.imgRead.isSome then imgReadFail cPciLinkDown s else s
  let t := if t.pci.modRead.isSome then modReadFail t else t
  if any then pciNote cPciLinkDown 0 0 t else t

/-- The host link is down (R427). -/
def linkZero (s : State) : State := ((s.set PCI_LINK_SPEED 0).set PCI_LINK_WIDTH 0).set PCI_LINK_FLIT 0

/-- The whole part is fenced (R19, R20): cores end with their commit steps, transmitters go idle, the cipher units lose their
keys (R458), and the host sees its link go down (R424). -/
def fenceAll (s : State) : State :=
  let t := (List.range 144).foldl (fun t p => fenceCoreWithDie p t) s
  let t := (List.range 19).foldl (fun t n => if vlState t n = vlUp then leaveUp n vlDown t else t) t
  let t := eraseModelKey (hostLost t)
  linkZero { t with sec := { t.sec with transport := false } }

/-- A part fence with its record, which freezes the black box (R19, R432, R445). -/
def partFence (code die sub detail : Nat) (s : State) : State :=
  let fenced := s.partFenced
  let t := s.faultRecord partErr { code := code, level := 4, kind := 2, die := die, sub := sub, detail := detail }
  if fenced then t else fenceAll (t.bbFreeze dieHm 0)

/-- A die fence with its record, made under the unit that reports it; a routing die, HM and SE have none, and the part is
fenced (R430, R431). -/
def dieFence (d code die sub detail : Nat) (s : State) : State :=
  if (16 ≤ d ∧ d < 20) ∨ 38 ≤ d then partFence code die sub detail s
  else
    let t := s.faultRecord (dieErr d) { code := code, level := 3, kind := 2, die := die, sub := sub, detail := detail }
    let t := if d < 16 then
        (List.range 9).foldl (fun t i => fenceCoreWithDie (9 * d + i) t) t
      else t
    (portsOfDie d).foldl (fun t n => if t.partFenced then t else portDown n cLinkDown t) t

/-- PNET_PARITY_FAIL (R433): a flit of link `n` of routing die `k` fails parity. It is replayed; `again` says that the flit
that failed was itself a replay. After 8 failed replays of one flit, or 64 replays within 1 ms, the link has failed. -/
def pnetParityFail (k n : Nat) (again : Bool) (s : State) : State :=
  let far := if n < 4 then some (4 * k + n) else if n = 7 then some (28 + k) else if n = 8 then some (36 + k / 2) else none
  if (n = 9 ∧ k ≠ 0) || (match far with | some d => s.dieFenced d | none => false) then s
  else
    let key := 16 * k + n
    let x := Tab.get (fun _ => ((0, []) : Nat × List Nat)) s.rel.pnet key
    let times := x.2.filter (fun a => decide (s.alm < a + 1000000)) ++ [s.alm]
    let failed := if again then x.1 + 1 else 0
    let t := s.report { code := cPnetReplay, level := 0, kind := 1, die := 16 + k, sub := 16 + n, detail := n }
    let dead := decide (8 ≤ failed) || decide (64 ≤ times.length)
    let y : Nat × List Nat := if dead then (0, []) else (failed, times)
    let t := { t with rel := { t.rel with pnet := Tab.set (fun _ => ((0, []) : Nat × List Nat)) t.rel.pnet key y } }
    if !dead then t
    else
      match far with
      | some d => dieFence d cDieFault (16 + k) (16 + n) n t
      | none => partFence cPartFault (16 + k) (16 + n) n t

def execPnetParityFail (k : Fin 4) (n : Fin 10) (again : Bool) (s : State) : Host.Outcome State Fault Refusal :=
  .next (s.live (pnetParityFail k n again))

/-- Whether a die has left reset (R477): HM and SE run from the standby rails. -/
def dieRuns (s : State) (d : Nat) : Bool := decide (38 ≤ d) || decide (5 ≤ s.get PWR_STATUS_PHASE)

/-- WATCHDOG_EXPIRY (R430): both control cores of a compute or routing die, or the controller of HM, are past MGT_WDOG. -/
def watchdogExpiry (d : Nat) (s : State) : State :=
  if (d < 20 && dieRuns s d) || d = dieHm then dieFence d cDieFault d 1023 4 s else s

def execWatchdogExpiry (die : Fin 40) (s : State) : Host.Outcome State Fault Refusal := .next (watchdogExpiry die s)

/-- CLOCK_LOSS (R430). -/
def clockLoss (d : Nat) (s : State) : State := if dieRuns s d then dieFence d cDieFault d 1023 3 s else s

def execClockLoss (die : Fin 40) (s : State) : Host.Outcome State Fault Refusal := .next (clockLoss die s)

/-- HBM_INTERFACE_LOSS (R430, R431). -/
def hbmInterfaceLoss (m : Nat) (s : State) : State :=
  if dieRuns s (20 + m) then dieFence (20 + m) cDieFault (20 + m) 1023 5 s else s

def execHbmInterfaceLoss (j : Fin 8) (s : State) : Host.Outcome State Fault Refusal := .next (hbmInterfaceLoss j s)

/-! Release (R434). -/

/-- Registers of a range back to their reset values. -/
def State.resetRegs (s : State) (lo hi : Nat) : State :=
  { s with regs := s.regs.filter (fun r => decide (r.1 < lo) || decide (hi ≤ r.1)) }

/-- Zeroes the accumulators of array `a`. -/
def zeroAccs (p a : Nat) (s : State) : State :=
  { s with accs := s.accs.filter (fun x => decide (x.1 < accKey p a 0) || decide (accKey p (a + 1) 0 ≤ x.1)) }

/-- An engine that has passed its self-test: accumulators zeroed, FENCED and its record cleared. -/
def engineUp (p e : Nat) (s : State) : State :=
  let t := if e < 4 then zeroAccs p e s else s
  (t.set (engFencedFld p e) 0).resetRegs (engErr p e) (engErr p e + 32)

/-- Clears the poison of core `p`'s store. -/
def cleanCore (p : Nat) (s : State) : State :=
  { s with poison := s.poison.filter (fun x => decide (8 * x.1 < csOffset p 0) || decide (csOffset p csSize ≤ 8 * x.1)) }.set
    (CS_POISON_CNT_COUNT p) 0

/-- A core that has passed the self-test of its engines and sequencer and the march test of its memories: what the march test
leaves in the store is unknown; every counter is in ADD mode with COUNT 0, and STATE is IDLE (R434, R439). -/
def coreUp (p : Nat) (s : State) : State :=
  let t := (List.range 6).foldl (fun t e => engineUp p e t) s
  let t := (cleanCore p t).unknownRange (csOffset p 0) csSize
  let t := t.resetRegs (coreBase p + 0x8000) (coreBase p + 0xC000)
  let c := t.core p
  let t := t.setCore p { c with inflight := [], killing := false, skip := [], chainA := none, chainB := none }
  (t.set (CORE_STATUS_STATE p) stIdle).resetRegs (coreErr p) (coreErr p + 32)

/-- A compute die's reset: its cores' registers but those that its bring-up loads again return to reset (R434). -/
def resetCoreRegs (p : Nat) (s : State) : State :=
  let id := s.word (CORE_ID_PHYS p).addr
  let t := { s with cores := Tab.erase p s.cores }.resetRegs (coreBase p) (coreBase (p + 1))
  setCorePlot p (t.setWord (CORE_ID_PHYS p).addr id)

/-- A die that has passed its reset, alignment and bring-up (R434). -/
def dieUp (d : Nat) (s : State) : State :=
  let t := s.resetRegs (dieErr d) (dieErr d + 32)
  if d < 16 then (List.range 9).foldl (fun t i => coreUp (9 * d + i) (resetCoreRegs (9 * d + i) t)) t
  else if 20 ≤ d ∧ d < 28 then t.unknownRange ((d - 20) * stackSize) stackSize
  else
    (portsOfDie d).foldl (fun t n =>
      if t.flag (VL_CTRL_ENABLE n) then enterState n (if present n t then vlTraining else vlAbsent) t else t) t

/-- Whether a core runs or is armed. -/
def busyCore (s : State) (p : Nat) : Bool := s.get (CORE_STATUS_STATE p) == stRunning || s.get (CORE_STATUS_STATE p) == stArmed

/-- The core that DIE and SUB name (R429). -/
def coreOfSub (d sub : Nat) : Option Nat := if d < 16 ∧ sub < 72 then some (9 * d + sub / 8) else none

/-- Whether a release may begin (R434). -/
def releaseOk (s : State) (level d sub : Nat) : Bool :=
  !s.partFenced &&
  (match level, coreOfSub d sub with
   | 1, some p => decide (sub % 8 < 6) && s.engFenced p (sub % 8) && !busyCore s p
   | 2, some p => decide (6 ≤ sub % 8) && s.get (CORE_STATUS_STATE p) == stFenced && !s.dieFenced d
   | 3, _ => decide (d < 40) && s.dieFenced d && (decide (16 ≤ d) || (List.range 9).all (fun i => !busyCore s (9 * d + i)))
   | _, _ => false)

/-- A write to MGT_FENCE_CMD (R434): discarded while BUSY, refused, or a release in progress. -/
def fenceCmd (level d sub : Nat) (s : State) : State :=
  if s.flag MGT_FENCE_STAT_BUSY then s
  else
    let t := s.set MGT_FENCE_STAT_PASSED 0
    if releaseOk s level d sub then
      { (t.set MGT_FENCE_STAT_CODE 0).set MGT_FENCE_STAT_BUSY 1 with rel := { t.rel with release := some (level, d, sub) } }
    else t.set MGT_FENCE_STAT_CODE cFenceRefused

/-- FENCE_RELEASE_ENGINE: LEVEL 1. -/
def fenceReleaseEngine (d sub : Nat) (s : State) : State := fenceCmd 1 d sub s
def execFenceReleaseEngine (die : BitVec 6) (sub : BitVec 10) (s : State) : Host.Outcome State Fault Refusal :=
  .next (fenceReleaseEngine die.toNat sub.toNat s)

/-- FENCE_RELEASE_CORE: LEVEL 2. -/
def fenceReleaseCore (d sub : Nat) (s : State) : State := fenceCmd 2 d sub s
def execFenceReleaseCore (die : BitVec 6) (sub : BitVec 10) (s : State) : Host.Outcome State Fault Refusal :=
  .next (fenceReleaseCore die.toNat sub.toNat s)

/-- FENCE_RELEASE_DIE: LEVEL 3. -/
def fenceReleaseDie (d sub : Nat) (s : State) : State := fenceCmd 3 d sub s
def execFenceReleaseDie (die : BitVec 6) (sub : BitVec 10) (s : State) : Host.Outcome State Fault Refusal :=
  .next (fenceReleaseDie die.toNat sub.toNat s)

/-- FENCE_RELEASE_DONE: the self-test of the release in progress ends; a unit that fails it stays fenced (R434). -/
def fenceReleaseDone (pass : Bool) (s : State) : State :=
  match s.rel.release with
  | none => s
  | some (level, d, sub) =>
    let t := { (s.set MGT_FENCE_STAT_BUSY 0).set MGT_FENCE_STAT_PASSED (ofBool (pass && !s.partFenced)) with rel := { s.rel with release := none } }
    if !pass || s.partFenced then t
    else
      let p := 9 * d + sub / 8
      if level = 1 then engineUp p (sub % 8) t else if level = 2 then coreUp p t else dieUp d t

def execFenceReleaseDone (pass : Bool) (s : State) : Host.Outcome State Fault Refusal := .next (fenceReleaseDone pass s)

/-! Fallow substitution (R438). -/

/-- The fallow core of a die. -/
def fallowOf (s : State) (d : Nat) : Option Nat :=
  ((List.range 9).map (fun i => 9 * d + i)).find? (fun p => s.flag (CORE_ID_FALLOW p))

/-- A held RUN or ARM takes effect. -/
def takeHeld (p : Nat) (s : State) : State :=
  let c := s.core p
  let t := s.setCore p { c with heldRun := false, heldArm := false }
  if c.heldRun then runCore p t else if c.heldArm then armCore p t else t

/-- A substitution ends with a code. -/
def substEnd (code detail exhausted : Nat) (s : State) : State :=
  let t := (s.set MGT_SUBST_STAT_PENDING 0).set MGT_SUBST_STAT_BUSY 0
  ((t.set MGT_SUBST_STAT_CODE code).set MGT_SUBST_STAT_DETAIL detail).set MGT_SUBST_STAT_SPARE_EXHAUSTED exhausted

/-- SUBSTITUTE: a write to MGT_SUBST (R438). -/
def substitute (p : Nat) (s : State) : State :=
  if s.flag MGT_SUBST_STAT_PENDING || s.flag MGT_SUBST_STAT_BUSY then s
  else if 143 < p then substEnd cSubstRefused 3 0 s
  else
    match fallowOf s (p / 9) with
    | none => substEnd cSubstRefused 2 1 s
    | some f =>
      if f = p || s.get (CORE_STATUS_STATE f) = stFenced || s.dieFenced (p / 9) || s.partFenced then substEnd cSubstRefused 2 1 s
      else { s.set MGT_SUBST_STAT_PENDING 1 with subst := (p, f) }

def execSubstitute (phys : BitVec 8) (s : State) : Host.Outcome State Fault Refusal := .next (substitute phys.toNat s)

/-- SUBSTITUTION_START: both cores have stopped, and the fallow core's self-test begins. -/
def substitutionStart (s : State) : State :=
  if s.flag MGT_SUBST_STAT_PENDING && !busyCore s s.subst.1 && !busyCore s s.subst.2 then
    (s.set MGT_SUBST_STAT_PENDING 0).set MGT_SUBST_STAT_BUSY 1
  else s

def execSubstitutionStart (s : State) : Host.Outcome State Fault Refusal := .next (s.live substitutionStart)

/-- The exchange of the two cores' roles (R438, R410). -/
def exchangeCores (old new : Nat) (s : State) : State :=
  let l := s.get (CORE_ID_LOGICAL old)
  let t := (s.set (CORE_ID_LOGICAL new) l).set (CORE_ID_FALLOW new) 0
  let t := (t.set (CORE_ID_LOGICAL old) 0).set (CORE_ID_FALLOW old) 1
  setCorePlot old (setCorePlot new t)

/-- SUBSTITUTION_COMPLETE (R438, R439). It takes effect while neither core runs or is armed: a list that a RESUME has restarted since the
self-test began comes to its end first (R17; log entry 38). -/
def substitutionComplete (pass : Bool) (s : State) : State :=
  if !s.flag MGT_SUBST_STAT_BUSY || busyCore s s.subst.1 || busyCore s s.subst.2 then s
  else
    let old := s.subst.1
    let new := s.subst.2
    let held := fun (t : State) => takeHeld new (takeHeld old t)
    if !pass then held (substEnd cSubstRefused 1 0 s)
    else
      let l := s.get (CORE_ID_LOGICAL old)
      let t := ((coreUp new s).set (CORE_HEAD_HEAD new) 0).set (CORE_TAIL_TAIL new) 0
      let t := (exchangeCores old new t).bbWrite
        { code := cSubstDone, level := 0, kind := 0, die := dieOfCore old, sub := coreSub old 7, detail := new + l * 2 ^ 16 }
      held (substEnd cSubstDone 0 0 t)

def execSubstitutionComplete (pass : Bool) (s : State) : Host.Outcome State Fault Refusal :=
  .next (s.live (substitutionComplete pass))

/-! The black box after a freeze (R446, R447). -/

/-- UNFREEZE (R447). -/
def unfreeze (s : State) : State :=
  if s.flag MGT_BB_COPIED || s.flag MGT_BB_COPY_FAIL then (s.set MGT_BB_FROZEN 0).set MGT_BB_LOST 0 else s

def execUnfreeze (s : State) : Host.Outcome State Fault Refusal := .next (unfreeze s)

/-- Bytes of the ring in SEQ order. -/
def bbBytes (s : State) : List Byte :=
  let q := s.get MGT_BB_SEQ
  let n := min q 4096
  (List.range n).flatMap (fun i =>
    (List.range 4).flatMap (fun w => toBytes 8 (s.word (bbEntry ((q - n + i) % 4096) + 8 * w)).toNat))

/-- A copy slot's content (R446): a 64-byte header with its CRC-32C in the last four bytes, then the records. -/
def bbSlot (s : State) : List Byte :=
  let body := bbBytes s
  let head := [0x4B, 0x58, 0x42, 0x42, 0x4F, 0x58, 0x30, 0x31] ++ toBytes 8 s.silo.freezes ++ toBytes 8 s.silo.frozeAt ++
    toBytes 8 (body.length / 32) ++ List.replicate 28 0
  head ++ toBytes 4 (crc32c (head ++ body)) ++ body

/-- The copy of a frozen ring completes or fails (R446). -/
def bbCopy (ok : Bool) (s : State) : State :=
  if !s.flag MGT_BB_FROZEN || s.flag MGT_BB_COPIED || s.flag MGT_BB_COPY_FAIL then s
  else if ok && (!s.dieFenced 36 || !s.dieFenced 37) then
    let c := s.silo.copyNext
    let t := { s with silo := { s.silo with copies := Tab.insert c (bbSlot s) (Tab.erase c s.silo.copies), copyNext := (c + 1) % 8 } }
    (t.set MGT_BB_COPIED 1).set MGT_BB_SLOT c
  else (s.set MGT_BB_COPY_FAIL 1).report { code := cBbCopyFail, level := 0, kind := 1, die := dieHm, sub := 0 }

end Sys2Proof.Machine
end

