-- ==== Sys2Proof/Machine/HostPort.lean ====
section
/-!
DEFINITION. The host port (17_host_interface): BAR4 (R416, R417), configuration space (R412 to R414), MSI-X triggers (R420), the
part's own reads (R421), and resets and losses of the port (R423, R424).
-/
namespace Sys2Proof.Machine

/-! BAR4 (R416). -/

/-- Bytes of BAR4. -/
def bar4Bytes (s : State) : Nat := 2 ^ (30 + s.get PCI_BAR4_SIZE_LOG2)

/-- HBM offset that BAR4 offset `x` reaches. -/
def bar4Off (s : State) (x : Nat) : Nat := s.get PCI_BAR4_BASE * 2 ^ 30 + x

/-- Whether requests reach the port: its link has not been taken down by PERST_N or a fence. -/
def portServed (s : State) : Bool := !s.pci.perst && !s.partFenced

/-- The refusal code of an access by the host key (R261, R262, R298, R423). -/
def bar4Code (s : State) (perm x n : Nat) : Nat :=
  if !s.flag PCI_STATUS_READY then cVtWindow else accessCode s 0 (s.get PCI_HOST_KEY_KEY) perm (bar4Off s x) n

/-- Completes a read. -/
def complete (status : Nat) (bs : List Byte) (s : State) : State := { s with pci := { s.pci with cpl := some (status, bs) } }

/-- The bytes [x, x + n) of a string that starts at the aligned 8-byte word of `x`. -/
def cutWords (x n : Nat) (bs : List Byte) : List Byte := (bs.drop (x % 8)).take n

/-- Whole bytes of the aligned words that a range touches. -/
def wordSpan (x n : Nat) : Nat := 8 * ((x % 8 + n + 7) / 8)

/-- BAR4_READ (R416). -/
def bar4Read (x n : Nat) (s : State) : State :=
  if !portServed s || n = 0 || bar4Bytes s < x + n then s
  else
    let c := bar4Code s pR x n
    let off := bar4Off s x
    if c ≠ 0 then
      let t := if s.flag PCI_STATUS_READY then noteRefused false off n s else s
      complete 0 (cutWords x n (errBytes c (wordSpan x n))) (pciNote cPciBarRefused c (x / 8) t)
    else
      let u := hbmFind off n s
      let t := noteRead none off n u
      let t := if u.anyPoison off n then pciNote cPciBarRefused cVtPoison (x / 8) t else t
      complete 0 (cutWords x n (loadData u (off / 8 * 8) (wordSpan x n))) t

def execBar4Read (x : BitVec 36) (n : Fin 4097) (s : State) : Host.Outcome State Fault Refusal :=
  .next (bar4Read x.toNat n s)

/-- Bytes of a write with its byte enables, merged into what stands in memory. -/
def mergeBytes (s : State) (off : Nat) (bs : List (Option Byte)) : List Byte :=
  bs.zipIdx.map (fun b => b.1.getD (s.byte (off + b.2)))

/-- BAR4_WRITE (R416, R425): a byte whose enable is off is none. A poisoned write is discarded. Poison goes only with a whole
64-byte line written. -/
def bar4Write (x : Nat) (bs : List (Option Byte)) (poisoned : Bool) (s : State) : State :=
  let n := bs.length
  if !portServed s || n = 0 || bar4Bytes s < x + n then s
  else if poisoned then pciNote cPciPoison 0 (x / 8) s
  else
    let c := bar4Code s pW x n
    let off := bar4Off s x
    if c ≠ 0 then
      let t := if s.flag PCI_STATUS_READY then noteRefused true off n s else s
      pciNote cPciBarRefused c (x / 8) t
    else if bs.all (fun b => b.isSome) then memWrite none off (mergeBytes s off bs) s
    else
      -- words written in part keep their code's faults
      let t := s.setBytes off (mergeBytes s off bs)
      dirty off n (accept off n ((charge none off n t).count (HBM_WR_BYTES_COUNT (stackOf off)) n))

def execBar4Write (x : BitVec 36) (bytes : List (Option Byte)) (poisoned : Bool) (s : State) : Host.Outcome State Fault Refusal :=
  .next (bar4Write x.toNat bytes poisoned s)

/-- BAR4_BASE_WRITE: a write to PCI_BAR4 (R416). -/
def bar4BaseWrite (v : Word) (s : State) : State :=
  let b := PCI_BAR4_BASE.of v
  let n := 2 ^ s.get PCI_BAR4_SIZE_LOG2
  if b % n = 0 ∧ b + n ≤ 512 then s.set PCI_BAR4_BASE b else pciNote cPciAccess 0 4 s

def execBar4BaseWrite (v : Word) (s : State) : Host.Outcome State Fault Refusal := .next (bar4BaseWrite v s)

/-! MSI-X. -/

/-- MSIX_TRIG: a write to PCI_MSIX_TRIG (R420). -/
def msixTrig (v : Word) (s : State) : State :=
  if v.toNat = 0 ∨ 2047 < v.toNat then s else msixRaise v.toNat s

def execMsixTrig (v : Word) (s : State) : Host.Outcome State Fault Refusal := .next (msixTrig v s)

/-! Resets and losses (R424). -/

/-- What FLR resets. -/
def flrState (s : State) : State :=
  let t := s.resetRegs PCI_BAR4_BASE.addr (PCI_BAR4_BASE.addr + 8)
  let t := t.resetRegs PCI_IRQ_EN_EN.addr (PCI_IRQ_EN_EN.addr + 8)
  let t := t.resetRegs (PCI_APER_BASE 1).addr (PCI_APER_BASE 15).addr
  let t := t.resetRegs (PCI_DMA_WIN_A_EN 0).addr (PCI_DMA_WIN_A_EN 4).addr
  hostLost { t with pci := { imgRead := t.pci.imgRead, modRead := t.pci.modRead, cpl := t.pci.cpl, msg := t.pci.msg,
                             perst := t.pci.perst } }

/-- FLR. -/
def flr (s : State) : State := if portServed s then (flrState s).raise PCI_STATUS_FLR_SEEN else s
def execFlr (s : State) : Host.Outcome State Fault Refusal := .next (flr s)

/-- HOT_RESET: as FLR, and the link retrains. -/
def hotReset (s : State) : State := if portServed s then linkZero ((flrState s).raise PCI_STATUS_FLR_SEEN) else s
def execHotReset (s : State) : Host.Outcome State Fault Refusal := .next (hotReset s)

/-- PERST_N: assertion resets the port; the link retrains once it is deasserted (R424, R476). -/
def perstN (asserted : Bool) (s : State) : State :=
  let t := { s with pci := { s.pci with perst := asserted } }
  if asserted then linkZero (flrState t) else t
def execPerstN (asserted : Bool) (s : State) : Host.Outcome State Fault Refusal := .next (perstN asserted s)

/-- PCIE_LINK_DOWN (R424). -/
def pcieLinkDown (s : State) : State :=
  if pcieUp s then pciNote cPciLinkDown 0 0 (hostLost (linkZero s)) else s
def execPcieLinkDown (s : State) : Host.Outcome State Fault Refusal := .next (pcieLinkDown s)

/-- PCIE_LINK_UP: training ends at a speed and width, from the time the port has left reset (R412, R423, R477). -/
def pcieLinkUp (speed width : Nat) (flit : Bool) (s : State) : State :=
  if !portServed s || s.get PWR_STATUS_PHASE < 2 || speed = 0 || 6 < speed || width = 0 || 16 < width then s
  else
    let t := ((s.set PCI_LINK_SPEED speed).set PCI_LINK_WIDTH width).set PCI_LINK_FLIT (ofBool flit)
    if speed < 6 ∨ width < 16 then
      (pciNote cPciDegraded 0 0 t).report { code := cPciDegraded, level := 0, kind := 1, die := dieHm, sub := 0 }
    else t
def execPcieLinkUp (speed : Fin 7) (width : Fin 17) (flit : Bool) (s : State) : Host.Outcome State Fault Refusal :=
  .next (pcieLinkUp speed width flit s)

/-- PCIE_ATOMICOP: Unsupported Request (R413). -/
def pcieAtomicop (s : State) : State := if portServed s then complete 1 [] s else s
def execPcieAtomicop (s : State) : Host.Outcome State Fault Refusal := .next (pcieAtomicop s)

/-! The part's own reads (R421). -/

/-- Data for the image that is being presented. -/
def imgData (r : HostRead) (c : CplStat) (s : State) : State :=
  match c with
  | .data bs => { s with pci := { s.pci with imgRead := some { r with got := (r.got ++ bs).take r.want } } }
  | .poisoned => imgReadFail cPciPoison (pciNote cPciPoison 0 0 s)
  | .refused => imgReadFail (s.drawWord.1.toNat % 2 ^ 16) s.drawWord.2

/-- Data for a model load: while the tables are being read, what they show says how much more is wanted, which a window must
cover too. -/
def modData (r : HostRead) (c : CplStat) (s : State) : State :=
  match c with
  | .data bs =>
    let g := (r.got ++ bs).take r.want
    let want := if modelSt s = mVerify ∧ r.want ≤ g.length then max r.want (tablesWant g) else r.want
    let bad := if r.want < want then dmaRefusal s r.addr want else 0
    if bad ≠ 0 then modReadFail (pciNote bad 0 0 s)
    else { s with pci := { s.pci with modRead := some { r with want := want, got := g } } }
  | .poisoned => modReadFail (pciNote cPciPoison 0 0 s)
  | .refused => modReadFail s

/-- HOST_READ_COMPLETION: for the model load, or for the presented image. -/
def hostReadCompletion (model : Bool) (c : CplStat) (s : State) : State :=
  if model then match s.pci.modRead with | some r => modData r c s | none => s
  else match s.pci.imgRead with | some r => imgData r c s | none => s

def execHostReadCompletion (model : Bool) (c : CplStat) (s : State) : Host.Outcome State Fault Refusal :=
  .next (hostReadCompletion model c s)

/-- COMPLETION_TIMEOUT. -/
def completionTimeout (model : Bool) (s : State) : State :=
  if model then if s.pci.modRead.isSome then modReadFail (pciNote cPciCto 0 0 s) else s
  else if s.pci.imgRead.isSome then imgReadFail cPciCto (pciNote cPciCto 0 0 s) else s

def execCompletionTimeout (model : Bool) (s : State) : Host.Outcome State Fault Refusal := .next (completionTimeout model s)

/-! Configuration space (R412, R414). -/

/-- Bytes of a BAR. -/
def barSize (s : State) (b : Nat) : Nat := if b = 0 then 67108864 else if b = 1 then 33554432 else bar4Bytes s

/-- A configuration read. The manual does not give the content of the registers that PCIe alone defines: a free value. -/
def cfgRead (r : CfgReg) (s : State) : Nat × State :=
  match r with
  | .identity => (s.get PCI_ID_VENDOR + s.get PCI_ID_DEVICE * 2 ^ 16, s)
  | .revisionClass => (s.get PCI_ID_REV + 0x120000 * 2 ^ 8, s)
  | .command => (s.pci.command, s)
  | .bar b => (Tab.get (fun _ => 0) s.pci.bars b, s)
  | .msixControl => (2047 + ofBool s.pci.msixMask * 2 ^ 14 + ofBool s.pci.msixEn * 2 ^ 15, s)
  | .devControl => (s.pci.dev, s)
  | .devControl2 => (s.pci.dev2, s)
  | .powerState => (s.pci.power, s)
  | .bar4Size => (s.get PCI_BAR4_SIZE_LOG2, s)
  | .other _ => (s.drawWord.1.toNat, s.drawWord.2)

/-- A configuration write. Initiate Function Level Reset is bit 15 of Device Control; MSI-X Enable and Function Mask are bits 15
and 14 of Message Control; power states other than D0 and D3hot are not taken (R412). -/
def cfgWrite (r : CfgReg) (v : Nat) (s : State) : State :=
  match r with
  | .command => { s with pci := { s.pci with command := v % 2 ^ 16 } }
  | .bar b => { s with pci := { s.pci with bars := Tab.set (fun _ => 0) s.pci.bars b (v % 2 ^ 64 / barSize s b * barSize s b) } }
  | .msixControl => msixUnmask { s with pci := { s.pci with msixEn := bitOf v 15, msixMask := bitOf v 14 } }
  | .devControl =>
    if bitOf v 15 then flr s else { s with pci := { s.pci with dev := v % 2 ^ 15 } }
  | .devControl2 => { s with pci := { s.pci with dev2 := v % 2 ^ 16 } }
  | .powerState => if v % 4 = 0 ∨ v % 4 = 3 then { s with pci := { s.pci with power := v % 4 } } else s
  | .bar4Size => if v ≤ 6 then s.set PCI_BAR4_SIZE_LOG2 v else s
  | _ => s

/-- CONFIG_ACCESS: a read, or a write of a value. Configuration space is served from the time the port leaves reset (R423). -/
def configAccess (r : CfgReg) (v : Option Word) (s : State) : State :=
  if !portServed s || s.get PWR_STATUS_PHASE < 2 then s
  else
    match v with
    | none => let x := cfgRead r s; complete 0 (toBytes 8 x.1) x.2
    | some w => complete 0 [] (cfgWrite r w.toNat s)

def execConfigAccess (r : CfgReg) (v : Option Word) (s : State) : Host.Outcome State Fault Refusal :=
  .next (configAccess r v s)

end Sys2Proof.Machine
end

