-- ==== Sys2Proof/Machine/Security.lean ====
section
/-!
DEFINITION. The security die (19_security): key erase (R459), sensors and alarms (R460 to R462), debug access (R463), and
provisioning (R457).
-/
namespace Sys2Proof.Machine

def cSecAlarm : Nat := 0x0801
def cSecKeyErased : Nat := 0x0802
def cSecProvState : Nat := 0x0804
def cSecAuth : Nat := 0x0805
def cSecEpochExh : Nat := 0x0806
def cSecImgEvent : Nat := 0x0808
def cSecBootFail : Nat := 0x0809
def cSecDebug : Nat := 0x080A

/-- KEYSTATE (R456). -/
def ksEmpty : Nat := 0
def ksProvisioned : Nat := 1
def ksLockedOut : Nat := 2

/-- SE in R428's DIE order. -/
def dieSe : Nat := 39

/-- A security record, never coalesced (R442, R464), with SEC_LAST. -/
def secRecord (code kind detail : Nat) (s : State) : State :=
  ((s.set SEC_LAST_CODE code).set SEC_LAST_DETAIL detail).bbWrite
    { code := code, level := 0, kind := kind, die := dieSe, sub := 0, detail := detail }

/-- Measurement 8: KEYSTATE, KEY_EPOCH, applied alarm levels and JTAG mode (R454). -/
def measSecurity (s : State) : State :=
  let bs := [s.get SEC_STATE_KEYSTATE, s.get SEC_STATE_KEY_EPOCH, s.get SEC_ALARM_LVL_LEVEL, s.get SEC_STATE_JTAG]
  setMeas 8 (Config.sha384 (bs.map (BitVec.ofNat 8))).toNat s

/-- Key erase (R459): model key, transport keys, sealed DMK; then one KEY_EPOCH bit is burnt; DIK last. -/
def keyErase (s : State) : State :=
  let t := eraseModelKey s
  let t := { t with sec := { t.sec with transport := false, dmk := none } }
  let e := min 64 (t.get SEC_STATE_KEY_EPOCH + 1)
  let t := (t.set SEC_STATE_KEY_EPOCH e).set SEC_STATE_KEYSTATE (if e = 64 then ksLockedOut else ksEmpty)
  let t := (measSecurity (setMeas 9 0 t)).set SEC_ALARM_STAT_KEYS_ERASED 1
  { t with sec := { t.sec with dik := none } }

/-! Sensors (R460 to R462). -/

/-- Applied level of a sensor. -/
def sensorLevel (s : State) (i : Nat) : Nat := bitsOf (s.get SEC_ALARM_LVL_LEVEL) (2 * i) 2

/-- SEC_ALARM_CNT of a sensor. -/
def alarmCnt (i : Nat) : Fld := ⟨SEC_ALARM_CNT_COUNT.addr, 16 * i, 16⟩

/-- The record of a sensor: its index and level in DETAIL. -/
def alarmRecord (i : Nat) (s : State) : State :=
  (secRecord cSecAlarm 0 (i + 4 * sensorLevel s i) s).raise SEC_IRQ_ALARM

/-- Level 2 and above: the black box freezes and the part is fenced (R445, R461). -/
def alarmFence (i q : Nat) (s : State) : State :=
  let r : Rec := { code := cSecAlarm, level := 4, kind := 0, die := dieSe, sub := 0, detail := i + 4 * sensorLevel s i }
  let t := if s.flag MGT_BB_FROZEN then s
    else
      let u := s.bbFreeze dieHm 0
      { u with silo := { u.silo with frozeAt := q } }
  let fenced := t.partFenced
  let t := t.set SEC_ALARM_STAT_HALTED 1
  if fenced then t else fenceAll (t.putRecord partErr r s.alm q)

/-- SENSOR_FIRE: the sensors that fire in one cycle (R461, R465). A part that has responded at level 2 or 3 only counts. -/
def sensorFire (fired : List Nat) (s : State) : State :=
  let is := (List.range 4).filter fired.contains
  match is with
  | [] => s
  | i :: _ =>
    if s.pwr.unpowered then s
    else
      let t := is.foldl (fun t j => t.countSat (alarmCnt j) 1) s
      if s.flag SEC_ALARM_STAT_HALTED then t
      else
        let top := is.foldl (fun m j => max m (sensorLevel s j)) 0
        let t := t.set SEC_ALARM_STAT_FIRED (is.foldl (fun m j => m ||| 2 ^ j) (t.get SEC_ALARM_STAT_FIRED))
        let t := t.set SEC_ALARM_STAT_HIGHEST (max top (t.get SEC_ALARM_STAT_HIGHEST))
        let t := if 3 ≤ top then keyErase t else t
        let q := t.get MGT_BB_SEQ + 1
        let t := is.foldl (fun t j => alarmRecord j t) t
        if 2 ≤ top then alarmFence i q t else t

def execSensorFire (sensors : List (Fin 4)) (s : State) : Host.Outcome State Fault Refusal :=
  .next (sensorFire (sensors.map Fin.val) s)

/-- What level 2 zeroes (R462). -/
def scrub (s : State) : State :=
  let t := (List.range 144).foldl (fun t p => zeroRange (csOffset p 0) csSize t) s
  let t := (List.range 8).foldl (fun t m =>
    zeroRange (m * stackSize + t.get (TIER_REGION_FIRST (m / 2) (m % 2)) * frameSize)
      (t.get (TIER_REGION_COUNT (m / 2) (m % 2)) * frameSize) t) { t with accs := [] }
  let t := zeroRange (t.get (TIER_MODEL_HTAB_BASE 0) * 64) (t.get (TIER_MODEL_TABSZ_HTAB 0) * 64) t
  zeroRange (t.get (TIER_MODEL_TTAB_BASE 0) * 64) (t.get (TIER_MODEL_TABSZ_TTAB 0) * 65536) t

/-- SCRUB_DONE: the zeroing ends. -/
def scrubDone (s : State) : State :=
  if s.flag SEC_ALARM_STAT_HALTED && !s.flag SEC_ALARM_STAT_SCRUB_DONE then (scrub s).set SEC_ALARM_STAT_SCRUB_DONE 1 else s

def execScrubDone (s : State) : Host.Outcome State Fault Refusal := .next (scrubDone s)

/-- JTAG_DEBUG_REQUEST (R463): granted in mode 2 with DEBUG_ALLOW fused and no DMK; otherwise ignored. -/
def jtagDebugRequest (s : State) : State :=
  if s.get SEC_STATE_JTAG = 2 && s.flag SEC_ID_DEBUG_ALLOW && s.get SEC_STATE_KEYSTATE == ksEmpty && !s.pwr.unpowered then
    secRecord cSecDebug 0 0 { s with sec := { s.sec with debug := true } }
  else s

def execJtagDebugRequest (s : State) : Host.Outcome State Fault Refusal := .next (jtagDebugRequest s)

/-! Provisioning (R457). -/

/-- Draws a number of 64-bit words. -/
def drawWords : Nat → State → Nat × State
  | 0, s => (0, s)
  | n + 1, s =>
    let d := s.drawWord
    let r := drawWords n d.2
    (d.1.toNat + 2 ^ 64 * r.1, r.2)

/-- A fresh single-use nonce of 32 bytes. -/
def getNonceOp (s : State) : List Byte × State :=
  let d := drawWords 4 s
  (toBytes 32 d.1, { d.2 with sec := { d.2.sec with nonce := some d.1 } })

/-- Whether a signature by an owner key covers the serial number, KEY_EPOCH and the nonce. -/
def ownerSigned (s : State) (sig : List Byte) : Bool :=
  match s.sec.nonce with
  | none => false
  | some n =>
    let d := Config.sha384 (toBytes 6 (s.get MGT_ID_SERIAL) ++ toBytes 1 (s.get SEC_STATE_KEY_EPOCH) ++ toBytes 32 n)
    ownerKeys.any (fun k => Config.ecdsaVerify (BitVec.ofNat 384 k) d sig)

/-- Uses up the nonce. -/
def useNonce (s : State) : State := { s with sec := { s.sec with nonce := none } }

/-- PROVISION: the code, and the DMK's public key. -/
def provisionOp (sig : List Byte) (s : State) : Nat × List Byte × State :=
  if s.get SEC_STATE_KEYSTATE = ksLockedOut then (cSecEpochExh, [], s)
  else if !ownerSigned s sig then (cSecAuth, [], useNonce s)
  else if s.get SEC_STATE_KEYSTATE ≠ ksEmpty then (cSecProvState, [], useNonce s)
  else
    let d := drawWords 6 (useNonce s)
    let pub := Config.publicKey d.1
    let t := { d.2 with sec := { d.2.sec with dmk := some d.1 } }.set SEC_STATE_KEYSTATE ksProvisioned
    (0, pub, (measSecurity (setMeas 9 (Config.sha384 pub).toNat t)).raise SEC_IRQ_PROV)

/-- DEPROVISION: key erase without an alarm. -/
def deprovisionOp (sig : List Byte) (s : State) : Nat × State :=
  if s.get SEC_STATE_KEYSTATE = ksLockedOut then (cSecEpochExh, s)
  else if !ownerSigned s sig then (cSecAuth, useNonce s)
  else (0, (secRecord cSecKeyErased 0 0 (keyErase (useNonce s))).raise SEC_IRQ_PROV)

end Sys2Proof.Machine
end

