-- ==== Sys2Proof/Machine/Power.lean ====
section
/-!
DEFINITION. Power caps and gating (20_power_clocks_reset R469, R470), thermal limits and trips (R471 to R473), rails (R467,
R468), planned power-down (R478), and management duties (R481).
-/
namespace Sys2Proof.Machine

def cPwrRail : Nat := 0x0902
def cThermWarn : Nat := 0x0903
def cThermTrip : Nat := 0x0904

/-! Cuts (R470). Watts are taken in 0.1 W. -/

/-- A die's 1 ms mean and its budget. -/
def dieMean (s : State) (d : Nat) : Nat := s.get (PWR_DIE_MEAN_W d)
def dieBudget (s : State) (d : Nat) : Nat := 10 * s.get (PWR_DIE_BUDGET_W d)

/-- Sum of a figure over dies. -/
def sumOf (ds : List Nat) (f : Nat → Nat) : Nat := ds.foldl (fun a d => a + f d) 0

/-- The smallest duty that brings a die's power to its target, both over one denominator. -/
def dutyFor (power target : Nat) : Nat :=
  ((List.range 257).find? (fun d => decide (power * (256 - d) ≤ 256 * target))).getD 256

/-- Duties that cut the total by `n` (R470, steps 2 and 3). The cuts are fractions over one denominator. -/
def dutiesFor (n : Nat) (s : State) : List Cut :=
  let ds := (List.range 40).filter gateable
  let excess := fun d => dieMean s d - dieBudget s d
  let total := sumOf (List.range 40) excess
  let b := max 1 (sumOf ds (dieBudget s))
  let inside := ds.filter (fun d => excess d == 0)
  let b2 := max 1 (sumOf inside (dieBudget s))
  let enough := decide (n ≤ total)
  let den := max 1 total
  let share := fun d => if enough then excess d * n else excess d * den
  let spread := sumOf [32, 33, 34, 35, 38, 39] share
  ds.map (fun d =>
    let ofStacks := if 16 ≤ d ∧ d < 20 then share (20 + 2 * (d - 16)) + share (21 + 2 * (d - 16)) else 0
    let rest := if enough || excess d != 0 then 0 else (n - total) * den * dieBudget s d * b
    let cut := (share d + ofStacks) * b * b2 + spread * dieBudget s d * b2 + rest
    let power := dieMean s d * (den * b * b2)
    { src := 0, die := d, duty := dutyFor power (power - cut) })

/-- A die's duty in a list of cuts. -/
def cutDuty (cs : List Cut) (d : Nat) : Nat := ((cs.find? (fun c => c.die == d)).map (fun c => c.duty)).getD 0

/-- Gates to a target total in watts, the larger duty of each die standing (R469, R480). -/
def gateTo (target cause total : Nat) (s : State) : State :=
  let old := cutsOf s 0
  let new := (dutiesFor (10 * (total - target)) s).map (fun c => { c with duty := max c.duty (cutDuty old c.die) })
  let t := putCuts 0 cause new s
  { t with pwr := { t.pwr with target := target } }

/-- Corrects every duty by a step of 1 (R470, step 4). -/
def stepCuts (up : Bool) (s : State) : State :=
  let old := cutsOf s 0
  let new := old.map (fun c => if c.duty = 0 then c else { c with duty := if up then min 256 (c.duty + 1) else c.duty - 1 })
  if old.isEmpty then s else putCuts 0 2 new s

/-- The total that a sample must not exceed, 0 for none (R469). -/
def capNow (s : State) : Nat :=
  if s.get PWR_EXC_STATE = 2 || s.pwr.past then s.get PWR_CAP_SUST else s.get PWR_CAP_EXC

/-- Enters an excursion state. -/
def excState (st : Nat) (s : State) : State := (s.set PWR_EXC_STATE st).set PWR_EXC_ELAPSED_US 0

/-- POWER_SAMPLE (R469, R470, R481): the sample of a microsecond and the means, with whether the controller finds margin to lower
duties. -/
def powerSample (total mean : Nat) (dies : List Nat) (margin : Bool) (s : State) : State :=
  if s.pwr.unpowered then s
  else
    let t := (s.set PWR_TOTAL_SAMPLE_W total).set PWR_TOTAL_MEAN_W mean
    let t := (dies.take 40).zipIdx.foldl (fun t d => t.set (PWR_DIE_MEAN_W d.2) d.1) t
    let t := t.countSat PWR_EXC_ELAPSED_US 1
    let t := if s.get PWR_EXC_STATE = 0 ∧ s.get PWR_CAP_SUST < total then
        (excState 1 t).countSat PWR_EXC_COUNT 1
      else t
    let cap := capNow t
    if cap < total then
      if t.pwr.target = cap && (cutsOf t 0).any (fun c => c.duty != 0) then stepCuts true t
      else gateTo cap (if s.get PWR_CAP_EXC < total ∨ t.get PWR_EXC_STATE = 1 then 2 else 1) total t
    else if margin then stepCuts false t
    else t

def execPowerSample (total mean : BitVec 16) (dies : List (BitVec 16)) (margin : Bool) (s : State) :
    Host.Outcome State Fault Refusal :=
  .next (powerSample total.toNat mean.toNat (dies.map BitVec.toNat) margin s)

/-- EXCURSION_DEADLINE (R469): 9,990 us into an excursion. -/
def excursionDeadline (s : State) : State :=
  if s.get PWR_EXC_STATE ≠ 1 then s
  else
    let t := { s with pwr := { s.pwr with past := true } }
    let w := s.get PWR_TOTAL_SAMPLE_W
    if s.get PWR_CAP_SUST < w then gateTo (s.get PWR_CAP_SUST) 2 w t else t

def execExcursionDeadline (s : State) : Host.Outcome State Fault Refusal := .next (excursionDeadline s)

/-- EXCURSION_END (R469): 1 ms has passed with no sample above SUST. -/
def excursionEnd (s : State) : State :=
  if s.get PWR_EXC_STATE = 1 ∧ s.get PWR_TOTAL_SAMPLE_W ≤ s.get PWR_CAP_SUST then
    { excState 2 s with pwr := { s.pwr with past := false } }
  else s

def execExcursionEnd (s : State) : Host.Outcome State Fault Refusal := .next (excursionEnd s)

/-- HOLD_OFF_END (R469): the power cuts fall to 0. -/
def holdOffEnd (s : State) : State :=
  if s.get PWR_EXC_STATE ≠ 2 then s
  else
    let t := excState 0 s
    let cs := cutsOf s 0
    let t := if cs.isEmpty then t else putCuts 0 1 (cs.map (fun c => { c with duty := 0 })) t
    { t with pwr := { t.pwr with target := 0 } }

def execHoldOffEnd (s : State) : Host.Outcome State Fault Refusal := .next (holdOffEnd s)

/-- PWR_MGT_DUTY_WRITE (R470, R481): the management duty of the dies named, 0 for the others. -/
def pwrMgtDutyWrite (v : Word) (s : State) : State :=
  let w := PWR_MGT_DUTY_DUTY.of v
  let t := (s.set PWR_MGT_DUTY_DUTY w).set PWR_MGT_DUTY_DIES (PWR_MGT_DUTY_DIES.of v)
  let named := fun d => (PWR_MGT_DUTY_DIES.of v).testBit d
  let ds := (List.range 40).filter (fun d => gateable d && (named d || (cutsOf s 1).any (fun c => c.die == d)))
  putCuts 1 4 (ds.map (fun d => { src := 1, die := d, duty := if named d then min 256 w else 0 })) t

def execPwrMgtDutyWrite (v : Word) (s : State) : Host.Outcome State Fault Refusal := .next (pwrMgtDutyWrite v s)

/-! Trips (R473). -/

/-- A trip: its code is shown, the part is fenced, and the power-off waits for the black-box copy. -/
def tripPart (code die detail : Nat) (f : Fld) (s : State) : State :=
  let t := partFence code die 0 detail ((s.set PWR_STATUS_CODE code).raise f)
  { t with pwr := { t.pwr with trip := true } }

/-- A power trip (R467). -/
def powerTrip (rail : Nat) (s : State) : State := tripPart cPwrRail dieHm rail PWR_IRQ_RAIL s

/-- A thermal trip: a throttle record of cause 3 comes first (R388, R473). -/
def thermalTrip (d : Nat) (s : State) : State :=
  let t := openEvent 3 s
  let t := if gateable d then t.set (thrLog (t.get ALM_THR_SEQ_SEQ) 2) (2 ^ thrBit d) else t
  tripPart cThermTrip d d PWR_IRQ_TRIP t

/-! Temperatures (R471, R472). -/

/-- The die that thermal gating of die `d` falls on. -/
def thermGate (d : Nat) : Nat := if 20 ≤ d ∧ d < 28 then 16 + (d - 20) / 2 else d

/-- Cuts of a sensor: a cut on a die that an open event already gates for power joins that event (R472, R480). -/
def thermCut (d duty : Nat) (s : State) : State :=
  let g := thermGate d
  let c : Cut := { src := 2 + d, die := g, duty := duty }
  match eventOf s (2 + d), s.pwr.events.find? (fun e => e.cuts.any (fun c => c.src == 0 && c.die == g && c.duty != 0)) with
  | none, some e => if duty = 0 then s else setCuts e.seq (e.cuts ++ [c]) s
  | _, _ => putCuts (2 + d) 3 [c] s

/-- TEMP_SAMPLE (R471, R472): a die's report; ofStacks report through HBM_STATUS too. -/
def tempSample (d : Nat) (temp : BitVec 8) (s : State) : State :=
  if s.pwr.unpowered then s
  else
    let v := signedOf temp.toNat 8
    let t := s.set (PWR_TEMP_TEMP_C d) temp.toNat
    let t := if signedOf (s.get (PWR_TEMP_MAX_C d)) 8 < v then t.set (PWR_TEMP_MAX_C d) temp.toNat else t
    let hbm := decide (20 ≤ d) && decide (d < 28)
    let t := if hbm then t.set (HBM_STATUS_TEMP_C (d - 20)) temp.toNat else t
    let warn : Int := (s.get (if hbm then PWR_THERM_HBM_WARN_C else PWR_THERM_WARN_C) : Nat)
    let trip : Int := (s.get (if hbm then PWR_FUSE_HBM_TRIP_C else PWR_FUSE_TRIP_C) : Nat)
    let old := cutDuty (cutsOf s (2 + d)) (thermGate d)
    let warm := s.pwr.warm.filter (fun x => x != d)
    if d = dieSe then t
    else if trip ≤ v then thermalTrip d t
    else if warn ≤ v then
      let t := { t with pwr := { t.pwr with warm := warm ++ [d] } }
      let t := if s.pwr.warm.contains d then t
        else (t.raise PWR_IRQ_WARN).report { code := cThermWarn, level := 0, kind := 1, die := d, sub := 1023 }
      if gateable (thermGate d) then thermCut d (min 256 (old + 16)) t else t
    else
      let t := { t with pwr := { t.pwr with warm := warm } }
      if v ≤ warn - 2 ∧ old ≠ 0 then thermCut d (old - 16) t else t

def execTempSample (die : Fin 40) (temp : BitVec 8) (s : State) : Host.Outcome State Fault Refusal :=
  .next (tempSample die temp s)

/-! Rails (R467, R468). -/

/-- Nominal voltage of a rail in mV, where the table gives one. -/
def railNominal (r : Nat) : Option Nat := ([some 750, some 1800, some 900, some 750, some 800, some 900, some 800, none, none, none, none, some 1200].getD r none)

/-- Whether a reading lies in its rail's band: within 5 % of nominal, or as the rail's standard has it. -/
def railOk (r mv : Nat) (std : Bool) : Bool :=
  match railNominal r with
  | some n => decide (20 * mv ≤ 21 * n) && decide (19 * n ≤ 20 * mv)
  | none => std

/-- RAIL_MONITOR: the 1 us check of rail `r`. A main rail out of band for ten checks in a row is a power trip. -/
def railMonitor (r mv amps : Nat) (std : Bool) (s : State) : State :=
  if s.pwr.unpowered then s
  else
    let good := railOk r mv std
    let t := ((s.set (PWR_RAIL_STAT_MV r) mv).set (PWR_RAIL_STAT_AMPS r) amps).set (PWR_RAIL_STAT_IN_BAND r) (ofBool good)
    let main := decide (3 ≤ r) && s.flag PWR_STATUS_MAIN_PG
    let n := if good || !main then 0 else Tab.get (fun _ => 0) s.pwr.rails r + 1
    let t := { t with pwr := { t.pwr with rails := Tab.set (fun _ => 0) t.pwr.rails r n } }
    if n = 10 then powerTrip r t else t

def execRailMonitor (r : Fin 12) (mv amps : BitVec 16) (std : Bool) (s : State) : Host.Outcome State Fault Refusal :=
  .next (railMonitor r mv.toNat amps.toNat std s)

/-- The content of HBM and core store is lost. -/
def loseMemory (s : State) : State := { s with mem := [], fills := [], poison := [], accs := [] }

/-- The main rails go: the registers but those held on the sideband, which take in the last values reported of CORE_ID and CORE_STATUS
(R94), are as after reset, and memory and the state of every die but HM and SE are lost (R478). What the flash holds stays. The part
stands in STANDBY with its firmware running. -/
def mainOff (s : State) : State :=
  let t := eraseModelKey (hostLost s)
  let t := loseMemory { t with regs := t.regs.filter (fun r => regSideband r.1) }
  let t := { t with
    cores := [], plots := [], vt := {}, links := [], wins := [], thrs := [], sows := [], glns := [], col := {}, tiers := [],
    model := {}, hbms := [], serv := {}, rel := {}, sec := { t.sec with transport := false } }
  (((t.set PWR_STATUS_MAIN_EN 0).set PWR_STATUS_PHASE 2).set PWR_STATUS_DEGRADED 0).set PCI_STATUS_READY 0

/-- MAIN_PG_CHANGE (R468, R477, R480): it ends phase 3, or is a power trip while MAIN_EN is driven. -/
def mainPgChange (asserted : Bool) (s : State) : State :=
  if s.pwr.unpowered then s
  else
    let t := s.set PWR_STATUS_MAIN_PG (ofBool asserted)
    if asserted then
      if s.get PWR_STATUS_PHASE = 3 ∧ s.flag PWR_STATUS_MAIN_EN ∧ s.get PWR_STATUS_CODE = 0 then t.set PWR_STATUS_PHASE 4 else t
    else if s.flag PWR_STATUS_MAIN_EN ∧ s.flag PWR_STATUS_MAIN_PG then loseMemory (powerTrip 0 t)
    else loseMemory t

def execMainPgChange (asserted : Bool) (s : State) : Host.Outcome State Fault Refusal := .next (mainPgChange asserted s)

/-- A planned power-down, after a BYE on every port (R254, R478). -/
def powerDownOp (s : State) : State :=
  let b := byeAll 3 s
  if s.flag PWR_STATUS_MAIN_EN then { mainOff b with links := byeOnly 3 b.links } else s

/-- PWR_CMD_DOWN: a write to PWR_CMD. -/
def pwrCmdDown (v : Word) (s : State) : State := if bitOf v.toNat 0 then powerDownOp s else s

def execPwrCmdDown (v : Word) (s : State) : Host.Outcome State Fault Refusal := .next (pwrCmdDown v s)

end Sys2Proof.Machine
end

