-- ==== Sys2Proof/Machine/BringUp.lean ====
section
/-!
DEFINITION. Reset inputs (20_power_clocks_reset R476, R479), loss of lock (R475), and bring-up (R453, R477, R380, R406).
-/
namespace Sys2Proof.Machine

def cPwrSeq : Nat := 0x0905
def cClkAlign : Nat := 0x0A0A
def cClkLock : Nat := 0x0A0B

/-! Reset (R476). -/

/-- Registers that RESET_N leaves: the black-box ring, the throttle log and ALM_THR_SEQ (R476). -/
def keptByReset (a : Nat) : Bool :=
  (decide (bbEntry 0 ≤ a) && decide (a < bbEntry 4096)) || (decide ((thrLog 0 0).addr ≤ a) && decide (a < (thrLog 0 0).addr + 8192)) ||
    a == ALM_THR_SEQ_SEQ.addr

/-- Offset of the recovery image (R453). -/
def recoveryOff : Nat := 0x04000000

/-- Boot-flash offset of a component of a firmware update (R490): firmware goes where the FIRMWARE section of the BOOT image that the
package supplies, or else of the one in force, has it. -/
def compOff (s : State) (c : Nat) : Option Nat :=
  let boot := match s.mgt.comps.find? (fun x => x.1 == 1) with | some x => some x.2 | none => s.cfg.boot
  if c = 1 then some 0
  else if c = 5 then some recoveryOff
  else (boot.bind (fun g => fwEnt ((sect g 0xE).getD []) (if c = 2 then 3 else c - 2))).map (fun e => le e 8 8)

/-- Writes bytes of the boot flash. -/
def flashPut (off : Nat) (bs : List Byte) (s : State) : State :=
  { s with cfg := { s.cfg with flash := bs.zipIdx.foldl (fun f b => Tab.set (fun _ => 0) f (off + b.2) b.1) s.cfg.flash } }

/-- Leaves the place of a component of the boot flash unknown: a write of it failed or was cut off (R491). -/
def flashLost (c : Nat) (s : State) : State :=
  match compOff s c, s.mgt.comps.find? (fun x => x.1 == c) with
  | some off, some x =>
    let t := flashPut off ((List.range x.2.length).map (fun i => Config.freeMem (s.free + 1) (off + i))) s
    { t with free := t.free + 1 }
  | _, _ => s

/-- A firmware update whose write is in progress is cut off (R492). -/
def cutUpdate (s : State) : State :=
  match s.mgt.todo with
  | c :: _ => if s.get MGT_FWUP_STATE = 4 then flashLost c s else s
  | [] => s

/-- What outlives every reset: the queue, the cycle and free-value counters of the model, the sealed DMK and the burnt KEY_EPOCH
(R452, R456), the flash of the Silo and of the board, and the pin PERST_N. -/
def lasting (s0 t : State) : State :=
  let s := cutUpdate s0
  { t with pending := s.pending, fc := s.fc, free := s.free, sec := { t.sec with dmk := s.sec.dmk }, silo := { s.silo with opn := none },
           cfg := { t.cfg with flash := s.cfg.flash }, pci := { t.pci with perst := s.pci.perst } }.set
    SEC_STATE_KEY_EPOCH (s.get SEC_STATE_KEY_EPOCH)

/-- The part enters reset (R476): BYE on every port, then every field to its reset value but those kept. -/
def enterReset (s : State) : State :=
  let b := byeAll 1 s
  let t := lasting b State.reset
  let kept : Tab Word := b.regs.filter (fun r => keptByReset r.1)
  let t := kept.foldl (fun u r => u.setWord r.1 r.2) t
  { t.set MGT_BB_SEQ (b.get MGT_BB_SEQ) with pwr := { t.pwr with inReset := true }, links := byeOnly 1 b.links }

/-- Whether a trip's black-box copy is under way (R480). -/
def copyRunning (s : State) : Bool := s.pwr.trip && !s.flag MGT_BB_COPIED && !s.flag MGT_BB_COPY_FAIL

/-- An assertion of RESET_N, which waits for the copy of a trip. -/
def resetInput (s : State) : State :=
  if s.pwr.unpowered then s
  else if copyRunning s then { s with pwr := { s.pwr with resetWait := true } }
  else enterReset s

/-- RESET_N. -/
def resetN (s : State) : State := resetInput s
def execResetN (s : State) : Host.Outcome State Fault Refusal := .next (resetN s)

/-- RESET_N_RELEASE: bring-up starts again. -/
def resetNRelease (s : State) : State :=
  if s.pwr.inReset then { s.set PWR_STATUS_PHASE 1 with pwr := { s.pwr with inReset := false } } else s
def execResetNRelease (s : State) : Host.Outcome State Fault Refusal := .next (resetNRelease s)

/-- STBY_POR_N: the cold reset of R11; the boot ROM starts. -/
def stbyPorN (s : State) : State := (lasting s State.reset).set PWR_STATUS_PHASE 1
def execStbyPorN (s : State) : Host.Outcome State Fault Refusal := .next (stbyPorN s)

/-- STANDBY_POWER_LOSS (R479): nothing but what is fused, sealed or in flash is left. -/
def standbyPowerLoss (s : State) : State :=
  let t := lasting s State.reset
  { t with pwr := { t.pwr with unpowered := true } }
def execStandbyPowerLoss (s : State) : Host.Outcome State Fault Refusal := .next (standbyPowerLoss s)

/-- TRST_N: the TAP alone. -/
def trstN (s : State) : State := { s with sec := { s.sec with debug := false } }
def execTrstN (s : State) : Host.Outcome State Fault Refusal := .next (trstN s)

/-- A RESET_N that waited takes effect. -/
def takeReset (s : State) : State := if s.pwr.resetWait then enterReset s else s

/-- BB_COPY_DONE (R446, R480): the frozen ring's copy completes or fails. -/
def bbCopyDone (ok : Bool) (s : State) : State :=
  let t := bbCopy ok s
  if copyRunning t then t else takeReset t
def execBbCopyDone (ok : Bool) (s : State) : Host.Outcome State Fault Refusal := .next (bbCopyDone ok s)

/-- TRIP_POWER_OFF (R473): at the end of the copy, or 60 ms after the fence. -/
def tripPowerOff (s : State) : State :=
  if s.pwr.trip then
    let t := mainOff { s with pwr := { s.pwr with trip := false, faultN := true } }
    takeReset t
  else s
def execTripPowerOff (s : State) : Host.Outcome State Fault Refusal := .next (tripPowerOff s)

/-! Bring-up. -/

/-- Bring-up stops in its phase with a code (R477). -/
def stopBringUp (code : Nat) (s : State) : State :=
  (s.set PWR_STATUS_CODE code).report { code := code, level := 0, kind := 2, die := dieHm, sub := 0 }

/-- PLL_LOCK_LOSS (R475). -/
def pllLockLoss (s : State) : State :=
  if s.pwr.unpowered || s.pwr.inReset then s
  else
    let t := s.countSat CLK_PLL_RELOCKS 1
    if s.flag CLK_ALIGN_DONE then partFence cClkLock dieHm 0 0 ((t.set CLK_PLL_LOCKED 0).set PWR_STATUS_CODE cClkLock)
    else if s.pwr.pllTries = 0 then { t with pwr := { t.pwr with pllTries := 1 } }
    else stopBringUp cClkLock (t.set CLK_PLL_LOCKED 0)
def execPllLockLoss (s : State) : Host.Outcome State Fault Refusal := .next (pllLockLoss s)

/-- An image of the boot flash by its own BYTES field; none where that is out of range (R396). -/
def flashImage (s : State) (off : Nat) : Option (List Byte) :=
  let n := ihBytes (flashBytes s off 512)
  if 512 ≤ n ∧ n ≤ 67108864 then some (flashBytes s off n) else none

/-- A refusal of an image by SE (R453). -/
def imgEvent (code : Nat) (s : State) : State := (secRecord cSecImgEvent 0 code s).raise SEC_IRQ_IMG_EVENT

/-- A BOOT image that has passed its check is the one in force (R406, R453, R454). -/
def acceptBoot (g : List Byte) (s : State) : State :=
  let sec := (sect g 0xD).getD []
  let t := { s with cfg := { s.cfg with boot := some g, fsigners := fwSigners sec } }
  let t := (t.set SEC_STATE_BOOT 1).set PWR_STATUS_CODE 0
  (setMeas 3 (Config.sha384 g).toNat t).set PWR_STATUS_PHASE 2

/-- A recovery image (R453, step 5): a Renrel image that verifies against an owner key. -/
def recoveryOk (g : List Byte) : Bool := fwHdrOk g && imageSigned g ownerKeys && imageFits g && ihRole g == 3

/-- The check of a BOOT image. -/
def bootCheck (s : State) (g : List Byte) : Option ImgRes := if ihKind g ≠ 0 then some (cImgFormat, 0, 1) else imgCheck s g

/-- Steps 3 to 5 of R453: the BOOT image of the flash, else the recovery image, else SE waits for a reset. -/
def bootImage (s : State) : State :=
  let g := flashImage s 0
  let res := match g with | some b => bootCheck s b | none => some (cImgFormat, 0, 1)
  let t := noteCheck 0 res s
  match res with
  | none => acceptBoot (g.getD []) t
  | some r =>
    let t := imgEvent r.1 (t.set PWR_STATUS_CODE r.1)
    match flashImage s recoveryOff with
    | some b => if recoveryOk b then t.set SEC_STATE_BOOT 2 else (imgEvent cFwSig t).set SEC_STATE_BOOT 3
    | none => (imgEvent cFwMissing t).set SEC_STATE_BOOT 3

/-- Phase 1 (R453, R477). -/
def phaseStandby (pll rom : Bool) (s : State) : State :=
  if !pll then stopBringUp cClkLock s
  else
    let t := s.set CLK_PLL_LOCKED 1
    if !rom then (secRecord cSecBootFail 2 0 t).set PWR_STATUS_CODE cSecBootFail
    else
      let ks := if t.get SEC_STATE_KEY_EPOCH = 64 then ksLockedOut else if t.sec.dmk.isSome then ksProvisioned else ksEmpty
      let t := t.set SEC_STATE_KEYSTATE ks
      let t := { t with sec := { t.sec with dik := some (Config.deriveKey Config.deviceSeed Config.romVer.toNat) } }
      let t := setMeas 2 Config.fuseHash.toNat (setMeas 1 Config.romHash.toNat t)
      let t := setMeas 9 (match t.sec.dmk with | some k => (Config.sha384 (Config.publicKey k)).toNat | none => 0) t
      bootImage (measSecurity t)

/-- Loads the firmware image of a role, checked again (R404, R406): its measurement, or the code that refuses it. -/
def loadFw (role index : Nat) (s : State) : Nat × State :=
  let fw := (s.cfg.boot.bind (fun g => sect g 0xE)).getD []
  match (fwEnt fw role).bind (fun e => (fwImage s e).map (fun f => (e, f))) with
  | none => (cFwMissing, s)
  | some (e, f) => if fwOk e f s.cfg.fsigners then (0, setMeas index (Config.sha384 f).toNat s) else (cFwSig, s)

/-- Firmware that is refused stops bring-up. -/
def fwRefused (code : Nat) (s : State) : State := imgEvent code (s.set PWR_STATUS_CODE code)

/-- Phase 2: Renrel starts and asserts MAIN_EN for phase 3. -/
def phaseFirmware (s : State) : State :=
  let r := loadFw 3 7 s
  if r.1 ≠ 0 then fwRefused r.1 r.2 else (r.2.set PWR_STATUS_MAIN_EN 1).set PWR_STATUS_PHASE 3

/-- A package-network link that does not train (R430, R477). -/
def linkFailed (k n : Nat) (s : State) : State :=
  if n < 4 then dieFence (4 * k + n) cDieFault (16 + k) (16 + n) n s
  else if n = 7 then dieFence (28 + k) cDieFault (16 + k) (16 + n) n s
  else if n = 8 then dieFence (36 + k / 2) cDieFault (16 + k) (16 + n) n s
  else if n = 9 ∧ k ≠ 0 then s
  else partFence cPartFault (16 + k) (16 + n) n s

/-- The dies leave reset: CORE_ID and CORE_STATUS of the cores of unfenced dies are as after reset (R94, R477). -/
def coresStart (s : State) : State :=
  { s with regs := s.regs.filter (fun r => r.1 < coreBase 0 || !regSideband r.1 || s.dieFenced ((r.1 - coreBase 0) / 0x900000)) }

/-- Phase 4. -/
def phaseDies (failed : List (Nat × Nat)) (s : State) : State :=
  let t := failed.foldl (fun t l => linkFailed l.1 l.2 t) (coresStart s)
  if t.partFenced then t.set PWR_STATUS_CODE cPartFault else t.set PWR_STATUS_PHASE 5

/-- Phase 5 (R380). -/
def phaseAlign (fails lockCyc : Nat) (s : State) : State :=
  if 3 ≤ fails then stopBringUp cClkAlign (s.set CLK_ALIGN_ATTEMPTS 3)
  else
    let t := ((s.set CLK_ALIGN_ATTEMPTS (fails + 1)).set CLK_ALIGN_DONE 1).set CLK_ALIGN_LOCK_CYC lockCyc
    ((t.set ALM_COUNT_COUNT 0).set ALM_FRAC_FRAC 0).set PWR_STATUS_PHASE 6

/-- Phase 6 (R406, R454, R458): sections, transport keys, and the firmware of the dies. -/
def phaseSections (s : State) : State :=
  let t := measSecurity (applyBoot (s.cfg.boot.getD []) s)
  let t := { t with sec := { t.sec with transport := true } }
  let a := loadFw 1 5 t
  let b := loadFw 2 6 a.2
  if a.1 ≠ 0 then fwRefused a.1 t else if b.1 ≠ 0 then fwRefused b.1 a.2 else b.2.set PWR_STATUS_PHASE 7

/-- HBM training and hard repair of a stack (R437). -/
def readyStack (lost : List Nat) (s : State) (m : Nat) : State :=
  if lost.contains m then dieFence (20 + m) cDieFault (20 + m) 1023 5 s
  else
    let n := (s.silo.hardRows.filter (fun r => r.1 == m)).length
    { (s.set (HBM_REPAIR_HARD m) n).set (HBM_STATUS_READY m) 1 with silo := { s.silo with hardRows := s.silo.hardRows.filter (fun r => r.1 != m) } }

/-- A port as the part becomes READY (R245, R252). -/
def readyPort (s : State) (n : Nat) : State :=
  let t := s.setLink n { s.link n with here := !isUp n }
  if t.flag (VL_CTRL_ENABLE n) && portDieOk t n then
    let u := enterState n (if present n t then vlTraining else vlAbsent) t
    u.setLink n { u.link n with here := !isUp n }
  else t

/-- Phases 7 and 8. -/
def phaseMemory (lost : List Nat) (probes : List ChanProbe) (s : State) : State :=
  let t := (List.range 8).foldl (readyStack lost) s
  let t := siloProbe probes t
  let t := (t.set PWR_STATUS_PHASE 8).set PCI_STATUS_READY 1
  let t := t.set PWR_STATUS_DEGRADED (ofBool ((List.range 40).any (fun d => t.dieFenced d)))
  (List.range 19).foldl readyPort t

/-- Phase that an end belongs to. -/
def phaseOf : PhaseEnd → Nat
  | .standby _ _ => 1
  | .firmware => 2
  | .mainTimeout => 3
  | .dies _ => 4
  | .align _ _ => 5
  | .sections => 6
  | .memory _ _ => 7

/-- BRING_UP_PHASE (R477): the phase ends and the next begins, or bring-up stops with a code. -/
def bringUpPhase (e : PhaseEnd) (s : State) : State :=
  if s.pwr.unpowered || s.pwr.inReset || s.partFenced || s.get PWR_STATUS_PHASE ≠ phaseOf e || s.get PWR_STATUS_CODE ≠ 0 then s
  else
    match e with
    | .standby pll rom => phaseStandby pll rom s
    | .firmware => phaseFirmware s
    | .mainTimeout => (stopBringUp cPwrSeq s).raise PWR_IRQ_SEQ
    | .dies failed => phaseDies (failed.map (fun l => (l.1.val, l.2.val))) s
    | .align fails cyc => phaseAlign fails cyc.toNat s
    | .sections => phaseSections s
    | .memory lost probes => phaseMemory (lost.map Fin.val) probes s

def execBringUpPhase (e : PhaseEnd) (s : State) : Host.Outcome State Fault Refusal := .next (bringUpPhase e s)

end Sys2Proof.Machine
end

