-- ==== Sys2Proof/Machine/RegWrite.lean ====
section
/-!
DEFINITION. Software access to register space: what a read returns and what a write does at every register (R8, R9, R29, R410),
and the paths that carry one: remote LOAD and STORE (R273, R275), BAR0 (R415, R420, R423), and a plain register write.
-/
namespace Sys2Proof.Machine

/-! Which registers answer. -/

/-- The die that holds a register, in R428's DIE order, for the registers that are not on the management sideband (R27). -/
def regDie (a : Nat) : Nat :=
  if a < hbmBase 0 then 36 + (a - siloBase 0) / 0x400000
  else if a < tierBase 0 then 16 + (a - hbmBase 0) / 0x2000000
  else if a < rdBase 0 then 16 + (a - tierBase 0) / 0x2000000
  else if a < vlBase 0 then 16 + (a - rdBase 0) / 0x4000000
  else if a < coreBase 0 then
    let n := (a - vlBase 0) / 0x100000
    28 + (if n < 15 then n / 4 else n - 15)
  else (a - coreBase 0) / 0x900000

/-- Whether a register is out of reach: its die is fenced or unpowered, and it is not held on the sideband (R29). -/
def regDown (s : State) (a : Nat) : Bool :=
  !regSideband a && (!s.dataUp || s.dieFenced (regDie a))

/-- The answer of register space to an aligned 64-bit access: 0, VT_REG where no table defines the register, VT_FENCED where its
die is fenced or unpowered (R29, R275). -/
def regCode (s : State) (a : Nat) : Nat :=
  if a % 8 ≠ 0 || (regFields a).isNone then cVtReg else if regDown s a then cVtFenced else 0

/-! Reads. -/

/-- MX_ACC_KIND.FLOAT_MAP: the groups of four rows that hold a FLOAT accumulator (R117). -/
def floatMap (s : State) (p a : Nat) : Nat :=
  let w := shapeWidth (s.get (MX_STATUS_SHAPE p a))
  s.accs.foldl (fun m e =>
    if e.1 / 16384 = 4 * p + a ∧ e.2.kind = .float then m ||| 2 ^ (e.1 % 16384 / (4 * w)) else m) 0

/-- Registers whose value is another state's: FLOAT_MAP, the counts of the pair that VT_PAIR_SEL selects (R272), the current route
table (R283), and the selected measurement (R454). -/
def regDerived (s : State) (a : Nat) : Option Nat :=
  if coreBase 0 ≤ a then
    let p := (a - coreBase 0) / 0x100000
    let o := (a - coreBase 0) % 0x100000
    if 0x10000 ≤ o ∧ o < 0x50000 ∧ o % 0x10000 = 0x30 then some (floatMap s p (o / 0x10000 - 1)) else none
  else if rdBase 0 ≤ a ∧ a < vlBase 0 then
    let k := (a - rdBase 0) / 0x4000000
    let node := s.get (VT_PAIR_SEL_NODE k)
    if a = (VT_PAIR_ISSUED_COUNT k).addr then
      some (match sendCtx s k node with | some c => c.issued | none => 0)
    else if a = (VT_PAIR_DONE_COMPLETED k).addr then
      some ((match sendCtx s k node with | some c => c.completed | none => 0) +
        2 ^ 32 * (match recvCtx s k node with | some c => c.count | none => 0))
    else if (VT_RT_LOCAL_ENTRY k 0).addr ≤ a ∧ a < (VT_RT_LOCAL_ENTRY k 16).addr then
      some (Tab.get (fun _ => 0) s.vt.rcur.loc ((a - (VT_RT_LOCAL_ENTRY k 0).addr) / 8))
    else if (VT_RT_BOARD_ENTRY k 0).addr ≤ a ∧ a < (VT_RT_BOARD_ENTRY k 16384).addr then
      some (Tab.get (fun _ => 0) s.vt.rcur.board ((a - (VT_RT_BOARD_ENTRY k 0).addr) / 8))
    else none
  else if hbmBase 0 ≤ a ∧ a < hbmBase 8 ∧ (HBM_FRAME_B_INFLIGHT 0 0).addr ≤ (a - hbmBase 0) % (hbmBase 1 - hbmBase 0) + hbmBase 0 ∧
      (a - hbmBase 0) % 16 = 8 then
    some (inflight s ((a - hbmBase 0) / (hbmBase 1 - hbmBase 0))
      (((a - hbmBase 0) % (hbmBase 1 - hbmBase 0) - 0x100008) / 16))
  else if (SEC_MEAS_HASH 0).addr ≤ a ∧ a < (SEC_MEAS_HASH 6).addr then
    some (bitsOf (Tab.get (fun _ => 0) s.sec.meas (s.get SEC_MEAS_SEL_INDEX)) (8 * (a - (SEC_MEAS_HASH 0).addr)) 64)
  else none

/-- The bits of a register's fields with one of some accesses. -/
def accessMask (ok : Acc9 → Bool) (fs : List (Nat × Nat × Acc9)) : Word :=
  fs.foldl (fun m f => if ok f.2.2 then m ||| Fld.mask ⟨0, f.1, f.2.1⟩ else m) 0

/-- What a read of a register in reach returns: its fields, write-only and reserved bits as zero (R9). -/
def regValue (s : State) (a : Nat) : Nat :=
  match regDerived s a with
  | some v => v
  | none => (s.word a &&& accessMask (fun x => x != .wo) ((regFields a).getD [])).toNat

/-- A read: the answer's code and the value, which is zero where the register does not answer (R8, R29). -/
def regRead (a : Nat) (s : State) : Nat × Nat :=
  let c := regCode s a
  if c ≠ 0 then (c, 0) else (0, regValue s a)

/-! Writes. -/

/-- What a write does to a register with no action of its own: RW fields are set, the RW1C bits written 1 are cleared, and the
rest stands (R9, R410). -/
def plainWrite (a : Nat) (v : Word) (s : State) : State :=
  let fs := (regFields a).getD []
  let rw := accessMask (fun x => x == .rw) fs
  let c := accessMask (fun x => x == .rw1c) fs
  s.setWord a ((s.word a &&& ~~~rw &&& ~~~(c &&& v)) ||| (v &&& rw))

/-- Actions of CORE_CMD (R93, R511). -/
def coreAction (p : Nat) (v : Word) (s : State) : State :=
  match v.toNat % 8 with
  | 1 => runCore p s
  | 2 => armCore p s
  | 3 => killCore p s
  | 4 => resumeCore p s
  | 5 => clearCore p s
  | _ => s

/-- Registers of a core with an action of their own. -/
def coreWrite (p o : Nat) (v : Word) (s : State) : Option State :=
  if o = 0x8 then some (coreAction p v s)
  else if o = 0x30 then some (coreTailWrite p v s)
  else if 0x8000 ≤ o ∧ o < 0xA000 then some (coreArrWrite p ((o - 0x8000) / 8) v s)
  else none

/-- Ring and register of an offset in sixteen ring blocks of 64 bytes from `first`. -/
def ringAt (first o : Nat) : Option (Nat × Nat) :=
  if first ≤ o ∧ o < first + 1024 then some ((o - first) / 64, (o - first) % 64) else none

/-- A write to a size or TAIL register of a ring; none for its other registers. -/
def ringRegWrite (first o : Nat) (size tail : Nat → State → State) (s : State) : Option State :=
  match ringAt first o with
  | some (n, 0x10) => some (size n s)
  | some (n, 0x20) => some (tail n s)
  | _ => none

/-- FLUSH of a unit's CMD register: the ring in bits [3:0], the flag at `b`. -/
def flushWrite (b : Nat) (f : Nat → State → State) (v : Word) (s : State) : State :=
  if bitOf v.toNat b then f (v.toNat % 16) s else s

/-- Registers of a routing die with an action of their own. -/
def rdWrite (k o : Nat) (v : Word) (s : State) : Option State :=
  if o < 0x400000 then
    if o = 0x18 then some (flushWrite 4 (winFlush k) v s)
    else ringRegWrite 0x100 o (fun n => sizeWrite (winRing k n) v) (fun n => winTailWrite k n v) s
  else if o < 0x800000 then
    let o := o - 0x400000
    if o = 0x18 then
      let t := flushWrite 4 (thrFlush k) v s
      some (if bitOf v.toNat 5 then thrTdclr k t else t)
    else ringRegWrite 0x100 o (fun n => sizeWrite (thrRing k n) v) (fun n => thrTailWrite k n v) s
  else if o < 0xC00000 then
    let o := o - 0x800000
    if o = 0x18 then some (flushWrite 4 (sowFlush k) v s)
    else if o = 0x68 then some (if v.toNat % 2 ^ 13 = 0 then s else s.set (SOW_TRACK_PEAK_PEAK k) (s.sow k).track.length)
    else if 0x10000 ≤ o ∧ o < 0x20000 then some (sowTbWrite k ((o - 0x10000) / 8) v s)
    else none
  else if o < 0x1000000 then
    let o := o - 0xC00000
    if o = 0x18 then some (flushWrite 5 (glnFlush (bitOf v.toNat 4) k) v s)
    else
      match ringRegWrite 0x100 o (fun n => glnSizeWrite false k n v) (fun n => glnTailWrite false k n v) s with
      | some t => some t
      | none => ringRegWrite 0x500 o (fun n => glnSizeWrite true k n v) (fun n => glnTailWrite true k n v) s
  else if o < 0x1400000 then
    let o := o - 0x1000000
    if o = 0x18 then some (flushWrite 4 colFlush v s)
    else ringRegWrite 0x200 o (fun n => sizeWrite (colRing k n) v) (fun n => tailWrite (colRing k n) v) s
  else
    let o := o - 0x1400000
    if o = 0x8 then some (pump (plainWrite (VT_CTRL_ENABLE k).addr v s))
    else
      match ringAt 0x1000 o with
      | some (sl, 0x18) => some (opCmd k sl v s)
      | _ => none

/-- A write to TIER_MODEL_CMD (R340, R341, R349). -/
def modelCmd (v : Word) (s : State) : State :=
  match v.toNat % 4 with
  | 1 => modelLoad (bitOf v.toNat 2) s
  | 2 => modelUnload (bitOf v.toNat 3) s
  | 3 => modelAbort s
  | _ => s

/-- Registers of a tier engine with an action of their own. -/
def tierWrite (k o : Nat) (v : Word) (s : State) : Option State :=
  if o = 0x18 then some (flushWrite 4 (tierFlush k) v s)
  else if k = 0 ∧ o = 0x80000 then some (modelCmd v s)
  else if k = 0 ∧ 0x10000 ≤ o ∧ o < 0x50000 ∧ o % 32 = 16 then some (tierFbWrite ((o - 0x10000) / 32) v s)
  else ringRegWrite 0x100 o (fun n => sizeWrite (tierRing k n) v) (fun n => tierTailWrite k n v) s

/-- A write to ALM_MODE_CMD (R391, R512). -/
def modeCmd (v : Word) (s : State) : State :=
  match v.toNat % 4 with
  | 1 => announce (bitsOf v.toNat 8 8) s
  | 2 => modeStage s
  | 3 => modeCancel s
  | _ => s

/-- A write to PWR_THERM: one that puts WARN_C above TRIP_C less 10 degrees is discarded (R471). -/
def thermWrite (v : Word) (s : State) : State :=
  if PWR_THERM_WARN_C.of v + 10 ≤ s.get PWR_FUSE_TRIP_C then
    plainWrite PWR_THERM_WARN_C.addr v s
  else s

/-- A write to PWR_TEMP[d]: any 1 bit in MAX_C resets it to the current temperature (R481). -/
def tempMaxWrite (d : Nat) (v : Word) (s : State) : State :=
  if (PWR_TEMP_MAX_C d).of v = 0 then s else s.set (PWR_TEMP_MAX_C d) (s.get (PWR_TEMP_TEMP_C d))

/-- The periods of REFCLK that the part measures are an input of which the manual gives no command: free values. -/
def measureRef (s : State) : State :=
  let lo := s.drawWord
  let hi := lo.2.drawWord
  (hi.2.set CLK_REF_MIN_PS lo.1.toNat).set CLK_REF_MAX_PS hi.1.toNat

/-- Registers of the management sideband with an action of their own (R376, R391, R416, R420, R422, R434, R438, R447, R478). -/
def sideWrite (a : Nat) (v : Word) (s : State) : Option State :=
  if a = mgtBase + 0x103000 then some (fenceCmd (v.toNat % 8) (bitsOf v.toNat 3 6) (bitsOf v.toNat 9 10) s)
  else if a = mgtBase + 0x103010 then some (substitute (v.toNat % 256) s)
  else if a = mgtBase + 0x103038 then some (if bitOf v.toNat 0 then unfreeze s else s)
  else if a = ALM_NEXT_COUNT.addr then some (almNextWrite v s)
  else if a = ALM_SYNC_EN.addr then some (almSyncWrite v s)
  else if a = almBase + 0x70 then some (modeCmd v s)
  else if a = PCI_BAR4_BASE.addr then some (bar4BaseWrite v s)
  else if a = pciBase + 0x40 then some (msixTrig (BitVec.ofNat 64 (v.toNat % 2 ^ 11)) s)
  else if a = pciBase + 0x60 then some (if bitOf v.toNat 0 then presentImage s else s)
  else if a = PWR_THERM_WARN_C.addr then some (thermWrite v s)
  else if a = PWR_MGT_DUTY_DUTY.addr then some (pwrMgtDutyWrite v s)
  else if a = pwrBase + 0x38 then some (pwrCmdDown v s)
  else if (PWR_TEMP_MAX_C 0).addr ≤ a ∧ a < (PWR_TEMP_MAX_C 40).addr then some (tempMaxWrite ((a - (PWR_TEMP_MAX_C 0).addr) / 8) v s)
  else if a = clkBase + 0x18 then some (if bitOf v.toNat 0 then measureRef s else s)
  else none

/-- The action of a register that has one. -/
def actionWrite (a : Nat) (v : Word) (s : State) : Option State :=
  if a < siloBase 0 then sideWrite a v s
  else if tierBase 0 ≤ a ∧ a < rdBase 0 then tierWrite ((a - tierBase 0) / 0x2000000) ((a - tierBase 0) % 0x2000000) v s
  else if rdBase 0 ≤ a ∧ a < vlBase 0 then rdWrite ((a - rdBase 0) / 0x4000000) ((a - rdBase 0) % 0x4000000) v s
  else if vlBase 0 ≤ a ∧ a < coreBase 0 then
    let n := (a - vlBase 0) / 0x100000
    if (a - vlBase 0) % 0x100000 = 0x8 then some (s.livePort n (portEnable n v)) else none
  else if coreBase 0 ≤ a then coreWrite ((a - coreBase 0) / 0x100000) ((a - coreBase 0) % 0x100000) v s
  else none

/-- A write to a register in reach: its action, or its fields (R9). -/
def regWriteAt (a : Nat) (v : Word) (s : State) : State :=
  match actionWrite a v s with
  | some t => t
  | none => plainWrite a v s

/-- A write: the answer's code, and the state after it; a write that is not answered is discarded (R8, R29). -/
def regWrite (a : Nat) (v : Word) (s : State) : Nat × State :=
  let c := regCode s a
  if c ≠ 0 then (c, s) else (0, regWriteAt a v s)

/-- A die controller's write of an aligned word of the core store of a core of its die, on the maintenance port: neither a partition key
nor a plot is asked for (R68, R85, R87; log entry 41). -/
def maintWrite (a : Nat) (v : Word) (s : State) : State :=
  match inCore a 8 with
  | some p => if a % 8 = 0 then s.liveDie (dieOfCore p) (storeBytes a (toBytes 8 v.toNat)) else s
  | none => s

/-- REGISTER_WRITE: an aligned or misaligned write by software on the part, to register space (R8, R9, R29), or to core store on the
maintenance port. -/
def registerWrite (a : Nat) (v : Word) (s : State) : State := if inRegs a then (regWrite a v s).2 else maintWrite a v s

def execRegisterWrite (a : BitVec 46) (v : Word) (s : State) : Host.Outcome State Fault Refusal :=
  .next (registerWrite a.toNat v s)

/-! Remote LOAD and STORE (R273, R275). -/

/-- A LOAD of register space: the window check first, then the register's answer. -/
def remoteRead (p : Packet) (s : State) : Nat × List Byte :=
  let c := if p.h.size ≠ 8 then cVtReg else if p.h.offset % 8 ≠ 0 then cVtAlign else windowCode s p.h.stream p.h.key pR p.h.offset 8
  if c ≠ 0 then (c, errBytes c p.h.size)
  else
    let r := regRead p.h.offset s
    (r.1, toBytes 8 r.2)

/-- A STORE to register space. -/
def remoteWrite (p : Packet) (s : State) : Nat × State :=
  let c := if p.h.size ≠ 8 then cVtReg else if p.h.offset % 8 ≠ 0 then cVtAlign else windowCode s p.h.stream p.h.key pW p.h.offset 8
  if c ≠ 0 then (c, s) else regWrite p.h.offset (BitVec.ofNat 64 (ofBytes (p.data.take 8))) s

/-- What a LOAD is answered with. -/
def loadAnswer (p : Packet) (s : State) : Nat × List Byte × State :=
  if inRegs p.h.offset then
    let r := remoteRead p s
    (r.1, r.2, s)
  else loadMem p s

/-- LOAD: a fresh one is served, answered, applied with its arrival and acknowledged; a duplicate is executed again and answered
(R271, R275). -/
def recvLoad (i : Nat) (s : State) : State :=
  match vtTake (fun p => p.h.kind == kLoad) i s with
  | .gone t => t
  | .again p t =>
    let r := loadAnswer p t
    sendRsp p kLoadRsp r.1 r.2.1 0 r.2.2
  | .fresh p t =>
    let r := loadAnswer p t
    let u := if r.1 = 0 || r.1 = cVtPoison then arriveOf p r.2.2 else r.2.2
    vtApplied p (sendRsp p kLoadRsp r.1 r.2.1 0 u)

def execLoad (i : Nat) (s : State) : Host.Outcome State Fault Refusal := .next (s.live (recvLoad i))

/-- STORE: applied with its counter arrival, or refused with the code (R271, R273). -/
def recvStore (i : Nat) (s : State) : State :=
  match vtTake (fun p => p.h.kind == kStore) i s with
  | .gone t => t
  | .again _ t => t
  | .fresh p t =>
    let r := if inRegs p.h.offset then remoteWrite p t else storeMem p t
    if r.1 = 0 then vtApplied p (arriveOf p r.2) else vtRefused p r.1 r.2

def execStore (i : Nat) (s : State) : Host.Outcome State Fault Refusal := .next (s.live (recvStore i))

/-! BAR0 (R415). -/

/-- The register that an offset of BAR0 reaches, where it falls in an aperture that is served: only aperture 0 is, until READY
(R415, R423). -/
def apertureReg (s : State) (off : Nat) : Option Nat :=
  let a := off / 0x400000
  if a < 15 ∧ s.flag (PCI_APER_EN a) ∧ (a = 0 ∨ s.flag PCI_STATUS_READY) then
    some (mgtBase + s.get (PCI_APER_BASE a) * 0x400000 + off % 0x400000)
  else none

/-- A word of the MSI-X table or of the Pending Bit Array, by 4-byte index (R420). -/
def msixRead (s : State) (i : Nat) : Nat :=
  if i < 8192 then msixWord s (i / 4) (i % 4)
  else (List.range 32).foldl (fun m b => if s.pci.pba.contains (32 * (i - 8192) + b) then m + 2 ^ b else m) 0

/-- Writes a 4-byte word of the MSI-X table; the Pending Bit Array is read-only. -/
def msixWrite (i v : Nat) (s : State) : State :=
  if i < 8192 then { s with pci := { s.pci with msix := Tab.set msixDef s.pci.msix i (v % 2 ^ 32) } } else s

/-- Whether an access falls in the MSI-X table or the Pending Bit Array with a size that PCIe allows. -/
def inMsix (off width : Nat) : Bool :=
  decide (0x3C00000 ≤ off) && decide (off + width ≤ 0x3C08100) && (width == 4 || width == 8) && off % width == 0

/-- An access to the MSI-X table or Pending Bit Array. -/
def msixAccess (off width : Nat) (v : Option Word) (s : State) : State :=
  let i := (off - 0x3C00000) / 4
  let two := width == 8
  match v with
  | none => complete 0 (toBytes width (msixRead s i + (if two then msixRead s (i + 1) * 2 ^ 32 else 0))) s
  | some w =>
    let t := msixWrite i w.toNat s
    msixUnmask (if two then msixWrite (i + 1) (w.toNat / 2 ^ 32) t else t)

/-- BAR0_ACCESS: a read, or a write of a value, of `width` bytes (R415). A read that is not performed completes with zeros, and a
write is discarded; both record PCI_ACCESS. -/
def bar0Access (off width : Nat) (v : Option Word) (s : State) : State :=
  if !portServed s || width = 0 then s
  else if inMsix off width then msixAccess off width v s
  else
    let bad := pciNote cPciAccess 0 (off / 8)
    match apertureReg s off, v with
    | none, none => complete 0 (toBytes width 0) (bad s)
    | none, some _ => bad s
    | some a, none =>
      let r := if width = 8 then regRead a s else (cVtReg, 0)
      complete 0 (toBytes width r.2) (if r.1 = 0 then s else bad s)
    | some a, some w =>
      if width ≠ 8 then bad s
      else
        let r := regWrite a w s
        if r.1 = 0 then r.2 else bad r.2

def execBar0Access (off : BitVec 26) (width : Nat) (v : Option Word) (s : State) : Host.Outcome State Fault Refusal :=
  .next (bar0Access off.toNat width v s)

end Sys2Proof.Machine
end

