-- ==== Sys2Proof/Machine/Management.lean ====
section
/-!
DEFINITION. The management plane (21_management_plane): the bus and MCTP (R483, R484), Renrel commands (R485, R486), telemetry
and sensors (R487, R488), events (R489), firmware update (R490, R491), and SPDM (R455).
-/
namespace Sys2Proof.Machine

def cMgtCmdBad : Nat := 0x0A50
def cMgtBusy : Nat := 0x0A51
def cMgtDenied : Nat := 0x0A52
def cFwupVerify : Nat := 0x0A53
def cFwupFlash : Nat := 0x0A54
def cMgtBusErr : Nat := 0x0A55

/-- Whether the management port runs: the standby rails are up and the part is not in reset (R476, R479). -/
def mgtUp (s : State) : Bool := !s.pwr.unpowered && !s.pwr.inReset

/-- MGT_LAST (R493). -/
def mgtLast (code cmd : Nat) (s : State) : State := (s.set MGT_LAST_CODE code).set MGT_LAST_CMD cmd

/-- A transaction that fails PEC or breaks the binding is discarded (R483). -/
def busError (s : State) : State :=
  ((mgtLast cMgtBusErr 0 (s.countSat MGT_BUS_ERRORS 1)).raise MGT_IRQ_BUS_ERR).report
    { code := cMgtBusErr, level := 0, kind := 1, die := dieHm, sub := 0 }

/-- Puts a response on the bus. -/
def respond (r : MgtRsp) (s : State) : State := { s with mgt := { s.mgt with rsp := some r } }

/-! The bus (R483). -/

/-- ENTDAA: the bus controller assigns a dynamic address. -/
def entdaa (addr : Nat) (s : State) : State :=
  if !mgtUp s || s.mgt.bus = 2 then s
  else { (s.set MGT_BUS_MODE 1).set MGT_BUS_ADDR addr with mgt := { s.mgt with bus := 1 } }
def execEntdaa (addr : BitVec 7) (s : State) : Host.Outcome State Fault Refusal := .next (entdaa addr.toNat s)

/-- SMBUS_FALLBACK: 100 ms after phase 2 no dynamic address has been assigned; the address comes by ARP. -/
def smbusFallback (addr : Nat) (s : State) : State :=
  if !mgtUp s || s.mgt.bus ≠ 0 || s.get PWR_STATUS_PHASE < 2 then s
  else { (s.set MGT_BUS_MODE 0).set MGT_BUS_ADDR addr with mgt := { s.mgt with bus := 2 } }
def execSmbusFallback (addr : BitVec 7) (s : State) : Host.Outcome State Fault Refusal := .next (smbusFallback addr.toNat s)

/-- A request that is not Renrel's (R484): discarded with its transaction, turned away beyond 8, or served. -/
def mgtServe (q : MgtReq) (f : State → State) (s : State) : State :=
  if !mgtUp s then s
  else if !q.bus then busError s
  else if 8 ≤ q.waiting then respond .busy (mgtLast cMgtBusy 0 s)
  else f s

/-! MCTP control (R484). -/

/-- The answer to an MCTP control request, with its completion code first. -/
def mctpAnswer (r : MctpReq) (s : State) : State :=
  match r with
  | .setEid e =>
    if e = 0 ∨ e = 0xFF then respond (.mctp [2, 0, BitVec.ofNat 8 (s.get MGT_BUS_EID), 0]) s
    else respond (.mctp [0, 0, e, 0]) (s.set MGT_BUS_EID e.toNat)
  | .getEid => respond (.mctp [0, BitVec.ofNat 8 (s.get MGT_BUS_EID), 0, 0]) s
  | .getVersion t =>
    if t = 0xFF ∨ t = 0 then respond (.mctp [0, 1, 0xF1, 0xF3, 0xF0, 0]) s
    else if t = 1 ∨ t = 5 ∨ t = 0x7E then
      let d := s.drawWord
      respond (.mctp ([0, 1] ++ toBytes 4 d.1.toNat)) d.2
    else respond (.mctp [0x80, 0]) s
  | .getTypes => respond (.mctp [0, 3, 1, 5, 0x7E]) s

/-- MCTP_CONTROL. -/
def mctpControl (q : MgtReq) (r : MctpReq) (s : State) : State :=
  mgtServe q (fun t => if q.good then mctpAnswer r t else respond (.mctp [3]) t) s
def execMctpControl (q : MgtReq) (r : MctpReq) (s : State) : Host.Outcome State Fault Refusal := .next (mctpControl q r s)

/-! SPDM (R455). Response kinds and error codes are those of SPDM 1.3. -/

/-- An SPDM error. -/
def spdmError (code : Nat) (s : State) : State := respond (.spdm 0x7F (toBytes 1 code)) s

/-- The measurement block of an index: the index and its SHA-384 value (R454). -/
def measBlock (s : State) (i : Nat) : List Byte := toBytes 1 i ++ toBytes 48 (Tab.get (fun _ => 0) s.sec.meas i)

/-- A signature by DIK over what is answered and the requester's nonce. -/
def dikSign (s : State) (body nonce : List Byte) : Option (List Byte) :=
  s.sec.dik.map (fun k => Config.ecdsaSign k (Config.sha384 (body ++ nonce)))

/-- A signed answer, or an error where DIK has been erased. -/
def spdmSigned (kind : Nat) (body nonce : List Byte) (s : State) : State :=
  let own := drawWords 4 s
  let full := body ++ toBytes 32 own.1
  match dikSign own.2 full nonce with
  | some sig => respond (.spdm kind (full ++ sig)) own.2
  | none => spdmError 5 s

/-- An SPDM request in the order that SPDM asks: version, capabilities, algorithms, then the rest. -/
def spdmAnswer (r : SpdmReq) (s : State) : State :=
  let at_ := fun (n : Nat) (t : State) => { t with mgt := { t.mgt with spdm := n } }
  match r with
  | .unsupported => spdmError 7 s
  | .getVersion => respond (.spdm 0x04 [0, 0x13]) (at_ 1 s)
  | .getCapabilities => if s.mgt.spdm = 0 then spdmError 4 s else respond (.spdm 0x61 []) (at_ 2 s)
  | .negotiateAlgorithms => if s.mgt.spdm < 2 then spdmError 4 s else respond (.spdm 0x63 []) (at_ 3 s)
  | .getDigests => if s.mgt.spdm < 3 then spdmError 4 s else respond (.spdm 0x01 (toBytes 48 (Config.sha384 Config.certChain).toNat)) s
  | .getCertificate slot off len =>
    if s.mgt.spdm < 3 then spdmError 4 s
    else if slot ≠ 0 ∨ Config.certChain.length ≤ off.toNat then spdmError 1 s
    else respond (.spdm 0x02 ((Config.certChain.drop off.toNat).take len.toNat)) s
  | .challenge slot nonce =>
    if s.mgt.spdm < 3 then spdmError 4 s
    else if slot ≠ 0 then spdmError 1 s
    else spdmSigned 0x03 (toBytes 48 (Config.sha384 Config.certChain).toNat) nonce s
  | .getMeasurements i sign nonce =>
    if s.mgt.spdm < 3 then spdmError 4 s
    else
      let n := i.toNat
      if 10 < n ∧ n ≠ 255 then spdmError 1 s
      else
        let body := if n = 0 then [10] else if n = 255 then (List.range 10).flatMap (fun j => measBlock s (j + 1)) else measBlock s n
        if sign then spdmSigned 0x60 body nonce s else respond (.spdm 0x60 body) s

/-- SPDM_REQUEST: SE answers once its boot ROM has derived DIK. -/
def spdmRequest (q : MgtReq) (r : SpdmReq) (s : State) : State :=
  mgtServe q (fun t => if q.good then spdmAnswer r t else spdmError 1 t) s
def execSpdmRequest (q : MgtReq) (r : SpdmReq) (s : State) : Host.Outcome State Fault Refusal := .next (spdmRequest q r s)

/-! Telemetry (R487). -/

/-- Whether a die's samples are taken: HM and SE always, any other die while it is powered and not fenced. -/
def sampled (s : State) (d : Nat) : Bool := decide (38 ≤ d) || (s.dataUp && !s.dieFenced d)

/-- The word of die `d`. -/
def tfDie (s : State) (d : Nat) : Nat :=
  if sampled s d then s.get (PWR_DIE_MEAN_W d) + s.get (PWR_TEMP_TEMP_C d) * 2 ^ 16 + s.get (PWR_DIE_DUTY d) * 2 ^ 24 else 0

/-- Word `w` of a frame. -/
def tfWord (s : State) (q w : Nat) : Nat :=
  if w = 0 then q
  else if w = 1 then s.alm
  else if w < 42 then tfDie s (w - 2)
  else if w < 54 then (s.word (PWR_RAIL_STAT_MV (w - 42)).addr).toNat
  else if w = 54 then (s.word PWR_TOTAL_SAMPLE_W.addr).toNat
  else if w = 55 then (s.word PWR_EXC_STATE.addr).toNat
  else if w = 56 then s.get ALM_THR_SEQ_SEQ
  else if w = 57 then s.get ALM_THR_OPEN_OPEN + s.get ALM_STATE_STATE * 2 + s.get ALM_ERR_ERR * 2 ^ 16
  else if w < 77 then (regRead (VL_STATE_STATE (w - 58)).addr s).2
  else if w = 77 then (s.word MGT_BB_FROZEN.addr).toNat
  else if w = 78 then (s.word SEC_ALARM_STAT_FIRED.addr).toNat % 2 ^ 8 + (s.word SEC_STATE_BOOT.addr).toNat % 2 ^ 14 * 2 ^ 8
  else 0

/-- TELEMETRY_FRAME: the frame is published whole, or skipped where its assembly took too long. -/
def telemetryFrame (skipped : Bool) (s : State) : State :=
  if !mgtUp s || s.get PWR_STATUS_PHASE < 2 then s
  else if skipped then s.countSat MGT_TELEM_MISSED 1
  else
    let q := (s.get MGT_TELEM_SEQ + 1) % 2 ^ 32
    let ws := (List.range 128).map (tfWord s q)
    (ws.zipIdx.foldl (fun t w => t.set (MGT_TF_WORD w.2) w.1) s).set MGT_TELEM_SEQ q
def execTelemetryFrame (skipped : Bool) (s : State) : Host.Outcome State Fault Refusal := .next (telemetryFrame skipped s)

/-! Sensors (R488). -/

/-- A word of the published frame. -/
def tf (s : State) (w : Nat) : Nat := s.get (MGT_TF_WORD w)

/-- State of a port as its sensor shows it: DOWN 1, UP 2, DEGRADED 3, ABSENT 4; an UP port below its full width is DEGRADED. -/
def portSensor (w n : Nat) : Nat :=
  let st := bitsOf w 0 3
  if st = 1 then 4 else if st ≠ 4 then 1 else if bitsOf w 3 4 < fullWidth n ∨ bitsOf w 7 4 < fullWidth n then 3 else 2

/-- The reading of a sensor of the table; none for an ID it does not hold. -/
def sensorValue (s : State) (id : Nat) : Option Nat :=
  if 1 ≤ id ∧ id ≤ 40 then some (bitsOf (tf s (id + 1)) 16 8)
  else if 41 ≤ id ∧ id ≤ 80 then some (bitsOf (tf s (id - 39)) 0 16)
  else if 81 ≤ id ∧ id ≤ 92 then some (bitsOf (tf s (id - 39)) 0 16)
  else if id = 93 then some (bitsOf (tf s 54) 16 16)
  else if 100 ≤ id ∧ id ≤ 118 then some (portSensor (tf s (id - 42)) (id - 100))
  else if id = 120 then some (bitsOf (tf s 57) 1 2 + 1)
  else if id = 121 then some (bitsOf (tf s 78) 10 2 + 1)
  else none

/-- PLDM_SENSOR_READ. -/
def pldmSensorRead (q : MgtReq) (id : Nat) (s : State) : State :=
  mgtServe q (fun t =>
    if !q.good then respond (.pldm 2 0) t
    else match sensorValue t id with | some v => respond (.pldm 0 v) t | none => respond (.pldm 0x80 0) t) s
def execPldmSensorRead (q : MgtReq) (id : BitVec 16) (s : State) : Host.Outcome State Fault Refusal :=
  .next (pldmSensorRead q id.toNat s)

/-! Events (R489). -/

/-- Whether the black box still holds a record. -/
def bbHolds (s : State) (q : Nat) : Bool :=
  decide (1 ≤ q) && decide (q ≤ s.get MGT_BB_SEQ) && decide (s.get MGT_BB_SEQ < q + 4096)

/-- Whether an event is one that Renrel reports: a record of LEVEL 3 or 4, of security, or a summary; or a die's crossing of its
warning threshold, as the latest report has it. -/
def eventDue (s : State) (e : PEvent) : Bool :=
  match e with
  | .record q =>
    let w := (s.word (bbEntry ((q.toNat - 1) % 4096))).toNat
    bbHolds s q.toNat && (decide (3 ≤ bitsOf w 16 3) || bitsOf w 8 8 == 8 || bitsOf w 20 2 == 3)
  | .crossing d warm => s.pwr.warm.contains d.val == warm

/-- Event messages in order, the first with the count of those discarded. -/
def eventMessages (lost : Nat) : List PEvent → List (PEvent × Nat)
  | [] => []
  | e :: es => (e, lost) :: es.map (fun x => (x, 0))

/-- PLATFORM_EVENT: the held events go first, then this one; or it is held, the oldest held event of 64 making room. -/
def platformEvent (e : PEvent) (delivered : Bool) (s : State) : State :=
  if !mgtUp s || !eventDue s e then s
  else if delivered then
    { s with mgt := { s.mgt with sent := eventMessages s.mgt.lost (s.mgt.held ++ [e]), held := [], lost := 0 } }
  else if s.mgt.held.length < 64 then { s with mgt := { s.mgt with held := s.mgt.held ++ [e] } }
  else { s.raise MGT_IRQ_EVT_DROP with mgt := { s.mgt with held := s.mgt.held.drop 1 ++ [e], lost := s.mgt.lost + 1 } }
def execPlatformEvent (e : PEvent) (delivered : Bool) (s : State) : Host.Outcome State Fault Refusal :=
  .next (platformEvent e delivered s)

/-! Firmware update (R490, R491). -/

/-- States of MGT_FWUP. -/
def fuIdle : Nat := 0
def fuLearn : Nat := 1
def fuDownload : Nat := 2
def fuVerify : Nat := 3
def fuApply : Nat := 4
def fuAwait : Nat := 5

/-- A downloaded component. -/
def compOf (s : State) (c : Nat) : Option (List Byte) := (s.mgt.comps.find? (fun x => x.1 == c)).map (fun x => x.2)

/-- The BOOT image that will be in force after activation. -/
def bootAfter (s : State) : List Byte := match compOf s 1 with | some g => g | none => s.cfg.boot.getD []

/-- Whether a component passes its check. -/
def compOk (s : State) (c : Nat) (bs : List Byte) : Bool :=
  if c = 1 then ihKind bs == 0 && (imgCheck12 s bs).isNone
  else if c = 5 then recoveryOk bs
  else
    match fwEnt ((sect (bootAfter s) 0xE).getD []) (if c = 2 then 3 else c - 2) with
    | some e => fwOk e bs (match compOf s 1 with | some g => fwSigners ((sect g 0xD).getD []) | none => s.cfg.fsigners)
    | none => false

/-- An update ends with a code. -/
def fwupFail (code c : Nat) (s : State) : State :=
  let t := ((s.set MGT_FWUP_STATE fuIdle).set MGT_FWUP_COMPONENT c).set MGT_FWUP_CODE code
  { (mgtLast code 0 t).raise MGT_IRQ_FWUP with mgt := { t.mgt with comps := [], passed := false, todo := [] } }

/-- The verify step: every component is checked before any flash is written. -/
def fwupVerify (s : State) : State :=
  match s.mgt.comps.find? (fun x => !compOk s x.1 x.2) with
  | some x => respond (.pldm 1 0) (fwupFail cFwupVerify x.1 s)
  | none => respond (.pldm 0 0) { s.set MGT_FWUP_STATE fuVerify with mgt := { s.mgt with passed := true } }

/-- Components in the order of the apply step: firmware and recovery first, BOOT last. -/
def applyOrder (s : State) : List Nat := [2, 3, 4, 5, 1].filter (fun c => (compOf s c).isSome)

/-- The write of the next component to the boot flash ends. -/
def fwupApply (ok : Bool) (s : State) : State :=
  match s.mgt.todo with
  | [] => respond (.pldm 0 0) (s.set MGT_FWUP_STATE fuAwait)
  | c :: rest =>
    let t := s.set MGT_FWUP_COMPONENT c
    match compOff t c, compOf t c with
    | some off, some bs =>
      if ok then
        let u := flashPut off bs t
        let u := { u with mgt := { u.mgt with todo := rest } }
        if rest.isEmpty then respond (.pldm 0 0) ((u.set MGT_FWUP_STATE fuAwait).raise MGT_IRQ_FWUP) else respond (.pldm 0 0) u
      else respond (.pldm 1 0) (fwupFail cFwupFlash c (flashLost c t))
    | _, _ => respond (.pldm 1 0) (fwupFail cFwupFlash c t)

/-- A step of an update, in the state that takes it; else it is refused. -/
def fwupStep (f : FwStep) (s : State) : State :=
  let st := s.get MGT_FWUP_STATE
  match f with
  | .start =>
    if st = fuIdle then
      respond (.pldm 0 0) { (s.set MGT_FWUP_STATE fuLearn).set MGT_FWUP_COMPONENT 0 with mgt := { s.mgt with comps := [], passed := false, todo := [] } }
    else respond (.pldm 0x81 0) s
  | .download c bs =>
    let n := c.toNat
    let clash := (n = 1 && (compOf s 5).isSome) || (n = 5 && (compOf s 1).isSome)
    if (st = fuLearn || st = fuDownload) && decide (1 ≤ n) && decide (n ≤ 5) && !clash then
      let t := (s.set MGT_FWUP_STATE fuDownload).set MGT_FWUP_COMPONENT n
      respond (.pldm 0 0) { t with mgt := { t.mgt with comps := t.mgt.comps.filter (fun x => x.1 != n) ++ [(n, bs)] } }
    else respond (.pldm 1 0) s
  | .verify => if st = fuDownload then fwupVerify s else respond (.pldm 1 0) s
  | .apply ok =>
    if st = fuVerify && s.mgt.passed then
      fwupApply ok { s.set MGT_FWUP_STATE fuApply with mgt := { s.mgt with todo := applyOrder s } }
    else if st = fuApply then fwupApply ok s
    else respond (.pldm 1 0) s
  | .cancel =>
    let t := cutUpdate s
    respond (.pldm 0 0) { t.set MGT_FWUP_STATE fuIdle with mgt := { t.mgt with comps := [], passed := false, todo := [] } }

/-- PLDM_FW_UPDATE. -/
def pldmFwUpdate (q : MgtReq) (f : FwStep) (s : State) : State :=
  mgtServe q (fun t => if q.good then fwupStep f t else respond (.pldm 2 0) t) s
def execPldmFwUpdate (q : MgtReq) (f : FwStep) (s : State) : Host.Outcome State Fault Refusal := .next (pldmFwUpdate q f s)

/-! Renrel commands (R485, R486). -/

/-- Answers a Renrel command with a status and a payload, and counts it (R493). -/
def renrelAnswer (cmd : Nat) (q : MgtReq) (r : Nat × List Byte × State) : State :=
  let t := if r.1 = 0 then r.2.2.countSat MGT_CMD_CNT_DONE 1 else r.2.2.countSat MGT_CMD_CNT_REFUSED 1
  let t := if r.1 = cMgtCmdBad ∨ r.1 = cMgtBusy ∨ r.1 = cMgtDenied then mgtLast r.1 cmd t else t
  respond (.renrel cmd q.rseq.toNat r.1 r.2.1) t

/-- A Renrel command: discarded with its transaction, refused beyond 8, when malformed and in a state that the table does not list,
or carried out (R483 to R486). -/
def renrel (cmd : Nat) (q : MgtReq) (good can : Bool) (f : State → Nat × List Byte × State) (s : State) : State :=
  if !mgtUp s then s
  else if !q.bus then busError s
  else
    renrelAnswer cmd q
      (if 8 ≤ q.waiting then (cMgtBusy, [], s)
       else if !q.good || !good then (cMgtCmdBad, [], s)
       else if !can then (cMgtDenied, [], s)
       else f s)

/-- Phase `n` of bring-up has been reached. -/
def fromPhase (s : State) (n : Nat) : Bool := decide (n ≤ s.get PWR_STATUS_PHASE)

/-- Registers as a payload. -/
def regsPayload (s : State) (as : List Nat) : List Byte := as.flatMap (fun a => toBytes 8 (regRead a s).2)

def getId (q : MgtReq) (s : State) : State :=
  renrel 0x01 q true true (fun t => (0, regsPayload t [mgtBase, secBase, pciBase], t)) s
def execGetId (q : MgtReq) (s : State) : Host.Outcome State Fault Refusal := .next (getId q s)

def getStatus (q : MgtReq) (s : State) : State :=
  renrel 0x02 q true true
    (fun t => (0, regsPayload t [pwrBase, SEC_STATE_BOOT.addr, MGT_CFG_STAT_CODE.addr, ALM_STATE_STATE.addr, MGT_FWUP_STATE.addr], t)) s
def execGetStatus (q : MgtReq) (s : State) : Host.Outcome State Fault Refusal := .next (getStatus q s)

/-- READ_REG: registers that do not answer read as zero (R29, R492). -/
def readReg (q : MgtReq) (a n : Nat) (s : State) : State :=
  renrel 0x03 q (decide (1 ≤ n) && decide (n ≤ 126)) true
    (fun t => (0, regsPayload t ((List.range n).map (fun i => a + 8 * i)), t)) s
def execReadReg (q : MgtReq) (addr : Word) (n : BitVec 16) (s : State) : Host.Outcome State Fault Refusal :=
  .next (readReg q addr.toNat n.toNat s)

/-- WRITE_REG: the response carries the code of a write that is discarded (R8, R29, R486). -/
def writeReg (q : MgtReq) (a : Nat) (v : Word) (s : State) : State :=
  renrel 0x04 q true (fromPhase s 2) (fun t => let r := regWrite a v t; (r.1, [], r.2)) s
def execWriteReg (q : MgtReq) (addr v : Word) (s : State) : Host.Outcome State Fault Refusal := .next (writeReg q addr.toNat v s)

/-- TELEM_READ: words 0 to 126 of the published frame. -/
def telemRead (q : MgtReq) (s : State) : State :=
  renrel 0x05 q true (fromPhase s 2) (fun t => (0, regsPayload t ((List.range 127).map (fun i => (MGT_TF_WORD i).addr)), t)) s
def execTelemRead (q : MgtReq) (s : State) : Host.Outcome State Fault Refusal := .next (telemRead q s)

/-- BB_READ: the records asked for that remain in the ring. -/
def bbRead (q : MgtReq) (seq n : Nat) (s : State) : State :=
  renrel 0x10 q (decide (1 ≤ n) && decide (n ≤ 30)) true
    (fun t => (0, (((List.range n).map (fun i => seq + i)).filter (bbHolds t)).flatMap (fun x =>
      (List.range 4).flatMap (fun w => toBytes 8 (t.word (bbEntry ((x - 1) % 4096) + 8 * w)).toNat)), t)) s
def execBbRead (q : MgtReq) (seq : BitVec 32) (n : BitVec 8) (s : State) : Host.Outcome State Fault Refusal :=
  .next (bbRead q seq.toNat n.toNat s)

/-- Whether a copy slot's content has its CRC (R446). -/
def slotOk (bs : List Byte) : Bool := decide (64 ≤ bs.length) && (bs.drop 60).take 4 == toBytes 4 (crc32c (bs.take 60 ++ bs.drop 64))

/-- BB_SLOT_READ: the header of a copy and its records from the one at index `first`. -/
def bbSlotRead (q : MgtReq) (slot first n : Nat) (s : State) : State :=
  renrel 0x11 q (decide (slot < 8) && decide (1 ≤ n) && decide (n ≤ 30)) (fromPhase s 7)
    (fun t =>
      let bs := Tab.get (fun _ => []) t.silo.copies slot
      if slotOk bs && (!t.dieFenced 36 || !t.dieFenced 37) then (0, bs.take 64 ++ (bs.drop (64 + 32 * first)).take (32 * n), t)
      else (cBbCopyFail, [], t)) s
def execBbSlotRead (q : MgtReq) (slot : BitVec 8) (first : BitVec 32) (n : BitVec 8) (s : State) :
    Host.Outcome State Fault Refusal := .next (bbSlotRead q slot.toNat first.toNat n.toNat s)

/-- BB_UNFREEZE. -/
def bbUnfreeze (q : MgtReq) (s : State) : State := renrel 0x12 q true true (fun t => (0, [], unfreeze t)) s
def execBbUnfreeze (q : MgtReq) (s : State) : Host.Outcome State Fault Refusal := .next (bbUnfreeze q s)

/-- Whether an image of a kind may be pushed: BOOT while the boot ROM waits or in recovery mode, AMEND when READY. -/
def imgOpenOk (s : State) (kind : Nat) : Bool :=
  if kind = 0 then s.get PWR_STATUS_PHASE == 1 && decide (2 ≤ s.get SEC_STATE_BOOT) else s.get PWR_STATUS_PHASE == 8

/-- IMG_BEGIN: opens a buffer, whose content until it is written is unknown. -/
def imgBegin (q : MgtReq) (kind size : Nat) (s : State) : State :=
  renrel 0x20 q (decide (kind ≤ 1)) (imgOpenOk s kind)
    (fun t => (0, [], { t with free := t.free + 1, mgt := { t.mgt with buf := some { kind := kind, size := size, fill := t.free + 1 } } })) s
def execImgBegin (q : MgtReq) (kind : BitVec 8) (size : BitVec 32) (s : State) : Host.Outcome State Fault Refusal :=
  .next (imgBegin q kind.toNat size.toNat s)

/-- Bytes that IMG_DATA copies into the buffer. -/
def bufPut (b : ImgBuf) (off : Nat) (bs : List Byte) : ImgBuf :=
  { b with bytes := bs.zipIdx.foldl (fun t x => Tab.set (Config.freeMem b.fill) t (off + x.2) x.1) b.bytes }

/-- IMG_DATA: bytes that the buffer has no room for make the payload malformed. -/
def imgDataCmd (q : MgtReq) (off : Nat) (bs : List Byte) (s : State) : State :=
  let fits := match s.mgt.buf with | some b => decide (off + bs.length ≤ b.size) | none => true
  renrel 0x21 q (decide (bs.length ≤ 1008) && fits) s.mgt.buf.isSome
    (fun t =>
      match t.mgt.buf with
      | some b => (0, [], { t with mgt := { t.mgt with buf := some (bufPut b off bs) } })
      | none => (cMgtDenied, [], t)) s
def execImgData (q : MgtReq) (off : BitVec 32) (bytes : List Byte) (s : State) : Host.Outcome State Fault Refusal :=
  .next (imgDataCmd q off.toNat bytes s)

/-- A pushed image is checked; its status is the code of the check (R405, R406, R422, R486). -/
def imgPush (b : ImgBuf) (s : State) : Nat × List Byte × State :=
  let g := (List.range b.size).map (fun i => Tab.get (Config.freeMem b.fill) b.bytes i)
  let t := { s with mgt := { s.mgt with buf := none } }
  if b.kind = 0 then
    let res := bootCheck t g
    let t := noteCheck 0 res t
    match res with
    | none => (0, [], if imgOpenOk t 0 then acceptBoot g t else t)
    | some r => (r.1, [], imgEvent r.1 t)
  else
    let res := if structHdrOk g && ihKind g == 0 then some (cImgFormat, 0, 1) else imgCheck t g
    ((res.getD (0, 0, 0)).1, [], takeAmend g res (noteCheck 1 res t))

/-- IMG_END. -/
def imgEnd (q : MgtReq) (s : State) : State :=
  renrel 0x22 q true s.mgt.buf.isSome (fun t => match t.mgt.buf with | some b => imgPush b t | none => (cMgtDenied, [], t)) s
def execImgEnd (q : MgtReq) (s : State) : Host.Outcome State Fault Refusal := .next (imgEnd q s)

/-- GET_NONCE (R457). -/
def getNonce (q : MgtReq) (s : State) : State :=
  renrel 0x30 q true (fromPhase s 2)
    (fun t => if t.get SEC_STATE_KEYSTATE = ksLockedOut then (cSecEpochExh, [], t) else (0, (getNonceOp t).1, (getNonceOp t).2)) s
def execGetNonce (q : MgtReq) (s : State) : Host.Outcome State Fault Refusal := .next (getNonce q s)

/-- PROVISION (R457). -/
def provision (q : MgtReq) (sig : List Byte) (s : State) : State :=
  renrel 0x31 q (sig.length == 96) (fromPhase s 2) (provisionOp sig) s
def execProvision (q : MgtReq) (sig : List Byte) (s : State) : Host.Outcome State Fault Refusal := .next (provision q sig s)

/-- DEPROVISION (R457). -/
def deprovision (q : MgtReq) (sig : List Byte) (s : State) : State :=
  renrel 0x32 q (sig.length == 96) (fromPhase s 2) (fun t => ((deprovisionOp sig t).1, [], (deprovisionOp sig t).2)) s
def execDeprovision (q : MgtReq) (sig : List Byte) (s : State) : Host.Outcome State Fault Refusal := .next (deprovision q sig s)

/-- RESET: the response is sent, then the part acts as at RESET_N (R476, R486). -/
def renrelReset (q : MgtReq) (s : State) : State :=
  let t := renrel 0x40 q true true (fun t => (0, [], t)) s
  if mgtUp s && q.bus && q.good && decide (q.waiting < 8) then
    let u := resetInput t
    { u with mgt := { u.mgt with rsp := t.mgt.rsp } }
  else t
def execReset (q : MgtReq) (s : State) : Host.Outcome State Fault Refusal := .next (renrelReset q s)

/-- POWER_DOWN (R478). -/
def powerDown (q : MgtReq) (s : State) : State :=
  renrel 0x41 q true (s.get PWR_STATUS_PHASE == 8) (fun t => (0, [], powerDownOp t)) s
def execPowerDown (q : MgtReq) (s : State) : Host.Outcome State Fault Refusal := .next (powerDown q s)

end Sys2Proof.Machine
end

