-- ==== Sys2Proof/Machine/Matrix.lean ====
section
/-!
DEFINITION. The array commands MXM, ACRD, ACSP, ACFL and ACZ (03 R71, R72, R75; 04 R96 to R106).
-/
namespace Sys2Proof.Machine

/-! Field names of word 1 (R71). -/
def mSide (c : Cmd) : Nat := cf c 1 0 1
def mShape (c : Cmd) : Nat := cf c 1 1 2
def mAccum (c : Cmd) : Bool := cf c 1 3 1 == 1
def mDepth (c : Cmd) : Nat := cf c 1 12 8
def mWidth (c : Cmd) : Nat := cf c 1 20 9
def mRows (c : Cmd) : Nat := cf c 1 29 11
def mAccRow (c : Cmd) : Nat := cf c 1 40 14
def aRows (c : Cmd) : Nat := cf c 1 9 11
def aAccRow (c : Cmd) : Nat := cf c 1 20 14
def aCol0 (c : Cmd) : Nat := cf c 1 34 9
def aCols (c : Cmd) : Nat := cf c 1 43 9

/-- The MP and MR slots of a side (R62). -/
def mpSlot (c : Cmd) (_ : State) : Slot := if mSide c = 0 then .mpA else .mpB
def mrSlot (c : Cmd) (_ : State) : Slot := if mSide c = 0 then .mrA else .mrB

/-- Whether two half-open index ranges meet. -/
def rangesMeet (a b : Nat × Nat) : Bool := decide (max a.1 b.1 < min a.2 b.2)

/-- Accumulator rows that `rows` logical rows from `accRow` name in array `i` of a side of `n`, first and one past the last, as
accumulator indices in a shape of width `w` (R72, R103). -/
def rowSpan (n w accRow rows i : Nat) : Nat × Nat := (accRow * w, (accRow + ceilDiv (rows - i) n) * w)

/-- Whether an unfinished MR command of a side names, in the shape in force at its issue, a row that the MXM names (R72, R104). -/
def mrOverlap (p : Nat) (c : Cmd) (s : State) : Bool :=
  let n := s.sideCount p
  (s.core p).inflight.any (fun r => (r.slot == mrSlot c s) && (List.range n).any (fun i =>
    rangesMeet (rowSpan n (shapeWidth (mShape c)) (mAccRow c) (mRows c) i)
      (rowSpan n (shapeWidth r.shape) (aAccRow r.words) (aRows r.words) i)))

/-- Keys of the accumulators that an array command names: rows by columns (R103). A row or column beyond the shape names none. -/
def namedAccs (s : State) (p side w accRow rows col0 cols : Nat) : List Nat :=
  (List.range rows).flatMap (fun r =>
    if accRow + r / s.sideCount p < 16384 / w then (List.range (min cols (w - col0))).map (fun j => accOf s p side w accRow r (col0 + j))
    else [])

/-- Operand formats of R41 and pairs of R42. -/
def pairAllowed (int : Bool) (a w : Format) : Bool :=
  if int then a.isInt && w.isInt
  else
    (a == .f16 && w == .f16) || (a == .w16 && w == .w16) ||
      ([Format.f8v, .f8g].contains a && [Format.f8v, .f8g].contains w) ||
      (a == .f4 && w == .f4) || (a == .f4 && w == .f8v) || (a == .f8v && w == .f4)

/-- Decode check of MXM in the order of R74: CMD_ILLEGAL (with R104), OPND_FORMAT, CMD_BOUNDS; then a fenced engine (R79). -/
def checkMxm (p : Nat) (c : Cmd) (s : State) : Nat :=
  let d := shapeDepth (mShape c)
  let w := shapeWidth (mShape c)
  let n := s.sideCount p
  let sa := fun a st cnt len => csInside (a + (cnt - 1) * st) len
  if !reservedClear c || mShape c == 3 || (mSide c == 1 && !s.isP2 p) || mDepth c == 0 || mWidth c == 0 ||
      mRows c == 0 || mrOverlap p c s then cCmdIllegal
  else
    match mxmFmt c with
    | (some fa, some fw) =>
      let keys := namedAccs s p (mSide c) w (mAccRow c) (mRows c) 0 (mWidth c)
      let isW16 := fa == .w16
      if !pairAllowed (s.isInt p) fa fw then cOpndFormat
      else if mAccum c && keys.any (fun k =>
          (Tab.get acc0 s.accs k).kind == (if isW16 then AccKind.tally else AccKind.float)) then cOpndFormat
      else if d * mxmRho c < mDepth c || w < mWidth c || n * (16384 / w) < mRows c ||
          16384 / w < mAccRow c + ceilDiv (mRows c) n ||
          cf c 2 0 32 % 64 != 0 || cf c 2 32 32 % 64 != 0 || cf c 3 0 32 % 64 != 0 || cf c 3 32 32 % 64 != 0 ||
          !sa (cf c 2 0 32) (cf c 2 32 32) (mRows c) (fa.bytes (mDepth c)) ||
          !sa (cf c 3 0 32) (cf c 3 32 32) (mWidth c) (fw.bytes (mDepth c)) ||
          (fa.scaled && !sa (cf c 4 0 32) (cf c 4 32 16) (mRows c) (ceilDiv (mDepth c) 32)) ||
          (fw.scaled && !sa (cf c 5 0 32) (cf c 4 48 16) (mWidth c) (ceilDiv (mDepth c) 32)) then cCmdBounds
      else if (s.sideArrays p (mSide c)).any (fun a => s.engFenced p a) then cEngineFenced
      else 0
    | _ => cOpndFormat

/-- W16 chain of R48: each product added to a binary32 partial sum with one rounding, in ascending depth. -/
def w16Chain : Nat → List (Val × Val) → Res32
  | acc, [] => (acc, .none)
  | acc, (a, b) :: ps =>
    let r := fmaVal .rne a b (decodeElem .f32 acc)
    let t := w16Chain r.1 ps
    (t.1, r.2.or t.2)

/-- New content of one accumulator (R71 ACCUM, R43, R46, R48, R103). -/
def mxmAcc (sh : Int) (isW16 accum : Bool) (old : Acc) (ps : List (Val × Val)) : Acc × Flags :=
  if isW16 then
    let r := w16Chain (if accum then old.f else 0) ps
    ({ kind := .float, t := {}, f := r.1 }, r.2)
  else
    let r := Tally.addProducts sh (if accum then old.t else {}) ps
    ({ kind := .tally, t := r.1, f := 0 }, { invalid := r.2 })

/-! The operand reads of a pass (R98). -/

/-- Elements `lo` to `hi - 1` of the packed row at `a`, whose scale bytes lie at `sa`: the element bytes and the scale bytes that begin in
them, each byte being read once, and whether a word of them is poisoned (R69, R98). -/
def rowPart (p a sa : Nat) (f : Format) (lo hi : Nat) (s : State) : (List Byte × List Byte) × Bool :=
  let e := (csOffset p (a + f.bytes lo), f.bytes hi - f.bytes lo)
  let t := (csOffset p (sa + f.scaleBytes lo), f.scaleBytes hi - f.scaleBytes lo)
  ((s.bytes e.1 e.2, s.bytes t.1 t.2), s.anyPoison e.1 e.2 || s.anyPoison t.1 t.2)

/-- A part of activation row `r`, and of weight column `j` (R72). -/
def actPart (p : Nat) (c : Cmd) (fa : Format) (r lo hi : Nat) (s : State) : (List Byte × List Byte) × Bool :=
  rowPart p (cf c 2 0 32 + r * cf c 2 32 32) (cf c 4 0 32 + r * cf c 4 32 16) fa lo hi s
def wgtPart (p : Nat) (c : Cmd) (fw : Format) (j lo hi : Nat) (s : State) : (List Byte × List Byte) × Bool :=
  rowPart p (cf c 3 0 32 + j * cf c 3 32 32) (cf c 5 0 32 + j * cf c 4 48 16) fw lo hi s

/-- Cell rows that a pass reads: those below DEPTH_USED (R102). -/
def passCells (c : Cmd) : Nat := ceilDiv (mDepth c) (mxmRho c)

/-- A pass whose front enters depth row 0 in cycle `f`, nothing read. -/
def newPass (c : Cmd) (f : Nat) : Pass := { f := f, wgt := List.replicate (mWidth c) ([], []) }

/-- Reads on: weights up to cell row `cells`, activation rows up to `rows` (R98). -/
def passTo (p : Nat) (c : Cmd) (fa fw : Format) (cells rows : Nat) (s : State) (x : Pass) : Pass :=
  let el := fun k => min (k * mxmRho c) (mDepth c)
  let w := (List.range (mWidth c)).map (fun j => wgtPart p c fw j (el x.cells) (el (max x.cells cells)) s)
  let a := (List.range (rows - x.act.length)).map (fun i => actPart p c fa (x.act.length + i) 0 (mDepth c) s)
  { x with cells := max x.cells cells
           wgt := (x.wgt.zip w).map (fun y => (y.1.1 ++ y.2.1.1, y.1.2 ++ y.2.1.2))
           act := x.act ++ a.map (fun y => y.1)
           poison := x.poison || w.any (fun y => y.2) || a.any (fun y => y.2) }

/-- What a pass has read by cycle `now`: cell row d in cycle f + c * d, row j of each array in cycle f + c * (1 + j) (R98). -/
def passDue (p : Nat) (c : Cmd) (fa fw : Format) (now : Nat) (s : State) (x : Pass) : Pass :=
  if now < x.f then x
  else
    let k := (now - x.f) / mxmRate c
    passTo p c fa fw (min (k + 1) (passCells c)) (min (k * s.sideCount p) (mRows c)) s x

/-- Whether everything has been read. -/
def Pass.full (c : Cmd) (x : Pass) : Bool := x.cells == passCells c && x.act.length == mRows c

/-- The staged shadows and flags of a pass, or none when a scale byte is malformed. -/
def passResult (p : Nat) (c : Cmd) (fa fw : Format) (s : State) (x : Pass) : Option (List (Nat × Acc) × Flags) :=
  match x.act.mapM (fun b => valsOf fa (mDepth c) b.1 b.2), x.wgt.mapM (fun b => valsOf fw (mDepth c) b.1 b.2) with
  | some acts, some wgts =>
    let w := shapeWidth (mShape c)
    let cells := acts.zipIdx.flatMap (fun ar => wgts.zipIdx.map (fun wc =>
      let key := accOf s p (mSide c) w (mAccRow c) ar.2 wc.2
      (key, mxmAcc (s.tallyShift p) (fa == .w16) (mAccum c) (Tab.get acc0 s.accs key) (ar.1.zip wc.1))))
    some (cells.map (fun x => (x.1, x.2.1)), cells.foldl (fun f x => f.or x.2.2) Flags.none)
  | _, _ => none

/-- A pass that has read everything has its result, or the code of what it met (R74, R92). -/
def settlePass (p : Nat) (s : State) (fa fw : Format) (x : Pass) (r : CmdRec) : CmdRec :=
  if !x.full r.words then { r with pass := some x }
  else
    let res := passResult p r.words fa fw s x
    { r with pass := none, code := (if r.code ≠ 0 then r.code else execCode none false x.poison res.isNone),
             shadows := (res.getD ([], .none)).1, flags := (res.getD ([], .none)).2 }

/-- An MXM in flight reads what is due by now (R98); any other command is as it was. -/
def readPass (p : Nat) (s : State) (r : CmdRec) : CmdRec :=
  match r.pass, mxmFmt r.words with
  | some x, (some fa, some fw) => settlePass p s fa fw (passDue p r.words fa fw s.fc s x) r
  | _, _ => r

/-- An MXM in flight reads all that is left of its operands. -/
def finishPass (p : Nat) (s : State) (r : CmdRec) : CmdRec :=
  match r.pass, mxmFmt r.words with
  | some x, (some fa, some fw) => settlePass p s fa fw (passTo p r.words fa fw (passCells r.words) (mRows r.words) s x) r
  | _, _ => r

/-! Chains (R89, R99). -/

/-- Whether an MXM has the SHAPE, FMT_A and FMT_W of the slot's latest (R89). -/
def Chain.fits (h : Chain) (c : Cmd) : Bool := h.shape == mShape c && h.fmtA == cf c 1 4 4 && h.fmtW == cf c 1 8 4

/-- The early front that has started for the command at HEAD (R98). -/
def startedFront (p : Nat) (c : Cmd) (s : State) : Option Pass :=
  match (s.core p).chain (mSide c) with
  | some h =>
    match h.front with
    | some f => if f.idx == s.get (CORE_HEAD_HEAD p) && f.words == c then some f.pass else none
    | none => none
  | none => none

/-- Whether the MXM is chained: the previous command of its slot since RUN or RESUME has the same SHAPE and formats, it issues in the
cycle after that one completed (R89), and it was in the ring in time: its front has started, or was not due yet (R99). -/
def mxmChained (p : Nat) (c : Cmd) (s : State) : Bool :=
  match (s.core p).chain (mSide c) with
  | none => false
  | some h =>
    h.fits c && (match h.done with | some d => decide (s.fc ≤ d + 1) | none => false) && h.late == 0 &&
      ((startedFront p c s).isSome || decide (s.fc < h.next))

/-- Whether an MXM at HEAD still waits out the cycles by which it reached the ring late (R99). -/
def mxmLate (p : Nat) (c : Cmd) (s : State) : Bool :=
  match (s.core p).chain (mSide c) with
  | none => false
  | some h =>
    match h.done with
    | some d => decide (0 < h.late) && decide (s.fc < d + 1 + h.late)
    | none => false

/-- The next MXM of a side in the ring, looked for from index `i` up to TAIL over at most `n` commands: none while there is none yet;
`some none` where the list ends before one (R99). -/
def nextMxm (p side : Nat) (s : State) : Nat → Nat → Option (Option (Nat × Cmd))
  | 0, _ => none
  | n + 1, i =>
    let k := s.core p
    let c := ringCmd s p k.base i
    if i = s.get (CORE_TAIL_TAIL p) then none
    else if k.skip.contains i then nextMxm p side s n ((i + 1) % k.size)
    else if cOp c = opEnd then some none
    else if cOp c = opMxm ∧ mSide c = side then some (some (i, c))
    else nextMxm p side s n ((i + 1) % k.size)

/-- The chain of a side in a new cycle, while the list runs: once the front of the next MXM is due it starts if that MXM is in the ring
and would be chained, else the cycles by which the MXM is late are counted; a front that has started reads on, and is discarded once
its MXM has not issued in the cycle of R89 (R98, R99). -/
def chainCycle (p side : Nat) (s : State) (h : Chain) : Chain :=
  match h.front with
  | some f =>
    if (match h.done with | some d => decide (d + 1 < s.fc) | none => false) then h.drop
    else
      match mxmFmt f.words with
      | (some fa, some fw) => { h with front := some { f with pass := passDue p f.words fa fw s.fc s f.pass } }
      | _ => h
  | none =>
    if !h.awaited || decide (s.fc < h.next) then h
    else
      match nextMxm p side s (s.core p).size (s.get (CORE_HEAD_HEAD p)) with
      | none => { h with late := h.late + 1 }
      | some none => { h with awaited := false }
      | some (some (i, c)) =>
        match mxmFmt c with
        | (some fa, some fw) =>
          if h.late = 0 ∧ h.fits c = true then
            { h with awaited := false, front := some { idx := i, words := c, pass := passDue p c fa fw s.fc s (newPass c s.fc) } }
          else { h with awaited := false }
        | _ => { h with awaited := false }

/-- The arrays of core `p` in a new ungated cycle: passes and fronts read what is due (R98, R99). -/
def arrayCycle (p : Nat) (s : State) : State :=
  let c := s.core p
  let c1 := { c with inflight := c.inflight.map (readPass p s) }
  let c2 := if s.get (CORE_STATUS_STATE p) = stRunning then
      { c1 with chainA := c.chainA.map (chainCycle p 0 s), chainB := c.chainB.map (chainCycle p 1 s) } else c1
  let t := s.setCore p c2
  [0, 1].foldl (fun u side =>
    if c2.hasFront side == c.hasFront side then u
    else if c2.hasFront side then (s.sideArrays p side).foldl (fun u a => u.set (MX_STATUS_BUSY p a) 1) u
    else if c.inflight.any (fun r => r.slot == (if side = 0 then Slot.mpA else Slot.mpB)) then u
    else clearArrays p side u) t

/-! MXM. -/

/-- Cost of R88. -/
def mxmCost (n : Nat) (chained : Bool) (c : Cmd) : Nat :=
  let ma := ceilDiv (mRows c) n
  let l := shapeLat (mShape c)
  mxmRate c * (if chained then max ma l else ma + l)

/-- MX_STATUS and mask registers of the pass (R102, R117). -/
def mxStatus (p : Nat) (c : Cmd) (chained : Bool) (s : State) : State :=
  (s.sideArrays p (mSide c)).foldl (fun t a =>
    (((((((t.set (MX_STATUS_SHAPE p a) (mShape c)).set (MX_STATUS_BUSY p a) 1).set (MX_STATUS_CHAINED p a)
      (ofBool chained)).set (MX_STATUS_SIDE p a) (mSide c)).set (MX_STATUS_FMT_A p a) (cf c 1 4 4)).set
      (MX_STATUS_FMT_W p a) (cf c 1 8 4)).set (MX_ROW_MASK_DEPTH_ON p a) (ceilDiv (mDepth c) (mxmRho c))).set
      (MX_COL_MASK_WIDTH_ON p a) (mWidth c)) s

/-- The chain that an MXM issuing now begins: the front of a chained successor enters when the previous front is L steps ahead and the last
row has entered, at most L fc before the successor's issue (R97, R98; log entry 39). -/
def newChain (c : Cmd) (n : Nat) (chained : Bool) (f now : Nat) : Chain :=
  let ma := ceilDiv (mRows c) n
  let l := shapeLat (mShape c)
  { shape := mShape c, fmtA := cf c 1 4 4, fmtW := cf c 1 8 4,
    next := max (f + mxmRate c * max ma l) (now + mxmCost n chained c - l) }

/-- Issues an MXM, whose pass then reads its operands cycle by cycle (R72, R75, R96, R98). -/
def mxmRun (p : Nat) (flt : Option EngFault) (c : Cmd) (s : State) : State :=
  let n := s.sideCount p
  let chained := mxmChained p c s
  let x := if chained then (startedFront p c s).getD (newPass c s.fc) else newPass c s.fc
  let r := { plainRec (mpSlot c s) c (mxmCost n chained c) 1 with code := execCode flt false false false, shape := mShape c, pass := some x }
  let k := s.core p
  let t := s.setCore p (k.setChain (mSide c) (some (newChain c n chained x.f s.fc)))
  fenceFault p flt (issue p (readPass p s r) (mxStatus p c chained t))

/-- MXM (R71, R72, R96): beside R63, it waits out the cycles of R99. -/
def mxm (p : Nat) (flt : Option EngFault) (s : State) : State :=
  issueCmd p opMxm mpSlot (mxmLate p) (checkMxm p) (mxmRun p flt) s

def execMxm (p : Fin 144) (flt : Option EngFault) (s : State) : Host.Outcome State Fault Refusal :=
  .next (s.live (mxm p flt))

/-! Reading, spilling, filling and zeroing accumulators. -/

/-- Columns that an MR command names: those of COL0 and COLS, and every column for ACZ (R103). -/
def mrCols (w : Nat) (c : Cmd) : Nat × Nat := if cOp c = opAcz then (0, w) else (aCol0 c, aCol0 c + aCols c)

/-- Whether an in-flight MXM of the side writes accumulators the command names: it then waits for it (R63). Both use the shape of that
MXM, the side's latest (R72). -/
def mxmBusy (p : Nat) (c : Cmd) (s : State) : Bool :=
  let n := s.sideCount p
  let w := shapeWidth (s.sideShape p (mSide c))
  (s.core p).inflight.any (fun r => (r.slot == mpSlot c s) && rangesMeet (0, mWidth r.words) (mrCols w c) &&
    (List.range n).any (fun i => rangesMeet (rowSpan n w (mAccRow r.words) (mRows r.words) i) (rowSpan n w (aAccRow c) (aRows c) i)))

/-- A record of an MR command, with the shape in force (R72). -/
def mrRec (p : Nat) (c : Cmd) (cost commitLen : Nat) (s : State) : CmdRec :=
  { plainRec (mrSlot c s) c cost commitLen with shape := s.sideShape p (mSide c) }

/-- Output formats of R49. -/
def readoutAllowed (int : Bool) (f : Format) : Bool :=
  if int then [Format.i32, .f32, .t96].contains f
  else [Format.f32, .f16, .w16, .f8v, .f8g, .f4, .t96].contains f

/-- Staging share of an MR slot (R75). -/
def mrShare (p : Nat) (s : State) : Nat := if s.isP2 p then 262144 else 524288

/-- The shape and accumulator bounds of R71 common to ACRD, ACSP and ACFL. -/
def mrBounds (p : Nat) (c : Cmd) (s : State) : Bool :=
  let w := shapeWidth (s.sideShape p (mSide c))
  let n := s.sideCount p
  decide (aRows c ≤ n * (16384 / w)) && decide (aAccRow c + ceilDiv (aRows c) n ≤ 16384 / w) &&
    decide (aCol0 c < w) && decide (aCols c ≤ w - aCol0 c)

/-- Bytes of one output row of ACRD, elements and scale bytes. -/
def acrdRowBytes (c : Cmd) (f : Format) : Nat := f.bytes (aCols c)
def acrdScaleBytes (c : Cmd) (f : Format) : Nat := if f.scaled then ceilDiv (aCols c) 32 else 0

/-- Decode check of ACRD (R71, R74, R49, R67, R75). -/
def checkAcrd (p : Nat) (c : Cmd) (s : State) : Nat :=
  let rm := cf c 1 1 3
  if !reservedClear c || (mSide c == 1 && !s.isP2 p) || aRows c == 0 || aCols c == 0 then cCmdIllegal
  else
    match Format.ofCode (cf c 1 4 4) with
    | none => cOpndFormat
    | some f =>
      if !readoutAllowed (s.isInt p) f || (rm != 0 && rm != 4) then cOpndFormat
      else if !mrBounds p c s || cf c 2 0 32 % 64 != 0 || cf c 2 32 32 % 64 != 0 ||
          !csInside (cf c 2 0 32 + (aRows c - 1) * cf c 2 32 32) (acrdRowBytes c f) ||
          (f.scaled && !csInside (cf c 3 0 32 + (aRows c - 1) * cf c 4 0 16) (acrdScaleBytes c f)) ||
          decide (mrShare p s < aRows c * (acrdRowBytes c f + acrdScaleBytes c f)) then cCmdBounds
      else if (s.sideArrays p (mSide c)).any (fun a => s.engFenced p a) then cEngineFenced
      else 0

/-- Accumulators of one logical row of an MR command, with their keys. -/
def mrRow (p : Nat) (c : Cmd) (s : State) (r : Nat) : List (Nat × Acc) :=
  let w := shapeWidth (s.sideShape p (mSide c))
  (List.range (aCols c)).map (fun j =>
    let k := accOf s p (mSide c) w (aAccRow c) r (aCol0 c + j)
    (k, Tab.get acc0 s.accs k))

/-- The exact readout value of an accumulator by its own state (R103), with TALLY_OVF and INVALID. -/
def accVal (sh : Int) (a : Acc) : Val × Bool × Bool :=
  if a.kind = .float then (decodeElem .f32 a.f, false, false) else a.t.readVal sh

/-- One element read out of an accumulator to a format without block scales (R49, R52, R103). -/
def accElem (sh : Int) (f : Format) (mode : Rounding) (a : Acc) : OutElem :=
  if a.kind = .float then
    if f = .t96 then
      let t := Tally.ofVal sh (decodeElem .f32 a.f)
      ⟨t.1.slot, Tally.ofValFlags sh (decodeElem .f32 a.f), t.2⟩
    else
      let e := encodeVal f mode (decodeElem .f32 a.f)
      ⟨e.1, e.2, false⟩
  else a.t.readElem sh f mode

/-- One row of output: element codes, scale bytes, flags and TALLY_OVF (R49, R51). -/
def accRowOut (sh : Int) (f : Format) (xs : List (Acc × Rounding)) : List Nat × List Nat × Flags × Bool :=
  if f.scaled then
    let vs := xs.map (fun x => accVal sh x.1)
    let r := encodeRow f ((vs.map (·.1)).zip (xs.map (·.2)))
    (r.1, r.2.1, vs.foldl (fun g v => g.or { invalid := v.2.2 }) r.2.2, vs.any (fun v => v.2.1))
  else
    let es := xs.map (fun x => accElem sh f x.2 x.1)
    (es.map (·.code), [], es.foldl (fun g e => g.or e.flags) Flags.none, es.any (·.ovf))

/-- The arrays of the rows for which `bad` holds, each once. -/
def arraysOf (p : Nat) (c : Cmd) (bad : Nat → Bool) (s : State) : List Nat :=
  (s.sideArrays p (mSide c)).filter (fun a => (List.range (aRows c)).any (fun r => bad r && s.sideArray p (mSide c) r == a))

/-- Whether row `r` of an MR command holds an accumulator whose residue does not check (R53). -/
def rowBad (p : Nat) (c : Cmd) (s : State) (r : Nat) : Bool := (mrRow p c s r).any (fun x => x.2.kind != .float && !x.2.t.residueOk)

/-- Fences every array in which a residue mismatch is found (R54, R432). -/
def fenceArrays (p : Nat) (arrays : List Nat) (s : State) : State := arrays.foldl (fun t a => fenceEngine p a cResidueFault 0 t) s

/-- Issues and executes an ACRD (R49, R72, R75, R103). -/
def acrdRun (p : Nat) (flt : Option EngFault) (c : Cmd) (s : State) : State :=
  match Format.ofCode (cf c 1 4 4) with
  | none => s
  | some f =>
    let sh := s.tallyShift p
    let seed := s.get (CORE_SEED_SEED p)
    let rows := (List.range (aRows c)).map (fun r =>
      accRowOut sh f ((mrRow p c s r).zipIdx.map (fun x =>
        (x.1.2, readoutMode (cf c 1 1 3) seed (cf c 3 32 24) (r * aCols c + x.2)))))
    let writes := rows.zipIdx.flatMap (fun x =>
      stageBytes (cf c 2 0 32 + x.2 * cf c 2 32 32) (packElems f x.1.1) ++
        stageBytes (cf c 3 0 32 + x.2 * cf c 4 0 16) (x.1.2.1.map (BitVec.ofNat 8)))
    let zeros := if cf c 1 8 1 = 1 then
        (List.range (aRows c)).flatMap (fun r => (mrRow p c s r).map (fun x => (x.1, ({} : Acc)))) else []
    let bad := arraysOf p c (rowBad p c s) s
    let e := aRows c * aCols c
    let b := aRows c * (acrdRowBytes c f + acrdScaleBytes c f)
    let rate := if s.isP2 p then 128 else 256
    let rec' := { mrRec p c (8 + ceilDiv e 256 + ceilDiv b rate) (ceilDiv b rate) s with
      code := execCode flt (!bad.isEmpty) false false, writes := writes, shadows := zeros,
      flags := rows.foldl (fun g x => g.or x.2.2.1) Flags.none, ovf := rows.any (fun x => x.2.2.2) }
    fenceArrays p (if flt.isNone then bad else []) (fenceFault p flt (issue p rec' s))

/-- ACRD (R71, R72). -/
def acrd (p : Nat) (flt : Option EngFault) (s : State) : State :=
  issueCmd p opAcrd mrSlot (mxmBusy p) (checkAcrd p) (acrdRun p flt) s

def execAcrd (p : Fin 144) (flt : Option EngFault) (s : State) : Host.Outcome State Fault Refusal :=
  .next (s.live (acrd p flt))

/-- Decode check of ACSP and ACFL (R71, R103, R67, R75). -/
def checkSpill (spill : Bool) (p : Nat) (c : Cmd) (s : State) : Nat :=
  let w := shapeWidth (s.sideShape p (mSide c))
  if !reservedClear c || (mSide c == 1 && !s.isP2 p) || aRows c == 0 || aCols c == 0 then cCmdIllegal
  else if (namedAccs s p (mSide c) w (aAccRow c) (aRows c) (aCol0 c) (aCols c)).any (fun k =>
      (Tab.get acc0 s.accs k).kind == .float) then cOpndFormat
  else if !mrBounds p c s || cf c 2 0 32 % 64 != 0 || cf c 2 32 32 % 64 != 0 ||
      !csInside (cf c 2 0 32 + (aRows c - 1) * cf c 2 32 32) (16 * aCols c) ||
      (spill && decide (mrShare p s < 16 * aRows c * aCols c)) then cCmdBounds
  else if (s.sideArrays p (mSide c)).any (fun a => s.engFenced p a) then cEngineFenced
  else 0

/-- Issues and executes an ACSP: slots are written unjudged (R44, R47). -/
def acspRun (p : Nat) (flt : Option EngFault) (c : Cmd) (s : State) : State :=
  let writes := (List.range (aRows c)).flatMap (fun r =>
    stageBytes (cf c 2 0 32 + r * cf c 2 32 32) ((mrRow p c s r).flatMap (fun x => toBytes 16 x.2.t.slot)))
  let bad := arraysOf p c (rowBad p c s) s
  let e := aRows c * aCols c
  let rate := if s.isP2 p then 128 else 256
  let r := { mrRec p c (8 + ceilDiv e 256 + ceilDiv (16 * e) rate) (ceilDiv (16 * e) rate) s with
    code := execCode flt (!bad.isEmpty) false false, writes := writes }
  fenceArrays p (if flt.isNone then bad else []) (fenceFault p flt (issue p r s))

/-- ACSP (R47, R71). -/
def acsp (p : Nat) (flt : Option EngFault) (s : State) : State :=
  issueCmd p opAcsp mrSlot (mxmBusy p) (checkSpill true p) (acspRun p flt) s

def execAcsp (p : Fin 144) (flt : Option EngFault) (s : State) : Host.Outcome State Fault Refusal :=
  .next (s.live (acsp p flt))

/-- The slots of row `r` of an ACFL, with the accumulators they fill (R47). -/
def acflRow (p : Nat) (c : Cmd) (s : State) (r : Nat) : List (Nat × Tally) :=
  (mrRow p c s r).zipIdx.map (fun x =>
    (x.1.1, Tally.ofSlot (s.csRead p (cf c 2 0 32 + r * cf c 2 32 32 + 16 * x.2) 16)))

/-- Issues and executes an ACFL: shadows take N, flags and residue, each residue checked (R47, R53). -/
def acflRun (p : Nat) (flt : Option EngFault) (c : Cmd) (s : State) : State :=
  let rows := (List.range (aRows c)).map (acflRow p c s)
  let poison := (List.range (aRows c)).any (fun r => s.anyPoison (csOffset p (cf c 2 0 32 + r * cf c 2 32 32)) (16 * aCols c))
  let bad := arraysOf p c (fun r => (rows.getD r []).any (fun x => !x.2.residueOk)) s
  let e := aRows c * aCols c
  let r := { mrRec p c (9 + ceilDiv (16 * e) (if s.isP2 p then 256 else 512)) 1 s with
    code := execCode flt (!bad.isEmpty) poison false,
    shadows := rows.flatMap (fun row => row.map (fun x => (x.1, ({ kind := .tally, t := x.2 } : Acc)))) }
  fenceArrays p (if flt.isNone then bad else []) (fenceFault p flt (issue p r s))

/-- ACFL (R47, R71). -/
def acfl (p : Nat) (flt : Option EngFault) (s : State) : State :=
  issueCmd p opAcfl mrSlot (mxmBusy p) (checkSpill false p) (acflRun p flt) s

def execAcfl (p : Fin 144) (flt : Option EngFault) (s : State) : Host.Outcome State Fault Refusal :=
  .next (s.live (acfl p flt))

/-- Decode check of ACZ (R71). -/
def checkAcz (p : Nat) (c : Cmd) (s : State) : Nat :=
  let w := shapeWidth (s.sideShape p (mSide c))
  let n := s.sideCount p
  if !reservedClear c || (mSide c == 1 && !s.isP2 p) || aRows c == 0 then cCmdIllegal
  else if n * (16384 / w) < aRows c || 16384 / w < aAccRow c + ceilDiv (aRows c) n then cCmdBounds
  else if (s.sideArrays p (mSide c)).any (fun a => s.engFenced p a) then cEngineFenced
  else 0

/-- Issues an ACZ: whole rows of every named logical row become EMPTY at the commit (R103). -/
def aczRun (p : Nat) (c : Cmd) (s : State) : State :=
  let w := shapeWidth (s.sideShape p (mSide c))
  issue p { mrRec p c 4 1 s with
    shadows := (namedAccs s p (mSide c) w (aAccRow c) (aRows c) 0 w).map (fun k => (k, ({} : Acc))) } s

/-- ACZ (R71, R103). -/
def acz (p : Nat) (s : State) : State :=
  issueCmd p opAcz mrSlot (mxmBusy p) (checkAcz p) (aczRun p) s

def execAcz (p : Fin 144) (s : State) : Host.Outcome State Fault Refusal := .next (s.live (acz p))

end Sys2Proof.Machine
end

