-- ==== Sys2Proof/Machine/Transfer.lean ====
section
/-!
DEFINITION. The commands of a core that reach HBM or the fabric: MVM (R107 to R110) and MOVE (R73, R267), and the
completion of every command (R64, R79).
-/
namespace Sys2Proof.Machine

/-! MVM. -/

/-- Fields of an MVM (R71). -/
def vmW (c : Cmd) : Option Format := Format.ofCode (cf c 1 4 4)
def vmOut (c : Cmd) : Option Format := Format.ofCode (cf c 1 12 4)
def vmHbm (c : Cmd) : Bool := cf c 1 16 1 == 1
def vmN (c : Cmd) : Nat := cf c 1 17 17
def vmK (c : Cmd) : Nat := cf c 1 34 15

/-- Output bytes of an MVM: elements and scale bytes. -/
def vmOutBytes (c : Cmd) (f : Format) : Nat := f.bytes (vmN c) + (if f.scaled then ceilDiv (vmN c) 32 else 0)

/-- Decode check of MVM (R67, R71, R74, R75, R107, R108). -/
def checkMvm (p : Nat) (c : Cmd) (s : State) : Nat :=
  if !reservedClear c || vmN c == 0 || decide (65536 < vmN c) || vmK c == 0 || decide (16384 < vmK c) then cCmdIllegal
  else
    match vmW c, vmOut c with
    | some w, some o =>
      let rm := cf c 1 1 3
      if s.isInt p || cf c 1 4 4 != cf c 1 8 4 || !(w == .f16 || w == .f8v) || !readoutAllowed false o ||
          (rm != 0 && rm != 4) then cOpndFormat
      else
        let row := w.bytes (vmK c)
        let x := cf c 3 0 32
        let xs := cf c 3 32 32
        let d := cf c 4 0 32
        if row % 128 != 0 || cf c 2 0 64 % 128 != 0 || x % 64 != 0 || d % 64 != 0 ||
            decide (131072 < vmOutBytes c o) || !csInside x row || (w.scaled && !csInside xs (vmK c / 32)) ||
            !csInside d (o.bytes (vmN c)) || (o.scaled && !csInside (cf c 6 0 32) (ceilDiv (vmN c) 32)) ||
            (!vmHbm c && (!csInside (cf c 2 0 64) (vmN c * row) ||
              (w.scaled && !csInside (cf c 5 0 64) (vmN c * (vmK c / 32))))) then cCmdBounds
        else if s.engFenced p 4 then cEngineFenced
        else 0
    | _, _ => cOpndFormat

/-- Where the matrix and its scale bytes lie: an offset of the node. -/
def vmBase (p : Nat) (c : Cmd) (a : Nat) : Nat := if vmHbm c then a else csOffset p a

/-- The order of R109 in which strip `t` of row `i` is consumed, of `m` strips a row and `n` rows. -/
def stripOrder (n m i t : Nat) : Nat :=
  let g := i / 128
  g * 128 * m + t * min 128 (n - 128 * g) + i % 128

/-- The row and the strip consumed in place `o` of that order. -/
def stripAt (n m o : Nat) : Nat × Nat :=
  let g := o / (128 * m)
  let k := min 128 (n - 128 * g)
  (128 * g + (o - g * 128 * m) % k, (o - g * 128 * m) / k)

/-- Who an MVM's stream acts for (R110, R261, R310). -/
def mvmWho (p : Nat) (s : State) : Who := { k := p / 36, key := s.get (CORE_PLOT_PKEY p), cons := s.plotOf p }

/-- The failure that one strip meets: poisoned x, a refusal, or a word that cannot be read (R110), in this order where it meets several
(log entry 40). -/
def stripFail (p : Nat) (c : Cmd) (w : Format) (s : State) (i t : Nat) : Nat :=
  let a := vmBase p c (cf c 2 0 64 + i * w.bytes (vmK c) + 128 * t)
  let sa := vmBase p c (cf c 5 0 64 + i * (vmK c / 32) + 4 * t)
  let who := mvmWho p s
  if s.anyPoison (csOffset p (cf c 3 0 32 + 128 * t)) 128 ||
      (w.scaled && s.anyPoison (csOffset p (cf c 3 32 32 + 4 * t)) 4) then cCsUncorr
  else if !vmHbm c then (if s.anyPoison a 128 || (w.scaled && s.anyPoison sa 4) then cCsUncorr else 0)
  else
    -- W_SRC and WS_SRC name HBM: a range outside it is refused as unmapped
    let r := if inHbm a 128 then accessCode s who.k who.key pR a 128 else cVtWindow
    let r2 := if !w.scaled then 0 else if inHbm sa 4 then accessCode s who.k who.key pR sa 4 else cVtWindow
    if r ≠ 0 then r else if r2 ≠ 0 then r2
    else if s.anyPoison a 128 || (w.scaled && s.anyPoison sa 4) then cMemUncorr
    else 0

/-- The failure that comes first in the order of R109: its place and code. -/
def mvmFail (p : Nat) (c : Cmd) (w : Format) (s : State) : Option (Nat × Nat) :=
  let m := w.bytes (vmK c) / 128
  (List.range (vmN c)).foldl (fun acc i => (List.range m).foldl (fun acc t =>
    let f := stripFail p c w s i t
    if f = 0 then acc
    else
      let o := stripOrder (vmN c) m i t
      match acc with
      | none => some (o, f)
      | some b => if o < b.1 then some (o, f) else some b) acc) none

/-- Values of matrix row `i` (R108): none for a malformed scale byte. -/
def mvmRow (p : Nat) (c : Cmd) (w : Format) (s : State) (i : Nat) : Option (List Val) :=
  let k := w.scaleBytes (vmK c)
  valsOf w (vmK c) (s.bytes (vmBase p c (cf c 2 0 64 + i * w.bytes (vmK c))) (w.bytes (vmK c)))
    (s.bytes (vmBase p c (cf c 5 0 64 + i * k)) k)

/-- The exact sums y of R107, with INVALID; none for a malformed scale byte. -/
def mvmSums (p : Nat) (c : Cmd) (w : Format) (s : State) : Option (List Tally × Bool) :=
  match rowVals s p (cf c 3 0 32) (cf c 3 32 32) w (vmK c), (List.range (vmN c)).mapM (mvmRow p c w s) with
  | some x, some rows =>
    let ys := rows.map (fun r => Tally.addProducts 48 ({} : Tally) (r.zip x))
    some (ys.map Prod.fst, ys.any Prod.snd)
  | _, _ => none

/-- What an MVM's stream finds in the words of a range that its plot may read (R296). -/
def mvmFind (p off n : Nat) (s : State) : State :=
  let who := mvmWho p s
  if inHbm off n && accessCode s who.k who.key pR off n == 0 then hbmFind off n s else s

/-- What an MVM finds in its matrix and scale bytes (R296). -/
def mvmFinds (p : Nat) (c : Cmd) (w : Format) (s : State) : State :=
  if !vmHbm c then s
  else
    let t := mvmFind p (cf c 2 0 64) (vmN c * w.bytes (vmK c)) s
    if w.scaled then mvmFind p (cf c 5 0 64) (vmN c * w.scaleBytes (vmK c)) t else t

/-- Issues and executes an MVM (R107 to R110, R75). -/
def mvmRun (p : Nat) (flt : Option EngFault) (c : Cmd) (s : State) : State :=
  match vmW c, vmOut c with
  | some w, some o =>
    let row := w.bytes (vmK c)
    let s := mvmFinds p c w s
    let fail := mvmFail p c w s
    let sums := mvmSums p c w s
    let seed := s.get (CORE_SEED_SEED p)
    let out : List Nat × List Nat × Flags × Bool := match sums with
      | some ys => readRow 48 o (ys.1.zipIdx.map (fun (y : Tally × Nat) => (y.1, readoutMode (cf c 1 1 3) seed (cf c 7 0 24) y.2)))
      | none => ([], [], Flags.none, false)
    let inv : Flags := { invalid := match sums with | some ys => ys.2 | none => false }
    let code := match execCode flt false false false, fail with
      | 0, some f => f.2
      | 0, none => if sums.isNone then cOpndScale else 0
      | e, _ => e
    let co := ceilDiv (vmOutBytes c o) 64
    let cost := match flt, fail with
      | none, some f => 24 + f.1 + 1
      | _, _ => 24 + ceilDiv (vmN c * row) 128 + co
    let r := { plainRec .mv c cost (if code = 0 then co else 0) with
      code := code,
      writes := stageBytes (cf c 4 0 32) (packElems o out.1) ++ stageBytes (cf c 6 0 32) (out.2.1.map (BitVec.ofNat 8)),
      flags := out.2.2.1.or inv, ovf := out.2.2.2 }
    let t := ((issue p r s).set (MV_STATUS_BUSY p) 1).set (MV_STATUS_WSRC p) (ofBool (vmHbm c))
    fenceFault p flt t
  | _, _ => s

/-! The stream of an MVM from HBM (R84, R109, R110). -/

/-- Strips that an MVM consumes: those before the one that fails, which is received but not counted (R110, R118; log entry 40), or all of them.
Its cost says which (R88, R110). -/
def vmStrips (w : Format) (r : CmdRec) : Nat :=
  min (ceilDiv (vmN r.words * w.bytes (vmK r.words)) 128) (if r.code = 0 ∨ r.cost < 25 then r.cost else r.cost - 25)

/-- Charges an access of a contiguous array by the granules that this part of it is the first to touch (R312; log entry 40). -/
def noteStream (cons : Option Nat) (base off n : Nat) (s : State) : State :=
  if off = base ∨ off % 256 < n then noteRead cons off n s
  else if inHbm off n then accept off n (s.count (HBM_RD_BYTES_COUNT (stackOf off)) n) else s

/-- One strip of an MVM, with its scale bytes, arrives on the HBM path: the bytes that MV and the stack count, and what the plot is
charged (R118, R310, R312, R317). -/
def stripArrives (p : Nat) (c : Cmd) (w : Format) (o : Nat) (s : State) : State :=
  let x := stripAt (vmN c) (w.bytes (vmK c) / 128) o
  let k := w.scaleBytes (vmK c)
  let t := noteStream (mvmWho p s).cons (cf c 2 0 64) (cf c 2 0 64 + x.1 * w.bytes (vmK c) + 128 * x.2) 128 s
  let t := if w.scaled then noteStream (mvmWho p s).cons (cf c 5 0 64) (cf c 5 0 64 + x.1 * k + 4 * x.2) 4 t else t
  t.count (MV_HBM_BYTES_COUNT p) (if w.scaled then 132 else 128)

/-- Whether an MVM in flight streams from HBM in this cycle: strip `o` is due 24 + `o` cycles after its issue (R88, R110). -/
def streaming (s : State) (r : CmdRec) : Option Format :=
  match vmW r.words with
  | some w => if r.slot = .mv ∧ vmHbm r.words = true ∧ r.issue + 24 + r.strips ≤ s.fc ∧ r.strips < vmStrips w r then some w else none
  | none => none

/-- Replaces a command in flight. -/
def setRec (p : Nat) (r : CmdRec) (s : State) : State :=
  let c := s.core p
  s.setCore p { c with inflight := c.inflight.map (fun q => if q.ord == r.ord then r else q) }

/-- The stream's cycle (R84): HBM gives 128 bytes or it does not, which the spec leaves open. A cycle in which it does not is a MEM stall,
and only the MV slot pauses. -/
def mvCycle (p : Nat) (s : State) : State :=
  match (s.core p).inflight.find? (fun r => (streaming s r).isSome) with
  | none => s
  | some r =>
    match streaming s r with
    | none => s
    | some w =>
      let d := s.drawBool
      if d.1 then (setRec p { r with issue := r.issue + 1 } d.2).count (CORE_STALL_MEM_COUNT p) 1
      else stripArrives p r.words w r.strips (setRec p { r with strips := r.strips + 1 } d.2)

/-- The strips that have not arrived yet do, after `stall` cycles in which they were due and HBM gave nothing, and a refused one is
counted (R84, R110, R298, R317). -/
def finishStream (p stall : Nat) (r : CmdRec) (s : State) : State :=
  match vmW r.words with
  | some w =>
    if r.slot = .mv ∧ vmHbm r.words = true then
      let n := vmStrips w r
      let t := if r.strips < n then s.count (CORE_STALL_MEM_COUNT p) stall else s
      let t := (List.range (n - r.strips)).foldl (fun u i => stripArrives p r.words w (r.strips + i) u) t
      let x := stripAt (vmN r.words) (w.bytes (vmK r.words) / 128) n
      let a := cf r.words 2 0 64 + x.1 * w.bytes (vmK r.words) + 128 * x.2
      if r.code ≠ cVtWindow then t
      else if w.scaled && frameCode t false a 128 == 0 then
        noteRefused false (cf r.words 5 0 64 + x.1 * w.scaleBytes (vmK r.words) + 4 * x.2) 4 t
      else noteRefused false a 128 t
    else s
  | none => s

/-- MVM (R71, R107). -/
def mvm (p : Nat) (flt : Option EngFault) (s : State) : State :=
  issueCmd p opMvm (fun _ _ => .mv) noHold (checkMvm p) (mvmRun p flt) s

def execMvm (p : Fin 144) (flt : Option EngFault) (s : State) : Host.Outcome State Fault Refusal := .next (s.live (mvm p flt))

/-! MOVE. -/

/-- Fields of a MOVE (R71). -/
def mvSrc (c : Cmd) : Nat := cf c 1 0 64
def mvDst (c : Cmd) : Nat := cf c 2 0 64
def mvBytes (c : Cmd) : Nat := cf c 3 0 32

/-- Whether a global address lies in core `p`'s own store window on its own node (R65, R73). -/
def ownStore (p ga : Nat) (s : State) : Bool :=
  gaNode ga == s.node && decide (csOffset p 0 ≤ gaOff ga) && decide (gaOff ga < csOffset p 0 + 0x2000000)

/-- Local address of a global address in the own window. -/
def ownAddr (p ga : Nat) : Nat := gaOff ga - csOffset p 0

/-- Decode check of MOVE (R67, R71, R73). -/
def checkMove (p : Nat) (c : Cmd) (s : State) : Nat :=
  if !reservedClear c || mvBytes c % 8 != 0 || mvBytes c == 0 || decide (2 ^ 31 < mvBytes c) then cCmdIllegal
  else if !ownStore p (mvSrc c) s && !ownStore p (mvDst c) s then cCmdIllegal
  else if (ownStore p (mvSrc c) s && !csInside (ownAddr p (mvSrc c)) (mvBytes c)) ||
      (ownStore p (mvDst c) s && !csInside (ownAddr p (mvDst c)) (mvBytes c)) then cCmdBounds
  else 0

/-- MOVE (R73): 4 fc; its last cycle hands the transfer over. -/
def move (p : Nat) (s : State) : State :=
  issueCmd p opMove (fun _ _ => .dma) noHold (checkMove p) (fun c t => issue p (plainRec .dma c 4 1) t) s

def execMove (p : Fin 144) (s : State) : Host.Outcome State Fault Refusal := .next (s.live (move p))

/-- The pieces a transfer is cut into at the 2,048-byte boundaries of SRC and DST (R267): offset and length. -/
def cutMove (src dst : Nat) : Nat → Nat → Nat → List (Nat × Nat)
  | 0, _, _ => []
  | f + 1, off, left =>
    if left = 0 then []
    else
      let n := min left (min (2048 - (src + off) % 2048) (2048 - (dst + off) % 2048))
      (off, n) :: cutMove src dst f (off + n) (left - n)

/-- The check of R266 on a request of a MOVE. -/
def moveCheck (off n : Nat) : Nat :=
  if inRegs off then (if n ≠ 8 then cVtReg else if off % 8 = 0 then 0 else cVtAlign)
  else if off % 8 = 0 ∧ n % 8 = 0 then 0 else cVtAlign

/-- One request of a MOVE: a LOAD into the own store, or a STORE from it (R267). -/
def moveReq (p xid : Nat) (c : Cmd) (load : Bool) (lastPiece : Bool) (off n : Nat) (s : State) : State :=
  let k := p / 36
  let ga := (if load then mvSrc c else mvDst c) + off
  let cls := match s.plotOf p with | some i => (s.plots.getD i {}).cls | none => 0
  let h : Hdr := { kind := (if load then kLoad else kStore), cls := cls, key := s.get (CORE_PLOT_PKEY p),
                   offset := gaOff ga, size := n, flag := (if lastPiece then cf c 3 43 1 else 0),
                   flagG := (if lastPiece then cf c 3 44 1 else 0), dst := gaNode ga }
  let src := csOffset p (ownAddr p (mvSrc c) + off)
  let pkt : Packet := { h := h, data := (if load then [] else loadData s src n) }
  let land := if load then some (p, ownAddr p (mvDst c) + off) else none
  -- a poisoned source word travels as the error value and fails the transfer (R69, R275)
  let s := if !load && s.anyPoison src n then
      { (vtLast k cVtPoison (gaNode ga) (gaOff ga) s).raise (VT_IRQ_REFUSED k) with
        vt := { s.vt with xfers := s.vt.xfers.map (fun x => if x.xid == xid then { x with bad := true } else x) } }
    else s
  if moveCheck h.offset n ≠ 0 then refuseAtSource k (.move xid) pkt land (moveCheck h.offset n) s
  else vtIssue k h.dst (.move xid) pkt land s

/-- A MOVE's transfer after its commit (R267). -/
def startMove (p : Nat) (c : Cmd) (s : State) : State :=
  let load := !(ownStore p (mvSrc c) s)
  let pieces := cutMove (gaOff (mvSrc c)) (gaOff (mvDst c)) (mvBytes c) 0 (mvBytes c)
  let xid := s.vt.nextRid
  let x : Xfer := { xid := xid, core := p, en := cf c 3 42 1 == 1, ctr := cf c 3 32 10, inc := cf c 4 0 32, left := pieces.length }
  let t := { s with vt := { s.vt with nextRid := xid + 1, xfers := s.vt.xfers ++ [x] } }
  pieces.zipIdx.foldl (fun u q => moveReq p xid c load (q.2 + 1 == pieces.length) q.1.1 q.1.2 u) t

/-! Completion. -/

/-- COMMAND_COMPLETE (R64, R79): the command in a slot reaches its completion cycle, having read all its operands. A failed one halts
the list; else it commits, frees its slot and applies SIGEN. A WAIT completes only by its condition (R82). -/
def commandComplete (p : Nat) (sl : Slot) (stall : Nat) (s0 : State) : State :=
  match (s0.core p).inflight.find? (fun r => r.slot == sl) with
  | none => s0
  | some r0 =>
    let r := finishPass p s0 r0
    let s := finishStream p stall r s0
    if cOp r.words = opWait then completeWait p s
    else if r.code ≠ 0 then
      let t := clearBusy p sl (retire p r.ord s)
      if s.get (CORE_STATUS_STATE p) = stRunning then haltList p r.ord r.idx r.code (cTag r.words) t else t
    else
      let t := commitCmd p r s
      if cOp r.words = opMxm then
        let d := t.core p
        let side := mSide r.words
        t.setCore p (d.setChain side ((d.chain side).map (fun h => { h with done := some t.fc })))
      else if cOp r.words = opMove then startMove p r.words t
      else t

def execCommandComplete (p : Fin 144) (slot : Slot) (stall : Nat) (s : State) : Host.Outcome State Fault Refusal :=
  .next (s.live (commandComplete p slot stall))

end Sys2Proof.Machine
end

