-- ==== Sys2Proof/Machine/Vector.lean ====
section
/-!
DEFINITION. The vector engine's command VOP (03 R71, R75, R88; 04 R111 to R115) with the conversions of R52.
-/
namespace Sys2Proof.Machine

/-! Fields of a VOP (R71). -/
def vFunc (c : Cmd) : Nat := cf c 1 0 7
def vBcast (c : Cmd) : Bool := cf c 1 7 1 == 1
def vFmt (c : Cmd) : Option Format := Format.ofCode (cf c 1 8 4)
def vMode (c : Cmd) : Nat := cf c 1 12 3
def vN (c : Cmd) : Nat := cf c 1 16 25
def vSrc0 (c : Cmd) : Nat := cf c 2 0 32
def vSrc1 (c : Cmd) : Nat := cf c 2 32 32
def vSrc2 (c : Cmd) : Nat := cf c 3 0 32
def vDst (c : Cmd) : Nat := cf c 3 32 32

/-- The kinds of VX function (R112). -/
inductive VFun where
  | elem (fn : Nat) | rsum | rmax | rand
  | cvtTo (f : Option Format) | cvtFrom (f : Option Format)
  | reserved
deriving DecidableEq, Repr

/-- Classifies a FUNC code (R112). -/
def vfunOf (fn : Nat) : VFun :=
  if 1 ≤ fn ∧ fn ≤ 0x0F then .elem fn
  else if fn = 0x10 then .rsum
  else if fn = 0x11 then .rmax
  else if fn = 0x12 then .rand
  else if fn = 0x13 ∨ (0x20 ≤ fn ∧ fn ≤ 0x24) then .elem fn
  else if 0x40 ≤ fn ∧ fn < 0x50 then .cvtTo (Format.ofCode (fn - 0x40))
  else if 0x50 ≤ fn ∧ fn < 0x60 then .cvtFrom (Format.ofCode (fn - 0x50))
  else .reserved

/-- Whether a function reads SRC1 and SRC2 as elements (R112). -/
def readsSrc1 (fn : Nat) : Bool :=
  [0x01, 0x02, 0x03, 0x04, 0x05, 0x06, 0x09, 0x13, 0x20, 0x21, 0x22, 0x23, 0x24].contains fn
def readsSrc2 (fn : Nat) : Bool := fn == 0x04 || fn == 0x13

/-- FMT allowed for an element function (R112). -/
def fmtAllowed (fn : Nat) (f : Format) : Bool :=
  match f with
  | .f32 => decide (fn < 0x20)
  | .i32 => [0x01, 0x02, 0x03, 0x05, 0x06, 0x07, 0x08, 0x13, 0x20, 0x21, 0x22, 0x23, 0x24].contains fn
  | _ => false

/-- The CVT pairs (R112). -/
def cvtToAllowed (fmt f : Format) : Bool :=
  match fmt with
  | .f32 => [Format.f16, .w16, .f8v, .f8g, .f4, .i8, .u8, .i4, .u4, .i32, .t96].contains f
  | .i32 => [Format.f32, .i8, .u8, .i4, .u4].contains f
  | _ => false
def cvtFromAllowed (int : Bool) (fmt f : Format) : Bool :=
  match fmt with
  | .f32 => [Format.f16, .w16, .f8v, .f8g, .f4, .i8, .u8, .i4, .u4, .i32, .t96].contains f
  | .i32 => [Format.f32, .i8, .u8, .i4, .u4].contains f || (int && f == .t96)
  | _ => false

/-- Source byte ranges of a VOP: address and bytes of each array read, with whether it must be aligned (R67, R111); the single element
of BCAST must be, too (log entry 43). -/
def vReads (c : Cmd) : List (Nat × Nat × Bool) :=
  let n := vN c
  match vfunOf (vFunc c) with
  | .elem fn =>
    [(vSrc0 c, 4 * n, true)] ++
      (if readsSrc1 fn then [(vSrc1 c, if vBcast c then 4 else 4 * n, true)] else []) ++
      (if readsSrc2 fn then [(vSrc2 c, 4 * n, true)] else [])
  | .rsum => [(vSrc0 c, 4 * n, true)]
  | .rmax => [(vSrc0 c, 4 * n, true)]
  | .rand => []
  | .cvtTo _ => [(vSrc0 c, 4 * n, true)]
  | .cvtFrom (some f) =>
    [(vSrc0 c, f.bytes n, true)] ++ (if f.scaled then [(vSrc1 c, ceilDiv n 32, false)] else [])
  | _ => []

/-- Output byte ranges of a VOP. -/
def vWrites (c : Cmd) : List (Nat × Nat × Bool) :=
  let n := vN c
  match vfunOf (vFunc c) with
  | .rsum => [(vDst c, 4, true)]
  | .rmax => [(vDst c, 4, true)]
  | .cvtTo (some f) =>
    [(vDst c, f.bytes n, true)] ++ (if f.scaled then [(vSrc2 c, ceilDiv n 32, false)] else [])
  | _ => [(vDst c, 4 * n, true)]

/-- Whether the source fields a function does not use are zero (R111). -/
def vUnusedZero (c : Cmd) : Bool :=
  let z := fun (b0 b1 b2 : Bool) =>
    (b0 || vSrc0 c == 0) && (b1 || vSrc1 c == 0) && (b2 || vSrc2 c == 0)
  match vfunOf (vFunc c) with
  | .elem fn => z true (readsSrc1 fn) (readsSrc2 fn)
  | .rand => z false false false
  | .cvtTo (some f) => z true false f.scaled
  | .cvtFrom (some f) => z true f.scaled false
  | _ => z true false false

/-- Total of byte counts. -/
def sumBytes (l : List (Nat × Nat × Bool)) : Nat := l.foldl (fun a x => a + x.2.1) 0

/-- Decode check of VOP in the order of R74; then a fenced engine (R79). BCAST needs a function that reads SRC1 as elements, which a CVT
with scale bytes there is not (log entry 43). -/
def checkVop (p : Nat) (c : Cmd) (s : State) : Nat :=
  let k := vfunOf (vFunc c)
  let bad := !reservedClear c || 3 < vMode c || vN c == 0 || 16777216 < vN c || k == .reserved ||
    (vBcast c && !(match k with
      | .elem fn => readsSrc1 fn
      | _ => false)) || !vUnusedZero c
  let fmtOk := match vFmt c, k with
    | some f, .elem fn => fmtAllowed fn f
    | some f, .rsum => f == .f32 || f == .i32
    | some f, .rmax => f == .f32 || f == .i32
    | some f, .rand => f == .f32
    | some f, .cvtTo (some g) => cvtToAllowed f g
    | some f, .cvtFrom (some g) => cvtFromAllowed (s.isInt p) f g && (g != .t96 || vMode c == 0)
    | _, _ => false
  if bad then cCmdIllegal
  else if !fmtOk then cOpndFormat
  else if (vReads c ++ vWrites c).any (fun x => (x.2.2 && x.1 % 64 != 0) || !csInside x.1 x.2.1) ||
      decide (262144 < sumBytes (vWrites c)) then cCmdBounds
  else if s.engFenced p 5 then cEngineFenced
  else 0

/-- Element `i` of a 32-bit source. -/
def vElem (s : State) (p a i : Nat) : Nat := s.csRead p (a + 4 * i) 4

/-- Result of a VOP before its commit: bytes staged at DST and at the scale array, flags, TALLY_OVF, a malformed
scale byte, a residue mismatch. -/
structure VOut where
  writes : List (Nat × Byte) := []
  flags : Flags := {}
  ovf : Bool := false
  scaleBad : Bool := false
  resBad : Bool := false
deriving DecidableEq, Repr

/-- Collects element results. -/
def vCollect (c : Cmd) (f : Format) (rs : List Res32) : VOut :=
  { writes := stageBytes (vDst c) (packElems f (rs.map (·.1))), flags := rs.foldl (fun g r => g.or r.2) Flags.none }

/-- Conversion of one element to Tally-96 (R52): INEXACT when rounded, INVALID for a signalling NaN. -/
def cvtT96 (sh : Int) (v : Val) : Nat × Flags × Bool :=
  let t := Tally.ofVal sh v
  (t.1.slot, Tally.ofValFlags sh v, t.2)

/-- CVT to a format (R52, R112). -/
def cvtTo (p : Nat) (c : Cmd) (src f : Format) (s : State) : VOut :=
  let mode := vopMode (vMode c)
  let codes := (List.range (vN c)).map (vElem s p (vSrc0 c))
  let vals := codes.map (decodeElem src)
  if src = .i32 then
    if f = .f32 then vCollect c f (vals.map (encodeVal .f32 mode))
    else vCollect c f (codes.map (fun x =>
      let r := clampInt f.intRange.1 f.intRange.2 (signedOf x 32)
      (toBits r.1 f.bits, { invalid := r.2 })))
  else if f = .t96 then
    let rs := vals.map (cvtT96 (s.tallyShift p))
    { writes := stageBytes (vDst c) (rs.flatMap (fun r => toBytes 16 r.1)),
      flags := rs.foldl (fun g r => g.or r.2.1) Flags.none, ovf := rs.any (fun r => r.2.2) }
  else if f.isInt || f == .i32 then vCollect c f (vals.map (encodeInt f mode))
  else
    let r := encodeRow f (vals.map (fun v => (v, mode)))
    { writes := stageBytes (vDst c) (packElems f r.1) ++ stageBytes (vSrc2 c) (r.2.1.map (BitVec.ofNat 8)),
      flags := r.2.2 }

/-- CVT from a format (R52, R112). -/
def cvtFrom (p : Nat) (c : Cmd) (dst f : Format) (s : State) : VOut :=
  let mode := vopMode (vMode c)
  let n := vN c
  if f = .t96 then
    let ts := (List.range n).map (fun i => Tally.ofSlot (s.csRead p (vSrc0 c + 16 * i) 16))
    let es := ts.map (Tally.readElem (s.tallyShift p) dst .rne)
    { vCollect c dst (es.map (fun e => (e.code, e.flags))) with
      ovf := es.any (·.ovf), resBad := ts.any (fun t => !t.residueOk) }
  else
    match rowVals s p (vSrc0 c) (vSrc1 c) f n with
    | none => { scaleBad := true }
    | some vs =>
      if dst = .i32 then
        if f = .f32 then vCollect c dst (vs.map (encodeInt .i32 mode))
        else vCollect c dst (vs.map (fun v => ((encodeInt .i32 .rtz v).1, Flags.none)))
      else vCollect c dst (vs.map (encodeVal .f32 mode))

/-- The results of a VOP (R112 to R115): every input is read before the commit step (R111). -/
def vopCompute (p : Nat) (c : Cmd) (s : State) : VOut :=
  let n := vN c
  let mode := vopMode (vMode c)
  let e0 := vElem s p (vSrc0 c)
  let e1 := fun i => vElem s p (vSrc1 c) (if vBcast c then 0 else i)
  let e2 := vElem s p (vSrc2 c)
  let int := vFmt c == some .i32
  match vfunOf (vFunc c) with
  | .elem fn =>
    vCollect c .f32 ((List.range n).map (fun i =>
      if int then vxScalarInt fn (e0 i) (e1 i) (e2 i) else vxScalar32 fn mode (e0 i) (e1 i) (e2 i)))
  | .rsum => vCollect c .f32 [if int then rsumInt ((List.range n).map e0) else rsum32 mode n e0]
  | .rmax => vCollect c .f32 [if int then rmaxInt ((List.range n).map e0) else rmax32 ((List.range n).map e0)]
  | .rand =>
    vCollect c .f32 ((List.range n).map (fun i =>
      ((encodeVal .f32 .rne (.fin false (dsrBits (s.get (CORE_SEED_SEED p)) (cf c 4 0 24) i / 256) (-24))).1, Flags.none)))
  | .cvtTo (some f) => cvtTo p c ((vFmt c).getD .f32) f s
  | .cvtFrom (some f) => cvtFrom p c ((vFmt c).getD .f32) f s
  | _ => {}

/-- Cycles per element group (R112). -/
def vCpe (c : Cmd) : Nat :=
  match vfunOf (vFunc c) with
  | .elem fn => if 0x09 ≤ fn ∧ fn ≤ 0x0D then 4 else if fn = 0x0E ∨ fn = 0x0F then 6 else 1
  | .cvtTo (some f) => if f.scaled then 2 else 1
  | .cvtFrom (some f) => if f.scaled then 2 else 1
  | _ => 1

/-- Issues and executes a VOP (R75, R88, R111). -/
def vopRun (p : Nat) (flt : Option EngFault) (c : Cmd) (s : State) : State :=
  let o := vopCompute p c s
  let poison := (vReads c).any (fun x => s.anyPoison (csOffset p x.1) x.2.1)
  let out := ceilDiv (sumBytes (vWrites c)) 128
  let r := { plainRec .vx c (6 + max (ceilDiv (vN c) 256 * vCpe c) (ceilDiv (sumBytes (vReads c)) 256) + out) out with
    code := execCode flt o.resBad poison o.scaleBad, writes := o.writes, flags := o.flags, ovf := o.ovf }
  let t := fenceFault p flt (issue p r (s.set (VX_STATUS_BUSY p) 1))
  if o.resBad && flt.isNone then fenceEngine p 5 cResidueFault 0 t else t

/-- VOP (R112). -/
def vop (p : Nat) (flt : Option EngFault) (s : State) : State :=
  issueCmd p opVop (fun _ _ => .vx) noHold (checkVop p) (vopRun p flt) s

def execVop (p : Fin 144) (flt : Option EngFault) (s : State) : Host.Outcome State Fault Refusal :=
  .next (s.live (vop p flt))

end Sys2Proof.Machine
end

