-- ==== Sys2Proof/Machine/Dispatch.lean ====
section
/-!
DEFINITION. The command dispatch: one arm for each constructor of `Instr`.
-/
namespace Sys2Proof.Machine

/-- The effect of one command on everything but the queue. -/
def exec (i : Instr) (s : State) : Host.Outcome State Fault Refusal :=
  match i with
  | .nop p => Sys2Proof.Machine.execNop p s
  | .endList p => Sys2Proof.Machine.execEndList p s
  | .wait p => Sys2Proof.Machine.execWait p s
  | .waitTimeout p => Sys2Proof.Machine.execWaitTimeout p s
  | .ctrset p => Sys2Proof.Machine.execCtrset p s
  | .ctrcfg p => Sys2Proof.Machine.execCtrcfg p s
  | .mxm p flt => Sys2Proof.Machine.execMxm p flt s
  | .acrd p flt => Sys2Proof.Machine.execAcrd p flt s
  | .acsp p flt => Sys2Proof.Machine.execAcsp p flt s
  | .acfl p flt => Sys2Proof.Machine.execAcfl p flt s
  | .acz p => Sys2Proof.Machine.execAcz p s
  | .mvm p flt => Sys2Proof.Machine.execMvm p flt s
  | .vop p flt => Sys2Proof.Machine.execVop p flt s
  | .move p => Sys2Proof.Machine.execMove p s
  | .commandComplete p slot stall => Sys2Proof.Machine.execCommandComplete p slot stall s
  | .run p => Sys2Proof.Machine.execRun p s
  | .arm p => Sys2Proof.Machine.execArm p s
  | .listLaunch p => Sys2Proof.Machine.execListLaunch p s
  | .kill p => Sys2Proof.Machine.execKill p s
  | .killDone p => Sys2Proof.Machine.execKillDone p s
  | .resume p => Sys2Proof.Machine.execResume p s
  | .clear p => Sys2Proof.Machine.execClear p s
  | .coreTailWrite p v => Sys2Proof.Machine.execCoreTailWrite p v s
  | .coreArrWrite p ctr v => Sys2Proof.Machine.execCoreArrWrite p ctr v s
  | .csScrub p corrected uncorrectable => Sys2Proof.Machine.execCsScrub p corrected uncorrectable s
  | .csRowRepair p => Sys2Proof.Machine.execCsRowRepair p s
  | .winTailWrite k n v => Sys2Proof.Machine.execWinTailWrite k n v s
  | .route k => Sys2Proof.Machine.execRoute k s
  | .sample k => Sys2Proof.Machine.execSample k s
  | .winItem k stall => Sys2Proof.Machine.execWinItem k stall s
  | .winJobComplete k n => Sys2Proof.Machine.execWinJobComplete k n s
  | .winFlush k n => Sys2Proof.Machine.execWinFlush k n s
  | .thrTailWrite k n v => Sys2Proof.Machine.execThrTailWrite k n v s
  | .thrStep k n => Sys2Proof.Machine.execThrStep k n s
  | .triple k => Sys2Proof.Machine.execTriple k s
  | .endMarker k => Sys2Proof.Machine.execEndMarker k s
  | .forwardedRecord k => Sys2Proof.Machine.execForwardedRecord k s
  | .endOfStepToken k => Sys2Proof.Machine.execEndOfStepToken k s
  | .thrTimeout k n => Sys2Proof.Machine.execThrTimeout k n s
  | .cut k n => Sys2Proof.Machine.execCut k n s
  | .thrFlush k n => Sys2Proof.Machine.execThrFlush k n s
  | .thrTdclr k => Sys2Proof.Machine.execThrTdclr k s
  | .sowDispatch k n => Sys2Proof.Machine.execSowDispatch k n s
  | .manifestComplete k => Sys2Proof.Machine.execManifestComplete k s
  | .sowRowSend k stallIn stallMan stallTb => Sys2Proof.Machine.execSowRowSend k stallIn stallMan stallTb s
  | .landManifest j => Sys2Proof.Machine.execLandManifest j s
  | .landPiece j => Sys2Proof.Machine.execLandPiece j s
  | .sowTbTick k => Sys2Proof.Machine.execSowTbTick k s
  | .sowTbWrite k t v => Sys2Proof.Machine.execSowTbWrite k t v s
  | .sowCompletion k n => Sys2Proof.Machine.execSowCompletion k n s
  | .sowFlush k n => Sys2Proof.Machine.execSowFlush k n s
  | .glnTailWrite k comb n v => Sys2Proof.Machine.execGlnTailWrite k comb n v s
  | .returnJob k n => Sys2Proof.Machine.execReturnJob k n s
  | .returnBlockReady k j => Sys2Proof.Machine.execReturnBlockReady k j s
  | .returnRowSend k stall stallSrc => Sys2Proof.Machine.execReturnRowSend k stall stallSrc s
  | .glnReadyTimeout k j => Sys2Proof.Machine.execGlnReadyTimeout k j s
  | .combineOpen k => Sys2Proof.Machine.execCombineOpen k s
  | .retPiece j => Sys2Proof.Machine.execRetPiece j s
  | .retMarker j => Sys2Proof.Machine.execRetMarker j s
  | .readyNotice k => Sys2Proof.Machine.execReadyNotice k s
  | .combineToken k stall stallSrc => Sys2Proof.Machine.execCombineToken k stall stallSrc s
  | .glnTimeout k c => Sys2Proof.Machine.execGlnTimeout k c s
  | .glnFlush k comb n => Sys2Proof.Machine.execGlnFlush k comb n s
  | .colTailWrite k n v => Sys2Proof.Machine.execColTailWrite k n v s
  | .groupOpen n => Sys2Proof.Machine.execGroupOpen n s
  | .groupClose n => Sys2Proof.Machine.execGroupClose n s
  | .collOpening => Sys2Proof.Machine.execCollOpening s
  | .openVote j => Sys2Proof.Machine.execOpenVote j s
  | .closeVote j => Sys2Proof.Machine.execCloseVote j s
  | .abortVote j => Sys2Proof.Machine.execAbortVote j s
  | .go j => Sys2Proof.Machine.execGo j s
  | .collData j => Sys2Proof.Machine.execCollData j s
  | .switchResult j => Sys2Proof.Machine.execSwitchResult j s
  | .noctx j => Sys2Proof.Machine.execNoctx j s
  | .noctxRetry c j => Sys2Proof.Machine.execNoctxRetry c j s
  | .collReady c k => Sys2Proof.Machine.execCollReady c k s
  | .commit j => Sys2Proof.Machine.execCommit j s
  | .commitDone c => Sys2Proof.Machine.execCommitDone c s
  | .abortResult j => Sys2Proof.Machine.execAbortResult j s
  | .collDeadline c => Sys2Proof.Machine.execCollDeadline c s
  | .collGraceExpiry c => Sys2Proof.Machine.execCollGraceExpiry c s
  | .colFlush k n => Sys2Proof.Machine.execColFlush k n s
  | .portEnable n v => Sys2Proof.Machine.execPortEnable n v s
  | .prsntChange n asserted => Sys2Proof.Machine.execPrsntChange n asserted s
  | .prsntSettled n => Sys2Proof.Machine.execPrsntSettled n s
  | .trainingDone n tx rx => Sys2Proof.Machine.execTrainingDone n tx rx s
  | .trainingLimit n => Sys2Proof.Machine.execTrainingLimit n s
  | .hello n node port kind plane seen credN credX ts echo hold => Sys2Proof.Machine.execHello n node port kind plane seen credN credX ts echo hold s
  | .helloTick n => Sys2Proof.Machine.execHelloTick n s
  | .adv n units cnt caps => Sys2Proof.Machine.execAdv n units cnt caps s
  | .bye n => Sys2Proof.Machine.execBye n s
  | .frame n x seq len bs x2 seq2 crc => Sys2Proof.Machine.execFrame n x seq len bs x2 seq2 crc s
  | .linkAck n an ax cn cx => Sys2Proof.Machine.execLinkAck n an ax cn cx s
  | .ackTick n => Sys2Proof.Machine.execAckTick n s
  | .nak n x seq => Sys2Proof.Machine.execNak n x seq s
  | .laneLoss n lane => Sys2Proof.Machine.execLaneLoss n lane s
  | .laneErrorPeriod n errs pwr => Sys2Proof.Machine.execLaneErrorPeriod n errs pwr s
  | .lanemap n mapseq map width => Sys2Proof.Machine.execLanemap n mapseq map width s
  | .lanemapRepeat n => Sys2Proof.Machine.execLanemapRepeat n s
  | .mapsw n mapseq => Sys2Proof.Machine.execMapsw n mapseq s
  | .train n lane op => Sys2Proof.Machine.execTrain n lane op s
  | .retrainSoakEnd n lane pass => Sys2Proof.Machine.execRetrainSoakEnd n lane pass s
  | .ackLimitExpiry n => Sys2Proof.Machine.execAckLimitExpiry n s
  | .linkSilent n => Sys2Proof.Machine.execLinkSilent n s
  | .lossCause n => Sys2Proof.Machine.execLossCause n s
  | .holdExpiry n => Sys2Proof.Machine.execHoldExpiry n s
  | .load j => Sys2Proof.Machine.execLoad j s
  | .store j => Sys2Proof.Machine.execStore j s
  | .fetchAdd j => Sys2Proof.Machine.execFetchAdd j s
  | .cas j => Sys2Proof.Machine.execCas j s
  | .tallyAdd j => Sys2Proof.Machine.execTallyAdd j s
  | .loadRsp j => Sys2Proof.Machine.execLoadRsp j s
  | .atomicRsp j => Sys2Proof.Machine.execAtomicRsp j s
  | .vtAck j => Sys2Proof.Machine.execVtAck j s
  | .nack j => Sys2Proof.Machine.execNack j s
  | .close j => Sys2Proof.Machine.execClose j s
  | .notice j => Sys2Proof.Machine.execNotice j s
  | .noticeRepeat => Sys2Proof.Machine.execNoticeRepeat s
  | .packetRelay j => Sys2Proof.Machine.execPacketRelay j s
  | .flagGRelease k => Sys2Proof.Machine.execFlagGRelease k s
  | .rtoResend k node psn => Sys2Proof.Machine.execRtoResend k node psn s
  | .requestTimeout k node => Sys2Proof.Machine.execRequestTimeout k node s
  | .contextIdle k node => Sys2Proof.Machine.execContextIdle k node s
  | .epochRetire => Sys2Proof.Machine.execEpochRetire s
  | .headlandEnd => Sys2Proof.Machine.execHeadlandEnd s
  | .suppressHoldExpiry k e => Sys2Proof.Machine.execSuppressHoldExpiry k e s
  | .opLoad k sl v => Sys2Proof.Machine.execOpLoad k sl v s
  | .opStore k sl v => Sys2Proof.Machine.execOpStore k sl v s
  | .opAtomic k sl v => Sys2Proof.Machine.execOpAtomic k sl v s
  | .opComplete k sl => Sys2Proof.Machine.execOpComplete k sl s
  | .tierTailWrite k n v => Sys2Proof.Machine.execTierTailWrite k n v s
  | .alloc k n => Sys2Proof.Machine.execAlloc k n s
  | .free k n => Sys2Proof.Machine.execFree k n s
  | .fetch k n => Sys2Proof.Machine.execFetch k n s
  | .writeback k n => Sys2Proof.Machine.execWriteback k n s
  | .evict k n => Sys2Proof.Machine.execEvict k n s
  | .evictDrainDone k n stall => Sys2Proof.Machine.execEvictDrainDone k n stall s
  | .pin k n => Sys2Proof.Machine.execPin k n s
  | .unpin k n => Sys2Proof.Machine.execUnpin k n s
  | .siloUnitWritten k n => Sys2Proof.Machine.execSiloUnitWritten k n s
  | .fetchBudgetTick => Sys2Proof.Machine.execFetchBudgetTick s
  | .tierFbWrite tn v => Sys2Proof.Machine.execTierFbWrite tn v s
  | .tierFlush k n => Sys2Proof.Machine.execTierFlush k n s
  | .hbmRefresh j temp hot => Sys2Proof.Machine.execHbmRefresh j temp hot s
  | .hbmScrub j corrected uncorrectable => Sys2Proof.Machine.execHbmScrub j corrected uncorrectable s
  | .hbmRowRepair j row spare => Sys2Proof.Machine.execHbmRowRepair j row spare s
  | .rsvWindow => Sys2Proof.Machine.execRsvWindow s
  | .slotGrant => Sys2Proof.Machine.execSlotGrant s
  | .pageRead k n r rc stall => Sys2Proof.Machine.execPageRead k n r rc stall s
  | .pageProgram k n ok rc stall => Sys2Proof.Machine.execPageProgram k n ok rc stall s
  | .blockErase band ch ok => Sys2Proof.Machine.execBlockErase band ch ok s
  | .readDisturbRewrite band ch => Sys2Proof.Machine.execReadDisturbRewrite band ch s
  | .wearLevel band ch => Sys2Proof.Machine.execWearLevel band ch s
  | .channelFail c => Sys2Proof.Machine.execChannelFail c s
  | .siloLcLate k n => Sys2Proof.Machine.execSiloLcLate k n s
  | .modelLoad restage => Sys2Proof.Machine.execModelLoad restage s
  | .modelVerify => Sys2Proof.Machine.execModelVerify s
  | .modelStage => Sys2Proof.Machine.execModelStage s
  | .modelPlace reads => Sys2Proof.Machine.execModelPlace reads s
  | .modelUnload keep => Sys2Proof.Machine.execModelUnload keep s
  | .modelAbort => Sys2Proof.Machine.execModelAbort s
  | .doorbellQtail tn off width poisoned v => Sys2Proof.Machine.execDoorbellQtail tn off width poisoned v s
  | .doorbellOhead tn off width poisoned v => Sys2Proof.Machine.execDoorbellOhead tn off width poisoned v s
  | .servingIteration n outs => Sys2Proof.Machine.execServingIteration n outs s
  | .tenantDraining tn => Sys2Proof.Machine.execTenantDraining tn s
  | .preempt p base size tail => Sys2Proof.Machine.execPreempt p base size tail s
  | .almSyncEdge => Sys2Proof.Machine.execAlmSyncEdge s
  | .missedEdge => Sys2Proof.Machine.execMissedEdge s
  | .almNextWrite v => Sys2Proof.Machine.execAlmNextWrite v s
  | .almSyncWrite v => Sys2Proof.Machine.execAlmSyncWrite v s
  | .announce epoch => Sys2Proof.Machine.execAnnounce epoch s
  | .stage => Sys2Proof.Machine.execStage s
  | .modeCancel => Sys2Proof.Machine.execModeCancel s
  | .guardDeadline => Sys2Proof.Machine.execGuardDeadline s
  | .modeApply => Sys2Proof.Machine.execModeApply s
  | .modeWindowEnd => Sys2Proof.Machine.execModeWindowEnd s
  | .throttleOpen cause dies duty => Sys2Proof.Machine.execThrottleOpen cause dies duty s
  | .throttleClose => Sys2Proof.Machine.execThrottleClose s
  | .present => Sys2Proof.Machine.execPresent s
  | .imageCheck => Sys2Proof.Machine.execImageCheck s
  | .bar0Access off width v => Sys2Proof.Machine.execBar0Access off width v s
  | .bar4Read x n => Sys2Proof.Machine.execBar4Read x n s
  | .bar4Write x bytes poisoned => Sys2Proof.Machine.execBar4Write x bytes poisoned s
  | .bar4BaseWrite v => Sys2Proof.Machine.execBar4BaseWrite v s
  | .configAccess r v => Sys2Proof.Machine.execConfigAccess r v s
  | .pcieAtomicop => Sys2Proof.Machine.execPcieAtomicop s
  | .msixTrig v => Sys2Proof.Machine.execMsixTrig v s
  | .hostReadCompletion model c => Sys2Proof.Machine.execHostReadCompletion model c s
  | .completionTimeout model => Sys2Proof.Machine.execCompletionTimeout model s
  | .flr => Sys2Proof.Machine.execFlr s
  | .hotReset => Sys2Proof.Machine.execHotReset s
  | .perstN asserted => Sys2Proof.Machine.execPerstN asserted s
  | .pcieLinkDown => Sys2Proof.Machine.execPcieLinkDown s
  | .fenceReleaseEngine die sub => Sys2Proof.Machine.execFenceReleaseEngine die sub s
  | .fenceReleaseCore die sub => Sys2Proof.Machine.execFenceReleaseCore die sub s
  | .fenceReleaseDie die sub => Sys2Proof.Machine.execFenceReleaseDie die sub s
  | .fenceReleaseDone pass => Sys2Proof.Machine.execFenceReleaseDone pass s
  | .substitute phys => Sys2Proof.Machine.execSubstitute phys s
  | .substitutionStart => Sys2Proof.Machine.execSubstitutionStart s
  | .substitutionComplete pass => Sys2Proof.Machine.execSubstitutionComplete pass s
  | .unfreeze => Sys2Proof.Machine.execUnfreeze s
  | .bbCopyDone ok => Sys2Proof.Machine.execBbCopyDone ok s
  | .pnetParityFail k n again => Sys2Proof.Machine.execPnetParityFail k n again s
  | .watchdogExpiry die => Sys2Proof.Machine.execWatchdogExpiry die s
  | .clockLoss die => Sys2Proof.Machine.execClockLoss die s
  | .sensorFire sensors => Sys2Proof.Machine.execSensorFire sensors s
  | .jtagDebugRequest => Sys2Proof.Machine.execJtagDebugRequest s
  | .powerSample total mean dies margin => Sys2Proof.Machine.execPowerSample total mean dies margin s
  | .excursionDeadline => Sys2Proof.Machine.execExcursionDeadline s
  | .excursionEnd => Sys2Proof.Machine.execExcursionEnd s
  | .holdOffEnd => Sys2Proof.Machine.execHoldOffEnd s
  | .tempSample die temp => Sys2Proof.Machine.execTempSample die temp s
  | .railMonitor r mv amps std => Sys2Proof.Machine.execRailMonitor r mv amps std s
  | .tripPowerOff => Sys2Proof.Machine.execTripPowerOff s
  | .mainPgChange asserted => Sys2Proof.Machine.execMainPgChange asserted s
  | .pwrCmdDown v => Sys2Proof.Machine.execPwrCmdDown v s
  | .pwrMgtDutyWrite v => Sys2Proof.Machine.execPwrMgtDutyWrite v s
  | .pllLockLoss => Sys2Proof.Machine.execPllLockLoss s
  | .stbyPorN => Sys2Proof.Machine.execStbyPorN s
  | .resetN => Sys2Proof.Machine.execResetN s
  | .trstN => Sys2Proof.Machine.execTrstN s
  | .bringUpPhase e => Sys2Proof.Machine.execBringUpPhase e s
  | .telemetryFrame skipped => Sys2Proof.Machine.execTelemetryFrame skipped s
  | .entdaa addr => Sys2Proof.Machine.execEntdaa addr s
  | .smbusFallback addr => Sys2Proof.Machine.execSmbusFallback addr s
  | .mctpControl q r => Sys2Proof.Machine.execMctpControl q r s
  | .spdmRequest q r => Sys2Proof.Machine.execSpdmRequest q r s
  | .pldmSensorRead q id => Sys2Proof.Machine.execPldmSensorRead q id s
  | .platformEvent e delivered => Sys2Proof.Machine.execPlatformEvent e delivered s
  | .pldmFwUpdate q f => Sys2Proof.Machine.execPldmFwUpdate q f s
  | .getId q => Sys2Proof.Machine.execGetId q s
  | .getStatus q => Sys2Proof.Machine.execGetStatus q s
  | .readReg q addr n => Sys2Proof.Machine.execReadReg q addr n s
  | .writeReg q addr v => Sys2Proof.Machine.execWriteReg q addr v s
  | .telemRead q => Sys2Proof.Machine.execTelemRead q s
  | .bbRead q seq n => Sys2Proof.Machine.execBbRead q seq n s
  | .bbSlotRead q slot first n => Sys2Proof.Machine.execBbSlotRead q slot first n s
  | .bbUnfreeze q => Sys2Proof.Machine.execBbUnfreeze q s
  | .imgBegin q kind size => Sys2Proof.Machine.execImgBegin q kind size s
  | .imgData q off bytes => Sys2Proof.Machine.execImgData q off bytes s
  | .imgEnd q => Sys2Proof.Machine.execImgEnd q s
  | .getNonce q => Sys2Proof.Machine.execGetNonce q s
  | .provision q sig => Sys2Proof.Machine.execProvision q sig s
  | .deprovision q sig => Sys2Proof.Machine.execDeprovision q sig s
  | .reset q => Sys2Proof.Machine.execReset q s
  | .powerDown q => Sys2Proof.Machine.execPowerDown q s
  | .registerWrite a v => Sys2Proof.Machine.execRegisterWrite a v s
  | .blockSlot n => Sys2Proof.Machine.execBlockSlot n s
  | .alignBlock n => Sys2Proof.Machine.execAlignBlock n s
  | .controlBlockDiscard n w => Sys2Proof.Machine.execControlBlockDiscard n w s
  | .invalidPacket j => Sys2Proof.Machine.execInvalidPacket j s
  | .reservedOpcode p => Sys2Proof.Machine.execReservedOpcode p s
  | .busyResend k node psn => Sys2Proof.Machine.execBusyResend k node psn s
  | .pcieLinkUp speed width flit => Sys2Proof.Machine.execPcieLinkUp speed width flit s
  | .coreFault p => Sys2Proof.Machine.execCoreFault p s
  | .hbmInterfaceLoss j => Sys2Proof.Machine.execHbmInterfaceLoss j s
  | .scrubDone => Sys2Proof.Machine.execScrubDone s
  | .resetNRelease => Sys2Proof.Machine.execResetNRelease s
  | .standbyPowerLoss => Sys2Proof.Machine.execStandbyPowerLoss s

end Sys2Proof.Machine
end

