-- ==== Sys2Proof/Machine/Fetching.lean ====
section
/-!
DEFINITION. What routing-die firmware does for the experts that a step touches under STRICT (14_plots_and_tenants R365): it posts tier
commands, FETCH and PIN before the step's passes and UNPIN once its COMBINE is DONE. It acts when no command waits (log entry 56).
-/
namespace Sys2Proof.Machine

/-- The blocks of an expert in directory order, by INDEX (R337, R346). -/
def expertBlks (s : State) (layer expert : Nat) : List Nat :=
  (s.model.blocks.filter (fun m =>
    let e := dirEnt s.model.dir m.b
    e.kind == 1 && e.layer == layer && e.expert == expert)).map (fun m => m.index)

/-- The ring of engine `k` that an expert's commands go to: of the class charged, first the charged tenant's plot's. -/
def coldRing (s : State) (k : Nat) (x : ColdExp) : Option Nat :=
  ((plotOfTenant s x.tenant).toList ++ x.ring :: List.range 16).find? (fun n =>
    s.flag (TIER_PLOT_EN k n) && s.flag (TIER_PLOT_CLASS k n) == x.be && sizeOk (s.get (TIER_RING_SIZE_ENTRIES k n)) &&
      ringNext (tierRing k n) s (s.get (TIER_TAIL_TAIL k n)) != s.get (TIER_HEAD_HEAD k n))

/-- Words of a tier descriptor of firmware (R304); its record falls into the unused half of the ring entry at `a`. -/
def tierWords (op tenant handle off a : Nat) (s : State) : List Nat :=
  [8 + op * 2 ^ 4 + tenant * 2 ^ 8, handle, 0, off, s.node * 2 ^ 46 + a + 64, 0, 0, 0, 0, 0, 0, 0, 0, 0, 0, 0]

/-- Posts a command to ring `n` of engine `k` (R123, R304). -/
def postTier (k n op tenant handle off : Nat) (s : State) : State :=
  let i := s.get (TIER_TAIL_TAIL k n)
  let a := s.get (TIER_RING_BASE_BASE k n) * 128 + 128 * i
  tierTailWrite k n (BitVec.ofNat 64 (ringNext (tierRing k n) s i))
    (unitWrite (tierWho k n s) a (bytesOfWords (tierWords op tenant handle off a s)) s)

/-- Handle of the block at an INDEX. -/
def handleAt (s : State) (i : Nat) : Nat := handleOf i (blkAt s i).gen

/-- Frames that firmware has given to FETCHes not ended. -/
def coldFrames (s : State) : List (Nat × Nat) :=
  s.serv.cold.flatMap (fun x => match x.posted with | some p => (List.range p.2.2).map (fun j => (p.1, p.2.1 + j)) | none => [])

/-- The next act for an expert: the block at the head of its list is pinned where it is RESIDENT, fetched where it is ABSENT, and passed
where a FETCH of it has ended without that. -/
def coldNext (x : ColdExp) (s : State) : ColdExp × State :=
  match x.todo with
  | none => ({ x with todo := some (expertBlks s x.layer x.expert) }, s)
  | some [] => (x, s)
  | some (i :: rest) =>
    let k := i % 4
    let b := blkAt s i
    match coldRing s k x with
    | none => (x, s)
    | some n =>
      if b.st = bResident && !b.busy then
        ({ x with todo := some rest, posted := none, pins := x.pins ++ [i] }, postTier k n opPin x.tenant (handleAt s i) 0 s)
      else if x.posted.isSome then
        (if !b.busy && !ringHas (tierRing k n) s then { x with todo := some rest, posted := none } else x, s)
      else if b.st = bAbsent && !b.busy then
        match findRun s k (frameCount b.len) (coldFrames s) with
        | none => (x, s)
        | some p =>
          ({ x with posted := some (p.1, p.2, frameCount b.len) },
            postTier k n opFetch x.tenant (handleAt s i) (p.1 * stackSize + p.2 * frameSize) s)
      else (x, s)

/-- Takes one pin of an expert back whose step's COMBINE is DONE on all four dies. -/
def coldUnpin (x : ColdExp) (s : State) : ColdExp × State :=
  match x.pins with
  | [] => (x, s)
  | i :: rest =>
    match coldRing s (i % 4) x with
    | none => (x, s)
    | some n => ({ x with pins := rest }, postTier (i % 4) n opUnpin x.tenant (handleAt s i) 0 s)

/-- Whether an expert still has a block to fetch or pin. -/
def ColdExp.open (x : ColdExp) : Bool := match x.todo with | some t => !t.isEmpty | none => true

/-- Replaces the first entry that passes a test by what an act makes of it. -/
def coldAct (p : ColdExp → Bool) (f : ColdExp → State → ColdExp × State) (s : State) : State :=
  match s.serv.cold.findIdx? p with
  | none => s
  | some i =>
    match s.serv.cold[i]? with
    | none => s
    | some x =>
      let r := f x s
      { r.2 with serv := { r.2.serv with cold := r.2.serv.cold.set i r.1 } }

/-- The firmware of die `k` in one class: its touched experts one after another, in ascending expert index, each after the one before it
(R365). -/
def coldTurn (s : State) (q : Nat × Bool) : State :=
  coldAct (fun x => x.die == q.1 && x.be == q.2 && x.open) coldNext s

/-- Routing-die firmware's acts for touched experts: the next of each die and class, and the pins of steps that are DONE. -/
def coldTurns (s : State) : State :=
  if s.serv.cold.isEmpty then s
  else
    let t := ((List.range 4).flatMap (fun k => [(k, false), (k, true)])).foldl coldTurn s
    let t := coldAct (fun x => decide (4 ≤ x.done) && !x.open && !x.pins.isEmpty) coldUnpin t
    { t with serv := { t.serv with cold := t.serv.cold.filter (fun x => x.open || !x.pins.isEmpty || decide (x.done < 4)) } }

end Sys2Proof.Machine
end

