-- ==== Sys2Proof/Machine/Tick.lean ====
section
/-!
DEFINITION. One field cycle in which no command waits: the almanac counter advances (R373), logged throttle events gate cycles
(R388, R470), the cores and ports count the cycle (R84, R90, R258), accesses of HBM complete (R299), and routing-die firmware acts for
the experts that steps have touched (R365).
-/
namespace Sys2Proof.Machine

/-- Counts the gated cycles of a die and notes them in the events that cut it (R389, R482). -/
def gateDie (s : State) (d : Nat) : State :=
  let n := gatedNow s d
  if n = 0 then s
  else
    let t := s.count (CLK_DIE_GATED_COUNT d) n
    { t with pwr := { t.pwr with events := t.pwr.events.map (fun (e : ThrEvent) =>
      if e.cuts.any (fun c => c.die == d && c.duty != 0) then { e with last := some s.alm } else e) } }

/-- A pass's front moves on by a cycle, and with it the reads to come (R98). -/
def Pass.pause (x : Pass) : Pass := { x with f := x.f + 1 }

/-- The cycles that chaining compares with move on by one. -/
def Chain.pause (h : Chain) : Chain :=
  { h with next := h.next + 1, done := h.done.map (fun d => d + 1), front := h.front.map (fun f => { f with pass := f.pass.pause }) }

/-- Every slot of a core pauses for a cycle: its commands, waves and fronts, and the cycles that chaining compares with, move on by one
(R84, R89, R98). -/
def pauseCore (p : Nat) (s : State) : State :=
  let c := s.core p
  (s.count (CORE_STALL_THR_COUNT p) 1).setCore p
    { c with inflight := c.inflight.map (fun (r : CmdRec) => { r with issue := r.issue + 1, pass := r.pass.map Pass.pause })
             chainA := c.chainA.map Chain.pause, chainB := c.chainB.map Chain.pause }

/-- Whether the sequencer has no command that it may decode: the ring is empty, or the MXM at HEAD reached it late (R84, R99). -/
def listStall (p : Nat) (s : State) : Bool :=
  s.get (CORE_HEAD_HEAD p) == s.get (CORE_TAIL_TAIL p) ||
    (match headCmd p s with
     | some c => cOp c == opMxm && mxmLate p c s
     | none => false)

/-- A core's cycle as its counters take it: gated in any STATE but FENCED, else, while its list runs, waiting, short of commands (both,
where both hold; log entry 37), or active; a stream from HBM goes on in any of these (R84, R90). -/
def coreCycle (s : State) (p : Nat) : State :=
  if s.get (CORE_STATUS_STATE p) = stFenced then s
  else if gatedNow s (dieOfCore p) ≠ 0 then pauseCore p s
  else
    let u := mvCycle p s
    if s.get (CORE_STATUS_STATE p) ≠ stRunning then u
    else
      let w := (s.core p).inflight.any (fun r => cOp r.words == opWait)
      let l := listStall p s
      let t := if w then u.count (CORE_STALL_WAIT_COUNT p) 1 else u
      let t := if l then t.count (CORE_STALL_LIST_COUNT p) 1 else t
      if w || l then t else t.count (CORE_CYC_ACTIVE_COUNT p) 1

/-- A port's two rc (R258). -/
def portCycle (s : State) (n : Nat) : State := s.livePort n (fun t => credStall n (credStall n t))

/-- The cycle of the data plane. -/
def dataCycle (s : State) : State :=
  let t := (List.range 144).foldl coreCycle s
  let t := ((List.range 40).filter gateable).foldl gateDie t
  coldTurns ((List.range 8).foldl hbmCycle ((List.range 19).foldl portCycle t))

/-- The cores' arrays in a new cycle, but for those it gates. -/
def arraysCycle (s : State) : State :=
  (List.range 144).foldl (fun t p => if gatedNow t (dieOfCore p) = 0 then arrayCycle p t else t) s

/-- One field cycle with no command; the almanac counter runs from ALIGN on (R380). -/
def State.tick (s : State) : State :=
  let t := s.live dataCycle
  let t := if t.flag CLK_ALIGN_DONE && t.flag CLK_PLL_LOCKED then almAdvance 4 t else t
  { t with fc := s.fc + 1 }.live arraysCycle

end Sys2Proof.Machine
end

