-- ==== Sys2Proof/Safety.lean ====
section
/-!
DEFINITION. What counts as a safe step: it answers a next state. The parts into which State falls, and what it is for a part to
be left alone.
-/
namespace Sys2Proof.Machine

/-- The step answers a next state: it neither faults nor is refused. -/
def State.safe (s : State) : Prop := ∃ t, step s = .next t

/-- The parts of State beside the queue. -/
inductive Part where
  | fc | free | regs | mem | poison | accs | cores | coal | plots | subst | vt | links | wins | thrs | sows | glns | col | tiers
  | silo | model | hbms | sec | cfg | pci | serv | tim | pwr | rel | mgt
deriving DecidableEq, Repr

/-- Whether two states agree on a part. Memory is its listed bytes and what the unlisted ones read as. -/
def Part.same (s t : State) : Part → Prop
  | .fc => t.fc = s.fc
  | .free => t.free = s.free
  | .regs => t.regs = s.regs
  | .mem => t.mem = s.mem ∧ t.fills = s.fills
  | .poison => t.poison = s.poison
  | .accs => t.accs = s.accs
  | .cores => t.cores = s.cores
  | .coal => t.coal = s.coal
  | .plots => t.plots = s.plots
  | .subst => t.subst = s.subst
  | .vt => t.vt = s.vt
  | .links => t.links = s.links
  | .wins => t.wins = s.wins
  | .thrs => t.thrs = s.thrs
  | .sows => t.sows = s.sows
  | .glns => t.glns = s.glns
  | .col => t.col = s.col
  | .tiers => t.tiers = s.tiers
  | .silo => t.silo = s.silo
  | .model => t.model = s.model
  | .hbms => t.hbms = s.hbms
  | .sec => t.sec = s.sec
  | .cfg => t.cfg = s.cfg
  | .pci => t.pci = s.pci
  | .serv => t.serv = s.serv
  | .tim => t.tim = s.tim
  | .pwr => t.pwr = s.pwr
  | .rel => t.rel = s.rel
  | .mgt => t.mgt = s.mgt

/-- Two states agree on the queue and on every part that is not listed. -/
def State.onlyIn (ps : List Part) (s t : State) : Prop := t.pending = s.pending ∧ ∀ q, q ∉ ps → q.same s t

/-- Every register word outside a list is unchanged. -/
def RegsBut (as : List Nat) (s t : State) : Prop := ∀ a, a ∉ as → t.word a = s.word a

/-- The registers that writing a record changes beside the unit's own: MGT_COALESCE, MGT_BB and the black box (R443, R444). -/
def bbReg (a : Nat) : Bool :=
  a == mgtBase + 0x103028 || a == mgtBase + 0x103030 || (decide (mgtBase + 0x110000 ≤ a) && decide (a < mgtBase + 0x130000))

/-- Every register word outside a list and outside the black box is unchanged. -/
def RegsButBox (as : List Nat) (s t : State) : Prop := ∀ a, a ∉ as → bbReg a = false → t.word a = s.word a

/-- Every large table of State is in canonical form: equal contents are equal data. -/
structure State.Canon (s : State) : Prop where
  regs : Tab.wf regReset s.regs = true
  mem : Memory.wf s = true
  poison : Tab.wf noPoison s.poison = true
  accs : Tab.wf acc0 s.accs = true
  cores : Tab.wf coreHid0 s.cores = true

end Sys2Proof.Machine
end

