-- ==== Sys2Proof/WellFormed.lean ====
section
/-!
DEFINITION. Which commands are well formed: the bounds on operands that their types do not carry.
-/
namespace Sys2Proof

/-- Bytes of populated core store (R65). -/
def csBytes : Nat := 0x1800000

/-- Whether a command's operands are in range. -/
def Instr.wf : Instr → Bool
  | .csScrub _ c u => c.all (fun a => decide (a < csBytes)) && u.all (fun a => decide (a < csBytes))
  | _ => true

end Sys2Proof
end

