-- ==== Sys2Proof/Certificates/Slice0/Obligations.lean ====
section
/-!
DEFINITION. The statements for the provers, by chapter of the spec. `Does c s ps t` (Safety.lean) says that the command `c` answers
the next state `t` and that nothing outside the parts `ps` has changed; `RegsBut as s t` that no register word outside `as` has.
-/
namespace Sys2Proof.Machine

/-- A command answers the next state `t`, which agrees with the state before it on the queue and on every part that is not
listed. -/
def Does (c : Instr) (s : State) (ps : List Part) (t : State) : Prop := exec c s = .next t ∧ State.onlyIn ps s t

/-! What the statements say of a core's list. -/

/-- The data plane runs, and the next command of core `p`'s list is `c`, of opcode `op`, in the state `t` that has passed over the
commands that RESUME marked; it passes its decode check and its slot is free (R63, R74, R78). -/
structure MayIssue (p op : Nat) (c : Cmd) (s t : State) (sl : Slot) (check : Nat) : Prop where
  up : s.dataUp = true
  next : atHead p op s = some (c, t)
  legal : check = 0
  free : slotFree p sl c t = true

/-- From `t` to `u` core `p` has issued the command `c`: it is the last in flight, in its slot, with its cost and commit length,
and HEAD has moved past it (R63, R64). -/
def HasIssued (p : Nat) (c : Cmd) (t u : State) (sl : Slot) (cost commitLen : Nat) : Prop :=
  (∃ r, (u.core p).inflight = (t.core p).inflight ++ [r] ∧ r.words = c ∧ r.slot = sl ∧ r.issue = t.fc ∧ r.cost = cost ∧
    r.commitLen = commitLen) ∧
  u.get (CORE_HEAD_HEAD p) = (t.get (CORE_HEAD_HEAD p) + 1) % (t.core p).size % 2 ^ 17

/-- The list of core `p` has halted on a failing command (R79): STATE, CODE, TAG, RESUME.PC and the interrupt. -/
def HasHalted (p code tag pc : Nat) (u : State) : Prop :=
  u.get (CORE_STATUS_STATE p) = stHalted ∧ u.get (CORE_STATUS_CODE p) = code ∧ u.get (CORE_STATUS_TAG p) = tag ∧
  u.get (CORE_RESUME_PC p) = pc ∧ u.get (CORE_IRQ_HALTED p) = 1


/-- The ring registers of the five engines that take descriptors (R120, R123, R147). -/
def ringRegsOf : Instr → Option (RingRegs × Word)
  | .winTailWrite k n v => some (winRing k n, v)
  | .thrTailWrite k n v => some (thrRing k n, v)
  | .glnTailWrite k comb n v => some (glnRing comb k n, v)
  | .colTailWrite k n v => some (colRing k n, v)
  | .tierTailWrite k n v => some (tierRing k n, v)
  | _ => none

/-- Whether the load phase of a ROUTE job finds its bias bank and its mask (R127). -/
def winInputsOk (k : Nat) (j : WinJob) (s : State) : Prop :=
  let d := j.words
  let b := if wjBias d then winRead k j.ring (dw d 4 0 64 + wjBank d * 65536) (4 * wjE d) s else (0, [], s)
  let m := if wjMask d then winRead k j.ring (dw d 5 0 64) (ceilDiv (wjE d) 8) b.2.2 else (0, [], b.2.2)
  b.1 = 0 ∧ (wjBias d = true → (codes32 b.2.1 (wjE d)).any (fun c => !(f32v c).isFin) = false) ∧ m.1 = 0

/-- A routing unit's job of a ring has ended with a status: HEAD has passed it, and the interrupt and LAST say how (R143, R144). -/
def RingJobEnded (r : RingRegs) (done fail : Fld) (status : Nat) (s u : State) : Prop :=
  u.get r.head = ringNext r s (s.get r.head) ∧
  (status = 0 → u.get done = 1) ∧ (status ≠ 0 → u.get fail = 1 ∧ u.get r.lastCode = status % 2 ^ 16 ∧ u.get r.lastRing = r.ring)

/-- What holds of the engines' job tables in every state that a run reaches: a job names one of the sixteen rings, a RETURN job's
number is below the next, a COMBINE job names one of the eight contexts and has a number of its ring that is taken, and no two COMBINE
jobs of a die share a context, a TAG or a number; a collective names one of sixteen contexts and a ring, each its own, and one of 256 group contexts; a tier command names an engine and
a ring (R120, R189, R190, R203, R206, R304). -/
structure State.JobsOk (s : State) : Prop where
  steps : ∀ k : Fin 4, ∀ x ∈ (s.thr k).steps, x.ring < 16
  rets : ∀ k : Fin 4, ∀ j ∈ (s.gln k).rets, j.ring < 16 ∧ j.aid < (s.gln k).nextAid
  combs : ∀ k : Fin 4, ∀ j ∈ (s.gln k).combs, j.ctx < 8 ∧ j.ring < 16 ∧ j.ord < combOrd k j.ring s
  ords : ∀ k : Fin 4, ((s.gln k).combs.map (fun j => (j.ring, j.ord))).Nodup
  ctxs : ∀ k : Fin 4, ((s.gln k).combs.map (fun j => j.ctx)).Nodup
  tags : ∀ k : Fin 4, ((s.gln k).combs.map (fun j => cjTag j.words)).Nodup
  cols : ∀ j ∈ s.col.jobs, j.ctx < 16 ∧ j.ring < 16 ∧ j.g < 256
  colCtxs : (s.col.jobs.map (fun j => j.ctx)).Nodup
  colRings : (s.col.jobs.map (fun j => j.ring)).Nodup
  tiers : ∀ c ∈ s.tiers, c.k < 4 ∧ c.ring < 16

/-- The COMBINE job of a number of ring `n` has closed on all four dies that had it open, with a code where it failed (R195, R199). -/
def CombineEnded (n ord code : Nat) (s u : State) : Prop :=
  ∀ q : Fin 4, combCopy q n ord u = none ∧ ∀ j, combCopy q n ord s = some j →
    u.get (GLN_CTX_OPEN q j.ctx) = 0 ∧ combOf u q (cjTag j.words) = none ∧
    ((∀ i ∈ (u.gln q).combs, i.ring ≠ n) → u.get (GLN_CRSTAT_ACTIVE q n) = 0) ∧
    (code = 0 → u.get (GLN_IRQ_JOB_DONE q) = 1) ∧ (code ≠ 0 → u.get (GLN_IRQ_JOB_FAIL q) = 1 ∧ u.get (GLN_LAST_CODE q) = code)

/-- A collective has ended with a status on all four engines (R214, R229, R231): its context is free, its group's NEXT_SEQ has passed
it, the counters have counted it, and the engines that no fence holds show how it ended. -/
def CollectiveEnded (j : ColJob) (status : Nat) (indoubt : Bool) (s u : State) : Prop :=
  colAt u j.ctx = none ∧ ∀ k : Fin 4, u.get (COL_CTX_OPEN k j.ctx) = 0 ∧ u.get (COL_RSTAT_ACTIVE k j.ring) = 0 ∧
    u.get (COL_HEAD_HEAD k j.ring) = ringNext (colRing k j.ring) s (s.get (COL_HEAD_HEAD k j.ring)) ∧
    (j.inGroup = true → u.get (COL_GCTX_B_NEXT_SEQ k j.g) = (j.seq + 1) % 2 ^ 32) ∧
    (status = 0 → u.get (COL_DONE_CNT_COUNT k) = (s.get (COL_DONE_CNT_COUNT k) + 1) % 2 ^ 64) ∧
    (status ≠ 0 → u.get (COL_ABORT_CNT_COUNT k) = (s.get (COL_ABORT_CNT_COUNT k) + 1) % 2 ^ 64) ∧
    (s.dieFenced (16 + k) = false → (status = 0 → u.get (COL_IRQ_DONE k) = 1) ∧
      (status ≠ 0 → u.get (COL_IRQ_ABORT k) = 1 ∧ u.get (COL_LAST_STATUS k) = status % 2 ^ 16) ∧
      (indoubt = true → u.get (COL_IRQ_INDOUBT k) = 1))

/-- A received packet counts as applied in its pair's context: HORIZON is past its PSN or the PSN is marked (R271, R273). -/
def Applied (p : Packet) (u : State) : Prop := ∃ c, recvCtx u p.h.stream p.h.src = some c ∧ c.has p.h.psn = true

/-- A packet of the own node has been answered: an answer of a kind, with the packet's PSN, waits to be processed. To another node it is
on a port of the spray set, a free choice (R271, R273, R275; log entry 14). -/
def Answered (p : Packet) (kind status : Nat) (data : List Byte) (res : Nat) (u : State) : Prop :=
  p.h.src = u.node → p.h.src ∉ u.vt.down → ∃ q, (Via.own, q) ∈ u.vt.recv ∧ q.h.kind = kind ∧ q.h.psn = p.h.psn ∧
    q.h.status = status ∧ q.data = data ∧ q.h.operand = res

/-- The command `d` is next in ring `n` of tier engine `k`, well formed; `t` is the state once its descriptor has been read (R304). -/
structure TierNext (k n : Nat) (d : List Nat) (s t : State) : Prop where
  up : s.dataUp = true
  enabled : s.flag (TIER_CTRL_ENABLE k) = true
  idle : tierCmd s k n = none
  posted : ringHas (tierRing k n) s = true
  read : readDescr (tierWho k n s) (tierRing k n) (s.get (TIER_HEAD_HEAD k n)) s = (some d, t)
  legal : tierDescOk d t = true

/-- The state in which a command of ring `n` of engine `k` has read entry `i` of the block table (R296, R302, R310). -/
def entryRead (k n i : Nat) (t : State) : State := btRead (tierCons k (t.flag (TIER_PLOT_CLASS k n))) i t

/-- No word of a range of HBM has an error that no read has found yet (R296). -/
def Sound (a n : Nat) (s : State) : Prop := ∀ m, flipsIn m a n s = []

/-- Entry `i` of the block table lies in HBM, can be read, and the completion record of `d` is not written over it. -/
def EntryApart (d : List Nat) (i : Nat) (t : State) : Prop :=
  btDead t i = false ∧ btAddr t i + 64 ≤ hbmSize ∧
  (gaOff (tdCompl d) + 64 ≤ btAddr t i ∨ btAddr t i + 64 ≤ gaOff (tdCompl d))

/-- The handle of `d` names the block `b` of engine `k` (R301, R302). -/
def TierNames (k : Nat) (d : List Nat) (b : Blk) (t : State) : Prop :=
  let i := tdHandle d % 2 ^ 20
  i % 4 = k ∧ i < t.get (TIER_BT_SIZE_ENTRIES k) ∧ EntryApart d i t ∧ b = blkAt t i ∧ b.gen = tdHandle d / 2 ^ 20 ∧
  (b.kind = bkWeight ∨ b.tenant = tdTenant d)

/-- A block's units and frames are words of the eight stacks. -/
def Blk.InHbm (b : Blk) : Prop := b.off + b.len * unitBytes ≤ hbmSize ∧ ∀ f ∈ blkFrames b.off b.len, f.1 < 8 ∧ f.2 < 32768

/-- From `v` to `u` the command `d` of ring `n` has ended with a status (R315, R318): nothing of it is in progress, HEAD has passed
it, the interrupt and TIER_LAST say how, and the completion record, where it may be written, holds the status. -/
def TierEnded (k n : Nat) (d : List Nat) (status : Nat) (v u : State) : Prop :=
  tierCmd u k n = none ∧ u.get (TIER_RSTAT_ACTIVE k n) = 0 ∧
  u.get (TIER_HEAD_HEAD k n) = ringNext (tierRing k n) v (v.get (TIER_HEAD_HEAD k n)) ∧
  (status = 0 → u.get (TIER_IRQ_JOB_DONE k) = 1) ∧
  (status ≠ 0 → u.get (TIER_IRQ_JOB_FAIL k) = 1 ∧ u.get (TIER_LAST_CODE k) = status ∧ u.get (TIER_LAST_RING k) = n) ∧
  (gaNode (tdCompl d) = u.node → (tdDone d).ok u = true →
    accessCode u k (u.get (TIER_PLOT_PKEY k n)) pW (gaOff (tdCompl d)) 64 = 0 → u.readLE (gaOff (tdCompl d)) 2 = status)

/-- The frames of a block are in a state (R298). -/
def FramesAre (off len st : Nat) (u : State) : Prop := ∀ f ∈ blkFrames off len, u.get (HBM_FRAME_A_STATE f.1 f.2) = st

/-- A load of a model image has failed with a code: the state is EMPTY, nothing of the load is left, and the key is erased (R341). -/
def ModelFailed (code : Nat) (u : State) : Prop :=
  modelSt u = mEmpty ∧ u.get (TIER_MODEL_STATUS_CODE 0) = code ∧ u.get (TIER_MODEL_IRQ_FAIL 0) = 1 ∧ u.model.key = none ∧
  u.model.blocks = [] ∧ u.pci.modRead = none ∧ u.get SEC_STATE_MODEL_KEY = 0

/-- The host read of the first shard of a list, where there is one, lies in a DMA window and the link is up (R343, R421). -/
def ShardReadable (todo : List (Nat × Nat)) (m : ModelState) (s : State) : Prop :=
  ∀ b j rest, todo = (b, j) :: rest → dmaRefusal s
    ((s.get (TIER_MODEL_SRC_ADDR 0) + (mhPayload m.hdr + 65536 * ((dirEnt m.dir b).unit + 16 * j))) % 2 ^ 64)
    (65536 * shardUnits (dirEnt m.dir b).len j) = 0

/-- Core `p` has been cleared and runs the ring that pre-emption gave it (R369). -/
def RingRuns (p : Nat) (base size tail : Word) (s u : State) : Prop :=
  u.get (CORE_STATUS_STATE p) = stRunning ∧ (u.core p).base = 64 * (CORE_RING_BASE_BASE p).of base ∧
  (u.core p).size = (CORE_RING_SIZE_ENTRIES p).of size ∧ u.get (CORE_HEAD_HEAD p) = s.get (CORE_HEAD_HEAD p) ∧
  ((CORE_TAIL_TAIL p).of tail < (CORE_RING_SIZE_ENTRIES p).of size → (CORE_TAIL_TAIL p).of tail ≠ s.get (CORE_HEAD_HEAD p) →
    u.get (CORE_TAIL_TAIL p) = (CORE_TAIL_TAIL p).of tail)

/-- The host port after a reset (R424): its configuration space and apertures stand as at reset, and no read of the part is in
flight. -/
def PortReset (u : State) : Prop :=
  u.pci.command = 0 ∧ u.pci.bars = [] ∧ u.pci.msixEn = false ∧ u.pci.power = 0 ∧ u.pci.imgRead = none ∧ u.pci.modRead = none ∧
  u.word PCI_BAR4_BASE.addr = regReset PCI_BAR4_BASE.addr ∧ u.word PCI_IRQ_EN_EN.addr = regReset PCI_IRQ_EN_EN.addr ∧
  ∀ w : Fin 4, u.word (PCI_DMA_WIN_A_EN w).addr = regReset (PCI_DMA_WIN_A_EN w).addr

/-- The part is fenced in `u`; where it was not in `s`, the black box froze, the host sees its link down, the cipher units have lost
their keys and, with no model load reading from the host, every core stands FENCED (R19, R20, R424, R445, R458). -/
def PartFenced (s u : State) : Prop :=
  u.partFenced = true ∧ (s.partFenced = false → u.get MGT_BB_FROZEN = 1 ∧ u.get PCI_LINK_SPEED = 0 ∧ u.get SEC_STATE_MODEL_KEY = 0 ∧
    u.sec.transport = false ∧ (s.pci.modRead = none → ∀ p : Fin 144, u.get (CORE_STATUS_STATE p) = stFenced))

/-- Die `d` is fenced in `u` (R430, R431): a compute die's cores stand FENCED, a link die's ports are not UP; a routing die, HM and SE
have no fence of their own, and the part is fenced. -/
def DieFenced (d : Nat) (s u : State) : Prop :=
  ((16 ≤ d ∧ d < 20) ∨ 38 ≤ d → PartFenced s u) ∧
  (d < 16 ∨ (20 ≤ d ∧ d < 38) → u.dieFenced d = true ∧ (d < 16 → ∀ i : Fin 9, u.get (CORE_STATUS_STATE (9 * d + i.val)) = stFenced) ∧
    (s.partFenced = false → ∀ n ∈ portsOfDie d, vlState u n ≠ vlUp))

/-- The parts that a fence of the part can change. -/
def fenceParts : List Part := [.free, .regs, .mem, .poison, .cores, .coal, .vt, .links, .silo, .model, .hbms, .sec, .pci]

/-- The main rails are off (R94, R478): every register but those held on the sideband stands at reset, memory, accumulators and the cores' state are
lost, the model key is erased, and the part stands in STANDBY, no longer ready. -/
def MainOff (u : State) : Prop :=
  (∀ a, regSideband a = false → u.word a = regReset a) ∧ u.mem = [] ∧ u.fills = [] ∧ u.poison = [] ∧ u.accs = [] ∧ u.cores = [] ∧
  u.model = {} ∧ u.sec.transport = false ∧ u.get SEC_STATE_MODEL_KEY = 0 ∧ u.get PWR_STATUS_MAIN_EN = 0 ∧
  u.get PWR_STATUS_PHASE = 2 ∧ u.get PCI_STATUS_READY = 0

/-- The parts that taking the main rails off can change. -/
def mainParts : List Part :=
  [.free, .regs, .mem, .poison, .accs, .cores, .coal, .plots, .vt, .links, .wins, .thrs, .sows, .glns, .col, .tiers, .silo, .model,
    .hbms, .sec, .pci, .serv, .rel]

/-- The part is as after reset (R11, R476, R479) but for the register words `kept`: KEY_EPOCH, the sealed DMK, the pin PERST_N, the flash,
where no update is writing it, and the queue stay. -/
def AsReset (kept : Nat → Bool) (s u : State) : Prop :=
  (∀ a, kept a = false → a ≠ SEC_STATE_KEY_EPOCH.addr → u.word a = regReset a) ∧
  u.get SEC_STATE_KEY_EPOCH = s.get SEC_STATE_KEY_EPOCH ∧ u.mem = [] ∧ u.fills = [] ∧ u.cores = [] ∧ u.accs = [] ∧
  u.sec.dmk = s.sec.dmk ∧ u.sec.dik = none ∧ u.pci.perst = s.pci.perst ∧ u.pending = s.pending ∧
  (s.get MGT_FWUP_STATE ≠ 4 → u.cfg.flash = s.cfg.flash)

/-- What RESET_N leaves (R476): the black-box ring, MGT_BB.SEQ, the throttle log and ALM_THR_SEQ. -/
def resetKeeps (a : Nat) : Bool := keptByReset a || a == MGT_BB_SEQ.addr

/-- A phase of bring-up may end: the part is powered, out of reset, unfenced, in that phase, and has not stopped (R477). -/
def MayEnd (e : PhaseEnd) (s : State) : Prop :=
  s.pwr.unpowered = false ∧ s.pwr.inReset = false ∧ s.partFenced = false ∧ s.get PWR_STATUS_PHASE = phaseOf e ∧
  s.get PWR_STATUS_CODE = 0

/-- The request that an MCTP control, SPDM or PLDM command carries (R484). -/
def requestOf : Instr → Option MgtReq
  | .mctpControl q _ => some q
  | .spdmRequest q _ => some q
  | .pldmSensorRead q _ => some q
  | .pldmFwUpdate q _ => some q
  | _ => none

/-- The command code and the request of a Renrel command (R486). -/
def renrelOf : Instr → Option (Nat × MgtReq)
  | .getId q => some (0x01, q)
  | .getStatus q => some (0x02, q)
  | .readReg q _ _ => some (0x03, q)
  | .writeReg q _ _ => some (0x04, q)
  | .telemRead q => some (0x05, q)
  | .bbRead q _ _ => some (0x10, q)
  | .bbSlotRead q _ _ _ => some (0x11, q)
  | .bbUnfreeze q => some (0x12, q)
  | .imgBegin q _ _ => some (0x20, q)
  | .imgData q _ _ => some (0x21, q)
  | .imgEnd q => some (0x22, q)
  | .getNonce q => some (0x30, q)
  | .provision q _ => some (0x31, q)
  | .deprovision q _ => some (0x32, q)
  | .reset q => some (0x40, q)
  | .powerDown q => some (0x41, q)
  | _ => none

/-- The management port runs and takes the request: its transaction is good, fewer than 8 wait and it is well formed (R483 to R485). -/
structure Taken (q : MgtReq) (s : State) : Prop where
  up : mgtUp s = true
  bus : q.bus = true
  room : q.waiting < 8
  good : q.good = true

/-- A Renrel command has been answered with a status and a payload, and counted (R486, R493). -/
def RenrelAnswered (cmd : Nat) (q : MgtReq) (status : Nat) (payload : List Byte) (s u : State) : Prop :=
  u.mgt.rsp = some (.renrel cmd q.rseq.toNat status payload) ∧
  (status = 0 → u.get MGT_CMD_CNT_DONE = min (s.get MGT_CMD_CNT_DONE + 1) (2 ^ 32 - 1)) ∧
  (status ≠ 0 → u.get MGT_CMD_CNT_REFUSED = min (s.get MGT_CMD_CNT_REFUSED + 1) (2 ^ 32 - 1))

/-- A Renrel command is refused with a code of R485, and changes nothing but the counter and MGT_LAST. -/
def RenrelRefuses (c : Instr) (cmd : Nat) (q : MgtReq) (code : Nat) (s : State) : Prop :=
  ∃ u, Does c s [.regs, .mgt] u ∧ RegsBut [MGT_CMD_CNT_DONE.addr, MGT_LAST_CODE.addr] s u ∧ RenrelAnswered cmd q code [] s u ∧
    u.get MGT_LAST_CODE = code ∧ u.get MGT_LAST_CMD = cmd

/-- A Renrel command answers a payload and changes nothing but the counter. -/
def RenrelReads (c : Instr) (cmd : Nat) (q : MgtReq) (payload : List Byte) (s : State) : Prop :=
  ∃ u, Does c s [.regs, .mgt] u ∧ RegsBut [MGT_CMD_CNT_DONE.addr] s u ∧ RenrelAnswered cmd q 0 payload s u

end Sys2Proof.Machine

open Sys2Proof Sys2Proof.Machine

/-! The block's step. -/

/-- A step with a command at the front of the queue is that command's effect on the state with the queue's rest. -/
def Obligations.StepRunsFrontCommand : Prop :=
  ∀ (c : Instr) (cs : List Instr) (s : State), s.pending = c :: cs → step s = exec c { s with pending := cs }

/-- Every command answers a next state and leaves the queue as it finds it: no rule of the spec stops the block (R12, R506). -/
def Obligations.EveryCommandAnswersAndKeepsQueue : Prop :=
  ∀ (c : Instr) (s : State), ∃ t, exec c s = .next t ∧ t.pending = s.pending

/-- The memories, the register file, the poison marks, the accumulators and the cores' hidden state keep their canonical form
through every step, so that equal contents are equal states. -/
def Obligations.StepKeepsCanonicalForm : Prop :=
  ∀ s t : State, s.Canon → step s = .next t → t.Canon

/-- Reset has the canonical form, an empty queue, no byte of memory other than zero and every register at its reset value. That memory
reads zero before it is written is the model's choice (log entry 8). -/
def Obligations.ResetIsCanonical : Prop :=
  State.reset.Canon ∧ State.reset.pending = [] ∧ (∀ a, State.reset.byte a = 0) ∧ ∀ a, State.reset.word a = regReset a

/-- The engines' job tables stay in range: at reset, and from every state in which they are, after any step. -/
def Obligations.StepKeepsJobsInRange : Prop :=
  State.reset.JobsOk ∧ ∀ s t : State, s.JobsOk → step s = .next t → t.JobsOk

/-! Cores (03_cores_and_command_lists, 04_matrix_engines). -/

/-- NOP, CTRSET, CTRCFG and MOVE issue into their slots with the costs and commit lengths of R88, and only CORE_HEAD changes among
the registers: memory and accumulators wait for the commit step (R64, R75). WAIT holds its slot while its condition is false and
completes at once when it is true (R82), and END ends the list with STATE DONE and its interrupt (R71). -/
def Obligations.ControlCommandsIssueAndEnd : Prop :=
  (∀ (p : Fin 144) (c : Cmd) (s t : State),
    (MayIssue p opNop c s t .ctl (checkNop c t) → ∃ u, Does (.nop p) s [.regs, .cores] u ∧
      RegsBut [(CORE_HEAD_HEAD p).addr] s u ∧ HasIssued p c t u .ctl 1 1) ∧
    (MayIssue p opCtrset c s t .ctl (checkCtrset p c t) → ∃ u, Does (.ctrset p) s [.regs, .cores] u ∧
      RegsBut [(CORE_HEAD_HEAD p).addr] s u ∧ HasIssued p c t u .ctl 1 1) ∧
    (MayIssue p opCtrcfg c s t .ctl (checkCtrcfg c t) → ∃ u, Does (.ctrcfg p) s [.regs, .cores] u ∧
      RegsBut [(CORE_HEAD_HEAD p).addr] s u ∧ HasIssued p c t u .ctl (2 + ceilDiv (cf c 1 11 14) 512) 1) ∧
    (MayIssue p opMove c s t .dma (checkMove p c t) → ∃ u, Does (.move p) s [.regs, .cores] u ∧
      RegsBut [(CORE_HEAD_HEAD p).addr] s u ∧ HasIssued p c t u .dma 4 1)) ∧
  (∀ (p : Fin 144) (c : Cmd) (s t : State),
    (MayIssue p opWait c s t .ctl (checkWait c t) → waitHolds p c t = false → ∃ u, Does (.wait p) s [.regs, .cores, .coal] u ∧
      RegsBut [(CORE_HEAD_HEAD p).addr] s u ∧ HasIssued p c t u .ctl 1 1) ∧
    (MayIssue p opWait c s t .ctl (checkWait c t) → waitHolds p c t = true → (∀ r ∈ (t.core p).inflight, r.ord < (t.core p).nextOrd) →
      ∃ u, Does (.wait p) s [.regs, .cores, .coal] u ∧ (u.core p).inflight = (t.core p).inflight ∧
        u.get (CORE_HEAD_HEAD p) = (t.get (CORE_HEAD_HEAD p) + 1) % (t.core p).size % 2 ^ 17) ∧
    (MayIssue p opEnd c s t .ctl (checkNop c t) → ∃ u, Does (.endList p) s [.regs, .cores, .coal] u ∧
      u.get (CORE_STATUS_STATE p) = stDone ∧ u.get (CORE_IRQ_DONE p) = 1 ∧
      u.get (CORE_HEAD_HEAD p) = (t.get (CORE_HEAD_HEAD p) + 1) % (t.core p).size % 2 ^ 17))

/-- A WAIT whose limit passes with its condition false, and a reserved opcode, halt the list with their codes (R71, R79, R82); a core fault
leaves the core FENCED with its record and interrupt (R20, R430). -/
def Obligations.FailedCommandsHaltTheList : Prop :=
  ∀ (p : Fin 144) (s : State), s.dataUp = true →
    (∀ r, (s.core p).inflight.find? (fun r => cOp r.words == opWait) = some r → waitHolds p r.words s = false →
      ∃ u, Does (.waitTimeout p) s [.regs, .cores, .coal] u ∧ HasHalted p cWaitTimeout (cTag r.words) (r.idx % 2 ^ 17) u) ∧
    (∀ c, headCmd p (skipAhead p 8 s) = some c → opcodes.contains (cOp c) = false →
      ∃ u, Does (.reservedOpcode p) s [.regs, .cores] u ∧
        HasHalted p cCmdIllegal (cTag c) ((skipAhead p 8 s).get (CORE_HEAD_HEAD p)) u) ∧
    (∃ u, Does (.coreFault p) s [.regs, .cores] u ∧ u.get (CORE_STATUS_STATE p) = stFenced ∧ u.get (CORE_IRQ_FENCED p) = 1 ∧
      (s.word (coreErr p) = 0 → (u.word (coreErr p)).toNat % 2 ^ 16 = cCoreFault))

/-- Every array, vector and matrix-vector command issues into its slot with the cost and the commit length of R62 and R88, and until its
commit step neither memory nor an accumulator changes (R64, R75). An MR command that finds accumulators with mismatching residues fences
every array that holds one (R54). An MVM from HBM may find words that no longer check, which its stream corrects or poisons (R296). -/
def Obligations.EngineCommandsIssue : Prop :=
  ∀ (p : Fin 144) (c : Cmd) (s t : State),
    (MayIssue p opMxm c s t (mpSlot c t) (checkMxm p c t) → mxmLate p c t = false → ∃ u, Does (.mxm p none) s [.regs, .cores] u ∧
      HasIssued p c t u (mpSlot c t) (mxmCost (t.sideCount p) (mxmChained p c t) c) 1) ∧
    (MayIssue p opAcrd c s t (mrSlot c t) (checkAcrd p c t) → mxmBusy p c t = false →
      ∀ f, Format.ofCode (cf c 1 4 4) = some f →
      (∀ a ∈ arraysOf p c (rowBad p c t) t, ∃ u, Does (.acrd p none) s [.regs, .cores] u ∧ u.engFenced p a = true) ∧
      (arraysOf p c (rowBad p c t) t = [] → ∃ u, Does (.acrd p none) s [.regs, .cores] u ∧
      HasIssued p c t u (mrSlot c t)
        (8 + ceilDiv (aRows c * aCols c) 256 + ceilDiv (aRows c * (acrdRowBytes c f + acrdScaleBytes c f)) (if t.isP2 p then 128 else 256))
        (ceilDiv (aRows c * (acrdRowBytes c f + acrdScaleBytes c f)) (if t.isP2 p then 128 else 256)))) ∧
    (MayIssue p opAcsp c s t (mrSlot c t) (checkSpill true p c t) → mxmBusy p c t = false →
      (∀ a ∈ arraysOf p c (rowBad p c t) t, ∃ u, Does (.acsp p none) s [.regs, .cores] u ∧ u.engFenced p a = true) ∧
      (arraysOf p c (rowBad p c t) t = [] → ∃ u, Does (.acsp p none) s [.regs, .cores] u ∧
      HasIssued p c t u (mrSlot c t)
        (8 + ceilDiv (aRows c * aCols c) 256 + ceilDiv (16 * (aRows c * aCols c)) (if t.isP2 p then 128 else 256))
        (ceilDiv (16 * (aRows c * aCols c)) (if t.isP2 p then 128 else 256)))) ∧
    (MayIssue p opAcfl c s t (mrSlot c t) (checkSpill false p c t) → mxmBusy p c t = false →
      let bad := arraysOf p c (fun r => (acflRow p c t r).any (fun x => !x.2.residueOk)) t
      (∀ a ∈ bad, ∃ u, Does (.acfl p none) s [.regs, .cores] u ∧ u.engFenced p a = true) ∧
      (bad = [] → ∃ u, Does (.acfl p none) s [.regs, .cores] u ∧
      HasIssued p c t u (mrSlot c t) (9 + ceilDiv (16 * (aRows c * aCols c)) (if t.isP2 p then 256 else 512)) 1)) ∧
    (MayIssue p opAcz c s t (mrSlot c t) (checkAcz p c t) → mxmBusy p c t = false → ∃ u, Does (.acz p) s [.regs, .cores] u ∧
      RegsBut [(CORE_HEAD_HEAD p).addr] s u ∧ HasIssued p c t u (mrSlot c t) 4 1) ∧
    (MayIssue p opMvm c s t .mv (checkMvm p c t) → ∀ w o, vmW c = some w → vmOut c = some o →
      mvmFail p c w (mvmFinds p c w t) = none → mvmSums p c w (mvmFinds p c w t) ≠ none →
      ∃ u, Does (.mvm p none) s [.regs, .poison, .cores, .hbms] u ∧
      HasIssued p c t u .mv (24 + ceilDiv (vmN c * w.bytes (vmK c)) 128 + ceilDiv (vmOutBytes c o) 64) (ceilDiv (vmOutBytes c o) 64)) ∧
    (MayIssue p opVop c s t .vx (checkVop p c t) → ∃ u, Does (.vop p none) s [.regs, .cores] u ∧
      HasIssued p c t u .vx
        (6 + max (ceilDiv (vN c) 256 * vCpe c) (ceilDiv (sumBytes (vReads c)) 256) + ceilDiv (sumBytes (vWrites c)) 128)
        (ceilDiv (sumBytes (vWrites c)) 128))

/-- COMMAND_COMPLETE (R64, R75, R79): a command that failed halts the list with its code; any other of the array, vector and
matrix-vector commands stores exactly its staged bytes, makes its shadows current and leaves its slot. An MXM has then read all its
operands (R98). -/
def Obligations.CompletionCommitsStagedOutput : Prop :=
  ∀ (p : Fin 144) (sl : Slot) (stall : Nat) (q : CmdRec) (s : State), s.dataUp = true →
    (s.core p).inflight.find? (fun q => q.slot == sl) = some q →
    let r := finishPass p s q
    (r.code ≠ 0 → cOp r.words ≠ opWait → s.get (CORE_STATUS_STATE p) = stRunning →
      ∃ u, exec (.commandComplete p sl stall) s = .next u ∧ HasHalted p (r.code % 2 ^ 16) (cTag r.words) (r.idx % 2 ^ 17) u ∧
        ∀ a, u.byte a = s.byte a) ∧
    (r.code = 0 → cOp r.words ∈ [opMxm, opAcrd, opAcsp, opAcfl, opAcz, opMvm, opVop] →
      ∃ u, exec (.commandComplete p sl stall) s = .next u ∧
        (∀ x ∈ (u.core p).inflight, x.ord ≠ r.ord) ∧
        (∀ a, (∀ w ∈ r.writes, csOffset p w.1 ≠ a) → u.byte a = s.byte a) ∧
        (r.writes.Pairwise (fun v w => v.1 ≠ w.1) → ∀ w ∈ r.writes, u.byte (csOffset p w.1) = w.2) ∧
        (∀ k, (∀ x ∈ r.shadows, x.1 ≠ k) → Tab.get acc0 u.accs k = Tab.get acc0 s.accs k) ∧
        (r.shadows.Pairwise (fun x y => x.1 ≠ y.1) → ∀ x ∈ r.shadows, Tab.get acc0 u.accs x.1 = x.2))

/-- R511's table: RUN and ARM from IDLE start the list at HEAD or arm the launch, where the core is in a plot, its ring is legal (R86)
and, for ARM, the count lies 1 µs ahead (R379); else STATE stays IDLE and CODE tells why. KILL acts while ARMED or RUNNING (R77), RESUME
from HALTED or KILLED (R78), CLEAR from DONE, HALTED or KILLED; an armed list starts at its count. In every other state the write changes
nothing. -/
def Obligations.CoreActionsActByState : Prop :=
  (∀ (p : Fin 144) (s : State), s.dataUp = true →
    let st := s.get (CORE_STATUS_STATE p)
    (st ≠ stIdle → exec (.run p) s = .next s ∧ exec (.arm p) s = .next s) ∧
    (st ≠ stArmed → st ≠ stRunning → exec (.kill p) s = .next s) ∧
    (st ≠ stHalted → st ≠ stKilled → exec (.resume p) s = .next s) ∧
    (st ≠ stDone → st ≠ stHalted → st ≠ stKilled → exec (.clear p) s = .next s)) ∧
  (∀ (p : Fin 144) (s : State), s.dataUp = true → s.get (CORE_STATUS_STATE p) = stIdle → runHeld p s = false →
    (runnable p s = true → ringOk p s = true →
      (∃ u, Does (.run p) s [.regs, .cores] u ∧ RegsBut [(CORE_STATUS_STATE p).addr, (CORE_HEAD_HEAD p).addr] s u ∧
        u.get (CORE_STATUS_STATE p) = stRunning ∧ u.get (CORE_HEAD_HEAD p) = s.get (CORE_HEAD_HEAD p) ∧
        (u.core p).base = 64 * s.get (CORE_RING_BASE_BASE p) ∧ (u.core p).size = s.get (CORE_RING_SIZE_ENTRIES p)) ∧
      (s.alm + 1000 ≤ s.get (CORE_LAUNCH_ALM_COUNT p) →
        ∃ u, Does (.arm p) s [.regs, .cores] u ∧ RegsBut [(CORE_STATUS_STATE p).addr] s u ∧ u.get (CORE_STATUS_STATE p) = stArmed) ∧
      (s.get (CORE_LAUNCH_ALM_COUNT p) < s.alm + 1000 →
        ∃ u, Does (.arm p) s [.regs] u ∧ u.get (CORE_STATUS_STATE p) = stIdle ∧ u.get (CORE_STATUS_CODE p) = cLaunchPast)) ∧
    (runnable p s = false → ∀ c ∈ [Instr.run p, Instr.arm p], ∃ u, Does c s [.regs] u ∧
      RegsBut [(CORE_STATUS_STATE p).addr] s u ∧ u.get (CORE_STATUS_STATE p) = stIdle ∧ u.get (CORE_STATUS_CODE p) = cCmdIllegal) ∧
    (runnable p s = true → ringOk p s = false → ∀ c ∈ [Instr.run p, Instr.arm p], ∃ u, Does c s [.regs] u ∧
      RegsBut [(CORE_STATUS_STATE p).addr] s u ∧ u.get (CORE_STATUS_STATE p) = stIdle ∧ u.get (CORE_STATUS_CODE p) = cCmdBounds)) ∧
  (∀ (p : Fin 144) (s : State), s.dataUp = true →
    let st := s.get (CORE_STATUS_STATE p)
    (st = stArmed → s.get (CORE_LAUNCH_ALM_COUNT p) ≤ s.alm → ∃ u, Does (.listLaunch p) s [.regs, .cores] u ∧
      u.get (CORE_STATUS_STATE p) = stRunning ∧ u.get (CORE_HEAD_HEAD p) = s.get (CORE_HEAD_HEAD p)) ∧
    (st = stArmed → ∃ u, Does (.kill p) s [.regs, .cores] u ∧ u.get (CORE_STATUS_STATE p) = stKilled ∧
      u.get (CORE_STATUS_CODE p) = cListKilled ∧ u.get (CORE_RESUME_PC p) = s.get (CORE_HEAD_HEAD p) ∧
      u.get (CORE_RESUME_SKIP p) = 0) ∧
    (st = stRunning → (s.core p).killing = false → ∃ u, Does (.kill p) s [.regs, .cores] u ∧ u.get (CORE_STATUS_STATE p) = stRunning ∧
      (u.core p).killing = true ∧ (u.core p).inflight = (s.core p).inflight.filter (fun r => r.committed s.fc)) ∧
    (st = stRunning → (s.core p).killing = true → (s.core p).inflight = [] → ∃ u, Does (.killDone p) s [.regs, .cores] u ∧
      u.get (CORE_STATUS_STATE p) = stKilled ∧ u.get (CORE_STATUS_CODE p) = cListKilled ∧ u.get (CORE_IRQ_KILLED p) = 1) ∧
    (st = stHalted ∨ st = stKilled → ringOk p s = true → ∃ u, Does (.resume p) s [.regs, .cores] u ∧
      u.get (CORE_STATUS_STATE p) = stRunning ∧ u.get (CORE_HEAD_HEAD p) = s.get (CORE_RESUME_PC p)) ∧
    (st = stHalted ∨ st = stKilled → ringOk p s = false → ∃ u, Does (.resume p) s [.regs] u ∧
      RegsBut [(CORE_STATUS_STATE p).addr] s u ∧ u.get (CORE_STATUS_STATE p) = st ∧ u.get (CORE_STATUS_CODE p) = cCmdBounds) ∧
    (st = stDone ∨ st = stHalted ∨ st = stKilled → ∃ u, Does (.clear p) s [.regs] u ∧
      RegsBut [(CORE_STATUS_STATE p).addr, (CORE_STALL_WAIT_COUNT p).addr, (CORE_STALL_MEM_COUNT p).addr,
        (CORE_STALL_LIST_COUNT p).addr, (CORE_STALL_THR_COUNT p).addr] s u ∧
      u.get (CORE_STATUS_STATE p) = stIdle ∧ u.get (CORE_STATUS_CODE p) = 0 ∧ u.get (CORE_STALL_WAIT_COUNT p) = 0 ∧
      u.get (CORE_STALL_MEM_COUNT p) = 0 ∧ u.get (CORE_STALL_LIST_COUNT p) = 0 ∧ u.get (CORE_STALL_THR_COUNT p) = 0))

/-- Writes to CORE_TAIL append commands or are discarded with RING_FULL (R85, R86); a write to CORE_ARR sets an ADD counter and is
discarded in PREFIX mode (R93). On a fenced die both are discarded (R29). -/
def Obligations.CoreTailAndCounterWrites : Prop :=
  ∀ (p : Fin 144) (ctr : Fin 1024) (v : Word) (s : State), s.dataUp = true →
    (s.dieFenced (dieOfCore p) = true → exec (.coreTailWrite p v) s = .next s ∧ exec (.coreArrWrite p ctr v) s = .next s) ∧
    (s.dieFenced (dieOfCore p) = false →
    (let x := (CORE_TAIL_TAIL p).of v
     let h := s.get (CORE_HEAD_HEAD p)
     let n := if s.get (CORE_STATUS_STATE p) = stRunning ∨ s.get (CORE_STATUS_STATE p) = stArmed then (s.core p).size
       else s.get (CORE_RING_SIZE_ENTRIES p)
     (x < n → (x = h → s.get (CORE_TAIL_TAIL p) = h) → ∃ u, Does (.coreTailWrite p v) s [.regs] u ∧
       RegsBut [(CORE_TAIL_TAIL p).addr] s u ∧ u.get (CORE_TAIL_TAIL p) = x) ∧
     (n ≤ x ∨ (x = h ∧ s.get (CORE_TAIL_TAIL p) ≠ h) → ∃ u, Does (.coreTailWrite p v) s [.regs] u ∧
       RegsBut [(CORE_IRQ_RING_FULL p).addr] s u ∧ u.get (CORE_IRQ_RING_FULL p) = 1)) ∧
    (s.get (CORE_ARR_MODE p ctr) = 0 → (s.core p).inflight = [] → ∃ u, Does (.coreArrWrite p ctr v) s [.regs, .cores, .coal] u ∧
      RegsBut [(CORE_ARR_COUNT p ctr).addr] s u ∧ u.get (CORE_ARR_COUNT p ctr) = (CORE_ARR_COUNT p ctr).of v ∧
      u.get (CORE_ARR_MODE p ctr) = 0) ∧
    (s.get (CORE_ARR_MODE p ctr) = 1 → exec (.coreArrWrite p ctr v) s = .next s))

/-- Scrubbing poisons every uncorrectable word it finds and counts the corrected ones (R69, R95); a queued row with a spare left in
its bank is repaired (R436). -/
def Obligations.CoreStoreScrubAndRepair : Prop :=
  ∀ (p : Fin 144) (s : State), s.dataUp = true →
    (∀ corr unc : List CsAddr, Instr.wf (.csScrub p corr unc) = true → ∃ u, Does (.csScrub p corr unc) s [.regs, .poison, .cores] u ∧
      u.get (CS_ECC_CORR_COUNT p) = min (s.get (CS_ECC_CORR_COUNT p) + corr.length) (2 ^ 32 - 1) ∧
      (corr ≠ [] → u.get (CS_ECC_STAT_CORR p) = 1) ∧ (unc ≠ [] → u.get (CS_ECC_STAT_UNCORR p) = 1) ∧
      ∀ a ∈ unc, u.poisoned (csOffset p (a / 8 * 8)) = true) ∧
    (∀ row rest, (s.core p).rows = row :: rest → s.get (CS_REPAIR_EN p) = 1 → s.get (CORE_STATUS_STATE p) ≠ stRunning →
      s.get (CORE_STATUS_STATE p) ≠ stArmed → spareUsed (s.core p) (row % 32) < 8 →
      ∃ u, Does (.csRowRepair p) s [.regs, .cores, .coal] u ∧ (u.core p).rows = rest ∧ row ∈ (u.core p).repaired ∧
        spareUsed (u.core p) (row % 32) = spareUsed (s.core p) (row % 32) + 1 ∧
        u.get (CS_REPAIRS_COUNT p) = min (s.get (CS_REPAIRS_COUNT p) + 1) (2 ^ 32 - 1))

/-! Descriptor rings (R120, R123, R147) and the Winnower (05_winnower_scoring). -/

/-- A TAIL write of the five engines' rings posts jobs where R147 allows it; else it is discarded with RING_FULL and the engine's
descriptor code in its LAST register. -/
def Obligations.RingTailWritesPostOrAreDiscarded : Prop :=
  ∀ (c : Instr) (r : RingRegs) (v : Word) (s : State), s.dataUp = true → ringRegsOf c = some (r, v) →
    (tailBad r (r.tail.of v) s = false → ∃ u, Does c s [.regs] u ∧ RegsBut [r.tail.addr] s u ∧ u.get r.tail = r.tail.of v) ∧
    (tailBad r (r.tail.of v) s = true → ∃ u, Does c s [.regs] u ∧ RegsBut [r.full.addr, r.lastCode.addr] s u ∧
      u.get r.full = 1 ∧ u.get r.lastCode = r.code ∧ u.get r.lastRing = r.ring)

/-- ROUTE and SAMPLE start the job at HEAD of the ring that R122 serves: it stands in WIN_RSTAT, loaded, at item 0; a descriptor that
breaks R124, R125 or R137 ends it with WIN_DESC. WIN_ITEM does one item of the ring served: the job stands at its next item, or has
ended with the item's code. WIN_JOB_COMPLETE ends a job whose items are all done, and WIN_FLUSH leaves no job of its ring in progress
(R143, R145). -/
def Obligations.WinnowerRunsJobs : Prop :=
  (∀ (k : Fin 4) (n : Nat) (d : List Nat) (s t : State), s.dataUp = true → winChoose k s = some n → winJob s k n = none →
    readDescr (ringWho k (WIN_PLOT_PKEY k n) s) (winRing k n) (s.get (WIN_HEAD_HEAD k n)) s = (some d, t) →
    let started (c : Instr) := ∃ u j, Does c s [.regs, .mem, .poison, .cores, .coal, .wins, .hbms] u ∧ winJob u k n = some j ∧ j.words = d ∧
      j.loaded = true ∧ j.item = 0 ∧ u.get (WIN_RSTAT_ACTIVE k n) = 1 ∧ u.get (WIN_RSTAT_LOADED k n) = 1 ∧
      u.get (WIN_RSTAT_JOB_ID k n) = wjJobId d ∧ u.get (WIN_RSTAT_ITEM k n) = 0
    (wjKind d = 1 → routeOk t d = true → winInputsOk k { ring := n, words := d, active := loadRc d } t → started (.route k)) ∧
    (wjKind d = 2 → sampleOk t d = true → wjBias d = false → wjMask d = false → started (.sample k)) ∧
    (wjKind d = 1 → routeOk t d = false → ∃ u, Does (.route k) s [.regs, .mem, .poison, .cores, .coal, .wins, .hbms] u ∧
      RingJobEnded (winRing k n) (WIN_IRQ_JOB_DONE k) (WIN_IRQ_JOB_FAIL k) cWinDesc s u) ∧
    (wjKind d = 2 → sampleOk t d = false → ∃ u, Does (.sample k) s [.regs, .mem, .poison, .cores, .coal, .wins, .hbms] u ∧
      RingJobEnded (winRing k n) (WIN_IRQ_JOB_DONE k) (WIN_IRQ_JOB_FAIL k) cWinDesc s u)) ∧
  (∀ (k : Fin 4) (n : Fin 16) (s : State), s.dataUp = true →
    (∀ stall j, winChoose k s = some n.val → winJob s k n = some j →
      let t := ((winServed k n s).set (WIN_STATUS_SAMPLING k) (ofBool (wjKind j.words == 2))).count (WIN_STALL_IN_COUNT k) stall
      let o := if wjKind j.words == 2 then sampleItem k j t else routeItem k j t
      ∃ u, Does (.winItem k stall) s [.regs, .mem, .poison, .cores, .coal, .wins, .hbms] u ∧
        (o.code = 0 → (winJob u k n).map (fun i => i.item) = some (j.item + 1) ∧
          u.get (WIN_ITEMS_COUNT k) = (s.get (WIN_ITEMS_COUNT k) + 1) % 2 ^ 64) ∧
        (o.code ≠ 0 → winJob u k n = none ∧ RingJobEnded (winRing k n) (WIN_IRQ_JOB_DONE k) (WIN_IRQ_JOB_FAIL k) o.code s u)) ∧
    (∀ j, winJob s k n = some j → j.item = wjItems j.words →
      ∃ u, Does (.winJobComplete k n) s [.regs, .mem, .poison, .cores, .coal, .wins, .hbms] u ∧ winJob u k n = none ∧
        RingJobEnded (winRing k n) (WIN_IRQ_JOB_DONE k) (WIN_IRQ_JOB_FAIL k) 0 s u) ∧
    (∃ u, Does (.winFlush k n) s [.regs, .mem, .poison, .cores, .coal, .wins, .hbms] u ∧ winJob u k n = none ∧
      (∀ j, winJob s k n = some j → j.item ≠ wjItems j.words →
        ringNext (winRing k n) s (s.get (WIN_HEAD_HEAD k n)) = s.get (WIN_TAIL_TAIL k n) →
        RingJobEnded (winRing k n) (WIN_IRQ_JOB_DONE k) (WIN_IRQ_JOB_FAIL k) cWinFlushed s u)))

/-! The Thresher (06_thresher_and_sower R148 to R162, R175 to R177). -/

/-- THR_STEP starts the step at HEAD of a ring in intake, having forgotten what an earlier step of its ring and STEP_ID left (log entry
18); a descriptor that breaks R150 or R151, or an expert map that breaks R153,
leaves the step in intake with its failure found. -/
def Obligations.ThresherStartsSteps : Prop :=
  ∀ (k : Fin 4) (n : Fin 16) (d : List Nat) (s t : State), s.dataUp = true → thrStepOf s k n = none →
    ringHas (thrRing k n) s = true → s.flag (THR_CTRL_ENABLE k) = true → tsJobs d k ≠ 0 →
    readDescr (thrWho k n s) (thrRing k n) (s.get (THR_HEAD_HEAD k n)) s = (some d, t) →
    let f := freshStep k n (tsStepId d) t
    let intake (x : ThrStep) (v : State) := ∃ u, Does (.thrStep k n) s [.regs, .mem, .poison, .thrs, .hbms] u ∧ thrStepOf u k n = some x ∧
      RegsBut [(THR_RSTAT_ACTIVE k n).addr, (THR_STATUS_BUSY k).addr] v u ∧ u.get (THR_RSTAT_ACTIVE k n) = 1 ∧
      u.get (THR_RSTAT_PHASE k n) = 1 ∧ u.get (THR_RSTAT_STEP_ID k n) = tsStepId d
    (∀ m u, stepOk f k n d = true → readMaps k (thrWho k n f) d (ownedExperts k d) f = (some m, u) →
      intake { ring := n, words := d, maps := m } u) ∧
    (∀ u, stepOk f k n d = true → readMaps k (thrWho k n f) d (ownedExperts k d) f = (none, u) →
      intake { ring := n, words := d, own := cThrMap } u) ∧
    (stepOk f k n d = false → intake { ring := n, words := d, own := cThrDesc } f)

/-- A triple is counted, and its record goes to the owner of its expert: into this die's scratch or to the owner's die; a triple that
does not belong to its step is THR_RANGE (R154). That a failed step goes on taking records is the model's reading (log entry 18). -/
def Obligations.ThresherTakesTriples : Prop :=
  ∀ (k : Fin 4) (r : WinRec) (x : ThrStep) (s : State), s.dataUp = true → intakeNext s k false = some (r, x) →
    let y := { x with aIn := x.aIn + 1 }
    let o := trExpert r.w0 % 4
    let scratch := unitWrite (thrWho k x.ring (takeWin k r s))
      (gaOff (tsScratch x.words + k * tsScratchBytes x.words + 16 * x.recs.length)) (bytesOfWords [r.w0, r.w1]) (takeWin k r s)
    let taken (z : ThrStep) (v : State) := ∃ u, Does (.triple k) s [.regs, .mem, .poison, .wins, .thrs, .hbms] u ∧
      RegsBut [(THR_RSTAT_ACTIVE k x.ring).addr, (THR_STATUS_BUSY k).addr] v u ∧ (∀ a, u.byte a = v.byte a) ∧
      thrStepOf u k x.ring = some z ∧ (u.win k).out = dropRec r (s.win k).out ∧
      ∀ j : Fin 4, j ≠ k → (u.thr j).inRecs = (s.thr j).inRecs ++
        (if x.own = 0 ∧ tripleOk x.words r.w0 = true ∧ j.val = o then [(k.val, r.w0, r.w1)] else [])
    (x.own ≠ 0 → taken y s) ∧
    (x.own = 0 → tripleOk x.words r.w0 = false → taken { y with own := cThrRange } s) ∧
    (x.own = 0 → tripleOk x.words r.w0 = true → o ≠ k →
      taken { y with sent := Tab.set (fun _ => 0) x.sent o (Tab.get (fun _ => 0) x.sent o + 1) } s) ∧
    (x.own = 0 → tripleOk x.words r.w0 = true → o = k → 16 * (x.recs.length + 1) ≤ tsScratchBytes x.words →
      (∀ q ∈ x.recs, trExpert q.1 = trExpert r.w0 → trToken q.1 ≠ trToken r.w0) →
      taken { y with recs := x.recs ++ [(r.w0, r.w1)] } scratch) ∧
    (x.own = 0 → tripleOk x.words r.w0 = true → o = k → tsScratchBytes x.words < 16 * (x.recs.length + 1) →
      taken { y with own := cThrScratch } s)

/-- End markers close intake at JOBSk, and the die then sends its token to the three others (R155, R156), but to none that has ended the
step; forwarded records and tokens that arrive are taken into the step they name, each once (R154, R157; log entry 18). -/
def Obligations.ThresherExchange : Prop :=
  ∀ (k : Fin 4) (s : State), s.dataUp = true →
    (∀ r x, intakeNext s k true = some (r, x) → recAbort r.w1 = false → x.closed = false → x.fin = false →
      ∃ u z, Does (.endMarker k) s [.regs, .mem, .poison, .wins, .thrs, .hbms] u ∧ thrStepOf u k x.ring = some z ∧ z.marks = x.marks + 1 ∧
        (u.win k).out = dropRec r (s.win k).out ∧ z.closed = decide (x.marks + 1 = tsJobs x.words k) ∧
        ∀ j : Fin 4, j ≠ k → (u.thr j).inToks = (s.thr j).inToks ++
          (if x.marks + 1 = tsJobs x.words k ∧ (k.val, x.ring, tsStepId x.words) ∉ (s.thr j).gone then
            [⟨k, x.ring, tsStepId x.words, stepDigest x.words, Tab.get (fun _ => 0) x.sent j, x.own⟩] else [])) ∧
    (∀ before src w0 w1 after x, (s.thr k).inRecs = before ++ (src, w0, w1) :: after →
      (∀ q ∈ before, ∀ y, thrStepOf s k (recRing q.2.2) = some y → tsStepId y.words % 1024 = recTag q.2.2 → y.verdict.isSome) →
      thrStepOf s k (recRing w1) = some x → tsStepId x.words % 1024 = recTag w1 → x.verdict = none →
      ∃ u z, Does (.forwardedRecord k) s [.regs, .mem, .poison, .thrs, .hbms] u ∧ (u.thr k).inRecs = before ++ after ∧
        thrStepOf u k x.ring = some z ∧ Tab.get (fun _ => 0) z.got src = Tab.get (fun _ => 0) x.got src + 1 ∧
        (x.own = 0 → 16 * (x.recs.length + 1) ≤ tsScratchBytes x.words → z.recs = x.recs ++ [(w0, w1)])) ∧
    (∀ before tok after x, (s.thr k).inToks = before ++ tok :: after →
      (∀ q ∈ before, tokenFits s k q = false) → tokenFits s k tok = true → thrStepOf s k tok.ring = some x →
      ∃ u z, Does (.endOfStepToken k) s [.regs, .thrs] u ∧ (u.thr k).inToks = before ++ after ∧
        thrStepOf u k x.ring = some z ∧ z.toks = x.toks ++ [tok])

/-- The cut of one expert keeps as many assignments as CAP lets it, at least BE_MIN of the best-effort ones where there are so many,
and within a class drops none that comes before a kept one in key order (R158, R159). -/
def Obligations.CutKeepsCapacity : Prop :=
  ∀ (d : List Nat) (asg : List (Nat × Nat)), tsBeMin d ≤ tsCap d →
    let c := cutExpert d asg
    (c.1 ++ c.2).Perm asg ∧ c.1.length = min asg.length (tsCap d) ∧
    min (asg.filter (fun a => trClass a.1 == 1)).length (tsBeMin d) ≤ (c.1.filter (fun a => trClass a.1 == 1)).length ∧
    ∀ a ∈ c.1, ∀ b ∈ c.2, trClass a.1 = trClass b.1 → keyLt b.1 a.1 = false

/-- CUT carries out the outcome that the four dies settled (R157, R159, R162); THR_TIMEOUT and a settled failure end the step with its
code (R157, R173). A flush of a ring with no step leaves it empty; one of a step before its outcome makes it fail with THR_FLUSHED
through the tokens, and one of a cut step fails its sends (R174 to R176). THR_TDCLR clears the tenants' drop counts and no other
register. -/
def Obligations.ThresherCutsFlushesAndClears : Prop :=
  (∀ (k : Fin 4) (n : Fin 16) (x : ThrStep) (s : State), s.dataUp = true → thrStepOf s k n = some x → x.fin = false → x.cut = false →
    s.JobsOk →
    let ended (c : Instr) (code : Nat) := ∃ u, Does c s [.regs, .mem, .poison, .cores, .coal, .thrs, .hbms] u ∧ thrStepOf u k n = none ∧
      u.get (THR_LAST_CODE k) = code ∧ u.get (THR_LAST_RING k) = n ∧ u.get (THR_IRQ_STEP_FAIL k) = 1
    (x.verdict = some 0 → lcFirst k n s = false →
      let r := (ownedExperts k x.words).foldl (fun r e => cutOne k e r) ({ x with aOwn := x.recs.length }, s)
      ∃ u z, Does (.cut k n) s [.regs, .mem, .poison, .cores, .coal, .thrs, .hbms, .serv] u ∧ thrStepOf u k n = some z ∧ z.cut = true ∧
        z.recs = [] ∧ z.aOwn = x.recs.length ∧ z.kept = r.1.kept ∧ z.mans = r.1.mans ∧ (∀ a, u.byte a = r.2.byte a) ∧
        u.get (THR_ASSIGNED_COUNT k) = (s.get (THR_ASSIGNED_COUNT k) + z.aOwn) % 2 ^ 64 ∧
        u.get (THR_KEPT_COUNT k) = (s.get (THR_KEPT_COUNT k) + z.kept) % 2 ^ 64 ∧
        u.get (THR_DROPPED_COUNT k) = (s.get (THR_DROPPED_COUNT k) + (z.dropLc + z.dropBe)) % 2 ^ 64 ∧
        u.get (THR_NOMAPPED_COUNT k) = (s.get (THR_NOMAPPED_COUNT k) + z.nomap) % 2 ^ 64) ∧
    (∀ c, x.verdict = some c → cThrDesc ≤ c → c ≤ cThrDrops → lcFirst k n s = false → x.closed = true → ended (.cut k n) c) ∧
    (x.verdict = none → x.toks.length ≠ 3 → x.closed = true → ended (.thrTimeout k n) cThrTimeout)) ∧
  (∀ (k : Fin 4) (n : Fin 16) (s : State), s.dataUp = true →
    (thrStepOf s k n = none → ∃ u, Does (.thrFlush k n) s [.regs, .mem, .poison, .cores, .coal, .thrs, .hbms] u ∧
      u.get (THR_TAIL_TAIL k n) = s.get (THR_TAIL_TAIL k n) ∧ u.get (THR_HEAD_HEAD k n) = s.get (THR_TAIL_TAIL k n)) ∧
    (∀ x, thrStepOf s k n = some x → x.fin = false → x.cut = false → x.verdict ≠ some 0 →
      ∃ u z, Does (.thrFlush k n) s [.regs, .mem, .poison, .cores, .coal, .thrs, .hbms] u ∧ thrStepOf u k n = some z ∧
        z.own = (if x.own = 0 then cThrFlushed else x.own)) ∧
    (∀ x, thrStepOf s k n = some x → x.fin = false → x.cut = true ∨ x.verdict = some 0 → x.status = 0 →
      ∃ u z, Does (.thrFlush k n) s [.regs, .mem, .poison, .cores, .coal, .thrs, .hbms] u ∧ thrStepOf u k n = some z ∧
        z.status = cSowFlushed ∧ z.rows = [] ∧ u.get (SOW_LAST_CODE k) = cSowFlushed ∧ u.get (SOW_IRQ_SEND_FAIL k) = 1) ∧
    (∃ u, Does (.thrTdclr k) s [.regs] u ∧
      (∀ i : Fin 8192, u.get (THR_TDROP_LC k i) = 0 ∧ u.get (THR_TDROP_BE k i) = 0) ∧
      ∀ a, a < (THR_TDROP_LC k 0).addr ∨ (THR_TDROP_LC k 8192).addr ≤ a → u.word a = s.word a))

/-! The Sower (06_thresher_and_sower R163 to R170, R173, R174, R178). `sowCollect` takes up what has completed before each of its
commands. -/

/-- SOW_DISPATCH issues every manifest of a step whose cut is done and counts it as outstanding (R164); a completed manifest leaves
the outstanding ones, and one that failed ends the sending of its step with SOW_SEND (R174). SOW_ROW_SEND sends the next row in the
order of R166, LC before BE, as pieces of 2,048 bytes (R165): it leaves the step's rows, is counted as outstanding, and costs its
tenant one row of its bucket (R167). -/
def Obligations.SowerSendsManifestsAndRows : Prop :=
  (∀ (k : Fin 4) (s : State), s.dataUp = true →
    (∀ (n : Fin 16) x, thrStepOf (sowCollect k s) k n = some x → x.cut = true → x.manSent = false →
      (sowCollect k s).flag (SOW_CTRL_ENABLE k) = true →
      ∃ u z, Does (.sowDispatch k n) s [.regs, .mem, .poison, .cores, .coal, .vt, .links, .thrs, .sows] u ∧ thrStepOf u k n = some z ∧
        z.manSent = true ∧ z.manCount = x.mans.length ∧ z.rows = x.rows ∧
        (u.sow k).manOut = ((sowCollect k s).sow k).manOut ++ x.mans.map (fun m => (m.node, n.val)) ∧
        u.get (SOW_STATUS_BUSY k) = 1 ∧ u.get (SOW_STATUS_RING k) = n) ∧
    (∀ d ring node before after, d.k = k.val → d.agent = .unit uSow ring 0 node → s.vt.done = before ++ d :: after →
      (∀ e ∈ before ++ after, e.k ≠ k.val ∨ ∀ v r g m, e.agent = .unit v r g m → v ≠ uSow) →
      ∃ u, Does (.manifestComplete k) s [.regs, .vt, .thrs, .sows] u ∧ u.vt.done = before ++ after ∧
        (u.sow k).manOut = (s.sow k).manOut.erase (node, ring) ∧ (d.status = 0 → u.thrs = s.thrs) ∧
        ∀ x, d.status ≠ 0 → thrStepOf s k ring = some x → x.status = 0 →
          thrStepOf u k ring = some { x with status := cSowSend, rows := [] })) ∧
  (∀ (k : Fin 4) (n stallIn stallMan stallTb : Nat) (r : RowRec) (x : ThrStep) (s : State), s.dataUp = true →
    let c := sowCollect k s
    c.flag (SOW_CTRL_ENABLE k) = true → (pickRow k 0 c = some (n, r) ∨ (pickRow k 0 c = none ∧ pickRow k 1 c = some (n, r))) →
    thrStepOf c k n = some x →
    let t := ((c.count (SOW_STALL_IN_COUNT k) stallIn).count (SOW_STALL_MAN_COUNT k) stallMan).count (SOW_STALL_TB_COUNT k) stallTb
    let i := r.token - tsTokBase x.words
    let e := unitRead (thrWho k n t) (gaOff (tsAct x.words + i * tsActStride x.words)) (tsElemBytes x.words) t
    let b := if tsScaleBytes x.words = 0 then (0, [], e.2.2) else
      unitRead (thrWho k n t) (gaOff (tsAsc x.words + i * tsAscStride x.words)) (tsScaleBytes x.words) e.2.2
    e.1 = 0 → b.1 = 0 →
    ∃ u z, Does (.sowRowSend k stallIn stallMan stallTb) s [.regs, .mem, .poison, .cores, .coal, .vt, .links, .thrs, .sows, .hbms] u ∧
      thrStepOf u k n = some z ∧ z.rows = x.rows.filter (fun q => q ≠ r) ∧
      (u.sow k).rowsOut = (c.sow k).rowsOut ++
        [⟨(c.sow k).nextRow, n, (pieces2k 64 (e.2.1 ++ b.2.1)).length, true, tsRowBytes x.words⟩] ∧
      (u.sow k).nextRow = (c.sow k).nextRow + 1 ∧
      tbLevel u k r.tenant = tbLevel c k r.tenant - (if t.get (SOW_TB_RATE k r.tenant) = 0 then 0 else 1000))

/-- SOW_TB_WRITE sets a tenant's bucket full and SOW_TB_TICK fills every written one at its rate up to its burst (R167);
SOW_COMPLETION ends a step all of whose rows and manifests have completed (R173), and SOW_FLUSH fails a step's sends (R174). -/
def Obligations.SowerBucketsAndCompletion : Prop :=
  ∀ (k : Fin 4) (s : State), s.dataUp = true →
    (∀ (t : Fin 8192) v, ∃ u, Does (.sowTbWrite k t v) s [.regs, .sows] u ∧ RegsBut [(SOW_TB_RATE k t).addr] s u ∧
      u.get (SOW_TB_RATE k t) = (SOW_TB_RATE k t).of v ∧ u.get (SOW_TB_BURST k t) = (SOW_TB_BURST k t).of v ∧
      tbLevel u k t = 1000 * max 1 ((SOW_TB_BURST k t).of v) ∧ u.get (SOW_TB_LEVEL k t) = max 1 ((SOW_TB_BURST k t).of v)) ∧
    (s.Canon → ∃ u, Does (.sowTbTick k) s [.regs, .sows] u ∧ ∀ t : Fin 8192,
      u.get (SOW_TB_RATE k t) = s.get (SOW_TB_RATE k t) ∧ u.get (SOW_TB_BURST k t) = s.get (SOW_TB_BURST k t) ∧
      tbLevel u k t = (if s.get (SOW_TB_RATE k t) = 0 then tbLevel s k t else
        min (tbLevel s k t + s.get (SOW_TB_RATE k t)) (1000 * max 1 (s.get (SOW_TB_BURST k t))))) ∧
    (∀ (n : Fin 16) x, thrStepOf (sowCollect k s) k n = some x → x.cut = true →
      (x.manSent = true → x.rows = [] → (∀ m ∈ ((sowCollect k s).sow k).manOut, m.2 ≠ n) →
        (∀ r ∈ ((sowCollect k s).sow k).rowsOut, r.ring ≠ n) → s.JobsOk →
        ∃ u, Does (.sowCompletion k n) s [.regs, .mem, .poison, .cores, .coal, .vt, .thrs, .sows, .hbms] u ∧ thrStepOf u k n = none ∧
          (x.status = 0 → u.get (SOW_IRQ_SEND_DONE k) = 1 ∧ u.get (THR_IRQ_STEP_DONE k) = 1) ∧
          (x.status ≠ 0 → u.get (THR_IRQ_STEP_FAIL k) = 1)) ∧
      (x.status = 0 → ∃ u, Does (.sowFlush k n) s [.regs, .vt, .thrs, .sows] u ∧
        thrStepOf u k n = some { x with status := cSowFlushed, rows := [] } ∧ u.get (SOW_LAST_CODE k) = cSowFlushed ∧
        u.get (SOW_IRQ_SEND_FAIL k) = 1))

/-- A manifest that passes its checks writes the region's count and validity bits and is counted (R163, R169); a piece writes its
bytes, and the last of a row is counted as a landed row (R170). Beside them only the bitmap of the landing's counter changes, which its
PREFIX arrivals mark (R80). Over which bytes the window is checked is the model's reading (log entry 19). -/
def Obligations.LandingsWriteTheRegion : Prop :=
  ∀ (i : Nat) (p : Packet) (c : Nat) (s t : State), s.dataUp = true → landCore p t = some c → landCode p c t = 0 →
    let bm := csOffset c (t.get (CORE_ARR_MAP_BITMAP c (ldCtr p)))
    let bmEnd := bm + ceilDiv (t.get (CORE_ARR_SLOTS c (ldCtr p))) 8
    (vtTake (fun p => p.h.kind == kLand && ldSub p != 2) i s = .fresh p t →
      ldSeg p * ldCap p + max (ldCap p) (ldCount p) ≤ 8192 →
      let low := csOffset c (ldBase p)
      let high := csOffset c (slotAddr p (ldSeg p * ldCap p + ldCap p))
      ∃ u, Does (.landManifest i) s [.free, .regs, .mem, .poison, .cores, .coal, .vt, .links] u ∧
        (bmEnd ≤ low ∨ high ≤ bm → u.readLE (csOffset c (ldBase p + 4 * ldSeg p)) 4 = ldCount p ∧
          ∀ j < max (ldCap p) (ldCount p), bitOf (u.byte (csOffset c (ldBase p + 256 + (ldSeg p * ldCap p + j) / 8))).toNat
            ((ldSeg p * ldCap p + j) % 8) = decide (j < ldCount p)) ∧
        (∀ a, a < low ∨ high ≤ a → a < bm ∨ bmEnd ≤ a → u.byte a = s.byte a) ∧
        u.get (SOW_MAN_LANDED_COUNT (c / 36)) = (t.get (SOW_MAN_LANDED_COUNT (c / 36)) + 1) % 2 ^ 64) ∧
    (vtTake (fun p => p.h.kind == kLand && ldSub p == 2) i s = .fresh p t → trackFull p s = false →
      ∃ u, Does (.landPiece i) s [.free, .regs, .mem, .poison, .cores, .coal, .vt, .links, .sows] u ∧
        let a := csOffset c (slotAddr p (ldSlot p) + 2048 * ldPiece p)
        (bmEnd ≤ a ∨ a + p.data.length ≤ bm → ∀ j, (h : j < p.data.length) → u.byte (a + j) = p.data[j]) ∧
        (∀ b, b < a ∨ a + p.data.length ≤ b → b < bm ∨ bmEnd ≤ b → u.byte b = s.byte b) ∧
        (ldPieces p ≤ 1 → u.get (SOW_ROWS_LANDED_COUNT (c / 36)) = (t.get (SOW_ROWS_LANDED_COUNT (c / 36)) + 1) % 2 ^ 64) ∧
        (1 < ldPieces p → (∀ r ∈ (t.sow (c / 36)).track, r.core ≠ c ∨ r.ctr ≠ ldCtr p ∨ r.region ≠ ldBase p ∨ r.slot ≠ ldSlot p) →
          (u.sow (c / 36)).track = (t.sow (c / 36)).track ++ [⟨c, ldCtr p, ldBase p, ldSlot p, [ldPiece p]⟩]))

/-! The Gleaner (07_gleaner_and_expert_passes R184 to R195, R199, R200). -/

/-- RETURN activates the next job of a ring, which waits for its MANCTR, and rejects a bad descriptor with GLN_DESC (R185, R186, R199);
READY_CTR releases its blocks in order (R186), and one that stays away fails the job with GLN_READY_TIMEOUT: only ABORT markers are left
to send (R188). -/
def Obligations.ReturnJobsStart : Prop :=
  ∀ (k : Fin 4) (s : State), s.dataUp = true → s.JobsOk →
    (∀ (n : Fin 16) d t, (∀ j ∈ (s.gln k).rets, j.ring = n → j.opn = false → ∀ p, physOf s (rjLcore j.words) = some p →
        s.get (CORE_ARR_COUNT p (rjManctr j.words)) < rjNseg j.words) → Tab.get (fun _ => 0) (s.gln k).flushRet n = 0 →
      ringHas (glnRing false k n) s = true → retNext k n s ≠ s.get (GLN_RTAIL_TAIL k n) → s.flag (GLN_CTRL_ENABLE k) = true →
      retRoom k n s = true → readDescr (glnWho k n s) (glnRing false k n) (retNext k n s) s = (some d, t) →
      (returnOk t k d = true → (∀ p, physOf t (rjLcore d) = some p → t.get (CORE_ARR_COUNT p (rjManctr d)) < rjNseg d) →
        ∃ u, Does (.returnJob k n) s [.regs, .mem, .poison, .cores, .coal, .glns, .hbms] u ∧
          (u.gln k).rets = (s.gln k).rets ++ [{ aid := (s.gln k).nextAid, ring := n, idx := retNext k n s, words := d }] ∧
          (u.gln k).nextAid = (s.gln k).nextAid + 1 ∧ u.get (GLN_RRSTAT_ACTIVE k n) = 1 ∧ ∀ a, u.byte a = s.byte a) ∧
      (returnOk t k d = false →
        ∃ u, Does (.returnJob k n) s [.regs, .mem, .poison, .cores, .coal, .glns, .hbms] u ∧ (u.gln k).rets = (s.gln k).rets ∧
          u.get (GLN_IRQ_JOB_FAIL k) = 1 ∧ u.get (GLN_LAST_CODE k) = cGlnDesc ∧ u.get (GLN_LAST_RING k) = n)) ∧
    (∀ (i : Nat) j, (s.gln k).rets[i]? = some j → j.fail = 0 →
      (∀ p, physOf s (rjLcore j.words) = some p → j.opn = true → j.ready < j.blocks →
        j.ready + 1 ≤ s.get (CORE_ARR_COUNT p (rjReadyCtr j.words)) →
        ∃ u, Does (.returnBlockReady k i) s [.regs, .glns] u ∧ RegsBut ((List.range 4).map (fun q => (GLN_STATUS_BUSY q).addr)) s u ∧
          u.gln k = { s.gln k with rets := (s.gln k).rets.map (fun x => if x.aid = j.aid then { j with ready := j.ready + 1 } else x) }) ∧
      (retWaits j s = true → ∃ u y, Does (.glnReadyTimeout k i) s [.regs, .poison, .glns, .hbms] u ∧
        (u.gln k).rets = (s.gln k).rets.map (fun x => if x.aid = j.aid then y else x) ∧ y.aid = j.aid ∧ y.fail = cGlnReadyTimeout ∧
        y.opn = true ∧ ∀ a ∈ y.todo, a.marker = true))

/-- RETURN_ROW_SEND sends one act of the job that R187 serves, once completions and flushed jobs are taken up: a segment's end marker,
or a row as pieces of 2,048 bytes (R186, R187). It is counted as outstanding, and the job goes on behind it. -/
def Obligations.ReturnRowsAreSent : Prop :=
  ∀ (k : Fin 4) (stall stallSrc : Nat) (j : RetJob) (be : Bool) (a : RetAct) (rest : List RetAct) (s : State), s.dataUp = true →
    let c := (List.range 16).foldl (fun t n => flushRets k n 4096 t) (retSweep k (takeDone k uGln (retDoneReq k) s))
    let node := (j.segs.getD a.seg (0, 0, 0)).1
    j.todo = a :: rest → (pickRet k false c = some j ∧ be = false ∨ pickRet k false c = none ∧ pickRet k true c = some j ∧ be = true) →
    let sent (marker : Bool) (pieces bytes : Nat) := ∃ u y,
      Does (.returnRowSend k stall stallSrc) s [.regs, .mem, .poison, .cores, .coal, .vt, .links, .glns, .hbms] u ∧
      (u.gln k).outs = (c.gln k).outs ++ [⟨(c.gln k).nextOid, j.aid, node, marker, pieces, true, bytes⟩] ∧
      (u.gln k).rets = (c.gln k).rets.map (fun x => if x.aid = j.aid then y else x) ∧ y.todo = rest ∧ y.stall = j.stall + stall ∧
      y.marks = j.marks + (if marker then 1 else 0) ∧
      (be = false → (u.gln k).lastLc = some j.aid) ∧ (be = true → (u.gln k).lastBe = some j.aid)
    (a.marker = true → sent true 1 0) ∧
    (a.marker = false → ∀ p,
      let h := if be then { c.gln k with lastBe := some j.aid } else { c.gln k with lastLc := some j.aid }
      let t := (c.setGln k h).count (GLN_STALL_SRC_COUNT k) stallSrc
      let r := unitRead (glnWho k j.ring t) (csOffset p (rjOut j.words + a.slot * rjStride j.words)) (2 * rjElems j.words) t
      physOf t (rjLcore j.words) = some p → r.1 = 0 →
      sent false (pieces2k 64 r.2.1).length (2 * rjElems j.words))

/-- COMBINE_OPEN opens the next job of the ring that R190 picks in the lowest free context, with its share of the tokens; a bad
descriptor is GLN_DESC (R189, R190, R192, R199). Queued jobs that have failed already end first (R195). -/
def Obligations.CombineJobsOpen : Prop :=
  ∀ (k : Fin 4) (n : Nat) (d : List Nat) (s t : State), s.dataUp = true → s.JobsOk →
    let v := (List.range 16).foldl (fun t n => combDrain k n 4096 t) s
    let i := combNext k n v
    v.flag (GLN_CTRL_ENABLE k) = true → combPick k v = some n →
    readDescr (glnWho k n v) (glnRing true k n) i v = (some d, t) →
    let alone := ∀ j ∈ (v.gln k).combs, j.ring ≠ n
    (combineOk t k n d = true → shareOf k d ≠ [] →
      ∃ u j, Does (.combineOpen k) s [.regs, .mem, .poison, .cores, .coal, .glns, .hbms, .serv] u ∧
      combOf u k (cjTag d) = some j ∧ (u.gln k).combs = (v.gln k).combs ++ [j] ∧ j.words = d ∧ j.ring = n ∧ j.left = shareOf k d ∧
      (∀ c < j.ctx, ∃ i ∈ (v.gln k).combs, i.ctx = c) ∧ u.get (GLN_CTX_OPEN k j.ctx) = 1 ∧ u.get (GLN_CTX_RING k j.ctx) = n ∧
      u.get (GLN_CTX_TAG k j.ctx) = cjTag d ∧ u.get (GLN_CRSTAT_OPEN k n) = 1 ∧
      (alone → u.get (GLN_CRSTAT_JOB_ID k n) = cjJobId d) ∧ ∀ a, u.byte a = v.byte a) ∧
    (combineOk t k n d = false → ∃ u, Does (.combineOpen k) s [.regs, .mem, .poison, .cores, .coal, .glns, .hbms, .serv] u ∧
      (u.gln k).combs = (v.gln k).combs ∧ u.get (GLN_IRQ_JOB_FAIL k) = 1 ∧ u.get (GLN_LAST_CODE k) = cGlnDesc ∧
      (alone → (∀ x ∈ (v.gln k).combDone, x.1 ≠ n) → v.get (GLN_CHEAD_HEAD k n) < v.get (GLN_CSIZE_ENTRIES k n) →
        u.get (GLN_CHEAD_HEAD k n) = ringNext (glnRing true k n) v (v.get (GLN_CHEAD_HEAD k n))))

/-- A returned piece is written in its row, and its last piece counts the row; the marker whose COUNT is reached sends the READY notice
to all four Gleaners; a return for no open job is refused with GLN_RET_STALE (R190, R191). -/
def Obligations.ReturnsAreTaken : Prop :=
  ∀ (i : Nat) (p : Packet) (s t : State), s.dataUp = true → s.JobsOk →
    (∀ j, vtTake (fun p => p.h.kind == kRet && rtSub p != 2) i s = .fresh p t → retFull p s = false →
      combOf t (rtDie p) (rtTag p) = some j → rtOk j.words p = true → j.told.contains (rtPair p) = false →
      Tab.get (fun _ => 0) j.marks (rtPair p) = 0 →
      let a := gaOff (cjRet j.words) + retIndex j.words (rtExpert p) (rtReplica p) (rtSlot p) * cjRetStride j.words + 2048 * rtPiece p
      accessCode t p.h.stream p.h.key pL a p.data.length = 0 →
      ∃ u, Does (.retPiece i) s [.free, .regs, .mem, .poison, .cores, .coal, .vt, .links, .glns, .hbms, .serv] u ∧
        (∀ o, (h : o < p.data.length) → u.byte (a + o) = p.data[o]) ∧ (∀ b, b < a ∨ a + p.data.length ≤ b → u.byte b = s.byte b) ∧
        (rtPieces p ≤ 1 → combOf u (rtDie p) (rtTag p) = some { j with
          rows := Tab.set (fun _ => 0) j.rows (rtPair p) (Tab.get (fun _ => 0) j.rows (rtPair p) + 1) } ∧
          u.get (GLN_RET_RECV_COUNT (rtDie p)) = (t.get (GLN_RET_RECV_COUNT (rtDie p)) + 1) % 2 ^ 64)) ∧
    (∀ j, vtTake (fun p => p.h.kind == kRet && rtSub p == 2) i s = .fresh p t →
      combOf t (rtDie p) (rtTag p) = some j → rtOk j.words p = true → rtAbort p = false → j.told.contains (rtPair p) = false →
      Tab.get (fun _ => 0) j.rows (rtPair p) ≤ rtCount p →
      ∃ u y, Does (.retMarker i) s [.free, .regs, .mem, .poison, .cores, .coal, .vt, .links, .glns, .hbms, .serv] u ∧
        combOf u (rtDie p) (rtTag p) = some y ∧ Tab.get (fun _ => 0) y.marks (rtPair p) = rtCount p + 1 ∧
        ∀ q : Fin 4, (u.gln q).notes = (s.gln q).notes ++
          (if Tab.get (fun _ => 0) j.rows (rtPair p) = rtCount p then [⟨rtTag p, rtPair p, combDigest j.words⟩] else [])) ∧
    (vtTake (fun p => p.h.kind == kRet && rtSub p == 2) i s = .fresh p t → combOf t (rtDie p) (rtTag p) = none →
      ∃ u, Does (.retMarker i) s [.free, .regs, .mem, .poison, .cores, .coal, .vt, .links, .glns, .hbms, .serv] u ∧
        u.get (GLN_RET_REJ_COUNT (rtDie p)) = min (t.get (GLN_RET_REJ_COUNT (rtDie p)) + 1) (2 ^ 32 - 1) ∧
        u.get (GLN_LAST_CODE (rtDie p)) = cGlnRetStale ∧ u.get (GLN_IRQ_RET_REJ (rtDie p)) = 1)

/-- READY_NOTICE makes a pair ready where the digests agree, and ends the job with GLN_MISMATCH where they do not (R191); a timeout with
no token left that is ready, or a flush, ends it with its code on all four dies (R195); a flushed ring holds nothing, or only jobs that
fail (R188, R195). -/
def Obligations.CombineJobsEnd : Prop :=
  ∀ (k : Fin 4) (s : State), s.dataUp = true → s.JobsOk →
    let ps := [Part.regs, .mem, .poison, .cores, .coal, .glns, .hbms, .serv]
    let ended (c : Instr) (j : CombJob) (code : Nat) := ∃ u, Does c s ps u ∧ CombineEnded j.ring j.ord code s u
    (∀ note rest j, (s.gln k).notes = note :: rest → combOf s k note.tag = some j →
      (note.digest = combDigest j.words → ∃ u, Does (.readyNotice k) s ps u ∧
        combOf u k note.tag = some { j with ready := j.ready ++ [note.pair], seen := true } ∧ (u.gln k).notes = rest ∧
        ∀ a, u.byte a = s.byte a) ∧
      (note.digest ≠ combDigest j.words → ended (.readyNotice k) j cGlnMismatch)) ∧
    (∀ (c : Fin 8) j, (s.gln k).combs.find? (fun j => j.ctx == c.val) = some j →
      (∀ q : Fin 4, ∀ i, combCopy q j.ring j.ord s = some i → nextToken s i = none) → ended (.glnTimeout k c) j cGlnTimeout) ∧
    (∀ (n : Fin 16) j, (s.gln k).combs.filter (fun j => j.ring == n.val) = [j] → combNext k n s = s.get (GLN_CTAIL_TAIL k n) →
      ended (.glnFlush k true n) j cGlnFlushed) ∧
    (∀ n : Fin 16, ∃ u, Does (.glnFlush k false n) s ps u ∧ ∀ j ∈ (u.gln k).rets, j.ring = n → j.fail ≠ 0)

/-- COMBINE_TOKEN combines the token that R194 picks: its output row holds the exact weighted sum of the KEPT rows and the residual,
rounded once to the job's format, or the residual or zeros where none is KEPT (R192, R193); nothing else is written. -/
def Obligations.CombineTokenSumsExactly : Prop :=
  ∀ (k : Fin 4) (stall stallSrc : Nat) (j : CombJob) (t : Nat) (f : Format) (s : State), s.dataUp = true → s.JobsOk →
    pickComb k s = some (j, t) → cjFmt j.words = some f → j.left.filter (fun x => x != t) ≠ [] →
    let d := j.words
    let i := t - cjTokBase d
    let s1 := (s.count (GLN_STALL_RDY_COUNT k) stall).count (GLN_STALL_SRC_COUNT k) stallSrc
    let j1 := { j with stall := j.stall + stall, stallSrc := j.stallSrc + stallSrc }
    let e := unitRead (glnWho k j.ring s1) (gaOff (cjAssign d) + 16 * (i * cjK d)) (16 * cjK d) s1
    let kept := (tokenEntries d t s1).filter (fun x => aeKept x.1)
    let r := if cjRes d then unitRead (glnWho k j.ring s1) (gaOff (cjResAddr d) + i * cjResStride d) (2 * cjElems d) e.2.2
      else (0, [], e.2.2)
    let q := readRows k j1 kept r.2.2
    e.1 = 0 → (∀ x ∈ kept, aeReplica x.1 < cjRmax d) → r.1 = 0 → q.1 = 0 →
    let combined (products : Nat) (bs sc : List Byte) (v : State) := ∃ u y,
      Does (.combineToken k stall stallSrc) s [.regs, .mem, .poison, .cores, .coal, .glns, .hbms, .serv] u ∧ combOf u k (cjTag d) = some y ∧
      y.left = j.left.filter (fun x => x != t) ∧ y.tokens = j.tokens + 1 ∧ y.products = j.products + products ∧
      u.get (GLN_TOKENS_COUNT k) = (s.get (GLN_TOKENS_COUNT k) + 1) % 2 ^ 64 ∧
      u.get (GLN_PRODUCTS_COUNT k) = (s.get (GLN_PRODUCTS_COUNT k) + products) % 2 ^ 64 ∧
      ∀ a, u.byte a = (putRow k j1 t bs sc v).byte a
    (kept = [] → combined 0 (if cjRes d then r.2.1 else List.replicate (f.bytes (cjElems d)) 0)
      (if f.scaled then List.replicate (cjElems d / 32) 0 else []) r.2.2) ∧
    (kept ≠ [] →
      let zero : List Tally := (List.range (cjElems d)).map (fun _ => {})
      let res := if cjRes d then addRow (.fin false 1 0) (f16Row r.2.1 (cjElems d)) zero else zero
      let sum := q.2.1.foldl (fun a x => x.1.foldl (fun b w => addRow w x.2 b) a) res
      let out := readRow 48 f (sum.zipIdx.map (fun x =>
        (x.1, readoutMode (cjRmode d) (cjSeed d) (cjTid d) (i * cjElems d + x.2))))
      combined (kept.length * (if cjWprec d then 2 else 1) * cjElems d) (packElems f out.1) (out.2.1.map (BitVec.ofNat 8)) q.2.2)

/-! The collective engines (08_collectives R203 to R224, R229 to R231). -/

/-- GROUP jobs open a context on all four engines from the node table, with its rank, size and digest and NEXT_SEQ 0, or close an open
one; one that R204 does not allow ends with COLL_GROUP and opens or closes nothing. A collective leaves QUEUED with its group's
NEXT_SEQ and the digest of R209: OPENING where its descriptor and planes keep the rules, ABORTING with its cause where they do not
(R206, R208, R214); without an open group it ends with COLL_DESC. -/
def Obligations.GroupsAndCollectivesOpen : Prop :=
  (∀ (n : Fin 16) (d : List Nat) (s t : State), s.dataUp = true → colReadyRing n s = true → dw d 0 0 4 = 7 →
    colCopies n s = (some (d, true), t) → groupBits d = true →
    let g := gdGctx d
    let failed (c : Instr) := ∃ u, Does c s [.regs, .mem, .poison, .cores, .coal, .col, .hbms] u ∧ gOpen u g = gOpen s g ∧
      u.col = { s.col with flush := s.col.flush.filter (fun f => f != (n.val, s.get (COL_HEAD_HEAD 0 n))) } ∧
      ∀ k : Fin 4, u.get (COL_IRQ_ABORT k) = 1 ∧ u.get (COL_LAST_STATUS k) = cCollGroup
    (gdAction d = 0 → gOpen t g = false → ∀ ns v, groupTable n d t = (some ns, v) →
      ∃ u, Does (.groupOpen n) s [.regs, .mem, .poison, .cores, .coal, .col, .hbms] u ∧ gNodes u g = ns ∧ ∀ k : Fin 4,
        u.get (COL_GCTX_A_OPEN k g) = 1 ∧ u.get (COL_GCTX_A_SIZE k g) = ns.length ∧
        u.get (COL_GCTX_A_RANK k g) = ns.findIdx (fun x => x == s.node) ∧ u.get (COL_GCTX_B_GROUP_ID k g) = gdGid d ∧
        u.get (COL_GCTX_B_NEXT_SEQ k g) = 0 ∧ u.get (COL_GDIG_DIGEST k g) = groupDigest (gdGid d) ns % 2 ^ 64 ∧
        u.get (COL_IRQ_DONE k) = 1) ∧
    (gdAction d = 1 → gOpen t g = true → colQueued g t = false → (∀ j ∈ t.col.jobs, j.inGroup = true → j.g ≠ g) →
      ∃ u, Does (.groupClose n) s [.regs, .mem, .poison, .cores, .coal, .col, .hbms] u ∧
        (∀ k : Fin 4, u.get (COL_GCTX_A_OPEN k g) = 0 ∧ u.get (COL_IRQ_DONE k) = 1) ∧ (∀ v ∈ u.col.votes, v.g ≠ g)) ∧
    (gdAction d = 0 → gOpen t g = true → failed (.groupOpen n)) ∧ (gdAction d = 1 → gOpen t g = false → failed (.groupClose n))) ∧
  (∀ (n c : Nat) (d : List Nat) (same : Bool) (s t : State), s.dataUp = true → s.JobsOk → nextRing s = some n → freeCtx n s = some c →
    colCopies n s = (some (d, same), t) →
    let g := cdGctx d
    let idx := t.get (COL_HEAD_HEAD 0 n)
    let j : ColJob := { ctx := c, ring := n, words := d, g := g, seq := gNext t g,
                        dig := collDigest d (gDig t g) (gNext t g) (t.get ALM_MODE_CUR),
                        grants := (List.range 4).map (fun k => t.get (COL_RCTX_COUNT k k)) }
    let v := concludeLate g (gNext t g) (showOpen { t with col := { t.col with jobs := t.col.jobs ++ [j] } })
    let cause := openCause j same (t.col.flush.contains (n, idx)) v
    let opened (y : ColJob) := ∃ u, Does .collOpening s [.free, .regs, .mem, .poison, .cores, .coal, .vt, .links, .col, .hbms] u ∧
      u.col.jobs = s.col.jobs ++ [y] ∧ ∀ k : Fin 4, u.get (COL_CTX_OPEN k c) = 1 ∧ u.get (COL_CTX_RING k c) = n ∧
        u.get (COL_CTX_STATE k c) = y.st ∧ u.get (COL_CTX_GCTX k c) = g ∧ u.get (COL_RSTAT_ACTIVE k n) = 1
    (gOpen t g = true → (∀ h ∈ t.col.held, ¬ (h.1 = g ∧ h.2.1 = gNext t g)) →
      (cause = 0 → ∀ ns w, readCounts j v = (some ns, w) → opened { j with sizes := ns }) ∧
      (cause ≠ 0 → opened { j with cause := cause, st := csAborting, voted := true })) ∧
    (gOpen t g = false → ∃ u, Does .collOpening s [.free, .regs, .mem, .poison, .cores, .coal, .vt, .links, .col, .hbms] u ∧
      CollectiveEnded { j with inGroup := false } cCollDesc false s u))

/-- The combine point counts each rank's OPEN and CLOSE once, calls the outcome at the last, and makes any ABORT or OPEN of a differing
digest the end of the collective (R215, R216); where it cannot yet tell whom to call, the call waits (log entry 48). -/
def Obligations.CombinePointCountsVotes : Prop :=
  ∀ (i : Nat) (p : Packet) (sw : Bool) (g : Nat) (v : ColVotes) (s t : State), s.dataUp = true → groupOf t p = some g →
    votesOf t g (cpSeq p) = some v → v.fin = false → gRank t g % 16 = 0 →
    let held (c : Instr) (w : ColVotes) := ∃ u, Does c s [.free, .regs, .mem, .poison, .cores, .coal, .vt, .links, .col] u ∧
      votesOf u g (cpSeq p) = some w
    let shut (w : ColVotes) (code : Nat) := { w with fin := true, late := if hierHere t w = none then some code else w.late }
    (cpPhase p = phOpen → colTake [phOpen] none i s = (some p, sw, t) →
      let w := { v with opens := v.opens.filter (fun r => r != cpRank p) ++ [cpRank p] }
      (cpDig p = v.dig → held (.openVote i) { w with went := v.went || decide (w.opens.length = (voteRanks t w).length) }) ∧
      (cpDig p ≠ v.dig → held (.openVote i) (shut w cCollMismatch))) ∧
    (cpPhase p = phClose → colTake [phClose] none i s = (some p, sw, t) →
      let w := { v with closes := v.closes.filter (fun r => r != cpRank p) ++ [cpRank p] }
      (cpDig p = v.dig → held (.closeVote i)
        { w with fin := decide (w.closes.length = (voteRanks t w).length) && !(hierHere t w).getD false }) ∧
      (cpDig p ≠ v.dig → held (.closeVote i) v)) ∧
    (cpPhase p = phAbort → colTake [phAbort] none i s = (some p, sw, t) → held (.abortVote i) (shut v (cpCode p)))

/-- GO starts an OPENING collective (R214); data of its phases are kept, a packet of another digest makes the member vote ABORT with
COLL_MISMATCH (R209, R216, R226), and one that breaks the switch's tags votes ABORT with COLL_SWITCH (R221); NOCTX and its retry send a swath again (R221). -/
def Obligations.CollectivesTakeData : Prop :=
  ∀ (i : Nat) (p : Packet) (sw : Bool) (j : ColJob) (s t : State), s.dataUp = true → s.JobsOk → liveOf t p = some j →
    let ps : List Part := [.free, .regs, .mem, .poison, .cores, .coal, .vt, .links, .col, .hbms]
    let aborts (c : Instr) (code : Nat) := j.voted = false → ∃ u y, Does c s ps u ∧ colAt u j.ctx = some y ∧ y.voted = true ∧
      y.st = (if j.st = csReady then csReady else csAborting) ∧ y.cause = (if j.cause = 0 then code else j.cause)
    (colTake [phGo] none i s = (some p, sw, t) → j.final = false → takesData j = true → cpDig p ≠ j.dig →
      aborts (.go i) cCollMismatch) ∧
    (colTake [phGo] none i s = (some p, sw, t) → j.st = csOpening → cpDig p = j.dig → ∃ u y, Does (.go i) s ps u ∧ colAt u j.ctx = some y ∧ y.ran = true ∧
      (y.st = csRunning ∨ y.st = csAborting) ∧ (cdOp j.words = 6 → y.st = csRunning)) ∧
    (∀ v q, s.vt.recv[i]? = some (v, q) → cpRank q ≠ rankSwitch →
      colTake [phAnchor, phLanes, phAnchorR, phValues, phPiece] none i s = (some p, sw, t) → takesData j = true → j.final = false →
      (cpDig p ≠ j.dig → aborts (.collData i) cCollMismatch) ∧
      (cpDig p = j.dig → (cpPhase p = phPiece → cdOp j.words = 7 → cpIndex p / areaPieces j.words = gRank t j.g) →
        (∀ c ∈ j.chunks, c.phase = phPiece → c.index = cpIndex p → c.rank ≠ cpRank p) →
        ∃ u y, Does (.collData i) s ps u ∧ colAt u j.ctx = some y ∧
          y.chunks = j.chunks ++ [⟨cpPhase p, cpIndex p, cpRank p, p.h.psn, p.data⟩] ∧
          u.get (COL_BYTES_RX_COUNT (engineOf p)) = (t.get (COL_BYTES_RX_COUNT (engineOf p)) + p.data.length) % 2 ^ 64)) ∧
    (colTake [phAnchorR, phTotals] (some true) i s = (some p, sw, t) → takesData j = true → j.final = false → cpDig p = j.dig →
      let bad := haveAll t j (cpPhase p) (cpIndex p) rankSwitch = true ∨
        phaseLen j.words (gSize t j.g) (gRank t j.g) (cpPhase p) (cpIndex p) <
          (gather j (cpPhase p) (cpIndex p) rankSwitch).length + p.data.length ∨
        cpLw p ≠ lwOf j.words ∨ cpContrib p ≠ contribOf t j ∨ cpIndex p ∉ j.out
      (bad → aborts (.switchResult i) cCollSwitch) ∧
      (¬ bad → ∃ u y, Does (.switchResult i) s ps u ∧ colAt u j.ctx = some y ∧
        y.chunks = j.chunks ++ [⟨cpPhase p, cpIndex p, rankSwitch, p.h.psn, p.data⟩])) ∧
    (colTake [phNoctx] none i s = (some p, sw, t) → cpDig p = j.dig → takesData j = true → cpIndex p ∈ j.out → cpIndex p ∉ j.retry →
      ∃ u, Does (.noctx i) s ps u ∧ colAt u j.ctx = some { j with retry := j.retry ++ [cpIndex p] }) ∧
    (∀ (c : Fin 16) (q : Nat) e, colAt s c = some e → q ∈ e.retry → takesData e = true →
      ∃ u y, Does (.noctxRetry c q) s [.regs, .mem, .poison, .cores, .coal, .vt, .links, .col] u ∧ colAt u c = some y ∧ y.retry = e.retry.filter (fun r => r != q) ∧
        u.get (COL_NOCTX_COUNT (q % 4)) = min (s.get (COL_NOCTX_COUNT (q % 4)) + 1) (2 ^ 32 - 1))

/-- READY engines, COMMIT and COMMIT_DONE end a collective with success; an ABORT result, the grace after its deadline and a flush end it
or make it vote ABORT, with their codes (R214 to R217, R224, R229). -/
def Obligations.CollectivesEnd : Prop :=
  ∀ (s : State), s.dataUp = true → s.JobsOk →
    (∀ (c : Fin 16) j, colAt s c = some j →
      (∀ k : Fin 4, j.st = csRunning → j.rdy.contains k.val = false → engineDone k s j = true →
        ∃ u, Does (.collReady c k) s [.regs, .mem, .poison, .cores, .coal, .vt, .links, .col] u ∧
          colAt u c = some (if j.rdy.length < 3 then { j with rdy := j.rdy ++ [k.val] } else
            { j with rdy := j.rdy ++ [k.val], st := csReady, closed := true })) ∧
      (j.st = csCommitting → ∃ u, Does (.commitDone c) s [.free, .regs, .mem, .poison, .cores, .coal, .vt, .links, .col, .hbms] u ∧
        CollectiveEnded j 0 false s u) ∧
      (j.final = false → j.late = false → j.st ≠ csCommitting →
        ∃ u y, Does (.collDeadline c) s [.regs, .mem, .poison, .cores, .coal, .vt, .links, .col] u ∧ colAt u c = some y ∧
          y.late = true ∧ (j.voted = false → y.voted = true ∧ y.st = (if j.st = csReady then csReady else csAborting) ∧
            y.cause = (if j.cause = 0 then cCollTimeout else j.cause))) ∧
      (j.final = false → j.late = true → ∃ u, Does (.collGraceExpiry c) s [.free, .regs, .mem, .poison, .cores, .coal, .vt, .links, .col, .hbms] u ∧
        CollectiveEnded j cCollTimeout j.closed s u)) ∧
    (∀ (i : Nat) p sw t j, liveOf t p = some j → j.final = false →
      (colTake [phCommit] none i s = (some p, sw, t) → j.st = csReady → cpDig p = j.dig →
        ∃ u, Does (.commit i) s [.free, .regs, .mem, .poison, .cores, .coal, .vt, .links, .col] u ∧
          colAt u j.ctx = some { j with st := csCommitting, final := true }) ∧
      (colTake [phResult] none i s = (some p, sw, t) → cpCode p ≠ 0 →
        ∃ u, Does (.abortResult i) s [.free, .regs, .mem, .poison, .cores, .coal, .vt, .links, .col, .hbms] u ∧
          CollectiveEnded j (cpCode p) false s u)) ∧
    (∀ (k : Fin 4) (n : Fin 16) j, s.col.jobs.find? (fun j => j.ring == n.val) = some j → j.inGroup = true → j.final = false →
      j.voted = false → j.st ≠ csCommitting →
      ∃ u y, Does (.colFlush k n) s [.regs, .mem, .poison, .cores, .coal, .vt, .links, .col] u ∧ colAt u j.ctx = some y ∧
        y.voted = true ∧ y.st = (if j.st = csReady then csReady else csAborting) ∧
        y.cause = (if j.cause = 0 then cCollFlushed else j.cause))

/-! The links (09_fabric_links R235 to R258). A port acts while the dies that carry it are unfenced. -/

/-- VL_CTRL, presence, training, HELLO and the hold time move a port through R245's states; HELLO from the expected peer brings it UP once
both sides have sent SEEN, and any other takes it DOWN with LINK_PEER or LINK_RTT (R245 to R247, R252). Silence or a frame unacknowledged
at its limit takes an UP port DOWN (R244); LOSS_CAUSE, also for a port whose link die is fenced, calls the loss PLANNED where a BYE came
before it, ABSENT or FAULT, and counts it (R253). -/
def Obligations.LinksComeUpAndGoDown : Prop :=
  (∀ (n : Fin 19) (s : State), s.dataUp = true → portDieOk s n = true →
    let all : List Part := [.free, .regs, .mem, .poison, .cores, .coal, .vt, .links]
    let st := vlState s n
    let fallen := if present n s = true ∨ (s.link n).loss ≠ none then vlDown else vlAbsent
    (∀ v, (VL_CTRL_ENABLE n).of v = 1 → st = vlDisabled → ∃ u, Does (.portEnable n v) s [.free, .regs, .coal, .vt, .links] u ∧
      u.get (VL_CTRL_ENABLE n) = 1 ∧ vlState u n = (if present n s = true then vlTraining else vlAbsent) ∧
      (u.link n).here = !isUp n) ∧
    (∀ v, (VL_CTRL_ENABLE n).of v = 0 → ∃ u, Does (.portEnable n v) s [.free, .regs, .coal, .vt, .links] u ∧
      u.get (VL_CTRL_ENABLE n) = 0 ∧ vlState u n = vlDisabled ∧ (u.link n).here = false ∧
      (st = vlUp → (u.link n).last = some (.ctl (.bye 2)))) ∧
    (∀ tx rx, st = vlTraining → narrowest n ≤ tx.length → narrowest n ≤ rx.length →
      ∃ u, Does (.trainingDone n tx rx) s [.regs, .coal, .links] u ∧ vlState u n = vlHello ∧
        u.get (VL_STATE_TX_WIDTH n) = min (fullWidth n) tx.length ∧ u.get (VL_STATE_RX_WIDTH n) = min (fullWidth n) rx.length) ∧
    (st = vlTraining → ∃ u, Does (.trainingLimit n) s [.regs, .links] u ∧ vlState u n = fallen ∧ u.get (VL_LAST_CODE n) = cLinkTrain) ∧
    (st = vlHello → ∃ u last, Does (.helloTick n) s all u ∧ (u.link n).last = some (.ctl last) ∧
      last = .hello s.node n 0 (if isUp n then n.val - 15 else 0) (ofBool (s.link n).seen) 4096 1024 (s.alm % 2 ^ 32) (s.link n).peerTs ∧
      vlState u n = (if ((s.link n).seenSent = true ∨ (s.link n).seen = true) ∧ (s.link n).peerSeen = true then vlUp else vlHello)) ∧
    (∀ node port kind plane seen credN credX ts echo hold, st = vlHello →
      let good := if isUp n = true then kind.toNat = 1 ∧ plane.toNat = n.val - 15
        else kind.toNat = 0 ∧ node.toNat = s.get (VL_EXPECT_NODE n) ∧ port.toNat = s.get (VL_EXPECT_PORT n)
      let rtt := (s.alm + 2 ^ 32 - echo.toNat) % 2 ^ 32 - hold
      let hello := Instr.hello n node port kind plane seen credN credX ts echo hold
      (¬ good → ∃ u, Does hello s all u ∧ vlState u n = fallen ∧ u.get (VL_LAST_CODE n) = cLinkPeer ∧ u.get (VL_IRQ_PEER n) = 1) ∧
      (good → seen = false → ∃ u, Does hello s all u ∧ vlState u n = vlHello ∧ (u.link n).seen = true ∧
        (u.link n).n.granted = credN.toNat ∧ (u.link n).x.granted = credX.toNat) ∧
      (good → seen = true → ackLimit n s < 2 * rtt → ∃ u, Does hello s all u ∧ vlState u n = fallen ∧
        u.get (VL_LAST_CODE n) = cLinkRtt) ∧
      (good → seen = true → 2 * rtt ≤ ackLimit n s → ∃ u, Does hello s all u ∧ u.get (VL_RTT_RTT_NS n) = min rtt 65535 ∧
        vlState u n = (if (s.link n).seenSent = true then vlUp else vlHello))) ∧
    (st = vlDown → ∃ u, Does (.holdExpiry n) s [.regs, .links] u ∧
      vlState u n = (if present n s = false then vlAbsent else if s.flag (VL_CTRL_ENABLE n) = true then vlTraining else vlDown)) ∧
    (∀ units cnt caps, isUp n = true → units.toNat ≤ 4096 → ∃ u, Does (.adv n units cnt caps) s [.regs, .coal] u ∧
      RegsBut [(COL_RCTX_UNITS (n.val - 15) (n.val - 15)).addr] s u ∧ u.get (COL_RCTX_UNITS (n.val - 15) (n.val - 15)) = units.toNat ∧
      u.get (COL_RCTX_COUNT (n.val - 15) (n.val - 15)) = cnt.toNat ∧ u.get (COL_RCTX_CAPS (n.val - 15) (n.val - 15)) = caps.toNat) ∧
    ∀ m : Fin 15, m.val = n.val →
      (∀ on, ∃ u, Does (.prsntChange m on) s [.regs, .links] u ∧ u.get (VL_STATE_PRSNT n) = ofBool on ∧
        vlState u n = (if st = vlDown ∧ on = false ∧ (s.link n).loss = none then vlAbsent else st)) ∧
      (st = vlAbsent → s.flag (VL_STATE_PRSNT n) = true → ∃ u, Does (.prsntSettled m) s [.regs, .links] u ∧ vlState u n = vlTraining)) ∧
  (∀ (n : Fin 19) (s : State), s.dataUp = true → portDieOk s n = true →
    let down (c : Instr) (code : Nat) := ∃ u, Does c s [.free, .regs, .coal, .vt, .links] u ∧ vlState u n = vlDown ∧
      (u.link n).loss = some (code, s.alm)
    (vlState s n = vlUp → down (.linkSilent n) cLinkSilent) ∧
    (vlState s n ≠ vlUp → exec (.linkSilent n) s = .next s) ∧
    (vlState s n = vlUp → (s.link n).n.unacked ≠ [] ∨ (s.link n).x.unacked ≠ [] → down (.ackLimitExpiry n) cLinkReplay) ∧
    ((s.link n).loss = none → ∃ u, Does (.bye n) s [.links] u ∧ u.link n = { s.link n with bye := true }) ∧
    ((s.link n).loss ≠ none → exec (.bye n) s = .next s)) ∧
  (∀ (n : Fin 19) (s : State) (code at_ : Nat), s.dataUp = true → (s.link n).loss = some (code, at_) →
    let absent := isUp n = false ∧ (s.flag (VL_STATE_PRSNT n) = false ∨ ∃ a, (s.link n).prsntEnd = some a ∧ at_ ≤ a + 1000)
    let decided (cause : Nat) (u : State) := Does (.lossCause n) s [.regs, .mem, .poison, .cores, .coal, .vt, .links, .col] u ∧
      (u.link n).loss = none ∧ u.get (VL_STATE_CAUSE n) = cause
    ((s.link n).bye = true ∨ absent → ∃ u, decided (if (s.link n).bye = true then 1 else 2) u ∧
      u.get (VL_DOWN_CNT_OTHER n) = min (s.get (VL_DOWN_CNT_OTHER n) + 1) (2 ^ 32 - 1)) ∧
    ((s.link n).bye = false → ¬ absent → ∃ u, decided 3 u ∧
      u.get (VL_DOWN_CNT_FAULT n) = min (s.get (VL_DOWN_CNT_FAULT n) + 1) (2 ^ 32 - 1) ∧
      u.get (VL_IRQ_DOWN n) = 1 ∧ u.get (VL_LAST_CODE n) = code % 2 ^ 16))

/-- A frame is accepted in order, acknowledged again as a duplicate, or counted and answered with NAK (R241, R242); ACK frees frames, NAK
replays them or takes the port down (R242 to R244); a block slot sends what is due, else a frame, else IDLE, on the next lane of the map,
and MAPSW takes a new map into force (R235, R239, R249). A received block acts as the control block it spells, joins the open frame, or is
counted where it is bad (R236, R237). -/
def Obligations.LinkFramesAndBlocks : Prop :=
  ∀ (n : Fin 19) (s : State), s.dataUp = true → portDieOk s n = true →
    let l := s.link n
    let lane (h : LinkHid) := bitsOf (s.get (VL_MAP_TX_MAP n)) (4 * (h.sent % max 1 (s.get (VL_STATE_TX_WIDTH n)))) 4
    let emitted (h : LinkHid) (b : Block) := { h with last := some b, sent := h.sent + 1, lane := lane h }
    (∀ x seq len bs x2 seq2 crc, vlState s n = vlUp →
      let c := l.ch x
      let frame := Instr.frame n x seq len bs x2 seq2 crc
      let intact := x = x2 ∧ seq = seq2 ∧ bs.length = len.toNat ∧ 1 ≤ len.toNat ∧ len.toNat ≤ 2176 ∧
        crc.toNat = fcrc (ofBool x) seq.toNat len.toNat bs
      let back := (c.e + 65536 - seq.toNat) % 65536
      (intact → back = 0 → ∃ u, Does frame s [.regs, .vt, .links] u ∧ u.link n = l.setCh x { c with e := (c.e + 1) % 65536, nakFor := none } ∧
        u.vt.recv = s.vt.recv ++ [(.port n, { Packet.parse bs with units := ceilDiv len.toNat 64, express := x })]) ∧
      (intact → back ≠ 0 → back ≤ 1024 → ∃ u, Does frame s [.regs, .vt, .links] u ∧ u.vt = s.vt ∧
        RegsBut [(VL_DUPS_COUNT n).addr] s u ∧ u.get (VL_DUPS_COUNT n) = (s.get (VL_DUPS_COUNT n) + 1) % 2 ^ 64 ∧
        u.link n = { l with due := addDue l.due (ackBlock l) }) ∧
      (¬ intact → ∃ u, Does frame s [.regs, .vt, .links] u ∧ u.vt = s.vt ∧ RegsBut [(VL_CRC_ERR_COUNT n).addr] s u ∧
        u.get (VL_CRC_ERR_COUNT n) = (s.get (VL_CRC_ERR_COUNT n) + 1) % 2 ^ 64 ∧
        (c.nakFor = none → (u.link n).due = addDue l.due (.nak (ofBool x) c.e)))) ∧
    (∀ an ax cn cx, ∃ u, Does (.linkAck n an ax cn cx) s [.links] u ∧
      u.link n = { l with n := ackChan an.toNat cn.toNat l.n, x := ackChan ax.toNat cx.toNat l.x }) ∧
    (vlState s n = vlUp → ∃ u, Does (.ackTick n) s [.links] u ∧ u.link n = { l with due := addDue l.due (ackBlock l) }) ∧
    (∀ x seq, vlState s n = vlUp →
      let c := l.ch x
      let again := c.unacked.dropWhile (fun f => f.seq != seq.toNat)
      (again ≠ [] → (∀ f ∈ again, f.sends < replayLimit n s) → ∃ u, Does (.nak n x seq) s [.free, .regs, .coal, .vt, .links] u ∧
        u.link n = l.setCh x { c with replay := again.map (fun f => f.seq) }) ∧
      ((∃ f ∈ again, replayLimit n s ≤ f.sends) → ∃ u, Does (.nak n x seq) s [.free, .regs, .coal, .vt, .links] u ∧
        vlState u n = vlDown ∧ (u.link n).loss = some (cLinkReplay, s.alm))) ∧
    (idleState n s = false →
      (∀ c rest, l.due = c :: rest → (∀ q, c ≠ .mapsw q) → ∃ u, Does (.blockSlot n) s [.links] u ∧
        u.link n = emitted { l with due := rest } (.ctl c)) ∧
      (∀ q r m w rest, l.due = .mapsw q :: rest → l.txReq = some (r, m, w) → ∃ u, Does (.blockSlot n) s [.regs, .coal, .vt, .links] u ∧
        (u.link n).last = some (.ctl (.mapsw q)) ∧ (u.link n).due = rest ∧ (u.link n).txReq = none ∧
        u.get (VL_MAP_TX_MAP n) = m % 2 ^ 36 ∧ u.get (VL_MAP_TX_MAPSEQ n) = r % 16 ∧ u.get (VL_STATE_TX_WIDTH n) = w % 16) ∧
      (l.due = [] → vlState s n ≠ vlUp ∨ (l.x.opn = none ∧ l.x.ready = false ∧ l.n.opn = none ∧ l.n.ready = false) →
        ∃ u, Does (.blockSlot n) s [.links] u ∧ u.link n = emitted l (.ctl .idle)) ∧
      (∀ p ps, l.due = [] → vlState s n = vlUp → l.x.opn = none → l.x.ready = false → l.n.opn = none → l.n.ready = true →
        l.n.replay = [] → l.n.queue = p :: ps → ∃ u, Does (.blockSlot n) s [.regs, .links] u ∧
          (u.link n).last = some (.ctl (.sof 0 l.n.next p.wire.length)) ∧ (u.link n).n.queue = ps ∧
          (u.link n).n.unacked = l.n.unacked ++ [⟨l.n.next, p, 1⟩] ∧ (u.link n).n.used = (l.n.used + creditUnits p) % 2 ^ 24) ∧
      (let c := Ctl.align (s.get (VL_MAP_TX_MAPSEQ n)) ((l.cw + 4096) % 2 ^ 32)
       ∃ u, Does (.alignBlock n) s [.links] u ∧ (u.link n).cw = l.cw + 4096 ∧
        (u.link n).due = l.due ++ List.replicate (s.get (VL_STATE_TX_WIDTH n)) c ∧
        (s.flag (VL_STATE_TX_SPARE n) = true → (u.link n).spare = some c))) ∧
    (idleState n s = true → exec (.alignBlock n) s = .next s ∧
      ∃ u, Does (.blockSlot n) s [.links] u ∧ u.link n = { l with last := none }) ∧
    (∀ w, w % 2 = 1 → ctlBad (w / 2) = true → ∃ u, Does (.controlBlockDiscard n w) s [.regs] u ∧
      RegsBut [(VL_CTL_ERR_COUNT n).addr] s u ∧ u.get (VL_CTL_ERR_COUNT n) = (s.get (VL_CTL_ERR_COUNT n) + 1) % 2 ^ 64) ∧
    (let received (c : Ctl) := Instr.controlBlockDiscard n (Block.bits (.ctl c))
     exec (received .idle) s = .next s ∧
     (∀ an ax cn cx, exec (received (.ack an.toNat ax.toNat cn.toNat cx.toNat)) s = exec (.linkAck n an ax cn cx) s) ∧
     (∀ x seq, exec (received (.nak (ofBool x) seq.toNat)) s = exec (.nak n x seq) s) ∧
     (∀ q, exec (received (.mapsw q.toNat)) s = exec (.mapsw n q) s) ∧
     ∀ r < 256, exec (received (.bye r)) s = exec (.bye n) s) ∧
    (∀ (bs : List Byte) (f : RxFrame), bs.length = 32 → l.x.rx = some f →
      ∃ u, Does (.controlBlockDiscard n (Block.bits (.data 1 0 bs))) s [.links] u ∧
        u.link n = { l with x := { l.x with rx := some { f with bytes := f.bytes ++ bs } } })

/-- A lost lane is replaced by the spare or drops from the map, and too few left take the port down (R248 to R250); the two sides go over
to a new map by LANEMAP and MAPSW, the latest superseding (R249, R256); a lost lane retrains, soaks and rejoins, or is tried again until its
tries are spent (R251). Which command ends which is the model's reading (log entry 52). -/
def Obligations.LinkLanes : Prop :=
  ∀ (n : Fin 19) (lane : Fin 9) (s : State), s.dataUp = true → portDieOk s n = true → lane < physLanes n →
    let l := s.link n
    let lanes := rxLanes n s
    (vlState s n = vlUp → rxStat n lane s = 0 →
      (∀ sp, (List.range (physLanes n)).find? (fun i => rxStat n i (setRxStat n lane 2 s) == 1) = some sp →
        ∃ u, Does (.laneLoss n lane) s [.free, .regs, .coal, .vt, .links] u ∧ vlState u n = vlUp ∧ u.get (VL_IRQ_LANE n) = 1 ∧
          rxStat n lane u = 3 ∧ rxStat n sp u = 0 ∧ u.get (VL_STATE_RX_SPARE n) = 0 ∧ (u.link n).mapReq =
            some ((l.mapSeq + 1) % 16, mapOf (lanes.map (fun i => if i == lane.val then sp else i)), lanes.length)) ∧
      ((∀ i < physLanes n, rxStat n i (setRxStat n lane 2 s) ≠ 1) →
        ((lanes.filter (fun i => i != lane.val)).length < narrowest n → ∃ u, Does (.laneLoss n lane) s [.free, .regs, .coal, .vt, .links] u ∧
          vlState u n = vlDown ∧ (u.link n).loss = some (cLinkDown, s.alm)) ∧
        (narrowest n ≤ (lanes.filter (fun i => i != lane.val)).length →
          ∃ u, Does (.laneLoss n lane) s [.free, .regs, .coal, .vt, .links] u ∧ vlState u n = vlUp ∧ u.get (VL_IRQ_DEGRADED n) = 1 ∧
            rxStat n lane u = 3))) ∧
    (∀ corr unc, unc < uncorrMax n s → isUp n = false → ∃ u, Does (.laneErrorPeriod n [(lane, corr, unc)] []) s [.regs] u ∧
      RegsBut [(VL_LANE_ERR_CORR n lane).addr] s u ∧
      u.get (VL_LANE_ERR_CORR n lane) = min (s.get (VL_LANE_ERR_CORR n lane) + corr) (2 ^ 32 - 1) ∧
      u.get (VL_LANE_ERR_UNCORR n lane) = min (s.get (VL_LANE_ERR_UNCORR n lane) + unc) (2 ^ 32 - 1)) ∧
    (∀ mapseq map width, vlState s n = vlUp ∨ vlState s n = vlHello →
      let latest := match l.txReq with | some r => r.1 | none => s.get (VL_MAP_TX_MAPSEQ n)
      let left := match l.txReq with | some r => l.due.filter (fun c => c != .mapsw r.1) | none => l.due
      let ahead := (mapseq.toNat + 16 - latest) % 16
      (1 ≤ ahead → ahead < 8 → ∃ u, Does (.lanemap n mapseq map width) s [.links] u ∧
        u.link n = { l with txReq := some (mapseq.toNat, map.toNat, width.toNat),
                            due := left ++ List.replicate width.toNat (.mapsw mapseq.toNat) }) ∧
      (ahead = 0 ∨ 8 ≤ ahead → exec (.lanemap n mapseq map width) s = .next s)) ∧
    (∀ q m w, l.mapReq = some (q, m, w) →
      (∃ u, Does (.lanemapRepeat n) s [.links] u ∧ u.link n = { l with due := addDue l.due (.lanemap q m w) }) ∧
      (∀ mapseq, mapseq.toNat = q → ∃ u, Does (.mapsw n mapseq) s [.regs, .links] u ∧ u.get (VL_MAP_RX_MAP n) = m % 2 ^ 36 ∧
        u.get (VL_MAP_RX_MAPSEQ n) = q ∧ u.get (VL_STATE_RX_WIDTH n) = w % 16 ∧ u.link n = { l with mapReq := none })) ∧
    (∀ op : Fin 3, laneStat (s.get (VL_LANE_STAT_TX n)) lane ≠ 0 → laneStat (s.get (VL_LANE_STAT_TX n)) lane ≠ 7 →
      ∃ u, Does (.train n lane op) s [.regs] u ∧
        laneStat (u.get (VL_LANE_STAT_TX n)) lane = (if op.val = 0 then 3 else if op.val = 1 then 1 else 5)) ∧
    (vlState s n = vlUp ∨ vlState s n = vlHello →
      (rxStat n lane s = 3 → ∃ u, Does (.retrainSoakEnd n lane true) s [.regs] u ∧ rxStat n lane u = 4) ∧
      (rxStat n lane s = 4 → fullWidth n ≤ lanes.length → ∃ u, Does (.retrainSoakEnd n lane true) s [.regs, .links] u ∧
        rxStat n lane u = 1 ∧ u.get (VL_STATE_RX_SPARE n) = 1 ∧ (u.link n).due = l.due ++ [.train lane 1]) ∧
      (rxStat n lane s = 4 → lanes.length < fullWidth n → ∃ u, Does (.retrainSoakEnd n lane true) s [.regs, .links] u ∧
        rxStat n lane u = 0 ∧ (u.link n).mapReq = some ((l.mapSeq + 1) % 16, mapOf (lanes ++ [lane.val]), lanes.length + 1)) ∧
      (rxStat n lane s = 3 ∨ rxStat n lane s = 4 →
        (Tab.get (fun _ => 0) l.tries lane < laneTries n s → ∃ u, Does (.retrainSoakEnd n lane false) s [.regs, .links] u ∧
          rxStat n lane u = 3 ∧ Tab.get (fun _ => 0) (u.link n).tries lane = Tab.get (fun _ => 0) l.tries lane + 1) ∧
        (laneTries n s ≤ Tab.get (fun _ => 0) l.tries lane → ∃ u, Does (.retrainSoakEnd n lane false) s [.regs, .coal, .links] u ∧
          rxStat n lane u = 5 ∧ u.get (VL_LAST_CODE n) = cLaneFailed ∧ u.get (VL_IRQ_LANE n) = 1)))

/-! The transaction engines (10_fabric_transactions R259 to R294). -/

/-- A fresh LOAD, STORE or ATOMIC that its checks accept has its effect on exactly the bytes it names, once, and is answered and marked
as applied; a refused one changes no memory and is answered with its code (R271, R273, R275 to R277). CLOSE retires its context (R270). -/
def Obligations.ReceivedRequestsAreApplied : Prop :=
  ∀ (i : Nat) (p : Packet) (s t : State), s.dataUp = true → p.h.psn < 2 ^ 32 → inRegs p.h.offset = false →
    let off := p.h.offset
    let outside (n : Nat) (u : State) := ∀ a, a < off ∨ off + n ≤ a → u.byte a = s.byte a
    (vtTake (fun p => p.h.kind == kLoad) i s = .fresh p t →
      ∃ u, Does (.load i) s [.free, .regs, .poison, .cores, .coal, .vt, .links, .hbms] u ∧ Applied p u ∧
        (packetCode t p pR p.h.size = 0 → let f := hbmFind off p.h.size t
          Answered p kLoadRsp (if f.anyPoison off p.h.size then cVtPoison else 0) (loadData f off p.h.size) 0 u) ∧
        (packetCode t p pR p.h.size ≠ 0 → Answered p kLoadRsp (packetCode t p pR p.h.size)
          (errBytes (packetCode t p pR p.h.size) p.h.size) 0 u)) ∧
    (vtTake (fun p => p.h.kind == kStore) i s = .fresh p t →
      ∃ u, Does (.store i) s [.free, .regs, .mem, .poison, .cores, .coal, .vt, .links, .hbms] u ∧ Applied p u ∧
        (packetCode t p pW p.h.size = 0 → (∀ j, (h : j < p.data.length) → u.byte (off + j) = p.data[j]) ∧ outside p.data.length u) ∧
        (packetCode t p pW p.h.size ≠ 0 → (∀ a, u.byte a = s.byte a) ∧ Answered p kNack (packetCode t p pW p.h.size) [] 0 u)) ∧
    (let done (c : Instr) (n new res : Nat) := ∃ u, Does c s [.free, .regs, .mem, .poison, .cores, .coal, .vt, .links, .hbms] u ∧ Applied p u ∧
       u.readLE off n = new ∧ outside n u ∧ Answered p kAtomicRsp 0 [] res u
     (vtTake (fun p => p.h.kind == kAtomic && p.h.op == 1) i s = .fresh p t → (bindTab p t).1 = true →
       packetCode t p pA 8 = 0 → (hbmFind off 8 t).anyPoison off 8 = false →
       done (.fetchAdd i) 8 ((s.readLE off 8 + p.h.operand) % 2 ^ 64) (s.readLE off 8)) ∧
     (vtTake (fun p => p.h.kind == kAtomic && p.h.op == 2) i s = .fresh p t → (bindTab p t).1 = true →
       packetCode t p pA 8 = 0 → (hbmFind off 8 t).anyPoison off 8 = false →
       done (.cas i) 8 (if s.readLE off 8 = p.h.operand % 2 ^ 64 then p.h.operand / 2 ^ 64 % 2 ^ 64 else s.readLE off 8)
         (s.readLE off 8)) ∧
     (vtTake (fun p => p.h.kind == kAtomic && p.h.op == 3) i s = .fresh p t → (bindTab p t).1 = true →
       packetCode t p pA 16 = 0 → (hbmFind off 16 t).anyPoison off 16 = false → (Tally.ofSlot (s.readLE off 16)).residueOk = true →
       (Tally.ofSlot p.h.operand).residueOk = true →
       done (.tallyAdd i) 16 (((Tally.ofSlot (s.readLE off 16)).add (Tally.ofSlot p.h.operand)).slot % 2 ^ 128) 0)) ∧
    (∀ c, vtTake (fun p => p.h.kind == kClose) i s = .fresh p t → recvCtx t p.h.stream p.h.src = some c → c.horizon = p.h.psn →
      ∃ u, Does (.close i) s [.free, .regs, .coal, .vt, .links] u ∧ recvCtx u p.h.stream p.h.src = none)

/-- Relayed packets go on once by the DIRECT port or are dropped and counted (R280), an invalid one is counted (R264), and an accepted
notice takes its node down or brings it back, where one that lacks authority is only reported (R288, R289). -/
def Obligations.RelaysNoticesAndBadPackets : Prop :=
  ∀ (i : Nat) (n : Fin 19) (p : Packet) (s : State), s.dataUp = true → s.vt.recv[i]? = some (.port n, p) →
    (p.valid = false → ∃ u, Does (.invalidPacket i) s [.regs, .vt, .links] u ∧ u.vt.recv = s.vt.recv.eraseIdx i ∧
      u.get (VT_RX_BAD_COUNT p.h.stream) = (s.get (VT_RX_BAD_COUNT p.h.stream) + 1) % 2 ^ 64) ∧
    (p.valid = true → p.h.kind ≠ kNotice → p.h.dst ≠ s.node →
      let first := 15 ≤ n.val ∨ s.get (VL_EXPECT_NODE n) = p.h.src
      (epochKnown s p.h.epoch = true → keyKnown s p.h.key = true → first → p.h.dst / 16 = s.node / 16 → p.h.dst ∉ s.vt.down →
        ∀ m, peerPort s p.h.dst = some m → vlState s m = vlUp → ∃ u, Does (.packetRelay i) s [.regs, .coal, .vt, .links] u ∧
          u.vt.recv = s.vt.recv.eraseIdx i ∧
          ((u.link m).ch (p.h.cls == 0)).queue = ((s.link m).ch (p.h.cls == 0)).queue ++ [{ p with units := 0 }]) ∧
      (epochKnown s p.h.epoch = true → keyKnown s p.h.key = true → ¬ first → ∃ u, Does (.packetRelay i) s [.regs, .coal, .vt, .links] u ∧
        u.vt.recv = s.vt.recv.eraseIdx i ∧
        u.get (VT_RELAY_DROPS_COUNT (portDie n)) = (s.get (VT_RELAY_DROPS_COUNT (portDie n)) + 1) % 2 ^ 64)) ∧
    (p.valid = true → p.h.kind = kNotice → epochKnown s p.h.epoch = true →
      let w := p.h.operand
      let said (u : State) := Does (.notice i) s [.regs, .mem, .poison, .cores, .coal, .vt, .links, .col] u
      (noticeOk (.port n) p = true → noteType w = 1 →
        (∀ r ∈ s.vt.notices, ¬ (r.issuer = p.h.src ∧ r.enode = noteENode w ∧ r.eport = noteEPort w ∧ r.ntype = 1 ∧ r.target = noteTarget w)) →
        ∃ u, said u ∧ noteTarget w ∈ u.vt.down ∧ u.get (VT_IRQ_NOTICE (portDie n)) = 1) ∧
      (noticeOk (.port n) p = true → noteType w = 3 → ∃ u, said u ∧ u.vt.recv = s.vt.recv.eraseIdx i ∧ noteTarget w ∉ u.vt.down ∧
        ∀ d ∈ u.vt.dead, d.node = noteENode w → noteEPort w ∉ d.all) ∧
      (noticeOk (.port n) p = false → ∃ u, said u ∧ u.vt.recv = s.vt.recv.eraseIdx i ∧ u.vt.down = s.vt.down ∧ u.vt.dead = s.vt.dead ∧
        u.get (VT_LAST_CODE (portDie n)) = 0x0510))

/-- ACKs, responses and NACKs complete the requests that they cover and no other (R271 to R273, R275, R277), and a resend is the same
packet with RETX and the current epoch (R270, R272, R284). -/
def Obligations.AnswersCompleteRequests : Prop :=
  ∀ (i : Nat) (p : Packet) (c : SendCtx) (s t : State), s.dataUp = true → t.vt.waiting = [] → p.h.stream < 4 →
    sendCtx t p.h.stream p.h.src = some c → c.gen = p.h.gen → (c.out.map (fun o => o.psn)).Nodup →
    let pair (u : State) := sendCtx u p.h.stream p.h.src
    let rest := c.out.filter (fun o => o.psn != p.h.psn)
    let back (cmd : Instr) (o : OutReq) (u : State) := Does cmd s [.regs, .mem, .poison, .cores, .coal, .vt, .links] u ∧
      ∃ e, pair u = some e ∧ (o.acked = true → e.out = rest ∧ e.completed = (c.completed + 1) % 2 ^ 32) ∧
        (o.acked = false → e.completed = c.completed ∧ ∃ q ∈ e.out, q.psn = p.h.psn ∧ q.answered = true ∧ q.status = p.h.status)
    (∀ o ∈ c.out, o.psn = p.h.psn → o.answered = false →
      (vtTakeReply (fun p => p.h.kind == kLoadRsp) i s = some (p, t) → p.h.kind = kLoadRsp → o.pkt.h.kind = kLoad →
        ∃ u, back (.loadRsp i) o u ∧
          (∀ q a, o.land = some (q, a) → coreFenced t q = false →
            (∀ j, (h : j < p.data.length) → u.byte (csOffset q a + j) = p.data[j]) ∧
            ∀ b, b < csOffset q a ∨ csOffset q a + p.data.length ≤ b → u.byte b = s.byte b) ∧
          (o.land = none → ∀ b, u.byte b = s.byte b)) ∧
      (vtTakeReply (fun p => p.h.kind == kAtomicRsp) i s = some (p, t) → p.h.kind = kAtomicRsp → o.pkt.h.kind = kAtomic →
        ∃ u, back (.atomicRsp i) o u ∧ ∀ b, u.byte b = s.byte b)) ∧
    (∀ o ∈ c.out, o.psn = p.h.psn → vtTakeReply (fun p => p.h.kind == kNack) i s = some (p, t) → p.h.kind = kNack →
      (p.h.op ≠ 0xF → ∃ u e, Does (.nack i) s [.regs, .mem, .poison, .cores, .coal, .vt, .links] u ∧ pair u = some e ∧ e.out = rest ∧
        u.get (VT_LAST_CODE p.h.stream) = p.h.status % 2 ^ 16 ∧ u.get (VT_IRQ_REFUSED p.h.stream) = 1) ∧
      (p.h.op = 0xF → ∃ u e, Does (.nack i) s [.regs, .mem, .poison, .cores, .coal, .vt, .links] u ∧ pair u = some e ∧
        e.out = c.out.map (fun q => if q.psn = p.h.psn then { q with busy := true } else q))) ∧
    (vtTakeReply (fun p => p.h.kind == kAck) i s = some (p, t) → p.h.kind = kAck → (∀ o ∈ c.out, o.pkt.h.kind ≠ kClose) →
      ∃ u e, Does (.vtAck i) s [.regs, .mem, .poison, .cores, .coal, .vt, .links] u ∧ pair u = some e ∧
        e.out = (c.out.map (fun o => if ackCovers p.h o.psn = true then { o with acked := true } else o)).filter
          (fun o => !ackCovers p.h o.psn || ((o.pkt.h.kind == kLoad || o.pkt.h.kind == kAtomic) && !o.answered)))

/-- RTO and BUSY resends, the timeout of a pair, its suppression entry, idle CLOSE and FLAG_G (R270, R272, R274, R281, R290). -/
def Obligations.PairsResendTimeOutAndClose : Prop :=
  ∀ (k : Fin 4) (node : Nat) (s : State), s.dataUp = true →
    (∀ c o path d, sendCtx s k node = some c → o ∈ c.out → (c.out.map (fun q => q.psn)).Nodup → o.acked = false → o.answered = false →
      o.pkt.h.dst ∉ s.vt.down → pickPath s o.plane c = some (path, d) →
      let sent (cmd : Instr) := ∃ u e q, Does cmd s [.regs, .vt, .links] u ∧ sendCtx u k node = some e ∧ q ∈ e.out ∧ q.psn = o.psn ∧
        q.path = path ∧ q.busy = false ∧ q.pkt.data = o.pkt.data ∧ q.pkt.h.retx = 1 ∧ q.pkt.h.epoch = s.get (VT_EPOCH_CUR k) ∧
        q.pkt.h.psn = o.pkt.h.psn ∧ u.get (VT_RETX_COUNT k) = (s.get (VT_RETX_COUNT k) + 1) % 2 ^ 64
      (o.busy = false → sent (.rtoResend k node o.psn)) ∧ (o.busy = true → sent (.busyResend k node o.psn))) ∧
    (∀ c, sendCtx s k node = some c → c.out ≠ [] → s.vt.waiting = [] →
      ∃ u, Does (.requestTimeout k node) s [.free, .regs, .mem, .poison, .cores, .coal, .vt, .links] u ∧ sendCtx u k node = none ∧
        u.get (VT_IRQ_TIMEOUT k) = 1 ∧
        (∀ o ∈ c.out, ∀ sl, o.agent = .op sl → ∃ d ∈ u.vt.done, d.agent = .op sl ∧ d.k = k.val ∧
          d.status = (if s.vt.down.contains node then cVtDown else cRemoteTimeout)) ∧
        (node < 2 ^ 18 → (∃ e : Fin 64, s.flag (VT_SUP_A_OPEN 0 e) = false) → (supEntry u node).isSome = true)) ∧
    (∀ e : Fin 64, s.flag (VT_SUP_A_OPEN 0 e) = true → ∃ u, Does (.suppressHoldExpiry k e) s [.regs, .vt] u ∧
      (∀ j : Fin 4, u.get (VT_SUP_A_OPEN j e) = 0 ∧ u.get (VT_SUP_A_TARGET j e) = s.get (VT_SUP_A_TARGET j e)) ∧
      (s.flag MGT_BB_FROZEN = false → u.get MGT_BB_SEQ = (s.get MGT_BB_SEQ + 1) % 2 ^ MGT_BB_SEQ.len)) ∧
    (∀ c path d, sendCtx s k node = some c → c.out = [] → c.closing = false → c.issued ≠ 0 →
      (∀ w ∈ s.vt.waiting, w.k ≠ k ∨ w.node ≠ node) → pickPath s false c = some (path, d) →
      ∃ u e o, Does (.contextIdle k node) s [.regs, .vt, .links] u ∧ sendCtx u k node = some e ∧ e.closing = true ∧ e.out = [o] ∧
        o.pkt.h.kind = kClose ∧ o.psn = c.next ∧ o.path = path) ∧
    (∀ w, s.vt.waiting.find? (fun w => w.k == k.val && w.pkt.h.flagG == 1 && sendable s w) = some w →
      pathSet s w.plane w.k w.node ≠ [] →
      ∃ u e, Does (.flagGRelease k) s [.regs, .mem, .poison, .cores, .coal, .vt, .links] u ∧
        u.vt.waiting = s.vt.waiting.filter (fun v => !(v.k == w.k && v.rid == w.rid)) ∧ sendCtx u k w.node = some e ∧
        ∃ o ∈ e.out, o.rid = w.rid ∧ o.agent = w.agent ∧ o.pkt.data = w.pkt.data)

/-- The old route epoch retires once nothing is unacknowledged under it, or when its window ends (R284); an operation slot issues its
request or completes at once with its refusal, and shows what completed (R266, R268); notices go out a second time (R288). -/
def Obligations.EpochsSlotsAndRepeats : Prop :=
  ∀ (k : Fin 4) (sl : Fin 16) (v : Word) (s : State), s.dataUp = true →
    (s.flag (VT_EPOCH_WINDOW 0) = true →
      (oldInflight s = 0 → ∃ u, Does .epochRetire s [.regs, .vt, .links] u ∧ u.get (VT_EPOCH_WINDOW k) = 0 ∧ u.vt.rold = {} ∧
        u.vt.rcur = s.vt.rcur) ∧
      (∃ u, Does .headlandEnd s [.regs, .vt, .links] u ∧ u.get (VT_EPOCH_WINDOW k) = 0 ∧ u.vt.rold = {} ∧ u.vt.rcur = s.vt.rcur)) ∧
    (∀ (c : Instr) (kind : Nat), (c = .opLoad k sl v ∧ kind = kLoad) ∨ (c = .opStore k sl v ∧ kind = kStore) ∨
        (c = .opAtomic k sl v ∧ kind = kAtomic) → bitsOf v.toNat 0 4 = kind →
      let ga := s.get (VT_OP_ADDR_ADDR k sl)
      let op := bitsOf v.toNat 4 4
      let code := if kind = kAtomic ∧ ¬ (op = 1 ∨ op = 2 ∨ op = 3) then cVtAlign else opCheck kind op (gaOff ga)
      (s.flag (VT_OP_STAT_BUSY k sl) = true → exec c s = .next s) ∧
      (s.flag (VT_OP_STAT_BUSY k sl) = false → (∀ d ∈ s.vt.done, d.k ≠ k ∨ d.agent ≠ .op sl) →
        (code ≠ 0 → ∃ u, Does c s [.regs, .mem, .poison, .cores, .coal, .vt, .links] u ∧ u.get (VT_OP_STAT_BUSY k sl) = 0 ∧
          u.get (VT_OP_STAT_DONE k sl) = 1 ∧ u.get (VT_OP_STAT_STATUS k sl) = code ∧ u.get (VT_IRQ_REFUSED k) = 1 ∧
          u.get (VT_LAST_CODE k) = code ∧ u.get (VT_OP_RES0_RES k sl) = (if kind = kLoad then errVal code else 0)) ∧
        (code = 0 → spraySet s s.vt.rcur (gaNode ga) ≠ [] →
          ∃ u, Does c s [.regs, .mem, .poison, .cores, .coal, .vt, .links] u ∧ u.get (VT_OP_STAT_BUSY k sl) = 1 ∧
            u.vt.nextRid = s.vt.nextRid + 1 ∧
            ((∃ w ∈ u.vt.waiting, w.rid = s.vt.nextRid ∧ w.agent = .op sl ∧ w.k = k.val ∧ w.node = gaNode ga) ∨
             (∃ e, sendCtx u k (gaNode ga) = some e ∧ ∃ o ∈ e.out, o.rid = s.vt.nextRid ∧ o.agent = .op sl ∧ o.pkt.h.kind = kind ∧
               o.pkt.h.offset = gaOff ga))))) ∧
    (∀ d, s.vt.done.find? (fun d => d.k == k.val && d.agent == Agent.op sl) = some d →
      ∃ u, Does (.opComplete k sl) s [.regs, .vt] u ∧ u.get (VT_OP_STAT_BUSY k sl) = 0 ∧ u.get (VT_OP_STAT_DONE k sl) = 1 ∧
        u.get (VT_OP_STAT_STATUS k sl) = d.status % 2 ^ 16 ∧ u.get (VT_OP_RES0_RES k sl) = d.res % 2 ^ 64 ∧
        RegsBut [(VT_OP_STAT_BUSY k sl).addr, (VT_OP_RES0_RES k sl).addr, (VT_OP_RES1_PSN k sl).addr] s u) ∧
    ((∀ p ∈ s.vt.again, p.h.cls = 0) → ∃ u, Does .noticeRepeat s [.vt, .links] u ∧ u.vt.again = [] ∧
      ∀ n : Fin 19, vlState s n = vlUp → (u.link n).x.queue = (s.link n).x.queue ++ s.vt.again)

/-! The tier engines (11_bulk_memory_tiers R301 to R318, R325, R326, R331, R346). -/

/-- ALLOC, FREE, PIN and UNPIN are done in the step that takes them up: the block's entry, its frames and its tenant's quota are as R305 and
R309 say, and the command ends with success; a FREE of a block with accesses in flight drains it first; a handle that R301 or R302 does not
allow ends any command with TIER_HANDLE. First fit over the block zone is the model's reading (log entry 28). -/
def Obligations.TierCommandsOnBlocks : Prop :=
  ∀ (k : Fin 4) (n : Fin 16) (d : List Nat) (s t : State), TierNext k n d s t →
    let ps : List Part := [.regs, .mem, .poison, .cores, .coal, .tiers, .silo, .hbms]
    let tn := tdTenant d
    (∀ i, tdOp d = opAlloc → unusedIndex t k = some i →
      let v := entryRead k n i t
      EntryApart d i v →
      (tdBkind d = bkScratch → framesFree v k (tdOff d) (tdLen d) = true → v.dieFenced (20 + stackOf (tdOff d)) = false →
        v.get (TIER_QUOTA_A_HBM_USED 0 tn) + frameCount (tdLen d) ≤ v.get (TIER_QUOTA_A_HBM_LIMIT 0 tn) →
        ∃ u, Does (.alloc k n) s ps u ∧ TierEnded k n d 0 v u ∧
          blkAt u i = { st := bResident, kind := bkScratch, tenant := tn, gen := (blkAt v i).gen, len := tdLen d, off := tdOff d } ∧
          FramesAre (tdOff d) (tdLen d) fResident u ∧
          u.get (TIER_QUOTA_A_HBM_USED 0 tn) = v.get (TIER_QUOTA_A_HBM_USED 0 tn) + frameCount (tdLen d) ∧
          (∀ a, tdOff d ≤ a → a < tdOff d + frameCount (tdLen d) * frameSize → (a < btAddr v i ∨ btAddr v i + 64 ≤ a) →
            (a < gaOff (tdCompl d) ∨ gaOff (tdCompl d) + 64 ≤ a) → u.byte a = 0)) ∧
      (∀ lu, tdBkind d ≠ bkScratch → siloReady v = true →
        v.get (TIER_QUOTA_B_SILO_USED 0 tn) + siloQuota (tdLen d) ≤ v.get (TIER_QUOTA_B_SILO_LIMIT 0 tn) →
        fitExtent v false (tdLen d) = some lu → ∃ u, Does (.alloc k n) s ps u ∧ TierEnded k n d 0 v u ∧
          blkAt u i = { st := bAbsent, kind := tdBkind d, tenant := tn, gen := (blkAt v i).gen, len := tdLen d, lu := lu % 2 ^ 32 } ∧
          u.silo.extents = s.silo.extents ++ [(lu, tdLen d)] ∧
          u.get (TIER_QUOTA_B_SILO_USED 0 tn) = v.get (TIER_QUOTA_B_SILO_USED 0 tn) + siloQuota (tdLen d))) ∧
    (∀ b : Blk,
      let i := tdHandle d % 2 ^ 20
      let v := entryRead k n i t
      TierNames k d b v → b.busy = false →
      (tdOp d = opFree → b.InHbm →
        (b.st = bAbsent ∨ (b.st = bResident ∧ b.pins = 0 ∧ v.dieFenced (20 + stackOf b.off) = false ∧ blkBusy v b = false) →
          ∃ u, Does (.free k n) s ps u ∧ TierEnded k n d 0 v u ∧ blkAt u i = { gen := (b.gen + 1) % 4096 } ∧
            (b.st = bResident → FramesAre b.off b.len fVacant u) ∧ (b.kind ≠ bkScratch → (b.lu, b.len) ∉ u.silo.extents)) ∧
        (b.st = bResident → b.pins = 0 → v.dieFenced (20 + stackOf b.off) = false → blkBusy v b = true →
          ∃ u c, Does (.free k n) s ps u ∧ tierCmd u k n = some c ∧ c.words = d ∧ c.drain = true ∧ c.flushTo = none ∧
            blkAt u i = { b with st := bEvicting, busy := true } ∧ FramesAre b.off b.len fEvicting u)) ∧
      (tdOp d = opPin → b.st = bResident → b.pins < 32767 →
        ∃ u, Does (.pin k n) s ps u ∧ TierEnded k n d 0 v u ∧ blkAt u i = { b with pins := b.pins + 1 }) ∧
      (tdOp d = opUnpin → b.st = bResident → 0 < b.pins →
        ∃ u, Does (.unpin k n) s ps u ∧ TierEnded k n d 0 v u ∧ blkAt u i = { b with pins := b.pins - 1 })) ∧
    (let i := tdHandle d % 2 ^ 20
      let v := entryRead k n i t
      i % 4 ≠ k.val ∨ t.get (TIER_BT_SIZE_ENTRIES k) ≤ i ∨ (btDead v i = false ∧ (blkAt v i).gen ≠ tdHandle d / 2 ^ 20) →
      ∀ c, (c, tdOp d) ∈ [(Instr.free k n, opFree), (.fetch k n, opFetch), (.writeback k n, opWriteback), (.evict k n, opEvict),
        (.pin k n, opPin), (.unpin k n, opUnpin)] → ∃ u, Does c s ps u ∧ TierEnded k n d cTierHandle t u)

/-- FETCH, WRITEBACK and EVICT start on a block in the state that R305 asks for and stand in progress with the units they have to move,
their frames FETCHING or EVICTING; without units a FETCH or WRITEBACK is done at once; EVICT_DRAIN_DONE goes on to the dirty units, and
releases the block of a FREE (R305, R307, R308). -/
def Obligations.TierTransfersStart : Prop :=
  ∀ (k : Fin 4) (n : Fin 16) (s : State),
    let ps : List Part := [.regs, .mem, .poison, .cores, .coal, .tiers, .silo, .hbms]
    (∀ d b t, TierNext k n d s t →
      let i := tdHandle d % 2 ^ 20
      let v := entryRead k n i t
      TierNames k d b v → b.busy = false → b.InHbm →
      (∀ u0 cnt, tdOp d = opFetch → b.st = bAbsent → namedUnits d b.len = some (u0, cnt) →
        framesFree v k (tdOff d) b.len = true → v.dieFenced (20 + stackOf (tdOff d)) = false → overHbm v b = false →
        (b.kind = bkWeight → v.model.key.isSome = true) →
        let r := if b.kind = bkWeight then wholeShards b.len u0 cnt else (u0, cnt)
        let todo := ((List.range r.2).map (fun x => r.1 + x)).filter (fun x => mapped v (4 * (b.lu + x)))
        (todo ≠ [] → siloReady v = true → ∃ u c, Does (.fetch k n) s ps u ∧ tierCmd u k n = some c ∧ c.words = d ∧ c.todo = todo ∧
          c.slot = none ∧ u.get (TIER_RSTAT_ACTIVE k n) = 1 ∧ u.get (TIER_RSTAT_JOB_ID k n) = tdJobId d ∧
          blkAt u i = { b with st := bFetching, off := tdOff d, busy := true } ∧ FramesAre (tdOff d) b.len fFetching u) ∧
        (todo = [] → ∃ u, Does (.fetch k n) s ps u ∧ TierEnded k n d 0 v u ∧ FramesAre (tdOff d) b.len fResident u ∧
          blkAt u i = { b with st := bResident, off := tdOff d })) ∧
      (∀ u0 cnt, tdOp d = opWriteback → b.st = bResident → b.kind ≠ bkScratch → v.dieFenced (20 + stackOf b.off) = false →
        namedUnits d b.len = some (u0, cnt) →
        (dirtyUnits v b u0 cnt ≠ [] → siloReady v = true → ∃ u c, Does (.writeback k n) s ps u ∧ tierCmd u k n = some c ∧ c.words = d ∧
          c.todo = dirtyUnits v b u0 cnt ∧ c.slot = none ∧ u.get (TIER_RSTAT_ACTIVE k n) = 1 ∧ blkAt u i = { b with busy := true }) ∧
        (dirtyUnits v b u0 cnt = [] → ∃ u, Does (.writeback k n) s ps u ∧ TierEnded k n d 0 v u ∧ blkAt u i = b)) ∧
      (tdOp d = opEvict → b.st = bResident → b.kind ≠ bkScratch → b.pins = 0 → v.dieFenced (20 + stackOf b.off) = false →
        ∃ u c, Does (.evict k n) s ps u ∧
        tierCmd u k n = some c ∧ c.words = d ∧ c.drain = true ∧ blkAt u i = { b with st := bEvicting, busy := true } ∧
        FramesAre b.off b.len fEvicting u)) ∧
    (∀ stall c, s.dataUp = true → tierCmd s k n = some c → c.drain = true → c.flushTo = none →
      let b := blkAt s c.index
      b.InHbm → EntryApart c.words c.index s → blkBusy s b = false →
      (tdOp c.words = opEvict → dirtyUnits s b 0 b.len ≠ [] → siloReady s = true → ∃ u, Does (.evictDrainDone k n stall) s ps u ∧
        tierCmd u k n = some { c with drain := false, todo := dirtyUnits s b 0 b.len, needSilo := true, stallDrain := stall } ∧
        ∀ a, u.byte a = s.byte a) ∧
      (tdOp c.words = opEvict → dirtyUnits s b 0 b.len = [] → ∃ u, Does (.evictDrainDone k n stall) s ps u ∧
        TierEnded k n c.words 0 s u ∧ (blkAt u c.index).st = bAbsent ∧ (blkAt u c.index).busy = false ∧
        FramesAre b.off b.len fVacant u) ∧
      (tdOp c.words = opFree → ∃ u, Does (.evictDrainDone k n stall) s ps u ∧ TierEnded k n c.words 0 s u ∧
        blkAt u c.index = { gen := (b.gen + 1) % 4096 } ∧ FramesAre b.off b.len fVacant u))

/-- A command with a slot moves its pages in order, when its turn on the engine and on the channel has come (R304, R332): a FETCH lands each
unit it has read whole, or fails with TIER_SILO, or with MEM_UNCORR where a word of the unit is poisoned; a WRITEBACK or EVICT programs
pages, and a unit whose stripes are programmed is mapped to the new pages and reported (R307, R314, R325, R326, R346). -/
def Obligations.TierUnitsMove : Prop :=
  ∀ (k : Fin 4) (n : Fin 16) (c : TierCmd) (s : State), s.dataUp = true → tierCmd s k n = some c → c.flushTo = none →
    siloReady s = true →
    let ps : List Part := [.regs, .mem, .poison, .cores, .coal, .tiers, .silo, .hbms]
    let b := blkAt s c.index
    b.InHbm → EntryApart c.words c.index s → s.dieFenced (20 + stackOf b.off) = false →
    (btAddr s c.index + 64 ≤ b.off ∨ b.off + b.len * unitBytes ≤ btAddr s c.index) →
    (∀ u0 rest r rc stall t, tdOp c.words = opFetch → c.slot.isSome = true → c.todo = u0 :: rest → u0 < b.len →
      (if c.page = 0 then takeBudget (tdTenant c.words) s else some s) = some t → pageTurn s c = true →
      let q := readPage (4 * (b.lu + u0) + c.page) c.be r t
      let e : TierCmd := { c with rc := c.rc + rc, stallFb := c.stallFb + stall }
      let bs := unitData s (b.lu + u0)
      let named := (fetchUnits c.words b).getD (0, 0)
      let clean := poisonIn (b.off + named.1 * unitBytes) (named.2 * unitBytes) s = false
      let moved (f : TierCmd) (land : State) := ∃ u, Does (.pageRead k n r rc stall) s ps u ∧ tierCmd u k n = some f ∧
        ∀ a, u.byte a = land.byte a
      let failed (code : Nat) (u : State) := Does (.pageRead k n r rc stall) s ps u ∧ TierEnded k n c.words code s u ∧
        (blkAt u c.index).st = bAbsent ∧ (blkAt u c.index).busy = false
      let landed := ∃ u, Does (.pageRead k n r rc stall) s ps u ∧ TierEnded k n c.words 0 s u ∧
        (blkAt u c.index).st = bResident ∧ (blkAt u c.index).busy = false
      (q.1 = true → c.page < 3 → moved { e with page := c.page + 1 } s) ∧
      (q.1 = true → 3 ≤ c.page → b.kind ≠ bkWeight → unitsBad b [u0] s = false → rest ≠ [] →
        moved { e with todo := rest, page := 0, units := c.units + 1, bytes := c.bytes + unitBytes }
          (s.setBytes (b.off + u0 * unitBytes) bs)) ∧
      (q.1 = true → 3 ≤ c.page → b.kind ≠ bkWeight → unitsBad b [u0] s = true → ∃ u, failed cMemUncorr u) ∧
      (q.1 = true → 3 ≤ c.page → b.kind = bkWeight → rest ≠ [] → rest.headD 0 / 16 = u0 / 16 →
        moved { e with todo := rest, page := 0, bytes := c.bytes + unitBytes, buf := c.buf ++ [(u0, bs)] } s) ∧
      (∀ m plain, q.1 = true → 3 ≤ c.page → b.kind = bkWeight → rest = [] ∨ rest.headD 0 / 16 ≠ u0 / 16 →
        s.model.blocks.find? (fun m => m.index == c.index) = some m →
        let ta := tagAddr s (m.tag + u0 / 16)
        let buf := c.buf ++ [(u0, bs)]
        Sound ta 16 s → s.anyPoison ta 16 = false → s.dieFenced (20 + stackOf ta) = false →
        openShard s.model m.b (u0 / 16) (buf.flatMap Prod.snd) (s.readLE ta 16) = some plain →
        unitsBad b (buf.map Prod.fst) s = false → (∀ x ∈ c.buf, x.1 < b.len) →
        (rest ≠ [] → moved
          { e with todo := rest, page := 0, units := c.units + buf.length, bytes := c.bytes + unitBytes, buf := [], tries := 0 }
          (landShard (tierCons c.k c.be) b (buf.map Prod.fst) plain s)) ∧ (rest = [] → clean → landed)) ∧
      (q.1 = true → 3 ≤ c.page → b.kind ≠ bkWeight → unitsBad b [u0] s = false → rest = [] → bs.length = unitBytes → clean → landed) ∧
      (q.1 = false → ∃ u, failed cTierSilo u ∧ u.get (TIER_LAST_CAUSE k) = cSiloUncorr)) ∧
    (∀ u0 rest ok rc stall bs t, tdOp c.words = opWriteback ∨ tdOp c.words = opEvict → c.slot.isSome = true → c.todo = u0 :: rest →
      siloFull s = false → takePage c b u0 s = some (some (bs, t)) → pageTurn s c = true →
      let p := placePage t
      let ch := locCh p.1
      let v := p.2.count (SILO_WR_BYTES_COUNT (sdOf ch)) pageBytes
      (ok = false →
        siloFull (retireBlk ch ((Tab.get (fun _ => []) v.silo.bands (locBand v p.1)).getD ch (2 ^ 24)) v) = false) →
      ∃ u e, Does (.pageProgram k n ok rc stall) s ps u ∧ tierCmd u k n = some e ∧
        e.progs = c.progs ++ [(4 * (b.lu + u0) + c.page, p.1)] ∧
        e.buf = (if c.page = 0 then c.buf ++ [(u0, bs)] else c.buf) ∧
        (c.page < 3 → e.page = c.page + 1 ∧ e.todo = c.todo) ∧ (3 ≤ c.page → e.page = 0 ∧ e.todo = rest) ∧
        ∀ a, u.byte a = s.byte a) ∧
    (∀ u0 bs more, tdOp c.words = opWriteback ∨ tdOp c.words = opEvict → c.buf = (u0, bs) :: more → unitClosed c b u0 s = true →
      ∃ u, Does (.siloUnitWritten k n) s ps u ∧
        (∀ x < 4, mapped u (4 * (b.lu + u0) + x) = true ∧
          pageData u (4 * (b.lu + u0) + x) = (bs.drop (pageBytes * x)).take pageBytes) ∧
        (c.todo ≠ [] ∨ more.filter (fun x => x.1 != u0) ≠ [] → tierCmd u k n = some { c with
          units := c.units + 1, bytes := c.bytes + unitBytes, buf := c.buf.filter (fun x => x.1 != u0),
          progs := c.progs.filter (fun x => x.1 / 4 != b.lu + u0) } ∧
          u.get (TIER_WB_BYTES_COUNT k) = (s.get (TIER_WB_BYTES_COUNT k) + unitBytes) % 2 ^ 64) ∧
        (c.todo = [] → more.filter (fun x => x.1 != u0) = [] → TierEnded k n c.words 0 s u ∧ (blkAt u c.index).busy = false))

/-- SLOT_GRANT gives the first waiting command its slot, and SILO_LC_LATE warns of a late one (R331, R333); TIER_FB_WRITE fills a fetch
budget and FETCH_BUDGET_TICK adds each tenant's RATE up to its BURST (R309); TIER_FLUSH leaves a ring empty, or its command in progress
to complete (R314). -/
def Obligations.TierSlotsBudgetsAndFlush : Prop :=
  ∀ (s : State), s.dataUp = true → s.JobsOk →
    (∀ c i, s.flag (SILO_CTRL_ENABLE 0) = true → siloReady s = true → (slotOrder s).find? (fun c => (slotFor s c).isSome) = some c →
      slotFor s c = some i → ∃ u, Does .slotGrant s [.regs, .tiers, .silo] u ∧
        u.get (SILO_SLOTS_BUSY 0) = s.get (SILO_SLOTS_BUSY 0) ||| 2 ^ i ∧ u.silo.grants = s.silo.grants + 1 ∧
        tierCmd u c.k c.ring = some { c with slot := some i, ord := s.silo.grants }) ∧
    (∀ (k : Fin 4) (n : Fin 16) c, tierCmd s k n = some c → c.be = false → tdOp c.words = opFetch → c.slot.isSome = true →
      ∃ u, Does (.siloLcLate k n) s [.regs, .coal] u ∧ u.get (SILO_LAST_CODE 0) = cSiloLcLate ∧ u.get (SILO_IRQ_LC_LATE 0) = 1) ∧
    (∀ (tn : Fin 8192) v, ∃ u, Does (.tierFbWrite tn v) s [.regs] u ∧ RegsBut [(TIER_FB_RATE 0 tn).addr] s u ∧
      u.get (TIER_FB_RATE 0 tn) = (TIER_FB_RATE 0 tn).of v ∧ u.get (TIER_FB_BURST 0 tn) = (TIER_FB_BURST 0 tn).of v ∧
      u.get (TIER_FB_LEVEL 0 tn) = max 1 ((TIER_FB_BURST 0 tn).of v)) ∧
    (s.Canon → ∃ u, Does .fetchBudgetTick s [.regs] u ∧ (∀ a, (∀ tn : Fin 8192, a ≠ (TIER_FB_LEVEL 0 tn).addr) → u.word a = s.word a) ∧
      ∀ tn : Fin 8192, u.get (TIER_FB_RATE 0 tn) = s.get (TIER_FB_RATE 0 tn) ∧ u.get (TIER_FB_LEVEL 0 tn) =
        (if s.get (TIER_FB_RATE 0 tn) = 0 then s.get (TIER_FB_LEVEL 0 tn)
         else min (s.get (TIER_FB_LEVEL 0 tn) + s.get (TIER_FB_RATE 0 tn)) (max 1 (s.get (TIER_FB_BURST 0 tn))))) ∧
    (∀ (k : Fin 4) (n : Fin 16), ringHas (tierRing k n) s = true →
      (tierCmd s k n = none → ∃ u, Does (.tierFlush k n) s [.regs, .mem, .poison, .cores, .coal, .tiers, .hbms] u ∧
        u.get (TIER_HEAD_HEAD k n) = s.get (TIER_TAIL_TAIL k n) ∧ u.get (TIER_TAIL_TAIL k n) = s.get (TIER_TAIL_TAIL k n) ∧
        u.get (TIER_IRQ_JOB_FAIL k) = 1 ∧ u.get (TIER_LAST_CODE k) ∈ [cTierFlushed, cTierDesc, cMemUncorr]) ∧
      (∀ c, tierCmd s k n = some c → ∃ u, Does (.tierFlush k n) s [.regs, .mem, .poison, .cores, .coal, .tiers, .hbms] u ∧
        tierCmd u k n = some { c with flushTo := some (s.get (TIER_TAIL_TAIL k n)) }))

/-! The HBM controllers and the Silo's flash translation (R296, R297, R312, R326 to R330, R437). -/

/-- Refresh, scrub, row repair and the reservation window do to a stack what R296, R297, R312 and R437 say; a fenced stack's controller
does nothing. A channel fails at SILO_CH_FAIL_MIN retirements within an hour; housekeeping moves valid pages with their content kept,
and an erase frees the block or retires it (R326 to R330). -/
def Obligations.HbmAndFlashHousekeeping : Prop :=
  ∀ (s : State), s.dataUp = true →
    (∀ (j : Fin 8) temp hot corr bad row spare, s.dieFenced (20 + j.val) = true → exec (.hbmRefresh j temp hot) s = .next s ∧
      exec (.hbmScrub j corr bad) s = .next s ∧ exec (.hbmRowRepair j row spare) s = .next s) ∧
    (∀ (j : Fin 8) temp hot, s.dieFenced (20 + j.val) = false → ∃ u, Does (.hbmRefresh j temp hot) s [.regs] u ∧
      RegsBut [(HBM_STATUS_TEMP_C j).addr, (HBM_REFRESH_CNT_COUNT j).addr] s u ∧ u.get (HBM_STATUS_TEMP_C j) = temp.toNat ∧
      u.get (HBM_STATUS_HOT j) = ofBool hot ∧ u.get (HBM_REFRESH_CNT_COUNT j) = (s.get (HBM_REFRESH_CNT_COUNT j) + 1) % 2 ^ 64) ∧
    (∀ (j : Fin 8) corr bad, s.dieFenced (20 + j.val) = false →
      let a := j.val * stackSize + 64 * s.get (HBM_SCRUB_POS_UNIT j)
      let v := hbmFind a 64 s
      ∃ u, Does (.hbmScrub j corr bad) s [.regs, .poison, .hbms] u ∧
        RegsBut [(HBM_ECC_CORR_COUNT j).addr, (HBM_ECC_STAT_CORR j).addr, (HBM_POISON_CNT_COUNT j).addr, (HBM_SCRUB_POS_UNIT j).addr] s u ∧
        u.get (HBM_ECC_CORR_COUNT j) = min (v.get (HBM_ECC_CORR_COUNT j) + corr.length) (2 ^ 32 - 1) ∧
        u.get (HBM_SCRUB_POS_UNIT j) = (s.get (HBM_SCRUB_POS_UNIT j) + 1) % 2 ^ 30 ∧
        (∀ w ∈ bad, u.poisoned (a + 8 * w.val) = true) ∧ (corr ≠ [] → u.get (HBM_ECC_STAT_CORR j) = 1) ∧
        (bad ≠ [] → u.get (HBM_ECC_STAT_UNCORR j) = 1 ∧ hbmRowDue j (hbmRow a) u = true)) ∧
    (∀ (j : Fin 8) (row : Fin 33554432) spare, s.dieFenced (20 + j.val) = false → hbmRowDue j row s = true →
      ∃ u, Does (.hbmRowRepair j row spare) s [.regs, .coal, .silo, .hbms] u ∧ hbmRowDue j row u = false ∧
        u.silo.hardRows = s.silo.hardRows ++ (if spare = true then [(j.val, row.val)] else []) ∧
        (spare = true → u.get (HBM_REPAIR_SOFT j) = min (s.get (HBM_REPAIR_SOFT j) + 1) (2 ^ 16 - 1) ∧
          u.get (HBM_REPAIR_LAST_ROW j) = row.val) ∧
        (spare = false → u.get (HBM_REPAIR_SOFT j) = s.get (HBM_REPAIR_SOFT j))) ∧
    (∃ u, Does .rsvWindow s [.regs, .cfg] u ∧ u.cfg.rsvNext = none ∧ ∀ (m : Fin 8) (c : Fin 24), u.get (HBM_RSV_USED m c) = 0 ∧
      (s.cfg.rsvNext = none → u.get (HBM_RSV_SHARE m c) = s.get (HBM_RSV_SHARE m c) ∧ u.get (HBM_RSV_ALLOW m c) = s.get (HBM_RSV_ALLOW m c)) ∧
      ∀ bs, s.cfg.rsvNext = some bs → u.get (HBM_RSV_SHARE m c) = (bs.getD (24 * m.val + c.val) 0).toNat % 2 ^ 7 ∧
        u.get (HBM_RSV_ALLOW m c) = 512 * (bs.getD (24 * m.val + c.val) 0).toNat % 2 ^ 16) ∧
    (∀ c : Fin 32, chState s c ≠ chFailed → max 1 (s.get (SILO_CH_FAIL_MIN_BLOCKS (sdOf c))) ≤
        (s.silo.retired.filter (fun r => r.1 == c.val && decide (s.alm ≤ r.2 + 3600000000000))).length →
      ∃ u, Does (.channelFail c) s [.regs, .coal] u ∧ chState u c = chFailed ∧ u.get (SILO_IRQ_CH_FAIL (sdOf c)) = 1 ∧
        ∀ j : Fin 2, u.get (SILO_STATUS_DEGRADED j) = 1 ∧
          (failedChs s ≠ [] → u.get (SILO_STATUS_READONLY j) = 1 ∧ u.get (SILO_STATUS_FULL j) = 1)) ∧
    (∀ (band : Nat) (ch : Fin 32),
      let b := (Tab.get (fun _ => []) s.silo.bands band).getD ch (2 ^ 24)
      let x := getBlk s ch b
      let moves (c : Instr) (reads : Bool) := ∃ u, Does c s [.regs, .coal, .silo] u ∧ (∀ lp, pageData u lp = pageData s lp) ∧
        (∀ lp ∈ pagesIn s band ch, mapped u lp = true) ∧ u.silo.opn = none ∧
        (reads = true → (getBlk u ch b).reads = 0 ∧ (band, ch.val) ∉ u.silo.rewrite)
      (siloFull s = false → max 1 (s.get (SILO_RD_THRESH (sdOf ch))) < x.reads ∨ (band, ch.val) ∈ s.silo.rewrite →
        moves (.readDisturbRewrite band ch) true) ∧
      (siloFull s = false → x.used = true → x.erases + max 10 (s.get (SILO_WEAR_DELTA (sdOf ch))) < eraseMax s ch →
        moves (.wearLevel band ch) false) ∧
      (b ≠ 2 ^ 24 → pagesIn s band ch = [] → (∀ o, s.silo.opn = some o → o.band ≠ band) →
        (∀ p, s.silo.next = some (band, p) → s.silo.ppb ≤ p) →
        (∃ u, Does (.blockErase band ch true) s [.regs, .coal, .silo] u ∧
          getBlk u ch b = { x with erases := x.erases + 1, reads := 0, used := false } ∧
          (Tab.get (fun _ => []) u.silo.bands band).getD ch (2 ^ 24) = 2 ^ 24) ∧
        (∃ u, Does (.blockErase band ch false) s [.regs, .coal, .silo] u ∧ (getBlk u ch b).bad = true ∧
          u.get (SILO_RETIRED_COUNT (sdOf ch)) = (s.get (SILO_RETIRED_COUNT (sdOf ch)) + 1) % 2 ^ 64)))

/-! Model images (13_model_images R336 to R349). -/

/-- LOAD, VERIFY, STAGE, PLACE, UNLOAD and ABORT move the model through the states of R341; a check that fails leaves it EMPTY with its
code, and UNLOAD erases the key, the blocks and the handle table (R340 to R344, R349). The check of the
tables is R337's with the readings of log entry 30, and the cryptographic functions are free (log entry 5). -/
def Obligations.ModelLoadsAndUnloads : Prop :=
  ∀ (s : State), s.dataUp = true →
    let next (n : Nat) (u : State) := u.pci.modRead = some { addr := (s.get (TIER_MODEL_SRC_ADDR 0) + n) % 2 ^ 64, want := 512 }
    (∀ restage, modelSt s ≠ mEmpty → ∃ u, Does (.modelLoad restage) s [.regs, .mem, .poison, .silo, .model, .hbms, .pci] u ∧
      RegsBut [(TIER_MODEL_STATUS_CODE 0).addr, (TIER_MODEL_IRQ_FAIL 0).addr] s u ∧ modelSt u = modelSt s ∧ u.model = s.model ∧
      u.get (TIER_MODEL_STATUS_CODE 0) = cLoadState ∧ u.get (TIER_MODEL_IRQ_FAIL 0) = 1) ∧
    (modelSt s = mEmpty → s.sec.dmk.isSome = true →
      (dmaRefusal s (s.get (TIER_MODEL_SRC_ADDR 0) % 2 ^ 64) 512 = 0 →
        ∃ u, Does (.modelLoad false) s [.regs, .mem, .poison, .silo, .model, .hbms, .pci] u ∧ modelSt u = mVerify ∧
          u.get (TIER_MODEL_STATUS_CODE 0) = 0 ∧ u.get (TIER_MODEL_PROG_STAGED 0) = 0 ∧ u.get (TIER_MODEL_RETRIES_COUNT 0) = 0 ∧ next 0 u) ∧
      (s.model.kept.isSome = true → ∃ u, Does (.modelLoad true) s [.regs, .mem, .poison, .silo, .model, .hbms, .pci] u ∧
        modelSt u = mVerify ∧ u.model.restage = true ∧ u.model.kept = s.model.kept)) ∧
    (∀ r, modelSt s = mVerify → s.model.restage = false → s.pci.modRead = some r → tablesWant r.got ≤ r.got.length →
      let h := r.got.take 512
      let d := (r.got.drop (mhDirOff h)).take (32 * min (mhBlocks h) 1048576)
      let lay := (r.got.drop (mhLayerOff h)).take (4 * min (mhLayers h) 128)
      let tags := (r.got.drop (mhTagOff h)).take (16 * tagCount h d)
      let pub := (h.drop 256).take 97
      let signed := (Config.sha384 pub).toNat = le h 208 48 ∧ s.cfg.msigners.contains (le h 208 48) = true ∧
        Config.ecdsaVerify (Config.sha384 pub) (Config.sha384 (h.take 416 ++ d ++ lay ++ tags)) ((h.drop 416).take 96) = true
      let fails (code : Nat) := ∃ u, Does .modelVerify s [.regs, .mem, .poison, .silo, .model, .hbms, .pci] u ∧ ModelFailed code u
      (modelTablesOk h lay d = false → fails cLoadFormat) ∧ (modelTablesOk h lay d = true → ¬ signed → fails cLoadSig) ∧
      (∀ dmk, modelTablesOk h lay d = true → signed → s.sec.dmk = some dmk →
        let got := Config.unwrapKey dmk ((h.drop 68).take 97 ++ (h.drop 16).take 8) ((h.drop 165).take 40)
        (got = none → fails cLoadKey) ∧
        (∀ key, got = some key →
          let t := { s.set SEC_STATE_MODEL_KEY 1 with
            model := { s.model with hdr := h, dir := d, lay := lay, tags := tags, key := some key }, pci := { s.pci with modRead := none } }
          (admitReason t ≠ 0 → fails cLoadRefused) ∧ (admitReason t = 0 → s.model.abort = true → fails cLoadAborted) ∧
          let todo := (selBlocks t).flatMap (fun b => (List.range (shards (dirEnt d b).len)).map (fun j => (b, j)))
          (admitReason t = 0 → s.model.abort = false → ShardReadable todo t.model s → ∃ u, Does .modelVerify s [.regs, .mem, .poison, .silo, .model, .hbms, .pci] u ∧ u.model.key = some key ∧
              u.get SEC_STATE_MODEL_KEY = 1 ∧ u.get (TIER_MODEL_ID_IMAGE_ID 0) = mhId h ∧
              u.model.stage = todo ∧ modelSt u = (if todo = [] then mPlace else mStage))))) ∧
    (∀ b j rest r t m x, modelSt s = mStage → s.model.stage = (b, j) :: rest → s.pci.modRead = some r → r.want ≤ r.got.length →
      (if (mblk s b).isSome = true then some s else newBlk b s) = some t → mblk t b = some m →
      openShard t.model b j r.got (le t.model.tags (16 * (m.tag + j)) 16) = some x → siloReady t = true → siloFull t = false →
      let e := blkAt t m.index
      (s.model.abort = true → ∃ u, Does .modelStage s [.regs, .mem, .poison, .coal, .silo, .model, .hbms, .pci] u ∧
        ModelFailed cLoadAborted u) ∧
      (s.model.abort = false → ShardReadable rest s.model s → ∃ u, Does .modelStage s [.regs, .mem, .poison, .coal, .silo, .model, .hbms, .pci] u ∧
        u.model.stage = rest ∧ u.model.tries = 0 ∧ modelSt u = (if rest = [] then mPlace else mStage) ∧
        (r.got.length = unitBytes * shardUnits m.len j → ∀ i < shardUnits m.len j,
          unitData u (e.lu + 16 * j + i) = (r.got.drop (unitBytes * i)).take unitBytes))) ∧
    (∀ rs v code, modelSt s = mPlace → s.model.abort = false → siloReady s = true ∨ hinted s = [] → placeBlks (hinted s) rs s = (code, v) →
      (code ≠ 0 → ∃ u, Does (.modelPlace rs) s [.regs, .mem, .poison, .silo, .model, .hbms, .sec, .pci] u ∧ modelSt u = mEmpty ∧
        u.model.blocks = [] ∧ u.model.key = none) ∧
      (code = 0 → ∃ u, Does (.modelPlace rs) s [.regs, .mem, .poison, .silo, .model, .hbms, .sec, .pci] u ∧ modelSt u = mResident ∧
        u.get (TIER_MODEL_IRQ_DONE 0) = 1 ∧ Tab.get (fun _ => 0) u.sec.meas 10 = measModel v ∧
        u.bytes (htabAddr v) (8 * (handleTable v).length) = bytesOfWords (handleTable v))) ∧
    (∀ keep, unloadOk s = true → ∃ u, Does (.modelUnload keep) s [.regs, .mem, .poison, .silo, .model, .hbms, .sec] u ∧ modelSt u = mEmpty ∧
      u.get (TIER_MODEL_IRQ_DONE 0) = 1 ∧ u.model = { kept := if keep = true then some (keptOf s) else none } ∧
      u.get SEC_STATE_MODEL_KEY = 0 ∧ Tab.get (fun _ => 0) u.sec.meas 10 = 0 ∧ (keep = false → u.get (TIER_MODEL_ID_IMAGE_ID 0) = 0) ∧
      ∀ a, htabAddr s ≤ a → a < htabAddr s + 8 * (mhLayers s.model.hdr + mhBlocks s.model.hdr) → u.byte a = 0) ∧
    (∀ keep, unloadOk s = false → ∃ u, Does (.modelUnload keep) s [.regs] u ∧ u.get (TIER_MODEL_STATUS_CODE 0) = cLoadState ∧
      modelSt u = modelSt s) ∧
    (modelSt s ≠ mEmpty → modelSt s ≠ mResident → ∃ u, Does .modelAbort s [.model] u ∧ u.model = { s.model with abort := true }) ∧
    (modelSt s = mEmpty ∨ modelSt s = mResident → exec .modelAbort s = .next s)

/-! Tenants, serving and pre-emption (14_plots_and_tenants R357 to R369, 17_host_interface R418, R419). -/

/-- A doorbell write at its offset and width sets the register and the tenant's pending bit, and is dropped otherwise; a serving
iteration brings each request of the plot its outcome and writes output while its ring has room; a drained tenant is CLOSED; PREEMPT kills
a BE list, runs the LC ring and after its END the BE ring (R358, R361 to R363, R369, R418, R419). What die firmware
accesses memory as is the model's choice (log entry 31). -/
def Obligations.TenantsAreServed : Prop :=
  ∀ (s : State),
    (∀ (tn : Fin 8192) (off : Fin 4096) width poisoned v, s.flag PCI_STATUS_READY = true → s.pci.perst = false →
      ∀ c f want, (c, f, want) ∈ [(Instr.doorbellQtail tn off width poisoned v, PCI_DB_Q_QTAIL tn, 0),
          (.doorbellOhead tn off width poisoned v, PCI_DB_O_OHEAD tn, 8)] →
        let pend := PCI_DB_PEND_PEND (tn.val / 64)
        let dropped (u : State) := u.get f = s.get f ∧ u.get pend = s.get pend ∧
          u.get PCI_DB_DROP_COUNT = min (s.get PCI_DB_DROP_COUNT + 1) (2 ^ PCI_DB_DROP_COUNT.len - 1)
        (poisoned = false → off.val = want → width = 4 ∨ width = 8 → (plotOfTenant s tn).isSome = true → ∃ u, Does c s [.regs, .pci] u ∧ RegsBut [f.addr, pend.addr] s u ∧ u.get f = f.of v ∧
          u.get pend = s.get pend ||| 2 ^ (tn.val % 64)) ∧
        (poisoned = false → off.val ≠ want ∨ (width ≠ 4 ∧ width ≠ 8) → ∃ u, Does c s [.regs, .pci] u ∧ dropped u ∧
          RegsBut [PCI_DB_DROP_COUNT.addr] s u) ∧
        (poisoned = true → ∃ u, Does c s [.regs, .pci] u ∧ dropped u ∧ u.get PCI_LAST_CODE = cPciPoison) ∧
        (poisoned = false → off.val = want → width = 4 ∨ width = 8 → plotOfTenant s tn = none → ∃ u, Does c s [.regs, .pci] u ∧
          dropped u ∧ u.get PCI_LAST_CODE = cPciDbRange)) ∧
    (∀ (n : Fin 16) outs, s.dataUp = true → (s.plots.getD n {}).en = true → (∀ tn, hasWork n tn s = false) →
      let q := s.plots.getD n {}
      let ps : List Part := [.regs, .mem, .poison, .hbms, .serv]
      ((∀ r ∈ s.serv.reqs, r.plot = n.val → (r.fin = true → r.out ≠ []) ∧
          let e := tenEnt n r.tenant s
          e.osize = 0 ∨ (e.otail + 1) % e.osize = s.get (PCI_DB_O_OHEAD r.tenant)) →
        ∃ u, Does (.servingIteration n outs) s ps u ∧ (∀ a, u.byte a = s.byte a) ∧ u.serv.reqs = s.serv.reqs.map (fun r =>
          if r.plot = n.val then iterate q outs (if r.cancel && !r.fin then endReq cTenCancelled r else r) else r)) ∧
      (∀ r w, s.serv.reqs = [r] → r.plot = n.val → r.fin = false → r.cancel = false → r.out = [w] → w.length = 4 → w.getD 3 0 ≠ 2 ^ 16 →
        r.promptLen ≤ r.taken → outs = [] →
        let e := tenEnt n r.tenant s
        let a := e.obase + 32 * e.otail
        let may (b k : Nat) := accessCode s 0 q.pkey pW b k = 0
        r.tenant < 8192 → q.tenFirst + q.tenCount ≤ 8192 → e.state = tenOpen → (e.otail + 1) % e.osize ≠ s.get (PCI_DB_O_OHEAD r.tenant) → may a 32 →
        may (tenAddr s r.tenant + 40) 8 → (a + 32 ≤ s.cfg.tenTable ∨ s.cfg.tenTable + 64 * 8192 ≤ a) →
        ∃ u, Does (.servingIteration n outs) s ps u ∧ u.serv.reqs = [{ r with out := [] }] ∧ u.bytes a 32 = bytesOfWords w ∧
          (tenEnt n r.tenant u).otail = (e.otail + 1) % e.osize)) ∧
    (∀ (tn : Fin 8192) n, s.dataUp = true → plotOfTenant s tn = some n → s.serv.reqs = [] →
      let e := tenEnt n tn s
      let a := tenAddr s tn
      let w := s.readLE a 8
      e.state = tenDraining → e.qhead = s.get (PCI_DB_Q_QTAIL tn) → accessCode s 0 (s.plots.getD n {}).pkey pW a 8 = 0 →
      ∃ u, Does (.tenantDraining tn) s [.regs, .mem, .poison, .hbms, .serv] u ∧ u.readLE a 8 = w - 2 * bitsOf w 1 2 ∧
        ∀ b, b < a ∨ a + 8 ≤ b → u.byte b = s.byte b) ∧
    (∀ (p : Fin 144) base size tail, s.dataUp = true →
      let st := s.get (CORE_STATUS_STATE p)
      let ph (u : State) := Tab.get (fun _ => 0) u.serv.pre p
      let runs (phase : Nat) := ∃ u, Does (.preempt p base size tail) s [.regs, .cores, .serv] u ∧ ph u = phase ∧ RingRuns p base size tail s u
      let ring := 16 ≤ (CORE_RING_SIZE_ENTRIES p).of size ∧ (CORE_RING_SIZE_ENTRIES p).of size ≤ 65536 ∧
        csInside (64 * (CORE_RING_BASE_BASE p).of base) (64 * (CORE_RING_SIZE_ENTRIES p).of size) = true
      (∀ n, ph s = 0 → st = stRunning → s.plotOf p = some n → (s.plots.getD n {}).cls = 1 → (s.core p).killing = false →
        ∃ u, Does (.preempt p base size tail) s [.regs, .cores, .serv] u ∧ ph u = 1 ∧ (u.core p).killing = true ∧
          (u.core p).inflight = (s.core p).inflight.filter (fun r => r.committed s.fc)) ∧
      (ph s = 1 → st = stKilled → ring → runnable p s = true → runHeld p s = false → runs 2) ∧
      (ph s = 2 → st = stDone → ring → runnable p s = true → runHeld p s = false → runs 0) ∧
      (ph s = 0 → st ≠ stRunning → exec (.preempt p base size tail) s = .next s))

/-! The almanac, mode changes and the throttle log (15_time_and_determinism R373 to R376, R388, R389, R391, R512). -/

/-- The first edge of ACQUIRE steps the count; an accepted edge in LOCKED or HOLDOVER disciplines it within 200 ppm or, above 32 ns, ends in
FREE; a missed one takes LOCKED to HOLDOVER and at last FREE (R373 to R375). -/
def Obligations.AlmanacFollowsTheEdges : Prop :=
  ∀ (s : State),
    let st := s.get ALM_STATE_STATE
    let next := s.get ALM_NEXT_COUNT
    let e := almError s
    let near := if s.alm + almPeriod s / 2 < next then next - almPeriod s else next
    let d := almNominal * 200 / 1000000
    let misses (c : Instr) (ps : List Part) (edge next' : Nat) := ∃ u, Does c s ps u ∧ u.alm = s.alm ∧
      let n := min 255 (s.get ALM_STATE_MISSED + 1)
      (max 1 (s.get ALM_SYNC_HOLD_MAX) ≤ n → u.get ALM_STATE_STATE = almFree ∧ u.get ALM_IRQ_UNLOCK = 1) ∧
      (n < max 1 (s.get ALM_SYNC_HOLD_MAX) → u.get ALM_STATE_STATE = almHoldover ∧ u.get ALM_STATE_MISSED = n ∧
        u.tim.missed = some edge ∧ u.get ALM_NEXT_COUNT = next' ∧ (st = almLocked → u.get ALM_IRQ_HOLDOVER = 1))
    let ps : List Part := [.free, .regs, .coal, .tim]
    (st = almFree → exec .almSyncEdge s = .next s) ∧
    (st = almAcquire → s.tim.first = true → ∃ u, Does .almSyncEdge s ps u ∧ u.alm = next ∧ u.get ALM_FRAC_FRAC = 0 ∧
      u.get ALM_IRQ_STEP = 1 ∧ u.get ALM_LAST_EDGE_COUNT = next ∧ u.get ALM_NEXT_COUNT = (next + almPeriod s) % 2 ^ 64 ∧
      u.get ALM_STATE_MISSED = 0 ∧ u.tim.first = false) ∧
    (st = almLocked ∨ st = almHoldover →
      (e.natAbs ≤ (nsErr 32).natAbs → ∃ u, Does .almSyncEdge s ps u ∧ u.get ALM_STATE_STATE = almLocked ∧ u.alm = s.alm ∧
        u.get ALM_LAST_EDGE_COUNT = s.alm ∧ u.get ALM_NEXT_COUNT = (next + almPeriod s) % 2 ^ 64 ∧ u.get ALM_STATE_MISSED = 0 ∧
        almNominal - d ≤ u.get ALM_RATE_RATE ∧ u.get ALM_RATE_RATE ≤ almNominal + d) ∧
      ((nsErr 32).natAbs < e.natAbs → e.natAbs ≤ (nsErr 1000).natAbs → ∃ u, Does .almSyncEdge s ps u ∧
        u.get ALM_STATE_STATE = almFree ∧ u.get ALM_IRQ_UNLOCK = 1 ∧ u.get ALM_RATE_RATE = s.get ALM_RATE_RATE) ∧
      ((nsErr 1000).natAbs < e.natAbs → s.tim.missed ≠ some near → misses .almSyncEdge ps near next) ∧
      ((nsErr 1000).natAbs < e.natAbs → s.tim.missed = some near → exec .almSyncEdge s = .next s) ∧
      (next + 1000 < s.alm → s.tim.missed ≠ some next → misses .missedEdge [.regs, .coal, .tim] next ((next + almPeriod s) % 2 ^ 64)))

/-- A write to ALM_NEXT acts by the counter's state, and ALM_SYNC.EN starts acquisition with a value that waits for it or returns the
counter to FREE without a step (R376). -/
def Obligations.AlmNextAndSyncWritesActByState : Prop :=
  ∀ (s : State),
    let st := s.get ALM_STATE_STATE
    (st = almLocked ∨ st = almHoldover → ∀ v, exec (.almNextWrite v) s = .next s) ∧
    (∀ v, (st = almAcquire ∨ (st = almFree ∧ s.flag ALM_SYNC_EN = true) → ∃ u, Does (.almNextWrite v) s [.regs, .tim] u ∧
        RegsBut [ALM_NEXT_COUNT.addr, ALM_STATE_STATE.addr] s u ∧ u.get ALM_NEXT_COUNT = v.toNat ∧
        u.get ALM_STATE_STATE = almAcquire ∧ u.tim.first = true ∧ u.tim.good = 0) ∧
      (st = almFree → s.flag ALM_SYNC_EN = false → ∃ u, Does (.almNextWrite v) s [.regs, .tim] u ∧
        RegsBut [ALM_NEXT_COUNT.addr] s u ∧ u.get ALM_NEXT_COUNT = v.toNat ∧ u.tim = { s.tim with held := true })) ∧
    (∀ v, ∃ u, Does (.almSyncWrite v) s [.regs, .tim] u ∧ RegsBut [ALM_SYNC_EN.addr, ALM_STATE_STATE.addr] s u ∧
      u.get ALM_SYNC_EN = ALM_SYNC_EN.of v ∧ u.get ALM_SYNC_PERIOD_MS = ALM_SYNC_PERIOD_MS.of v ∧
      u.get ALM_SYNC_HOLD_MAX = ALM_SYNC_HOLD_MAX.of v ∧
      u.get ALM_STATE_STATE = (if ALM_SYNC_EN.of v = 0 then almFree
        else if st = almFree ∧ s.flag ALM_SYNC_EN = false ∧ s.tim.held = true then almAcquire else st))

/-- The mode commands and deadlines move ALM_MODE through R391's states: a late change keeps the old mode, and the pending mode becomes
the current one in the fc in which the count reaches ALM_MODE_COUNT (R391, R394, R408, R512). A throttle event takes the next SEQ and
records its die set before any cycle is gated, and closes when every duty is zero (R388, R389). -/
def Obligations.ModeChangesAndThrottleEvents : Prop :=
  ∀ (s : State),
    let pst := s.get ALM_MODE_PSTATE
    let refused (c : Instr) (ps : List Part) := ∃ u, Does c s ps u ∧ RegsBut [ALM_MODE_CODE.addr] s u ∧
      u.get ALM_MODE_PSTATE = pst ∧ u.get ALM_MODE_CUR = s.get ALM_MODE_CUR ∧ u.get ALM_MODE_CODE = cModeRefused
    (∀ ep, let g := modeUs (s.get ALM_MODE_TIME_GUARD_US)
      let c := s.get ALM_MODE_ARG_COUNT
      let may := pst = 0 ∧ ep.toNat = (s.get ALM_MODE_CUR + 1) % 256 ∧ s.alm + g * 1000 + 1000 ≤ c
      (may → ∃ u, Does (.announce ep) s [.regs, .cfg] u ∧ RegsBut [ALM_MODE_PSTATE.addr, ALM_MODE_COUNT_COUNT.addr] s u ∧
        u.get ALM_MODE_PSTATE = 1 ∧ u.get ALM_MODE_PEND = ep.toNat ∧ u.get ALM_MODE_COUNT_COUNT = c ∧
        u.get ALM_MODE_CUR = s.get ALM_MODE_CUR ∧ u.cfg.guardUs = g) ∧
      (¬ may → refused (.announce ep) [.regs])) ∧
    (pst = 1 → s.alm < guardCount s → s.cfg.shown ≠ some false → ∃ u, Does .stage s [.regs, .coal, .vt, .links, .cfg] u ∧
      u.get ALM_MODE_PSTATE = 2 ∧ u.cfg.staged = s.cfg.amend) ∧
    (pst ≠ 1 → refused .stage [.regs]) ∧
    (pst = 1 ∨ (pst = 2 ∧ s.alm < guardCount s) → ∃ u, Does .modeCancel s [.regs, .vt, .cfg] u ∧ u.get ALM_MODE_PSTATE = 0 ∧
      u.cfg.amend = none ∧ u.cfg.staged = none ∧ u.get ALM_MODE_CUR = s.get ALM_MODE_CUR) ∧
    (pst ≠ 1 → pst ≠ 2 ∨ guardCount s ≤ s.alm → refused .modeCancel [.regs]) ∧
    (pst = 1 → guardCount s ≤ s.alm → ∃ u, Does .guardDeadline s [.regs, .coal] u ∧ u.get ALM_MODE_PSTATE = 0 ∧
      u.get ALM_MODE_CODE = cModeLate ∧ u.get ALM_IRQ_MODE_LATE = 1 ∧ u.get ALM_MODE_CUR = s.get ALM_MODE_CUR) ∧
    (pst = 2 → s.get ALM_MODE_COUNT_COUNT ≤ s.alm → ∃ u, Does .modeApply s [.regs, .vt, .sec, .cfg] u ∧ u.get ALM_MODE_PSTATE = 3 ∧
      u.get ALM_MODE_CUR = s.get ALM_MODE_PEND ∧ u.get ALM_MODE_APPLIED_COUNT = s.alm ∧ u.get ALM_IRQ_MODE_APPLIED = 1 ∧
      u.cfg.staged = none ∧ u.cfg.amend = none ∧
      ∀ g, s.cfg.staged = some g → Tab.get (fun _ => 0) u.sec.meas 4 = (Config.sha384 g).toNat) ∧
    (pst = 3 → s.get ALM_MODE_APPLIED_COUNT + s.cfg.winUs * 1000 ≤ s.alm → ∃ u, Does .modeWindowEnd s [.regs] u ∧
      RegsBut [ALM_MODE_PSTATE.addr] s u ∧ u.get ALM_MODE_PSTATE = 0 ∧ u.get ALM_MODE_CUR = s.get ALM_MODE_CUR) ∧
    (∀ (cause : Fin 4) (dies : List (Fin 40)) (duty : Fin 257), let q := s.get ALM_THR_SEQ_SEQ + 1
      q < 2 ^ 64 → duty.val ≠ 0 → (dies.map Fin.val).filter gateable ≠ [] →
      ∃ u e, Does (.throttleOpen cause dies duty) s [.regs, .pwr] u ∧ u.get ALM_THR_SEQ_SEQ = q ∧ u.get ALM_THR_OPEN_OPEN = 1 ∧
        u.get ALM_IRQ_THROTTLE = 1 ∧ u.get (thrLog q 0) = s.alm ∧ u.get (thrLog q 1) = 0 ∧
        bitsOf (u.get (thrLog q 3)) 32 8 = cause.val + 1 ∧ bitsOf (u.get (thrLog q 3)) 40 9 = duty.val ∧
        e ∈ u.pwr.events ∧ e.seq = q ∧ e.cause = cause.val + 1 ∧ e.last = none ∧
        e.cuts.map (fun c => (c.die, c.duty)) = ((dies.map Fin.val).filter gateable).map (fun d => (d, duty.val)) ∧
        ∀ d : Fin 40, u.get (PWR_DIE_DUTY d) = dutyOf u d % 2 ^ 9) ∧
    (∃ u, Does .throttleClose s [.free, .regs, .pwr] u ∧
      u.pwr.events = s.pwr.events.filter (fun e => !e.cuts.all (fun c => c.duty == 0)) ∧
      u.get ALM_THR_OPEN_OPEN = ofBool !u.pwr.events.isEmpty ∧
      ∀ e ∈ s.pwr.events, ∀ a, e.cuts.all (fun c => c.duty == 0) = true → e.last = some a →
        (∀ f ∈ s.pwr.events, f.seq % 256 = e.seq % 256 → f = e) → u.get (thrLog e.seq 1) = a % 2 ^ 64)

/-! Register access and the host port (R8, R9, R29; 17_host_interface R412 to R427). -/

/-- BAR4 offset x reaches HBM offset BASE × 2^30 + x for reads and writes that the checks of R261 to R298 allow, and BASE takes only a
multiple of the BAR's size that keeps the window below 512 GiB (R416). -/
def Obligations.Bar4ReachesHbmAtItsBase : Prop :=
  ∀ (s : State),
    (portServed s = true →
      (∀ (x : BitVec 36) (n : Fin 4097), 0 < n.val → x.toNat + n.val ≤ bar4Bytes s →
        let c := bar4Code s pR x.toNat n
        let off := bar4Off s x.toNat
        let v := hbmFind off n s
        (c = 0 → v.anyPoison off n = false → ∃ u, Does (.bar4Read x n) s [.regs, .poison, .hbms, .pci] u ∧
          u.pci.cpl = some (0, s.bytes off n)) ∧
        (c = 0 → v.anyPoison off n = true → ∃ u, Does (.bar4Read x n) s [.regs, .poison, .hbms, .pci] u ∧
          u.get PCI_LAST_CODE = cPciBarRefused ∧ u.get PCI_LAST_CAUSE = cVtPoison ∧
          u.pci.cpl = some (0, cutWords x.toNat n (loadData v (off / 8 * 8) (wordSpan x.toNat n)))) ∧
        (c ≠ 0 → ∃ u, Does (.bar4Read x n) s [.regs, .pci] u ∧ u.get PCI_LAST_CODE = cPciBarRefused ∧
          u.pci.cpl = some (0, cutWords x.toNat n (errBytes c (wordSpan x.toNat n))))) ∧
      (∀ x bs poisoned, bs ≠ [] → x.toNat + bs.length ≤ bar4Bytes s →
        let off := bar4Off s x.toNat
        let c := bar4Code s pW x.toNat bs.length
        (poisoned = false → c = 0 → ∃ u, Does (.bar4Write x bs poisoned) s [.regs, .mem, .poison, .hbms] u ∧
          (∀ i, (h : i < bs.length) → u.byte (off + i) = bs[i].getD (s.byte (off + i))) ∧
          ∀ a, a < off ∨ off + bs.length ≤ a → u.byte a = s.byte a) ∧
        (poisoned = true ∨ c ≠ 0 → ∃ u, Does (.bar4Write x bs poisoned) s [.regs, .pci] u ∧
          u.get PCI_LAST_CODE = (if poisoned = true then cPciPoison else cPciBarRefused)))) ∧
    (∀ v, let b := PCI_BAR4_BASE.of v
      let n := 2 ^ s.get PCI_BAR4_SIZE_LOG2
      (b % n = 0 → b + n ≤ 512 → ∃ u, Does (.bar4BaseWrite v) s [.regs] u ∧ RegsBut [PCI_BAR4_BASE.addr] s u ∧
        u.get PCI_BAR4_BASE = b ∧ u.get PCI_BAR4_SIZE_LOG2 = s.get PCI_BAR4_SIZE_LOG2) ∧
      (¬ (b % n = 0 ∧ b + n ≤ 512) → ∃ u, Does (.bar4BaseWrite v) s [.regs, .pci] u ∧ u.get PCI_BAR4_BASE = s.get PCI_BAR4_BASE ∧
        u.get PCI_LAST_CODE = cPciAccess))

/-- A register write sets the RW fields, clears the RW1C bits written 1 and leaves the rest, or does the register's action, and is
discarded where the register does not answer (R8, R9, R29); a write to core store on the maintenance port stores its word, whatever plot or
key (R68, R87; log entry 41). BAR0, configuration space, AtomicOps and MSI-X triggers do
what R412 to R415 and R420 say. -/
def Obligations.SoftwareAccessesRegisters : Prop :=
  ∀ (s : State),
    (∀ (a : BitVec 46) v p, s.dataUp = true → inCore a.toNat 8 = some p → a.toNat % 8 = 0 →
      (s.dieFenced (dieOfCore p) = false → ∃ u, Does (.registerWrite a v) s [.mem] u ∧ u.bytes a.toNat 8 = toBytes 8 v.toNat ∧
        ∀ b, b < a.toNat ∨ a.toNat + 8 ≤ b → u.byte b = s.byte b) ∧
      (s.dieFenced (dieOfCore p) = true → exec (.registerWrite a v) s = .next s)) ∧
    (∀ (a : BitVec 46) v, inRegs a.toNat = true →
      (regCode s a.toNat ≠ 0 → exec (.registerWrite a v) s = .next s) ∧
      (regCode s a.toNat = 0 → (∀ t, actionWrite a.toNat v s = some t → exec (.registerWrite a v) s = .next t) ∧
        (actionWrite a.toNat v s = none → ∃ u, Does (.registerWrite a v) s [.regs] u ∧ RegsBut [a.toNat] s u ∧
          let fs := (regFields a.toNat).getD []
          let rw := accessMask (fun x => x == .rw) fs
          let clr := accessMask (fun x => x == .rw1c) fs
          ∀ i < 64, (u.word a.toNat).getLsbD i = (if rw.getLsbD i = true then v.getLsbD i
            else (s.word a.toNat).getLsbD i && !(clr.getLsbD i && v.getLsbD i))))) ∧
    (portServed s = true →
      (∀ off width v a, inMsix off.toNat width = false → apertureReg s off.toNat = some a →
        (regCode s a = 0 → (∃ u, Does (.bar0Access off 8 none) s [.pci] u ∧ u.pci.cpl = some (0, toBytes 8 (regValue s a))) ∧
          exec (.bar0Access off 8 (some v)) s = exec (.registerWrite (BitVec.ofNat 46 a) v) s) ∧
        (regCode s a ≠ 0 ∨ width ≠ 8 → width ≠ 0 → (∃ u, Does (.bar0Access off width none) s [.regs, .pci] u ∧
            u.pci.cpl = some (0, toBytes width 0) ∧ u.get PCI_LAST_CODE = cPciAccess) ∧
          ∃ u, Does (.bar0Access off width (some v)) s [.regs, .pci] u ∧ u.get PCI_LAST_CODE = cPciAccess)) ∧
      (∀ off v, inMsix off.toNat 4 = true → off.toNat < 0x3C08000 → ∃ u, Does (.bar0Access off 4 (some v)) s [.pci] u ∧
        Tab.get msixDef u.pci.msix ((off.toNat - 0x3C00000) / 4) = v.toNat % 2 ^ 32) ∧
      (∃ u, Does .pcieAtomicop s [.pci] u ∧ u.pci = { s.pci with cpl := some (1, []) }) ∧
      (2 ≤ s.get PWR_STATUS_PHASE →
        (∀ r, ∃ u, Does (.configAccess r none) s [.free, .pci] u ∧ u.pci.cpl = some (0, toBytes 8 (cfgRead r s).1)) ∧
        (∀ v : Word, (∃ u, Does (.configAccess .command (some v)) s [.pci] u ∧ u.pci.command = v.toNat % 2 ^ 16 ∧
            u.pci.cpl = some (0, [])) ∧
          (bitOf v.toNat 15 = true → ∃ u, Does (.configAccess .devControl (some v)) s [.regs, .mem, .poison, .silo, .model, .hbms, .pci] u ∧
            PortReset u ∧ u.get PCI_STATUS_FLR_SEEN = 1 ∧ u.pci.cpl = some (0, []))))) ∧
    (∀ v : Word, (v.toNat = 0 ∨ 2047 < v.toNat → exec (.msixTrig v) s = .next s) ∧
      (1 ≤ v.toNat → v.toNat ≤ 2047 →
        (msixMasked s v.toNat = true → ∃ u, Does (.msixTrig v) s [.pci] u ∧ v.toNat ∈ u.pci.pba ∧ u.pci.msg = s.pci.msg) ∧
        (msixMasked s v.toNat = false → v.toNat ∉ s.pci.pba → ∃ u, Does (.msixTrig v) s [.pci] u ∧
          u.pci.msg = some (msixWord s v.toNat 0 + msixWord s v.toNat 1 * 2 ^ 32, msixWord s v.toNat 2))))

/-- The part's own reads of host memory start, take their completions and fail (R421, R422); a presented image is checked once read whole
(R405, R512); FLR, hot reset, PERST_N and a lost link reset the port and fail what is in flight (R424). -/
def Obligations.HostReadsAndResets : Prop :=
  ∀ (s : State),
    let all : List Part := [.free, .regs, .mem, .poison, .silo, .model, .hbms, .pci]
    let imgFailed (u : State) := u.pci.imgRead = none ∧ u.get PCI_IMG_STAT_BUSY = 0
    (s.flag PCI_IMG_STAT_BUSY = true → exec .present s = .next s) ∧
    (s.flag PCI_IMG_STAT_BUSY = false → s.partFenced = false →
      let c := dmaRefusal s (s.get PCI_IMG_SRC_ADDR) (s.get PCI_IMG_BYTES_BYTES)
      (c = 0 → ∃ u, Does .present s [.regs, .pci] u ∧ RegsBut [PCI_IMG_STAT_BUSY.addr] s u ∧ u.get PCI_IMG_STAT_BUSY = 1 ∧
        u.pci.imgRead = some { addr := s.get PCI_IMG_SRC_ADDR, want := s.get PCI_IMG_BYTES_BYTES }) ∧
      (c ≠ 0 → ∃ u, Does .present s [.regs, .pci] u ∧ u.get PCI_IMG_STAT_BUSY = 0 ∧ u.get PCI_IMG_STAT_CODE = c ∧
        u.get PCI_LAST_CODE = c ∧ u.pci.imgRead = s.pci.imgRead)) ∧
    (∀ r, s.pci.imgRead = some r →
      (r.want ≤ r.got.length →
        let g := r.got.take r.want
        let res := if structHdrOk g && ihKind g == 0 then some (cImgFormat, 0, 1)
          else imgCheck { s with pci := { s.pci with imgRead := none } } g
        ∃ u, Does .imageCheck s [.regs, .cfg, .pci] u ∧ imgFailed u ∧ u.get PCI_IMG_STAT_CODE = (res.getD (0, 0, 0)).1 % 2 ^ 16 ∧
          u.get MGT_CFG_STAT_CODE = (res.getD (0, 0, 0)).1 % 2 ^ 16 ∧ u.get MGT_IRQ_CFG = 1 ∧
          (s.cfg.staged = none → s.get ALM_MODE_PSTATE ≠ 2 →
            (res = none → u.cfg = { s.cfg with amend := some g, shown := some true }) ∧
            (res ≠ none → u.cfg = { s.cfg with shown := some false }))) ∧
      (r.got.length < r.want → exec .imageCheck s = .next s) ∧
      (∀ bs, ∃ u, Does (.hostReadCompletion false (.data bs)) s [.pci] u ∧
        u.pci = { s.pci with imgRead := some { r with got := (r.got ++ bs).take r.want } }) ∧
      (∃ u, Does (.hostReadCompletion false .poisoned) s [.regs, .pci] u ∧ imgFailed u ∧ u.get PCI_IMG_STAT_CODE = cPciPoison) ∧
      (∃ u, Does (.hostReadCompletion false .refused) s [.free, .regs, .pci] u ∧ imgFailed u) ∧
      (∃ u, Does (.completionTimeout false) s [.regs, .pci] u ∧ imgFailed u ∧ u.get PCI_IMG_STAT_CODE = cPciCto ∧
        u.get PCI_LAST_CODE = cPciCto)) ∧
    (∀ r, s.pci.modRead = some r →
      (∀ bs, let g := (r.got ++ bs).take r.want
        let want := if modelSt s = mVerify ∧ r.want ≤ g.length then max r.want (tablesWant g) else r.want
        (r.want < want → dmaRefusal s r.addr want = 0) → ∃ u, Does (.hostReadCompletion true (.data bs)) s [.pci] u ∧
          u.pci = { s.pci with modRead := some { r with want := want, got := g } }) ∧
      ∀ c, (c = Instr.hostReadCompletion true .poisoned ∨ c = .hostReadCompletion true .refused ∨ c = .completionTimeout true) →
        ∃ u, Does c s all u ∧ ModelFailed cLoadSource u) ∧
    (portServed s = true →
      (∃ u, Does .flr s all u ∧ PortReset u ∧ u.get PCI_STATUS_FLR_SEEN = 1) ∧
      (∃ u, Does .hotReset s all u ∧ PortReset u ∧ u.get PCI_STATUS_FLR_SEEN = 1 ∧ u.get PCI_LINK_SPEED = 0 ∧ u.get PCI_LINK_WIDTH = 0) ∧
      (∀ (speed : Fin 7) (width : Fin 17) flit, 2 ≤ s.get PWR_STATUS_PHASE → speed.val ≠ 0 → width.val ≠ 0 →
        ∃ u, Does (.pcieLinkUp speed width flit) s [.regs, .coal, .pci] u ∧ u.get PCI_LINK_SPEED = speed.val ∧
          u.get PCI_LINK_WIDTH = width.val ∧ u.get PCI_LINK_FLIT = ofBool flit ∧
          (speed.val < 6 ∨ width.val < 16 → u.get PCI_LAST_CODE = cPciDegraded ∧ u.get PCI_IRQ_DEGRADED = 1))) ∧
    (∃ u, Does (.perstN true) s all u ∧ PortReset u ∧ u.pci.perst = true ∧ u.get PCI_LINK_SPEED = 0) ∧
    (∃ u, Does (.perstN false) s [.pci] u ∧ u.pci = { s.pci with perst := false }) ∧
    (pcieUp s = true → ∃ u, Does .pcieLinkDown s all u ∧ u.get PCI_LINK_SPEED = 0 ∧ u.get PCI_LAST_CODE = cPciLinkDown ∧
      u.pci.imgRead = none ∧ u.pci.modRead = none) ∧
    (pcieUp s = false → exec .pcieLinkDown s = .next s)

/-! Fences of dies and of the part, releases, substitution and the frozen black box (18_reliability_and_spares R430 to R439, R446, R447). -/

/-- WATCHDOG_EXPIRY, CLOCK_LOSS, HBM_INTERFACE_LOSS and a failed package-network link fence the die, or the part, that R430 names;
MGT_FENCE_CMD starts a release where R434 allows it, whose self-test leaves the unit released or fenced; MGT_SUBST exchanges a core
with the fallow core of its die once both have stopped, and not while one runs again (R438, R439; log entry 38). -/
def Obligations.DieFaultsReleasesAndSubstitution : Prop :=
  ∀ (s : State),
    (∀ d : Fin 40,
      (dieRuns s d = true → (∃ u, Does (.clockLoss d) s fenceParts u ∧ DieFenced d s u) ∧
        (d.val < 20 ∨ d.val = 38 → ∃ u, Does (.watchdogExpiry d) s fenceParts u ∧ DieFenced d s u)) ∧
      (20 ≤ d.val → d.val ≠ 38 → exec (.watchdogExpiry d) s = .next s) ∧
      (dieRuns s d = false → exec (.clockLoss d) s = .next s ∧ exec (.watchdogExpiry d) s = .next s)) ∧
    (∀ j : Fin 8,
      (dieRuns s (20 + j.val) = true → ∃ u, Does (.hbmInterfaceLoss j) s fenceParts u ∧ DieFenced (20 + j.val) s u) ∧
      (dieRuns s (20 + j.val) = false → exec (.hbmInterfaceLoss j) s = .next s)) ∧
    (∀ (k : Fin 4) (n : Fin 10) (again : Bool), s.dataUp = true →
      let far := if n.val < 4 then some (4 * k.val + n.val) else if n.val = 7 then some (28 + k.val)
        else if n.val = 8 then some (36 + k.val / 2) else none
      let def0 : Nat → Nat × List Nat := fun _ => (0, [])
      let x := Tab.get def0 s.rel.pnet (16 * k.val + n.val)
      let times := x.2.filter (fun a => decide (s.alm < a + 1000000)) ++ [s.alm]
      let failed := if again = true then x.1 + 1 else 0
      let unused := (n.val = 9 ∧ k.val ≠ 0) ∨ ∃ d, far = some d ∧ s.dieFenced d = true
      (unused → exec (.pnetParityFail k n again) s = .next s) ∧
      (¬ unused → failed < 8 → times.length < 64 → ∃ u, Does (.pnetParityFail k n again) s [.regs, .coal, .rel] u ∧
        RegsButBox [] s u ∧ Tab.get def0 u.rel.pnet (16 * k.val + n.val) = (failed, times)) ∧
      (¬ unused → 8 ≤ failed ∨ 64 ≤ times.length → ∃ u, Does (.pnetParityFail k n again) s (fenceParts ++ [.rel]) u ∧
        (∀ d, far = some d → DieFenced d s u) ∧ (far = none → PartFenced s u))) ∧
    (∀ (d : BitVec 6) (sub : BitVec 10),
      ∀ c ∈ ([(1, .fenceReleaseEngine d sub), (2, .fenceReleaseCore d sub), (3, .fenceReleaseDie d sub)] : List (Nat × Instr)),
      (s.flag MGT_FENCE_STAT_BUSY = true → exec c.2 s = .next s) ∧
      (s.flag MGT_FENCE_STAT_BUSY = false → releaseOk s c.1 d.toNat sub.toNat = true → ∃ u, Does c.2 s [.regs, .rel] u ∧
        RegsBut [MGT_FENCE_STAT_BUSY.addr] s u ∧ u.get MGT_FENCE_STAT_BUSY = 1 ∧ u.get MGT_FENCE_STAT_PASSED = 0 ∧
        u.get MGT_FENCE_STAT_CODE = 0 ∧ u.rel.release = some (c.1, d.toNat, sub.toNat)) ∧
      (s.flag MGT_FENCE_STAT_BUSY = false → releaseOk s c.1 d.toNat sub.toNat = false → ∃ u, Does c.2 s [.regs] u ∧
        RegsBut [MGT_FENCE_STAT_BUSY.addr] s u ∧ u.get MGT_FENCE_STAT_BUSY = 0 ∧ u.get MGT_FENCE_STAT_CODE = cFenceRefused)) ∧
    (∀ pass, s.rel.release = none → exec (.fenceReleaseDone pass) s = .next s) ∧
    (∀ level d sub, s.rel.release = some (level, d, sub) →
      let p := 9 * d + sub / 8
      (∀ pass, pass = false ∨ s.partFenced = true → ∃ u, Does (.fenceReleaseDone pass) s [.regs, .rel] u ∧
        RegsBut [MGT_FENCE_STAT_BUSY.addr] s u ∧ u.get MGT_FENCE_STAT_BUSY = 0 ∧ u.get MGT_FENCE_STAT_PASSED = 0 ∧
        u.rel = { s.rel with release := none }) ∧
      (s.partFenced = false → (d < 16 ∧ sub < 72 ∧ ((level = 1 ∧ sub % 8 < 6) ∨ level = 2)) ∨ (level = 3 ∧ d < 40) →
        ∃ u, Does (.fenceReleaseDone true) s [.free, .regs, .mem, .poison, .accs, .cores, .links, .rel] u ∧
          u.get MGT_FENCE_STAT_BUSY = 0 ∧ u.get MGT_FENCE_STAT_PASSED = 1 ∧ u.rel = { s.rel with release := none } ∧
          (level = 1 → u.engFenced p (sub % 8) = false ∧ u.word (engErr p (sub % 8)) = 0) ∧
          (level = 2 → u.get (CORE_STATUS_STATE p) = stIdle ∧ u.word (coreErr p) = 0 ∧
            ∀ i : Fin 1024, u.get (CORE_ARR_MODE p i) = 0 ∧ u.get (CORE_ARR_COUNT p i) = 0) ∧
          (level = 3 → u.dieFenced d = false))) ∧
    (∀ phys : BitVec 8,
      let p := phys.toNat
      let waiting := s.flag MGT_SUBST_STAT_PENDING = true ∨ s.flag MGT_SUBST_STAT_BUSY = true
      let refused (detail : Nat) := ∃ u, Does (.substitute phys) s [.regs] u ∧ RegsBut [MGT_SUBST_STAT_PENDING.addr] s u ∧
        u.get MGT_SUBST_STAT_CODE = cSubstRefused ∧ u.get MGT_SUBST_STAT_DETAIL = detail
      let unfit (f : Nat) := f = p ∨ s.get (CORE_STATUS_STATE f) = stFenced ∨ s.dieFenced (p / 9) = true ∨ s.partFenced = true
      (waiting → exec (.substitute phys) s = .next s) ∧
      (¬ waiting → 143 < p → refused 3) ∧
      (¬ waiting → p ≤ 143 → (fallowOf s (p / 9) = none → refused 2) ∧
        ∀ f, fallowOf s (p / 9) = some f → (unfit f → refused 2) ∧
          (¬ unfit f → ∃ u, Does (.substitute phys) s [.regs, .subst] u ∧ RegsBut [MGT_SUBST_STAT_PENDING.addr] s u ∧
            u.get MGT_SUBST_STAT_PENDING = 1 ∧ u.subst = (p, f)))) ∧
    (s.dataUp = true →
      (s.flag MGT_SUBST_STAT_PENDING = true → busyCore s s.subst.1 = false → busyCore s s.subst.2 = false →
        ∃ u, Does .substitutionStart s [.regs] u ∧ RegsBut [MGT_SUBST_STAT_PENDING.addr] s u ∧ u.get MGT_SUBST_STAT_PENDING = 0 ∧
          u.get MGT_SUBST_STAT_BUSY = 1) ∧
      (busyCore s s.subst.1 = true ∨ busyCore s s.subst.2 = true → exec .substitutionStart s = .next s) ∧
      (∀ pass, busyCore s s.subst.1 = true ∨ busyCore s s.subst.2 = true → exec (.substitutionComplete pass) s = .next s) ∧
      (∀ old new, s.subst = (old, new) → old < 144 → new < 144 → old ≠ new → s.flag MGT_SUBST_STAT_BUSY = true →
        busyCore s old = false → busyCore s new = false →
        (∃ u, Does (.substitutionComplete false) s [.regs, .cores] u ∧ u.get MGT_SUBST_STAT_BUSY = 0 ∧
          u.get MGT_SUBST_STAT_CODE = cSubstRefused ∧ u.get MGT_SUBST_STAT_DETAIL = 1 ∧
          ∀ p : Fin 144, u.word (CORE_ID_LOGICAL p).addr = s.word (CORE_ID_LOGICAL p).addr) ∧
        ∃ u, Does (.substitutionComplete true) s [.free, .regs, .mem, .poison, .accs, .cores] u ∧ u.get MGT_SUBST_STAT_BUSY = 0 ∧
          u.get MGT_SUBST_STAT_CODE = cSubstDone ∧ u.get (CORE_ID_LOGICAL new) = s.get (CORE_ID_LOGICAL old) ∧
          u.get (CORE_ID_FALLOW new) = 0 ∧ u.get (CORE_ID_LOGICAL old) = 0 ∧ u.get (CORE_ID_FALLOW old) = 1 ∧
          ∀ i : Fin 1024, u.get (CORE_ARR_MODE new i) = 0 ∧ u.get (CORE_ARR_COUNT new i) = 0))

/-! The security die (19_security R459 to R463) and the frozen black box (R446, R447). -/

/-- A sensor counts and shows its firing; at level 2 and above the part is fenced and halted, at level 3 the keys are erased too; a part
that has responded only counts (R459 to R461). SCRUB_DONE leaves the core stores zero (R462); debug access is granted in mode 2
alone (R463). The copy of a frozen ring goes to the next Silo slot, and UNFREEZE follows it (R446, R447). -/
def Obligations.AlarmsDebugScrubAndBlackBox : Prop :=
  ∀ (s : State),
    (∀ sensors : List (Fin 4),
      let c := Instr.sensorFire sensors
      let at_ (l : Nat) := ∃ i ∈ sensors, l ≤ sensorLevel s i.val
      (sensors = [] ∨ s.pwr.unpowered = true → exec c s = .next s) ∧
      (sensors ≠ [] → s.pwr.unpowered = false → ∃ u, Does c s fenceParts u ∧
        (∀ i : Fin 4, u.get (alarmCnt i) = if i ∈ sensors then min (s.get (alarmCnt i) + 1) (2 ^ 16 - 1) else s.get (alarmCnt i)) ∧
        (s.flag SEC_ALARM_STAT_HALTED = true → State.onlyIn [.regs] s u ∧ RegsBut [SEC_ALARM_CNT_COUNT.addr] s u) ∧
        (s.flag SEC_ALARM_STAT_HALTED = false → (∀ i ∈ sensors, (u.get SEC_ALARM_STAT_FIRED).testBit i.val = true) ∧
          u.get SEC_IRQ_ALARM = 1 ∧ u.get SEC_LAST_CODE = cSecAlarm ∧
          (at_ 2 → u.get SEC_ALARM_STAT_HALTED = 1 ∧ PartFenced s u) ∧
          (at_ 3 → u.get SEC_ALARM_STAT_KEYS_ERASED = 1 ∧ u.sec.dmk = none ∧ u.sec.dik = none ∧ u.model.key = none ∧
            u.get SEC_STATE_KEY_EPOCH = min 64 (s.get SEC_STATE_KEY_EPOCH + 1)) ∧
          (¬ at_ 2 → State.onlyIn [.regs] s u ∧ u.get SEC_ALARM_STAT_HALTED = 0 ∧ RegsButBox [SEC_ALARM_CNT_COUNT.addr,
            SEC_ALARM_STAT_FIRED.addr, SEC_LAST_CODE.addr, SEC_IRQ_ALARM.addr] s u)))) ∧
    (let may := s.get SEC_STATE_JTAG = 2 ∧ s.flag SEC_ID_DEBUG_ALLOW = true ∧ s.get SEC_STATE_KEYSTATE = ksEmpty ∧
        s.pwr.unpowered = false;
      (may → ∃ u, Does .jtagDebugRequest s [.regs, .sec] u ∧ u.sec = { s.sec with debug := true } ∧ u.get SEC_LAST_CODE = cSecDebug ∧
        RegsButBox [SEC_LAST_CODE.addr] s u) ∧
      (¬ may → exec .jtagDebugRequest s = .next s)) ∧
    (let may := s.flag SEC_ALARM_STAT_HALTED = true ∧ s.flag SEC_ALARM_STAT_SCRUB_DONE = false;
      (may → ∃ u, Does .scrubDone s [.regs, .mem, .poison, .accs, .hbms] u ∧ u.get SEC_ALARM_STAT_SCRUB_DONE = 1 ∧ u.accs = [] ∧
        ∀ p : Fin 144, ∀ x < csSize, u.byte (csOffset p 0 + x) = 0) ∧
      (¬ may → exec .scrubDone s = .next s)) ∧
    (let copied := s.flag MGT_BB_COPIED = true ∨ s.flag MGT_BB_COPY_FAIL = true;
      (copied → ∃ u, Does .unfreeze s [.regs] u ∧ RegsBut [MGT_BB_FROZEN.addr] s u ∧ u.get MGT_BB_FROZEN = 0 ∧ u.get MGT_BB_LOST = 0 ∧
        u.get MGT_BB_SEQ = s.get MGT_BB_SEQ) ∧
      (¬ copied → exec .unfreeze s = .next s) ∧
      (∀ ok, s.pwr.resetWait = false →
        (s.flag MGT_BB_FROZEN = false ∨ copied → exec (.bbCopyDone ok) s = .next s) ∧
        (s.flag MGT_BB_FROZEN = true → ¬ copied →
          (ok = true → s.dieFenced 36 = false ∨ s.dieFenced 37 = false → ∃ u, Does (.bbCopyDone ok) s [.regs, .silo] u ∧
            RegsBut [MGT_BB_FROZEN.addr] s u ∧ u.get MGT_BB_COPIED = 1 ∧ u.get MGT_BB_SLOT = s.silo.copyNext % 8 ∧
            Tab.get (fun _ => []) u.silo.copies s.silo.copyNext = bbSlot s ∧ u.silo.copyNext = (s.silo.copyNext + 1) % 8) ∧
          (ok = false ∨ (s.dieFenced 36 = true ∧ s.dieFenced 37 = true) → ∃ u, Does (.bbCopyDone ok) s [.regs, .coal] u ∧
            RegsButBox [] s u ∧ u.get MGT_BB_COPY_FAIL = 1))))

/-! Power, temperatures and rails (20_power_clocks_reset R467 to R473, R478, R481). -/

/-- A power sample above the cap in force gates the dies to it, and an excursion has its deadline, end and hold-off (R469, R470, R481);
a temperature adds 16 to its die's duty at the warning threshold, takes 16 off 2 °C below it, and trips the part (R471 to R473);
ten bad checks of a main rail, and MAIN_PG lost under MAIN_EN, are power trips (R467, R468); a planned power-down takes the main
rails off (R478). -/
def Obligations.PowerCapsTemperaturesAndRails : Prop :=
  ∀ (s : State),
    let gating : List Part := [.regs, .pwr]
    let cut (u : State) (src d : Nat) := cutDuty (cutsOf u src) d
    let fits := s.get ALM_THR_SEQ_SEQ + 1 < 2 ^ 64
    let tripped (code : Nat) (u : State) := PartFenced s u ∧ u.get PWR_STATUS_CODE = code ∧ u.pwr.trip = true
    (s.pwr.unpowered = true → (∀ total mean dies margin, exec (.powerSample total mean dies margin) s = .next s) ∧
      (∀ d t, exec (.tempSample d t) s = .next s) ∧ (∀ r mv amps std, exec (.railMonitor r mv amps std) s = .next s) ∧
      ∀ a, exec (.mainPgChange a) s = .next s) ∧
    (s.pwr.unpowered = false →
      (∀ (total mean : BitVec 16) (dies : List (BitVec 16)) (margin : Bool),
        let isOver := s.get PWR_EXC_STATE = 0 ∧ s.get PWR_CAP_SUST < total.toNat
        ∃ u st cap, Does (.powerSample total mean dies margin) s gating u ∧ u.get PWR_TOTAL_SAMPLE_W = total.toNat ∧
          u.get PWR_TOTAL_MEAN_W = mean.toNat ∧
          (∀ i, (h : i < dies.length) → i < 40 → u.get (PWR_DIE_MEAN_W i) = dies[i].toNat) ∧
          (isOver → st = 1 ∧ u.get PWR_EXC_COUNT = min (s.get PWR_EXC_COUNT + 1) (2 ^ 32 - 1)) ∧
          (¬ isOver → st = s.get PWR_EXC_STATE ∧ u.get PWR_EXC_COUNT = s.get PWR_EXC_COUNT) ∧ u.get PWR_EXC_STATE = st ∧
          (st = 2 ∨ s.pwr.past = true → cap = s.get PWR_CAP_SUST) ∧ (st ≠ 2 → s.pwr.past = false → cap = s.get PWR_CAP_EXC) ∧
          (total.toNat ≤ cap → margin = false → u.pwr = s.pwr) ∧
          (cap < total.toNat → u.pwr.target = cap ∧
            (eventOf s 0 = none → fits → (dutiesFor (10 * (total.toNat - cap)) u).any (fun c => c.duty != 0) = true →
              cutsOf u 0 = dutiesFor (10 * (total.toNat - cap)) u ∧ u.get ALM_THR_SEQ_SEQ = s.get ALM_THR_SEQ_SEQ + 1 ∧
              u.get ALM_IRQ_THROTTLE = 1))) ∧
      (∀ (d : Fin 40) (temp : BitVec 8),
        let hbm := decide (20 ≤ d.val) && decide (d.val < 28)
        let v := signedOf temp.toNat 8
        let warn : Int := ((s.get (if hbm = true then PWR_THERM_HBM_WARN_C else PWR_THERM_WARN_C) : Nat) : Int)
        let trip : Int := ((s.get (if hbm = true then PWR_FUSE_HBM_TRIP_C else PWR_FUSE_TRIP_C) : Nat) : Int)
        let old := cut s (2 + d.val) (thermGate d)
        ∃ u, Does (.tempSample d temp) s (fenceParts ++ [.pwr]) u ∧ u.get (PWR_TEMP_TEMP_C d) = temp.toNat ∧
          u.get (PWR_TEMP_MAX_C d) = (if signedOf (s.get (PWR_TEMP_MAX_C d)) 8 < v then temp.toNat else s.get (PWR_TEMP_MAX_C d)) ∧
          (d.val = 39 → State.onlyIn [.regs] s u ∧ RegsBut [(PWR_TEMP_TEMP_C d).addr] s u) ∧
          (d.val ≠ 39 → trip ≤ v → tripped cThermTrip u ∧ u.get PWR_IRQ_TRIP = 1) ∧
          (d.val ≠ 39 → v < trip → State.onlyIn [.regs, .coal, .pwr] s u ∧
            (hbm = true → u.get (HBM_STATUS_TEMP_C (d.val - 20)) = temp.toNat) ∧
            (warn ≤ v → d.val ∈ u.pwr.warm ∧ (d.val ∉ s.pwr.warm → u.get PWR_IRQ_WARN = 1) ∧
              (gateable (thermGate d) = true → fits → cut u (2 + d.val) (thermGate d) = min 256 (old + 16))) ∧
            (v < warn → d.val ∉ u.pwr.warm ∧
              (v ≤ warn - 2 → old ≠ 0 → cut u (2 + d.val) (thermGate d) = old - 16) ∧
              (warn - 2 < v ∨ old = 0 → u.pwr.events = s.pwr.events)))) ∧
      (∀ (r : Fin 12) (mv amps : BitVec 16) (std : Bool),
        let ok := railOk r mv.toNat std
        ∃ u n, Does (.railMonitor r mv amps std) s (fenceParts ++ [.pwr]) u ∧ u.get (PWR_RAIL_STAT_MV r) = mv.toNat ∧
          u.get (PWR_RAIL_STAT_AMPS r) = amps.toNat ∧ u.get (PWR_RAIL_STAT_IN_BAND r) = ofBool ok ∧
          (ok = true ∨ r.val < 3 ∨ s.flag PWR_STATUS_MAIN_PG = false → n = 0) ∧
          (ok = false → 3 ≤ r.val → s.flag PWR_STATUS_MAIN_PG = true → n = Tab.get (fun _ => 0) s.pwr.rails r + 1) ∧
          Tab.get (fun _ => 0) u.pwr.rails r = n ∧
          (n = 10 → tripped cPwrRail u ∧ u.get PWR_IRQ_RAIL = 1) ∧
          (n ≠ 10 → State.onlyIn gating s u ∧ RegsBut [(PWR_RAIL_STAT_MV r).addr] s u)) ∧
      (let done := s.get PWR_STATUS_PHASE = 3 ∧ s.flag PWR_STATUS_MAIN_EN = true ∧ s.get PWR_STATUS_CODE = 0
        ∃ u, Does (.mainPgChange true) s [.regs] u ∧ RegsBut [PWR_STATUS_MAIN_PG.addr] s u ∧ u.get PWR_STATUS_MAIN_PG = 1 ∧
          (done → u.get PWR_STATUS_PHASE = 4) ∧ (¬ done → u.get PWR_STATUS_PHASE = s.get PWR_STATUS_PHASE)) ∧
      (let on := s.flag PWR_STATUS_MAIN_EN = true ∧ s.flag PWR_STATUS_MAIN_PG = true
        ∃ u, Does (.mainPgChange false) s (fenceParts ++ [.accs, .pwr]) u ∧ u.mem = [] ∧ u.fills = [] ∧ u.poison = [] ∧ u.accs = [] ∧
          u.get PWR_STATUS_MAIN_PG = 0 ∧ (on → tripped cPwrRail u) ∧
          (¬ on → State.onlyIn [.regs, .mem, .poison, .accs] s u ∧ RegsBut [PWR_STATUS_MAIN_PG.addr] s u))) ∧
    (s.get PWR_EXC_STATE = 1 → ∃ u, Does .excursionDeadline s gating u ∧ u.pwr.past = true ∧ u.get PWR_EXC_STATE = 1 ∧
      (s.get PWR_CAP_SUST < s.get PWR_TOTAL_SAMPLE_W → u.pwr.target = s.get PWR_CAP_SUST) ∧
      (s.get PWR_TOTAL_SAMPLE_W ≤ s.get PWR_CAP_SUST → u.pwr = { s.pwr with past := true })) ∧
    (s.get PWR_EXC_STATE ≠ 1 → exec .excursionDeadline s = .next s) ∧
    (let calm := s.get PWR_EXC_STATE = 1 ∧ s.get PWR_TOTAL_SAMPLE_W ≤ s.get PWR_CAP_SUST;
      (calm → ∃ u, Does .excursionEnd s gating u ∧ RegsBut [PWR_EXC_STATE.addr] s u ∧ u.get PWR_EXC_STATE = 2 ∧
        u.get PWR_EXC_ELAPSED_US = 0 ∧ u.pwr = { s.pwr with past := false }) ∧
      (¬ calm → exec .excursionEnd s = .next s)) ∧
    (s.get PWR_EXC_STATE = 2 → ∃ u, Does .holdOffEnd s gating u ∧ u.get PWR_EXC_STATE = 0 ∧ u.pwr.target = 0 ∧
      ∀ c ∈ cutsOf u 0, c.duty = 0) ∧
    (s.get PWR_EXC_STATE ≠ 2 → exec .holdOffEnd s = .next s) ∧
    (∀ v, fits → (∀ e ∈ s.pwr.events, ∀ c ∈ e.cuts, gateable c.die = true) → ∃ u, Does (.pwrMgtDutyWrite v) s gating u ∧
      u.get PWR_MGT_DUTY_DUTY = PWR_MGT_DUTY_DUTY.of v ∧ u.get PWR_MGT_DUTY_DIES = PWR_MGT_DUTY_DIES.of v ∧
      ∀ d : Fin 40, gateable d = true →
        cut u 1 d = if (PWR_MGT_DUTY_DIES.of v).testBit d = true then min 256 (PWR_MGT_DUTY_DUTY.of v) else 0) ∧
    (∀ v : Word, (bitOf v.toNat 0 = true → s.flag PWR_STATUS_MAIN_EN = true → ∃ u, Does (.pwrCmdDown v) s mainParts u ∧ MainOff u) ∧
      (bitOf v.toNat 0 = false ∨ s.flag PWR_STATUS_MAIN_EN = false → exec (.pwrCmdDown v) s = .next s)) ∧
    (s.pwr.trip = false → exec .tripPowerOff s = .next s) ∧
    (s.pwr.trip = true → s.pwr.resetWait = false → ∃ u, Does .tripPowerOff s (mainParts ++ [.pwr]) u ∧ MainOff u ∧
      u.pwr = { s.pwr with trip := false, faultN := true })

/-! Resets and bring-up (20_power_clocks_reset R475 to R480; 19_security R453). -/

/-- RESET_N, STBY_POR_N and a loss of the standby rails take the part to reset but for what each leaves (R476, R479); a RESET_N during a
trip's black-box copy waits for it (R480); TRST_N resets the TAP alone. A lost PLL lock fences the part, or is retried once before
alignment (R475). Each phase of bring-up ends in the next, or stops with its code (R453, R477). -/
def Obligations.ResetsAndBringUp : Prop :=
  ∀ (s : State),
    let entered (c : Instr) := ∃ u, exec c s = .next u ∧ AsReset resetKeeps s u ∧ u.pwr.inReset = true ∧ u.pwr.unpowered = false
    let calm := s.Canon ∧ ∀ n : Fin 19, vlState s n ≠ vlUp
    (s.pwr.unpowered = true → exec .resetN s = .next s ∧ exec .pllLockLoss s = .next s) ∧
    (s.pwr.unpowered = false →
      (copyRunning s = true → ∃ u, Does .resetN s [.pwr] u ∧ u.pwr = { s.pwr with resetWait := true }) ∧
      (copyRunning s = false → entered .resetN ∧ (calm → ∃ u, exec .resetN s = .next u ∧
        (∀ a, keptByReset a = true → u.word a = s.word a) ∧ u.get MGT_BB_SEQ = s.get MGT_BB_SEQ))) ∧
    (s.pwr.resetWait = true → s.flag MGT_BB_FROZEN = true → copyRunning s = true → ∀ ok, entered (.bbCopyDone ok)) ∧
    (s.pwr.resetWait = true → s.pwr.trip = true → entered .tripPowerOff) ∧
    (s.pwr.inReset = true → ∃ u, Does .resetNRelease s [.regs, .pwr] u ∧ RegsBut [PWR_STATUS_PHASE.addr] s u ∧
      u.get PWR_STATUS_PHASE = 1 ∧ u.pwr = { s.pwr with inReset := false }) ∧
    (s.pwr.inReset = false → exec .resetNRelease s = .next s) ∧
    (∃ u, exec .stbyPorN s = .next u ∧ AsReset (fun a => a == PWR_STATUS_PHASE.addr) s u ∧ u.get PWR_STATUS_PHASE = 1 ∧ u.pwr = {}) ∧
    (∃ u, exec .standbyPowerLoss s = .next u ∧ AsReset (fun _ => false) s u ∧ u.pwr = { unpowered := true }) ∧
    (∃ u, Does .trstN s [.sec] u ∧ u.sec = { s.sec with debug := false }) ∧
    (s.pwr.unpowered = false → s.pwr.inReset = false →
      ∃ u, Does .pllLockLoss s (fenceParts ++ [.pwr]) u ∧ u.get CLK_PLL_RELOCKS = min (s.get CLK_PLL_RELOCKS + 1) (2 ^ 8 - 1) ∧
        (s.flag CLK_ALIGN_DONE = true → PartFenced s u ∧ u.get CLK_PLL_LOCKED = 0 ∧ u.get PWR_STATUS_CODE = cClkLock) ∧
        (s.flag CLK_ALIGN_DONE = false → s.pwr.pllTries = 0 → State.onlyIn [.regs, .pwr] s u ∧ RegsBut [CLK_PLL_RELOCKS.addr] s u ∧
          u.pwr = { s.pwr with pllTries := 1 } ∧ u.get CLK_PLL_LOCKED = s.get CLK_PLL_LOCKED) ∧
        (s.flag CLK_ALIGN_DONE = false → s.pwr.pllTries ≠ 0 → State.onlyIn [.regs, .coal] s u ∧ u.get CLK_PLL_LOCKED = 0 ∧
          u.get PWR_STATUS_CODE = cClkLock)) ∧
    (∀ e, ¬ MayEnd e s → exec (.bringUpPhase e) s = .next s) ∧
    (∀ e, MayEnd e s → ∃ u,
      Does (.bringUpPhase e) s [.free, .regs, .mem, .poison, .cores, .coal, .plots, .vt, .links, .silo, .model, .hbms, .sec, .cfg, .pci] u ∧
      match e with
      | .standby pll rom =>
        (pll = false → u.get PWR_STATUS_PHASE = 1 ∧ u.get PWR_STATUS_CODE = cClkLock) ∧
        (pll = true → u.get CLK_PLL_LOCKED = 1) ∧
        (pll = true → rom = false → u.get PWR_STATUS_PHASE = 1 ∧ u.get PWR_STATUS_CODE = cSecBootFail) ∧
        (pll = true → rom = true → u.sec.dik = some (Config.deriveKey Config.deviceSeed Config.romVer.toNat) ∧
          u.get SEC_STATE_KEYSTATE = (if s.get SEC_STATE_KEY_EPOCH = 64 then ksLockedOut else if s.sec.dmk.isSome = true then ksProvisioned
            else ksEmpty) ∧
          (flashImage s 0 = none → u.get PWR_STATUS_CODE = cImgFormat) ∧
          ((u.get PWR_STATUS_PHASE = 2 ∧ u.get PWR_STATUS_CODE = 0 ∧ u.get SEC_STATE_BOOT = 1 ∧ ∃ g, flashImage s 0 = some g ∧
              ihKind g = 0 ∧ u.cfg.boot = some g) ∨
            (u.get PWR_STATUS_PHASE = 1 ∧ u.cfg = s.cfg ∧ (u.get SEC_STATE_BOOT = 2 ∨ u.get SEC_STATE_BOOT = 3) ∧
              u.get SEC_IRQ_IMG_EVENT = 1)))
      | .firmware =>
        ((loadFw 3 7 s).1 = 0 → u.get PWR_STATUS_MAIN_EN = 1 ∧ u.get PWR_STATUS_PHASE = 3) ∧
        ((loadFw 3 7 s).1 ≠ 0 → u.get PWR_STATUS_MAIN_EN = s.get PWR_STATUS_MAIN_EN ∧ u.get PWR_STATUS_PHASE = 2 ∧
          u.get PWR_STATUS_CODE = (loadFw 3 7 s).1 % 2 ^ 16)
      | .mainTimeout => u.get PWR_STATUS_PHASE = 3 ∧ u.get PWR_STATUS_CODE = cPwrSeq ∧ u.get PWR_IRQ_SEQ = 1
      | .dies failed =>
        (failed = [] → (∀ a, a ≠ PWR_STATUS_PHASE.addr → a < coreBase 0 ∨ regSideband a = false → u.word a = s.word a) ∧
          ∀ p : Fin 144, s.dieFenced (dieOfCore p) = false → u.word (CORE_STATUS_STATE p).addr = regReset (CORE_STATUS_STATE p).addr) ∧
        (∀ l ∈ failed, (l.2.val < 4 → u.dieFenced (4 * l.1.val + l.2.val) = true) ∧
          (4 ≤ l.2.val → l.2.val ≤ 6 → u.partFenced = true)) ∧
        (u.partFenced = false → u.get PWR_STATUS_PHASE = 5 ∧ u.get PWR_STATUS_CODE = 0) ∧
        (u.partFenced = true → u.get PWR_STATUS_PHASE = 4 ∧ u.get PWR_STATUS_CODE = cPartFault)
      | .align fails cyc =>
        (fails.val < 3 → RegsBut [CLK_ALIGN_DONE.addr, ALM_COUNT_COUNT.addr, ALM_FRAC_FRAC.addr, PWR_STATUS_PHASE.addr] s u ∧
          u.get CLK_ALIGN_ATTEMPTS = fails.val + 1 ∧ u.get CLK_ALIGN_DONE = 1 ∧ u.get CLK_ALIGN_LOCK_CYC = cyc.toNat ∧
          u.get ALM_COUNT_COUNT = 0 ∧ u.get ALM_FRAC_FRAC = 0 ∧ u.get PWR_STATUS_PHASE = 6) ∧
        (fails.val = 3 → u.get CLK_ALIGN_ATTEMPTS = 3 ∧ u.get PWR_STATUS_PHASE = 5 ∧ u.get PWR_STATUS_CODE = cClkAlign)
      | .sections =>
        let v := applyBoot (s.cfg.boot.getD []) s
        u.sec.transport = true ∧ ((loadFw 1 5 v).1 = 0 → (loadFw 2 6 v).1 = 0 → u.get PWR_STATUS_PHASE = 7) ∧
        ((loadFw 1 5 v).1 ≠ 0 → u.get PWR_STATUS_CODE = (loadFw 1 5 v).1 % 2 ^ 16) ∧
        ((loadFw 1 5 v).1 = 0 → (loadFw 2 6 v).1 ≠ 0 → u.get PWR_STATUS_CODE = (loadFw 2 6 v).1 % 2 ^ 16)
      | .memory lost _ =>
        u.get PWR_STATUS_PHASE = 8 ∧ u.get PCI_STATUS_READY = 1 ∧ (∀ m ∈ lost, u.dieFenced (20 + m.val) = true) ∧
        (∀ m : Fin 8, m ∉ lost → u.get (HBM_STATUS_READY m) = 1) ∧
        u.get PWR_STATUS_DEGRADED = ofBool ((List.range 40).any (fun d => u.dieFenced d)))

/-! The management plane (21_management_plane R483 to R493; 19_security R455, R457). -/

/-- The bus takes its address by ENTDAA or ARP (R483); every request that fails its binding is counted and discarded, and one beyond 8 is
turned away (R483 to R485); MCTP control, SPDM and PLDM requests are answered (R455, R484, R488, R490, R491); events are sent in
order or held (R489), and a telemetry frame is published whole or counted as missed (R487). -/
def Obligations.ManagementBusAndRequests : Prop :=
  ∀ (s : State),
    let answers (c : Instr) (r : MgtRsp) := ∃ u, Does c s [.mgt] u ∧ u.mgt = { s.mgt with rsp := some r }
    (∀ a, (mgtUp s = true → s.mgt.bus ≠ 2 → ∃ u, Does (.entdaa a) s [.regs, .mgt] u ∧ RegsBut [MGT_BUS_MODE.addr] s u ∧
        u.get MGT_BUS_MODE = 1 ∧ u.get MGT_BUS_ADDR = a.toNat ∧ u.mgt = { s.mgt with bus := 1 }) ∧
      (mgtUp s = false ∨ s.mgt.bus = 2 → exec (.entdaa a) s = .next s) ∧
      (mgtUp s = true → s.mgt.bus = 0 → 2 ≤ s.get PWR_STATUS_PHASE → ∃ u, Does (.smbusFallback a) s [.regs, .mgt] u ∧
        RegsBut [MGT_BUS_MODE.addr] s u ∧ u.get MGT_BUS_MODE = 0 ∧ u.get MGT_BUS_ADDR = a.toNat ∧ u.mgt = { s.mgt with bus := 2 }) ∧
      (mgtUp s = false ∨ s.mgt.bus ≠ 0 → exec (.smbusFallback a) s = .next s)) ∧
    (∀ c q, requestOf c = some q ∨ (∃ cmd, renrelOf c = some (cmd, q)) → (mgtUp s = false → exec c s = .next s) ∧
      (mgtUp s = true → q.bus = false → ∃ u, Does c s [.regs, .coal] u ∧
        RegsButBox [MGT_BUS_ERRORS.addr, MGT_LAST_CODE.addr, MGT_IRQ_BUS_ERR.addr] s u ∧
        u.get MGT_BUS_ERRORS = min (s.get MGT_BUS_ERRORS + 1) (2 ^ 32 - 1) ∧ u.get MGT_LAST_CODE = cMgtBusErr ∧
        u.get MGT_IRQ_BUS_ERR = 1)) ∧
    (∀ c q, requestOf c = some q → mgtUp s = true → q.bus = true → 8 ≤ q.waiting → ∃ u, Does c s [.regs, .mgt] u ∧
      RegsBut [MGT_LAST_CODE.addr] s u ∧ u.get MGT_LAST_CODE = cMgtBusy ∧ u.mgt = { s.mgt with rsp := some .busy }) ∧
    (∀ q : MgtReq, mgtUp s = true → q.bus = true → q.waiting < 8 → q.good = false →
      (∀ r, answers (.mctpControl q r) (.mctp [3])) ∧ (∀ r, answers (.spdmRequest q r) (.spdm 0x7F (toBytes 1 1))) ∧
      (∀ i, answers (.pldmSensorRead q i) (.pldm 2 0)) ∧ ∀ f, answers (.pldmFwUpdate q f) (.pldm 2 0)) ∧
    (∀ q : MgtReq, Taken q s →
      let eid : Byte := BitVec.ofNat 8 (s.get MGT_BUS_EID)
      (∀ e : BitVec 8, (e = 0 ∨ e = 0xFF → answers (.mctpControl q (.setEid e)) (.mctp [2, 0, eid, 0])) ∧
        (e ≠ 0 → e ≠ 0xFF → ∃ u, Does (.mctpControl q (.setEid e)) s [.regs, .mgt] u ∧ RegsBut [MGT_BUS_EID.addr] s u ∧
          u.get MGT_BUS_EID = e.toNat ∧ u.mgt = { s.mgt with rsp := some (.mctp [0, 0, e, 0]) })) ∧
      answers (.mctpControl q .getEid) (.mctp [0, eid, 0, 0]) ∧
      answers (.mctpControl q .getTypes) (.mctp [0, 3, 1, 5, 0x7E]) ∧
      (∀ t : BitVec 8, (t = 0xFF ∨ t = 0 → answers (.mctpControl q (.getVersion t)) (.mctp [0, 1, 0xF1, 0xF3, 0xF0, 0])) ∧
        (t = 1 ∨ t = 5 ∨ t = 0x7E → ∃ u bs, Does (.mctpControl q (.getVersion t)) s [.free, .mgt] u ∧ bs.length = 4 ∧
          u.mgt = { s.mgt with rsp := some (.mctp ([0, 1] ++ bs)) }) ∧
        (t ∉ [0, 1, 5, 0x7E, 0xFF] → answers (.mctpControl q (.getVersion t)) (.mctp [0x80, 0]))) ∧
      (let refuses (r : SpdmReq) (code : Nat) := answers (.spdmRequest q r) (.spdm 0x7F (toBytes 1 code))
        let moves (r : SpdmReq) (kind : Nat) (bs : List Byte) (n : Nat) := ∃ u, Does (.spdmRequest q r) s [.mgt] u ∧
          u.mgt = { s.mgt with rsp := some (.spdm kind bs), spdm := n }
        let signs (r : SpdmReq) (kind : Nat) (body nonce : List Byte) := ∃ u, Does (.spdmRequest q r) s [.free, .mgt] u ∧
          (s.sec.dik = none → u.mgt.rsp = some (.spdm 0x7F (toBytes 1 5))) ∧
          ∀ k, s.sec.dik = some k → ∃ n : Nat, let full := body ++ toBytes 32 n
            u.mgt.rsp = some (.spdm kind (full ++ Config.ecdsaSign k (Config.sha384 (full ++ nonce))))
        let chainHash := toBytes 48 (Config.sha384 Config.certChain).toNat
        refuses .unsupported 7 ∧ moves .getVersion 0x04 [0, 0x13] 1 ∧
        (s.mgt.spdm = 0 → refuses .getCapabilities 4) ∧ (s.mgt.spdm ≠ 0 → moves .getCapabilities 0x61 [] 2) ∧
        (s.mgt.spdm < 2 → refuses .negotiateAlgorithms 4) ∧ (2 ≤ s.mgt.spdm → moves .negotiateAlgorithms 0x63 [] 3) ∧
        (s.mgt.spdm < 3 → refuses .getDigests 4 ∧ (∀ i off len, refuses (.getCertificate i off len) 4) ∧
          (∀ i nonce, refuses (.challenge i nonce) 4) ∧ ∀ i sign nonce, refuses (.getMeasurements i sign nonce) 4) ∧
        (3 ≤ s.mgt.spdm → answers (.spdmRequest q .getDigests) (.spdm 0x01 chainHash) ∧
          (∀ i off len, (i ≠ 0 ∨ Config.certChain.length ≤ off.toNat → refuses (.getCertificate i off len) 1) ∧
            (i = 0 → off.toNat < Config.certChain.length →
              answers (.spdmRequest q (.getCertificate i off len)) (.spdm 0x02 ((Config.certChain.drop off.toNat).take len.toNat)))) ∧
          (∀ i nonce, (i ≠ 0 → refuses (.challenge i nonce) 1) ∧ (i = 0 → signs (.challenge i nonce) 0x03 chainHash nonce)) ∧
          ∀ (i : BitVec 8) nonce, (10 < i.toNat → i.toNat ≠ 255 → ∀ sign, refuses (.getMeasurements i sign nonce) 1) ∧
            (1 ≤ i.toNat → i.toNat ≤ 10 →
              answers (.spdmRequest q (.getMeasurements i false nonce)) (.spdm 0x60 (measBlock s i.toNat)) ∧
              signs (.getMeasurements i true nonce) 0x60 (measBlock s i.toNat) nonce) ∧
            (i.toNat = 0 → answers (.spdmRequest q (.getMeasurements i false nonce)) (.spdm 0x60 [10])))) ∧
      (∀ i : BitVec 16, (∀ v, sensorValue s i.toNat = some v → answers (.pldmSensorRead q i) (.pldm 0 v)) ∧
        (sensorValue s i.toNat = none → answers (.pldmSensorRead q i) (.pldm 0x80 0))) ∧
      (let st := s.get MGT_FWUP_STATE
        let step (f : FwStep) (ps : List Part) (P : State → Prop) := ∃ u, Does (.pldmFwUpdate q f) s ps u ∧ P u
        let failed (code : Nat) (u : State) := u.mgt.rsp = some (.pldm 1 0) ∧ u.get MGT_FWUP_STATE = fuIdle ∧
          u.get MGT_FWUP_CODE = code ∧ u.mgt.comps = [] ∧ u.get MGT_IRQ_FWUP = 1
        (st = fuIdle → step .start [.regs, .mgt] (fun u => u.get MGT_FWUP_STATE = fuLearn ∧ u.mgt.comps = [] ∧
          u.mgt.rsp = some (.pldm 0 0) ∧ RegsBut [MGT_FWUP_STATE.addr] s u)) ∧
        (st ≠ fuIdle → answers (.pldmFwUpdate q .start) (.pldm 0x81 0)) ∧
        (∀ (c : BitVec 5) bs, let n := c.toNat
          let clash := (n = 1 ∧ compOf s 5 ≠ none) ∨ (n = 5 ∧ compOf s 1 ≠ none)
          let may := (st = fuLearn ∨ st = fuDownload) ∧ 1 ≤ n ∧ n ≤ 5 ∧ ¬ clash
          (may → step (.download c bs) [.regs, .mgt] (fun u => u.get MGT_FWUP_STATE = fuDownload ∧ compOf u n = some bs ∧
            (∀ m, m ≠ n → compOf u m = compOf s m) ∧ u.mgt.rsp = some (.pldm 0 0))) ∧
          (¬ may → answers (.pldmFwUpdate q (.download c bs)) (.pldm 1 0))) ∧
        (st = fuDownload → s.mgt.comps.all (fun x => compOk s x.1 x.2) = true → step .verify [.regs, .mgt] (fun u =>
          u.get MGT_FWUP_STATE = fuVerify ∧ u.mgt.passed = true ∧ u.mgt.comps = s.mgt.comps ∧ u.mgt.rsp = some (.pldm 0 0))) ∧
        (st = fuDownload → s.mgt.comps.all (fun x => compOk s x.1 x.2) = false → step .verify [.regs, .mgt] (failed cFwupVerify)) ∧
        (st ≠ fuDownload → answers (.pldmFwUpdate q .verify) (.pldm 1 0)) ∧
        (∀ todo, (st = fuVerify ∧ s.mgt.passed = true ∧ todo = applyOrder s) ∨ (st = fuApply ∧ todo = s.mgt.todo) →
          (todo = [] → ∀ ok, step (.apply ok) [.regs, .mgt] (fun u => u.get MGT_FWUP_STATE = fuAwait)) ∧
          ∀ c rest off bs, todo = c :: rest → compOff s c = some off → compOf s c = some bs →
            step (.apply true) [.regs, .cfg, .mgt] (fun u => (∀ i, (h : i < bs.length) → Tab.get (fun _ => 0) u.cfg.flash (off + i) = bs[i]) ∧
              u.mgt.todo = rest ∧ u.mgt.rsp = some (.pldm 0 0) ∧
              (rest = [] → u.get MGT_FWUP_STATE = fuAwait ∧ u.get MGT_IRQ_FWUP = 1) ∧ (rest ≠ [] → u.get MGT_FWUP_STATE = fuApply)) ∧
            step (.apply false) [.free, .regs, .cfg, .mgt] (failed cFwupFlash)) ∧
        (st ≠ fuApply → st ≠ fuVerify ∨ s.mgt.passed = false → ∀ ok, answers (.pldmFwUpdate q (.apply ok)) (.pldm 1 0)) ∧
        step .cancel [.free, .regs, .cfg, .mgt] (fun u => u.get MGT_FWUP_STATE = fuIdle ∧ u.mgt.comps = [] ∧ u.mgt.todo = [] ∧
          u.mgt.rsp = some (.pldm 0 0) ∧ (st ≠ fuApply → u.cfg = s.cfg)))) ∧
    (∀ e delivered,
      (mgtUp s = false ∨ eventDue s e = false → exec (.platformEvent e delivered) s = .next s) ∧
      (mgtUp s = true → eventDue s e = true →
        (∃ u, Does (.platformEvent e true) s [.mgt] u ∧
          u.mgt = { s.mgt with sent := eventMessages s.mgt.lost (s.mgt.held ++ [e]), held := [], lost := 0 }) ∧
        (s.mgt.held.length < 64 → ∃ u, Does (.platformEvent e false) s [.mgt] u ∧ u.mgt = { s.mgt with held := s.mgt.held ++ [e] }) ∧
        (64 ≤ s.mgt.held.length → ∃ u, Does (.platformEvent e false) s [.regs, .mgt] u ∧ RegsBut [MGT_IRQ_EVT_DROP.addr] s u ∧
          u.get MGT_IRQ_EVT_DROP = 1 ∧ u.mgt = { s.mgt with held := s.mgt.held.drop 1 ++ [e], lost := s.mgt.lost + 1 }))) ∧
    (mgtUp s = false ∨ s.get PWR_STATUS_PHASE < 2 → ∀ skipped, exec (.telemetryFrame skipped) s = .next s) ∧
    (mgtUp s = true → 2 ≤ s.get PWR_STATUS_PHASE →
      (∃ u, Does (.telemetryFrame true) s [.regs] u ∧ RegsBut [MGT_TELEM_MISSED.addr] s u ∧
        u.get MGT_TELEM_MISSED = min (s.get MGT_TELEM_MISSED + 1) (2 ^ 32 - 1) ∧ u.get MGT_TELEM_SEQ = s.get MGT_TELEM_SEQ) ∧
      ∃ u, Does (.telemetryFrame false) s [.regs] u ∧ let q := (s.get MGT_TELEM_SEQ + 1) % 2 ^ 32;
        u.get MGT_TELEM_SEQ = q ∧ u.get MGT_TELEM_MISSED = s.get MGT_TELEM_MISSED ∧
        (∀ w : Fin 128, u.get (MGT_TF_WORD w) = tfWord s q w % 2 ^ 64) ∧
        ∀ a, a ≠ MGT_TELEM_SEQ.addr → (∀ w : Fin 128, a ≠ (MGT_TF_WORD w).addr) → u.word a = s.word a)

/-- Every Renrel command that the port cannot take, or that is malformed or in a state its row does not list, is refused with its code
and changes nothing else; the rest read, write, push images, provision, reset and power down as R486 and R457 say. -/
def Obligations.RenrelCommandsAreAnswered : Prop :=
  ∀ (s : State),
    let phase := s.get PWR_STATUS_PHASE
    (∀ c cmd q, renrelOf c = some (cmd, q) → mgtUp s = true → q.bus = true →
      (8 ≤ q.waiting → RenrelRefuses c cmd q cMgtBusy s) ∧ (q.waiting < 8 → q.good = false → RenrelRefuses c cmd q cMgtCmdBad s)) ∧
    ∀ q : MgtReq, Taken q s →
      RenrelReads (.getId q) 0x01 q (regsPayload s [mgtBase, secBase, pciBase]) s ∧
      RenrelReads (.getStatus q) 0x02 q
        (regsPayload s [pwrBase, SEC_STATE_BOOT.addr, MGT_CFG_STAT_CODE.addr, ALM_STATE_STATE.addr, MGT_FWUP_STATE.addr]) s ∧
      (∀ (a : Word) (n : BitVec 16),
        (1 ≤ n.toNat → n.toNat ≤ 126 → RenrelReads (.readReg q a n) 0x03 q
          (regsPayload s ((List.range n.toNat).map (fun i => a.toNat + 8 * i))) s) ∧
        (n.toNat = 0 ∨ 126 < n.toNat → RenrelRefuses (.readReg q a n) 0x03 q cMgtCmdBad s)) ∧
      (∀ a v : Word, (phase < 2 → RenrelRefuses (.writeReg q a v) 0x04 q cMgtDenied s) ∧
        (2 ≤ phase → ∃ u, exec (.writeReg q a v) s = .next u ∧ u.pending = s.pending ∧
          u.mgt.rsp = some (.renrel 0x04 q.rseq.toNat (regWrite a.toNat v s).1 []) ∧
          (∀ x, x ≠ MGT_CMD_CNT_DONE.addr → u.word x = (regWrite a.toNat v s).2.word x) ∧
          ∀ x, u.byte x = (regWrite a.toNat v s).2.byte x)) ∧
      (phase < 2 → RenrelRefuses (.telemRead q) 0x05 q cMgtDenied s) ∧
      (2 ≤ phase → RenrelReads (.telemRead q) 0x05 q (regsPayload s ((List.range 127).map (fun i => (MGT_TF_WORD i).addr))) s) ∧
      (∀ (seq : BitVec 32) (n : BitVec 8),
        (1 ≤ n.toNat → n.toNat ≤ 30 → RenrelReads (.bbRead q seq n) 0x10 q
          ((((List.range n.toNat).map (fun i => seq.toNat + i)).filter (bbHolds s)).flatMap (fun x =>
            (List.range 4).flatMap (fun w => toBytes 8 (s.word (bbEntry ((x - 1) % 4096) + 8 * w)).toNat))) s) ∧
        (n.toNat = 0 ∨ 30 < n.toNat → RenrelRefuses (.bbRead q seq n) 0x10 q cMgtCmdBad s)) ∧
      (∀ (slot : BitVec 8) (first : BitVec 32) (n : BitVec 8),
        let bs := Tab.get (fun _ => []) s.silo.copies slot.toNat
        let good := slot.toNat < 8 ∧ 1 ≤ n.toNat ∧ n.toNat ≤ 30
        let whole := slotOk bs = true ∧ (s.dieFenced 36 = false ∨ s.dieFenced 37 = false)
        let c := Instr.bbSlotRead q slot first n
        (¬ good → RenrelRefuses c 0x11 q cMgtCmdBad s) ∧ (good → phase < 7 → RenrelRefuses c 0x11 q cMgtDenied s) ∧
        (good → 7 ≤ phase → whole → RenrelReads c 0x11 q (bs.take 64 ++ (bs.drop (64 + 32 * first.toNat)).take (32 * n.toNat)) s) ∧
        (good → 7 ≤ phase → ¬ whole → ∃ u, Does c s [.regs, .mgt] u ∧ RegsBut [MGT_CMD_CNT_DONE.addr] s u ∧
          RenrelAnswered 0x11 q cBbCopyFail [] s u)) ∧
      (∃ u, Does (.bbUnfreeze q) s [.regs, .mgt] u ∧ RegsBut [MGT_BB_FROZEN.addr, MGT_CMD_CNT_DONE.addr] s u ∧
        RenrelAnswered 0x12 q 0 [] s u ∧
        (s.flag MGT_BB_COPIED = true ∨ s.flag MGT_BB_COPY_FAIL = true → u.get MGT_BB_FROZEN = 0 ∧ u.get MGT_BB_LOST = 0)) ∧
      (∀ (kind : BitVec 8) (size : BitVec 32), let c := Instr.imgBegin q kind size
        (1 < kind.toNat → RenrelRefuses c 0x20 q cMgtCmdBad s) ∧
        (kind.toNat ≤ 1 → imgOpenOk s kind.toNat = false → RenrelRefuses c 0x20 q cMgtDenied s) ∧
        (kind.toNat ≤ 1 → imgOpenOk s kind.toNat = true → ∃ u b, Does c s [.free, .regs, .mgt] u ∧ RegsBut [MGT_CMD_CNT_DONE.addr] s u ∧
          RenrelAnswered 0x20 q 0 [] s u ∧ u.mgt.buf = some b ∧ b.kind = kind.toNat ∧ b.size = size.toNat ∧ b.bytes = [])) ∧
      (∀ (off : BitVec 32) (bs : List Byte), let c := Instr.imgData q off bs
        (1008 < bs.length → RenrelRefuses c 0x21 q cMgtCmdBad s) ∧
        (bs.length ≤ 1008 → s.mgt.buf = none → RenrelRefuses c 0x21 q cMgtDenied s) ∧
        ∀ b, s.mgt.buf = some b → (b.size < off.toNat + bs.length → RenrelRefuses c 0x21 q cMgtCmdBad s) ∧
          (bs.length ≤ 1008 → off.toNat + bs.length ≤ b.size → ∃ u b', Does c s [.regs, .mgt] u ∧ RegsBut [MGT_CMD_CNT_DONE.addr] s u ∧
            RenrelAnswered 0x21 q 0 [] s u ∧ u.mgt.buf = some b' ∧ b'.kind = b.kind ∧ b'.size = b.size ∧ b'.fill = b.fill ∧
            (∀ i, (h : i < bs.length) → Tab.get (Config.freeMem b.fill) b'.bytes (off.toNat + i) = bs[i]) ∧
            ∀ j, j < off.toNat ∨ off.toNat + bs.length ≤ j →
              Tab.get (Config.freeMem b.fill) b'.bytes j = Tab.get (Config.freeMem b.fill) b.bytes j)) ∧
      (s.mgt.buf = none → RenrelRefuses (.imgEnd q) 0x22 q cMgtDenied s) ∧
      (∀ b, s.mgt.buf = some b →
        let g := (List.range b.size).map (fun i => Tab.get (Config.freeMem b.fill) b.bytes i)
        let res := if b.kind = 0 then bootCheck s g else if structHdrOk g && ihKind g == 0 then some (cImgFormat, 0, 1) else imgCheck s g
        let status := (res.getD (0, 0, 0)).1
        ∃ u, Does (.imgEnd q) s [.regs, .sec, .cfg, .mgt] u ∧ u.mgt.buf = none ∧ RenrelAnswered 0x22 q status [] s u ∧
          u.get MGT_CFG_STAT_CODE = status % 2 ^ 16 ∧ u.get MGT_IRQ_CFG = 1 ∧
          (b.kind = 0 → res = none → imgOpenOk s 0 = true → u.cfg.boot = some g ∧ u.get PWR_STATUS_PHASE = 2 ∧ u.get SEC_STATE_BOOT = 1) ∧
          (b.kind = 0 → res ≠ none → u.cfg = s.cfg ∧ u.get SEC_IRQ_IMG_EVENT = 1) ∧
          (b.kind ≠ 0 → s.cfg.staged = none → s.get ALM_MODE_PSTATE ≠ 2 →
            (res = none → u.cfg = { s.cfg with amend := some g, shown := some true }) ∧
            (res ≠ none → u.cfg = { s.cfg with shown := some false }))) ∧
      (phase < 2 → RenrelRefuses (.getNonce q) 0x30 q cMgtDenied s) ∧
      (2 ≤ phase → ∃ u, Does (.getNonce q) s [.free, .regs, .sec, .mgt] u ∧ RegsBut [MGT_CMD_CNT_DONE.addr] s u ∧
        (s.get SEC_STATE_KEYSTATE = ksLockedOut → RenrelAnswered 0x30 q cSecEpochExh [] s u ∧ u.sec = s.sec) ∧
        (s.get SEC_STATE_KEYSTATE ≠ ksLockedOut → ∃ n, RenrelAnswered 0x30 q 0 (toBytes 32 n) s u ∧
          u.sec = { s.sec with nonce := some n })) ∧
      (∀ sig, let st := s.get SEC_STATE_KEYSTATE
        let bad (c : Instr) (cmd code : Nat) (nonce : Option Nat) := ∃ u, Does c s [.regs, .sec, .mgt] u ∧
          RegsBut [MGT_CMD_CNT_DONE.addr] s u ∧ RenrelAnswered cmd q code [] s u ∧ u.sec = { s.sec with nonce := nonce }
        (sig.length ≠ 96 → RenrelRefuses (.provision q sig) 0x31 q cMgtCmdBad s ∧ RenrelRefuses (.deprovision q sig) 0x32 q cMgtCmdBad s) ∧
        (sig.length = 96 →
          (phase < 2 → RenrelRefuses (.provision q sig) 0x31 q cMgtDenied s ∧ RenrelRefuses (.deprovision q sig) 0x32 q cMgtDenied s) ∧
          (2 ≤ phase → st = ksLockedOut → bad (.provision q sig) 0x31 cSecEpochExh s.sec.nonce ∧
            bad (.deprovision q sig) 0x32 cSecEpochExh s.sec.nonce) ∧
          (2 ≤ phase → st ≠ ksLockedOut → ownerSigned s sig = false → bad (.provision q sig) 0x31 cSecAuth none ∧
            bad (.deprovision q sig) 0x32 cSecAuth none) ∧
          (2 ≤ phase → st ≠ ksLockedOut → ownerSigned s sig = true →
            (st ≠ ksEmpty → bad (.provision q sig) 0x31 cSecProvState none) ∧
            (st = ksEmpty → ∃ u k, Does (.provision q sig) s [.free, .regs, .sec, .mgt] u ∧ u.sec.dmk = some k ∧ u.sec.nonce = none ∧
              u.get SEC_STATE_KEYSTATE = ksProvisioned ∧ u.get SEC_IRQ_PROV = 1 ∧
              RenrelAnswered 0x31 q 0 (Config.publicKey k) s u) ∧
            ∃ u, Does (.deprovision q sig) s [.regs, .model, .sec, .mgt] u ∧ RenrelAnswered 0x32 q 0 [] s u ∧ u.sec.dmk = none ∧
              u.sec.dik = none ∧ u.model.key = none ∧ u.sec.nonce = none ∧ u.get SEC_IRQ_PROV = 1 ∧
              u.get SEC_STATE_KEY_EPOCH = min 64 (s.get SEC_STATE_KEY_EPOCH + 1) ∧
              u.get SEC_STATE_KEYSTATE = if 63 ≤ s.get SEC_STATE_KEY_EPOCH then ksLockedOut else ksEmpty))) ∧
      (copyRunning s = true → ∃ u, Does (.reset q) s [.regs, .pwr, .mgt] u ∧ RenrelAnswered 0x40 q 0 [] s u ∧
        u.pwr = { s.pwr with resetWait := true }) ∧
      (copyRunning s = false → ∃ u, exec (.reset q) s = .next u ∧ AsReset resetKeeps s u ∧ u.pwr.inReset = true ∧
        u.mgt.rsp = some (.renrel 0x40 q.rseq.toNat 0 [])) ∧
      (phase ≠ 8 → RenrelRefuses (.powerDown q) 0x41 q cMgtDenied s) ∧
      (phase = 8 → s.flag PWR_STATUS_MAIN_EN = true → ∃ u, Does (.powerDown q) s (mainParts ++ [.mgt]) u ∧ MainOff u ∧
        RenrelAnswered 0x41 q 0 [] s u)

/-! The idle step: the model's own choice (log entry 2). -/

/-- On an empty queue a step is one field cycle: the almanac count runs from alignment on (R373, R380), a core's cycle is gated, or, while
its list runs, waits, lacks a command or is active (R84, R90), a gated die counts it (R470, R482), and the accesses of HBM complete (R299).
That time passes only here is the model's choice (log entry 2). -/
def Obligations.IdleStepIsOneFieldCycle : Prop :=
  ∀ s : State, s.pending = [] → ∃ u, step s = .next u ∧
    State.onlyIn [.fc, .free, .regs, .mem, .poison, .cores, .hbms, .serv, .pwr] s u ∧ u.fc = s.fc + 1 ∧
    (let clocked := s.flag CLK_ALIGN_DONE = true ∧ s.flag CLK_PLL_LOCKED = true;
      (clocked → u.get ALM_COUNT_COUNT * 2 ^ 32 + u.get ALM_FRAC_FRAC =
        (s.get ALM_COUNT_COUNT * 2 ^ 32 + s.get ALM_FRAC_FRAC + 4 * s.get ALM_RATE_RATE) % 2 ^ 96) ∧
      (¬ clocked → u.get ALM_COUNT_COUNT = s.get ALM_COUNT_COUNT ∧ u.get ALM_FRAC_FRAC = s.get ALM_FRAC_FRAC)) ∧
    (s.dataUp = false → State.onlyIn [.fc, .regs] s u ∧ RegsBut [ALM_COUNT_COUNT.addr, ALM_FRAC_FRAC.addr] s u) ∧
    (s.dataUp = true →
      (∀ d : Fin 40, gateable d = true →
        u.get (CLK_DIE_GATED_COUNT d) = (s.get (CLK_DIE_GATED_COUNT d) + gatedNow s d) % 2 ^ 64) ∧
      (s.serv.cold = [] → ∀ m : Fin 8, (u.hbm m).flight = []) ∧
      (∀ p : Fin 144, let st := s.get (CORE_STATUS_STATE p)
        let waits := (s.core p).inflight.any (fun r => cOp r.words == opWait)
        let short := listStall p s
        let up (f : Fld) := u.get f = (s.get f + 1) % 2 ^ 64
        (u.core p).inflight.length = (s.core p).inflight.length ∧ u.get (CORE_STATUS_STATE p) = st ∧
        (st ≠ stFenced → gatedNow s (dieOfCore p) ≠ 0 → up (CORE_STALL_THR_COUNT p)) ∧
        (st = stRunning → gatedNow s (dieOfCore p) = 0 → (waits = true → up (CORE_STALL_WAIT_COUNT p)) ∧
          (short = true → up (CORE_STALL_LIST_COUNT p)) ∧ (waits = false → short = false → up (CORE_CYC_ACTIVE_COUNT p)))))
end

