-- ==== Sys2Proof/Laws/Tab.lean ====
section
/-!
SUPPORT. Sparse tables: what reading gives after a write, and that writing, erasing and filtering keep the canonical form.
-/
namespace Sys2Proof.Machine

variable {α : Type}

theorem Tab.get_erase_ne (d : Nat → α) {j k : Nat} (h : j ≠ k) (t : Tab α) :
    Tab.get d (Tab.erase k t) j = Tab.get d t j := by
  induction t with
  | nil => rfl
  | cons p t ih =>
    obtain ⟨a, v⟩ := p
    by_cases e : a = k
    · subst e
      have hne : Tab.erase a ((a, v) :: t) = Tab.erase a t := by simp [Tab.erase]
      rw [hne, ih]; simp [Tab.get, h]
    · have hne : Tab.erase k ((a, v) :: t) = (a, v) :: Tab.erase k t := by simp [Tab.erase, e]
      rw [hne]; simp only [Tab.get, ih]

theorem Tab.get_erase_self (d : Nat → α) (k : Nat) (t : Tab α) : Tab.get d (Tab.erase k t) k = d k := by
  induction t with
  | nil => rfl
  | cons p t ih =>
    obtain ⟨a, v⟩ := p
    by_cases e : a = k
    · have hne : Tab.erase k ((a, v) :: t) = Tab.erase k t := by simp [Tab.erase, e]
      rw [hne, ih]
    · have hne : Tab.erase k ((a, v) :: t) = (a, v) :: Tab.erase k t := by simp [Tab.erase, e]
      rw [hne]; simp only [Tab.get]; rw [if_neg (fun h => e h.symm), ih]

theorem Tab.get_insert_ne (d : Nat → α) {j k : Nat} (h : j ≠ k) (v : α) (t : Tab α) :
    Tab.get d (Tab.insert k v t) j = Tab.get d t j := by
  induction t with
  | nil => simp [Tab.insert, Tab.get, h]
  | cons p t ih =>
    obtain ⟨a, w⟩ := p
    by_cases e : k < a
    · simp [Tab.insert, e, Tab.get, h]
    · simp only [Tab.insert, e, if_false, Tab.get, ih]

theorem Tab.get_insert_self (d : Nat → α) (k : Nat) (v : α) (t : Tab α) (h : ∀ p ∈ t, p.1 ≠ k) :
    Tab.get d (Tab.insert k v t) k = v := by
  induction t with
  | nil => simp [Tab.insert, Tab.get]
  | cons p t ih =>
    obtain ⟨a, w⟩ := p
    have hk : k ≠ a := fun e => h (a, w) (List.mem_cons_self ..) e.symm
    by_cases e : k < a
    · simp [Tab.insert, e, Tab.get]
    · simp only [Tab.insert, e, if_false, Tab.get, if_neg hk]
      exact ih (fun q hq => h q (List.mem_cons_of_mem _ hq))

theorem Tab.mem_erase_ne {k : Nat} {t : Tab α} {p : Nat × α} (h : p ∈ Tab.erase k t) : p.1 ≠ k := by
  simp [Tab.erase] at h; exact h.2

/-- A read after a write gives the value written at its key and what stood before at every other. -/
theorem Tab.get_set [DecidableEq α] (d : Nat → α) (t : Tab α) (k : Nat) (v : α) (j : Nat) :
    Tab.get d (Tab.set d t k v) j = if j = k then v else Tab.get d t j := by
  unfold Tab.set
  by_cases hv : v = d k
  · rw [if_pos hv]
    by_cases hj : j = k
    · subst hj; rw [Tab.get_erase_self, if_pos rfl, hv]
    · rw [Tab.get_erase_ne d hj, if_neg hj]
  · rw [if_neg hv]
    by_cases hj : j = k
    · subst hj; rw [Tab.get_insert_self _ _ _ _ (fun _ h => Tab.mem_erase_ne h), if_pos rfl]
    · rw [Tab.get_insert_ne d hj, Tab.get_erase_ne d hj, if_neg hj]

theorem Tab.rising_mono {lo lo' : Nat} (h : lo' ≤ lo) : ∀ {t : Tab α}, Tab.rising lo t = true → Tab.rising lo' t = true
  | [], _ => rfl
  | (k, v) :: t, hr => by
    simp only [Tab.rising, Bool.and_eq_true, decide_eq_true_eq] at hr ⊢
    exact ⟨Nat.le_trans h hr.1, hr.2⟩

theorem Tab.rising_filter (f : Nat × α → Bool) : ∀ {lo : Nat} {t : Tab α}, Tab.rising lo t = true → Tab.rising lo (t.filter f) = true
  | _, [], _ => rfl
  | lo, (k, v) :: t, hr => by
    simp only [Tab.rising, Bool.and_eq_true, decide_eq_true_eq] at hr
    have ih := Tab.rising_filter f hr.2
    by_cases e : f (k, v) = true
    · simp only [List.filter_cons_of_pos e, Tab.rising, Bool.and_eq_true, decide_eq_true_eq]; exact ⟨hr.1, ih⟩
    · rw [List.filter_cons_of_neg e]; exact Tab.rising_mono (by omega) ih

theorem Tab.rising_insert (k : Nat) (v : α) : ∀ {lo : Nat} {t : Tab α}, Tab.rising lo t = true → lo ≤ k →
    (∀ p ∈ t, p.1 ≠ k) → Tab.rising lo (Tab.insert k v t) = true
  | lo, [], _, hl, _ => by simp [Tab.insert, Tab.rising, hl]
  | lo, (a, w) :: t, hr, hl, hn => by
    simp only [Tab.rising, Bool.and_eq_true, decide_eq_true_eq] at hr
    have ha : a ≠ k := hn (a, w) (List.mem_cons_self ..)
    by_cases e : k < a
    · simp only [Tab.insert, e, if_true, Tab.rising, Bool.and_eq_true, decide_eq_true_eq]
      exact ⟨hl, by omega, hr.2⟩
    · simp only [Tab.insert, e, if_false, Tab.rising, Bool.and_eq_true, decide_eq_true_eq]
      exact ⟨hr.1, Tab.rising_insert k v hr.2 (by omega) (fun p hp => hn p (List.mem_cons_of_mem _ hp))⟩

theorem Tab.mem_insert {k : Nat} {v : α} {t : Tab α} {p : Nat × α} (h : p ∈ Tab.insert k v t) : p = (k, v) ∨ p ∈ t := by
  induction t with
  | nil => simpa [Tab.insert] using h
  | cons q t ih =>
    obtain ⟨a, w⟩ := q
    by_cases e : k < a
    · simpa [Tab.insert, e] using h
    · simp only [Tab.insert, e, if_false, List.mem_cons] at h ⊢
      rcases h with h | h
      · exact .inr (.inl h)
      · rcases ih h with h | h
        · exact .inl h
        · exact .inr (.inr h)

variable [DecidableEq α]

theorem Tab.wf_iff (d : Nat → α) (t : Tab α) :
    Tab.wf d t = true ↔ Tab.rising 0 t = true ∧ ∀ p ∈ t, p.2 ≠ d p.1 := by
  simp [Tab.wf]

theorem Tab.wf_nil (d : Nat → α) : Tab.wf d [] = true := rfl

/-- Dropping entries keeps the canonical form. -/
theorem Tab.wf_filter (d : Nat → α) (f : Nat × α → Bool) {t : Tab α} (h : Tab.wf d t = true) : Tab.wf d (t.filter f) = true := by
  rw [Tab.wf_iff] at h ⊢
  exact ⟨Tab.rising_filter f h.1, fun p hp => h.2 p (List.mem_filter.1 hp).1⟩

/-- Writing a key keeps the canonical form. -/
theorem Tab.wf_set (d : Nat → α) {t : Tab α} (h : Tab.wf d t = true) (k : Nat) (v : α) : Tab.wf d (Tab.set d t k v) = true := by
  unfold Tab.set
  by_cases hv : v = d k
  · rw [if_pos hv]; exact Tab.wf_filter d _ h
  · rw [if_neg hv]
    have he := Tab.wf_filter d (fun p => p.1 != k) h
    rw [Tab.wf_iff] at he ⊢
    refine ⟨Tab.rising_insert k v he.1 (Nat.zero_le _) (fun p hp => Tab.mem_erase_ne hp), fun p hp => ?_⟩
    rcases Tab.mem_insert hp with e | e
    · subst e; exact hv
    · exact he.2 p e

/-- The canonical form depends on the default only at the keys listed. -/
theorem Tab.wf_congr {d e : Nat → α} {t : Tab α} (h : ∀ p ∈ t, d p.1 = e p.1) (hw : Tab.wf d t = true) : Tab.wf e t = true := by
  rw [Tab.wf_iff] at hw ⊢
  exact ⟨hw.1, fun p hp => by rw [← h p hp]; exact hw.2 p hp⟩

end Sys2Proof.Machine
end

