-- ==== Sys2Proof/Laws/State.lean ====
section
/-!
SUPPORT. What reading a field of State gives after each named update: one lemma for each field and update.
-/
namespace Sys2Proof.Machine

/-! `setWord` leaves every other field alone. -/

@[simp] theorem State.setWord_pending (s : State) (a : Nat) (v : Word) : (s.setWord a v).pending = s.pending := rfl
@[simp] theorem State.setWord_fc (s : State) (a : Nat) (v : Word) : (s.setWord a v).fc = s.fc := rfl
@[simp] theorem State.setWord_free (s : State) (a : Nat) (v : Word) : (s.setWord a v).free = s.free := rfl
@[simp] theorem State.setWord_mem (s : State) (a : Nat) (v : Word) : (s.setWord a v).mem = s.mem := rfl
@[simp] theorem State.setWord_fills (s : State) (a : Nat) (v : Word) : (s.setWord a v).fills = s.fills := rfl
@[simp] theorem State.setWord_poison (s : State) (a : Nat) (v : Word) : (s.setWord a v).poison = s.poison := rfl
@[simp] theorem State.setWord_accs (s : State) (a : Nat) (v : Word) : (s.setWord a v).accs = s.accs := rfl
@[simp] theorem State.setWord_cores (s : State) (a : Nat) (v : Word) : (s.setWord a v).cores = s.cores := rfl
@[simp] theorem State.setWord_coal (s : State) (a : Nat) (v : Word) : (s.setWord a v).coal = s.coal := rfl
@[simp] theorem State.setWord_plots (s : State) (a : Nat) (v : Word) : (s.setWord a v).plots = s.plots := rfl
@[simp] theorem State.setWord_subst (s : State) (a : Nat) (v : Word) : (s.setWord a v).subst = s.subst := rfl
@[simp] theorem State.setWord_vt (s : State) (a : Nat) (v : Word) : (s.setWord a v).vt = s.vt := rfl
@[simp] theorem State.setWord_links (s : State) (a : Nat) (v : Word) : (s.setWord a v).links = s.links := rfl
@[simp] theorem State.setWord_wins (s : State) (a : Nat) (v : Word) : (s.setWord a v).wins = s.wins := rfl
@[simp] theorem State.setWord_thrs (s : State) (a : Nat) (v : Word) : (s.setWord a v).thrs = s.thrs := rfl
@[simp] theorem State.setWord_sows (s : State) (a : Nat) (v : Word) : (s.setWord a v).sows = s.sows := rfl
@[simp] theorem State.setWord_glns (s : State) (a : Nat) (v : Word) : (s.setWord a v).glns = s.glns := rfl
@[simp] theorem State.setWord_col (s : State) (a : Nat) (v : Word) : (s.setWord a v).col = s.col := rfl
@[simp] theorem State.setWord_tiers (s : State) (a : Nat) (v : Word) : (s.setWord a v).tiers = s.tiers := rfl
@[simp] theorem State.setWord_silo (s : State) (a : Nat) (v : Word) : (s.setWord a v).silo = s.silo := rfl
@[simp] theorem State.setWord_model (s : State) (a : Nat) (v : Word) : (s.setWord a v).model = s.model := rfl
@[simp] theorem State.setWord_hbms (s : State) (a : Nat) (v : Word) : (s.setWord a v).hbms = s.hbms := rfl
@[simp] theorem State.setWord_sec (s : State) (a : Nat) (v : Word) : (s.setWord a v).sec = s.sec := rfl
@[simp] theorem State.setWord_cfg (s : State) (a : Nat) (v : Word) : (s.setWord a v).cfg = s.cfg := rfl
@[simp] theorem State.setWord_pci (s : State) (a : Nat) (v : Word) : (s.setWord a v).pci = s.pci := rfl
@[simp] theorem State.setWord_serv (s : State) (a : Nat) (v : Word) : (s.setWord a v).serv = s.serv := rfl
@[simp] theorem State.setWord_tim (s : State) (a : Nat) (v : Word) : (s.setWord a v).tim = s.tim := rfl
@[simp] theorem State.setWord_pwr (s : State) (a : Nat) (v : Word) : (s.setWord a v).pwr = s.pwr := rfl
@[simp] theorem State.setWord_rel (s : State) (a : Nat) (v : Word) : (s.setWord a v).rel = s.rel := rfl
@[simp] theorem State.setWord_mgt (s : State) (a : Nat) (v : Word) : (s.setWord a v).mgt = s.mgt := rfl

/-! `set` leaves every other field alone. -/

@[simp] theorem State.set_pending (s : State) (f : Fld) (v : Nat) : (s.set f v).pending = s.pending := rfl
@[simp] theorem State.set_fc (s : State) (f : Fld) (v : Nat) : (s.set f v).fc = s.fc := rfl
@[simp] theorem State.set_free (s : State) (f : Fld) (v : Nat) : (s.set f v).free = s.free := rfl
@[simp] theorem State.set_mem (s : State) (f : Fld) (v : Nat) : (s.set f v).mem = s.mem := rfl
@[simp] theorem State.set_fills (s : State) (f : Fld) (v : Nat) : (s.set f v).fills = s.fills := rfl
@[simp] theorem State.set_poison (s : State) (f : Fld) (v : Nat) : (s.set f v).poison = s.poison := rfl
@[simp] theorem State.set_accs (s : State) (f : Fld) (v : Nat) : (s.set f v).accs = s.accs := rfl
@[simp] theorem State.set_cores (s : State) (f : Fld) (v : Nat) : (s.set f v).cores = s.cores := rfl
@[simp] theorem State.set_coal (s : State) (f : Fld) (v : Nat) : (s.set f v).coal = s.coal := rfl
@[simp] theorem State.set_plots (s : State) (f : Fld) (v : Nat) : (s.set f v).plots = s.plots := rfl
@[simp] theorem State.set_subst (s : State) (f : Fld) (v : Nat) : (s.set f v).subst = s.subst := rfl
@[simp] theorem State.set_vt (s : State) (f : Fld) (v : Nat) : (s.set f v).vt = s.vt := rfl
@[simp] theorem State.set_links (s : State) (f : Fld) (v : Nat) : (s.set f v).links = s.links := rfl
@[simp] theorem State.set_wins (s : State) (f : Fld) (v : Nat) : (s.set f v).wins = s.wins := rfl
@[simp] theorem State.set_thrs (s : State) (f : Fld) (v : Nat) : (s.set f v).thrs = s.thrs := rfl
@[simp] theorem State.set_sows (s : State) (f : Fld) (v : Nat) : (s.set f v).sows = s.sows := rfl
@[simp] theorem State.set_glns (s : State) (f : Fld) (v : Nat) : (s.set f v).glns = s.glns := rfl
@[simp] theorem State.set_col (s : State) (f : Fld) (v : Nat) : (s.set f v).col = s.col := rfl
@[simp] theorem State.set_tiers (s : State) (f : Fld) (v : Nat) : (s.set f v).tiers = s.tiers := rfl
@[simp] theorem State.set_silo (s : State) (f : Fld) (v : Nat) : (s.set f v).silo = s.silo := rfl
@[simp] theorem State.set_model (s : State) (f : Fld) (v : Nat) : (s.set f v).model = s.model := rfl
@[simp] theorem State.set_hbms (s : State) (f : Fld) (v : Nat) : (s.set f v).hbms = s.hbms := rfl
@[simp] theorem State.set_sec (s : State) (f : Fld) (v : Nat) : (s.set f v).sec = s.sec := rfl
@[simp] theorem State.set_cfg (s : State) (f : Fld) (v : Nat) : (s.set f v).cfg = s.cfg := rfl
@[simp] theorem State.set_pci (s : State) (f : Fld) (v : Nat) : (s.set f v).pci = s.pci := rfl
@[simp] theorem State.set_serv (s : State) (f : Fld) (v : Nat) : (s.set f v).serv = s.serv := rfl
@[simp] theorem State.set_tim (s : State) (f : Fld) (v : Nat) : (s.set f v).tim = s.tim := rfl
@[simp] theorem State.set_pwr (s : State) (f : Fld) (v : Nat) : (s.set f v).pwr = s.pwr := rfl
@[simp] theorem State.set_rel (s : State) (f : Fld) (v : Nat) : (s.set f v).rel = s.rel := rfl
@[simp] theorem State.set_mgt (s : State) (f : Fld) (v : Nat) : (s.set f v).mgt = s.mgt := rfl

/-! `raise` leaves every other field alone. -/

@[simp] theorem State.raise_pending (s : State) (f : Fld) : (s.raise f).pending = s.pending := rfl
@[simp] theorem State.raise_fc (s : State) (f : Fld) : (s.raise f).fc = s.fc := rfl
@[simp] theorem State.raise_free (s : State) (f : Fld) : (s.raise f).free = s.free := rfl
@[simp] theorem State.raise_mem (s : State) (f : Fld) : (s.raise f).mem = s.mem := rfl
@[simp] theorem State.raise_fills (s : State) (f : Fld) : (s.raise f).fills = s.fills := rfl
@[simp] theorem State.raise_poison (s : State) (f : Fld) : (s.raise f).poison = s.poison := rfl
@[simp] theorem State.raise_accs (s : State) (f : Fld) : (s.raise f).accs = s.accs := rfl
@[simp] theorem State.raise_cores (s : State) (f : Fld) : (s.raise f).cores = s.cores := rfl
@[simp] theorem State.raise_coal (s : State) (f : Fld) : (s.raise f).coal = s.coal := rfl
@[simp] theorem State.raise_plots (s : State) (f : Fld) : (s.raise f).plots = s.plots := rfl
@[simp] theorem State.raise_subst (s : State) (f : Fld) : (s.raise f).subst = s.subst := rfl
@[simp] theorem State.raise_vt (s : State) (f : Fld) : (s.raise f).vt = s.vt := rfl
@[simp] theorem State.raise_links (s : State) (f : Fld) : (s.raise f).links = s.links := rfl
@[simp] theorem State.raise_wins (s : State) (f : Fld) : (s.raise f).wins = s.wins := rfl
@[simp] theorem State.raise_thrs (s : State) (f : Fld) : (s.raise f).thrs = s.thrs := rfl
@[simp] theorem State.raise_sows (s : State) (f : Fld) : (s.raise f).sows = s.sows := rfl
@[simp] theorem State.raise_glns (s : State) (f : Fld) : (s.raise f).glns = s.glns := rfl
@[simp] theorem State.raise_col (s : State) (f : Fld) : (s.raise f).col = s.col := rfl
@[simp] theorem State.raise_tiers (s : State) (f : Fld) : (s.raise f).tiers = s.tiers := rfl
@[simp] theorem State.raise_silo (s : State) (f : Fld) : (s.raise f).silo = s.silo := rfl
@[simp] theorem State.raise_model (s : State) (f : Fld) : (s.raise f).model = s.model := rfl
@[simp] theorem State.raise_hbms (s : State) (f : Fld) : (s.raise f).hbms = s.hbms := rfl
@[simp] theorem State.raise_sec (s : State) (f : Fld) : (s.raise f).sec = s.sec := rfl
@[simp] theorem State.raise_cfg (s : State) (f : Fld) : (s.raise f).cfg = s.cfg := rfl
@[simp] theorem State.raise_pci (s : State) (f : Fld) : (s.raise f).pci = s.pci := rfl
@[simp] theorem State.raise_serv (s : State) (f : Fld) : (s.raise f).serv = s.serv := rfl
@[simp] theorem State.raise_tim (s : State) (f : Fld) : (s.raise f).tim = s.tim := rfl
@[simp] theorem State.raise_pwr (s : State) (f : Fld) : (s.raise f).pwr = s.pwr := rfl
@[simp] theorem State.raise_rel (s : State) (f : Fld) : (s.raise f).rel = s.rel := rfl
@[simp] theorem State.raise_mgt (s : State) (f : Fld) : (s.raise f).mgt = s.mgt := rfl

/-! `count` leaves every other field alone. -/

@[simp] theorem State.count_pending (s : State) (f : Fld) (n : Nat) : (s.count f n).pending = s.pending := rfl
@[simp] theorem State.count_fc (s : State) (f : Fld) (n : Nat) : (s.count f n).fc = s.fc := rfl
@[simp] theorem State.count_free (s : State) (f : Fld) (n : Nat) : (s.count f n).free = s.free := rfl
@[simp] theorem State.count_mem (s : State) (f : Fld) (n : Nat) : (s.count f n).mem = s.mem := rfl
@[simp] theorem State.count_fills (s : State) (f : Fld) (n : Nat) : (s.count f n).fills = s.fills := rfl
@[simp] theorem State.count_poison (s : State) (f : Fld) (n : Nat) : (s.count f n).poison = s.poison := rfl
@[simp] theorem State.count_accs (s : State) (f : Fld) (n : Nat) : (s.count f n).accs = s.accs := rfl
@[simp] theorem State.count_cores (s : State) (f : Fld) (n : Nat) : (s.count f n).cores = s.cores := rfl
@[simp] theorem State.count_coal (s : State) (f : Fld) (n : Nat) : (s.count f n).coal = s.coal := rfl
@[simp] theorem State.count_plots (s : State) (f : Fld) (n : Nat) : (s.count f n).plots = s.plots := rfl
@[simp] theorem State.count_subst (s : State) (f : Fld) (n : Nat) : (s.count f n).subst = s.subst := rfl
@[simp] theorem State.count_vt (s : State) (f : Fld) (n : Nat) : (s.count f n).vt = s.vt := rfl
@[simp] theorem State.count_links (s : State) (f : Fld) (n : Nat) : (s.count f n).links = s.links := rfl
@[simp] theorem State.count_wins (s : State) (f : Fld) (n : Nat) : (s.count f n).wins = s.wins := rfl
@[simp] theorem State.count_thrs (s : State) (f : Fld) (n : Nat) : (s.count f n).thrs = s.thrs := rfl
@[simp] theorem State.count_sows (s : State) (f : Fld) (n : Nat) : (s.count f n).sows = s.sows := rfl
@[simp] theorem State.count_glns (s : State) (f : Fld) (n : Nat) : (s.count f n).glns = s.glns := rfl
@[simp] theorem State.count_col (s : State) (f : Fld) (n : Nat) : (s.count f n).col = s.col := rfl
@[simp] theorem State.count_tiers (s : State) (f : Fld) (n : Nat) : (s.count f n).tiers = s.tiers := rfl
@[simp] theorem State.count_silo (s : State) (f : Fld) (n : Nat) : (s.count f n).silo = s.silo := rfl
@[simp] theorem State.count_model (s : State) (f : Fld) (n : Nat) : (s.count f n).model = s.model := rfl
@[simp] theorem State.count_hbms (s : State) (f : Fld) (n : Nat) : (s.count f n).hbms = s.hbms := rfl
@[simp] theorem State.count_sec (s : State) (f : Fld) (n : Nat) : (s.count f n).sec = s.sec := rfl
@[simp] theorem State.count_cfg (s : State) (f : Fld) (n : Nat) : (s.count f n).cfg = s.cfg := rfl
@[simp] theorem State.count_pci (s : State) (f : Fld) (n : Nat) : (s.count f n).pci = s.pci := rfl
@[simp] theorem State.count_serv (s : State) (f : Fld) (n : Nat) : (s.count f n).serv = s.serv := rfl
@[simp] theorem State.count_tim (s : State) (f : Fld) (n : Nat) : (s.count f n).tim = s.tim := rfl
@[simp] theorem State.count_pwr (s : State) (f : Fld) (n : Nat) : (s.count f n).pwr = s.pwr := rfl
@[simp] theorem State.count_rel (s : State) (f : Fld) (n : Nat) : (s.count f n).rel = s.rel := rfl
@[simp] theorem State.count_mgt (s : State) (f : Fld) (n : Nat) : (s.count f n).mgt = s.mgt := rfl

/-! `countSat` leaves every other field alone. -/

@[simp] theorem State.countSat_pending (s : State) (f : Fld) (n : Nat) : (s.countSat f n).pending = s.pending := rfl
@[simp] theorem State.countSat_fc (s : State) (f : Fld) (n : Nat) : (s.countSat f n).fc = s.fc := rfl
@[simp] theorem State.countSat_free (s : State) (f : Fld) (n : Nat) : (s.countSat f n).free = s.free := rfl
@[simp] theorem State.countSat_mem (s : State) (f : Fld) (n : Nat) : (s.countSat f n).mem = s.mem := rfl
@[simp] theorem State.countSat_fills (s : State) (f : Fld) (n : Nat) : (s.countSat f n).fills = s.fills := rfl
@[simp] theorem State.countSat_poison (s : State) (f : Fld) (n : Nat) : (s.countSat f n).poison = s.poison := rfl
@[simp] theorem State.countSat_accs (s : State) (f : Fld) (n : Nat) : (s.countSat f n).accs = s.accs := rfl
@[simp] theorem State.countSat_cores (s : State) (f : Fld) (n : Nat) : (s.countSat f n).cores = s.cores := rfl
@[simp] theorem State.countSat_coal (s : State) (f : Fld) (n : Nat) : (s.countSat f n).coal = s.coal := rfl
@[simp] theorem State.countSat_plots (s : State) (f : Fld) (n : Nat) : (s.countSat f n).plots = s.plots := rfl
@[simp] theorem State.countSat_subst (s : State) (f : Fld) (n : Nat) : (s.countSat f n).subst = s.subst := rfl
@[simp] theorem State.countSat_vt (s : State) (f : Fld) (n : Nat) : (s.countSat f n).vt = s.vt := rfl
@[simp] theorem State.countSat_links (s : State) (f : Fld) (n : Nat) : (s.countSat f n).links = s.links := rfl
@[simp] theorem State.countSat_wins (s : State) (f : Fld) (n : Nat) : (s.countSat f n).wins = s.wins := rfl
@[simp] theorem State.countSat_thrs (s : State) (f : Fld) (n : Nat) : (s.countSat f n).thrs = s.thrs := rfl
@[simp] theorem State.countSat_sows (s : State) (f : Fld) (n : Nat) : (s.countSat f n).sows = s.sows := rfl
@[simp] theorem State.countSat_glns (s : State) (f : Fld) (n : Nat) : (s.countSat f n).glns = s.glns := rfl
@[simp] theorem State.countSat_col (s : State) (f : Fld) (n : Nat) : (s.countSat f n).col = s.col := rfl
@[simp] theorem State.countSat_tiers (s : State) (f : Fld) (n : Nat) : (s.countSat f n).tiers = s.tiers := rfl
@[simp] theorem State.countSat_silo (s : State) (f : Fld) (n : Nat) : (s.countSat f n).silo = s.silo := rfl
@[simp] theorem State.countSat_model (s : State) (f : Fld) (n : Nat) : (s.countSat f n).model = s.model := rfl
@[simp] theorem State.countSat_hbms (s : State) (f : Fld) (n : Nat) : (s.countSat f n).hbms = s.hbms := rfl
@[simp] theorem State.countSat_sec (s : State) (f : Fld) (n : Nat) : (s.countSat f n).sec = s.sec := rfl
@[simp] theorem State.countSat_cfg (s : State) (f : Fld) (n : Nat) : (s.countSat f n).cfg = s.cfg := rfl
@[simp] theorem State.countSat_pci (s : State) (f : Fld) (n : Nat) : (s.countSat f n).pci = s.pci := rfl
@[simp] theorem State.countSat_serv (s : State) (f : Fld) (n : Nat) : (s.countSat f n).serv = s.serv := rfl
@[simp] theorem State.countSat_tim (s : State) (f : Fld) (n : Nat) : (s.countSat f n).tim = s.tim := rfl
@[simp] theorem State.countSat_pwr (s : State) (f : Fld) (n : Nat) : (s.countSat f n).pwr = s.pwr := rfl
@[simp] theorem State.countSat_rel (s : State) (f : Fld) (n : Nat) : (s.countSat f n).rel = s.rel := rfl
@[simp] theorem State.countSat_mgt (s : State) (f : Fld) (n : Nat) : (s.countSat f n).mgt = s.mgt := rfl

/-! `setByte` leaves every other field alone. -/

@[simp] theorem State.setByte_pending (s : State) (a : Nat) (b : Byte) : (s.setByte a b).pending = s.pending := rfl
@[simp] theorem State.setByte_fc (s : State) (a : Nat) (b : Byte) : (s.setByte a b).fc = s.fc := rfl
@[simp] theorem State.setByte_free (s : State) (a : Nat) (b : Byte) : (s.setByte a b).free = s.free := rfl
@[simp] theorem State.setByte_regs (s : State) (a : Nat) (b : Byte) : (s.setByte a b).regs = s.regs := rfl
@[simp] theorem State.setByte_fills (s : State) (a : Nat) (b : Byte) : (s.setByte a b).fills = s.fills := rfl
@[simp] theorem State.setByte_poison (s : State) (a : Nat) (b : Byte) : (s.setByte a b).poison = s.poison := rfl
@[simp] theorem State.setByte_accs (s : State) (a : Nat) (b : Byte) : (s.setByte a b).accs = s.accs := rfl
@[simp] theorem State.setByte_cores (s : State) (a : Nat) (b : Byte) : (s.setByte a b).cores = s.cores := rfl
@[simp] theorem State.setByte_coal (s : State) (a : Nat) (b : Byte) : (s.setByte a b).coal = s.coal := rfl
@[simp] theorem State.setByte_plots (s : State) (a : Nat) (b : Byte) : (s.setByte a b).plots = s.plots := rfl
@[simp] theorem State.setByte_subst (s : State) (a : Nat) (b : Byte) : (s.setByte a b).subst = s.subst := rfl
@[simp] theorem State.setByte_vt (s : State) (a : Nat) (b : Byte) : (s.setByte a b).vt = s.vt := rfl
@[simp] theorem State.setByte_links (s : State) (a : Nat) (b : Byte) : (s.setByte a b).links = s.links := rfl
@[simp] theorem State.setByte_wins (s : State) (a : Nat) (b : Byte) : (s.setByte a b).wins = s.wins := rfl
@[simp] theorem State.setByte_thrs (s : State) (a : Nat) (b : Byte) : (s.setByte a b).thrs = s.thrs := rfl
@[simp] theorem State.setByte_sows (s : State) (a : Nat) (b : Byte) : (s.setByte a b).sows = s.sows := rfl
@[simp] theorem State.setByte_glns (s : State) (a : Nat) (b : Byte) : (s.setByte a b).glns = s.glns := rfl
@[simp] theorem State.setByte_col (s : State) (a : Nat) (b : Byte) : (s.setByte a b).col = s.col := rfl
@[simp] theorem State.setByte_tiers (s : State) (a : Nat) (b : Byte) : (s.setByte a b).tiers = s.tiers := rfl
@[simp] theorem State.setByte_silo (s : State) (a : Nat) (b : Byte) : (s.setByte a b).silo = s.silo := rfl
@[simp] theorem State.setByte_model (s : State) (a : Nat) (b : Byte) : (s.setByte a b).model = s.model := rfl
@[simp] theorem State.setByte_hbms (s : State) (a : Nat) (b : Byte) : (s.setByte a b).hbms = s.hbms := rfl
@[simp] theorem State.setByte_sec (s : State) (a : Nat) (b : Byte) : (s.setByte a b).sec = s.sec := rfl
@[simp] theorem State.setByte_cfg (s : State) (a : Nat) (b : Byte) : (s.setByte a b).cfg = s.cfg := rfl
@[simp] theorem State.setByte_pci (s : State) (a : Nat) (b : Byte) : (s.setByte a b).pci = s.pci := rfl
@[simp] theorem State.setByte_serv (s : State) (a : Nat) (b : Byte) : (s.setByte a b).serv = s.serv := rfl
@[simp] theorem State.setByte_tim (s : State) (a : Nat) (b : Byte) : (s.setByte a b).tim = s.tim := rfl
@[simp] theorem State.setByte_pwr (s : State) (a : Nat) (b : Byte) : (s.setByte a b).pwr = s.pwr := rfl
@[simp] theorem State.setByte_rel (s : State) (a : Nat) (b : Byte) : (s.setByte a b).rel = s.rel := rfl
@[simp] theorem State.setByte_mgt (s : State) (a : Nat) (b : Byte) : (s.setByte a b).mgt = s.mgt := rfl

/-! `fillRange` leaves every other field alone. -/

@[simp] theorem State.fillRange_pending (s : State) (a n i : Nat) : (s.fillRange a n i).pending = s.pending := rfl
@[simp] theorem State.fillRange_fc (s : State) (a n i : Nat) : (s.fillRange a n i).fc = s.fc := rfl
@[simp] theorem State.fillRange_free (s : State) (a n i : Nat) : (s.fillRange a n i).free = s.free := rfl
@[simp] theorem State.fillRange_regs (s : State) (a n i : Nat) : (s.fillRange a n i).regs = s.regs := rfl
@[simp] theorem State.fillRange_poison (s : State) (a n i : Nat) : (s.fillRange a n i).poison = s.poison := rfl
@[simp] theorem State.fillRange_accs (s : State) (a n i : Nat) : (s.fillRange a n i).accs = s.accs := rfl
@[simp] theorem State.fillRange_cores (s : State) (a n i : Nat) : (s.fillRange a n i).cores = s.cores := rfl
@[simp] theorem State.fillRange_coal (s : State) (a n i : Nat) : (s.fillRange a n i).coal = s.coal := rfl
@[simp] theorem State.fillRange_plots (s : State) (a n i : Nat) : (s.fillRange a n i).plots = s.plots := rfl
@[simp] theorem State.fillRange_subst (s : State) (a n i : Nat) : (s.fillRange a n i).subst = s.subst := rfl
@[simp] theorem State.fillRange_vt (s : State) (a n i : Nat) : (s.fillRange a n i).vt = s.vt := rfl
@[simp] theorem State.fillRange_links (s : State) (a n i : Nat) : (s.fillRange a n i).links = s.links := rfl
@[simp] theorem State.fillRange_wins (s : State) (a n i : Nat) : (s.fillRange a n i).wins = s.wins := rfl
@[simp] theorem State.fillRange_thrs (s : State) (a n i : Nat) : (s.fillRange a n i).thrs = s.thrs := rfl
@[simp] theorem State.fillRange_sows (s : State) (a n i : Nat) : (s.fillRange a n i).sows = s.sows := rfl
@[simp] theorem State.fillRange_glns (s : State) (a n i : Nat) : (s.fillRange a n i).glns = s.glns := rfl
@[simp] theorem State.fillRange_col (s : State) (a n i : Nat) : (s.fillRange a n i).col = s.col := rfl
@[simp] theorem State.fillRange_tiers (s : State) (a n i : Nat) : (s.fillRange a n i).tiers = s.tiers := rfl
@[simp] theorem State.fillRange_silo (s : State) (a n i : Nat) : (s.fillRange a n i).silo = s.silo := rfl
@[simp] theorem State.fillRange_model (s : State) (a n i : Nat) : (s.fillRange a n i).model = s.model := rfl
@[simp] theorem State.fillRange_hbms (s : State) (a n i : Nat) : (s.fillRange a n i).hbms = s.hbms := rfl
@[simp] theorem State.fillRange_sec (s : State) (a n i : Nat) : (s.fillRange a n i).sec = s.sec := rfl
@[simp] theorem State.fillRange_cfg (s : State) (a n i : Nat) : (s.fillRange a n i).cfg = s.cfg := rfl
@[simp] theorem State.fillRange_pci (s : State) (a n i : Nat) : (s.fillRange a n i).pci = s.pci := rfl
@[simp] theorem State.fillRange_serv (s : State) (a n i : Nat) : (s.fillRange a n i).serv = s.serv := rfl
@[simp] theorem State.fillRange_tim (s : State) (a n i : Nat) : (s.fillRange a n i).tim = s.tim := rfl
@[simp] theorem State.fillRange_pwr (s : State) (a n i : Nat) : (s.fillRange a n i).pwr = s.pwr := rfl
@[simp] theorem State.fillRange_rel (s : State) (a n i : Nat) : (s.fillRange a n i).rel = s.rel := rfl
@[simp] theorem State.fillRange_mgt (s : State) (a n i : Nat) : (s.fillRange a n i).mgt = s.mgt := rfl

/-! `unknownRange` leaves every other field alone. -/

@[simp] theorem State.unknownRange_pending (s : State) (a n : Nat) : (s.unknownRange a n).pending = s.pending := rfl
@[simp] theorem State.unknownRange_fc (s : State) (a n : Nat) : (s.unknownRange a n).fc = s.fc := rfl
@[simp] theorem State.unknownRange_regs (s : State) (a n : Nat) : (s.unknownRange a n).regs = s.regs := rfl
@[simp] theorem State.unknownRange_poison (s : State) (a n : Nat) : (s.unknownRange a n).poison = s.poison := rfl
@[simp] theorem State.unknownRange_accs (s : State) (a n : Nat) : (s.unknownRange a n).accs = s.accs := rfl
@[simp] theorem State.unknownRange_cores (s : State) (a n : Nat) : (s.unknownRange a n).cores = s.cores := rfl
@[simp] theorem State.unknownRange_coal (s : State) (a n : Nat) : (s.unknownRange a n).coal = s.coal := rfl
@[simp] theorem State.unknownRange_plots (s : State) (a n : Nat) : (s.unknownRange a n).plots = s.plots := rfl
@[simp] theorem State.unknownRange_subst (s : State) (a n : Nat) : (s.unknownRange a n).subst = s.subst := rfl
@[simp] theorem State.unknownRange_vt (s : State) (a n : Nat) : (s.unknownRange a n).vt = s.vt := rfl
@[simp] theorem State.unknownRange_links (s : State) (a n : Nat) : (s.unknownRange a n).links = s.links := rfl
@[simp] theorem State.unknownRange_wins (s : State) (a n : Nat) : (s.unknownRange a n).wins = s.wins := rfl
@[simp] theorem State.unknownRange_thrs (s : State) (a n : Nat) : (s.unknownRange a n).thrs = s.thrs := rfl
@[simp] theorem State.unknownRange_sows (s : State) (a n : Nat) : (s.unknownRange a n).sows = s.sows := rfl
@[simp] theorem State.unknownRange_glns (s : State) (a n : Nat) : (s.unknownRange a n).glns = s.glns := rfl
@[simp] theorem State.unknownRange_col (s : State) (a n : Nat) : (s.unknownRange a n).col = s.col := rfl
@[simp] theorem State.unknownRange_tiers (s : State) (a n : Nat) : (s.unknownRange a n).tiers = s.tiers := rfl
@[simp] theorem State.unknownRange_silo (s : State) (a n : Nat) : (s.unknownRange a n).silo = s.silo := rfl
@[simp] theorem State.unknownRange_model (s : State) (a n : Nat) : (s.unknownRange a n).model = s.model := rfl
@[simp] theorem State.unknownRange_hbms (s : State) (a n : Nat) : (s.unknownRange a n).hbms = s.hbms := rfl
@[simp] theorem State.unknownRange_sec (s : State) (a n : Nat) : (s.unknownRange a n).sec = s.sec := rfl
@[simp] theorem State.unknownRange_cfg (s : State) (a n : Nat) : (s.unknownRange a n).cfg = s.cfg := rfl
@[simp] theorem State.unknownRange_pci (s : State) (a n : Nat) : (s.unknownRange a n).pci = s.pci := rfl
@[simp] theorem State.unknownRange_serv (s : State) (a n : Nat) : (s.unknownRange a n).serv = s.serv := rfl
@[simp] theorem State.unknownRange_tim (s : State) (a n : Nat) : (s.unknownRange a n).tim = s.tim := rfl
@[simp] theorem State.unknownRange_pwr (s : State) (a n : Nat) : (s.unknownRange a n).pwr = s.pwr := rfl
@[simp] theorem State.unknownRange_rel (s : State) (a n : Nat) : (s.unknownRange a n).rel = s.rel := rfl
@[simp] theorem State.unknownRange_mgt (s : State) (a n : Nat) : (s.unknownRange a n).mgt = s.mgt := rfl

/-! `setPoison` leaves every other field alone. -/

@[simp] theorem State.setPoison_pending (s : State) (a : Nat) (b : Bool) : (s.setPoison a b).pending = s.pending := rfl
@[simp] theorem State.setPoison_fc (s : State) (a : Nat) (b : Bool) : (s.setPoison a b).fc = s.fc := rfl
@[simp] theorem State.setPoison_free (s : State) (a : Nat) (b : Bool) : (s.setPoison a b).free = s.free := rfl
@[simp] theorem State.setPoison_regs (s : State) (a : Nat) (b : Bool) : (s.setPoison a b).regs = s.regs := rfl
@[simp] theorem State.setPoison_mem (s : State) (a : Nat) (b : Bool) : (s.setPoison a b).mem = s.mem := rfl
@[simp] theorem State.setPoison_fills (s : State) (a : Nat) (b : Bool) : (s.setPoison a b).fills = s.fills := rfl
@[simp] theorem State.setPoison_accs (s : State) (a : Nat) (b : Bool) : (s.setPoison a b).accs = s.accs := rfl
@[simp] theorem State.setPoison_cores (s : State) (a : Nat) (b : Bool) : (s.setPoison a b).cores = s.cores := rfl
@[simp] theorem State.setPoison_coal (s : State) (a : Nat) (b : Bool) : (s.setPoison a b).coal = s.coal := rfl
@[simp] theorem State.setPoison_plots (s : State) (a : Nat) (b : Bool) : (s.setPoison a b).plots = s.plots := rfl
@[simp] theorem State.setPoison_subst (s : State) (a : Nat) (b : Bool) : (s.setPoison a b).subst = s.subst := rfl
@[simp] theorem State.setPoison_vt (s : State) (a : Nat) (b : Bool) : (s.setPoison a b).vt = s.vt := rfl
@[simp] theorem State.setPoison_links (s : State) (a : Nat) (b : Bool) : (s.setPoison a b).links = s.links := rfl
@[simp] theorem State.setPoison_wins (s : State) (a : Nat) (b : Bool) : (s.setPoison a b).wins = s.wins := rfl
@[simp] theorem State.setPoison_thrs (s : State) (a : Nat) (b : Bool) : (s.setPoison a b).thrs = s.thrs := rfl
@[simp] theorem State.setPoison_sows (s : State) (a : Nat) (b : Bool) : (s.setPoison a b).sows = s.sows := rfl
@[simp] theorem State.setPoison_glns (s : State) (a : Nat) (b : Bool) : (s.setPoison a b).glns = s.glns := rfl
@[simp] theorem State.setPoison_col (s : State) (a : Nat) (b : Bool) : (s.setPoison a b).col = s.col := rfl
@[simp] theorem State.setPoison_tiers (s : State) (a : Nat) (b : Bool) : (s.setPoison a b).tiers = s.tiers := rfl
@[simp] theorem State.setPoison_silo (s : State) (a : Nat) (b : Bool) : (s.setPoison a b).silo = s.silo := rfl
@[simp] theorem State.setPoison_model (s : State) (a : Nat) (b : Bool) : (s.setPoison a b).model = s.model := rfl
@[simp] theorem State.setPoison_hbms (s : State) (a : Nat) (b : Bool) : (s.setPoison a b).hbms = s.hbms := rfl
@[simp] theorem State.setPoison_sec (s : State) (a : Nat) (b : Bool) : (s.setPoison a b).sec = s.sec := rfl
@[simp] theorem State.setPoison_cfg (s : State) (a : Nat) (b : Bool) : (s.setPoison a b).cfg = s.cfg := rfl
@[simp] theorem State.setPoison_pci (s : State) (a : Nat) (b : Bool) : (s.setPoison a b).pci = s.pci := rfl
@[simp] theorem State.setPoison_serv (s : State) (a : Nat) (b : Bool) : (s.setPoison a b).serv = s.serv := rfl
@[simp] theorem State.setPoison_tim (s : State) (a : Nat) (b : Bool) : (s.setPoison a b).tim = s.tim := rfl
@[simp] theorem State.setPoison_pwr (s : State) (a : Nat) (b : Bool) : (s.setPoison a b).pwr = s.pwr := rfl
@[simp] theorem State.setPoison_rel (s : State) (a : Nat) (b : Bool) : (s.setPoison a b).rel = s.rel := rfl
@[simp] theorem State.setPoison_mgt (s : State) (a : Nat) (b : Bool) : (s.setPoison a b).mgt = s.mgt := rfl

/-! `setCore` leaves every other field alone. -/

@[simp] theorem State.setCore_pending (s : State) (p : Nat) (c : CoreHid) : (s.setCore p c).pending = s.pending := rfl
@[simp] theorem State.setCore_fc (s : State) (p : Nat) (c : CoreHid) : (s.setCore p c).fc = s.fc := rfl
@[simp] theorem State.setCore_free (s : State) (p : Nat) (c : CoreHid) : (s.setCore p c).free = s.free := rfl
@[simp] theorem State.setCore_regs (s : State) (p : Nat) (c : CoreHid) : (s.setCore p c).regs = s.regs := rfl
@[simp] theorem State.setCore_mem (s : State) (p : Nat) (c : CoreHid) : (s.setCore p c).mem = s.mem := rfl
@[simp] theorem State.setCore_fills (s : State) (p : Nat) (c : CoreHid) : (s.setCore p c).fills = s.fills := rfl
@[simp] theorem State.setCore_poison (s : State) (p : Nat) (c : CoreHid) : (s.setCore p c).poison = s.poison := rfl
@[simp] theorem State.setCore_accs (s : State) (p : Nat) (c : CoreHid) : (s.setCore p c).accs = s.accs := rfl
@[simp] theorem State.setCore_coal (s : State) (p : Nat) (c : CoreHid) : (s.setCore p c).coal = s.coal := rfl
@[simp] theorem State.setCore_plots (s : State) (p : Nat) (c : CoreHid) : (s.setCore p c).plots = s.plots := rfl
@[simp] theorem State.setCore_subst (s : State) (p : Nat) (c : CoreHid) : (s.setCore p c).subst = s.subst := rfl
@[simp] theorem State.setCore_vt (s : State) (p : Nat) (c : CoreHid) : (s.setCore p c).vt = s.vt := rfl
@[simp] theorem State.setCore_links (s : State) (p : Nat) (c : CoreHid) : (s.setCore p c).links = s.links := rfl
@[simp] theorem State.setCore_wins (s : State) (p : Nat) (c : CoreHid) : (s.setCore p c).wins = s.wins := rfl
@[simp] theorem State.setCore_thrs (s : State) (p : Nat) (c : CoreHid) : (s.setCore p c).thrs = s.thrs := rfl
@[simp] theorem State.setCore_sows (s : State) (p : Nat) (c : CoreHid) : (s.setCore p c).sows = s.sows := rfl
@[simp] theorem State.setCore_glns (s : State) (p : Nat) (c : CoreHid) : (s.setCore p c).glns = s.glns := rfl
@[simp] theorem State.setCore_col (s : State) (p : Nat) (c : CoreHid) : (s.setCore p c).col = s.col := rfl
@[simp] theorem State.setCore_tiers (s : State) (p : Nat) (c : CoreHid) : (s.setCore p c).tiers = s.tiers := rfl
@[simp] theorem State.setCore_silo (s : State) (p : Nat) (c : CoreHid) : (s.setCore p c).silo = s.silo := rfl
@[simp] theorem State.setCore_model (s : State) (p : Nat) (c : CoreHid) : (s.setCore p c).model = s.model := rfl
@[simp] theorem State.setCore_hbms (s : State) (p : Nat) (c : CoreHid) : (s.setCore p c).hbms = s.hbms := rfl
@[simp] theorem State.setCore_sec (s : State) (p : Nat) (c : CoreHid) : (s.setCore p c).sec = s.sec := rfl
@[simp] theorem State.setCore_cfg (s : State) (p : Nat) (c : CoreHid) : (s.setCore p c).cfg = s.cfg := rfl
@[simp] theorem State.setCore_pci (s : State) (p : Nat) (c : CoreHid) : (s.setCore p c).pci = s.pci := rfl
@[simp] theorem State.setCore_serv (s : State) (p : Nat) (c : CoreHid) : (s.setCore p c).serv = s.serv := rfl
@[simp] theorem State.setCore_tim (s : State) (p : Nat) (c : CoreHid) : (s.setCore p c).tim = s.tim := rfl
@[simp] theorem State.setCore_pwr (s : State) (p : Nat) (c : CoreHid) : (s.setCore p c).pwr = s.pwr := rfl
@[simp] theorem State.setCore_rel (s : State) (p : Nat) (c : CoreHid) : (s.setCore p c).rel = s.rel := rfl
@[simp] theorem State.setCore_mgt (s : State) (p : Nat) (c : CoreHid) : (s.setCore p c).mgt = s.mgt := rfl

/-! `setAcc` leaves every other field alone. -/

@[simp] theorem State.setAcc_pending (s : State) (k : Nat) (v : Acc) : (s.setAcc k v).pending = s.pending := rfl
@[simp] theorem State.setAcc_fc (s : State) (k : Nat) (v : Acc) : (s.setAcc k v).fc = s.fc := rfl
@[simp] theorem State.setAcc_free (s : State) (k : Nat) (v : Acc) : (s.setAcc k v).free = s.free := rfl
@[simp] theorem State.setAcc_regs (s : State) (k : Nat) (v : Acc) : (s.setAcc k v).regs = s.regs := rfl
@[simp] theorem State.setAcc_mem (s : State) (k : Nat) (v : Acc) : (s.setAcc k v).mem = s.mem := rfl
@[simp] theorem State.setAcc_fills (s : State) (k : Nat) (v : Acc) : (s.setAcc k v).fills = s.fills := rfl
@[simp] theorem State.setAcc_poison (s : State) (k : Nat) (v : Acc) : (s.setAcc k v).poison = s.poison := rfl
@[simp] theorem State.setAcc_cores (s : State) (k : Nat) (v : Acc) : (s.setAcc k v).cores = s.cores := rfl
@[simp] theorem State.setAcc_coal (s : State) (k : Nat) (v : Acc) : (s.setAcc k v).coal = s.coal := rfl
@[simp] theorem State.setAcc_plots (s : State) (k : Nat) (v : Acc) : (s.setAcc k v).plots = s.plots := rfl
@[simp] theorem State.setAcc_subst (s : State) (k : Nat) (v : Acc) : (s.setAcc k v).subst = s.subst := rfl
@[simp] theorem State.setAcc_vt (s : State) (k : Nat) (v : Acc) : (s.setAcc k v).vt = s.vt := rfl
@[simp] theorem State.setAcc_links (s : State) (k : Nat) (v : Acc) : (s.setAcc k v).links = s.links := rfl
@[simp] theorem State.setAcc_wins (s : State) (k : Nat) (v : Acc) : (s.setAcc k v).wins = s.wins := rfl
@[simp] theorem State.setAcc_thrs (s : State) (k : Nat) (v : Acc) : (s.setAcc k v).thrs = s.thrs := rfl
@[simp] theorem State.setAcc_sows (s : State) (k : Nat) (v : Acc) : (s.setAcc k v).sows = s.sows := rfl
@[simp] theorem State.setAcc_glns (s : State) (k : Nat) (v : Acc) : (s.setAcc k v).glns = s.glns := rfl
@[simp] theorem State.setAcc_col (s : State) (k : Nat) (v : Acc) : (s.setAcc k v).col = s.col := rfl
@[simp] theorem State.setAcc_tiers (s : State) (k : Nat) (v : Acc) : (s.setAcc k v).tiers = s.tiers := rfl
@[simp] theorem State.setAcc_silo (s : State) (k : Nat) (v : Acc) : (s.setAcc k v).silo = s.silo := rfl
@[simp] theorem State.setAcc_model (s : State) (k : Nat) (v : Acc) : (s.setAcc k v).model = s.model := rfl
@[simp] theorem State.setAcc_hbms (s : State) (k : Nat) (v : Acc) : (s.setAcc k v).hbms = s.hbms := rfl
@[simp] theorem State.setAcc_sec (s : State) (k : Nat) (v : Acc) : (s.setAcc k v).sec = s.sec := rfl
@[simp] theorem State.setAcc_cfg (s : State) (k : Nat) (v : Acc) : (s.setAcc k v).cfg = s.cfg := rfl
@[simp] theorem State.setAcc_pci (s : State) (k : Nat) (v : Acc) : (s.setAcc k v).pci = s.pci := rfl
@[simp] theorem State.setAcc_serv (s : State) (k : Nat) (v : Acc) : (s.setAcc k v).serv = s.serv := rfl
@[simp] theorem State.setAcc_tim (s : State) (k : Nat) (v : Acc) : (s.setAcc k v).tim = s.tim := rfl
@[simp] theorem State.setAcc_pwr (s : State) (k : Nat) (v : Acc) : (s.setAcc k v).pwr = s.pwr := rfl
@[simp] theorem State.setAcc_rel (s : State) (k : Nat) (v : Acc) : (s.setAcc k v).rel = s.rel := rfl
@[simp] theorem State.setAcc_mgt (s : State) (k : Nat) (v : Acc) : (s.setAcc k v).mgt = s.mgt := rfl

/-! `drawWord` leaves every other field alone. -/

@[simp] theorem State.drawWord_pending (s : State) : (s.drawWord.2).pending = s.pending := rfl
@[simp] theorem State.drawWord_fc (s : State) : (s.drawWord.2).fc = s.fc := rfl
@[simp] theorem State.drawWord_regs (s : State) : (s.drawWord.2).regs = s.regs := rfl
@[simp] theorem State.drawWord_mem (s : State) : (s.drawWord.2).mem = s.mem := rfl
@[simp] theorem State.drawWord_fills (s : State) : (s.drawWord.2).fills = s.fills := rfl
@[simp] theorem State.drawWord_poison (s : State) : (s.drawWord.2).poison = s.poison := rfl
@[simp] theorem State.drawWord_accs (s : State) : (s.drawWord.2).accs = s.accs := rfl
@[simp] theorem State.drawWord_cores (s : State) : (s.drawWord.2).cores = s.cores := rfl
@[simp] theorem State.drawWord_coal (s : State) : (s.drawWord.2).coal = s.coal := rfl
@[simp] theorem State.drawWord_plots (s : State) : (s.drawWord.2).plots = s.plots := rfl
@[simp] theorem State.drawWord_subst (s : State) : (s.drawWord.2).subst = s.subst := rfl
@[simp] theorem State.drawWord_vt (s : State) : (s.drawWord.2).vt = s.vt := rfl
@[simp] theorem State.drawWord_links (s : State) : (s.drawWord.2).links = s.links := rfl
@[simp] theorem State.drawWord_wins (s : State) : (s.drawWord.2).wins = s.wins := rfl
@[simp] theorem State.drawWord_thrs (s : State) : (s.drawWord.2).thrs = s.thrs := rfl
@[simp] theorem State.drawWord_sows (s : State) : (s.drawWord.2).sows = s.sows := rfl
@[simp] theorem State.drawWord_glns (s : State) : (s.drawWord.2).glns = s.glns := rfl
@[simp] theorem State.drawWord_col (s : State) : (s.drawWord.2).col = s.col := rfl
@[simp] theorem State.drawWord_tiers (s : State) : (s.drawWord.2).tiers = s.tiers := rfl
@[simp] theorem State.drawWord_silo (s : State) : (s.drawWord.2).silo = s.silo := rfl
@[simp] theorem State.drawWord_model (s : State) : (s.drawWord.2).model = s.model := rfl
@[simp] theorem State.drawWord_hbms (s : State) : (s.drawWord.2).hbms = s.hbms := rfl
@[simp] theorem State.drawWord_sec (s : State) : (s.drawWord.2).sec = s.sec := rfl
@[simp] theorem State.drawWord_cfg (s : State) : (s.drawWord.2).cfg = s.cfg := rfl
@[simp] theorem State.drawWord_pci (s : State) : (s.drawWord.2).pci = s.pci := rfl
@[simp] theorem State.drawWord_serv (s : State) : (s.drawWord.2).serv = s.serv := rfl
@[simp] theorem State.drawWord_tim (s : State) : (s.drawWord.2).tim = s.tim := rfl
@[simp] theorem State.drawWord_pwr (s : State) : (s.drawWord.2).pwr = s.pwr := rfl
@[simp] theorem State.drawWord_rel (s : State) : (s.drawWord.2).rel = s.rel := rfl
@[simp] theorem State.drawWord_mgt (s : State) : (s.drawWord.2).mgt = s.mgt := rfl

/-! `drawBool` leaves every other field alone. -/

@[simp] theorem State.drawBool_pending (s : State) : (s.drawBool.2).pending = s.pending := rfl
@[simp] theorem State.drawBool_fc (s : State) : (s.drawBool.2).fc = s.fc := rfl
@[simp] theorem State.drawBool_regs (s : State) : (s.drawBool.2).regs = s.regs := rfl
@[simp] theorem State.drawBool_mem (s : State) : (s.drawBool.2).mem = s.mem := rfl
@[simp] theorem State.drawBool_fills (s : State) : (s.drawBool.2).fills = s.fills := rfl
@[simp] theorem State.drawBool_poison (s : State) : (s.drawBool.2).poison = s.poison := rfl
@[simp] theorem State.drawBool_accs (s : State) : (s.drawBool.2).accs = s.accs := rfl
@[simp] theorem State.drawBool_cores (s : State) : (s.drawBool.2).cores = s.cores := rfl
@[simp] theorem State.drawBool_coal (s : State) : (s.drawBool.2).coal = s.coal := rfl
@[simp] theorem State.drawBool_plots (s : State) : (s.drawBool.2).plots = s.plots := rfl
@[simp] theorem State.drawBool_subst (s : State) : (s.drawBool.2).subst = s.subst := rfl
@[simp] theorem State.drawBool_vt (s : State) : (s.drawBool.2).vt = s.vt := rfl
@[simp] theorem State.drawBool_links (s : State) : (s.drawBool.2).links = s.links := rfl
@[simp] theorem State.drawBool_wins (s : State) : (s.drawBool.2).wins = s.wins := rfl
@[simp] theorem State.drawBool_thrs (s : State) : (s.drawBool.2).thrs = s.thrs := rfl
@[simp] theorem State.drawBool_sows (s : State) : (s.drawBool.2).sows = s.sows := rfl
@[simp] theorem State.drawBool_glns (s : State) : (s.drawBool.2).glns = s.glns := rfl
@[simp] theorem State.drawBool_col (s : State) : (s.drawBool.2).col = s.col := rfl
@[simp] theorem State.drawBool_tiers (s : State) : (s.drawBool.2).tiers = s.tiers := rfl
@[simp] theorem State.drawBool_silo (s : State) : (s.drawBool.2).silo = s.silo := rfl
@[simp] theorem State.drawBool_model (s : State) : (s.drawBool.2).model = s.model := rfl
@[simp] theorem State.drawBool_hbms (s : State) : (s.drawBool.2).hbms = s.hbms := rfl
@[simp] theorem State.drawBool_sec (s : State) : (s.drawBool.2).sec = s.sec := rfl
@[simp] theorem State.drawBool_cfg (s : State) : (s.drawBool.2).cfg = s.cfg := rfl
@[simp] theorem State.drawBool_pci (s : State) : (s.drawBool.2).pci = s.pci := rfl
@[simp] theorem State.drawBool_serv (s : State) : (s.drawBool.2).serv = s.serv := rfl
@[simp] theorem State.drawBool_tim (s : State) : (s.drawBool.2).tim = s.tim := rfl
@[simp] theorem State.drawBool_pwr (s : State) : (s.drawBool.2).pwr = s.pwr := rfl
@[simp] theorem State.drawBool_rel (s : State) : (s.drawBool.2).rel = s.rel := rfl
@[simp] theorem State.drawBool_mgt (s : State) : (s.drawBool.2).mgt = s.mgt := rfl

/-! `setBytes` changes memory alone. -/

@[simp] theorem State.setBytes_pending (s : State) (a : Nat) (bs : List Byte) : (s.setBytes a bs).pending = s.pending := by
  induction bs generalizing s a with
  | nil => rfl
  | cons b bs ih => simp [State.setBytes, ih]
@[simp] theorem State.setBytes_fc (s : State) (a : Nat) (bs : List Byte) : (s.setBytes a bs).fc = s.fc := by
  induction bs generalizing s a with
  | nil => rfl
  | cons b bs ih => simp [State.setBytes, ih]
@[simp] theorem State.setBytes_free (s : State) (a : Nat) (bs : List Byte) : (s.setBytes a bs).free = s.free := by
  induction bs generalizing s a with
  | nil => rfl
  | cons b bs ih => simp [State.setBytes, ih]
@[simp] theorem State.setBytes_regs (s : State) (a : Nat) (bs : List Byte) : (s.setBytes a bs).regs = s.regs := by
  induction bs generalizing s a with
  | nil => rfl
  | cons b bs ih => simp [State.setBytes, ih]
@[simp] theorem State.setBytes_fills (s : State) (a : Nat) (bs : List Byte) : (s.setBytes a bs).fills = s.fills := by
  induction bs generalizing s a with
  | nil => rfl
  | cons b bs ih => simp [State.setBytes, ih]
@[simp] theorem State.setBytes_poison (s : State) (a : Nat) (bs : List Byte) : (s.setBytes a bs).poison = s.poison := by
  induction bs generalizing s a with
  | nil => rfl
  | cons b bs ih => simp [State.setBytes, ih]
@[simp] theorem State.setBytes_accs (s : State) (a : Nat) (bs : List Byte) : (s.setBytes a bs).accs = s.accs := by
  induction bs generalizing s a with
  | nil => rfl
  | cons b bs ih => simp [State.setBytes, ih]
@[simp] theorem State.setBytes_cores (s : State) (a : Nat) (bs : List Byte) : (s.setBytes a bs).cores = s.cores := by
  induction bs generalizing s a with
  | nil => rfl
  | cons b bs ih => simp [State.setBytes, ih]
@[simp] theorem State.setBytes_coal (s : State) (a : Nat) (bs : List Byte) : (s.setBytes a bs).coal = s.coal := by
  induction bs generalizing s a with
  | nil => rfl
  | cons b bs ih => simp [State.setBytes, ih]
@[simp] theorem State.setBytes_plots (s : State) (a : Nat) (bs : List Byte) : (s.setBytes a bs).plots = s.plots := by
  induction bs generalizing s a with
  | nil => rfl
  | cons b bs ih => simp [State.setBytes, ih]
@[simp] theorem State.setBytes_subst (s : State) (a : Nat) (bs : List Byte) : (s.setBytes a bs).subst = s.subst := by
  induction bs generalizing s a with
  | nil => rfl
  | cons b bs ih => simp [State.setBytes, ih]
@[simp] theorem State.setBytes_vt (s : State) (a : Nat) (bs : List Byte) : (s.setBytes a bs).vt = s.vt := by
  induction bs generalizing s a with
  | nil => rfl
  | cons b bs ih => simp [State.setBytes, ih]
@[simp] theorem State.setBytes_links (s : State) (a : Nat) (bs : List Byte) : (s.setBytes a bs).links = s.links := by
  induction bs generalizing s a with
  | nil => rfl
  | cons b bs ih => simp [State.setBytes, ih]
@[simp] theorem State.setBytes_wins (s : State) (a : Nat) (bs : List Byte) : (s.setBytes a bs).wins = s.wins := by
  induction bs generalizing s a with
  | nil => rfl
  | cons b bs ih => simp [State.setBytes, ih]
@[simp] theorem State.setBytes_thrs (s : State) (a : Nat) (bs : List Byte) : (s.setBytes a bs).thrs = s.thrs := by
  induction bs generalizing s a with
  | nil => rfl
  | cons b bs ih => simp [State.setBytes, ih]
@[simp] theorem State.setBytes_sows (s : State) (a : Nat) (bs : List Byte) : (s.setBytes a bs).sows = s.sows := by
  induction bs generalizing s a with
  | nil => rfl
  | cons b bs ih => simp [State.setBytes, ih]
@[simp] theorem State.setBytes_glns (s : State) (a : Nat) (bs : List Byte) : (s.setBytes a bs).glns = s.glns := by
  induction bs generalizing s a with
  | nil => rfl
  | cons b bs ih => simp [State.setBytes, ih]
@[simp] theorem State.setBytes_col (s : State) (a : Nat) (bs : List Byte) : (s.setBytes a bs).col = s.col := by
  induction bs generalizing s a with
  | nil => rfl
  | cons b bs ih => simp [State.setBytes, ih]
@[simp] theorem State.setBytes_tiers (s : State) (a : Nat) (bs : List Byte) : (s.setBytes a bs).tiers = s.tiers := by
  induction bs generalizing s a with
  | nil => rfl
  | cons b bs ih => simp [State.setBytes, ih]
@[simp] theorem State.setBytes_silo (s : State) (a : Nat) (bs : List Byte) : (s.setBytes a bs).silo = s.silo := by
  induction bs generalizing s a with
  | nil => rfl
  | cons b bs ih => simp [State.setBytes, ih]
@[simp] theorem State.setBytes_model (s : State) (a : Nat) (bs : List Byte) : (s.setBytes a bs).model = s.model := by
  induction bs generalizing s a with
  | nil => rfl
  | cons b bs ih => simp [State.setBytes, ih]
@[simp] theorem State.setBytes_hbms (s : State) (a : Nat) (bs : List Byte) : (s.setBytes a bs).hbms = s.hbms := by
  induction bs generalizing s a with
  | nil => rfl
  | cons b bs ih => simp [State.setBytes, ih]
@[simp] theorem State.setBytes_sec (s : State) (a : Nat) (bs : List Byte) : (s.setBytes a bs).sec = s.sec := by
  induction bs generalizing s a with
  | nil => rfl
  | cons b bs ih => simp [State.setBytes, ih]
@[simp] theorem State.setBytes_cfg (s : State) (a : Nat) (bs : List Byte) : (s.setBytes a bs).cfg = s.cfg := by
  induction bs generalizing s a with
  | nil => rfl
  | cons b bs ih => simp [State.setBytes, ih]
@[simp] theorem State.setBytes_pci (s : State) (a : Nat) (bs : List Byte) : (s.setBytes a bs).pci = s.pci := by
  induction bs generalizing s a with
  | nil => rfl
  | cons b bs ih => simp [State.setBytes, ih]
@[simp] theorem State.setBytes_serv (s : State) (a : Nat) (bs : List Byte) : (s.setBytes a bs).serv = s.serv := by
  induction bs generalizing s a with
  | nil => rfl
  | cons b bs ih => simp [State.setBytes, ih]
@[simp] theorem State.setBytes_tim (s : State) (a : Nat) (bs : List Byte) : (s.setBytes a bs).tim = s.tim := by
  induction bs generalizing s a with
  | nil => rfl
  | cons b bs ih => simp [State.setBytes, ih]
@[simp] theorem State.setBytes_pwr (s : State) (a : Nat) (bs : List Byte) : (s.setBytes a bs).pwr = s.pwr := by
  induction bs generalizing s a with
  | nil => rfl
  | cons b bs ih => simp [State.setBytes, ih]
@[simp] theorem State.setBytes_rel (s : State) (a : Nat) (bs : List Byte) : (s.setBytes a bs).rel = s.rel := by
  induction bs generalizing s a with
  | nil => rfl
  | cons b bs ih => simp [State.setBytes, ih]
@[simp] theorem State.setBytes_mgt (s : State) (a : Nat) (bs : List Byte) : (s.setBytes a bs).mgt = s.mgt := by
  induction bs generalizing s a with
  | nil => rfl
  | cons b bs ih => simp [State.setBytes, ih]

end Sys2Proof.Machine
end

