-- ==== Sys2Proof/Laws/Registers.lean ====
section
/-!
SUPPORT. Registers and their fields: what a read gives after a write, for the field written, for another field of the same
register, and for another register.
-/
namespace Sys2Proof.Machine

/-- A register read after a register write. -/
theorem State.word_setWord (s : State) (a : Nat) (v : Word) (b : Nat) :
    (s.setWord a v).word b = if b = a then v else s.word b := by
  simp only [State.word, State.setWord, Tab.get_set]

@[simp] theorem State.word_setWord_self (s : State) (a : Nat) (v : Word) : (s.setWord a v).word a = v := by
  simp [State.word_setWord]

theorem State.word_setWord_ne (s : State) {a b : Nat} (v : Word) (h : b ≠ a) : (s.setWord a v).word b = s.word b := by
  simp [State.word_setWord, h]

theorem Fld.of_lt (f : Fld) (w : Word) : f.of w < 2 ^ f.len := Nat.mod_lt _ (Nat.two_pow_pos _)

theorem State.get_lt (s : State) (f : Fld) : s.get f < 2 ^ f.len := Fld.of_lt f _

theorem Fld.testBit_of (f : Fld) (w : Word) (i : Nat) : (f.of w).testBit i = (decide (i < f.len) && w.getLsbD (f.lo + i)) := by
  simp [Fld.of, Nat.testBit_mod_two_pow, Nat.testBit_shiftRight, BitVec.testBit_toNat]

theorem Fld.getLsbD_mask (f : Fld) (i : Nat) (h : i < 64) :
    f.mask.getLsbD i = (decide (f.lo ≤ i) && decide (i < f.lo + f.len)) := by
  simp only [Fld.mask, BitVec.getLsbD_shiftLeft, BitVec.getLsbD_ofNat, Nat.testBit_two_pow_sub_one]
  by_cases h1 : i < f.lo
  · have : ¬ f.lo ≤ i := by omega
    simp [h1, this]
  · have h2 : f.lo ≤ i := by omega
    have h3 : i - f.lo < 64 := by omega
    have h4 : (i - f.lo < f.len) ↔ (i < f.lo + f.len) := by omega
    simp [h, h1, h2, h3, h4]

theorem Fld.getLsbD_put (f : Fld) (w : Word) (v i : Nat) (h : i < 64) :
    (f.put w v).getLsbD i = if f.lo ≤ i ∧ i < f.lo + f.len then v.testBit (i - f.lo) else w.getLsbD i := by
  simp only [Fld.put, BitVec.getLsbD_or, BitVec.getLsbD_and, BitVec.getLsbD_not, Fld.getLsbD_mask f i h, h,
    BitVec.getLsbD_shiftLeft, BitVec.getLsbD_ofNat, Nat.testBit_mod_two_pow]
  by_cases h1 : f.lo ≤ i
  · have h3 : i - f.lo < 64 := by omega
    have h5 : ¬ i < f.lo := by omega
    by_cases h2 : i < f.lo + f.len
    · have h4 : i - f.lo < f.len := by omega
      simp [h1, h2, h3, h4]
    · have h4 : ¬ i - f.lo < f.len := by omega
      simp [h2, h4]
  · have h5 : i < f.lo := by omega
    simp [h1, h5]

/-- The field written reads as what was written, kept to its width. -/
theorem Fld.of_put (f : Fld) (w : Word) (v : Nat) (h : f.lo + f.len ≤ 64) : f.of (f.put w v) = v % 2 ^ f.len := by
  apply Nat.eq_of_testBit_eq; intro i
  rw [Fld.testBit_of, Nat.testBit_mod_two_pow]
  by_cases hi : i < f.len
  · rw [Fld.getLsbD_put _ _ _ _ (by omega), if_pos ⟨by omega, by omega⟩]
    simp [hi]
  · simp [hi]

/-- Fields that share no bit with the one written read as before. -/
theorem Fld.of_put_apart (f g : Fld) (w : Word) (v : Nat) (hg : g.lo + g.len ≤ 64)
    (h : f.lo + f.len ≤ g.lo ∨ g.lo + g.len ≤ f.lo) : g.of (f.put w v) = g.of w := by
  apply Nat.eq_of_testBit_eq; intro i
  rw [Fld.testBit_of, Fld.testBit_of]
  by_cases hi : i < g.len
  · rw [Fld.getLsbD_put _ _ _ _ (by omega), if_neg (by omega)]
  · simp [hi]

theorem State.word_set (s : State) (f : Fld) (v : Nat) (b : Nat) :
    (s.set f v).word b = if b = f.addr then f.put (s.word f.addr) v else s.word b := State.word_setWord ..

theorem State.word_set_ne (s : State) (f : Fld) (v : Nat) {b : Nat} (h : b ≠ f.addr) : (s.set f v).word b = s.word b :=
  State.word_setWord_ne s _ h

/-- A field read after it was written (R9). -/
theorem State.get_set_self (s : State) (f : Fld) (v : Nat) (h : f.lo + f.len ≤ 64) : (s.set f v).get f = v % 2 ^ f.len := by
  rw [State.get, State.word_set, if_pos rfl, Fld.of_put _ _ _ h]

/-- A field of another register reads as before. -/
theorem State.get_set_addr (s : State) {f g : Fld} (v : Nat) (h : g.addr ≠ f.addr) : (s.set f v).get g = s.get g := by
  rw [State.get, State.word_set_ne _ _ _ h, State.get]

/-- A field of the same register that shares no bit reads as before. -/
theorem State.get_set_apart (s : State) {f g : Fld} (v : Nat) (hg : g.lo + g.len ≤ 64)
    (h : f.lo + f.len ≤ g.lo ∨ g.lo + g.len ≤ f.lo) : (s.set f v).get g = s.get g := by
  by_cases ha : g.addr = f.addr
  · rw [State.get, State.word_set, if_pos ha, Fld.of_put_apart f g _ _ hg h, State.get, ha]
  · exact State.get_set_addr s v ha

theorem State.get_setWord_addr (s : State) {a : Nat} {g : Fld} (v : Word) (h : g.addr ≠ a) : (s.setWord a v).get g = s.get g := by
  rw [State.get, State.word_setWord_ne _ _ h, State.get]

theorem State.get_setWord_self (s : State) (g : Fld) (v : Word) : (s.setWord g.addr v).get g = g.of v := by
  rw [State.get, State.word_setWord_self]

theorem State.raise_eq (s : State) (f : Fld) : s.raise f = s.set f 1 := rfl

theorem State.count_eq (s : State) (f : Fld) (n : Nat) : s.count f n = s.set f (s.get f + n) := rfl

/-! Fields and registers after updates of the rest of State. -/

@[simp] theorem State.word_setByte (s : State) (a : Nat) (v : Byte) (b : Nat) : (s.setByte a v).word b = s.word b := rfl
@[simp] theorem State.get_setByte (s : State) (a : Nat) (b : Byte) (g : Fld) : (s.setByte a b).get g = s.get g := by simp [State.get]
@[simp] theorem State.word_setBytes (s : State) (a : Nat) (bs : List Byte) (b : Nat) : (s.setBytes a bs).word b = s.word b := by simp [State.word]
@[simp] theorem State.get_setBytes (s : State) (a : Nat) (bs : List Byte) (g : Fld) : (s.setBytes a bs).get g = s.get g := by simp [State.get]
@[simp] theorem State.word_fillRange (s : State) (a n i : Nat) (b : Nat) : (s.fillRange a n i).word b = s.word b := rfl
@[simp] theorem State.get_fillRange (s : State) (a n i : Nat) (g : Fld) : (s.fillRange a n i).get g = s.get g := by simp [State.get]
@[simp] theorem State.word_unknownRange (s : State) (a n : Nat) (b : Nat) : (s.unknownRange a n).word b = s.word b := rfl
@[simp] theorem State.get_unknownRange (s : State) (a n : Nat) (g : Fld) : (s.unknownRange a n).get g = s.get g := by simp [State.get]
@[simp] theorem State.word_setPoison (s : State) (a : Nat) (v : Bool) (b : Nat) : (s.setPoison a v).word b = s.word b := rfl
@[simp] theorem State.get_setPoison (s : State) (a : Nat) (b : Bool) (g : Fld) : (s.setPoison a b).get g = s.get g := by simp [State.get]
@[simp] theorem State.word_setCore (s : State) (p : Nat) (c : CoreHid) (b : Nat) : (s.setCore p c).word b = s.word b := rfl
@[simp] theorem State.get_setCore (s : State) (p : Nat) (c : CoreHid) (g : Fld) : (s.setCore p c).get g = s.get g := by simp [State.get]
@[simp] theorem State.word_setAcc (s : State) (k : Nat) (v : Acc) (b : Nat) : (s.setAcc k v).word b = s.word b := rfl
@[simp] theorem State.get_setAcc (s : State) (k : Nat) (v : Acc) (g : Fld) : (s.setAcc k v).get g = s.get g := by simp [State.get]
@[simp] theorem State.word_drawWord (s : State) (b : Nat) : s.drawWord.2.word b = s.word b := rfl
@[simp] theorem State.word_drawBool (s : State) (b : Nat) : s.drawBool.2.word b = s.word b := rfl

/-- Setting a field leaves another hidden core alone, and reading one back gives it. -/
theorem State.core_setCore (s : State) (p : Nat) (c : CoreHid) (q : Nat) :
    (s.setCore p c).core q = if q = p then c else s.core q := by
  simp only [State.core, State.setCore, Tab.get_set]

@[simp] theorem State.core_setCore_self (s : State) (p : Nat) (c : CoreHid) : (s.setCore p c).core p = c := by
  simp [State.core_setCore]

@[simp] theorem State.core_setWord (s : State) (a : Nat) (v : Word) (p : Nat) : (s.setWord a v).core p = s.core p := rfl
@[simp] theorem State.core_set (s : State) (f : Fld) (v : Nat) (p : Nat) : (s.set f v).core p = s.core p := rfl
@[simp] theorem State.core_raise (s : State) (f : Fld) (p : Nat) : (s.raise f).core p = s.core p := rfl

end Sys2Proof.Machine
end

