-- ==== Sys2Proof/Laws/Memory.lean ====
section
/-!
SUPPORT. HBM and core store: what a byte reads as after a store or a fill, and that every operation over them keeps the
canonical form of the tables.
-/
namespace Sys2Proof.Machine

/-- A byte read after a byte was stored. -/
theorem State.byte_setByte (s : State) (a : Nat) (v : Byte) (b : Nat) :
    (s.setByte a v).byte b = if b = a then v else s.byte b := by
  simp only [State.byte, State.setByte, Tab.get_set]

/-- Storing a run of bytes changes those bytes alone, and each reads as stored. -/
theorem State.byte_setBytes (s : State) (a : Nat) (bs : List Byte) (b : Nat) :
    (s.setBytes a bs).byte b = if a ≤ b ∧ b < a + bs.length then bs.getD (b - a) 0 else s.byte b := by
  induction bs generalizing s a with
  | nil => simp [State.setBytes]
  | cons v bs ih =>
    rw [State.setBytes, ih, State.byte_setByte]
    rcases Nat.lt_trichotomy b a with h | h | h
    · rw [if_neg (by omega), if_neg (by omega), if_neg (by omega)]
    · subst h; rw [if_neg (by omega), if_pos rfl, if_pos ⟨Nat.le_refl _, by simp⟩]; simp
    · by_cases h2 : b < a + 1 + bs.length
      · have e : b - a = (b - (a + 1)) + 1 := by omega
        rw [if_pos ⟨by omega, h2⟩, if_pos ⟨by omega, by simp; omega⟩, e]; simp
      · rw [if_neg (by omega), if_neg (by omega), if_neg (by simp; omega)]

/-- Bytes apart from a run stored read as before. -/
theorem State.byte_setBytes_apart (s : State) (a : Nat) (bs : List Byte) (b : Nat) (h : b < a ∨ a + bs.length ≤ b) :
    (s.setBytes a bs).byte b = s.byte b := by
  rw [State.byte_setBytes, if_neg (by omega)]

/-- The bytes of a number give back what fits in them. -/
theorem ofBytes_toBytes (n v : Nat) : ofBytes (toBytes n v) = v % 256 ^ n := by
  induction n generalizing v with
  | zero => simp [toBytes, ofBytes, Nat.mod_one]
  | succ n ih =>
    rw [toBytes, ofBytes, ih, BitVec.toNat_ofNat, show 256 ^ (n + 1) = 256 * 256 ^ n from Nat.pow_succ', Nat.mod_mul]

@[simp] theorem length_toBytes (n v : Nat) : (toBytes n v).length = n := by
  induction n generalizing v with
  | zero => rfl
  | succ n ih => rw [toBytes, List.length_cons, ih]

/-- Bytes stored read back. -/
theorem State.bytes_setBytes (s : State) (a : Nat) (bs : List Byte) : (s.setBytes a bs).bytes a bs.length = bs := by
  apply List.ext_getElem
  · simp [State.bytes]
  · intro i h _
    have h : i < bs.length := by simpa [State.bytes] using h
    simp only [State.bytes, List.getElem_map, List.getElem_range, State.byte_setBytes]
    rw [if_pos ⟨by omega, by omega⟩]
    simp [h]

/-- Bytes apart from those stored read as before. -/
theorem State.bytes_setBytes_apart (s : State) (a : Nat) (bs : List Byte) (b n : Nat) (h : b + n ≤ a ∨ a + bs.length ≤ b) :
    (s.setBytes a bs).bytes b n = s.bytes b n := by
  apply List.map_congr_left
  intro i hi
  have := List.mem_range.1 hi
  exact State.byte_setBytes_apart s a bs _ (by omega)

/-- A number stored reads back, as far as it fits. -/
theorem State.readLE_writeLE (s : State) (a n v : Nat) : (s.writeLE a n v).readLE a n = v % 256 ^ n := by
  have h := State.bytes_setBytes s a (toBytes n v)
  rw [length_toBytes] at h
  rw [State.readLE, State.writeLE, h, ofBytes_toBytes]

/-- A number apart from the one stored reads as before. -/
theorem State.readLE_writeLE_apart (s : State) (a n v b m : Nat) (h : b + m ≤ a ∨ a + n ≤ b) :
    (s.writeLE a n v).readLE b m = s.readLE b m := by
  rw [State.readLE, State.writeLE, State.bytes_setBytes_apart _ _ _ _ _ (by rwa [length_toBytes]), ← State.readLE]

@[simp] theorem State.byte_setWord (s : State) (a : Nat) (v : Word) (b : Nat) : (s.setWord a v).byte b = s.byte b := rfl
@[simp] theorem State.byte_set (s : State) (f : Fld) (v b : Nat) : (s.set f v).byte b = s.byte b := rfl
@[simp] theorem State.byte_setCore (s : State) (p : Nat) (c : CoreHid) (b : Nat) : (s.setCore p c).byte b = s.byte b := rfl
@[simp] theorem State.byte_setPoison (s : State) (a : Nat) (v : Bool) (b : Nat) : (s.setPoison a v).byte b = s.byte b := rfl
@[simp] theorem State.byte_setAcc (s : State) (k : Nat) (v : Acc) (b : Nat) : (s.setAcc k v).byte b = s.byte b := rfl

/-- A poison mark read after one was set: a word's mark is one for its eight bytes (R69, R296). -/
theorem State.poisoned_setPoison (s : State) (a : Nat) (v : Bool) (b : Nat) :
    (s.setPoison a v).poisoned b = if b / 8 = a / 8 then v else s.poisoned b := by
  simp only [State.poisoned, State.setPoison, Tab.get_set]

/-- An accumulator read after one was replaced. -/
theorem State.accs_setAcc (s : State) (k : Nat) (v : Acc) (j : Nat) :
    Tab.get acc0 (s.setAcc k v).accs j = if j = k then v else Tab.get acc0 s.accs j := by
  simp only [State.setAcc, Tab.get_set]

/-! What unlisted memory reads as after a fill. -/

/-- Whether a range of `fills` holds an address. -/
def fillHas (a : Nat) (f : Nat × Nat × Nat) : Bool := decide (f.1 ≤ a) && decide (a < f.1 + f.2.1)

theorem memDef_cons_in {a : Nat} {f : Nat × Nat × Nat} (h : fillHas a f = true) (t : List (Nat × Nat × Nat)) :
    memDef (f :: t) a = if f.2.2 = 0 then 0 else Config.freeMem f.2.2 a := by
  unfold fillHas at h; simp [memDef, h]

theorem memDef_cons_out {a : Nat} {f : Nat × Nat × Nat} (h : fillHas a f = false) (t : List (Nat × Nat × Nat)) :
    memDef (f :: t) a = memDef t a := by
  unfold fillHas at h; simp [memDef, h]

theorem memDef_filter {g : Nat × Nat × Nat → Bool} {a : Nat} {t : List (Nat × Nat × Nat)}
    (h : ∀ f ∈ t, g f = false → fillHas a f = false) : memDef (t.filter g) a = memDef t a := by
  induction t with
  | nil => rfl
  | cons f t ih =>
    have ih' := ih (fun f' hf => h f' (List.mem_cons_of_mem _ hf))
    by_cases hg : g f = true
    · rw [List.filter_cons_of_pos hg]
      by_cases hf : fillHas a f = true
      · rw [memDef_cons_in hf, memDef_cons_in hf]
      · rw [memDef_cons_out (by simpa using hf), memDef_cons_out (by simpa using hf), ih']
    · rw [List.filter_cons_of_neg hg, memDef_cons_out (h f (List.mem_cons_self ..) (by simpa using hg)), ih']

theorem memDef_none {a : Nat} {t : List (Nat × Nat × Nat)} (h : ∀ f ∈ t, fillHas a f = false) : memDef t a = 0 := by
  induction t with
  | nil => rfl
  | cons f t ih =>
    rw [memDef_cons_out (h f (List.mem_cons_self ..)), ih (fun f' hf => h f' (List.mem_cons_of_mem _ hf))]

/-- After a fill an address of the range holds the fill's content by default, and any other what it did. -/
theorem memDef_fillRange (s : State) (a n i b : Nat) :
    memDef (s.fillRange a n i).fills b =
      if a ≤ b ∧ b < a + n then (if i = 0 then 0 else Config.freeMem i b) else memDef s.fills b := by
  have hrest : ¬ (a ≤ b ∧ b < a + n) →
      memDef (s.fills.filter (fun f => !(decide (a ≤ f.1) && decide (f.1 + f.2.1 ≤ a + n)))) b = memDef s.fills b := by
    intro hb
    refine memDef_filter fun f _ hf => ?_
    simp only [fillHas, Bool.not_eq_false', Bool.and_eq_true, decide_eq_true_eq, Bool.and_eq_false_iff,
      decide_eq_false_iff_not] at hf ⊢
    omega
  simp only [State.fillRange]
  split
  next hc =>
    rw [Bool.and_eq_true, decide_eq_true_eq] at hc
    by_cases hb : a ≤ b ∧ b < a + n
    · rw [if_pos hb, if_pos hc.1]
      refine memDef_none fun f hf => ?_
      have := List.all_eq_true.1 hc.2 f hf
      simp only [Bool.or_eq_true, decide_eq_true_eq, fillHas, Bool.and_eq_false_iff, decide_eq_false_iff_not] at this ⊢
      omega
    · rw [if_neg hb, hrest hb]
  next =>
    by_cases hb : a ≤ b ∧ b < a + n
    · rw [if_pos hb, memDef_cons_in]; simp only [fillHas, Bool.and_eq_true, decide_eq_true_eq]; exact hb
    · rw [if_neg hb, memDef_cons_out, hrest hb]
      simp only [fillHas, Bool.and_eq_false_iff, decide_eq_false_iff_not]; omega

theorem Tab.get_filter_keep {α : Type} (d : Nat → α) (g : Nat × α → Bool) (t : Tab α) (j : Nat) (h : ∀ p ∈ t, p.1 = j → g p = true) :
    Tab.get d (t.filter g) j = Tab.get d t j := by
  induction t with
  | nil => rfl
  | cons p t ih =>
    obtain ⟨k, v⟩ := p
    have ih' := ih (fun q hq => h q (List.mem_cons_of_mem _ hq))
    by_cases hj : j = k
    · subst hj; rw [List.filter_cons_of_pos (h _ (List.mem_cons_self ..) rfl)]; simp [Tab.get]
    · by_cases hg : g (k, v) = true
      · rw [List.filter_cons_of_pos hg]; simp only [Tab.get, if_neg hj, ih']
      · rw [List.filter_cons_of_neg hg]; simp only [Tab.get, if_neg hj, ih']

theorem Tab.get_filter_drop {α : Type} (d : Nat → α) (g : Nat × α → Bool) (t : Tab α) (j : Nat) (h : ∀ p ∈ t, p.1 = j → g p = false) :
    Tab.get d (t.filter g) j = d j := by
  induction t with
  | nil => rfl
  | cons p t ih =>
    obtain ⟨k, v⟩ := p
    have ih' := ih (fun q hq => h q (List.mem_cons_of_mem _ hq))
    by_cases hj : j = k
    · subst hj; rw [List.filter_cons_of_neg (by simp [h _ (List.mem_cons_self ..) rfl]), ih']
    · by_cases hg : g (k, v) = true
      · rw [List.filter_cons_of_pos hg]; simp only [Tab.get, if_neg hj, ih']
      · rw [List.filter_cons_of_neg hg, ih']

theorem Tab.get_default {α : Type} {d e : Nat → α} {j : Nat} (h : d j = e j) (t : Tab α) : Tab.get d t j = Tab.get e t j := by
  induction t with
  | nil => exact h
  | cons p t ih => simp only [Tab.get, ih]

/-- A byte after a fill: the fill's content inside the range, and what it held outside. -/
theorem State.byte_fillRange (s : State) (a n i b : Nat) :
    (s.fillRange a n i).byte b = if a ≤ b ∧ b < a + n then (if i = 0 then 0 else Config.freeMem i b) else s.byte b := by
  have hd := memDef_fillRange s a n i b
  have hm : (s.fillRange a n i).mem = s.mem.filter (fun p => decide (p.1 < a) || decide (a + n ≤ p.1)) := rfl
  unfold State.byte; rw [hm]
  by_cases hb : a ≤ b ∧ b < a + n
  · rw [if_pos hb] at hd ⊢
    rw [Tab.get_filter_drop _ _ _ _ (by
      intro p _ hp; simp only [Bool.or_eq_false_iff, decide_eq_false_iff_not]; omega), hd]
  · rw [if_neg hb] at hd ⊢
    rw [Tab.get_filter_keep _ _ _ _ (by
      intro p _ hp; simp only [Bool.or_eq_true, decide_eq_true_eq]; omega)]
    exact Tab.get_default hd _

/-! The canonical form of every table (Tab.wf). -/

theorem State.canon_reset : State.reset.Canon := ⟨rfl, rfl, rfl, rfl, rfl⟩

theorem State.canon_setWord {s : State} (h : s.Canon) (a : Nat) (v : Word) : (s.setWord a v).Canon :=
  ⟨Tab.wf_set _ h.regs a v, h.mem, h.poison, h.accs, h.cores⟩

theorem State.canon_set {s : State} (h : s.Canon) (f : Fld) (v : Nat) : (s.set f v).Canon := State.canon_setWord h _ _

theorem State.canon_setByte {s : State} (h : s.Canon) (a : Nat) (b : Byte) : (s.setByte a b).Canon :=
  ⟨h.regs, Tab.wf_set _ h.mem a b, h.poison, h.accs, h.cores⟩

theorem State.canon_setBytes {s : State} (h : s.Canon) (a : Nat) (bs : List Byte) : (s.setBytes a bs).Canon := by
  induction bs generalizing s a with
  | nil => exact h
  | cons b bs ih => exact ih (State.canon_setByte h a b) (a + 1)

theorem State.canon_setPoison {s : State} (h : s.Canon) (a : Nat) (b : Bool) : (s.setPoison a b).Canon :=
  ⟨h.regs, h.mem, Tab.wf_set _ h.poison _ b, h.accs, h.cores⟩

theorem State.canon_setAcc {s : State} (h : s.Canon) (k : Nat) (v : Acc) : (s.setAcc k v).Canon :=
  ⟨h.regs, h.mem, h.poison, Tab.wf_set _ h.accs k v, h.cores⟩

theorem State.canon_setCore {s : State} (h : s.Canon) (p : Nat) (c : CoreHid) : (s.setCore p c).Canon :=
  ⟨h.regs, h.mem, h.poison, h.accs, Tab.wf_set _ h.cores p c⟩

theorem State.canon_fillRange {s : State} (h : s.Canon) (a n i : Nat) : (s.fillRange a n i).Canon := by
  refine ⟨h.regs, ?_, h.poison, h.accs, h.cores⟩
  have hm : (s.fillRange a n i).mem = s.mem.filter (fun p => decide (p.1 < a) || decide (a + n ≤ p.1)) := rfl
  unfold Memory.wf; rw [hm]
  refine Tab.wf_congr ?_ (Tab.wf_filter _ _ h.mem)
  intro p hp
  have h2 := (List.mem_filter.1 hp).2
  simp only [Bool.or_eq_true, decide_eq_true_eq] at h2
  rw [memDef_fillRange, if_neg (by omega)]

theorem State.canon_unknownRange {s : State} (h : s.Canon) (a n : Nat) : (s.unknownRange a n).Canon := by
  have h2 := State.canon_fillRange h a n (s.free + 1)
  exact ⟨h2.regs, h2.mem, h2.poison, h2.accs, h2.cores⟩

end Sys2Proof.Machine
end

