-- ==== Sys2Proof/Laws/Keeps.lean ====
section
/-!
SUPPORT. The relation that every operation of the model keeps between the state a command starts from and the states it passes
through: canonical tables stay canonical, the queue is left alone, and so is every part outside a list. One lemma for each way in
which the model's definitions build a state; the lemmas for each operation stand in the files named after its own.
-/
namespace Sys2Proof.Machine

/-- What every operation keeps, for the parts it may change. -/
structure Keeps (ps : List Part) (s t : State) : Prop where
  canon : s.Canon → t.Canon
  only : State.onlyIn ps s t

variable {ps : List Part} {s u : State}

theorem Keeps.refl (ps : List Part) (s : State) : Keeps ps s s :=
  ⟨id, rfl, fun q _ => by cases q <;> first | exact rfl | exact ⟨rfl, rfl⟩⟩

theorem Keeps.ite {c : Prop} [Decidable c] {a b : State} (ha : Keeps ps s a) (hb : Keeps ps s b) :
    Keeps ps s (if c then a else b) := by split <;> assumption

theorem Keeps.foldl {α : Type} {l : List α} {f : State → α → State} {a : State} (h : Keeps ps s a)
    (hf : ∀ t x, Keeps ps s t → Keeps ps s (f t x)) : Keeps ps s (l.foldl f a) := by
  induction l generalizing a with
  | nil => exact h
  | cons x l ih => exact ih (hf a x h)

theorem Keeps.foldlP {α β : Type} {l : List α} {f : β × State → α → β × State} {a : β × State} (h : Keeps ps s a.2)
    (hf : ∀ t x, Keeps ps s t.2 → Keeps ps s (f t x).2) : Keeps ps s (l.foldl f a).2 := by
  induction l generalizing a with
  | nil => exact h
  | cons x l ih => exact ih (hf a x h)

theorem Keeps.gen (ps : List Part) (s v : State) {g : Prop} (hv : Keeps ps s v) (hb : Keeps ps s v → g) : g := hb hv

theorem Keeps.ite2 {α : Type} {c : Prop} [Decidable c] {a b : α × State} (ha : Keeps ps s a.2) (hb : Keeps ps s b.2) :
    Keeps ps s (if c then a else b).2 := by split <;> assumption

theorem Keeps.ite3 {α β : Type} {c : Prop} [Decidable c] {a b : α × β × State} (ha : Keeps ps s a.2.2) (hb : Keeps ps s b.2.2) :
    Keeps ps s (if c then a else b).2.2 := by split <;> assumption

theorem Keeps.of_eq2 {α : Type} {p : α × State} {a : α} {t : State} (e : p = (a, t)) (h : Keeps ps s p.2) : Keeps ps s t := by
  subst e; exact h

theorem Keeps.of_eq3 {α β : Type} {p : α × β × State} {a : α} {b : β} {t : State} (e : p = (a, b, t)) (h : Keeps ps s p.2.2) :
    Keeps ps s t := by
  subst e; exact h

/-- An operation that answers a state or none keeps it where it answers one. -/
def KeepsO (ps : List Part) (s : State) (o : Option State) : Prop := ∀ t, o = some t → Keeps ps s t

/-- The same for an answer with more before the state. -/
def KeepsO2 {α : Type} (ps : List Part) (s : State) (o : Option (α × State)) : Prop := ∀ r, o = some r → Keeps ps s r.2

/-- The same for an answer with two things before the state. -/
def KeepsO3 {α β : Type} (ps : List Part) (s : State) (o : Option (α × β × State)) : Prop := ∀ r, o = some r → Keeps ps s r.2.2

theorem Keeps.genO (ps : List Part) (s : State) (o : Option State) {g : Prop} (hv : KeepsO ps s o) (hb : KeepsO ps s o → g) : g :=
  hb hv

theorem Keeps.genO2 {α : Type} (ps : List Part) (s : State) (o : Option (α × State)) {g : Prop} (hv : KeepsO2 ps s o)
    (hb : KeepsO2 ps s o → g) : g := hb hv

theorem Keeps.of_some {o : Option State} {t : State} (e : o = some t) (h : KeepsO ps s o) : Keeps ps s t := h t e

theorem Keeps.of_some2 {α : Type} {o : Option (α × State)} {a : α} {t : State} (e : o = some (a, t)) (h : KeepsO2 ps s o) :
    Keeps ps s t := h _ e

theorem Keeps.of_some3 {α β : Type} {o : Option (α × β × State)} {a : α} {b : β} {t : State} (e : o = some (a, b, t))
    (h : KeepsO3 ps s o) : Keeps ps s t := h _ e

theorem Keeps.of_some2r {α : Type} {o : Option (α × State)} {r : α × State} (e : o = some r) (h : KeepsO2 ps s o) :
    Keeps ps s r.2 := h r e

theorem KeepsO.none : KeepsO ps s none := fun _ e => by cases e

theorem KeepsO.some {a : State} (h : Keeps ps s a) : KeepsO ps s (some a) := fun _ e => by cases e; exact h

theorem KeepsO.ite {c : Prop} [Decidable c] {a b : Option State} (ha : KeepsO ps s a) (hb : KeepsO ps s b) :
    KeepsO ps s (if c then a else b) := by split <;> assumption

theorem KeepsO2.none {α : Type} : KeepsO2 (α := α) ps s none := fun _ e => by cases e

theorem KeepsO2.some {α : Type} {r : α × State} (h : Keeps ps s r.2) : KeepsO2 ps s (some r) := fun _ e => by
  obtain rfl := Option.some.inj e; exact h

theorem KeepsO2.ite {α : Type} {c : Prop} [Decidable c] {a b : Option (α × State)} (ha : KeepsO2 ps s a) (hb : KeepsO2 ps s b) :
    KeepsO2 ps s (if c then a else b) := by split <;> assumption

theorem Keeps.live {f : State → State} (h : Keeps ps s u) (hf : Keeps ps s (f u)) : Keeps ps s (u.live f) := by
  unfold State.live; exact Keeps.ite hf h

/-- A state that differs in the hidden parts alone, each of them listed. -/
theorem Keeps.mk' {a : State}
    {xpending : List Instr} {xfc : Nat} {xfree : Nat} {xregs : Tab Word} {xmem : Tab Byte} {xfills : List (Nat × Nat × Nat)}
    {xpoison : Tab Bool} {xaccs : Tab Acc} {xcores : Tab CoreHid} {xcoal : List CoalEntry} {xplots : List PlotCfg} {xsubst :
    Nat × Nat} {xvt : VtState} {xlinks : Tab LinkHid} {xwins : Tab WinHid} {xthrs : Tab ThrHid} {xsows : Tab SowHid} {xglns
    : Tab GlnHid} {xcol : ColState} {xtiers : List TierCmd} {xsilo : SiloState} {xmodel : ModelState} {xhbms : Tab HbmHid}
    {xsec : SecState} {xcfg : CfgState} {xpci : PciState} {xserv : ServState} {xtim : AlmState} {xpwr : PwrState} {xrel :
    RelState} {xmgt : MgtState}
    (h : Keeps ps s a)
    (hpending : xpending = a.pending) (hregs : xregs = a.regs) (hmem : xmem = a.mem) (hfills : xfills = a.fills) (hpoison : xpoison = a.poison) (haccs : xaccs = a.accs) (hcores : xcores = a.cores)
    (hq : ∀ q, q ∉ ps → q.same a (State.mk xpending xfc xfree xregs xmem xfills xpoison xaccs xcores xcoal xplots xsubst xvt xlinks xwins xthrs
      xsows xglns xcol xtiers xsilo xmodel xhbms xsec xcfg xpci xserv xtim xpwr xrel xmgt)) :
    Keeps ps s (State.mk xpending xfc xfree xregs xmem xfills xpoison xaccs xcores xcoal xplots xsubst xvt xlinks xwins xthrs
      xsows xglns xcol xtiers xsilo xmodel xhbms xsec xcfg xpci xserv xtim xpwr xrel xmgt) := by
  refine ⟨fun hs => ?_, hpending.trans h.only.1, fun q hn => ?_⟩
  · have hc := h.canon hs
    subst hregs hmem hfills hpoison haccs hcores
    exact ⟨hc.regs, hc.mem, hc.poison, hc.accs, hc.cores⟩
  · have a1 := h.only.2 q hn
    have a2 := hq q hn
    cases q <;> first
      | exact Eq.trans a2 a1
      | exact ⟨a2.1.trans a1.1, a2.2.trans a1.2⟩

/-- A state whose tables stay canonical and that differs in the listed parts alone. -/
theorem Keeps.of {a t : State} (h : Keeps ps s a) (hc : a.Canon → t.Canon) (hp : t.pending = a.pending)
    (hq : ∀ q, q ∉ ps → q.same a t) : Keeps ps s t := by
  refine ⟨fun hs => hc (h.canon hs), hp.trans h.only.1, fun q hn => ?_⟩
  have a1 := h.only.2 q hn
  have a2 := hq q hn
  cases q <;> first
    | exact Eq.trans a2 a1
    | exact ⟨a2.1.trans a1.1, a2.2.trans a1.2⟩

/-- Taking registers back to their reset values: they leave the table. -/
theorem Keeps.filterRegs {a : State} (g : Nat × Word → Bool) (h : Keeps ps s a) (hr : Part.regs ∈ ps) :
    Keeps ps s { a with regs := a.regs.filter g } :=
  Keeps.of h (fun c => ⟨Tab.wf_filter _ g c.regs, c.mem, c.poison, c.accs, c.cores⟩) rfl
    (fun q hn => by cases q <;> first | exact absurd hr hn | exact rfl | exact ⟨rfl, rfl⟩)

/-- Dropping poison marks. -/
theorem Keeps.filterPoison {a : State} (g : Nat × Bool → Bool) (h : Keeps ps s a) (hr : Part.poison ∈ ps) :
    Keeps ps s { a with poison := a.poison.filter g } :=
  Keeps.of h (fun c => ⟨c.regs, c.mem, Tab.wf_filter _ g c.poison, c.accs, c.cores⟩) rfl
    (fun q hn => by cases q <;> first | exact absurd hr hn | exact rfl | exact ⟨rfl, rfl⟩)

/-- Emptying accumulators. -/
theorem Keeps.filterAccs {a : State} (g : Nat × Acc → Bool) (h : Keeps ps s a) (hr : Part.accs ∈ ps) :
    Keeps ps s { a with accs := a.accs.filter g } :=
  Keeps.of h (fun c => ⟨c.regs, c.mem, c.poison, Tab.wf_filter _ g c.accs, c.cores⟩) rfl
    (fun q hn => by cases q <;> first | exact absurd hr hn | exact rfl | exact ⟨rfl, rfl⟩)

/-- A core's hidden state goes back to that of a core with nothing in flight. -/
theorem Keeps.eraseCore {a : State} (p : Nat) (h : Keeps ps s a) (hr : Part.cores ∈ ps) :
    Keeps ps s { a with cores := Tab.erase p a.cores } :=
  Keeps.of h (fun c => ⟨c.regs, c.mem, c.poison, c.accs, Tab.wf_filter _ _ c.cores⟩) rfl
    (fun q hn => by cases q <;> first | exact absurd hr hn | exact rfl | exact ⟨rfl, rfl⟩)

/-- Every accumulator becomes empty. -/
theorem Keeps.clearAccs {a : State} (h : Keeps ps s a) (hr : Part.accs ∈ ps) : Keeps ps s { a with accs := [] } :=
  Keeps.of h (fun c => ⟨c.regs, c.mem, c.poison, rfl, c.cores⟩) rfl
    (fun q hn => by cases q <;> first | exact absurd hr hn | exact rfl | exact ⟨rfl, rfl⟩)

/-- Every core's hidden state goes back to that of a core with nothing in flight. -/
theorem Keeps.clearCores {a : State} (h : Keeps ps s a) (hr : Part.cores ∈ ps) : Keeps ps s { a with cores := [] } :=
  Keeps.of h (fun c => ⟨c.regs, c.mem, c.poison, c.accs, rfl⟩) rfl
    (fun q hn => by cases q <;> first | exact absurd hr hn | exact rfl | exact ⟨rfl, rfl⟩)

theorem Keeps.setWord (h : Keeps ps s u) (hr : Part.regs ∈ ps) (a : Nat) (v : Word) : Keeps ps s (u.setWord a v) := by
  refine ⟨fun hs => State.canon_setWord (h.canon hs) a v, h.only.1, fun q hn => ?_⟩
  have a1 := h.only.2 q hn
  cases q <;> first
    | exact absurd hr hn
    | exact a1

theorem Keeps.setByte (h : Keeps ps s u) (hr : Part.mem ∈ ps) (a : Nat) (v : Byte) : Keeps ps s (u.setByte a v) := by
  refine ⟨fun hs => State.canon_setByte (h.canon hs) a v, h.only.1, fun q hn => ?_⟩
  have a1 := h.only.2 q hn
  cases q <;> first
    | exact absurd hr hn
    | exact a1

theorem Keeps.fillRange (h : Keeps ps s u) (hr : Part.mem ∈ ps) (a n i : Nat) : Keeps ps s (u.fillRange a n i) := by
  refine ⟨fun hs => State.canon_fillRange (h.canon hs) a n i, h.only.1, fun q hn => ?_⟩
  have a1 := h.only.2 q hn
  cases q <;> first
    | exact absurd hr hn
    | exact a1

theorem Keeps.setPoison (h : Keeps ps s u) (hr : Part.poison ∈ ps) (a : Nat) (v : Bool) : Keeps ps s (u.setPoison a v) := by
  refine ⟨fun hs => State.canon_setPoison (h.canon hs) a v, h.only.1, fun q hn => ?_⟩
  have a1 := h.only.2 q hn
  cases q <;> first
    | exact absurd hr hn
    | exact a1

theorem Keeps.setAcc (h : Keeps ps s u) (hr : Part.accs ∈ ps) (k : Nat) (v : Acc) : Keeps ps s (u.setAcc k v) := by
  refine ⟨fun hs => State.canon_setAcc (h.canon hs) k v, h.only.1, fun q hn => ?_⟩
  have a1 := h.only.2 q hn
  cases q <;> first
    | exact absurd hr hn
    | exact a1

theorem Keeps.setCore (h : Keeps ps s u) (hr : Part.cores ∈ ps) (p : Nat) (c : CoreHid) : Keeps ps s (u.setCore p c) := by
  refine ⟨fun hs => State.canon_setCore (h.canon hs) p c, h.only.1, fun q hn => ?_⟩
  have a1 := h.only.2 q hn
  cases q <;> first
    | exact absurd hr hn
    | exact a1

end Sys2Proof.Machine
end

