-- ==== Sys2Proof/Laws/KeepsOps.lean ====
section
/-!
SUPPORT. What each operation of Machine/Ops.lean keeps (Laws/Keeps.lean), and the parts of State it may change.
-/
namespace Sys2Proof.Machine

set_option linter.unreachableTactic false
set_option linter.unusedTactic false
set_option linter.tactic.unusedName false

variable {ps : List Part} {s u : State}

theorem State.set_keeps (f : Fld) (v : Nat) (h : Keeps ps s u) (hregs : Part.regs ∈ ps) :
    Keeps ps s (State.set u f v) := by
  unfold State.set
  repeat' first
    | with_reducible assumption
    | with_reducible apply Keeps.setWord

theorem State.raise_keeps (f : Fld) (h : Keeps ps s u) (hregs : Part.regs ∈ ps) :
    Keeps ps s (State.raise u f) := by
  unfold State.raise
  repeat' first
    | with_reducible assumption
    | with_reducible apply State.set_keeps

theorem State.count_keeps (f : Fld) (n : Nat) (h : Keeps ps s u) (hregs : Part.regs ∈ ps) :
    Keeps ps s (State.count u f n) := by
  unfold State.count
  repeat' first
    | with_reducible assumption
    | with_reducible apply State.set_keeps

theorem State.countSat_keeps (f : Fld) (n : Nat) (h : Keeps ps s u) (hregs : Part.regs ∈ ps) :
    Keeps ps s (State.countSat u f n) := by
  unfold State.countSat
  repeat' first
    | with_reducible assumption
    | with_reducible apply State.set_keeps

theorem State.setBytes_keeps (a : Nat) (x2 : List Byte) (h : Keeps ps s u) (hmem : Part.mem ∈ ps) :
    Keeps ps s (State.setBytes u a x2) := by
  induction x2 generalizing u a <;> unfold State.setBytes
  all_goals repeat' first
    | (with_reducible apply_assumption)
    | with_reducible apply Keeps.setByte

theorem State.writeLE_keeps (a : Nat) (n : Nat) (v : Nat) (h : Keeps ps s u) (hmem : Part.mem ∈ ps) :
    Keeps ps s (State.writeLE u a n v) := by
  unfold State.writeLE
  repeat' first
    | with_reducible assumption
    | with_reducible apply State.setBytes_keeps

theorem State.unknownRange_keeps (a : Nat) (n : Nat) (h : Keeps ps s u) (hfree : Part.free ∈ ps) (hmem : Part.mem ∈ ps) :
    Keeps ps s (State.unknownRange u a n) := by
  unfold State.unknownRange
  repeat' first
    | with_reducible assumption
    | with_reducible apply Keeps.fillRange
    | dsimp only
    | (conv => (arg 3; arg 29)
       refine Keeps.mk' ?_ rfl rfl rfl rfl rfl rfl rfl
        (fun q hn => by cases q <;> first | exact rfl | exact ⟨rfl, rfl⟩ | exact absurd (by assumption) hn))

theorem State.drawWord_keeps (h : Keeps ps s u) (hfree : Part.free ∈ ps) :
    Keeps ps s (State.drawWord u).2 := by
  unfold State.drawWord
  repeat' first
    | with_reducible assumption
    | dsimp only
    | (conv => (arg 3; arg 29)
       refine Keeps.mk' ?_ rfl rfl rfl rfl rfl rfl rfl
        (fun q hn => by cases q <;> first | exact rfl | exact ⟨rfl, rfl⟩ | exact absurd (by assumption) hn))

theorem State.drawBool_keeps (h : Keeps ps s u) (hfree : Part.free ∈ ps) :
    Keeps ps s (State.drawBool u).2 := by
  unfold State.drawBool
  repeat' first
    | with_reducible assumption
    | dsimp only
    | (conv => (arg 3; arg 29)
       refine Keeps.mk' ?_ rfl rfl rfl rfl rfl rfl rfl
        (fun q hn => by cases q <;> first | exact rfl | exact ⟨rfl, rfl⟩ | exact absurd (by assumption) hn))

theorem State.putRecord_keeps (a : Nat) (r : Rec) (alm : Nat) (seq : Nat) (h : Keeps ps s u) (hregs : Part.regs ∈ ps) :
    Keeps ps s (State.putRecord u a r alm seq) := by
  unfold State.putRecord
  repeat' first
    | with_reducible assumption
    | with_reducible apply Keeps.setWord

theorem State.bbWriteAt_keeps (r : Rec) (alm : Nat) (h : Keeps ps s u) (hregs : Part.regs ∈ ps) :
    Keeps ps s (State.bbWriteAt u r alm) := by
  unfold State.bbWriteAt
  repeat' first
    | with_reducible assumption
    | with_reducible apply State.countSat_keeps
    | with_reducible apply State.putRecord_keeps
    | with_reducible apply State.set_keeps
    | split

theorem State.bbWrite_keeps (r : Rec) (h : Keeps ps s u) (hregs : Part.regs ∈ ps) :
    Keeps ps s (State.bbWrite u r) := by
  unfold State.bbWrite
  repeat' first
    | with_reducible assumption
    | with_reducible apply State.bbWriteAt_keeps

theorem State.bbBump_keeps (seq : Nat) (h : Keeps ps s u) (hregs : Part.regs ∈ ps) :
    Keeps ps s (State.bbBump u seq) := by
  unfold State.bbBump
  repeat' first
    | with_reducible assumption
    | with_reducible apply Keeps.setWord

theorem State.report_keeps (r : Rec) (h : Keeps ps s u) (hregs : Part.regs ∈ ps) (hcoal : Part.coal ∈ ps) :
    Keeps ps s (State.report u r) := by
  unfold State.report
  repeat' first
    | with_reducible assumption
    | with_reducible apply State.bbBump_keeps
    | with_reducible apply State.bbWrite_keeps
    | with_reducible apply State.countSat_keeps
    | split
    | dsimp only
    | (conv => (arg 3; arg 29)
       refine Keeps.mk' ?_ rfl rfl rfl rfl rfl rfl rfl
        (fun q hn => by cases q <;> first | exact rfl | exact ⟨rfl, rfl⟩ | exact absurd (by assumption) hn))

theorem State.bbFreeze_keeps (die : Nat) (sub : Nat) (h : Keeps ps s u) (hregs : Part.regs ∈ ps) (hsilo : Part.silo ∈ ps) :
    Keeps ps s (State.bbFreeze u die sub) := by
  unfold State.bbFreeze
  repeat' first
    | with_reducible assumption
    | with_reducible apply State.bbWrite_keeps
    | with_reducible apply State.set_keeps
    | split
    | dsimp only
    | (conv => (arg 3; arg 29)
       refine Keeps.mk' ?_ rfl rfl rfl rfl rfl rfl rfl
        (fun q hn => by cases q <;> first | exact rfl | exact ⟨rfl, rfl⟩ | exact absurd (by assumption) hn))

theorem State.faultRecord_keeps (a : Nat) (r : Rec) (h : Keeps ps s u) (hregs : Part.regs ∈ ps) :
    Keeps ps s (State.faultRecord u a r) := by
  unfold State.faultRecord
  repeat' first
    | with_reducible assumption
    | with_reducible apply State.bbWrite_keeps
    | with_reducible apply State.putRecord_keeps
    | with_reducible apply Keeps.setWord
    | with_reducible apply Keeps.ite

end Sys2Proof.Machine
end

