-- ==== Sys2Proof/Laws/Records.lean ====
section
/-!
SUPPORT. What writing a record changes: the black box's own registers, and the first-fault record of the unit.
-/
namespace Sys2Proof.Machine

theorem State.word_putRecord {s : State} {b : Nat} (a : Nat) (r : Rec) (alm seq : Nat)
    (h : b ≠ a ∧ b ≠ a + 8 ∧ b ≠ a + 16 ∧ b ≠ a + 24) : (s.putRecord a r alm seq).word b = s.word b := by
  unfold State.putRecord
  rw [State.word_setWord_ne _ _ h.2.2.2, State.word_setWord_ne _ _ h.2.2.1, State.word_setWord_ne _ _ h.2.1,
    State.word_setWord_ne _ _ h.1]

/-- Where black-box entries lie. -/
theorem bbEntry_in (n : Nat) : mgtBase + 0x110000 ≤ bbEntry (n % 4096) ∧ bbEntry (n % 4096) + 32 ≤ mgtBase + 0x130000 := by
  unfold bbEntry; omega

theorem bbReg_false {a : Nat} (h : bbReg a = false) :
    a ≠ mgtBase + 0x103028 ∧ a ≠ mgtBase + 0x103030 ∧ (a < mgtBase + 0x110000 ∨ mgtBase + 0x130000 ≤ a) := by
  simp only [bbReg, Bool.or_eq_false_iff, beq_eq_false_iff_ne, Bool.and_eq_false_iff, decide_eq_false_iff_not] at h
  omega

/-- Writing a black-box record leaves every register outside the box alone. -/
theorem State.word_bbWriteAt {s : State} {a : Nat} (r : Rec) (alm : Nat) (h : bbReg a = false) :
    (s.bbWriteAt r alm).word a = s.word a := by
  have hb := bbReg_false h
  unfold State.bbWriteAt
  split
  · exact State.word_set_ne _ _ _ hb.2.1
  · have := bbEntry_in (s.get MGT_BB_SEQ + 1 - 1)
    dsimp only
    rw [State.word_putRecord _ _ _ _ (by omega)]
    exact State.word_set_ne _ _ _ hb.2.1

theorem State.word_bbWrite {s : State} {a : Nat} (r : Rec) (h : bbReg a = false) : (s.bbWrite r).word a = s.word a :=
  State.word_bbWriteAt r _ h

theorem State.word_bbBump {s : State} {a : Nat} (n : Nat) (h : bbReg a = false) : (s.bbBump n).word a = s.word a := by
  have hb := bbReg_false h
  have := bbEntry_in (n - 1)
  unfold State.bbBump
  dsimp only
  rw [State.word_setWord_ne _ _ (by omega), State.word_setWord_ne _ _ (by omega)]

/-- A coalesced report leaves every register outside the box alone. -/
theorem State.word_report {s : State} {a : Nat} (r : Rec) (h : bbReg a = false) : (s.report r).word a = s.word a := by
  have hb := bbReg_false h
  have hw : ∀ (t : State) (c : List CoalEntry), { t with coal := c }.word a = t.word a := fun _ _ => rfl
  unfold State.report
  extract_lets now live hit seq rest
  by_cases hf : s.flag MGT_BB_FROZEN = true
  · rw [if_pos hf]; exact State.word_bbWrite r h
  rw [if_neg hf]
  cases hit with
  | some e =>
    dsimp only
    by_cases h2 : seq < e.seq + 4096
    · rw [if_pos h2]; exact (hw _ _).trans (State.word_bbBump _ h)
    · rw [if_neg h2]; exact (hw _ _).trans (State.word_bbWrite r h)
  | none =>
    dsimp only
    by_cases h2 : live.length < 256
    · rw [if_pos h2]; exact (hw _ _).trans (State.word_bbWrite r h)
    · rw [if_neg h2]; exact (hw _ _).trans ((State.word_set_ne _ _ _ hb.1).trans (State.word_bbWrite r h))

/-- A first-fault record changes its own four words and the box. -/
theorem State.word_faultRecord {s : State} {b : Nat} (a : Nat) (r : Rec) (h : bbReg b = false)
    (hb : b ≠ a ∧ b ≠ a + 8 ∧ b ≠ a + 16 ∧ b ≠ a + 24) : (s.faultRecord a r).word b = s.word b := by
  unfold State.faultRecord
  dsimp only
  split
  · rw [State.word_putRecord _ _ _ _ hb, State.word_bbWrite r h]
  · rw [State.word_setWord_ne _ _ hb.2.2.2, State.word_setWord_ne _ _ hb.1, State.word_bbWrite r h]

/-- The first fault of a unit stands in its record with the count of its time (R432). -/
theorem State.faultRecord_first {s : State} {a : Nat} (r : Rec) (h : s.word a = 0) :
    (s.faultRecord a r).word a = BitVec.ofNat 64 r.word0 ∧ (s.faultRecord a r).word (a + 8) = BitVec.ofNat 64 s.alm ∧
    (s.faultRecord a r).word (a + 16) = BitVec.ofNat 64 r.detail := by
  unfold State.faultRecord
  rw [h]
  simp only [BitVec.ofNat_eq_ofNat, BitVec.toNat_ofNat, Nat.zero_mod, if_true]
  unfold State.putRecord
  refine ⟨?_, ?_, ?_⟩
  · rw [State.word_setWord_ne _ _ (by omega), State.word_setWord_ne _ _ (by omega), State.word_setWord_ne _ _ (by omega),
      State.word_setWord_self]
  · rw [State.word_setWord_ne _ _ (by omega), State.word_setWord_ne _ _ (by omega), State.word_setWord_self]
  · rw [State.word_setWord_ne _ _ (by omega), State.word_setWord_self]

end Sys2Proof.Machine
end

