-- ==== Sys2Proof/Laws/Frames.lean ====
section
/-!
SUPPORT. Reading single fields after writes, register frames, and what agreement on parts gives.
-/
namespace Sys2Proof.Machine

theorem get_lit_self (s : State) (a lo len v : Nat) (h : lo + len ≤ 64) :
    (s.set ⟨a, lo, len⟩ v).get ⟨a, lo, len⟩ = v % 2 ^ len := State.get_set_self s _ v h
theorem get_lit_apart (s : State) (a lo len lo' len' v : Nat) (hg : lo' + len' ≤ 64) (h : lo + len ≤ lo' ∨ lo' + len' ≤ lo) :
    (s.set ⟨a, lo, len⟩ v).get ⟨a, lo', len'⟩ = s.get ⟨a, lo', len'⟩ := State.get_set_apart s v hg h
theorem get_lit_addr (s : State) (a lo len a' lo' len' v : Nat) (h : a' ≠ a) :
    (s.set ⟨a, lo, len⟩ v).get ⟨a', lo', len'⟩ = s.get ⟨a', lo', len'⟩ := State.get_set_addr s v h

theorem onlyIn_trans {ps qs : List Part} {s t u : State} (a : State.onlyIn ps s t) (b : State.onlyIn qs t u) (h : qs ⊆ ps) :
    State.onlyIn ps s u := by
  refine ⟨b.1.trans a.1, fun q hq => ?_⟩
  have y := b.2 q (fun e => hq (h e))
  have x := a.2 q hq
  cases q <;> simp only [Part.same] at x y ⊢ <;> first | exact y.trans x | exact ⟨y.1.trans x.1, y.2.trans x.2⟩
theorem byte_only {ps : List Part} {s t : State} (h : State.onlyIn ps s t) (hm : Part.mem ∉ ps) (x : Nat) : t.byte x = s.byte x := by
  have := h.2 .mem hm
  unfold State.byte; rw [this.1, this.2]
theorem accs_only {ps : List Part} {s t : State} (h : State.onlyIn ps s t) (hm : Part.accs ∉ ps)  : t.accs = s.accs := h.2 .accs hm
theorem core_only {ps : List Part} {s t : State} (h : State.onlyIn ps s t) (hm : Part.cores ∉ ps) (p : Nat) : t.core p = s.core p := by
  have := h.2 .cores hm
  simp only [Part.same] at this
  unfold State.core; rw [this]
theorem regs_set {s : State} {f : Fld} {v : Nat} {as : List Nat} (h : f.addr ∈ as) : RegsBut as s (s.set f v) := fun a ha => by
  have : a ≠ f.addr := fun e => ha (e ▸ h)
  simp only [State.set, State.word_setWord, if_neg this]
theorem regs_setCore {s : State} {p : Nat} {c : CoreHid} {as : List Nat} : RegsBut as s (s.setCore p c) := fun _ _ => rfl
theorem regs_trans {s t u : State} {as : List Nat} (h : RegsBut as s t) (k : RegsBut as t u) : RegsBut as s u :=
  fun a ha => (k a ha).trans (h a ha)
theorem regs_mono {s t : State} {as bs : List Nat} (h : RegsBut as s t) (k : as ⊆ bs) : RegsBut bs s t :=
  fun a ha => h a (fun e => ha (k e))
theorem regs_box {s t : State} {as : List Nat} (h : RegsBut as s t) : RegsButBox as s t := fun a ha _ => h a ha
theorem box_trans {s t u : State} {as : List Nat} (h : RegsButBox as s t) (k : RegsButBox as t u) : RegsButBox as s u :=
  fun a ha hb => (k a ha hb).trans (h a ha hb)
theorem box_report {s : State} {r : Rec} {as : List Nat} : RegsButBox as s (s.report r) := fun _ _ hb => State.word_report r hb
theorem get_lit_report (s : State) (r : Rec) (a lo len : Nat) (h : mgtBase + 0x130000 ≤ a ∨ a < mgtBase + 0x103028) :
    (s.report r).get ⟨a, lo, len⟩ = s.get ⟨a, lo, len⟩ := by
  unfold State.get; rw [State.word_report r]
  simp only [bbReg, Bool.or_eq_false_iff, beq_eq_false_iff_ne, Bool.and_eq_false_iff, decide_eq_false_iff_not]
  dsimp only [mgtBase] at h ⊢
  omega
theorem core_report (s : State) (r : Rec) (p : Nat) : (s.report r).core p = s.core p :=
  core_only (State.report_keeps r (Keeps.refl [Part.regs, Part.coal] s) (by decide) (by decide)).only (by decide) p
theorem core_faultRecord (s : State) (a : Nat) (r : Rec) (p : Nat) : (s.faultRecord a r).core p = s.core p :=
  core_only (State.faultRecord_keeps a r (Keeps.refl [Part.regs] s) (by decide)).only (by decide) p

end Sys2Proof.Machine
end

