-- ==== Sys2Proof/Laws/Access.lean ====
section
/-!
SUPPORT. What an access of a unit and an arrival at a core's counter leave alone: every register of the routing dies, the tier engines
and the links.
-/
namespace Sys2Proof.Machine

/-- The registers of tier engines, routing dies and links (R27). -/
def dieReg (a : Nat) : Prop := 0x200018000000 ≤ a ∧ a < 0x200100000000

theorem dieReg_box {a : Nat} (h : dieReg a) : bbReg a = false := by
  unfold dieReg at h
  simp only [bbReg, Bool.or_eq_false_iff, beq_eq_false_iff_ne, Bool.and_eq_false_iff, decide_eq_false_iff_not]
  dsimp only [mgtBase]
  omega

theorem dieReg_core {a : Nat} (h : dieReg a) (p k : Nat) : a ≠ coreBase p + k := by
  unfold dieReg at h; unfold coreBase; omega

theorem dieReg_hbm {a : Nat} (h : dieReg a) {s k : Nat} (hs : s < 8) (hk : k < 0x1000000) : a ≠ hbmBase s + k := by
  unfold dieReg at h; unfold hbmBase; omega

/-- Every die register is unchanged. -/
def DieRegs (s t : State) : Prop := ∀ a, dieReg a → t.word a = s.word a

theorem DieRegs.refl (s : State) : DieRegs s s := fun _ _ => rfl
theorem DieRegs.trans {s t u : State} (h : DieRegs s t) (k : DieRegs t u) : DieRegs s u := fun a ha => (k a ha).trans (h a ha)
theorem DieRegs.get {s t : State} (h : DieRegs s t) {f : Fld} (hf : dieReg f.addr) : t.get f = s.get f := by
  unfold State.get; rw [h _ hf]
theorem DieRegs.flag {s t : State} (h : DieRegs s t) {f : Fld} (hf : dieReg f.addr) : t.flag f = s.flag f := by
  unfold State.flag; rw [h.get hf]
theorem DieRegs.setW {s t : State} {b : Nat} {v : Word} (h : DieRegs s t) (hb : ¬ dieReg b) : DieRegs s (t.setWord b v) :=
  fun a ha => (State.word_setWord_ne _ _ (fun e => hb (by rw [← e]; exact ha))).trans (h a ha)
theorem DieRegs.set {s t : State} {f : Fld} {v : Nat} (h : DieRegs s t) (hb : ¬ dieReg f.addr) : DieRegs s (t.set f v) := h.setW hb
theorem DieRegs.report {s : State} (r : Rec) : DieRegs s (s.report r) := fun _ ha => State.word_report r (dieReg_box ha)
theorem DieRegs.foldl {α : Type} {l : List α} {f : State → α → State} (hf : ∀ u, ∀ x ∈ l, DieRegs u (f u x)) (s : State) :
    DieRegs s (l.foldl f s) := by
  induction l generalizing s with
  | nil => exact DieRegs.refl s
  | cons x l ih =>
    rw [List.foldl_cons]
    exact (hf s x (List.mem_cons_self ..)).trans (ih (fun u y hy => hf u y (List.mem_cons_of_mem _ hy)) _)

theorem not_dieReg_core (p k : Nat) : ¬ dieReg (coreBase p + k) := by unfold dieReg coreBase; omega
theorem not_dieReg_hbm {s k : Nat} (hs : s < 8) (hk : k < 0x1000000) : ¬ dieReg (hbmBase s + k) := by
  unfold dieReg hbmBase; omega

/-- Where the poison count of an offset stands, for an offset of HBM or of a core's populated store. -/
theorem poisonCnt_addr {a : Nat} (h : inHbm a 1 = true ∨ (inCore a 1).isSome = true) : ¬ dieReg (poisonCnt a).addr := by
  unfold poisonCnt
  cases hc : inCore a 1 with
  | some p => simp only [CS_POISON_CNT_COUNT, csBase, Nat.add_assoc]; exact not_dieReg_core _ _
  | none =>
    simp only
    rw [hc] at h
    simp only [Option.isSome_none, Bool.false_eq_true, or_false] at h
    have : a + 1 ≤ 0x8000000000 := of_decide_eq_true h
    refine not_dieReg_hbm ?_ (by decide)
    unfold stackOf stackSize
    omega

theorem cleanWord_die {a : Nat} {s : State} (h : inHbm a 1 = true ∨ (inCore a 1).isSome = true) : DieRegs s (cleanWord a s) := by
  unfold cleanWord
  split
  · exact DieRegs.set (t := s.setPoison a false) (fun _ _ => rfl) (poisonCnt_addr h)
  · exact DieRegs.refl s

theorem inside_one {a n x : Nat} (h : inHbm a n = true ∨ (inCore a n).isSome = true) (ha : a ≤ x) (hx : x < a + n) :
    inHbm x 1 = true ∨ (inCore x 1).isSome = true := by
  rcases h with h | h
  · have : a + n ≤ hbmSize := of_decide_eq_true h
    exact .inl (decide_eq_true (by omega))
  · right
    unfold inCore at h ⊢
    have h0 : csOffset 0 0 = 0x100000000000 := by norm_num [csOffset]
    revert h
    rw [h0]
    generalize hm : csSize = m
    have hm' : m = 0x1800000 := hm.symm
    clear hm
    intro h
    by_cases h1 : 0x100000000000 ≤ a
    · rw [if_pos h1] at h
      rw [if_pos (le_trans h1 ha)]
      dsimp only at h ⊢
      by_cases h2 : (decide ((a - 0x100000000000) / 0x2000000 < 144) && decide ((a - 0x100000000000) % 0x2000000 + n ≤ m)) = true
      · rw [Bool.and_eq_true, decide_eq_true_iff, decide_eq_true_iff] at h2
        have h3 : (decide ((x - 0x100000000000) / 0x2000000 < 144) && decide ((x - 0x100000000000) % 0x2000000 + 1 ≤ m)) = true := by
          rw [Bool.and_eq_true, decide_eq_true_iff, decide_eq_true_iff]
          obtain ⟨k, hk⟩ : ∃ k, k = x - a := ⟨_, rfl⟩
          have hx2 : x - 0x100000000000 = (a - 0x100000000000) + k := by omega
          have hkn : k < n := by omega
          rw [hx2]
          generalize a - 0x100000000000 = d at h2 ⊢
          clear hx2 hk h1
          omega
        simp only [h3, if_true, Option.isSome_some]
      · rw [if_neg h2] at h; cases h
    · rw [if_neg h1] at h; cases h

theorem cleanLines_die {a n : Nat} {s : State} (h : inHbm a n = true ∨ (inCore a n).isSome = true) : DieRegs s (cleanLines a n s) := by
  unfold cleanLines
  refine DieRegs.foldl (fun u i hi => DieRegs.foldl (fun v j hj => cleanWord_die (inside_one h ?_ ?_)) _) _
  all_goals
    rw [List.mem_range] at hi hj
    simp only [ceilDiv] at *
    omega

theorem DieRegs.setHbm {s t : State} {m : Nat} {x : HbmHid} (h : DieRegs s t) : DieRegs s (t.setHbm m x) := h

theorem accept_die (off n : Nat) (s : State) : DieRegs s (accept off n s) :=
  DieRegs.foldl (fun u _ _ => (DieRegs.refl u).setHbm) s

theorem dropFlips_die (off n : Nat) (s : State) : DieRegs s (dropFlips off n s) := by
  unfold dropFlips
  dsimp only
  split
  · exact DieRegs.refl s
  · exact (DieRegs.refl s).setHbm

theorem chargeTo_die {c : Option Nat} {off n : Nat} {s : State} (h : stackOf off < 8) : DieRegs s (chargeTo c off n s) := by
  unfold chargeTo
  split
  · split
    · refine (DieRegs.refl s).set ?_
      simp only [HBM_RSV_USED, Nat.add_assoc]
      exact not_dieReg_hbm h (by omega)
    · exact DieRegs.refl s
  · exact DieRegs.refl s

theorem charge_die {c : Option Nat} {off n : Nat} {s : State} (h : stackOf off < 8) : DieRegs s (charge c off n s) := by
  unfold charge
  dsimp only
  split
  · exact chargeTo_die h
  · exact (chargeTo_die h).set (not_dieReg_hbm h (by decide))

theorem stackOf_lt {off n : Nat} (h : inHbm off n = true) (hn : 0 < n) : stackOf off < 8 := by
  have : off + n ≤ 0x8000000000 := of_decide_eq_true h
  unfold stackOf stackSize; omega

theorem noteRead_die {c : Option Nat} {off n : Nat} {s : State} (hn : 0 < n) : DieRegs s (noteRead c off n s) := by
  unfold noteRead
  split
  · next h =>
    refine DieRegs.trans (DieRegs.set (charge_die (stackOf_lt h hn)) ?_) (accept_die _ _ _)
    exact not_dieReg_hbm (stackOf_lt h hn) (by decide)
  · exact DieRegs.refl s

theorem noteWrite_die {c : Option Nat} {off n : Nat} {s : State} (hn : 0 < n) : DieRegs s (noteWrite c off n s) := by
  unfold noteWrite
  split
  · next h =>
    refine DieRegs.trans (DieRegs.set (charge_die (stackOf_lt h hn)) ?_) (DieRegs.trans (dropFlips_die _ _ _) (accept_die _ _ _))
    exact not_dieReg_hbm (stackOf_lt h hn) (by decide)
  · exact DieRegs.refl s

theorem poisonWord_die {a : Nat} {s : State} (h : inHbm a 1 = true ∨ (inCore a 1).isSome = true) : DieRegs s (poisonWord a s) := by
  unfold poisonWord
  split
  · exact DieRegs.refl s
  · exact DieRegs.set (t := s.setPoison a true) (fun _ _ => rfl) (poisonCnt_addr h)

theorem hbmCorr_die {m a : Nat} {s : State} (hm : m < 8) : DieRegs s (hbmCorr m a s) :=
  (((DieRegs.refl s).set (not_dieReg_hbm hm (by decide))).set (not_dieReg_hbm hm (by decide))).setHbm

theorem hbmUncorr_die {m a : Nat} {s : State} (hm : m < 8) (ha : inHbm a 1 = true) : DieRegs s (hbmUncorr m a s) :=
  (((poisonWord_die (.inl ha)).set (not_dieReg_hbm hm (by decide))).set (not_dieReg_hbm hm (by decide))).setHbm

/-- What an accepted read finds leaves every die register alone. -/
theorem hbmFind_die {off n : Nat} {s : State} (hn : 0 < n) : DieRegs s (hbmFind off n s) := by
  unfold hbmFind
  split
  · next hin =>
    have hb : off + n ≤ 0x8000000000 := of_decide_eq_true hin
    refine DieRegs.foldl (fun u i hi => ?_) s
    rw [List.mem_range] at hi
    have hm : stackOf off + i < 8 := by
      unfold stackOf stackSize at *; omega
    unfold findIn
    dsimp only
    refine DieRegs.trans ?_ (DieRegs.foldl (fun v x hx => ?_) _)
    · split
      · exact DieRegs.refl u
      · exact (DieRegs.refl u).setHbm
    · have hx2 : (stackOf off + i) * (stackSize / 8) + x.1 ≤ (off + (n - 1)) / 8 := by
        simp only [flipsIn, List.mem_filter, Bool.and_eq_true, decide_eq_true_iff] at hx
        exact hx.2.2
      have ha : inHbm ((stackOf off + i) * stackSize + 8 * x.1) 1 = true := by
        have h8 : 8 * (stackSize / 8) = stackSize := rfl
        have hw := Nat.mul_le_mul_left 8 hx2
        rw [Nat.mul_add, Nat.mul_left_comm, h8] at hw
        refine decide_eq_true (Nat.le_trans (Nat.succ_le_succ (hw.trans (Nat.mul_div_le _ 8))) ?_)
        exact Nat.le_trans (by omega) (of_decide_eq_true hin)
      split
      · exact DieRegs.refl v
      · split
        · exact hbmUncorr_die hm ha
        · exact hbmCorr_die hm
  · exact DieRegs.refl s

theorem noteRefused_die {w : Bool} {off n : Nat} {s : State} (hn : 0 < n) : DieRegs s (noteRefused w off n s) := by
  unfold noteRefused
  split
  · next h =>
    rw [Bool.and_eq_true] at h
    exact (DieRegs.refl s).set (not_dieReg_hbm (stackOf_lt h.1 hn) (by decide))
  · exact DieRegs.refl s

theorem dirty_die {off n : Nat} {s : State} (h : inHbm off n = true) (hn : 0 < n) : DieRegs s (dirty off n s) := by
  have hb : off + n ≤ 0x8000000000 := of_decide_eq_true h
  unfold dirty
  rw [if_neg (by omega)]
  refine DieRegs.foldl (fun u i hi => ?_) s
  rw [List.mem_range] at hi
  dsimp only
  split
  · refine (DieRegs.refl u).set ?_
    simp only [HBM_FRAME_A_DIRTY, Nat.add_assoc]
    refine not_dieReg_hbm ?_ ?_
    · unfold stackOf stackSize; omega
    · unfold frameOf stackSize frameSize; omega
  · exact DieRegs.refl u

theorem setBytes_die (a : Nat) (bs : List Byte) (s : State) : DieRegs s (s.setBytes a bs) := fun b _ => State.word_setBytes s a bs b

theorem memWrite_die {c : Option Nat} {off : Nat} {bs : List Byte} {s : State} (hn : 0 < bs.length)
    (h : inHbm off bs.length = true ∨ (inCore off bs.length).isSome = true) : DieRegs s (memWrite c off bs s) := by
  have hs : DieRegs s (storeBytes off bs s) := (setBytes_die off bs s).trans (cleanLines_die h)
  unfold memWrite
  dsimp only
  split
  · next hh => exact (hs.trans (noteWrite_die hn)).trans (dirty_die hh hn)
  · exact hs.trans (noteWrite_die hn)

theorem accessCode_in {s : State} {k key perm off n : Nat} (h : accessCode s k key perm off n = 0) :
    inHbm off n = true ∨ (inCore off n).isSome = true := by
  unfold accessCode at h
  cases hc : inCore off n with
  | some p => exact .inr rfl
  | none =>
    rw [hc] at h
    dsimp only at h
    by_cases hh : inHbm off n = true
    · exact .inl hh
    · rw [Bool.not_eq_true] at hh
      rw [hh] at h
      cases h

/-- A unit's read leaves every die register alone. -/
theorem unitRead_die {w : Who} {off n : Nat} {s : State} : DieRegs s (unitRead w off n s).2.2 := by
  unfold unitRead
  split
  · exact DieRegs.refl s
  · next hn =>
    dsimp only
    split
    · exact noteRefused_die (Nat.pos_of_ne_zero hn)
    · split
      · exact (hbmFind_die (Nat.pos_of_ne_zero hn)).trans (noteRead_die (Nat.pos_of_ne_zero hn))
      · exact (hbmFind_die (Nat.pos_of_ne_zero hn)).trans (noteRead_die (Nat.pos_of_ne_zero hn))

/-- A unit's write leaves every die register alone. -/
theorem unitWrite_die {w : Who} {off : Nat} {bs : List Byte} {s : State} : DieRegs s (unitWrite w off bs s) := by
  unfold unitWrite
  split
  · exact DieRegs.refl s
  · next hb =>
    have hn : 0 < bs.length := List.length_pos_iff.2 (fun e => hb (by rw [e]; rfl))
    split
    · exact noteRefused_die hn
    · next ha => exact memWrite_die hn (accessCode_in (not_not.1 ha))

theorem coreSet_die (s : State) (p k lo len v : Nat) : DieRegs s (s.set ⟨coreBase p + k, lo, len⟩ v) :=
  (DieRegs.refl s).set (not_dieReg_core p k)

theorem addArrival_die (p ctr inc : Nat) (s : State) : DieRegs s (addArrival p ctr inc s) := by
  unfold addArrival
  split
  · unfold arrSlotError coreWarn
    exact ((coreSet_die s p _ _ _ _).trans (coreSet_die _ p _ _ _ _)).trans (DieRegs.report _)
  · simp only [CORE_ARR_COUNT, Nat.add_assoc]; exact coreSet_die s p _ _ _ _

theorem completeWait_die (p : Nat) (s : State) : DieRegs s (completeWait p s) := by
  unfold completeWait
  extract_lets c
  split
  · exact DieRegs.refl s
  · split
    · dsimp only
      split
      · exact DieRegs.trans (t := s.setCore p _) (fun _ _ => rfl) (addArrival_die _ _ _ _)
      · exact fun _ _ => rfl
    · exact DieRegs.refl s

/-- An arrival leaves every die register alone. -/
theorem arriveLogical_die (l ctr inc : Nat) (s : State) : DieRegs s (arriveLogical l ctr inc s) := by
  unfold arriveLogical
  split
  · split
    · exact (addArrival_die _ _ _ _).trans (completeWait_die _ _)
    · exact DieRegs.refl s
  · exact DieRegs.refl s

end Sys2Proof.Machine
end

