-- ==== Sys2Proof/Laws/KeepsMemory.lean ====
section
/-!
SUPPORT. What each operation of Machine/Memory.lean keeps (Laws/Keeps.lean), and the parts of State it may change.
-/
namespace Sys2Proof.Machine

set_option linter.unreachableTactic false
set_option linter.unusedTactic false
set_option linter.tactic.unusedName false

variable {ps : List Part} {s u : State}

theorem poisonWord_keeps (a : Nat) (h : Keeps ps s u) (hregs : Part.regs ∈ ps) (hpoison : Part.poison ∈ ps) :
    Keeps ps s (poisonWord a u) := by
  unfold poisonWord
  repeat' with_reducible first
    | assumption | apply State.count_keeps | apply Keeps.setPoison | split

theorem cleanWord_keeps (a : Nat) (h : Keeps ps s u) (hregs : Part.regs ∈ ps) (hpoison : Part.poison ∈ ps) :
    Keeps ps s (cleanWord a u) := by
  unfold cleanWord
  repeat' with_reducible first
    | assumption | apply State.set_keeps | apply Keeps.setPoison | split

theorem cleanLines_keeps (a : Nat) (n : Nat) (h : Keeps ps s u) (hregs : Part.regs ∈ ps) (hpoison : Part.poison ∈ ps) :
    Keeps ps s (cleanLines a n u) := by
  unfold cleanLines
  repeat' with_reducible first
    | assumption | intro _ | apply cleanWord_keeps | apply Keeps.foldl

theorem storeBytes_keeps (a : Nat) (bs : List Byte) (h : Keeps ps s u) (hregs : Part.regs ∈ ps) (hmem : Part.mem ∈ ps) (hpoison : Part.poison ∈ ps) :
    Keeps ps s (storeBytes a bs u) := by
  unfold storeBytes
  repeat' with_reducible first
    | assumption | apply State.setBytes_keeps | apply cleanLines_keeps

theorem cleanStaged_keeps (p : Nat) (ws : List (Nat × Byte)) (h : Keeps ps s u) (hregs : Part.regs ∈ ps) (hpoison : Part.poison ∈ ps) :
    Keeps ps s (cleanStaged p ws u) := by
  unfold cleanStaged
  repeat' first
    | with_reducible assumption
    | with_reducible intro _
    | with_reducible apply cleanLines_keeps
    | with_reducible apply Keeps.foldl
    | with_reducible apply Keeps.foldlP
    | with_reducible apply Keeps.ite
    | split
    | dsimp only

end Sys2Proof.Machine
end

