-- ==== Sys2Proof/Laws/KeepsFence.lean ====
section
/-!
SUPPORT. What each operation of Machine/Fence.lean keeps (Laws/Keeps.lean), and the parts of State it may change.
-/
namespace Sys2Proof.Machine

set_option linter.unreachableTactic false
set_option linter.unusedTactic false
set_option linter.tactic.unusedName false

variable {ps : List Part} {s u : State}

theorem State.liveDie_keeps (d : Nat) {f : State → State} (h : Keeps ps s u) (hf : Keeps ps s (f u)) :
    Keeps ps s (State.liveDie u d f) := by
  unfold State.liveDie
  exact Keeps.live h (Keeps.ite h hf)

theorem fenceEngine_keeps (p : Nat) (e : Nat) (code : Nat) (detail : Nat) (h : Keeps ps s u) (hregs : Part.regs ∈ ps) (hcores : Part.cores ∈ ps) :
    Keeps ps s (fenceEngine p e code detail u) := by
  unfold fenceEngine
  repeat' first
    | with_reducible assumption
    | with_reducible intro _
    | with_reducible apply Keeps.setCore
    | with_reducible apply State.faultRecord_keeps
    | with_reducible apply State.raise_keeps
    | with_reducible apply Keeps.ite
    | split
    | dsimp only

theorem clearArrays_keeps (p : Nat) (side : Nat) (h : Keeps ps s u) (hregs : Part.regs ∈ ps) :
    Keeps ps s (clearArrays p side u) := by
  unfold clearArrays
  repeat' first
    | with_reducible assumption
    | with_reducible intro _
    | with_reducible apply State.set_keeps
    | with_reducible apply Keeps.foldl
    | with_reducible apply Keeps.foldlP
    | with_reducible apply Keeps.ite
    | split
    | dsimp only

theorem clearBusy_keeps (p : Nat) (sl : Slot) (h : Keeps ps s u) (hregs : Part.regs ∈ ps) :
    Keeps ps s (clearBusy p sl u) := by
  unfold clearBusy
  repeat' first
    | with_reducible assumption
    | with_reducible intro _
    | with_reducible apply State.set_keeps
    | with_reducible apply clearArrays_keeps
    | with_reducible apply Keeps.ite
    | split
    | dsimp only

theorem discardUncommitted_keeps (p : Nat) (h : Keeps ps s u) (hregs : Part.regs ∈ ps) (hcores : Part.cores ∈ ps) :
    Keeps ps s (discardUncommitted p u) := by
  unfold discardUncommitted
  repeat' first
    | with_reducible assumption
    | with_reducible intro _
    | with_reducible apply Keeps.setCore
    | with_reducible apply clearBusy_keeps
    | with_reducible apply Keeps.foldl
    | with_reducible apply Keeps.foldlP
    | split
    | dsimp only

theorem stopFenced_keeps (p : Nat) (h : Keeps ps s u) (hregs : Part.regs ∈ ps) (hcores : Part.cores ∈ ps) :
    Keeps ps s (stopFenced p u) := by
  unfold stopFenced
  repeat' with_reducible first
    | assumption | apply State.raise_keeps | apply State.set_keeps | apply Keeps.setCore | apply discardUncommitted_keeps

theorem fenceCore_keeps (p : Nat) (code : Nat) (detail : Nat) (h : Keeps ps s u) (hregs : Part.regs ∈ ps) (hcores : Part.cores ∈ ps) :
    Keeps ps s (fenceCore p code detail u) := by
  unfold fenceCore
  repeat' with_reducible first
    | assumption | apply State.faultRecord_keeps | apply stopFenced_keeps

theorem unknownBytes_keeps (p : Nat) (x1 : List (Nat × Byte)) (h : Keeps ps s u) (hfree : Part.free ∈ ps) (hmem : Part.mem ∈ ps) :
    Keeps ps s (unknownBytes p x1 u) := by
  induction x1 generalizing u <;> unfold unknownBytes
  all_goals repeat' with_reducible first
    | apply_assumption | apply State.drawWord_keeps | apply Keeps.setByte

theorem fenceCoreWithDie_keeps (p : Nat) (h : Keeps ps s u) (hfree : Part.free ∈ ps) (hregs : Part.regs ∈ ps) (hmem : Part.mem ∈ ps) (hcores : Part.cores ∈ ps) :
    Keeps ps s (fenceCoreWithDie p u) := by
  unfold fenceCoreWithDie
  repeat' first
    | with_reducible assumption
    | with_reducible intro _
    | with_reducible apply Keeps.setCore
    | with_reducible apply State.raise_keeps
    | with_reducible apply State.set_keeps
    | with_reducible apply clearBusy_keeps
    | with_reducible apply unknownBytes_keeps
    | with_reducible apply Keeps.foldl
    | with_reducible apply Keeps.foldlP
    | with_reducible apply Keeps.ite
    | split
    | dsimp only

end Sys2Proof.Machine
end

