-- ==== Sys2Proof/Laws/KeepsFlags.lean ====
section
/-!
SUPPORT. What each operation of Machine/Flags.lean keeps (Laws/Keeps.lean), and the parts of State it may change.
-/
namespace Sys2Proof.Machine

set_option linter.unreachableTactic false
set_option linter.unusedTactic false
set_option linter.tactic.unusedName false

variable {ps : List Part} {s u : State}

theorem raiseFlags_keeps (p : Nat) (f : Flags) (h : Keeps ps s u) (hregs : Part.regs ∈ ps) :
    Keeps ps s (raiseFlags p f u) := by
  unfold raiseFlags
  repeat' with_reducible first
    | assumption | apply Keeps.setWord

end Sys2Proof.Machine
end

