-- ==== Sys2Proof/Laws/KeepsCoreOps.lean ====
section
/-!
SUPPORT. What each operation of Machine/CoreOps.lean keeps (Laws/Keeps.lean), and the parts of State it may change.
-/
namespace Sys2Proof.Machine

set_option linter.unreachableTactic false
set_option linter.unusedTactic false
set_option linter.tactic.unusedName false

variable {ps : List Part} {s u : State}

theorem coreWarn_keeps (p : Nat) (code : Nat) (h : Keeps ps s u) (hregs : Part.regs ∈ ps) (hcoal : Part.coal ∈ ps) :
    Keeps ps s (coreWarn p code u) := by
  unfold coreWarn
  repeat' with_reducible first
    | assumption | apply State.report_keeps | apply State.set_keeps

theorem arrSlotError_keeps (p : Nat) (h : Keeps ps s u) (hregs : Part.regs ∈ ps) (hcoal : Part.coal ∈ ps) :
    Keeps ps s (arrSlotError p u) := by
  unfold arrSlotError
  repeat' with_reducible first
    | assumption | apply State.raise_keeps | apply coreWarn_keeps

theorem addArrival_keeps (p : Nat) (ctr : Nat) (inc : Nat) (h : Keeps ps s u) (hregs : Part.regs ∈ ps) (hcoal : Part.coal ∈ ps) :
    Keeps ps s (addArrival p ctr inc u) := by
  unfold addArrival
  repeat' with_reducible first
    | assumption | apply State.set_keeps | apply arrSlotError_keeps | split

theorem completeWait_keeps (p : Nat) (h : Keeps ps s u) (hregs : Part.regs ∈ ps) (hcores : Part.cores ∈ ps) (hcoal : Part.coal ∈ ps) :
    Keeps ps s (completeWait p u) := by
  unfold completeWait
  repeat' with_reducible first
    | assumption | extract_lets +onlyGivenNames t | apply Keeps.setCore | apply addArrival_keeps | split

theorem arriveInc_keeps (p : Nat) (ctr : Nat) (inc : Nat) (h : Keeps ps s u) (hregs : Part.regs ∈ ps) (hcores : Part.cores ∈ ps) (hcoal : Part.coal ∈ ps) :
    Keeps ps s (arriveInc p ctr inc u) := by
  unfold arriveInc
  repeat' with_reducible first
    | assumption | apply addArrival_keeps | apply completeWait_keeps

theorem arriveSlot_keeps (p : Nat) (ctr : Nat) (slot : Nat) (h : Keeps ps s u) (hregs : Part.regs ∈ ps) (hmem : Part.mem ∈ ps) (hcores : Part.cores ∈ ps) (hcoal : Part.coal ∈ ps) :
    Keeps ps s (arriveSlot p ctr slot u) := by
  unfold arriveSlot
  repeat' with_reducible first
    | assumption | apply State.count_keeps | apply State.set_keeps | apply Keeps.setByte | apply arrSlotError_keeps
    | apply completeWait_keeps | apply Keeps.ite

theorem setCounter_keeps (p : Nat) (ctr : Nat) (v : Nat) (h : Keeps ps s u) (hregs : Part.regs ∈ ps) :
    Keeps ps s (setCounter p ctr v u) := by
  unfold setCounter
  repeat' with_reducible first
    | assumption | apply State.set_keeps

theorem configCounter_keeps (p : Nat) (ctr : Nat) (mode : Nat) (slots : Nat) (bitmap : Nat) (h : Keeps ps s u) (hregs : Part.regs ∈ ps) (hmem : Part.mem ∈ ps) (hpoison : Part.poison ∈ ps) :
    Keeps ps s (configCounter p ctr mode slots bitmap u) := by
  unfold configCounter
  repeat' with_reducible first
    | assumption | apply State.set_keeps | apply storeBytes_keeps | split

theorem skipAhead_keeps (p : Nat) (x1 : Nat) (h : Keeps ps s u) (hregs : Part.regs ∈ ps) (hcores : Part.cores ∈ ps) :
    Keeps ps s (skipAhead p x1 u) := by
  induction x1 generalizing u <;> unfold skipAhead
  all_goals repeat' with_reducible first
    | apply_assumption | apply State.set_keeps | apply Keeps.setCore | apply Keeps.ite

theorem haltList_keeps (p : Nat) (ord : Nat) (idx : Nat) (code : Nat) (tag : Nat) (h : Keeps ps s u) (hregs : Part.regs ∈ ps) (hcores : Part.cores ∈ ps) :
    Keeps ps s (haltList p ord idx code tag u) := by
  unfold haltList
  repeat' first
    | with_reducible assumption
    | with_reducible intro _
    | with_reducible apply State.raise_keeps
    | with_reducible apply State.set_keeps
    | with_reducible apply discardUncommitted_keeps
    | split
    | dsimp only

theorem decodeFail_keeps (p : Nat) (c : Cmd) (code : Nat) (h : Keeps ps s u) (hregs : Part.regs ∈ ps) (hcores : Part.cores ∈ ps) :
    Keeps ps s (decodeFail p c code u) := by
  unfold decodeFail
  repeat' with_reducible first
    | assumption | apply haltList_keeps

theorem issue_keeps (p : Nat) (r : CmdRec) (h : Keeps ps s u) (hregs : Part.regs ∈ ps) (hcores : Part.cores ∈ ps) :
    Keeps ps s (issue p r u) := by
  unfold issue
  repeat' with_reducible first
    | assumption | apply State.set_keeps | apply Keeps.setCore

theorem atHead_keeps (p : Nat) (op : Nat) (h : Keeps ps s u) (hregs : Part.regs ∈ ps) (hcores : Part.cores ∈ ps) :
    KeepsO2 ps s (atHead p op u) := by
  unfold atHead
  repeat' with_reducible first
    | assumption | extract_lets +onlyGivenNames t | apply skipAhead_keeps | apply KeepsO.ite | apply KeepsO.some
    | apply KeepsO2.ite | apply KeepsO2.some | exact KeepsO2.none | exact KeepsO.none | split

theorem issueCmd_keeps (p op : Nat) (slotOf : Cmd → State → Slot) (hold : Cmd → State → Bool) (check : Cmd → State → Nat)
    (run : Cmd → State → State) (h : Keeps ps s u) (hregs : Part.regs ∈ ps) (hcores : Part.cores ∈ ps)
    (hr : ∀ c t, Keeps ps s t → Keeps ps s (run c t)) : Keeps ps s (issueCmd p op slotOf hold check run u) := by
  unfold issueCmd
  cases e : atHead p op u with
  | none => exact h
  | some r =>
    have hk := atHead_keeps p op h hregs hcores r e
    exact Keeps.ite h (Keeps.ite (decodeFail_keeps p r.1 _ hk hregs hcores) (hr _ _ hk))

theorem commitBytes_keeps (p : Nat) (x1 : List (Nat × Byte)) (h : Keeps ps s u) (hmem : Part.mem ∈ ps) :
    Keeps ps s (commitBytes p x1 u) := by
  induction x1 generalizing u <;> unfold commitBytes
  all_goals repeat' with_reducible first
    | apply_assumption | apply Keeps.setByte

theorem commitAccs_keeps (x0 : List (Nat × Acc)) (h : Keeps ps s u) (haccs : Part.accs ∈ ps) :
    Keeps ps s (commitAccs x0 u) := by
  induction x0 generalizing u <;> unfold commitAccs
  all_goals repeat' with_reducible first
    | apply_assumption | apply Keeps.setAcc

theorem countPass_keeps (p : Nat) (r : CmdRec) (h : Keeps ps s u) (hregs : Part.regs ∈ ps) :
    Keeps ps s (countPass p r u) := by
  unfold countPass
  repeat' with_reducible first
    | assumption | intro _ | apply State.count_keeps | apply Keeps.foldl

theorem commitCounts_keeps (p : Nat) (r : CmdRec) (h : Keeps ps s u) (hregs : Part.regs ∈ ps) (hmem : Part.mem ∈ ps) (hpoison : Part.poison ∈ ps) :
    Keeps ps s (commitCounts p r u) := by
  unfold commitCounts
  repeat' with_reducible first
    | assumption | apply State.count_keeps | apply configCounter_keeps | apply countPass_keeps | apply setCounter_keeps
    | apply Keeps.ite

theorem retire_keeps (p : Nat) (ord : Nat) (h : Keeps ps s u) (hcores : Part.cores ∈ ps) :
    Keeps ps s (retire p ord u) := by
  unfold retire
  repeat' with_reducible first
    | assumption | apply Keeps.setCore

theorem sigen_keeps (p : Nat) (c : Cmd) (h : Keeps ps s u) (hregs : Part.regs ∈ ps) (hcores : Part.cores ∈ ps) (hcoal : Part.coal ∈ ps) :
    Keeps ps s (sigen p c u) := by
  unfold sigen
  repeat' with_reducible first
    | assumption | apply arriveInc_keeps | apply completeWait_keeps | split

theorem commitCmd_keeps (p : Nat) (r : CmdRec) (h : Keeps ps s u) (hregs : Part.regs ∈ ps) (hmem : Part.mem ∈ ps) (hpoison : Part.poison ∈ ps) (haccs : Part.accs ∈ ps) (hcores : Part.cores ∈ ps) (hcoal : Part.coal ∈ ps) :
    Keeps ps s (commitCmd p r u) := by
  unfold commitCmd
  repeat' with_reducible first
    | assumption | apply cleanStaged_keeps | apply clearBusy_keeps | apply commitAccs_keeps | apply commitBytes_keeps
    | apply commitCounts_keeps | apply coreWarn_keeps | apply raiseFlags_keeps | apply retire_keeps | apply sigen_keeps
    | split

theorem fenceFault_keeps (p : Nat) (flt : Option EngFault) (h : Keeps ps s u) (hregs : Part.regs ∈ ps) (hcores : Part.cores ∈ ps) :
    Keeps ps s (fenceFault p flt u) := by
  unfold fenceFault
  repeat' with_reducible first
    | assumption | apply fenceEngine_keeps | split

end Sys2Proof.Machine
end

