-- ==== Sys2Proof/Laws/KeepsAccess.lean ====
section
/-!
SUPPORT. What each operation of Machine/Access.lean keeps (Laws/Keeps.lean), and the parts of State it may change.
-/
namespace Sys2Proof.Machine

set_option linter.unreachableTactic false
set_option linter.unusedTactic false
set_option linter.tactic.unusedName false

variable {ps : List Part} {s u : State}

theorem noteRefused_keeps (write : Bool) (off : Nat) (n : Nat) (h : Keeps ps s u) (hregs : Part.regs ∈ ps) :
    Keeps ps s (noteRefused write off n u) := by
  unfold noteRefused
  repeat' with_reducible first
    | assumption | apply State.countSat_keeps | split

theorem State.setHbm_keeps (m : Nat) (h0 : HbmHid) (h : Keeps ps s u) (hhbms : Part.hbms ∈ ps) :
    Keeps ps s (State.setHbm u m h0) := by
  unfold State.setHbm
  repeat' first
    | with_reducible assumption
    | (conv => (arg 3; arg 29)
       refine Keeps.mk' ?_ rfl rfl rfl rfl rfl rfl rfl
        (fun q hn => by cases q <;> first | exact rfl | exact ⟨rfl, rfl⟩ | exact absurd (by assumption) hn))

theorem accept_keeps (off : Nat) (n : Nat) (h : Keeps ps s u) (hhbms : Part.hbms ∈ ps) :
    Keeps ps s (accept off n u) := by
  unfold accept
  repeat' first
    | with_reducible assumption
    | with_reducible intro _
    | with_reducible apply State.setHbm_keeps
    | with_reducible apply Keeps.foldl
    | with_reducible apply Keeps.foldlP
    | split
    | dsimp only

theorem hbmCorr_keeps (m : Nat) (a : Nat) (h : Keeps ps s u) (hregs : Part.regs ∈ ps) (hhbms : Part.hbms ∈ ps) :
    Keeps ps s (hbmCorr m a u) := by
  unfold hbmCorr
  repeat' first
    | with_reducible assumption
    | with_reducible apply State.countSat_keeps
    | with_reducible apply State.raise_keeps
    | with_reducible apply State.setHbm_keeps

theorem hbmUncorr_keeps (m : Nat) (a : Nat) (h : Keeps ps s u) (hregs : Part.regs ∈ ps) (hpoison : Part.poison ∈ ps) (hhbms : Part.hbms ∈ ps) :
    Keeps ps s (hbmUncorr m a u) := by
  unfold hbmUncorr
  repeat' first
    | with_reducible assumption
    | with_reducible apply State.raise_keeps
    | with_reducible apply State.set_keeps
    | with_reducible apply State.setHbm_keeps
    | with_reducible apply poisonWord_keeps

theorem findIn_keeps (m : Nat) (off : Nat) (n : Nat) (h : Keeps ps s u) (hregs : Part.regs ∈ ps) (hpoison : Part.poison ∈ ps) (hhbms : Part.hbms ∈ ps) :
    Keeps ps s (findIn m off n u) := by
  unfold findIn
  repeat' first
    | with_reducible assumption
    | with_reducible intro _
    | with_reducible apply State.setHbm_keeps
    | with_reducible apply hbmCorr_keeps
    | with_reducible apply hbmUncorr_keeps
    | with_reducible apply Keeps.foldl
    | with_reducible apply Keeps.foldlP
    | with_reducible apply Keeps.ite
    | split
    | dsimp only

theorem hbmFind_keeps (off : Nat) (n : Nat) (h : Keeps ps s u) (hregs : Part.regs ∈ ps) (hpoison : Part.poison ∈ ps) (hhbms : Part.hbms ∈ ps) :
    Keeps ps s (hbmFind off n u) := by
  unfold hbmFind
  repeat' first
    | with_reducible assumption
    | with_reducible intro _
    | with_reducible apply findIn_keeps
    | with_reducible apply Keeps.foldl
    | with_reducible apply Keeps.foldlP
    | with_reducible apply Keeps.ite
    | split
    | dsimp only

theorem dropFlips_keeps (off : Nat) (n : Nat) (h : Keeps ps s u) (hhbms : Part.hbms ∈ ps) :
    Keeps ps s (dropFlips off n u) := by
  unfold dropFlips
  repeat' first
    | with_reducible assumption
    | with_reducible intro _
    | with_reducible apply State.setHbm_keeps
    | with_reducible apply Keeps.ite
    | split
    | dsimp only

theorem hbmCycle_keeps (m : Nat) (h : Keeps ps s u) (hhbms : Part.hbms ∈ ps) :
    Keeps ps s (hbmCycle u m) := by
  unfold hbmCycle
  repeat' first
    | with_reducible assumption
    | with_reducible intro _
    | with_reducible apply State.setHbm_keeps
    | split
    | dsimp only

theorem chargeTo_keeps (cons : Option Nat) (off : Nat) (n : Nat) (h : Keeps ps s u) (hregs : Part.regs ∈ ps) :
    Keeps ps s (chargeTo cons off n u) := by
  unfold chargeTo
  repeat' first
    | with_reducible assumption
    | with_reducible intro _
    | with_reducible apply State.count_keeps
    | with_reducible apply Keeps.ite
    | split
    | dsimp only

theorem charge_keeps (cons : Option Nat) (off : Nat) (n : Nat) (h : Keeps ps s u) (hregs : Part.regs ∈ ps) :
    Keeps ps s (charge cons off n u) := by
  unfold charge
  repeat' first
    | with_reducible assumption
    | with_reducible intro _
    | with_reducible apply State.count_keeps
    | with_reducible apply chargeTo_keeps
    | with_reducible apply Keeps.ite
    | split
    | dsimp only

theorem dirty_keeps (off : Nat) (n : Nat) (h : Keeps ps s u) (hregs : Part.regs ∈ ps) :
    Keeps ps s (dirty off n u) := by
  unfold dirty
  repeat' with_reducible first
    | assumption | intro _ | apply State.set_keeps | apply Keeps.ite | apply Keeps.foldl

theorem noteRead_keeps (cons : Option Nat) (off : Nat) (n : Nat) (h : Keeps ps s u) (hregs : Part.regs ∈ ps) (hhbms : Part.hbms ∈ ps) :
    Keeps ps s (noteRead cons off n u) := by
  unfold noteRead
  repeat' first
    | with_reducible assumption
    | with_reducible intro _
    | with_reducible apply State.count_keeps
    | with_reducible apply accept_keeps
    | with_reducible apply charge_keeps
    | with_reducible apply Keeps.ite
    | split
    | dsimp only

theorem noteWrite_keeps (cons : Option Nat) (off : Nat) (n : Nat) (h : Keeps ps s u) (hregs : Part.regs ∈ ps) (hhbms : Part.hbms ∈ ps) :
    Keeps ps s (noteWrite cons off n u) := by
  unfold noteWrite
  repeat' first
    | with_reducible assumption
    | with_reducible intro _
    | with_reducible apply State.count_keeps
    | with_reducible apply accept_keeps
    | with_reducible apply charge_keeps
    | with_reducible apply dropFlips_keeps
    | with_reducible apply Keeps.ite
    | split
    | dsimp only

theorem memWrite_keeps (cons : Option Nat) (off : Nat) (bs : List Byte) (h : Keeps ps s u) (hregs : Part.regs ∈ ps) (hmem : Part.mem ∈ ps) (hpoison : Part.poison ∈ ps) (hhbms : Part.hbms ∈ ps) :
    Keeps ps s (memWrite cons off bs u) := by
  unfold memWrite
  repeat' first
    | with_reducible assumption
    | with_reducible intro _
    | with_reducible apply dirty_keeps
    | with_reducible apply noteWrite_keeps
    | with_reducible apply storeBytes_keeps
    | with_reducible apply Keeps.ite
    | split
    | dsimp only

theorem unitRead_keeps (w : Who) (off : Nat) (n : Nat) (h : Keeps ps s u) (hregs : Part.regs ∈ ps) (hpoison : Part.poison ∈ ps) (hhbms : Part.hbms ∈ ps) :
    Keeps ps s (unitRead w off n u).2.2 := by
  unfold unitRead
  repeat' first
    | with_reducible assumption
    | with_reducible intro _
    | with_reducible apply hbmFind_keeps
    | with_reducible apply noteRead_keeps
    | with_reducible apply noteRefused_keeps
    | with_reducible apply Keeps.ite3
    | with_reducible apply Keeps.ite
    | split
    | dsimp only

theorem unitWrite_keeps (w : Who) (off : Nat) (bs : List Byte) (h : Keeps ps s u) (hregs : Part.regs ∈ ps) (hmem : Part.mem ∈ ps) (hpoison : Part.poison ∈ ps) (hhbms : Part.hbms ∈ ps) :
    Keeps ps s (unitWrite w off bs u) := by
  unfold unitWrite
  repeat' with_reducible first
    | assumption | apply memWrite_keeps | apply noteRefused_keeps | split

theorem arriveLogical_keeps (l : Nat) (ctr : Nat) (inc : Nat) (h : Keeps ps s u) (hregs : Part.regs ∈ ps) (hcores : Part.cores ∈ ps) (hcoal : Part.coal ∈ ps) :
    Keeps ps s (arriveLogical l ctr inc u) := by
  unfold arriveLogical
  repeat' with_reducible first
    | assumption | apply arriveInc_keeps | split

end Sys2Proof.Machine
end

