-- ==== Sys2Proof/Laws/KeepsControl.lean ====
section
/-!
SUPPORT. What each operation of Machine/Control.lean keeps (Laws/Keeps.lean), and the parts of State it may change.
-/
namespace Sys2Proof.Machine

set_option linter.unreachableTactic false
set_option linter.unusedTactic false
set_option linter.tactic.unusedName false

variable {ps : List Part} {s u : State}

theorem nop_keeps (p : Nat) (h : Keeps ps s u) (hregs : Part.regs ∈ ps) (hcores : Part.cores ∈ ps) :
    Keeps ps s (nop p u) := by
  unfold nop
  repeat' first
    | with_reducible assumption
    | with_reducible intro _
    | with_reducible apply issue_keeps
    | with_reducible apply issueCmd_keeps
    | split
    | dsimp only

theorem finishList_keeps (p : Nat) (c : Cmd) (h : Keeps ps s u) (hregs : Part.regs ∈ ps) (hcores : Part.cores ∈ ps) (hcoal : Part.coal ∈ ps) :
    Keeps ps s (finishList p c u) := by
  unfold finishList
  repeat' first
    | with_reducible assumption
    | with_reducible intro _
    | with_reducible apply Keeps.setCore
    | with_reducible apply State.count_keeps
    | with_reducible apply State.raise_keeps
    | with_reducible apply State.set_keeps
    | with_reducible apply sigen_keeps
    | split
    | dsimp only

theorem listEnd_keeps (p : Nat) (h : Keeps ps s u) (hregs : Part.regs ∈ ps) (hcores : Part.cores ∈ ps) (hcoal : Part.coal ∈ ps) :
    Keeps ps s (listEnd p u) := by
  unfold listEnd
  repeat' first
    | with_reducible assumption
    | with_reducible intro _
    | with_reducible apply finishList_keeps
    | with_reducible apply issueCmd_keeps
    | split
    | dsimp only

theorem waitCmd_keeps (p : Nat) (h : Keeps ps s u) (hregs : Part.regs ∈ ps) (hcores : Part.cores ∈ ps) (hcoal : Part.coal ∈ ps) :
    Keeps ps s (waitCmd p u) := by
  unfold waitCmd
  repeat' first
    | with_reducible assumption
    | with_reducible intro _
    | with_reducible apply completeWait_keeps
    | with_reducible apply issue_keeps
    | with_reducible apply issueCmd_keeps
    | split
    | dsimp only

theorem waitTimeout_keeps (p : Nat) (h : Keeps ps s u) (hregs : Part.regs ∈ ps) (hcores : Part.cores ∈ ps) (hcoal : Part.coal ∈ ps) :
    Keeps ps s (waitTimeout p u) := by
  unfold waitTimeout
  repeat' with_reducible first
    | assumption | apply completeWait_keeps | apply haltList_keeps | split

theorem ctrset_keeps (p : Nat) (h : Keeps ps s u) (hregs : Part.regs ∈ ps) (hcores : Part.cores ∈ ps) :
    Keeps ps s (ctrset p u) := by
  unfold ctrset
  repeat' first
    | with_reducible assumption
    | with_reducible intro _
    | with_reducible apply issue_keeps
    | with_reducible apply issueCmd_keeps
    | split
    | dsimp only

theorem ctrcfg_keeps (p : Nat) (h : Keeps ps s u) (hregs : Part.regs ∈ ps) (hcores : Part.cores ∈ ps) :
    Keeps ps s (ctrcfg p u) := by
  unfold ctrcfg
  repeat' first
    | with_reducible assumption
    | with_reducible intro _
    | with_reducible apply issue_keeps
    | with_reducible apply issueCmd_keeps
    | split
    | dsimp only

theorem reservedOpcode_keeps (p : Nat) (h : Keeps ps s u) (hregs : Part.regs ∈ ps) (hcores : Part.cores ∈ ps) :
    Keeps ps s (reservedOpcode p u) := by
  unfold reservedOpcode
  repeat' with_reducible first
    | assumption | extract_lets +onlyGivenNames t | apply decodeFail_keeps | apply skipAhead_keeps | split

theorem latchRing_keeps (p : Nat) (h : Keeps ps s u) (hcores : Part.cores ∈ ps) :
    Keeps ps s (latchRing p u) := by
  unfold latchRing
  repeat' with_reducible first
    | assumption | apply Keeps.setCore

theorem startList_keeps (p : Nat) (pc : Nat) (skip : List Nat) (h : Keeps ps s u) (hregs : Part.regs ∈ ps) (hcores : Part.cores ∈ ps) :
    Keeps ps s (startList p pc skip u) := by
  unfold startList
  repeat' first
    | with_reducible assumption
    | with_reducible intro _
    | with_reducible apply Keeps.setCore
    | with_reducible apply State.set_keeps
    | split
    | dsimp only

theorem runCore_keeps (p : Nat) (h : Keeps ps s u) (hregs : Part.regs ∈ ps) (hcores : Part.cores ∈ ps) :
    Keeps ps s (runCore p u) := by
  unfold runCore
  repeat' with_reducible first
    | assumption | apply State.set_keeps | apply Keeps.setCore | apply latchRing_keeps | apply startList_keeps | split

theorem armCore_keeps (p : Nat) (h : Keeps ps s u) (hregs : Part.regs ∈ ps) (hcores : Part.cores ∈ ps) :
    Keeps ps s (armCore p u) := by
  unfold armCore
  repeat' with_reducible first
    | assumption | apply State.set_keeps | apply Keeps.setCore | apply latchRing_keeps | split

theorem listLaunch_keeps (p : Nat) (h : Keeps ps s u) (hregs : Part.regs ∈ ps) (hcores : Part.cores ∈ ps) :
    Keeps ps s (listLaunch p u) := by
  unfold listLaunch
  repeat' with_reducible first
    | assumption | apply startList_keeps | split

theorem killPoint_keeps (p : Nat) (h : Keeps ps s u) (hregs : Part.regs ∈ ps) :
    Keeps ps s (killPoint p u) := by
  unfold killPoint
  repeat' first
    | with_reducible assumption
    | with_reducible intro _
    | with_reducible apply State.set_keeps
    | split
    | dsimp only

theorem becomeKilled_keeps (p : Nat) (h : Keeps ps s u) (hregs : Part.regs ∈ ps) (hcores : Part.cores ∈ ps) :
    Keeps ps s (becomeKilled p u) := by
  unfold becomeKilled
  repeat' with_reducible first
    | assumption | apply State.raise_keeps | apply State.set_keeps | apply Keeps.setCore

theorem killCore_keeps (p : Nat) (h : Keeps ps s u) (hregs : Part.regs ∈ ps) (hcores : Part.cores ∈ ps) :
    Keeps ps s (killCore p u) := by
  unfold killCore
  repeat' with_reducible first
    | assumption | apply State.set_keeps | apply Keeps.setCore | apply becomeKilled_keeps | apply discardUncommitted_keeps
    | apply killPoint_keeps | apply Keeps.ite

theorem killDone_keeps (p : Nat) (h : Keeps ps s u) (hregs : Part.regs ∈ ps) (hcores : Part.cores ∈ ps) :
    Keeps ps s (killDone p u) := by
  unfold killDone
  repeat' with_reducible first
    | assumption | apply becomeKilled_keeps | split

theorem resumeCore_keeps (p : Nat) (h : Keeps ps s u) (hregs : Part.regs ∈ ps) (hcores : Part.cores ∈ ps) :
    Keeps ps s (resumeCore p u) := by
  unfold resumeCore
  repeat' with_reducible first
    | assumption | apply State.set_keeps | apply startList_keeps | apply Keeps.ite

theorem clearCore_keeps (p : Nat) (h : Keeps ps s u) (hregs : Part.regs ∈ ps) :
    Keeps ps s (clearCore p u) := by
  unfold clearCore
  repeat' with_reducible first
    | assumption | apply State.set_keeps | apply Keeps.ite

theorem coreTailWrite_keeps (p : Nat) (v : Word) (h : Keeps ps s u) (hregs : Part.regs ∈ ps) :
    Keeps ps s (coreTailWrite p v u) := by
  unfold coreTailWrite
  repeat' with_reducible first
    | assumption | apply State.raise_keeps | apply State.set_keeps | apply Keeps.ite

theorem coreArrWrite_keeps (p : Nat) (ctr : Nat) (v : Word) (h : Keeps ps s u) (hregs : Part.regs ∈ ps) (hcores : Part.cores ∈ ps) (hcoal : Part.coal ∈ ps) :
    Keeps ps s (coreArrWrite p ctr v u) := by
  unfold coreArrWrite
  repeat' with_reducible first
    | assumption | apply completeWait_keeps | apply setCounter_keeps | split

theorem queueRow_keeps (p : Nat) (row : Nat) (h : Keeps ps s u) (hregs : Part.regs ∈ ps) (hcores : Part.cores ∈ ps) :
    Keeps ps s (queueRow p row u) := by
  unfold queueRow
  repeat' with_reducible first
    | assumption | apply State.count_keeps | apply Keeps.setCore | apply Keeps.ite

theorem csCorrected_keeps (p : Nat) (a : Nat) (h : Keeps ps s u) (hregs : Part.regs ∈ ps) (hcores : Part.cores ∈ ps) :
    Keeps ps s (csCorrected p a u) := by
  unfold csCorrected
  repeat' with_reducible first
    | assumption | apply State.countSat_keeps | apply State.raise_keeps | apply Keeps.setCore | apply queueRow_keeps
    | apply Keeps.ite

theorem csUncorrectable_keeps (p : Nat) (a : Nat) (h : Keeps ps s u) (hregs : Part.regs ∈ ps) (hpoison : Part.poison ∈ ps) (hcores : Part.cores ∈ ps) :
    Keeps ps s (csUncorrectable p a u) := by
  unfold csUncorrectable
  repeat' with_reducible first
    | assumption | apply State.raise_keeps | apply State.set_keeps | apply poisonWord_keeps | apply queueRow_keeps

theorem csScrub_keeps (p : Nat) (corr : List CsAddr) (unc : List CsAddr) (h : Keeps ps s u) (hregs : Part.regs ∈ ps) (hpoison : Part.poison ∈ ps) (hcores : Part.cores ∈ ps) :
    Keeps ps s (csScrub p corr unc u) := by
  unfold csScrub
  repeat' with_reducible first
    | assumption | intro _ | apply csCorrected_keeps | apply csUncorrectable_keeps | apply Keeps.foldl

theorem csRowRepair_keeps (p : Nat) (h : Keeps ps s u) (hregs : Part.regs ∈ ps) (hcores : Part.cores ∈ ps) (hcoal : Part.coal ∈ ps) :
    Keeps ps s (csRowRepair p u) := by
  unfold csRowRepair
  repeat' with_reducible first
    | assumption | extract_lets +onlyGivenNames t | apply State.countSat_keeps | apply State.report_keeps
    | apply State.set_keeps | apply Keeps.setCore | apply Keeps.setWord | split

theorem coreFault_keeps (p : Nat) (h : Keeps ps s u) (hregs : Part.regs ∈ ps) (hcores : Part.cores ∈ ps) :
    Keeps ps s (coreFault p u) := by
  unfold coreFault
  repeat' with_reducible first
    | assumption | apply fenceCore_keeps

end Sys2Proof.Machine
end

