-- ==== Sys2Proof/Laws/KeepsVtSend.lean ====
section
/-!
SUPPORT. What each operation of Machine/VtSend.lean keeps (Laws/Keeps.lean), and the parts of State it may change.
-/
namespace Sys2Proof.Machine

set_option linter.unreachableTactic false
set_option linter.unusedTactic false
set_option linter.tactic.unusedName false

variable {ps : List Part} {s u : State}

theorem State.setLink_keeps (n : Nat) (l : LinkHid) (h : Keeps ps s u) (hlinks : Part.links ∈ ps) :
    Keeps ps s (State.setLink u n l) := by
  unfold State.setLink
  repeat' first
    | with_reducible assumption
    | (conv => (arg 3; arg 29)
       refine Keeps.mk' ?_ rfl rfl rfl rfl rfl rfl rfl
        (fun q hn => by cases q <;> first | exact rfl | exact ⟨rfl, rfl⟩ | exact absurd (by assumption) hn))

theorem toPort_keeps (n : Nat) (p : Packet) (h : Keeps ps s u) (hlinks : Part.links ∈ ps) :
    Keeps ps s (toPort n p u) := by
  unfold toPort
  repeat' first
    | with_reducible assumption
    | with_reducible apply State.setLink_keeps
    | split

theorem vtLast_keeps (k : Nat) (code : Nat) (node : Nat) (off : Nat) (h : Keeps ps s u) (hregs : Part.regs ∈ ps) :
    Keeps ps s (vtLast k code node off u) := by
  unfold vtLast
  repeat' first
    | with_reducible assumption
    | with_reducible apply State.set_keeps

theorem vtWarn_keeps (k : Nat) (code : Nat) (node : Nat) (detail : Nat) (irq : Fld) (h : Keeps ps s u) (hregs : Part.regs ∈ ps) (hcoal : Part.coal ∈ ps) :
    Keeps ps s (vtWarn k code node detail irq u) := by
  unfold vtWarn
  repeat' first
    | with_reducible assumption
    | with_reducible apply State.raise_keeps
    | with_reducible apply State.report_keeps
    | with_reducible apply vtLast_keeps

theorem arrive_keeps (v : Via) (p : Packet) (h : Keeps ps s u) (hregs : Part.regs ∈ ps) (hvt : Part.vt ∈ ps) :
    Keeps ps s (arrive v p u) := by
  unfold arrive
  repeat' first
    | with_reducible assumption
    | with_reducible apply State.count_keeps
    | dsimp only
    | (conv => (arg 3; arg 29)
       refine Keeps.mk' ?_ rfl rfl rfl rfl rfl rfl rfl
        (fun q hn => by cases q <;> first | exact rfl | exact ⟨rfl, rfl⟩ | exact absurd (by assumption) hn))

theorem transmit_keeps (k : Nat) (path : Path) (p : Packet) (h : Keeps ps s u) (hregs : Part.regs ∈ ps) (hvt : Part.vt ∈ ps) (hlinks : Part.links ∈ ps) :
    Keeps ps s (transmit k path p u) := by
  unfold transmit
  repeat' first
    | with_reducible assumption
    | with_reducible apply State.count_keeps
    | with_reducible apply arrive_keeps
    | with_reducible apply toPort_keeps
    | split

theorem sendFree_keeps (k : Nat) (node : Nat) (p : Packet) (h : Keeps ps s u) (hfree : Part.free ∈ ps) (hregs : Part.regs ∈ ps) (hvt : Part.vt ∈ ps) (hlinks : Part.links ∈ ps) :
    Keeps ps s (sendFree k node p u) := by
  unfold sendFree
  repeat' first
    | with_reducible assumption
    | with_reducible intro _
    | with_reducible apply State.drawWord_keeps
    | with_reducible apply transmit_keeps
    | with_reducible apply Keeps.ite
    | split
    | dsimp only

theorem showInflight_keeps (h : Keeps ps s u) (hregs : Part.regs ∈ ps) :
    Keeps ps s (showInflight u) := by
  unfold showInflight
  repeat' first
    | with_reducible assumption
    | with_reducible intro _
    | with_reducible apply State.set_keeps
    | with_reducible apply Keeps.foldl

theorem noteInflight_keeps (h : Keeps ps s u) (hregs : Part.regs ∈ ps) :
    Keeps ps s (noteInflight u) := by
  unfold noteInflight
  repeat' first
    | with_reducible assumption
    | with_reducible intro _
    | with_reducible apply showInflight_keeps
    | with_reducible apply Keeps.ite
    | split
    | dsimp only

theorem putSend_keeps (c : SendCtx) (h : Keeps ps s u) (hregs : Part.regs ∈ ps) (hvt : Part.vt ∈ ps) :
    Keeps ps s (putSend c u) := by
  unfold putSend
  repeat' first
    | with_reducible assumption
    | with_reducible intro _
    | with_reducible apply noteInflight_keeps
    | with_reducible apply Keeps.ite
    | split
    | dsimp only
    | (conv => (arg 3; arg 29)
       refine Keeps.mk' ?_ rfl rfl rfl rfl rfl rfl rfl
        (fun q hn => by cases q <;> first | exact rfl | exact ⟨rfl, rfl⟩ | exact absurd (by assumption) hn))

theorem dropSend_keeps (k : Nat) (node : Nat) (h : Keeps ps s u) (hregs : Part.regs ∈ ps) (hvt : Part.vt ∈ ps) :
    Keeps ps s (dropSend k node u) := by
  unfold dropSend
  repeat' first
    | with_reducible assumption
    | with_reducible intro _
    | with_reducible apply State.set_keeps
    | with_reducible apply noteInflight_keeps
    | with_reducible apply Keeps.ite
    | split
    | dsimp only
    | (conv => (arg 3; arg 29)
       refine Keeps.mk' ?_ rfl rfl rfl rfl rfl rfl rfl
        (fun q hn => by cases q <;> first | exact rfl | exact ⟨rfl, rfl⟩ | exact absurd (by assumption) hn))

theorem refreshSpray_keeps (h : Keeps ps s u) (hvt : Part.vt ∈ ps) :
    Keeps ps s (refreshSpray u) := by
  unfold refreshSpray
  repeat' first
    | with_reducible assumption
    | with_reducible intro _
    | with_reducible apply Keeps.ite
    | split
    | dsimp only
    | (conv => (arg 3; arg 29)
       refine Keeps.mk' ?_ rfl rfl rfl rfl rfl rfl rfl
        (fun q hn => by cases q <;> first | exact rfl | exact ⟨rfl, rfl⟩ | exact absurd (by assumption) hn))

theorem xferStep_keeps (xid : Nat) (status : Nat) (h : Keeps ps s u) (hregs : Part.regs ∈ ps) (hcores : Part.cores ∈ ps) (hcoal : Part.coal ∈ ps) (hvt : Part.vt ∈ ps) :
    Keeps ps s (xferStep xid status u) := by
  unfold xferStep
  repeat' first
    | with_reducible assumption
    | with_reducible apply arriveInc_keeps
    | split
    | dsimp only
    | (conv => (arg 3; arg 29)
       refine Keeps.mk' ?_ rfl rfl rfl rfl rfl rfl rfl
        (fun q hn => by cases q <;> first | exact rfl | exact ⟨rfl, rfl⟩ | exact absurd (by assumption) hn))

theorem completeReq_keeps (k : Nat) (agent : Agent) (status : Nat) (res : Nat) (psn : Nat) (gen : Nat) (h : Keeps ps s u) (hregs : Part.regs ∈ ps) (hcores : Part.cores ∈ ps) (hcoal : Part.coal ∈ ps) (hvt : Part.vt ∈ ps) :
    Keeps ps s (completeReq k agent status res psn gen u) := by
  unfold completeReq
  repeat' first
    | with_reducible assumption
    | with_reducible apply xferStep_keeps
    | split
    | (conv => (arg 3; arg 29)
       refine Keeps.mk' ?_ rfl rfl rfl rfl rfl rfl rfl
        (fun q hn => by cases q <;> first | exact rfl | exact ⟨rfl, rfl⟩ | exact absurd (by assumption) hn))

theorem landLoad_keeps (land : Option (Nat × Nat)) (bs : List Byte) (h : Keeps ps s u) (hregs : Part.regs ∈ ps) (hmem : Part.mem ∈ ps) (hpoison : Part.poison ∈ ps) :
    Keeps ps s (landLoad land bs u) := by
  unfold landLoad
  repeat' first
    | with_reducible assumption
    | with_reducible apply storeBytes_keeps
    | split

theorem refuseAtSource_keeps (k : Nat) (agent : Agent) (p : Packet) (land : Option (Nat × Nat)) (code : Nat) (h : Keeps ps s u) (hregs : Part.regs ∈ ps) (hmem : Part.mem ∈ ps) (hpoison : Part.poison ∈ ps) (hcores : Part.cores ∈ ps) (hcoal : Part.coal ∈ ps) (hvt : Part.vt ∈ ps) :
    Keeps ps s (refuseAtSource k agent p land code u) := by
  unfold refuseAtSource
  repeat' first
    | with_reducible assumption
    | with_reducible apply State.raise_keeps
    | with_reducible apply completeReq_keeps
    | with_reducible apply landLoad_keeps
    | with_reducible apply vtLast_keeps
    | split

theorem openSend_keeps (k : Nat) (node : Nat) (h : Keeps ps s u) (hregs : Part.regs ∈ ps) (hvt : Part.vt ∈ ps) :
    Keeps ps s (openSend k node u).2 := by
  unfold openSend
  repeat' first
    | with_reducible assumption
    | with_reducible intro _
    | with_reducible apply State.set_keeps
    | split
    | dsimp only
    | (conv => (arg 3; arg 29)
       refine Keeps.mk' ?_ rfl rfl rfl rfl rfl rfl rfl
        (fun q hn => by cases q <;> first | exact rfl | exact ⟨rfl, rfl⟩ | exact absurd (by assumption) hn))

theorem sendReq_keeps (w : WaitReq) (h : Keeps ps s u) (hregs : Part.regs ∈ ps) (hmem : Part.mem ∈ ps) (hpoison : Part.poison ∈ ps) (hcores : Part.cores ∈ ps) (hcoal : Part.coal ∈ ps) (hvt : Part.vt ∈ ps) (hlinks : Part.links ∈ ps) :
    Keeps ps s (sendReq w u) := by
  unfold sendReq
  repeat' first
    | with_reducible assumption
    | with_reducible intro _
    | with_reducible apply openSend_keeps
    | with_reducible apply putSend_keeps
    | with_reducible apply refuseAtSource_keeps
    | with_reducible apply transmit_keeps
    | with_reducible apply Keeps.ite
    | split
    | dsimp only
    | refine Keeps.of_eq2 (by assumption) ?_

theorem pumpList_keeps (x0 : List WaitReq) (h : Keeps ps s u) (hregs : Part.regs ∈ ps) (hmem : Part.mem ∈ ps) (hpoison : Part.poison ∈ ps) (hcores : Part.cores ∈ ps) (hcoal : Part.coal ∈ ps) (hvt : Part.vt ∈ ps) (hlinks : Part.links ∈ ps) :
    Keeps ps s (pumpList x0 u) := by
  induction x0 generalizing u <;> unfold pumpList
  all_goals repeat' first
    | (with_reducible apply_assumption)
    | with_reducible apply sendReq_keeps
    | split
    | (conv => (arg 3; arg 29)
       refine Keeps.mk' ?_ rfl rfl rfl rfl rfl rfl rfl
        (fun q hn => by cases q <;> first | exact rfl | exact ⟨rfl, rfl⟩ | exact absurd (by assumption) hn))

theorem pump_keeps (h : Keeps ps s u) (hregs : Part.regs ∈ ps) (hmem : Part.mem ∈ ps) (hpoison : Part.poison ∈ ps) (hcores : Part.cores ∈ ps) (hcoal : Part.coal ∈ ps) (hvt : Part.vt ∈ ps) (hlinks : Part.links ∈ ps) :
    Keeps ps s (pump u) := by
  unfold pump
  repeat' first
    | with_reducible assumption
    | with_reducible apply pumpList_keeps

theorem vtIssueOn_keeps (plane : Bool) (k : Nat) (node : Nat) (agent : Agent) (p : Packet) (land : Option (Nat × Nat)) (h : Keeps ps s u) (hregs : Part.regs ∈ ps) (hmem : Part.mem ∈ ps) (hpoison : Part.poison ∈ ps) (hcores : Part.cores ∈ ps) (hcoal : Part.coal ∈ ps) (hvt : Part.vt ∈ ps) (hlinks : Part.links ∈ ps) :
    Keeps ps s (vtIssueOn plane k node agent p land u) := by
  unfold vtIssueOn
  repeat' first
    | with_reducible assumption
    | with_reducible intro _
    | with_reducible apply sendReq_keeps
    | with_reducible apply Keeps.ite
    | split
    | dsimp only
    | (conv => (arg 3; arg 29)
       refine Keeps.mk' ?_ rfl rfl rfl rfl rfl rfl rfl
        (fun q hn => by cases q <;> first | exact rfl | exact ⟨rfl, rfl⟩ | exact absurd (by assumption) hn))

theorem vtIssue_keeps (k : Nat) (node : Nat) (agent : Agent) (p : Packet) (land : Option (Nat × Nat)) (h : Keeps ps s u) (hregs : Part.regs ∈ ps) (hmem : Part.mem ∈ ps) (hpoison : Part.poison ∈ ps) (hcores : Part.cores ∈ ps) (hcoal : Part.coal ∈ ps) (hvt : Part.vt ∈ ps) (hlinks : Part.links ∈ ps) :
    Keeps ps s (vtIssue k node agent p land u) := by
  unfold vtIssue
  repeat' first
    | with_reducible assumption
    | with_reducible intro _
    | with_reducible apply vtIssueOn_keeps
    | split
    | dsimp only

theorem finishOut_keeps (k : Nat) (node : Nat) (psn : Nat) (h : Keeps ps s u) (hregs : Part.regs ∈ ps) (hvt : Part.vt ∈ ps) :
    Keeps ps s (finishOut k node psn u) := by
  unfold finishOut
  repeat' first
    | with_reducible assumption
    | with_reducible apply putSend_keeps
    | split

theorem settleReq_keeps (k : Nat) (node : Nat) (psn : Nat) (h : Keeps ps s u) (hregs : Part.regs ∈ ps) (hcores : Part.cores ∈ ps) (hcoal : Part.coal ∈ ps) (hvt : Part.vt ∈ ps) :
    Keeps ps s (settleReq k node psn u) := by
  unfold settleReq
  repeat' first
    | with_reducible assumption
    | with_reducible apply State.raise_keeps
    | with_reducible apply completeReq_keeps
    | with_reducible apply dropSend_keeps
    | with_reducible apply finishOut_keeps
    | with_reducible apply vtLast_keeps
    | split

theorem mapOut_keeps (k : Nat) (node : Nat) (psn : Nat) (f : OutReq → OutReq) (h : Keeps ps s u) (hregs : Part.regs ∈ ps) (hvt : Part.vt ∈ ps) :
    Keeps ps s (mapOut k node psn f u) := by
  unfold mapOut
  repeat' first
    | with_reducible assumption
    | with_reducible apply putSend_keeps
    | split

theorem resend_keeps (k : Nat) (node : Nat) (psn : Nat) (h : Keeps ps s u) (hregs : Part.regs ∈ ps) (hvt : Part.vt ∈ ps) (hlinks : Part.links ∈ ps) :
    Keeps ps s (resend k node psn u) := by
  unfold resend
  repeat' first
    | with_reducible assumption
    | with_reducible intro _
    | with_reducible apply State.count_keeps
    | with_reducible apply putSend_keeps
    | with_reducible apply transmit_keeps
    | with_reducible apply Keeps.ite
    | split
    | dsimp only
    | refine Keeps.of_eq2 (by assumption) ?_

theorem resendAll_keeps (pick : SendCtx → OutReq → Bool) (h : Keeps ps s u) (hregs : Part.regs ∈ ps) (hvt : Part.vt ∈ ps) (hlinks : Part.links ∈ ps) :
    Keeps ps s (resendAll pick u) := by
  unfold resendAll
  repeat' first
    | with_reducible assumption
    | with_reducible intro _
    | with_reducible apply resend_keeps
    | with_reducible apply Keeps.foldl
    | split

end Sys2Proof.Machine
end

