-- ==== Sys2Proof/Laws/KeepsVtRecv.lean ====
section
/-!
SUPPORT. What each operation of Machine/VtRecv.lean keeps (Laws/Keeps.lean), and the parts of State it may change.
-/
namespace Sys2Proof.Machine

set_option linter.unreachableTactic false
set_option linter.unusedTactic false
set_option linter.tactic.unusedName false

variable {ps : List Part} {s u : State}

/-- The state in which a received packet leaves the part. -/
abbrev RxKind.state : RxKind → State
  | .gone t => t
  | .again _ t => t
  | .fresh _ t => t

theorem Keeps.again {p : Packet} {t : State} (h : Keeps ps s t) : Keeps ps s (RxKind.again p t).state := h

theorem Keeps.of_gone {r : RxKind} {t : State} (e : r = .gone t) (h : Keeps ps s r.state) : Keeps ps s t := by
  subst e; exact h

theorem Keeps.of_again {r : RxKind} {p : Packet} {t : State} (e : r = .again p t) (h : Keeps ps s r.state) : Keeps ps s t := by
  subst e; exact h

theorem Keeps.of_fresh {r : RxKind} {p : Packet} {t : State} (e : r = .fresh p t) (h : Keeps ps s r.state) : Keeps ps s t := by
  subst e; exact h

theorem creditBack_keeps (v : Via) (p : Packet) (h : Keeps ps s u) (hlinks : Part.links ∈ ps) :
    Keeps ps s (creditBack v p u) := by
  unfold creditBack
  repeat' first
    | with_reducible assumption
    | with_reducible intro _
    | with_reducible apply State.setLink_keeps
    | with_reducible apply Keeps.ite
    | split
    | dsimp only

theorem takeRecv_keeps (i : Nat) (h : Keeps ps s u) (hvt : Part.vt ∈ ps) (hlinks : Part.links ∈ ps) : KeepsO3 ps s (takeRecv i u) := by
  intro r e
  unfold takeRecv at e
  cases e1 : u.vt.recv[i]? with
  | none => rw [e1] at e; simp at e
  | some x =>
    rw [e1] at e
    obtain rfl := Option.some.inj e
    refine creditBack_keeps _ _ ?_ hlinks
    exact Keeps.mk' h rfl rfl rfl rfl rfl rfl rfl
      (fun q hn => by cases q <;> first | exact rfl | exact ⟨rfl, rfl⟩ | exact absurd hvt hn)

theorem ingress_keeps (v : Via) (p : Packet) (h : Keeps ps s u) (hregs : Part.regs ∈ ps) (hcoal : Part.coal ∈ ps) :
    Keeps ps s (ingress v p u).2 := by
  unfold ingress
  repeat' first
    | with_reducible assumption
    | with_reducible intro _
    | with_reducible apply State.count_keeps
    | with_reducible apply vtWarn_keeps
    | with_reducible apply Keeps.ite2
    | with_reducible apply Keeps.ite
    | split
    | dsimp only

theorem putRecv_keeps (c : RecvCtx) (h : Keeps ps s u) (hvt : Part.vt ∈ ps) :
    Keeps ps s (putRecv c u) := by
  unfold putRecv
  repeat' first
    | with_reducible assumption
    | (conv => (arg 3; arg 29)
       refine Keeps.mk' ?_ rfl rfl rfl rfl rfl rfl rfl
        (fun q hn => by cases q <;> first | exact rfl | exact ⟨rfl, rfl⟩ | exact absurd (by assumption) hn))

theorem sendAck_keeps (p : Packet) (h : Keeps ps s u) (hfree : Part.free ∈ ps) (hregs : Part.regs ∈ ps) (hvt : Part.vt ∈ ps) (hlinks : Part.links ∈ ps) :
    Keeps ps s (sendAck p u) := by
  unfold sendAck
  repeat' first
    | with_reducible assumption
    | with_reducible intro _
    | with_reducible apply sendFree_keeps
    | split
    | dsimp only

theorem sendNack_keeps (p : Packet) (status : Nat) (op : Nat) (h : Keeps ps s u) (hfree : Part.free ∈ ps) (hregs : Part.regs ∈ ps) (hvt : Part.vt ∈ ps) (hlinks : Part.links ∈ ps) :
    Keeps ps s (sendNack p status op u) := by
  unfold sendNack
  repeat' first
    | with_reducible assumption
    | with_reducible intro _
    | with_reducible apply sendFree_keeps
    | split
    | dsimp only

theorem sendRsp_keeps (p : Packet) (kind : Nat) (status : Nat) (data : List Byte) (res : Nat) (h : Keeps ps s u) (hfree : Part.free ∈ ps) (hregs : Part.regs ∈ ps) (hvt : Part.vt ∈ ps) (hlinks : Part.links ∈ ps) :
    Keeps ps s (sendRsp p kind status data res u) := by
  unfold sendRsp
  repeat' first
    | with_reducible assumption
    | with_reducible intro _
    | with_reducible apply sendFree_keeps
    | split
    | dsimp only

theorem releaseHeld_keeps (c : RecvCtx) (h : Keeps ps s u) (hvt : Part.vt ∈ ps) :
    Keeps ps s (releaseHeld c u) := by
  unfold releaseHeld
  repeat' first
    | with_reducible assumption
    | with_reducible intro _
    | with_reducible apply putRecv_keeps
    | split
    | dsimp only
    | (conv => (arg 3; arg 29)
       refine Keeps.mk' ?_ rfl rfl rfl rfl rfl rfl rfl
        (fun q hn => by cases q <;> first | exact rfl | exact ⟨rfl, rfl⟩ | exact absurd (by assumption) hn))

theorem vtApplied_keeps (p : Packet) (h : Keeps ps s u) (hfree : Part.free ∈ ps) (hregs : Part.regs ∈ ps) (hvt : Part.vt ∈ ps) (hlinks : Part.links ∈ ps) :
    Keeps ps s (vtApplied p u) := by
  unfold vtApplied
  repeat' first
    | with_reducible assumption
    | with_reducible apply releaseHeld_keeps
    | with_reducible apply sendAck_keeps
    | split

theorem vtRefused_keeps (p : Packet) (code : Nat) (h : Keeps ps s u) (hfree : Part.free ∈ ps) (hregs : Part.regs ∈ ps) (hvt : Part.vt ∈ ps) (hlinks : Part.links ∈ ps) :
    Keeps ps s (vtRefused p code u) := by
  unfold vtRefused
  repeat' first
    | with_reducible assumption
    | with_reducible apply releaseHeld_keeps
    | with_reducible apply sendNack_keeps
    | split

theorem freeTab_keeps (k : Nat) (node : Nat) (h : Keeps ps s u) (hregs : Part.regs ∈ ps) (hvt : Part.vt ∈ ps) :
    Keeps ps s (freeTab k node u) := by
  unfold freeTab
  repeat' first
    | with_reducible assumption
    | with_reducible apply State.set_keeps
    | split
    | (conv => (arg 3; arg 29)
       refine Keeps.mk' ?_ rfl rfl rfl rfl rfl rfl rfl
        (fun q hn => by cases q <;> first | exact rfl | exact ⟨rfl, rfl⟩ | exact absurd (by assumption) hn))

theorem openRecv_keeps (p : Packet) (h : Keeps ps s u) (hregs : Part.regs ∈ ps) (hvt : Part.vt ∈ ps) :
    Keeps ps s (openRecv p u) := by
  unfold openRecv
  repeat' first
    | with_reducible assumption
    | with_reducible apply State.set_keeps
    | with_reducible apply freeTab_keeps
    | with_reducible apply putRecv_keeps
    | split
    | dsimp only
    | (conv => (arg 3; arg 29)
       refine Keeps.mk' ?_ rfl rfl rfl rfl rfl rfl rfl
        (fun q hn => by cases q <;> first | exact rfl | exact ⟨rfl, rfl⟩ | exact absurd (by assumption) hn))

theorem sortPsn_none {v : Via} {p : Packet} (e : recvCtx u p.h.stream p.h.src = none) : sortPsn v p u = .gone u := by
  unfold sortPsn; rw [e]

theorem sortPsn_some {v : Via} {p : Packet} {c : RecvCtx} (e : recvCtx u p.h.stream p.h.src = some c) :
    sortPsn v p u =
      if c.has p.h.psn then .again p (sendAck p (u.count (VT_DUPS_COUNT p.h.stream) 1))
      else if p.h.flag = 1 ∧ p.h.psn ≠ c.horizon then
        if c.held.any (fun q => q.2.h.psn == p.h.psn) then .gone u
        else .gone (putRecv { c with held := c.held ++ [(v, p)] } u)
      else .fresh p u := by
  unfold sortPsn; rw [e]

theorem sortPsn_keeps (v : Via) (p : Packet) (h : Keeps ps s u) (hfree : Part.free ∈ ps) (hregs : Part.regs ∈ ps)
    (hvt : Part.vt ∈ ps) (hlinks : Part.links ∈ ps) : Keeps ps s (sortPsn v p u).state := by
  cases e : recvCtx u p.h.stream p.h.src with
  | none => rw [sortPsn_none e]; exact h
  | some c =>
    rw [sortPsn_some e]
    by_cases h1 : c.has p.h.psn = true
    · rw [if_pos h1]
      exact Keeps.again (sendAck_keeps p (State.count_keeps _ 1 h hregs) hfree hregs hvt hlinks)
    · rw [if_neg h1]
      by_cases h2 : p.h.flag = 1 ∧ p.h.psn ≠ c.horizon
      · rw [if_pos h2]
        by_cases h3 : c.held.any (fun q => q.2.h.psn == p.h.psn) = true
        · rw [if_pos h3]; exact h
        · rw [if_neg h3]; exact putRecv_keeps _ h hvt
      · rw [if_neg h2]; exact h

theorem rackFree_keeps (p : Packet) (h : Keeps ps s u) (hvt : Part.vt ∈ ps) :
    Keeps ps s (rackFree p u) := by
  unfold rackFree
  repeat' first
    | with_reducible assumption
    | (conv => (arg 3; arg 29)
       refine Keeps.mk' ?_ rfl rfl rfl rfl rfl rfl rfl
        (fun q hn => by cases q <;> first | exact rfl | exact ⟨rfl, rfl⟩ | exact absurd (by assumption) hn))

theorem vtTake_keeps (ok : Packet → Bool) (i : Nat) (h : Keeps ps s u) (hfree : Part.free ∈ ps) (hregs : Part.regs ∈ ps) (hcoal : Part.coal ∈ ps) (hvt : Part.vt ∈ ps) (hlinks : Part.links ∈ ps) :
    Keeps ps s (vtTake ok i u).state := by
  unfold vtTake
  repeat' first
    | with_reducible assumption
    | extract_lets +onlyGivenNames t
    | with_reducible apply State.count_keeps
    | with_reducible apply ingress_keeps
    | with_reducible apply openRecv_keeps
    | with_reducible apply rackFree_keeps
    | with_reducible apply sendNack_keeps
    | with_reducible apply sortPsn_keeps
    | with_reducible apply takeRecv_keeps
    | split
    | refine Keeps.of_some3 (by assumption) ?_

theorem vtTakeReply_keeps (ok : Packet → Bool) (i : Nat) (h : Keeps ps s u) (hregs : Part.regs ∈ ps) (hcoal : Part.coal ∈ ps) (hvt : Part.vt ∈ ps) (hlinks : Part.links ∈ ps) :
    KeepsO2 ps s (vtTakeReply ok i u) := by
  unfold vtTakeReply
  repeat' first
    | with_reducible assumption
    | with_reducible apply ingress_keeps
    | with_reducible apply takeRecv_keeps
    | with_reducible apply KeepsO.ite
    | with_reducible apply KeepsO.some
    | with_reducible apply KeepsO2.ite
    | with_reducible apply KeepsO2.some
    | exact KeepsO2.none
    | exact KeepsO.none
    | split
    | refine Keeps.of_some3 (by assumption) ?_

theorem arriveOf_keeps (p : Packet) (h : Keeps ps s u) (hregs : Part.regs ∈ ps) (hcores : Part.cores ∈ ps) (hcoal : Part.coal ∈ ps) :
    Keeps ps s (arriveOf p u) := by
  unfold arriveOf
  repeat' first
    | with_reducible assumption
    | with_reducible apply arriveLogical_keeps
    | split

theorem bindTab_keeps (p : Packet) (h : Keeps ps s u) (hregs : Part.regs ∈ ps) (hvt : Part.vt ∈ ps) :
    Keeps ps s (bindTab p u).2 := by
  unfold bindTab
  repeat' first
    | with_reducible assumption
    | with_reducible apply State.set_keeps
    | split
    | (conv => (arg 3; arg 29)
       refine Keeps.mk' ?_ rfl rfl rfl rfl rfl rfl rfl
        (fun q hn => by cases q <;> first | exact rfl | exact ⟨rfl, rfl⟩ | exact absurd (by assumption) hn))

theorem storeReplay_keeps (p : Packet) (status : Nat) (res : Nat) (h : Keeps ps s u) (hvt : Part.vt ∈ ps) :
    Keeps ps s (storeReplay p status res u) := by
  unfold storeReplay
  repeat' first
    | with_reducible assumption
    | (conv => (arg 3; arg 29)
       refine Keeps.mk' ?_ rfl rfl rfl rfl rfl rfl rfl
        (fun q hn => by cases q <;> first | exact rfl | exact ⟨rfl, rfl⟩ | exact absurd (by assumption) hn))

theorem replayAtomic_keeps (p : Packet) (h : Keeps ps s u) (hfree : Part.free ∈ ps) (hregs : Part.regs ∈ ps) (hvt : Part.vt ∈ ps) (hlinks : Part.links ∈ ps) :
    Keeps ps s (replayAtomic p u) := by
  unfold replayAtomic
  repeat' first
    | with_reducible assumption
    | with_reducible apply sendRsp_keeps
    | split

theorem atomicOp_keeps (op : Nat) (n : Nat) (p : Packet) (h : Keeps ps s u) (hfree : Part.free ∈ ps) (hregs : Part.regs ∈ ps) (hmem : Part.mem ∈ ps) (hpoison : Part.poison ∈ ps) (hhbms : Part.hbms ∈ ps) :
    Keeps ps s (atomicOp op n p u).2.2 := by
  unfold atomicOp
  repeat' first
    | with_reducible assumption
    | with_reducible intro _
    | with_reducible apply State.drawWord_keeps
    | with_reducible apply hbmFind_keeps
    | with_reducible apply memWrite_keeps
    | with_reducible apply noteRead_keeps
    | with_reducible apply noteRefused_keeps
    | with_reducible apply vtLast_keeps
    | with_reducible apply Keeps.ite3
    | with_reducible apply Keeps.ite
    | split
    | dsimp only

theorem recvAtomic_keeps (op : Nat) (n : Nat) (i : Nat) (h : Keeps ps s u) (hfree : Part.free ∈ ps) (hregs : Part.regs ∈ ps) (hmem : Part.mem ∈ ps) (hpoison : Part.poison ∈ ps) (hcores : Part.cores ∈ ps) (hcoal : Part.coal ∈ ps) (hvt : Part.vt ∈ ps) (hlinks : Part.links ∈ ps) (hhbms : Part.hbms ∈ ps) :
    Keeps ps s (recvAtomic op n i u) := by
  unfold recvAtomic
  repeat' first
    | with_reducible assumption
    | with_reducible intro _
    | with_reducible apply arriveOf_keeps
    | with_reducible apply atomicOp_keeps
    | with_reducible apply bindTab_keeps
    | with_reducible apply replayAtomic_keeps
    | with_reducible apply sendNack_keeps
    | with_reducible apply sendRsp_keeps
    | with_reducible apply storeReplay_keeps
    | with_reducible apply vtApplied_keeps
    | with_reducible apply vtTake_keeps
    | with_reducible apply Keeps.ite
    | split
    | dsimp only
    | refine Keeps.of_gone (by assumption) ?_
    | refine Keeps.of_again (by assumption) ?_
    | refine Keeps.of_fresh (by assumption) ?_

theorem loadRsp_keeps (i : Nat) (h : Keeps ps s u) (hregs : Part.regs ∈ ps) (hmem : Part.mem ∈ ps) (hpoison : Part.poison ∈ ps) (hcores : Part.cores ∈ ps) (hcoal : Part.coal ∈ ps) (hvt : Part.vt ∈ ps) (hlinks : Part.links ∈ ps) :
    Keeps ps s (loadRsp i u) := by
  unfold loadRsp
  repeat' first
    | with_reducible assumption
    | extract_lets +onlyGivenNames t
    | with_reducible apply landLoad_keeps
    | with_reducible apply mapOut_keeps
    | with_reducible apply pump_keeps
    | with_reducible apply settleReq_keeps
    | with_reducible apply vtTakeReply_keeps
    | split
    | refine Keeps.of_some2 (by assumption) ?_

theorem atomicRsp_keeps (i : Nat) (h : Keeps ps s u) (hregs : Part.regs ∈ ps) (hmem : Part.mem ∈ ps) (hpoison : Part.poison ∈ ps) (hcores : Part.cores ∈ ps) (hcoal : Part.coal ∈ ps) (hvt : Part.vt ∈ ps) (hlinks : Part.links ∈ ps) :
    Keeps ps s (atomicRsp i u) := by
  unfold atomicRsp
  repeat' first
    | with_reducible assumption
    | extract_lets +onlyGivenNames t
    | with_reducible apply mapOut_keeps
    | with_reducible apply pump_keeps
    | with_reducible apply settleReq_keeps
    | with_reducible apply vtTakeReply_keeps
    | split
    | refine Keeps.of_some2 (by assumption) ?_

theorem vtAck_keeps (i : Nat) (h : Keeps ps s u) (hregs : Part.regs ∈ ps) (hmem : Part.mem ∈ ps) (hpoison : Part.poison ∈ ps) (hcores : Part.cores ∈ ps) (hcoal : Part.coal ∈ ps) (hvt : Part.vt ∈ ps) (hlinks : Part.links ∈ ps) :
    Keeps ps s (vtAck i u) := by
  unfold vtAck
  repeat' first
    | with_reducible assumption
    | with_reducible intro _
    | with_reducible apply mapOut_keeps
    | with_reducible apply pump_keeps
    | with_reducible apply settleReq_keeps
    | with_reducible apply vtTakeReply_keeps
    | with_reducible apply Keeps.foldl
    | with_reducible apply Keeps.foldlP
    | with_reducible apply Keeps.ite
    | split
    | dsimp only
    | refine Keeps.of_some2 (by assumption) ?_
    | refine Keeps.of_some2r (by assumption) ?_
    | refine Keeps.of_eq2 (by assumption) ?_

theorem nack_keeps (i : Nat) (h : Keeps ps s u) (hregs : Part.regs ∈ ps) (hmem : Part.mem ∈ ps) (hpoison : Part.poison ∈ ps) (hcores : Part.cores ∈ ps) (hcoal : Part.coal ∈ ps) (hvt : Part.vt ∈ ps) (hlinks : Part.links ∈ ps) :
    Keeps ps s (nack i u) := by
  unfold nack
  repeat' first
    | with_reducible assumption
    | extract_lets +onlyGivenNames t
    | with_reducible apply State.raise_keeps
    | with_reducible apply completeReq_keeps
    | with_reducible apply finishOut_keeps
    | with_reducible apply mapOut_keeps
    | with_reducible apply pump_keeps
    | with_reducible apply vtLast_keeps
    | with_reducible apply vtTakeReply_keeps
    | split
    | refine Keeps.of_some2 (by assumption) ?_

theorem close_keeps (i : Nat) (h : Keeps ps s u) (hfree : Part.free ∈ ps) (hregs : Part.regs ∈ ps) (hcoal : Part.coal ∈ ps) (hvt : Part.vt ∈ ps) (hlinks : Part.links ∈ ps) :
    Keeps ps s (close i u) := by
  unfold close
  repeat' first
    | with_reducible assumption
    | with_reducible apply State.set_keeps
    | with_reducible apply freeTab_keeps
    | with_reducible apply putRecv_keeps
    | with_reducible apply vtApplied_keeps
    | with_reducible apply vtTake_keeps
    | split
    | (conv => (arg 3; arg 29)
       refine Keeps.mk' ?_ rfl rfl rfl rfl rfl rfl rfl
        (fun q hn => by cases q <;> first | exact rfl | exact ⟨rfl, rfl⟩ | exact absurd (by assumption) hn))
    | refine Keeps.of_gone (by assumption) ?_
    | refine Keeps.of_again (by assumption) ?_
    | refine Keeps.of_fresh (by assumption) ?_

theorem loadMem_keeps (p : Packet) (h : Keeps ps s u) (hregs : Part.regs ∈ ps) (hpoison : Part.poison ∈ ps) (hhbms : Part.hbms ∈ ps) :
    Keeps ps s (loadMem p u).2.2 := by
  unfold loadMem
  repeat' first
    | with_reducible assumption
    | with_reducible intro _
    | with_reducible apply hbmFind_keeps
    | with_reducible apply noteRead_keeps
    | with_reducible apply noteRefused_keeps
    | with_reducible apply Keeps.ite3
    | with_reducible apply Keeps.ite
    | split
    | dsimp only

theorem storeMem_keeps (p : Packet) (h : Keeps ps s u) (hregs : Part.regs ∈ ps) (hmem : Part.mem ∈ ps) (hpoison : Part.poison ∈ ps) (hhbms : Part.hbms ∈ ps) :
    Keeps ps s (storeMem p u).2 := by
  unfold storeMem
  repeat' first
    | with_reducible assumption
    | with_reducible apply memWrite_keeps
    | with_reducible apply noteRefused_keeps
    | with_reducible apply Keeps.ite
    | with_reducible apply Keeps.ite2

end Sys2Proof.Machine
end

