-- ==== Sys2Proof/Laws/KeepsRings.lean ====
section
/-!
SUPPORT. What each operation of Machine/Rings.lean keeps (Laws/Keeps.lean), and the parts of State it may change.
-/
namespace Sys2Proof.Machine

set_option linter.unreachableTactic false
set_option linter.unusedTactic false
set_option linter.tactic.unusedName false

variable {ps : List Part} {s u : State}

theorem ringNote_keeps (r : RingRegs) (h : Keeps ps s u) (hregs : Part.regs ∈ ps) :
    Keeps ps s (ringNote r u) := by
  unfold ringNote
  repeat' with_reducible first
    | assumption | apply State.set_keeps

theorem tailWrite_keeps (r : RingRegs) (v : Word) (h : Keeps ps s u) (hregs : Part.regs ∈ ps) :
    Keeps ps s (tailWrite r v u) := by
  unfold tailWrite
  repeat' with_reducible first
    | assumption | apply State.raise_keeps | apply State.set_keeps | apply ringNote_keeps | apply Keeps.ite

theorem sizeWrite_keeps (r : RingRegs) (v : Word) (h : Keeps ps s u) (hregs : Part.regs ∈ ps) :
    Keeps ps s (sizeWrite r v u) := by
  unfold sizeWrite
  repeat' with_reducible first
    | assumption | apply State.set_keeps | apply ringNote_keeps | apply Keeps.ite

theorem ringAdvance_keeps (r : RingRegs) (h : Keeps ps s u) (hregs : Part.regs ∈ ps) :
    Keeps ps s (ringAdvance r u) := by
  unfold ringAdvance
  repeat' with_reducible first
    | assumption | apply State.set_keeps

theorem readDescr_keeps (w : Who) (r : RingRegs) (i : Nat) (h : Keeps ps s u) (hregs : Part.regs ∈ ps) (hpoison : Part.poison ∈ ps) (hhbms : Part.hbms ∈ ps) :
    Keeps ps s (readDescr w r i u).2 := by
  unfold readDescr
  repeat' with_reducible first
    | assumption | apply unitRead_keeps | apply Keeps.ite | apply Keeps.ite2

theorem DoneF.run_keeps (d : DoneF) (h : Keeps ps s u) (hregs : Part.regs ∈ ps) (hcores : Part.cores ∈ ps) (hcoal : Part.coal ∈ ps) :
    Keeps ps s (DoneF.run d u) := by
  unfold DoneF.run
  repeat' with_reducible first
    | assumption | apply arriveLogical_keeps | split

theorem writeWords_keeps (w : Who) (ga : Nat) (ws : List Nat) (h : Keeps ps s u) (hregs : Part.regs ∈ ps) (hmem : Part.mem ∈ ps) (hpoison : Part.poison ∈ ps) (hhbms : Part.hbms ∈ ps) :
    Keeps ps s (writeWords w ga ws u) := by
  unfold writeWords
  repeat' with_reducible first
    | assumption | apply unitWrite_keeps

theorem rdWarn_keeps (k : Nat) (sub : Nat) (code : Nat) (detail : Nat) (h : Keeps ps s u) (hregs : Part.regs ∈ ps) (hcoal : Part.coal ∈ ps) :
    Keeps ps s (rdWarn k sub code detail u) := by
  unfold rdWarn
  repeat' with_reducible first
    | assumption | apply State.report_keeps

end Sys2Proof.Machine
end

