-- ==== Sys2Proof/Laws/KeepsWinnower.lean ====
section
/-!
SUPPORT. What each operation of Machine/Winnower.lean keeps (Laws/Keeps.lean), and the parts of State it may change.
-/
namespace Sys2Proof.Machine

set_option linter.unreachableTactic false
set_option linter.unusedTactic false
set_option linter.tactic.unusedName false

variable {ps : List Part} {s u : State}

theorem State.setWin_keeps (k : Nat) (w : WinHid) (h : Keeps ps s u) (hwins : Part.wins ∈ ps) :
    Keeps ps s (State.setWin u k w) := by
  unfold State.setWin
  repeat' first
    | with_reducible assumption
    | (conv => (arg 3; arg 29)
       refine Keeps.mk' ?_ rfl rfl rfl rfl rfl rfl rfl
        (fun q hn => by cases q <;> first | exact rfl | exact ⟨rfl, rfl⟩ | exact absurd (by assumption) hn))

theorem winTailWrite_keeps (k : Nat) (n : Nat) (v : Word) (h : Keeps ps s u) (hregs : Part.regs ∈ ps) :
    Keeps ps s (winTailWrite k n v u) := by
  unfold winTailWrite
  repeat' first
    | with_reducible assumption
    | with_reducible apply tailWrite_keeps

theorem putJob_keeps (k : Nat) (j : WinJob) (h : Keeps ps s u) (hwins : Part.wins ∈ ps) :
    Keeps ps s (putJob k j u) := by
  unfold putJob
  repeat' first
    | with_reducible assumption
    | with_reducible apply State.setWin_keeps

theorem winWarn_keeps (k : Nat) (bit : Nat) (code : Nat) (j : WinJob) (h : Keeps ps s u) (hregs : Part.regs ∈ ps) (hcoal : Part.coal ∈ ps) :
    Keeps ps s (winWarn k bit code j u).2 := by
  unfold winWarn
  repeat' first
    | with_reducible assumption
    | with_reducible apply State.raise_keeps
    | with_reducible apply rdWarn_keeps

theorem winPass_keeps (k : Nat) (r : WinRec) (h : Keeps ps s u) (hwins : Part.wins ∈ ps) :
    Keeps ps s (winPass k r u) := by
  unfold winPass
  repeat' first
    | with_reducible assumption
    | with_reducible apply State.setWin_keeps

theorem winBusy_keeps (k : Nat) (h : Keeps ps s u) (hregs : Part.regs ∈ ps) :
    Keeps ps s (winBusy k u) := by
  unfold winBusy
  repeat' first
    | with_reducible assumption
    | with_reducible intro _
    | with_reducible apply State.set_keeps
    | split
    | dsimp only

theorem winFinish_keeps (k : Nat) (j : WinJob) (status : Nat) (h : Keeps ps s u) (hregs : Part.regs ∈ ps) (hmem : Part.mem ∈ ps) (hpoison : Part.poison ∈ ps) (hcores : Part.cores ∈ ps) (hcoal : Part.coal ∈ ps) (hwins : Part.wins ∈ ps) (hhbms : Part.hbms ∈ ps) :
    Keeps ps s (winFinish k j status u) := by
  unfold winFinish
  repeat' first
    | with_reducible assumption
    | with_reducible intro _
    | with_reducible apply Keeps.setWord
    | with_reducible apply State.raise_keeps
    | with_reducible apply State.set_keeps
    | with_reducible apply State.setWin_keeps
    | with_reducible apply DoneF.run_keeps
    | with_reducible apply ringAdvance_keeps
    | with_reducible apply winBusy_keeps
    | with_reducible apply winPass_keeps
    | with_reducible apply writeWords_keeps
    | with_reducible apply Keeps.ite
    | split
    | dsimp only
    | refine Keeps.of_eq2 (by assumption) ?_

theorem winUnread_keeps (k : Nat) (n : Nat) (h : Keeps ps s u) (hregs : Part.regs ∈ ps) :
    Keeps ps s (winUnread k n u) := by
  unfold winUnread
  repeat' first
    | with_reducible assumption
    | with_reducible apply State.raise_keeps
    | with_reducible apply State.set_keeps
    | with_reducible apply ringAdvance_keeps

theorem winServed_keeps (k : Nat) (n : Nat) (h : Keeps ps s u) (hregs : Part.regs ∈ ps) (hwins : Part.wins ∈ ps) :
    Keeps ps s (winServed k n u) := by
  unfold winServed
  repeat' first
    | with_reducible assumption
    | with_reducible apply State.set_keeps
    | with_reducible apply State.setWin_keeps

theorem winShow_keeps (k : Nat) (j : WinJob) (h : Keeps ps s u) (hregs : Part.regs ∈ ps) :
    Keeps ps s (winShow k j u) := by
  unfold winShow
  repeat' first
    | with_reducible assumption
    | with_reducible intro _
    | with_reducible apply State.set_keeps
    | with_reducible apply winBusy_keeps
    | split
    | dsimp only

theorem winRead_keeps (k : Nat) (n : Nat) (ga : Nat) (len : Nat) (h : Keeps ps s u) (hregs : Part.regs ∈ ps) (hpoison : Part.poison ∈ ps) (hhbms : Part.hbms ∈ ps) :
    Keeps ps s (winRead k n ga len u).2.2 := by
  unfold winRead
  repeat' first
    | with_reducible assumption
    | with_reducible apply unitRead_keeps

theorem winLoad_keeps (k : Nat) (j : WinJob) (h : Keeps ps s u) (hregs : Part.regs ∈ ps) (hmem : Part.mem ∈ ps) (hpoison : Part.poison ∈ ps) (hcores : Part.cores ∈ ps) (hcoal : Part.coal ∈ ps) (hwins : Part.wins ∈ ps) (hhbms : Part.hbms ∈ ps) :
    Keeps ps s (winLoad k j u) := by
  unfold winLoad
  repeat' first
    | with_reducible assumption
    | with_reducible apply putJob_keeps
    | with_reducible apply winFinish_keeps
    | with_reducible apply winRead_keeps
    | with_reducible apply winShow_keeps
    | with_reducible apply Keeps.ite
    | split

theorem winStart_keeps (sample : Bool) (k : Nat) (h : Keeps ps s u) (hregs : Part.regs ∈ ps) (hmem : Part.mem ∈ ps) (hpoison : Part.poison ∈ ps) (hcores : Part.cores ∈ ps) (hcoal : Part.coal ∈ ps) (hwins : Part.wins ∈ ps) (hhbms : Part.hbms ∈ ps) :
    Keeps ps s (winStart sample k u) := by
  unfold winStart
  repeat' first
    | with_reducible assumption
    | with_reducible intro _
    | with_reducible apply readDescr_keeps
    | with_reducible apply winFinish_keeps
    | with_reducible apply winLoad_keeps
    | with_reducible apply winUnread_keeps
    | with_reducible apply Keeps.ite
    | split
    | dsimp only
    | refine Keeps.of_eq2 (by assumption) ?_

theorem route_keeps (k : Nat) (h : Keeps ps s u) (hregs : Part.regs ∈ ps) (hmem : Part.mem ∈ ps) (hpoison : Part.poison ∈ ps) (hcores : Part.cores ∈ ps) (hcoal : Part.coal ∈ ps) (hwins : Part.wins ∈ ps) (hhbms : Part.hbms ∈ ps) :
    Keeps ps s (route k u) := by
  unfold route
  repeat' first
    | with_reducible assumption
    | with_reducible apply winStart_keeps

theorem sample_keeps (k : Nat) (h : Keeps ps s u) (hregs : Part.regs ∈ ps) (hmem : Part.mem ∈ ps) (hpoison : Part.poison ∈ ps) (hcores : Part.cores ∈ ps) (hcoal : Part.coal ∈ ps) (hwins : Part.wins ∈ ps) (hhbms : Part.hbms ∈ ps) :
    Keeps ps s (sample k u) := by
  unfold sample
  repeat' first
    | with_reducible assumption
    | with_reducible apply winStart_keeps

theorem winLogits_keeps (k : Nat) (j : WinJob) (n : Nat) (h : Keeps ps s u) (hregs : Part.regs ∈ ps) (hpoison : Part.poison ∈ ps) (hhbms : Part.hbms ∈ ps) :
    Keeps ps s (winLogits k j n u).2.2 := by
  unfold winLogits
  repeat' first
    | with_reducible assumption
    | extract_lets +onlyGivenNames t
    | with_reducible apply winRead_keeps
    | split

theorem routeItem_keeps (k : Nat) (j : WinJob) (h : Keeps ps s u) (hregs : Part.regs ∈ ps) (hpoison : Part.poison ∈ ps) (hcoal : Part.coal ∈ ps) (hwins : Part.wins ∈ ps) (hhbms : Part.hbms ∈ ps) :
    Keeps ps s (routeItem k j u).st := by
  unfold routeItem
  repeat' first
    | with_reducible assumption
    | with_reducible intro _
    | extract_lets +onlyGivenNames t
    | with_reducible apply State.count_keeps
    | with_reducible apply winLogits_keeps
    | with_reducible apply winPass_keeps
    | with_reducible apply winRead_keeps
    | with_reducible apply winWarn_keeps
    | with_reducible apply Keeps.ite
    | with_reducible apply Keeps.ite2
    | with_reducible apply Keeps.foldl
    | split

theorem sampleItem_keeps (k : Nat) (j : WinJob) (h : Keeps ps s u) (hregs : Part.regs ∈ ps) (hmem : Part.mem ∈ ps) (hpoison : Part.poison ∈ ps) (hcoal : Part.coal ∈ ps) (hhbms : Part.hbms ∈ ps) :
    Keeps ps s (sampleItem k j u).st := by
  unfold sampleItem
  repeat' first
    | with_reducible assumption
    | (extract_lets +onlyGivenNames t
       first
       | (refine Keeps.gen ps s t ?_ ?_
          on_goal 1 => subst t
          on_goal 2 => (intro ht; clear_value t))
       | (refine Keeps.gen ps s t.2 ?_ ?_
          on_goal 1 => subst t
          on_goal 2 => (intro ht; clear_value t))
       | (refine Keeps.gen ps s t.2.2 ?_ ?_
          on_goal 1 => subst t
          on_goal 2 => (intro ht; clear_value t))
       | (have hf := fun x => t x
          clear hf
          subst t
          try beta_reduce)
       | clear_value t)
    | with_reducible apply State.count_keeps
    | with_reducible apply unitWrite_keeps
    | with_reducible apply winLogits_keeps
    | with_reducible apply winRead_keeps
    | with_reducible apply winWarn_keeps
    | split

theorem winItem_keeps (k : Nat) (stall : Nat) (h : Keeps ps s u) (hregs : Part.regs ∈ ps) (hmem : Part.mem ∈ ps) (hpoison : Part.poison ∈ ps) (hcores : Part.cores ∈ ps) (hcoal : Part.coal ∈ ps) (hwins : Part.wins ∈ ps) (hhbms : Part.hbms ∈ ps) :
    Keeps ps s (winItem k stall u) := by
  unfold winItem
  repeat' first
    | with_reducible assumption
    | with_reducible apply State.count_keeps
    | with_reducible apply State.set_keeps
    | with_reducible apply putJob_keeps
    | with_reducible apply routeItem_keeps
    | with_reducible apply sampleItem_keeps
    | with_reducible apply winFinish_keeps
    | with_reducible apply winServed_keeps
    | with_reducible apply winShow_keeps
    | with_reducible apply Keeps.ite
    | split

theorem winClose_keeps (k : Nat) (j : WinJob) (h : Keeps ps s u) (hregs : Part.regs ∈ ps) (hmem : Part.mem ∈ ps) (hpoison : Part.poison ∈ ps) (hcores : Part.cores ∈ ps) (hcoal : Part.coal ∈ ps) (hwins : Part.wins ∈ ps) (hhbms : Part.hbms ∈ ps) :
    Keeps ps s (winClose k j u) := by
  unfold winClose
  repeat' first
    | with_reducible assumption
    | with_reducible apply unitWrite_keeps
    | with_reducible apply winFinish_keeps
    | with_reducible apply Keeps.ite

theorem winJobComplete_keeps (k : Nat) (n : Nat) (h : Keeps ps s u) (hregs : Part.regs ∈ ps) (hmem : Part.mem ∈ ps) (hpoison : Part.poison ∈ ps) (hcores : Part.cores ∈ ps) (hcoal : Part.coal ∈ ps) (hwins : Part.wins ∈ ps) (hhbms : Part.hbms ∈ ps) :
    Keeps ps s (winJobComplete k n u) := by
  unfold winJobComplete
  repeat' first
    | with_reducible assumption
    | with_reducible apply winClose_keeps
    | split

theorem winFlushQueue_keeps (k : Nat) (n : Nat) (x2 : Nat) (h : Keeps ps s u) (hregs : Part.regs ∈ ps) (hmem : Part.mem ∈ ps) (hpoison : Part.poison ∈ ps) (hcores : Part.cores ∈ ps) (hcoal : Part.coal ∈ ps) (hwins : Part.wins ∈ ps) (hhbms : Part.hbms ∈ ps) :
    Keeps ps s (winFlushQueue k n x2 u) := by
  induction x2 generalizing u <;> unfold winFlushQueue
  all_goals repeat' first
    | (with_reducible apply_assumption)
    | with_reducible apply readDescr_keeps
    | with_reducible apply winFinish_keeps
    | with_reducible apply winUnread_keeps
    | with_reducible apply Keeps.ite
    | split
    | refine Keeps.of_eq2 (by assumption) ?_

theorem winFlush_keeps (k : Nat) (n : Nat) (h : Keeps ps s u) (hregs : Part.regs ∈ ps) (hmem : Part.mem ∈ ps) (hpoison : Part.poison ∈ ps) (hcores : Part.cores ∈ ps) (hcoal : Part.coal ∈ ps) (hwins : Part.wins ∈ ps) (hhbms : Part.hbms ∈ ps) :
    Keeps ps s (winFlush k n u) := by
  unfold winFlush
  repeat' first
    | with_reducible assumption
    | with_reducible apply winClose_keeps
    | with_reducible apply winFinish_keeps
    | with_reducible apply winFlushQueue_keeps
    | split

end Sys2Proof.Machine
end

