-- ==== Sys2Proof/Laws/KeepsThresher.lean ====
section
/-!
SUPPORT. What each operation of Machine/Thresher.lean keeps (Laws/Keeps.lean), and the parts of State it may change.
-/
namespace Sys2Proof.Machine

set_option linter.unreachableTactic false
set_option linter.unusedTactic false
set_option linter.tactic.unusedName false

variable {ps : List Part} {s u : State}

theorem State.setThr_keeps (k : Nat) (h0 : ThrHid) (h : Keeps ps s u) (hthrs : Part.thrs ∈ ps) :
    Keeps ps s (State.setThr u k h0) := by
  unfold State.setThr
  repeat' first
    | with_reducible assumption
    | (conv => (arg 3; arg 29)
       refine Keeps.mk' ?_ rfl rfl rfl rfl rfl rfl rfl
        (fun q hn => by cases q <;> first | exact rfl | exact ⟨rfl, rfl⟩ | exact absurd (by assumption) hn))

theorem thrTailWrite_keeps (k : Nat) (n : Nat) (v : Word) (h : Keeps ps s u) (hregs : Part.regs ∈ ps) :
    Keeps ps s (thrTailWrite k n v u) := by
  unfold thrTailWrite
  repeat' first
    | with_reducible assumption
    | with_reducible apply tailWrite_keeps

theorem showStep_keeps (k : Nat) (x : ThrStep) (h : Keeps ps s u) (hregs : Part.regs ∈ ps) :
    Keeps ps s (showStep k x u) := by
  unfold showStep
  repeat' first
    | with_reducible assumption
    | with_reducible apply State.set_keeps

theorem putStep_keeps (k : Nat) (x : ThrStep) (h : Keeps ps s u) (hregs : Part.regs ∈ ps) (hthrs : Part.thrs ∈ ps) :
    Keeps ps s (putStep k x u) := by
  unfold putStep
  repeat' first
    | with_reducible assumption
    | with_reducible apply State.setThr_keeps
    | with_reducible apply showStep_keeps

theorem retireStep_keeps (k : Nat) (x : ThrStep) (h : Keeps ps s u) (hregs : Part.regs ∈ ps) (hthrs : Part.thrs ∈ ps) :
    Keeps ps s (retireStep k x u) := by
  unfold retireStep
  repeat' first
    | with_reducible assumption
    | with_reducible intro _
    | with_reducible apply Keeps.setWord
    | with_reducible apply State.set_keeps
    | with_reducible apply State.setThr_keeps
    | with_reducible apply ringAdvance_keeps
    | with_reducible apply showStep_keeps
    | with_reducible apply Keeps.foldl
    | with_reducible apply Keeps.foldlP
    | split
    | dsimp only
    | refine Keeps.of_gone (by assumption) ?_
    | refine Keeps.of_again (by assumption) ?_
    | refine Keeps.of_fresh (by assumption) ?_

theorem finishStep_keeps (k : Nat) (x : ThrStep) (code : Nat) (h : Keeps ps s u) (hregs : Part.regs ∈ ps) (hmem : Part.mem ∈ ps) (hpoison : Part.poison ∈ ps) (hcores : Part.cores ∈ ps) (hcoal : Part.coal ∈ ps) (hhbms : Part.hbms ∈ ps) :
    Keeps ps s (finishStep k x code u) := by
  unfold finishStep
  repeat' first
    | with_reducible assumption
    | with_reducible apply DoneF.run_keeps
    | with_reducible apply State.raise_keeps
    | with_reducible apply State.set_keeps
    | with_reducible apply writeWords_keeps
    | split

theorem failStep_keeps (k : Nat) (x : ThrStep) (code : Nat) (h : Keeps ps s u) (hregs : Part.regs ∈ ps) (hmem : Part.mem ∈ ps) (hpoison : Part.poison ∈ ps) (hcores : Part.cores ∈ ps) (hcoal : Part.coal ∈ ps) (hthrs : Part.thrs ∈ ps) (hhbms : Part.hbms ∈ ps) :
    Keeps ps s (failStep k x code u) := by
  unfold failStep
  repeat' first
    | with_reducible assumption
    | with_reducible apply finishStep_keeps
    | with_reducible apply putStep_keeps
    | with_reducible apply retireStep_keeps
    | with_reducible apply Keeps.ite

theorem settleStep_keeps (x : ThrStep) (h : Keeps ps s u) (hregs : Part.regs ∈ ps) (hthrs : Part.thrs ∈ ps) :
    Keeps ps s (settleStep x u) := by
  unfold settleStep
  repeat' first
    | with_reducible assumption
    | with_reducible intro _
    | with_reducible apply putStep_keeps
    | with_reducible apply Keeps.foldl
    | with_reducible apply Keeps.foldlP
    | with_reducible apply Keeps.ite
    | split
    | dsimp only

theorem sendTokens_keeps (k : Nat) (x : ThrStep) (h : Keeps ps s u) (hregs : Part.regs ∈ ps) (hmem : Part.mem ∈ ps) (hpoison : Part.poison ∈ ps) (hthrs : Part.thrs ∈ ps) (hhbms : Part.hbms ∈ ps) :
    Keeps ps s (sendTokens k x u) := by
  unfold sendTokens
  repeat' first
    | with_reducible assumption
    | with_reducible intro _
    | with_reducible apply State.setThr_keeps
    | with_reducible apply unitWrite_keeps
    | with_reducible apply Keeps.foldl
    | with_reducible apply Keeps.foldlP
    | with_reducible apply Keeps.ite
    | split
    | dsimp only
    | refine Keeps.of_gone (by assumption) ?_
    | refine Keeps.of_again (by assumption) ?_
    | refine Keeps.of_fresh (by assumption) ?_

theorem closeIntake_keeps (k : Nat) (x : ThrStep) (h : Keeps ps s u) (hregs : Part.regs ∈ ps) (hmem : Part.mem ∈ ps) (hpoison : Part.poison ∈ ps) (hthrs : Part.thrs ∈ ps) (hhbms : Part.hbms ∈ ps) :
    Keeps ps s (closeIntake k x u) := by
  unfold closeIntake
  repeat' first
    | with_reducible assumption
    | with_reducible apply putStep_keeps
    | with_reducible apply retireStep_keeps
    | with_reducible apply sendTokens_keeps
    | with_reducible apply settleStep_keeps
    | with_reducible apply Keeps.ite

theorem readMaps_keeps (k : Nat) (w : Who) (d : List Nat) (x3 : List Nat) (h : Keeps ps s u) (hregs : Part.regs ∈ ps) (hpoison : Part.poison ∈ ps) (hhbms : Part.hbms ∈ ps) :
    Keeps ps s (readMaps k w d x3 u).2 := by
  induction x3 generalizing u <;> unfold readMaps
  all_goals repeat' first
    | (with_reducible apply_assumption)
    | with_reducible apply unitRead_keeps
    | with_reducible apply Keeps.ite
    | with_reducible apply Keeps.ite2
    | split
    | refine Keeps.of_eq2 (by assumption) ?_

theorem freshStep_keeps (k : Nat) (n : Nat) (id : Nat) (h : Keeps ps s u) (hthrs : Part.thrs ∈ ps) :
    Keeps ps s (freshStep k n id u) := by
  unfold freshStep
  repeat' first
    | with_reducible assumption
    | with_reducible intro _
    | with_reducible apply State.setThr_keeps
    | with_reducible apply Keeps.foldl
    | with_reducible apply Keeps.foldlP
    | with_reducible apply Keeps.ite
    | split
    | dsimp only
    | refine Keeps.of_gone (by assumption) ?_
    | refine Keeps.of_again (by assumption) ?_
    | refine Keeps.of_fresh (by assumption) ?_

theorem thrStep_keeps (k : Nat) (n : Nat) (h : Keeps ps s u) (hregs : Part.regs ∈ ps) (hmem : Part.mem ∈ ps) (hpoison : Part.poison ∈ ps) (hthrs : Part.thrs ∈ ps) (hhbms : Part.hbms ∈ ps) :
    Keeps ps s (thrStep k n u) := by
  unfold thrStep
  repeat' first
    | with_reducible assumption
    | with_reducible intro _
    | with_reducible apply State.raise_keeps
    | with_reducible apply closeIntake_keeps
    | with_reducible apply freshStep_keeps
    | with_reducible apply readDescr_keeps
    | with_reducible apply readMaps_keeps
    | with_reducible apply ringAdvance_keeps
    | with_reducible apply ringNote_keeps
    | with_reducible apply Keeps.ite
    | split
    | dsimp only
    | refine Keeps.of_eq2 (by assumption) ?_

theorem ownRecord_keeps (k : Nat) (x : ThrStep) (w0 : Nat) (w1 : Nat) (h : Keeps ps s u) (hregs : Part.regs ∈ ps) (hmem : Part.mem ∈ ps) (hpoison : Part.poison ∈ ps) (hhbms : Part.hbms ∈ ps) :
    Keeps ps s (ownRecord k x w0 w1 u).2 := by
  unfold ownRecord
  repeat' first
    | with_reducible assumption
    | with_reducible apply unitWrite_keeps
    | with_reducible apply Keeps.ite
    | with_reducible apply Keeps.ite2

theorem takeWin_keeps (k : Nat) (r : WinRec) (h : Keeps ps s u) (hwins : Part.wins ∈ ps) :
    Keeps ps s (takeWin k r u) := by
  unfold takeWin
  repeat' first
    | with_reducible assumption
    | with_reducible apply State.setWin_keeps

theorem tripleIn_keeps (k : Nat) (h : Keeps ps s u) (hregs : Part.regs ∈ ps) (hmem : Part.mem ∈ ps) (hpoison : Part.poison ∈ ps) (hwins : Part.wins ∈ ps) (hthrs : Part.thrs ∈ ps) (hhbms : Part.hbms ∈ ps) :
    Keeps ps s (tripleIn k u) := by
  unfold tripleIn
  repeat' first
    | with_reducible assumption
    | with_reducible apply State.setThr_keeps
    | with_reducible apply ownRecord_keeps
    | with_reducible apply putStep_keeps
    | with_reducible apply takeWin_keeps
    | with_reducible apply Keeps.ite
    | split

theorem endMarkerIn_keeps (k : Nat) (h : Keeps ps s u) (hregs : Part.regs ∈ ps) (hmem : Part.mem ∈ ps) (hpoison : Part.poison ∈ ps) (hwins : Part.wins ∈ ps) (hthrs : Part.thrs ∈ ps) (hhbms : Part.hbms ∈ ps) :
    Keeps ps s (endMarkerIn k u) := by
  unfold endMarkerIn
  repeat' first
    | with_reducible assumption
    | with_reducible apply closeIntake_keeps
    | with_reducible apply takeWin_keeps
    | split

theorem forwardedRecord_keeps (k : Nat) (h : Keeps ps s u) (hregs : Part.regs ∈ ps) (hmem : Part.mem ∈ ps) (hpoison : Part.poison ∈ ps) (hthrs : Part.thrs ∈ ps) (hhbms : Part.hbms ∈ ps) :
    Keeps ps s (forwardedRecord k u) := by
  unfold forwardedRecord
  repeat' first
    | with_reducible assumption
    | extract_lets +onlyGivenNames t
    | with_reducible apply State.setThr_keeps
    | with_reducible apply ownRecord_keeps
    | with_reducible apply putStep_keeps
    | with_reducible apply settleStep_keeps
    | split

theorem endOfStepToken_keeps (k : Nat) (h : Keeps ps s u) (hregs : Part.regs ∈ ps) (hthrs : Part.thrs ∈ ps) :
    Keeps ps s (endOfStepToken k u) := by
  unfold endOfStepToken
  repeat' first
    | with_reducible assumption
    | with_reducible intro _
    | with_reducible apply State.setThr_keeps
    | with_reducible apply putStep_keeps
    | with_reducible apply settleStep_keeps
    | with_reducible apply Keeps.ite
    | split
    | dsimp only
    | refine Keeps.of_eq2 (by assumption) ?_

theorem abortTokens_keeps (k : Nat) (x : ThrStep) (code : Nat) (h : Keeps ps s u) (hthrs : Part.thrs ∈ ps) :
    Keeps ps s (abortTokens k x code u) := by
  unfold abortTokens
  repeat' first
    | with_reducible assumption
    | with_reducible intro _
    | with_reducible apply State.setThr_keeps
    | with_reducible apply Keeps.foldl
    | with_reducible apply Keeps.foldlP
    | with_reducible apply Keeps.ite
    | split
    | dsimp only

theorem thrTimeout_keeps (k : Nat) (n : Nat) (h : Keeps ps s u) (hregs : Part.regs ∈ ps) (hmem : Part.mem ∈ ps) (hpoison : Part.poison ∈ ps) (hcores : Part.cores ∈ ps) (hcoal : Part.coal ∈ ps) (hthrs : Part.thrs ∈ ps) (hhbms : Part.hbms ∈ ps) :
    Keeps ps s (thrTimeout k n u) := by
  unfold thrTimeout
  repeat' first
    | with_reducible assumption
    | with_reducible intro _
    | with_reducible apply abortTokens_keeps
    | with_reducible apply failStep_keeps
    | with_reducible apply settleStep_keeps
    | with_reducible apply Keeps.foldl
    | with_reducible apply Keeps.foldlP
    | with_reducible apply Keeps.ite
    | split
    | dsimp only
    | refine Keeps.of_eq2 (by assumption) ?_

theorem putEntry_keeps (k : Nat) (x : ThrStep) (a : Nat × Nat) (e : List Nat) (h : Keeps ps s u) (hregs : Part.regs ∈ ps) (hmem : Part.mem ∈ ps) (hpoison : Part.poison ∈ ps) (hhbms : Part.hbms ∈ ps) :
    Keeps ps s (putEntry k x a e u) := by
  unfold putEntry
  repeat' first
    | with_reducible assumption
    | with_reducible apply writeWords_keeps

theorem tenantDrop_keeps (k : Nat) (a : Nat × Nat) (h : Keeps ps s u) (hregs : Part.regs ∈ ps) :
    Keeps ps s (tenantDrop k a u) := by
  unfold tenantDrop
  repeat' first
    | with_reducible assumption
    | with_reducible apply State.countSat_keeps

theorem expertOut_keeps (k : Nat) (x : ThrStep) (e : Nat) (drops : Nat) (touched : Bool) (h : Keeps ps s u) (hregs : Part.regs ∈ ps) (hmem : Part.mem ∈ ps) (hpoison : Part.poison ∈ ps) (hhbms : Part.hbms ∈ ps) :
    Keeps ps s (expertOut k x e drops touched u) := by
  unfold expertOut
  repeat' first
    | with_reducible assumption
    | with_reducible apply unitWrite_keeps

theorem cutOne_keeps (k : Nat) (e : Nat) (r : ThrStep × State) (h : Keeps ps s r.2) (hregs : Part.regs ∈ ps) (hmem : Part.mem ∈ ps) (hpoison : Part.poison ∈ ps) (hhbms : Part.hbms ∈ ps) :
    Keeps ps s (cutOne k e r).2 := by
  unfold cutOne
  repeat' first
    | with_reducible assumption
    | with_reducible intro _
    | extract_lets +onlyGivenNames t
    | with_reducible apply expertOut_keeps
    | with_reducible apply putEntry_keeps
    | with_reducible apply tenantDrop_keeps
    | with_reducible apply Keeps.foldl
    | split

theorem coldAdd_keeps (xs : List ColdExp) (h : Keeps ps s u) (hserv : Part.serv ∈ ps) :
    Keeps ps s (coldAdd xs u) := by
  unfold coldAdd
  repeat' first
    | with_reducible assumption
    | with_reducible intro _
    | split
    | dsimp only
    | (conv => (arg 3; arg 29)
       refine Keeps.mk' ?_ rfl rfl rfl rfl rfl rfl rfl
        (fun q hn => by cases q <;> first | exact rfl | exact ⟨rfl, rfl⟩ | exact absurd (by assumption) hn))

theorem thrCut_keeps (k : Nat) (n : Nat) (h : Keeps ps s u) (hregs : Part.regs ∈ ps) (hmem : Part.mem ∈ ps) (hpoison : Part.poison ∈ ps) (hcores : Part.cores ∈ ps) (hcoal : Part.coal ∈ ps) (hthrs : Part.thrs ∈ ps) (hhbms : Part.hbms ∈ ps) (hserv : Part.serv ∈ ps) :
    Keeps ps s (thrCut k n u) := by
  unfold thrCut
  repeat' first
    | with_reducible assumption
    | with_reducible intro _
    | with_reducible apply State.count_keeps
    | with_reducible apply State.raise_keeps
    | with_reducible apply State.setThr_keeps
    | with_reducible apply coldAdd_keeps
    | with_reducible apply cutOne_keeps
    | with_reducible apply failStep_keeps
    | with_reducible apply putStep_keeps
    | with_reducible apply rdWarn_keeps
    | with_reducible apply Keeps.foldl
    | with_reducible apply Keeps.foldlP
    | with_reducible apply Keeps.ite
    | split
    | dsimp only
    | refine Keeps.of_eq2 (by assumption) ?_

theorem flushQueued_keeps (k : Nat) (n : Nat) (x2 : Nat) (x3 : Nat) (h : Keeps ps s u) (hregs : Part.regs ∈ ps) (hmem : Part.mem ∈ ps) (hpoison : Part.poison ∈ ps) (hcores : Part.cores ∈ ps) (hcoal : Part.coal ∈ ps) (hhbms : Part.hbms ∈ ps) :
    Keeps ps s (flushQueued k n x2 x3 u).2 := by
  induction x2 generalizing u x3 <;> unfold flushQueued
  all_goals repeat' first
    | (with_reducible apply_assumption)
    | with_reducible apply State.raise_keeps
    | with_reducible apply State.set_keeps
    | with_reducible apply finishStep_keeps
    | with_reducible apply readDescr_keeps
    | with_reducible apply Keeps.ite
    | with_reducible apply Keeps.ite2
    | split
    | refine Keeps.of_eq2 (by assumption) ?_

theorem sowFail_keeps (k : Nat) (x : ThrStep) (code : Nat) (node : Nat) (h : Keeps ps s u) (hregs : Part.regs ∈ ps) (hthrs : Part.thrs ∈ ps) :
    Keeps ps s (sowFail k x code node u) := by
  unfold sowFail
  repeat' first
    | with_reducible assumption
    | with_reducible apply State.raise_keeps
    | with_reducible apply State.set_keeps
    | with_reducible apply putStep_keeps
    | split

theorem thrFlush_keeps (k : Nat) (n : Nat) (h : Keeps ps s u) (hregs : Part.regs ∈ ps) (hmem : Part.mem ∈ ps) (hpoison : Part.poison ∈ ps) (hcores : Part.cores ∈ ps) (hcoal : Part.coal ∈ ps) (hthrs : Part.thrs ∈ ps) (hhbms : Part.hbms ∈ ps) :
    Keeps ps s (thrFlush k n u) := by
  unfold thrFlush
  repeat' first
    | with_reducible assumption
    | with_reducible apply State.set_keeps
    | with_reducible apply flushQueued_keeps
    | with_reducible apply putStep_keeps
    | with_reducible apply sowFail_keeps
    | split

theorem thrTdclr_keeps (k : Nat) (h : Keeps ps s u) (hregs : Part.regs ∈ ps) : Keeps ps s (thrTdclr k u) :=
  Keeps.filterRegs _ h hregs

end Sys2Proof.Machine
end

