-- ==== Sys2Proof/Laws/KeepsSower.lean ====
section
/-!
SUPPORT. What each operation of Machine/Sower.lean keeps (Laws/Keeps.lean), and the parts of State it may change.
-/
namespace Sys2Proof.Machine

set_option linter.unreachableTactic false
set_option linter.unusedTactic false
set_option linter.tactic.unusedName false

variable {ps : List Part} {s u : State}

theorem State.setSow_keeps (k : Nat) (h0 : SowHid) (h : Keeps ps s u) (hsows : Part.sows ∈ ps) :
    Keeps ps s (State.setSow u k h0) := by
  unfold State.setSow
  repeat' first
    | with_reducible assumption
    | (conv => (arg 3; arg 29)
       refine Keeps.mk' ?_ rfl rfl rfl rfl rfl rfl rfl
        (fun q hn => by cases q <;> first | exact rfl | exact ⟨rfl, rfl⟩ | exact absurd (by assumption) hn))

theorem sowDone_keeps (k : Nat) (d : DoneReq) (h : Keeps ps s u) (hregs : Part.regs ∈ ps) (hthrs : Part.thrs ∈ ps) (hsows : Part.sows ∈ ps) :
    Keeps ps s (sowDone k d u) := by
  unfold sowDone
  repeat' first
    | with_reducible assumption
    | (extract_lets +onlyGivenNames t
       first
       | (refine Keeps.gen ps s t ?_ ?_
          on_goal 1 => subst t
          on_goal 2 => (intro ht; clear_value t))
       | (have hf := fun x => t x
          clear hf
          subst t
          try beta_reduce)
       | clear_value t)
    | with_reducible apply State.count_keeps
    | with_reducible apply State.setSow_keeps
    | with_reducible apply putStep_keeps
    | with_reducible apply sowFail_keeps
    | split

theorem takeDone_keeps (k : Nat) (u0 : Nat) (f : DoneReq → State → State) (h : Keeps ps s u) (h_f : ∀ a0 t, Keeps ps s t → Keeps ps s (f a0 t)) (hvt : Part.vt ∈ ps) :
    Keeps ps s (takeDone k u0 f u) := by
  unfold takeDone
  repeat' first
    | with_reducible intro _
    | (with_reducible apply_assumption)
    | with_reducible apply Keeps.foldl
    | (conv => (arg 3; arg 29)
       refine Keeps.mk' ?_ rfl rfl rfl rfl rfl rfl rfl
        (fun q hn => by cases q <;> first | exact rfl | exact ⟨rfl, rfl⟩ | exact absurd (by assumption) hn))

theorem sowCollect_keeps (k : Nat) (h : Keeps ps s u) (hregs : Part.regs ∈ ps) (hvt : Part.vt ∈ ps) (hthrs : Part.thrs ∈ ps) (hsows : Part.sows ∈ ps) :
    Keeps ps s (sowCollect k u) := by
  unfold sowCollect
  repeat' first
    | with_reducible assumption
    | with_reducible intro _
    | with_reducible apply sowDone_keeps
    | with_reducible apply takeDone_keeps

theorem sowDispatch_keeps (k : Nat) (n : Nat) (h : Keeps ps s u) (hregs : Part.regs ∈ ps) (hmem : Part.mem ∈ ps) (hpoison : Part.poison ∈ ps) (hcores : Part.cores ∈ ps) (hcoal : Part.coal ∈ ps) (hvt : Part.vt ∈ ps) (hlinks : Part.links ∈ ps) (hthrs : Part.thrs ∈ ps) (hsows : Part.sows ∈ ps) :
    Keeps ps s (sowDispatch k n u) := by
  unfold sowDispatch
  repeat' first
    | with_reducible assumption
    | with_reducible intro _
    | extract_lets +onlyGivenNames t
    | with_reducible apply State.set_keeps
    | with_reducible apply State.setSow_keeps
    | with_reducible apply putStep_keeps
    | with_reducible apply sowCollect_keeps
    | with_reducible apply vtIssue_keeps
    | with_reducible apply Keeps.foldl
    | split

theorem manifestComplete_keeps (k : Nat) (h : Keeps ps s u) (hregs : Part.regs ∈ ps) (hvt : Part.vt ∈ ps) (hthrs : Part.thrs ∈ ps) (hsows : Part.sows ∈ ps) :
    Keeps ps s (manifestComplete k u) := by
  unfold manifestComplete
  repeat' first
    | with_reducible assumption
    | with_reducible apply sowCollect_keeps

theorem setTb_keeps (k : Nat) (t : Nat) (v : Nat) (h : Keeps ps s u) (hregs : Part.regs ∈ ps) (hsows : Part.sows ∈ ps) :
    Keeps ps s (setTb k t v u) := by
  unfold setTb
  repeat' first
    | with_reducible assumption
    | with_reducible apply State.set_keeps
    | with_reducible apply State.setSow_keeps

theorem sendRow_keeps (k : Nat) (n : Nat) (r : RowRec) (x : ThrStep) (h : Keeps ps s u) (hregs : Part.regs ∈ ps) (hmem : Part.mem ∈ ps) (hpoison : Part.poison ∈ ps) (hcores : Part.cores ∈ ps) (hcoal : Part.coal ∈ ps) (hvt : Part.vt ∈ ps) (hlinks : Part.links ∈ ps) (hthrs : Part.thrs ∈ ps) (hsows : Part.sows ∈ ps) (hhbms : Part.hbms ∈ ps) :
    Keeps ps s (sendRow k n r x u) := by
  unfold sendRow
  repeat' first
    | with_reducible assumption
    | with_reducible intro _
    | with_reducible apply State.set_keeps
    | with_reducible apply State.setSow_keeps
    | with_reducible apply putStep_keeps
    | with_reducible apply setTb_keeps
    | with_reducible apply sowFail_keeps
    | with_reducible apply unitRead_keeps
    | with_reducible apply vtIssue_keeps
    | with_reducible apply Keeps.ite
    | with_reducible apply Keeps.foldl
    | split

theorem sowRowSend_keeps (k : Nat) (stallIn : Nat) (stallMan : Nat) (stallTb : Nat) (h : Keeps ps s u) (hregs : Part.regs ∈ ps) (hmem : Part.mem ∈ ps) (hpoison : Part.poison ∈ ps) (hcores : Part.cores ∈ ps) (hcoal : Part.coal ∈ ps) (hvt : Part.vt ∈ ps) (hlinks : Part.links ∈ ps) (hthrs : Part.thrs ∈ ps) (hsows : Part.sows ∈ ps) (hhbms : Part.hbms ∈ ps) :
    Keeps ps s (sowRowSend k stallIn stallMan stallTb u) := by
  unfold sowRowSend
  repeat' first
    | with_reducible assumption
    | with_reducible apply State.count_keeps
    | with_reducible apply sendRow_keeps
    | with_reducible apply sowCollect_keeps
    | with_reducible apply Keeps.ite
    | split

theorem sowTbTick_keeps (k : Nat) (h : Keeps ps s u) (hregs : Part.regs ∈ ps) (hsows : Part.sows ∈ ps) :
    Keeps ps s (sowTbTick k u) := by
  unfold sowTbTick
  repeat' first
    | with_reducible assumption
    | with_reducible intro _
    | with_reducible apply setTb_keeps
    | with_reducible apply Keeps.foldl
    | split

theorem sowTbWrite_keeps (k : Nat) (t : Nat) (v : Word) (h : Keeps ps s u) (hregs : Part.regs ∈ ps) (hsows : Part.sows ∈ ps) :
    Keeps ps s (sowTbWrite k t v u) := by
  unfold sowTbWrite
  repeat' first
    | with_reducible assumption
    | with_reducible apply State.set_keeps
    | with_reducible apply setTb_keeps

theorem sowCompletion_keeps (k : Nat) (n : Nat) (h : Keeps ps s u) (hregs : Part.regs ∈ ps) (hmem : Part.mem ∈ ps) (hpoison : Part.poison ∈ ps) (hcores : Part.cores ∈ ps) (hcoal : Part.coal ∈ ps) (hvt : Part.vt ∈ ps) (hthrs : Part.thrs ∈ ps) (hsows : Part.sows ∈ ps) (hhbms : Part.hbms ∈ ps) :
    Keeps ps s (sowCompletion k n u) := by
  unfold sowCompletion
  repeat' first
    | with_reducible assumption
    | with_reducible intro _
    | with_reducible apply State.raise_keeps
    | with_reducible apply State.set_keeps
    | with_reducible apply finishStep_keeps
    | with_reducible apply retireStep_keeps
    | with_reducible apply sowCollect_keeps
    | with_reducible apply Keeps.ite
    | split
    | dsimp only
    | refine Keeps.of_eq2 (by assumption) ?_

theorem sowFlush_keeps (k : Nat) (n : Nat) (h : Keeps ps s u) (hregs : Part.regs ∈ ps) (hvt : Part.vt ∈ ps) (hthrs : Part.thrs ∈ ps) (hsows : Part.sows ∈ ps) :
    Keeps ps s (sowFlush k n u) := by
  unfold sowFlush
  repeat' first
    | with_reducible assumption
    | extract_lets +onlyGivenNames t
    | with_reducible apply sowCollect_keeps
    | with_reducible apply sowFail_keeps
    | split

theorem landRefuse_keeps (p : Packet) (c : Nat) (code : Nat) (h : Keeps ps s u) (hfree : Part.free ∈ ps) (hregs : Part.regs ∈ ps) (hvt : Part.vt ∈ ps) (hlinks : Part.links ∈ ps) :
    Keeps ps s (landRefuse p c code u) := by
  unfold landRefuse
  repeat' first
    | with_reducible assumption
    | with_reducible apply State.countSat_keeps
    | with_reducible apply State.raise_keeps
    | with_reducible apply State.set_keeps
    | with_reducible apply vtRefused_keeps
    | split

theorem setValid_keeps (c : Nat) (p : Packet) (i : Nat) (on : Bool) (h : Keeps ps s u) (hmem : Part.mem ∈ ps) :
    Keeps ps s (setValid c p i on u) := by
  unfold setValid
  repeat' first
    | with_reducible assumption
    | with_reducible apply Keeps.setByte

theorem applyManifest_keeps (c : Nat) (p : Packet) (h : Keeps ps s u) (hregs : Part.regs ∈ ps) (hmem : Part.mem ∈ ps) (hpoison : Part.poison ∈ ps) (hcores : Part.cores ∈ ps) (hcoal : Part.coal ∈ ps) :
    Keeps ps s (applyManifest c p u) := by
  unfold applyManifest
  repeat' first
    | with_reducible assumption
    | with_reducible intro _
    | with_reducible apply State.count_keeps
    | with_reducible apply arriveInc_keeps
    | with_reducible apply arriveSlot_keeps
    | with_reducible apply setValid_keeps
    | with_reducible apply storeBytes_keeps
    | with_reducible apply Keeps.foldl
    | with_reducible apply Keeps.foldlP
    | with_reducible apply Keeps.ite
    | split
    | dsimp only

theorem landManifest_keeps (i : Nat) (h : Keeps ps s u) (hfree : Part.free ∈ ps) (hregs : Part.regs ∈ ps) (hmem : Part.mem ∈ ps) (hpoison : Part.poison ∈ ps) (hcores : Part.cores ∈ ps) (hcoal : Part.coal ∈ ps) (hvt : Part.vt ∈ ps) (hlinks : Part.links ∈ ps) :
    Keeps ps s (landManifest i u) := by
  unfold landManifest
  repeat' first
    | with_reducible assumption
    | with_reducible apply applyManifest_keeps
    | with_reducible apply landRefuse_keeps
    | with_reducible apply vtApplied_keeps
    | with_reducible apply vtTake_keeps
    | with_reducible apply Keeps.ite
    | split
    | refine Keeps.of_gone (by assumption) ?_
    | refine Keeps.of_again (by assumption) ?_
    | refine Keeps.of_fresh (by assumption) ?_

theorem showTrack_keeps (k : Nat) (h : Keeps ps s u) (hregs : Part.regs ∈ ps) :
    Keeps ps s (showTrack k u) := by
  unfold showTrack
  repeat' first
    | with_reducible assumption
    | with_reducible apply State.set_keeps

theorem applyPiece_keeps (c : Nat) (p : Packet) (h : Keeps ps s u) (hregs : Part.regs ∈ ps) (hmem : Part.mem ∈ ps) (hpoison : Part.poison ∈ ps) (hcores : Part.cores ∈ ps) (hcoal : Part.coal ∈ ps) (hsows : Part.sows ∈ ps) :
    Keeps ps s (applyPiece c p u) := by
  unfold applyPiece
  repeat' first
    | with_reducible assumption
    | with_reducible apply State.count_keeps
    | with_reducible apply State.setSow_keeps
    | with_reducible apply arriveSlot_keeps
    | with_reducible apply showTrack_keeps
    | with_reducible apply storeBytes_keeps
    | with_reducible apply Keeps.ite

theorem landPiece_keeps (i : Nat) (h : Keeps ps s u) (hfree : Part.free ∈ ps) (hregs : Part.regs ∈ ps) (hmem : Part.mem ∈ ps) (hpoison : Part.poison ∈ ps) (hcores : Part.cores ∈ ps) (hcoal : Part.coal ∈ ps) (hvt : Part.vt ∈ ps) (hlinks : Part.links ∈ ps) (hsows : Part.sows ∈ ps) :
    Keeps ps s (landPiece i u) := by
  unfold landPiece
  repeat' first
    | with_reducible assumption
    | with_reducible intro _
    | with_reducible apply applyPiece_keeps
    | with_reducible apply landRefuse_keeps
    | with_reducible apply vtApplied_keeps
    | with_reducible apply vtTake_keeps
    | with_reducible apply Keeps.ite
    | split
    | dsimp only
    | refine Keeps.of_gone (by assumption) ?_
    | refine Keeps.of_again (by assumption) ?_
    | refine Keeps.of_fresh (by assumption) ?_

end Sys2Proof.Machine
end

