-- ==== Sys2Proof/Laws/KeepsGleaner.lean ====
section
/-!
SUPPORT. What each operation of Machine/Gleaner.lean keeps (Laws/Keeps.lean), and the parts of State it may change.
-/
namespace Sys2Proof.Machine

set_option linter.unreachableTactic false
set_option linter.unusedTactic false
set_option linter.tactic.unusedName false

variable {ps : List Part} {s u : State}

theorem State.setGln_keeps (k : Nat) (h0 : GlnHid) (h : Keeps ps s u) (hglns : Part.glns ∈ ps) :
    Keeps ps s (State.setGln u k h0) := by
  unfold State.setGln
  repeat' first
    | with_reducible assumption
    | (conv => (arg 3; arg 29)
       refine Keeps.mk' ?_ rfl rfl rfl rfl rfl rfl rfl
        (fun q hn => by cases q <;> first | exact rfl | exact ⟨rfl, rfl⟩ | exact absurd (by assumption) hn))

theorem glnTailWrite_keeps (comb : Bool) (k : Nat) (n : Nat) (v : Word) (h : Keeps ps s u) (hregs : Part.regs ∈ ps) :
    Keeps ps s (glnTailWrite comb k n v u) := by
  unfold glnTailWrite
  repeat' first
    | with_reducible assumption
    | with_reducible apply State.set_keeps
    | with_reducible apply tailWrite_keeps
    | with_reducible apply Keeps.ite

theorem glnSizeWrite_keeps (comb : Bool) (k : Nat) (n : Nat) (v : Word) (h : Keeps ps s u) (hregs : Part.regs ∈ ps) :
    Keeps ps s (glnSizeWrite comb k n v u) := by
  unfold glnSizeWrite
  repeat' first
    | with_reducible assumption
    | with_reducible apply State.set_keeps
    | with_reducible apply sizeWrite_keeps
    | with_reducible apply Keeps.ite

theorem glnLast_keeps (k : Nat) (code : Nat) (ring : Nat) (kind : Nat) (job : Nat) (node : Nat) (h : Keeps ps s u) (hregs : Part.regs ∈ ps) :
    Keeps ps s (glnLast k code ring kind job node u) := by
  unfold glnLast
  repeat' first
    | with_reducible assumption
    | with_reducible apply State.set_keeps

theorem putRet_keeps (k : Nat) (j : RetJob) (h : Keeps ps s u) (hglns : Part.glns ∈ ps) :
    Keeps ps s (putRet k j u) := by
  unfold putRet
  repeat' first
    | with_reducible assumption
    | with_reducible apply State.setGln_keeps

theorem showRet_keeps (k : Nat) (n : Nat) (h : Keeps ps s u) (hregs : Part.regs ∈ ps) :
    Keeps ps s (showRet k n u) := by
  unfold showRet
  repeat' first
    | with_reducible assumption
    | extract_lets +onlyGivenNames t
    | with_reducible apply State.set_keeps
    | with_reducible apply Keeps.setWord
    | split

theorem passRet_keeps (k : Nat) (n : Nat) (x2 : Nat) (h : Keeps ps s u) (hregs : Part.regs ∈ ps) (hglns : Part.glns ∈ ps) :
    Keeps ps s (passRet k n x2 u) := by
  induction x2 generalizing u <;> unfold passRet
  all_goals repeat' first
    | (with_reducible apply_assumption)
    | with_reducible apply State.setGln_keeps
    | with_reducible apply ringAdvance_keeps
    | with_reducible apply Keeps.ite

theorem retRecord_keeps (k : Nat) (j : RetJob) (code : Nat) (h : Keeps ps s u) (hregs : Part.regs ∈ ps) (hmem : Part.mem ∈ ps) (hpoison : Part.poison ∈ ps) (hcores : Part.cores ∈ ps) (hcoal : Part.coal ∈ ps) (hhbms : Part.hbms ∈ ps) :
    Keeps ps s (retRecord k j code u) := by
  unfold retRecord
  repeat' first
    | with_reducible assumption
    | with_reducible intro _
    | with_reducible apply State.raise_keeps
    | with_reducible apply DoneF.run_keeps
    | with_reducible apply glnLast_keeps
    | with_reducible apply writeWords_keeps
    | with_reducible apply Keeps.ite
    | split
    | dsimp only

theorem retEnd_keeps (k : Nat) (j : RetJob) (code : Nat) (h : Keeps ps s u) (hregs : Part.regs ∈ ps) (hmem : Part.mem ∈ ps) (hpoison : Part.poison ∈ ps) (hcores : Part.cores ∈ ps) (hcoal : Part.coal ∈ ps) (hglns : Part.glns ∈ ps) (hhbms : Part.hbms ∈ ps) :
    Keeps ps s (retEnd k j code u) := by
  unfold retEnd
  repeat' first
    | with_reducible assumption
    | with_reducible apply State.setGln_keeps
    | with_reducible apply passRet_keeps
    | with_reducible apply retRecord_keeps
    | with_reducible apply showRet_keeps

theorem retUnread_keeps (k : Nat) (n : Nat) (i : Nat) (code : Nat) (h : Keeps ps s u) (hregs : Part.regs ∈ ps) (hglns : Part.glns ∈ ps) :
    Keeps ps s (retUnread k n i code u) := by
  unfold retUnread
  repeat' first
    | with_reducible assumption
    | with_reducible intro _
    | with_reducible apply State.raise_keeps
    | with_reducible apply State.setGln_keeps
    | with_reducible apply glnLast_keeps
    | with_reducible apply passRet_keeps
    | split
    | dsimp only

theorem readSegs_keeps (k : Nat) (j : RetJob) (h : Keeps ps s u) (hregs : Part.regs ∈ ps) (hpoison : Part.poison ∈ ps) (hhbms : Part.hbms ∈ ps) :
    Keeps ps s (readSegs k j u).2.2 := by
  unfold readSegs
  repeat' first
    | with_reducible assumption
    | with_reducible intro _
    | with_reducible apply unitRead_keeps
    | with_reducible apply Keeps.ite3
    | with_reducible apply Keeps.ite
    | split
    | dsimp only

theorem retFail_keeps (k : Nat) (j : RetJob) (code : Nat) (h : Keeps ps s u) (hregs : Part.regs ∈ ps) (hpoison : Part.poison ∈ ps) (hglns : Part.glns ∈ ps) (hhbms : Part.hbms ∈ ps) :
    Keeps ps s (retFail k j code u) := by
  unfold retFail
  repeat' first
    | with_reducible assumption
    | with_reducible intro _
    | with_reducible apply putRet_keeps
    | with_reducible apply readSegs_keeps
    | with_reducible apply Keeps.ite
    | split
    | dsimp only

theorem retOpen_keeps (k : Nat) (j : RetJob) (h : Keeps ps s u) (hregs : Part.regs ∈ ps) (hpoison : Part.poison ∈ ps) (hglns : Part.glns ∈ ps) (hhbms : Part.hbms ∈ ps) :
    Keeps ps s (retOpen k j u) := by
  unfold retOpen
  repeat' first
    | with_reducible assumption
    | with_reducible intro _
    | with_reducible apply putRet_keeps
    | with_reducible apply readSegs_keeps
    | with_reducible apply retFail_keeps
    | with_reducible apply unitRead_keeps
    | with_reducible apply Keeps.ite
    | split
    | dsimp only

theorem flushRets_keeps (k : Nat) (n : Nat) (x2 : Nat) (h : Keeps ps s u) (hregs : Part.regs ∈ ps) (hmem : Part.mem ∈ ps) (hpoison : Part.poison ∈ ps) (hcores : Part.cores ∈ ps) (hcoal : Part.coal ∈ ps) (hglns : Part.glns ∈ ps) (hhbms : Part.hbms ∈ ps) :
    Keeps ps s (flushRets k n x2 u) := by
  induction x2 generalizing u <;> unfold flushRets
  all_goals repeat' first
    | (with_reducible apply_assumption)
    | with_reducible intro _
    | with_reducible apply State.setGln_keeps
    | with_reducible apply readDescr_keeps
    | with_reducible apply retEnd_keeps
    | with_reducible apply retFail_keeps
    | with_reducible apply retUnread_keeps
    | with_reducible apply showRet_keeps
    | with_reducible apply Keeps.ite
    | split
    | dsimp only
    | refine Keeps.of_eq2 (by assumption) ?_

theorem returnJob_keeps (k : Nat) (n : Nat) (h : Keeps ps s u) (hregs : Part.regs ∈ ps) (hmem : Part.mem ∈ ps) (hpoison : Part.poison ∈ ps) (hcores : Part.cores ∈ ps) (hcoal : Part.coal ∈ ps) (hglns : Part.glns ∈ ps) (hhbms : Part.hbms ∈ ps) :
    Keeps ps s (returnJob k n u) := by
  unfold returnJob
  repeat' first
    | with_reducible assumption
    | with_reducible intro _
    | with_reducible apply State.setGln_keeps
    | with_reducible apply flushRets_keeps
    | with_reducible apply readDescr_keeps
    | with_reducible apply retEnd_keeps
    | with_reducible apply retOpen_keeps
    | with_reducible apply retUnread_keeps
    | with_reducible apply showRet_keeps
    | with_reducible apply Keeps.ite
    | split
    | dsimp only
    | refine Keeps.of_eq2 (by assumption) ?_

theorem returnBlockReady_keeps (k : Nat) (i : Nat) (h : Keeps ps s u) (hglns : Part.glns ∈ ps) :
    Keeps ps s (returnBlockReady k i u) := by
  unfold returnBlockReady
  repeat' first
    | with_reducible assumption
    | with_reducible apply putRet_keeps
    | split

theorem glnReadyTimeout_keeps (k : Nat) (i : Nat) (h : Keeps ps s u) (hregs : Part.regs ∈ ps) (hpoison : Part.poison ∈ ps) (hglns : Part.glns ∈ ps) (hhbms : Part.hbms ∈ ps) :
    Keeps ps s (glnReadyTimeout k i u) := by
  unfold glnReadyTimeout
  repeat' first
    | with_reducible assumption
    | with_reducible intro _
    | with_reducible apply retFail_keeps
    | with_reducible apply Keeps.ite
    | split
    | dsimp only

theorem retDoneReq_keeps (k : Nat) (d : DoneReq) (h : Keeps ps s u) (hregs : Part.regs ∈ ps) (hpoison : Part.poison ∈ ps) (hglns : Part.glns ∈ ps) (hhbms : Part.hbms ∈ ps) :
    Keeps ps s (retDoneReq k d u) := by
  unfold retDoneReq
  repeat' first
    | with_reducible assumption
    | with_reducible intro _
    | with_reducible apply State.count_keeps
    | with_reducible apply State.setGln_keeps
    | with_reducible apply putRet_keeps
    | with_reducible apply retFail_keeps
    | with_reducible apply Keeps.ite
    | split
    | dsimp only

theorem retSend_keeps (k : Nat) (j : RetJob) (node : Nat) (marker : Bool) (bytes : Nat) (ps0 : List Packet) (h : Keeps ps s u) (hregs : Part.regs ∈ ps) (hmem : Part.mem ∈ ps) (hpoison : Part.poison ∈ ps) (hcores : Part.cores ∈ ps) (hcoal : Part.coal ∈ ps) (hvt : Part.vt ∈ ps) (hlinks : Part.links ∈ ps) (hglns : Part.glns ∈ ps) :
    Keeps ps s (retSend k j node marker bytes ps0 u) := by
  unfold retSend
  repeat' first
    | with_reducible assumption
    | with_reducible intro _
    | with_reducible apply State.setGln_keeps
    | with_reducible apply vtIssue_keeps
    | with_reducible apply Keeps.foldl

theorem retAct_keeps (k : Nat) (j : RetJob) (h : Keeps ps s u) (hregs : Part.regs ∈ ps) (hmem : Part.mem ∈ ps) (hpoison : Part.poison ∈ ps) (hcores : Part.cores ∈ ps) (hcoal : Part.coal ∈ ps) (hvt : Part.vt ∈ ps) (hlinks : Part.links ∈ ps) (hglns : Part.glns ∈ ps) (hhbms : Part.hbms ∈ ps) :
    Keeps ps s (retAct k j u) := by
  unfold retAct
  repeat' first
    | with_reducible assumption
    | with_reducible apply putRet_keeps
    | with_reducible apply retFail_keeps
    | with_reducible apply retSend_keeps
    | with_reducible apply unitRead_keeps
    | with_reducible apply Keeps.ite
    | split

theorem retSweep_keeps (k : Nat) (h : Keeps ps s u) (hregs : Part.regs ∈ ps) (hmem : Part.mem ∈ ps) (hpoison : Part.poison ∈ ps) (hcores : Part.cores ∈ ps) (hcoal : Part.coal ∈ ps) (hglns : Part.glns ∈ ps) (hhbms : Part.hbms ∈ ps) :
    Keeps ps s (retSweep k u) := by
  unfold retSweep
  repeat' first
    | with_reducible assumption
    | with_reducible intro _
    | with_reducible apply retEnd_keeps
    | with_reducible apply Keeps.foldl
    | split

theorem returnRowSend_keeps (k : Nat) (stall : Nat) (stallSrc : Nat) (h : Keeps ps s u) (hregs : Part.regs ∈ ps) (hmem : Part.mem ∈ ps) (hpoison : Part.poison ∈ ps) (hcores : Part.cores ∈ ps) (hcoal : Part.coal ∈ ps) (hvt : Part.vt ∈ ps) (hlinks : Part.links ∈ ps) (hglns : Part.glns ∈ ps) (hhbms : Part.hbms ∈ ps) :
    Keeps ps s (returnRowSend k stall stallSrc u) := by
  unfold returnRowSend
  repeat' first
    | with_reducible assumption
    | with_reducible intro _
    | with_reducible apply State.count_keeps
    | with_reducible apply State.setGln_keeps
    | with_reducible apply flushRets_keeps
    | with_reducible apply retAct_keeps
    | with_reducible apply retDoneReq_keeps
    | with_reducible apply retSweep_keeps
    | with_reducible apply takeDone_keeps
    | with_reducible apply Keeps.foldl
    | with_reducible apply Keeps.foldlP
    | with_reducible apply Keeps.ite
    | split
    | dsimp only
    | refine Keeps.of_eq2 (by assumption) ?_

theorem putComb_keeps (k : Nat) (j : CombJob) (h : Keeps ps s u) (hregs : Part.regs ∈ ps) (hglns : Part.glns ∈ ps) :
    Keeps ps s (putComb k j u) := by
  unfold putComb
  repeat' first
    | with_reducible assumption
    | with_reducible apply State.set_keeps
    | with_reducible apply State.setGln_keeps

theorem showCtx_keeps (k : Nat) (h : Keeps ps s u) (hregs : Part.regs ∈ ps) :
    Keeps ps s (showCtx k u) := by
  unfold showCtx
  repeat' first
    | with_reducible assumption
    | with_reducible apply State.set_keeps

theorem combTold_keeps (assign : Nat) (h : Keeps ps s u) (hserv : Part.serv ∈ ps) :
    Keeps ps s (combTold assign u) := by
  unfold combTold
  repeat' first
    | with_reducible assumption
    | with_reducible intro _
    | with_reducible apply Keeps.ite
    | split
    | dsimp only
    | (conv => (arg 3; arg 29)
       refine Keeps.mk' ?_ rfl rfl rfl rfl rfl rfl rfl
        (fun q hn => by cases q <;> first | exact rfl | exact ⟨rfl, rfl⟩ | exact absurd (by assumption) hn))

theorem combRecord_keeps (k : Nat) (j : CombJob) (code : Nat) (node : Nat) (h : Keeps ps s u) (hregs : Part.regs ∈ ps) (hmem : Part.mem ∈ ps) (hpoison : Part.poison ∈ ps) (hcores : Part.cores ∈ ps) (hcoal : Part.coal ∈ ps) (hhbms : Part.hbms ∈ ps) (hserv : Part.serv ∈ ps) :
    Keeps ps s (combRecord k j code node u) := by
  unfold combRecord
  repeat' first
    | with_reducible assumption
    | with_reducible intro _
    | with_reducible apply State.raise_keeps
    | with_reducible apply DoneF.run_keeps
    | with_reducible apply combTold_keeps
    | with_reducible apply glnLast_keeps
    | with_reducible apply writeWords_keeps
    | with_reducible apply Keeps.ite
    | split
    | dsimp only

theorem showComb_keeps (k : Nat) (n : Nat) (h : Keeps ps s u) (hregs : Part.regs ∈ ps) :
    Keeps ps s (showComb k n u) := by
  unfold showComb
  repeat' first
    | with_reducible assumption
    | with_reducible intro _
    | with_reducible apply Keeps.setWord
    | with_reducible apply State.set_keeps
    | split
    | dsimp only

theorem passComb_keeps (k : Nat) (n : Nat) (x2 : Nat) (h : Keeps ps s u) (hregs : Part.regs ∈ ps) (hglns : Part.glns ∈ ps) :
    Keeps ps s (passComb k n x2 u) := by
  induction x2 generalizing u <;> unfold passComb
  all_goals repeat' first
    | (with_reducible apply_assumption)
    | with_reducible intro _
    | with_reducible apply State.setGln_keeps
    | with_reducible apply ringAdvance_keeps
    | with_reducible apply Keeps.ite
    | split
    | dsimp only

theorem combPass_keeps (k : Nat) (n : Nat) (i : Nat) (h : Keeps ps s u) (hregs : Part.regs ∈ ps) (hglns : Part.glns ∈ ps) :
    Keeps ps s (combPass k n i u) := by
  unfold combPass
  repeat' first
    | with_reducible assumption
    | with_reducible intro _
    | with_reducible apply State.setGln_keeps
    | with_reducible apply passComb_keeps
    | split
    | dsimp only

theorem combTake_keeps (k : Nat) (n : Nat) (h : Keeps ps s u) (hglns : Part.glns ∈ ps) :
    Keeps ps s (combTake k n u) := by
  unfold combTake
  repeat' first
    | with_reducible assumption
    | with_reducible intro _
    | with_reducible apply State.setGln_keeps
    | split
    | dsimp only

theorem combSkip_keeps (k : Nat) (n : Nat) (code : Nat) (node : Nat) (h : Keeps ps s u) (hregs : Part.regs ∈ ps) (hmem : Part.mem ∈ ps) (hpoison : Part.poison ∈ ps) (hcores : Part.cores ∈ ps) (hcoal : Part.coal ∈ ps) (hglns : Part.glns ∈ ps) (hhbms : Part.hbms ∈ ps) (hserv : Part.serv ∈ ps) :
    Keeps ps s (combSkip k n code node u) := by
  unfold combSkip
  repeat' first
    | with_reducible assumption
    | with_reducible intro _
    | with_reducible apply State.raise_keeps
    | with_reducible apply combPass_keeps
    | with_reducible apply combRecord_keeps
    | with_reducible apply combTake_keeps
    | with_reducible apply glnLast_keeps
    | with_reducible apply readDescr_keeps
    | split
    | dsimp only
    | refine Keeps.of_eq2 (by assumption) ?_

theorem combDrain_keeps (k : Nat) (n : Nat) (x2 : Nat) (h : Keeps ps s u) (hregs : Part.regs ∈ ps) (hmem : Part.mem ∈ ps) (hpoison : Part.poison ∈ ps) (hcores : Part.cores ∈ ps) (hcoal : Part.coal ∈ ps) (hglns : Part.glns ∈ ps) (hhbms : Part.hbms ∈ ps) (hserv : Part.serv ∈ ps) :
    Keeps ps s (combDrain k n x2 u) := by
  induction x2 generalizing u with
  | zero => exact h
  | succ x ih =>
    unfold combDrain
    dsimp only
    split
    · exact Keeps.ite (ih (combSkip_keeps k n _ _ (State.setGln_keeps _ _ h hglns) hregs hmem hpoison hcores hcoal hglns hhbms hserv)) h
    · exact h

theorem combClose_keeps (k : Nat) (j : CombJob) (code : Nat) (node : Nat) (h : Keeps ps s u) (hregs : Part.regs ∈ ps) (hmem : Part.mem ∈ ps) (hpoison : Part.poison ∈ ps) (hcores : Part.cores ∈ ps) (hcoal : Part.coal ∈ ps) (hglns : Part.glns ∈ ps) (hhbms : Part.hbms ∈ ps) (hserv : Part.serv ∈ ps) :
    Keeps ps s (combClose k j code node u) := by
  unfold combClose
  repeat' first
    | with_reducible assumption
    | with_reducible intro _
    | with_reducible apply Keeps.setWord
    | with_reducible apply State.set_keeps
    | with_reducible apply State.setGln_keeps
    | with_reducible apply combPass_keeps
    | with_reducible apply combRecord_keeps
    | with_reducible apply showComb_keeps
    | with_reducible apply showCtx_keeps
    | split
    | dsimp only

theorem combFailAt_keeps (n : Nat) (ord : Nat) (code : Nat) (node : Nat) (h : Keeps ps s u) (hregs : Part.regs ∈ ps) (hmem : Part.mem ∈ ps) (hpoison : Part.poison ∈ ps) (hcores : Part.cores ∈ ps) (hcoal : Part.coal ∈ ps) (hglns : Part.glns ∈ ps) (hhbms : Part.hbms ∈ ps) (hserv : Part.serv ∈ ps) :
    Keeps ps s (combFailAt n ord code node u) := by
  unfold combFailAt
  repeat' first
    | with_reducible assumption
    | with_reducible intro _
    | with_reducible apply State.setGln_keeps
    | with_reducible apply combClose_keeps
    | with_reducible apply combDrain_keeps
    | with_reducible apply Keeps.foldl
    | with_reducible apply Keeps.foldlP
    | with_reducible apply Keeps.ite
    | split
    | dsimp only

theorem combFail_keeps (k : Nat) (j : CombJob) (code : Nat) (node : Nat) (h : Keeps ps s u) (hregs : Part.regs ∈ ps) (hmem : Part.mem ∈ ps) (hpoison : Part.poison ∈ ps) (hcores : Part.cores ∈ ps) (hcoal : Part.coal ∈ ps) (hglns : Part.glns ∈ ps) (hhbms : Part.hbms ∈ ps) (hserv : Part.serv ∈ ps) :
    Keeps ps s (combFail k j code node u) := by
  unfold combFail
  repeat' first
    | with_reducible assumption
    | with_reducible intro _
    | with_reducible apply combFailAt_keeps
    | with_reducible apply putComb_keeps
    | split
    | dsimp only

theorem combEnd_keeps (n : Nat) (ord : Nat) (h : Keeps ps s u) (hregs : Part.regs ∈ ps) (hmem : Part.mem ∈ ps) (hpoison : Part.poison ∈ ps) (hcores : Part.cores ∈ ps) (hcoal : Part.coal ∈ ps) (hglns : Part.glns ∈ ps) (hhbms : Part.hbms ∈ ps) (hserv : Part.serv ∈ ps) :
    Keeps ps s (combEnd n ord u) := by
  unfold combEnd
  repeat' first
    | with_reducible assumption
    | with_reducible intro _
    | with_reducible apply combFailAt_keeps
    | with_reducible apply Keeps.ite
    | split
    | dsimp only

theorem combOpenAt_keeps (k : Nat) (n : Nat) (c : Nat) (i : Nat) (d : List Nat) (h : Keeps ps s u) (hregs : Part.regs ∈ ps) (hmem : Part.mem ∈ ps) (hpoison : Part.poison ∈ ps) (hcores : Part.cores ∈ ps) (hcoal : Part.coal ∈ ps) (hglns : Part.glns ∈ ps) (hhbms : Part.hbms ∈ ps) (hserv : Part.serv ∈ ps) :
    Keeps ps s (combOpenAt k n c i d u) := by
  unfold combOpenAt
  repeat' first
    | with_reducible assumption
    | with_reducible intro _
    | with_reducible apply State.set_keeps
    | with_reducible apply State.setGln_keeps
    | with_reducible apply combEnd_keeps
    | with_reducible apply combTake_keeps
    | with_reducible apply showComb_keeps
    | with_reducible apply showCtx_keeps
    | split
    | dsimp only

theorem combineOpen_keeps (k : Nat) (h : Keeps ps s u) (hregs : Part.regs ∈ ps) (hmem : Part.mem ∈ ps) (hpoison : Part.poison ∈ ps) (hcores : Part.cores ∈ ps) (hcoal : Part.coal ∈ ps) (hglns : Part.glns ∈ ps) (hhbms : Part.hbms ∈ ps) (hserv : Part.serv ∈ ps) :
    Keeps ps s (combineOpen k u) := by
  unfold combineOpen
  repeat' first
    | with_reducible assumption
    | with_reducible intro _
    | with_reducible apply combDrain_keeps
    | with_reducible apply combOpenAt_keeps
    | with_reducible apply combSkip_keeps
    | with_reducible apply readDescr_keeps
    | with_reducible apply Keeps.foldl
    | with_reducible apply Keeps.foldlP
    | with_reducible apply Keeps.ite
    | split
    | dsimp only
    | refine Keeps.of_eq2 (by assumption) ?_

theorem rtRefuse_keeps (p : Packet) (code : Nat) (h : Keeps ps s u) (hfree : Part.free ∈ ps) (hregs : Part.regs ∈ ps) (hvt : Part.vt ∈ ps) (hlinks : Part.links ∈ ps) :
    Keeps ps s (rtRefuse p code u) := by
  unfold rtRefuse
  repeat' first
    | with_reducible assumption
    | with_reducible apply State.countSat_keeps
    | with_reducible apply State.raise_keeps
    | with_reducible apply glnLast_keeps
    | with_reducible apply vtRefused_keeps

theorem checkReady_keeps (k : Nat) (tag : Nat) (pair : Nat) (node : Nat) (h : Keeps ps s u) (hregs : Part.regs ∈ ps) (hmem : Part.mem ∈ ps) (hpoison : Part.poison ∈ ps) (hcores : Part.cores ∈ ps) (hcoal : Part.coal ∈ ps) (hglns : Part.glns ∈ ps) (hhbms : Part.hbms ∈ ps) (hserv : Part.serv ∈ ps) :
    Keeps ps s (checkReady k tag pair node u) := by
  unfold checkReady
  repeat' first
    | with_reducible assumption
    | with_reducible intro _
    | with_reducible apply State.setGln_keeps
    | with_reducible apply combFail_keeps
    | with_reducible apply putComb_keeps
    | with_reducible apply Keeps.foldl
    | with_reducible apply Keeps.foldlP
    | with_reducible apply Keeps.ite
    | split
    | dsimp only

theorem applyRet_keeps (j : CombJob) (p : Packet) (h : Keeps ps s u) (hregs : Part.regs ∈ ps) (hmem : Part.mem ∈ ps) (hpoison : Part.poison ∈ ps) (hcores : Part.cores ∈ ps) (hcoal : Part.coal ∈ ps) (hglns : Part.glns ∈ ps) (hhbms : Part.hbms ∈ ps) (hserv : Part.serv ∈ ps) :
    Keeps ps s (applyRet j p u) := by
  unfold applyRet
  repeat' first
    | with_reducible assumption
    | with_reducible intro _
    | with_reducible apply State.count_keeps
    | with_reducible apply State.set_keeps
    | with_reducible apply State.setGln_keeps
    | with_reducible apply checkReady_keeps
    | with_reducible apply memWrite_keeps
    | with_reducible apply putComb_keeps
    | with_reducible apply Keeps.ite
    | split
    | dsimp only

theorem retPiece_keeps (i : Nat) (h : Keeps ps s u) (hfree : Part.free ∈ ps) (hregs : Part.regs ∈ ps) (hmem : Part.mem ∈ ps) (hpoison : Part.poison ∈ ps) (hcores : Part.cores ∈ ps) (hcoal : Part.coal ∈ ps) (hvt : Part.vt ∈ ps) (hlinks : Part.links ∈ ps) (hglns : Part.glns ∈ ps) (hhbms : Part.hbms ∈ ps) (hserv : Part.serv ∈ ps) :
    Keeps ps s (retPiece i u) := by
  unfold retPiece
  repeat' first
    | with_reducible assumption
    | with_reducible intro _
    | with_reducible apply applyRet_keeps
    | with_reducible apply combFail_keeps
    | with_reducible apply rtRefuse_keeps
    | with_reducible apply vtApplied_keeps
    | with_reducible apply vtTake_keeps
    | with_reducible apply Keeps.ite
    | split
    | dsimp only
    | refine Keeps.of_gone (by assumption) ?_
    | refine Keeps.of_again (by assumption) ?_
    | refine Keeps.of_fresh (by assumption) ?_

theorem retMarker_keeps (i : Nat) (h : Keeps ps s u) (hfree : Part.free ∈ ps) (hregs : Part.regs ∈ ps) (hmem : Part.mem ∈ ps) (hpoison : Part.poison ∈ ps) (hcores : Part.cores ∈ ps) (hcoal : Part.coal ∈ ps) (hvt : Part.vt ∈ ps) (hlinks : Part.links ∈ ps) (hglns : Part.glns ∈ ps) (hhbms : Part.hbms ∈ ps) (hserv : Part.serv ∈ ps) :
    Keeps ps s (retMarker i u) := by
  unfold retMarker
  repeat' first
    | with_reducible assumption
    | with_reducible intro _
    | with_reducible apply checkReady_keeps
    | with_reducible apply combFail_keeps
    | with_reducible apply putComb_keeps
    | with_reducible apply rtRefuse_keeps
    | with_reducible apply vtApplied_keeps
    | with_reducible apply vtTake_keeps
    | with_reducible apply Keeps.ite
    | split
    | dsimp only
    | refine Keeps.of_gone (by assumption) ?_
    | refine Keeps.of_again (by assumption) ?_
    | refine Keeps.of_fresh (by assumption) ?_

theorem readyNotice_keeps (k : Nat) (h : Keeps ps s u) (hregs : Part.regs ∈ ps) (hmem : Part.mem ∈ ps) (hpoison : Part.poison ∈ ps) (hcores : Part.cores ∈ ps) (hcoal : Part.coal ∈ ps) (hglns : Part.glns ∈ ps) (hhbms : Part.hbms ∈ ps) (hserv : Part.serv ∈ ps) :
    Keeps ps s (readyNotice k u) := by
  unfold readyNotice
  repeat' first
    | with_reducible assumption
    | with_reducible intro _
    | with_reducible apply State.setGln_keeps
    | with_reducible apply combFail_keeps
    | with_reducible apply putComb_keeps
    | with_reducible apply Keeps.ite
    | split
    | dsimp only

theorem readRows_keeps (k : Nat) (j : CombJob) (x2 : List (Nat × Nat)) (h : Keeps ps s u) (hregs : Part.regs ∈ ps) (hpoison : Part.poison ∈ ps) (hhbms : Part.hbms ∈ ps) :
    Keeps ps s (readRows k j x2 u).2.2 := by
  induction x2 generalizing u <;> unfold readRows
  all_goals repeat' first
    | (with_reducible apply_assumption)
    | with_reducible apply unitRead_keeps
    | with_reducible apply Keeps.ite
    | with_reducible apply Keeps.ite3

theorem putRow_keeps (k : Nat) (j : CombJob) (t : Nat) (bs : List Byte) (sc : List Byte) (h : Keeps ps s u) (hregs : Part.regs ∈ ps) (hmem : Part.mem ∈ ps) (hpoison : Part.poison ∈ ps) (hhbms : Part.hbms ∈ ps) :
    Keeps ps s (putRow k j t bs sc u) := by
  unfold putRow
  repeat' first
    | with_reducible assumption
    | with_reducible apply unitWrite_keeps

theorem tokenDone_keeps (k : Nat) (j : CombJob) (t : Nat) (cost : Nat) (products : Nat) (special : Bool) (h : Keeps ps s u) (hregs : Part.regs ∈ ps) (hmem : Part.mem ∈ ps) (hpoison : Part.poison ∈ ps) (hcores : Part.cores ∈ ps) (hcoal : Part.coal ∈ ps) (hglns : Part.glns ∈ ps) (hhbms : Part.hbms ∈ ps) (hserv : Part.serv ∈ ps) :
    Keeps ps s (tokenDone k j t cost products special u) := by
  unfold tokenDone
  repeat' first
    | with_reducible assumption
    | with_reducible intro _
    | with_reducible apply State.count_keeps
    | with_reducible apply State.raise_keeps
    | with_reducible apply State.setGln_keeps
    | with_reducible apply combEnd_keeps
    | with_reducible apply putComb_keeps
    | with_reducible apply rdWarn_keeps
    | with_reducible apply Keeps.ite
    | split
    | dsimp only

theorem combineOne_keeps (k : Nat) (j : CombJob) (t : Nat) (f : Format) (h : Keeps ps s u) (hregs : Part.regs ∈ ps) (hmem : Part.mem ∈ ps) (hpoison : Part.poison ∈ ps) (hcores : Part.cores ∈ ps) (hcoal : Part.coal ∈ ps) (hglns : Part.glns ∈ ps) (hhbms : Part.hbms ∈ ps) (hserv : Part.serv ∈ ps) :
    Keeps ps s (combineOne k j t f u) := by
  unfold combineOne
  repeat' first
    | with_reducible assumption
    | with_reducible intro _
    | with_reducible apply combFail_keeps
    | with_reducible apply putRow_keeps
    | with_reducible apply readRows_keeps
    | with_reducible apply tokenDone_keeps
    | with_reducible apply unitRead_keeps
    | with_reducible apply Keeps.foldl
    | with_reducible apply Keeps.foldlP
    | with_reducible apply Keeps.ite
    | split
    | dsimp only

theorem combineToken_keeps (k : Nat) (stall : Nat) (stallSrc : Nat) (h : Keeps ps s u) (hregs : Part.regs ∈ ps) (hmem : Part.mem ∈ ps) (hpoison : Part.poison ∈ ps) (hcores : Part.cores ∈ ps) (hcoal : Part.coal ∈ ps) (hglns : Part.glns ∈ ps) (hhbms : Part.hbms ∈ ps) (hserv : Part.serv ∈ ps) :
    Keeps ps s (combineToken k stall stallSrc u) := by
  unfold combineToken
  repeat' first
    | with_reducible assumption
    | with_reducible apply State.count_keeps
    | with_reducible apply combineOne_keeps
    | split

theorem combReady_keeps (k : Nat) (n : Nat) (ord : Nat) (x2 : Nat) (h : Keeps ps s u) (hregs : Part.regs ∈ ps) (hmem : Part.mem ∈ ps) (hpoison : Part.poison ∈ ps) (hcores : Part.cores ∈ ps) (hcoal : Part.coal ∈ ps) (hglns : Part.glns ∈ ps) (hhbms : Part.hbms ∈ ps) (hserv : Part.serv ∈ ps) :
    Keeps ps s (combReady k n ord x2 u) := by
  induction x2 generalizing u <;> unfold combReady
  all_goals repeat' first
    | (with_reducible apply_assumption)
    | with_reducible intro _
    | with_reducible apply combineOne_keeps
    | split
    | dsimp only

theorem glnTimeout_keeps (k : Nat) (c : Nat) (h : Keeps ps s u) (hregs : Part.regs ∈ ps) (hmem : Part.mem ∈ ps) (hpoison : Part.poison ∈ ps) (hcores : Part.cores ∈ ps) (hcoal : Part.coal ∈ ps) (hglns : Part.glns ∈ ps) (hhbms : Part.hbms ∈ ps) (hserv : Part.serv ∈ ps) :
    Keeps ps s (glnTimeout k c u) := by
  unfold glnTimeout
  repeat' first
    | with_reducible assumption
    | with_reducible intro _
    | with_reducible apply combFailAt_keeps
    | with_reducible apply combReady_keeps
    | with_reducible apply Keeps.foldl
    | with_reducible apply Keeps.foldlP
    | with_reducible apply Keeps.ite
    | split
    | dsimp only

theorem flushCombs_keeps (k : Nat) (n : Nat) (x2 : Nat) (h : Keeps ps s u) (hregs : Part.regs ∈ ps) (hmem : Part.mem ∈ ps) (hpoison : Part.poison ∈ ps) (hcores : Part.cores ∈ ps) (hcoal : Part.coal ∈ ps) (hglns : Part.glns ∈ ps) (hhbms : Part.hbms ∈ ps) (hserv : Part.serv ∈ ps) :
    Keeps ps s (flushCombs k n x2 u) := by
  induction x2 generalizing u <;> unfold flushCombs
  all_goals repeat' first
    | (with_reducible apply_assumption)
    | with_reducible intro _
    | with_reducible apply combFailAt_keeps
    | with_reducible apply Keeps.ite
    | split
    | dsimp only

theorem glnFlush_keeps (comb : Bool) (k : Nat) (n : Nat) (h : Keeps ps s u) (hregs : Part.regs ∈ ps) (hmem : Part.mem ∈ ps) (hpoison : Part.poison ∈ ps) (hcores : Part.cores ∈ ps) (hcoal : Part.coal ∈ ps) (hglns : Part.glns ∈ ps) (hhbms : Part.hbms ∈ ps) (hserv : Part.serv ∈ ps) :
    Keeps ps s (glnFlush comb k n u) := by
  unfold glnFlush
  repeat' first
    | with_reducible assumption
    | with_reducible intro _
    | with_reducible apply State.setGln_keeps
    | with_reducible apply combFailAt_keeps
    | with_reducible apply flushCombs_keeps
    | with_reducible apply flushRets_keeps
    | with_reducible apply retFail_keeps
    | with_reducible apply retSweep_keeps
    | with_reducible apply Keeps.foldl
    | with_reducible apply Keeps.foldlP
    | with_reducible apply Keeps.ite
    | split
    | dsimp only

theorem glnBusy_keeps (k : Nat) (h : Keeps ps s u) (hregs : Part.regs ∈ ps) :
    Keeps ps s (glnBusy k u) := by
  unfold glnBusy
  repeat' first
    | with_reducible assumption
    | with_reducible intro _
    | with_reducible apply State.set_keeps
    | split
    | dsimp only

theorem glnShow_keeps (f : State → State) (h : Keeps ps s u) (hregs : Part.regs ∈ ps) (h_f : ∀  t, Keeps ps s t → Keeps ps s (f  t)) :
    Keeps ps s (glnShow f u) := by
  unfold glnShow
  repeat' first
    | (with_reducible apply_assumption)
    | with_reducible intro _
    | with_reducible apply glnBusy_keeps
    | with_reducible apply Keeps.foldl
    | with_reducible apply Keeps.foldlP
    | split
    | dsimp only

end Sys2Proof.Machine
end

