-- ==== Sys2Proof/Laws/KeepsVtEvents.lean ====
section
/-!
SUPPORT. What each operation of Machine/VtEvents.lean keeps (Laws/Keeps.lean), and the parts of State it may change.
-/
namespace Sys2Proof.Machine

set_option linter.unreachableTactic false
set_option linter.unusedTactic false
set_option linter.tactic.unusedName false

variable {ps : List Part} {s u : State}

theorem packetRelay_keeps (i : Nat) (h : Keeps ps s u) (hregs : Part.regs ∈ ps) (hcoal : Part.coal ∈ ps) (hvt : Part.vt ∈ ps) (hlinks : Part.links ∈ ps) :
    Keeps ps s (packetRelay i u) := by
  unfold packetRelay
  repeat' first
    | with_reducible assumption
    | with_reducible intro _
    | with_reducible apply State.count_keeps
    | with_reducible apply ingress_keeps
    | with_reducible apply takeRecv_keeps
    | with_reducible apply toPort_keeps
    | with_reducible apply Keeps.ite
    | split
    | dsimp only
    | refine Keeps.of_some3 (by assumption) ?_
    | refine Keeps.of_eq2 (by assumption) ?_

theorem invalidPacket_keeps (i : Nat) (h : Keeps ps s u) (hregs : Part.regs ∈ ps) (hvt : Part.vt ∈ ps) (hlinks : Part.links ∈ ps) :
    Keeps ps s (invalidPacket i u) := by
  unfold invalidPacket
  repeat' first
    | with_reducible assumption
    | with_reducible apply State.count_keeps
    | with_reducible apply takeRecv_keeps
    | split
    | refine Keeps.of_some3 (by assumption) ?_

theorem rtoResend_keeps (k : Nat) (node : Nat) (psn : Nat) (h : Keeps ps s u) (hregs : Part.regs ∈ ps) (hvt : Part.vt ∈ ps) (hlinks : Part.links ∈ ps) :
    Keeps ps s (rtoResend k node psn u) := by
  unfold rtoResend
  repeat' first
    | with_reducible assumption
    | with_reducible apply resend_keeps
    | split

theorem busyResend_keeps (k : Nat) (node : Nat) (psn : Nat) (h : Keeps ps s u) (hregs : Part.regs ∈ ps) (hvt : Part.vt ∈ ps) (hlinks : Part.links ∈ ps) :
    Keeps ps s (busyResend k node psn u) := by
  unfold busyResend
  repeat' first
    | with_reducible assumption
    | with_reducible apply State.count_keeps
    | with_reducible apply resend_keeps
    | split

theorem flagGRelease_keeps (k : Nat) (h : Keeps ps s u) (hregs : Part.regs ∈ ps) (hmem : Part.mem ∈ ps) (hpoison : Part.poison ∈ ps) (hcores : Part.cores ∈ ps) (hcoal : Part.coal ∈ ps) (hvt : Part.vt ∈ ps) (hlinks : Part.links ∈ ps) :
    Keeps ps s (flagGRelease k u) := by
  unfold flagGRelease
  repeat' first
    | with_reducible assumption
    | with_reducible apply sendReq_keeps
    | split
    | (conv => (arg 3; arg 29)
       refine Keeps.mk' ?_ rfl rfl rfl rfl rfl rfl rfl
        (fun q hn => by cases q <;> first | exact rfl | exact ⟨rfl, rfl⟩ | exact absurd (by assumption) hn))

theorem eachEngine_keeps (f : Nat → State → State) (h : Keeps ps s u) (h_f : ∀ a0 t, Keeps ps s t → Keeps ps s (f a0 t)) :
    Keeps ps s (eachEngine f u) := by
  unfold eachEngine
  repeat' first
    | (with_reducible apply_assumption)

theorem supCount_keeps (e : Nat) (h : Keeps ps s u) (hregs : Part.regs ∈ ps) (hvt : Part.vt ∈ ps) :
    Keeps ps s (supCount e u) := by
  unfold supCount
  repeat' first
    | with_reducible assumption
    | with_reducible intro _
    | with_reducible apply State.countSat_keeps
    | with_reducible apply eachEngine_keeps
    | split
    | dsimp only
    | (conv => (arg 3; arg 29)
       refine Keeps.mk' ?_ rfl rfl rfl rfl rfl rfl rfl
        (fun q hn => by cases q <;> first | exact rfl | exact ⟨rfl, rfl⟩ | exact absurd (by assumption) hn))

theorem supOpen_keeps (k : Nat) (e : Nat) (target : Nat) (h : Keeps ps s u) (hregs : Part.regs ∈ ps) (hvt : Part.vt ∈ ps) :
    Keeps ps s (supOpen k e target u) := by
  unfold supOpen
  extract_lets t
  have ht : Keeps ps s t := eachEngine_keeps _ h (fun _ _ hv =>
    State.set_keeps _ _ (State.set_keeps _ _ (State.set_keeps _ _ (State.set_keeps _ _ hv hregs) hregs) hregs) hregs)
  clear_value t
  exact supCount_keeps _ (Keeps.mk' ht rfl rfl rfl rfl rfl rfl rfl
    (fun q hn => by cases q <;> first | exact rfl | exact ⟨rfl, rfl⟩ | exact absurd hvt hn)) hregs hvt

theorem recordTimeout_keeps (k : Nat) (target : Nat) (h : Keeps ps s u) (hregs : Part.regs ∈ ps) (hcoal : Part.coal ∈ ps) (hvt : Part.vt ∈ ps) :
    Keeps ps s (recordTimeout k target u) := by
  unfold recordTimeout
  split
  · exact supCount_keeps _ h hregs hvt
  · extract_lets down t
    have ht : Keeps ps s t := Keeps.ite h (State.bbWrite_keeps _ (vtLast_keeps _ _ _ _ (State.raise_keeps _ h hregs) hregs) hregs)
    clear_value t
    split
    · exact supOpen_keeps _ _ _ ht hregs hvt
    · exact Keeps.ite (State.count_keeps _ _ ht hregs) (vtWarn_keeps _ _ _ _ _ (State.count_keeps _ _ ht hregs) hregs hcoal)

theorem expireOne_keeps (k : Nat) (code : Nat) (o : OutReq) (h : Keeps ps s u) (hfree : Part.free ∈ ps) (hregs : Part.regs ∈ ps) (hmem : Part.mem ∈ ps) (hpoison : Part.poison ∈ ps) (hcores : Part.cores ∈ ps) (hcoal : Part.coal ∈ ps) (hvt : Part.vt ∈ ps) :
    Keeps ps s (expireOne k code o u) := by
  unfold expireOne
  repeat' first
    | with_reducible assumption
    | with_reducible apply State.drawWord_keeps
    | with_reducible apply completeReq_keeps
    | with_reducible apply landLoad_keeps
    | split

theorem requestTimeout_keeps (k : Nat) (node : Nat) (h : Keeps ps s u) (hfree : Part.free ∈ ps) (hregs : Part.regs ∈ ps) (hmem : Part.mem ∈ ps) (hpoison : Part.poison ∈ ps) (hcores : Part.cores ∈ ps) (hcoal : Part.coal ∈ ps) (hvt : Part.vt ∈ ps) (hlinks : Part.links ∈ ps) :
    Keeps ps s (requestTimeout k node u) := by
  unfold requestTimeout
  repeat' first
    | with_reducible assumption
    | with_reducible intro _
    | with_reducible apply State.raise_keeps
    | with_reducible apply dropSend_keeps
    | with_reducible apply expireOne_keeps
    | with_reducible apply pump_keeps
    | with_reducible apply recordTimeout_keeps
    | with_reducible apply vtLast_keeps
    | with_reducible apply Keeps.foldl
    | with_reducible apply Keeps.foldlP
    | with_reducible apply Keeps.ite
    | split
    | dsimp only

theorem closeSup_keeps (e : Nat) (h : Keeps ps s u) (hregs : Part.regs ∈ ps) (hvt : Part.vt ∈ ps) :
    Keeps ps s (closeSup e u) := by
  unfold closeSup
  repeat' first
    | with_reducible assumption
    | with_reducible intro _
    | with_reducible apply State.bbWriteAt_keeps
    | with_reducible apply State.set_keeps
    | with_reducible apply eachEngine_keeps
    | with_reducible apply Keeps.ite
    | split
    | dsimp only
    | (conv => (arg 3; arg 29)
       refine Keeps.mk' ?_ rfl rfl rfl rfl rfl rfl rfl
        (fun q hn => by cases q <;> first | exact rfl | exact ⟨rfl, rfl⟩ | exact absurd (by assumption) hn))

theorem contextIdle_keeps (k : Nat) (node : Nat) (h : Keeps ps s u) (hregs : Part.regs ∈ ps) (hvt : Part.vt ∈ ps) (hlinks : Part.links ∈ ps) :
    Keeps ps s (contextIdle k node u) := by
  unfold contextIdle
  repeat' first
    | with_reducible assumption
    | with_reducible intro _
    | with_reducible apply putSend_keeps
    | with_reducible apply transmit_keeps
    | with_reducible apply Keeps.ite
    | split
    | dsimp only
    | refine Keeps.of_eq2 (by assumption) ?_
    | (conv => (arg 3; arg 29)
       refine Keeps.mk' ?_ rfl rfl rfl rfl rfl rfl rfl
        (fun q hn => by cases q <;> first | exact rfl | exact ⟨rfl, rfl⟩ | exact absurd (by assumption) hn))

theorem retireOld_keeps (h : Keeps ps s u) (hregs : Part.regs ∈ ps) (hvt : Part.vt ∈ ps) (hlinks : Part.links ∈ ps) :
    Keeps ps s (retireOld u) := by
  unfold retireOld
  repeat' first
    | with_reducible assumption
    | with_reducible intro _
    | with_reducible apply State.set_keeps
    | with_reducible apply eachEngine_keeps
    | with_reducible apply resendAll_keeps
    | with_reducible apply showInflight_keeps
    | split
    | (conv => (arg 3; arg 29)
       refine Keeps.mk' ?_ rfl rfl rfl rfl rfl rfl rfl
        (fun q hn => by cases q <;> first | exact rfl | exact ⟨rfl, rfl⟩ | exact absurd (by assumption) hn))

theorem epochRetire_keeps (h : Keeps ps s u) (hregs : Part.regs ∈ ps) (hvt : Part.vt ∈ ps) (hlinks : Part.links ∈ ps) :
    Keeps ps s (epochRetire u) := by
  unfold epochRetire
  repeat' first
    | with_reducible assumption
    | with_reducible apply retireOld_keeps
    | split

theorem headlandEnd_keeps (h : Keeps ps s u) (hregs : Part.regs ∈ ps) (hvt : Part.vt ∈ ps) (hlinks : Part.links ∈ ps) :
    Keeps ps s (headlandEnd u) := by
  unfold headlandEnd
  repeat' first
    | with_reducible assumption
    | with_reducible apply retireOld_keeps

theorem stageRoute_keeps (r : RouteTab) (count : Nat) (h : Keeps ps s u) (hregs : Part.regs ∈ ps) (hvt : Part.vt ∈ ps) (hlinks : Part.links ∈ ps) :
    Keeps ps s (stageRoute r count u) := by
  unfold stageRoute
  repeat' first
    | with_reducible assumption
    | with_reducible intro _
    | with_reducible apply State.set_keeps
    | with_reducible apply eachEngine_keeps
    | with_reducible apply retireOld_keeps
    | (conv => (arg 3; arg 29)
       refine Keeps.mk' ?_ rfl rfl rfl rfl rfl rfl rfl
        (fun q hn => by cases q <;> first | exact rfl | exact ⟨rfl, rfl⟩ | exact absurd (by assumption) hn))

theorem unstageRoute_keeps (h : Keeps ps s u) (hregs : Part.regs ∈ ps) (hvt : Part.vt ∈ ps) :
    Keeps ps s (unstageRoute u) := by
  unfold unstageRoute
  repeat' first
    | with_reducible assumption
    | with_reducible intro _
    | with_reducible apply State.set_keeps
    | with_reducible apply eachEngine_keeps
    | (conv => (arg 3; arg 29)
       refine Keeps.mk' ?_ rfl rfl rfl rfl rfl rfl rfl
        (fun q hn => by cases q <;> first | exact rfl | exact ⟨rfl, rfl⟩ | exact absurd (by assumption) hn))

theorem applyRoute_keeps (h : Keeps ps s u) (hregs : Part.regs ∈ ps) (hvt : Part.vt ∈ ps) :
    Keeps ps s (applyRoute u) := by
  unfold applyRoute
  repeat' first
    | with_reducible assumption
    | with_reducible intro _
    | (extract_lets +onlyGivenNames t
       first
       | (refine Keeps.gen ps s t ?_ ?_
          on_goal 1 => subst t
          on_goal 2 => (intro ht; clear_value t))
       | clear_value t)
    | with_reducible apply State.set_keeps
    | with_reducible apply eachEngine_keeps
    | with_reducible apply refreshSpray_keeps
    | with_reducible apply showInflight_keeps
    | with_reducible apply Keeps.ite
    | split
    | (conv => (arg 3; arg 29)
       refine Keeps.mk' ?_ rfl rfl rfl rfl rfl rfl rfl
        (fun q hn => by cases q <;> first | exact rfl | exact ⟨rfl, rfl⟩ | exact absurd (by assumption) hn))

theorem setDead_keeps (ds : List DeadEl) (h : Keeps ps s u) (hregs : Part.regs ∈ ps) (hvt : Part.vt ∈ ps) :
    Keeps ps s (setDead ds u) := by
  unfold setDead
  refine refreshSpray_keeps (eachEngine_keeps _ (Keeps.mk' h rfl rfl rfl rfl rfl rfl rfl
    (fun q hn => by cases q <;> first | exact rfl | exact ⟨rfl, rfl⟩ | exact absurd hvt hn)) (fun _ _ ht => State.set_keeps _ _ ht hregs)) hvt

theorem addDead_keeps (k : Nat) (node : Nat) (port : Nat) (target : Nat) (h : Keeps ps s u) (hregs : Part.regs ∈ ps) (hcoal : Part.coal ∈ ps) (hvt : Part.vt ∈ ps) :
    Keeps ps s (addDead k node port target u) := by
  unfold addDead
  repeat' first
    | with_reducible assumption
    | with_reducible intro _
    | with_reducible apply setDead_keeps
    | with_reducible apply vtWarn_keeps
    | with_reducible apply Keeps.ite
    | split
    | dsimp only

theorem dropDead_keeps (node : Nat) (port : Nat) (h : Keeps ps s u) (hregs : Part.regs ∈ ps) (hvt : Part.vt ∈ ps) :
    Keeps ps s (dropDead node port u) := by
  unfold dropDead
  repeat' first
    | with_reducible assumption
    | with_reducible intro _
    | with_reducible apply setDead_keeps
    | split
    | dsimp only

theorem castNotice_keeps (p : Packet) (h : Keeps ps s u) (hlinks : Part.links ∈ ps) :
    Keeps ps s (castNotice p u) := by
  unfold castNotice
  repeat' first
    | with_reducible assumption
    | with_reducible intro _
    | with_reducible apply toPort_keeps
    | with_reducible apply Keeps.foldl
    | split

theorem issueNotice_keeps (target : Nat) (enode : Nat) (eport : Nat) (ntype : Nat) (cause : Nat) (h : Keeps ps s u) (hvt : Part.vt ∈ ps) (hlinks : Part.links ∈ ps) :
    Keeps ps s (issueNotice target enode eport ntype cause u) := by
  unfold issueNotice
  repeat' first
    | with_reducible assumption
    | (extract_lets +onlyGivenNames t
       first
       | (refine Keeps.gen ps s t ?_ ?_
          on_goal 1 => subst t
          on_goal 2 => (intro ht; clear_value t))
       | clear_value t)
    | with_reducible apply castNotice_keeps
    | (conv => (arg 3; arg 29)
       refine Keeps.mk' ?_ rfl rfl rfl rfl rfl rfl rfl
        (fun q hn => by cases q <;> first | exact rfl | exact ⟨rfl, rfl⟩ | exact absurd (by assumption) hn))

theorem noticeRepeat_keeps (h : Keeps ps s u) (hvt : Part.vt ∈ ps) (hlinks : Part.links ∈ ps) :
    Keeps ps s (noticeRepeat u) := by
  unfold noticeRepeat
  repeat' first
    | with_reducible assumption
    | with_reducible intro _
    | with_reducible apply castNotice_keeps
    | with_reducible apply Keeps.foldl
    | dsimp only
    | (conv => (arg 3; arg 29)
       refine Keeps.mk' ?_ rfl rfl rfl rfl rfl rfl rfl
        (fun q hn => by cases q <;> first | exact rfl | exact ⟨rfl, rfl⟩ | exact absurd (by assumption) hn))

theorem markDown_keeps (target : Nat) (h : Keeps ps s u) (hvt : Part.vt ∈ ps) (hlinks : Part.links ∈ ps) :
    Keeps ps s (markDown target u) := by
  unfold markDown
  repeat' first
    | with_reducible assumption
    | with_reducible intro _
    | with_reducible apply State.setLink_keeps
    | with_reducible apply Keeps.foldl
    | with_reducible apply Keeps.foldlP
    | with_reducible apply Keeps.ite
    | split
    | dsimp only
    | (conv => (arg 3; arg 29)
       refine Keeps.mk' ?_ rfl rfl rfl rfl rfl rfl rfl
        (fun q hn => by cases q <;> first | exact rfl | exact ⟨rfl, rfl⟩ | exact absurd (by assumption) hn))

theorem quorum_keeps (target : Nat) (h : Keeps ps s u) (hregs : Part.regs ∈ ps) (hcoal : Part.coal ∈ ps) (hvt : Part.vt ∈ ps) (hlinks : Part.links ∈ ps) :
    Keeps ps s (quorum target u) := by
  unfold quorum
  repeat' first
    | with_reducible assumption
    | with_reducible intro _
    | (extract_lets +onlyGivenNames t
       first
       | (refine Keeps.gen ps s t ?_ ?_
          on_goal 1 => subst t
          on_goal 2 => (intro ht; clear_value t))
       | clear_value t)
    | with_reducible apply addDead_keeps
    | with_reducible apply issueNotice_keeps
    | with_reducible apply markDown_keeps
    | with_reducible apply Keeps.ite
    | split
    | (conv => (arg 3; arg 29)
       refine Keeps.mk' ?_ rfl rfl rfl rfl rfl rfl rfl
        (fun q hn => by cases q <;> first | exact rfl | exact ⟨rfl, rfl⟩ | exact absurd (by assumption) hn))

theorem noticeRecord_keeps (k : Nat) (p : Packet) (h : Keeps ps s u) (hregs : Part.regs ∈ ps) :
    Keeps ps s (noticeRecord k p u) := by
  unfold noticeRecord
  repeat' first
    | with_reducible assumption
    | with_reducible intro _
    | with_reducible apply State.bbWrite_keeps
    | with_reducible apply State.raise_keeps
    | with_reducible apply vtLast_keeps
    | split
    | dsimp only

theorem forgetDown_keeps (target : Nat) (h : Keeps ps s u) (hvt : Part.vt ∈ ps) :
    Keeps ps s (forgetDown target u) := by
  unfold forgetDown
  repeat' first
    | with_reducible assumption
    | with_reducible intro _
    | split
    | dsimp only
    | (conv => (arg 3; arg 29)
       refine Keeps.mk' ?_ rfl rfl rfl rfl rfl rfl rfl
        (fun q hn => by cases q <;> first | exact rfl | exact ⟨rfl, rfl⟩ | exact absurd (by assumption) hn))

theorem keepNotice_keeps (r : NoticeRec) (h : Keeps ps s u) (hvt : Part.vt ∈ ps) :
    Keeps ps s (keepNotice r u) := by
  unfold keepNotice
  repeat' first
    | with_reducible assumption
    | with_reducible intro _
    | split
    | dsimp only
    | (conv => (arg 3; arg 29)
       refine Keeps.mk' ?_ rfl rfl rfl rfl rfl rfl rfl
        (fun q hn => by cases q <;> first | exact rfl | exact ⟨rfl, rfl⟩ | exact absurd (by assumption) hn))

theorem noticeAct_keeps (k : Nat) (p : Packet) (h : Keeps ps s u) (hregs : Part.regs ∈ ps) (hcoal : Part.coal ∈ ps) (hvt : Part.vt ∈ ps) (hlinks : Part.links ∈ ps) :
    Keeps ps s (noticeAct k p u) := by
  unfold noticeAct
  repeat' first
    | with_reducible assumption
    | with_reducible intro _
    | with_reducible apply addDead_keeps
    | with_reducible apply closeSup_keeps
    | with_reducible apply dropDead_keeps
    | with_reducible apply forgetDown_keeps
    | with_reducible apply keepNotice_keeps
    | with_reducible apply markDown_keeps
    | with_reducible apply noticeRecord_keeps
    | with_reducible apply quorum_keeps
    | with_reducible apply resendAll_keeps
    | with_reducible apply setDead_keeps
    | with_reducible apply Keeps.ite
    | split
    | dsimp only

theorem noticeVt_keeps (i : Nat) (h : Keeps ps s u) (hregs : Part.regs ∈ ps) (hcoal : Part.coal ∈ ps) (hvt : Part.vt ∈ ps) (hlinks : Part.links ∈ ps) :
    Keeps ps s (noticeVt i u) := by
  unfold noticeVt
  repeat' first
    | with_reducible assumption
    | with_reducible intro _
    | with_reducible apply State.report_keeps
    | with_reducible apply ingress_keeps
    | with_reducible apply noticeAct_keeps
    | with_reducible apply takeRecv_keeps
    | with_reducible apply vtLast_keeps
    | with_reducible apply Keeps.ite
    | split
    | dsimp only
    | refine Keeps.of_some3 (by assumption) ?_
    | refine Keeps.of_eq2 (by assumption) ?_

theorem handBack_keeps (ps0 : List Packet) (h : Keeps ps s u) (hfree : Part.free ∈ ps) (hregs : Part.regs ∈ ps) (hvt : Part.vt ∈ ps) (hlinks : Part.links ∈ ps) :
    Keeps ps s (handBack ps0 u) := by
  unfold handBack
  repeat' first
    | with_reducible assumption
    | with_reducible intro _
    | with_reducible apply castNotice_keeps
    | with_reducible apply resend_keeps
    | with_reducible apply sendFree_keeps
    | with_reducible apply Keeps.foldl
    | with_reducible apply Keeps.foldlP
    | with_reducible apply Keeps.ite
    | split
    | dsimp only

theorem opComplete_keeps (k : Nat) (sl : Nat) (h : Keeps ps s u) (hregs : Part.regs ∈ ps) (hvt : Part.vt ∈ ps) :
    Keeps ps s (opComplete k sl u) := by
  unfold opComplete
  repeat' first
    | with_reducible assumption
    | with_reducible apply State.set_keeps
    | split
    | (conv => (arg 3; arg 29)
       refine Keeps.mk' ?_ rfl rfl rfl rfl rfl rfl rfl
        (fun q hn => by cases q <;> first | exact rfl | exact ⟨rfl, rfl⟩ | exact absurd (by assumption) hn))

theorem opCmd_keeps (k : Nat) (sl : Nat) (v : Word) (h : Keeps ps s u) (hregs : Part.regs ∈ ps) (hmem : Part.mem ∈ ps) (hpoison : Part.poison ∈ ps) (hcores : Part.cores ∈ ps) (hcoal : Part.coal ∈ ps) (hvt : Part.vt ∈ ps) (hlinks : Part.links ∈ ps) :
    Keeps ps s (opCmd k sl v u) := by
  unfold opCmd
  repeat' first
    | with_reducible assumption
    | with_reducible apply State.set_keeps
    | with_reducible apply opComplete_keeps
    | with_reducible apply refuseAtSource_keeps
    | with_reducible apply vtIssue_keeps
    | with_reducible apply Keeps.ite

end Sys2Proof.Machine
end

