-- ==== Sys2Proof/Laws/KeepsCollectives.lean ====
section
/-!
SUPPORT. What each operation of Machine/Collectives.lean keeps (Laws/Keeps.lean), and the parts of State it may change.
-/
namespace Sys2Proof.Machine

set_option linter.unreachableTactic false
set_option linter.unusedTactic false
set_option linter.tactic.unusedName false

variable {ps : List Part} {s u : State}

theorem four_keeps (f : Nat → State → State) (h : Keeps ps s u) (h_f : ∀ a0 t, Keeps ps s t → Keeps ps s (f a0 t)) :
    Keeps ps s (four f u) := by
  unfold four
  repeat' first
    | (with_reducible apply_assumption)

theorem colStep_keeps (f : State → State) (h : Keeps ps s u) (hregs : Part.regs ∈ ps) (h_f : ∀  t, Keeps ps s t → Keeps ps s (f  t)) :
    Keeps ps s (colStep f u) := by
  unfold colStep
  repeat' first
    | (with_reducible apply_assumption)
    | with_reducible intro _
    | with_reducible apply State.set_keeps
    | with_reducible apply four_keeps
    | split
    | dsimp only

theorem colLast_keeps (k : Nat) (status : Nat) (cause : Nat) (ring : Nat) (job : Nat) (h : Keeps ps s u) (hregs : Part.regs ∈ ps) :
    Keeps ps s (colLast k status cause ring job u) := by
  unfold colLast
  repeat' first
    | with_reducible assumption
    | with_reducible apply State.set_keeps

theorem colRecord_keeps (k : Nat) (kind : Nat) (ring : Nat) (compl : Nat) (job : Nat) (done : DoneF) (status : Nat) (cause : Nat) (indoubt : Bool) (warn : Nat) (rest : List Nat) (h : Keeps ps s u) (hregs : Part.regs ∈ ps) (hmem : Part.mem ∈ ps) (hpoison : Part.poison ∈ ps) (hcores : Part.cores ∈ ps) (hcoal : Part.coal ∈ ps) (hhbms : Part.hbms ∈ ps) :
    Keeps ps s (colRecord k kind ring compl job done status cause indoubt warn rest u) := by
  unfold colRecord
  repeat' first
    | with_reducible assumption
    | with_reducible apply DoneF.run_keeps
    | with_reducible apply State.raise_keeps
    | with_reducible apply colLast_keeps
    | with_reducible apply writeWords_keeps
    | split

theorem colAdvance_keeps (n : Nat) (h : Keeps ps s u) (hregs : Part.regs ∈ ps) (hcol : Part.col ∈ ps) :
    Keeps ps s (colAdvance n u) := by
  unfold colAdvance
  repeat' first
    | with_reducible assumption
    | with_reducible intro _
    | with_reducible apply four_keeps
    | with_reducible apply ringAdvance_keeps
    | split
    | dsimp only
    | (conv => (arg 3; arg 29)
       refine Keeps.mk' ?_ rfl rfl rfl rfl rfl rfl rfl
        (fun q hn => by cases q <;> first | exact rfl | exact ⟨rfl, rfl⟩ | exact absurd (by assumption) hn))

theorem groupTable_keeps (n : Nat) (d : List Nat) (h : Keeps ps s u) (hregs : Part.regs ∈ ps) (hpoison : Part.poison ∈ ps) (hhbms : Part.hbms ∈ ps) :
    Keeps ps s (groupTable n d u).2 := by
  unfold groupTable
  repeat' first
    | with_reducible assumption
    | with_reducible apply unitRead_keeps
    | with_reducible apply Keeps.ite
    | with_reducible apply Keeps.ite2

theorem setGroup_keeps (g : Nat) (opn : Bool) (hier : Bool) (rank : Nat) (size : Nat) (gid : Nat) (next : Nat) (dig : Nat) (h : Keeps ps s u) (hregs : Part.regs ∈ ps) :
    Keeps ps s (setGroup g opn hier rank size gid next dig u) := by
  unfold setGroup
  repeat' first
    | with_reducible assumption
    | with_reducible intro _
    | with_reducible apply State.set_keeps
    | with_reducible apply four_keeps

theorem colCopies_keeps (n : Nat) (h : Keeps ps s u) (hregs : Part.regs ∈ ps) (hpoison : Part.poison ∈ ps) (hhbms : Part.hbms ∈ ps) :
    Keeps ps s (colCopies n u).2 := by
  unfold colCopies
  repeat' first
    | with_reducible assumption
    | extract_lets +onlyGivenNames t
    | with_reducible apply readDescr_keeps
    | split

theorem groupEnd_keeps (n : Nat) (d : List Nat) (code : Nat) (h : Keeps ps s u) (hregs : Part.regs ∈ ps) (hmem : Part.mem ∈ ps) (hpoison : Part.poison ∈ ps) (hcores : Part.cores ∈ ps) (hcoal : Part.coal ∈ ps) (hcol : Part.col ∈ ps) (hhbms : Part.hbms ∈ ps) :
    Keeps ps s (groupEnd n d code u) := by
  unfold groupEnd
  repeat' first
    | with_reducible assumption
    | with_reducible intro _
    | with_reducible apply colAdvance_keeps
    | with_reducible apply colRecord_keeps
    | with_reducible apply four_keeps

theorem groupJob_keeps (action : Nat) (n : Nat) (h : Keeps ps s u) (hregs : Part.regs ∈ ps) (hmem : Part.mem ∈ ps) (hpoison : Part.poison ∈ ps) (hcores : Part.cores ∈ ps) (hcoal : Part.coal ∈ ps) (hcol : Part.col ∈ ps) (hhbms : Part.hbms ∈ ps) :
    Keeps ps s (groupJob action n u) := by
  unfold groupJob
  repeat' first
    | with_reducible assumption
    | with_reducible intro _
    | with_reducible apply State.set_keeps
    | with_reducible apply colCopies_keeps
    | with_reducible apply four_keeps
    | with_reducible apply groupEnd_keeps
    | with_reducible apply groupTable_keeps
    | with_reducible apply setGroup_keeps
    | split
    | refine Keeps.of_eq2 (by assumption) ?_
    | dsimp only
    | (conv => (arg 3; arg 29)
       refine Keeps.mk' ?_ rfl rfl rfl rfl rfl rfl rfl
        (fun q hn => by cases q <;> first | exact rfl | exact ⟨rfl, rfl⟩ | exact absurd (by assumption) hn))

theorem toSwitch_keeps (k : Nat) (p : Packet) (h : Keeps ps s u) (hregs : Part.regs ∈ ps) (hmem : Part.mem ∈ ps) (hpoison : Part.poison ∈ ps) (hcores : Part.cores ∈ ps) (hcoal : Part.coal ∈ ps) (hvt : Part.vt ∈ ps) (hlinks : Part.links ∈ ps) :
    Keeps ps s (toSwitch k p u) := by
  unfold toSwitch
  repeat' first
    | with_reducible assumption
    | with_reducible intro _
    | with_reducible apply vtIssue_keeps
    | split
    | dsimp only

theorem sentBytes_keeps (k : Nat) (n : Nat) (js : ColJob × State) (h : Keeps ps s js.2) (hregs : Part.regs ∈ ps) :
    Keeps ps s (sentBytes k n js).2 := by
  unfold sentBytes
  repeat' first
    | with_reducible assumption
    | with_reducible apply State.count_keeps

theorem sendRanks_keeps (k : Nat) (phase : Nat) (index : Nat) (ranks : List Nat) (data : List Byte) (js : ColJob × State) (h : Keeps ps s js.2) (hregs : Part.regs ∈ ps) (hmem : Part.mem ∈ ps) (hpoison : Part.poison ∈ ps) (hcores : Part.cores ∈ ps) (hcoal : Part.coal ∈ ps) (hvt : Part.vt ∈ ps) (hlinks : Part.links ∈ ps) :
    Keeps ps s (sendRanks k phase index ranks data js).2 := by
  unfold sendRanks
  repeat' first
    | with_reducible assumption
    | with_reducible intro _
    | with_reducible apply sentBytes_keeps
    | with_reducible apply vtIssue_keeps
    | with_reducible apply Keeps.foldl
    | with_reducible apply Keeps.foldlP
    | split

theorem sendPlane_keeps (k : Nat) (phase : Nat) (index : Nat) (rank : Nat) (node : Nat) (contrib : Nat) (data : List Byte) (js : ColJob × State) (h : Keeps ps s js.2) (hregs : Part.regs ∈ ps) (hmem : Part.mem ∈ ps) (hpoison : Part.poison ∈ ps) (hcores : Part.cores ∈ ps) (hcoal : Part.coal ∈ ps) (hvt : Part.vt ∈ ps) (hlinks : Part.links ∈ ps) :
    Keeps ps s (sendPlane k phase index rank node contrib data js).2 := by
  unfold sendPlane
  repeat' first
    | with_reducible assumption
    | with_reducible intro _
    | with_reducible apply sentBytes_keeps
    | with_reducible apply vtIssueOn_keeps
    | with_reducible apply Keeps.foldl
    | with_reducible apply Keeps.foldlP
    | with_reducible apply Keeps.ite2
    | with_reducible apply Keeps.ite
    | split
    | dsimp only

theorem castVote_keeps (j : ColJob) (phase : Nat) (code : Nat) (h : Keeps ps s u) (hregs : Part.regs ∈ ps) (hmem : Part.mem ∈ ps) (hpoison : Part.poison ∈ ps) (hcores : Part.cores ∈ ps) (hcoal : Part.coal ∈ ps) (hvt : Part.vt ∈ ps) (hlinks : Part.links ∈ ps) :
    Keeps ps s (castVote j phase code u) := by
  unfold castVote
  repeat' first
    | with_reducible assumption
    | with_reducible intro _
    | with_reducible apply toSwitch_keeps
    | with_reducible apply vtIssue_keeps
    | split
    | dsimp only

theorem showJob_keeps (j : ColJob) (h : Keeps ps s u) (hregs : Part.regs ∈ ps) :
    Keeps ps s (showJob j u) := by
  unfold showJob
  repeat' first
    | with_reducible assumption
    | with_reducible intro _
    | with_reducible apply State.set_keeps
    | with_reducible apply Keeps.setWord
    | with_reducible apply four_keeps

theorem putCol_keeps (js : ColJob × State) (h : Keeps ps s js.2) (hregs : Part.regs ∈ ps) (hcol : Part.col ∈ ps) :
    Keeps ps s (putCol js) := by
  unfold putCol
  repeat' first
    | with_reducible assumption
    | with_reducible apply showJob_keeps
    | dsimp only
    | (conv => (arg 3; arg 29)
       refine Keeps.mk' ?_ rfl rfl rfl rfl rfl rfl rfl
        (fun q hn => by cases q <;> first | exact rfl | exact ⟨rfl, rfl⟩ | exact absurd (by assumption) hn))

theorem showOpen_keeps (h : Keeps ps s u) (hregs : Part.regs ∈ ps) :
    Keeps ps s (showOpen u) := by
  unfold showOpen
  repeat' first
    | with_reducible assumption
    | with_reducible intro _
    | with_reducible apply State.set_keeps
    | with_reducible apply four_keeps

theorem scramble_keeps (who : Who) (ga : Nat) (n : Nat) (h : Keeps ps s u) (hfree : Part.free ∈ ps) (hregs : Part.regs ∈ ps) (hmem : Part.mem ∈ ps) (hpoison : Part.poison ∈ ps) (hhbms : Part.hbms ∈ ps) :
    Keeps ps s (scramble who ga n u) := by
  unfold scramble
  repeat' first
    | with_reducible assumption
    | with_reducible apply unitWrite_keeps
    | (conv => (arg 3; arg 29)
       refine Keeps.mk' ?_ rfl rfl rfl rfl rfl rfl rfl
        (fun q hn => by cases q <;> first | exact rfl | exact ⟨rfl, rfl⟩ | exact absurd (by assumption) hn))

theorem colEnd_keeps (j : ColJob) (status : Nat) (indoubt : Bool) (h : Keeps ps s u) (hfree : Part.free ∈ ps) (hregs : Part.regs ∈ ps) (hmem : Part.mem ∈ ps) (hpoison : Part.poison ∈ ps) (hcores : Part.cores ∈ ps) (hcoal : Part.coal ∈ ps) (hcol : Part.col ∈ ps) (hhbms : Part.hbms ∈ ps) :
    Keeps ps s (colEnd j status indoubt u) := by
  unfold colEnd
  repeat' first
    | with_reducible assumption
    | with_reducible intro _
    | with_reducible apply Keeps.setWord
    | with_reducible apply State.count_keeps
    | with_reducible apply State.set_keeps
    | with_reducible apply colAdvance_keeps
    | with_reducible apply colRecord_keeps
    | with_reducible apply four_keeps
    | with_reducible apply scramble_keeps
    | with_reducible apply showOpen_keeps
    | with_reducible apply Keeps.ite
    | split
    | dsimp only
    | (conv => (arg 3; arg 29)
       refine Keeps.mk' ?_ rfl rfl rfl rfl rfl rfl rfl
        (fun q hn => by cases q <;> first | exact rfl | exact ⟨rfl, rfl⟩ | exact absurd (by assumption) hn))

theorem colAbort_keeps (code : Nat) (cause : Nat) (js : ColJob × State) (h : Keeps ps s js.2) (hregs : Part.regs ∈ ps) (hmem : Part.mem ∈ ps) (hpoison : Part.poison ∈ ps) (hcores : Part.cores ∈ ps) (hcoal : Part.coal ∈ ps) (hvt : Part.vt ∈ ps) (hlinks : Part.links ∈ ps) :
    Keeps ps s (colAbort code cause js).2 := by
  unfold colAbort
  repeat' first
    | with_reducible assumption
    | with_reducible intro _
    | with_reducible apply castVote_keeps
    | with_reducible apply Keeps.ite2
    | with_reducible apply Keeps.ite
    | split
    | dsimp only

theorem putVotes_keeps (v : ColVotes) (h : Keeps ps s u) (hcol : Part.col ∈ ps) :
    Keeps ps s (putVotes v u) := by
  unfold putVotes
  repeat' first
    | with_reducible assumption
    | (conv => (arg 3; arg 29)
       refine Keeps.mk' ?_ rfl rfl rfl rfl rfl rfl rfl
        (fun q hn => by cases q <;> first | exact rfl | exact ⟨rfl, rfl⟩ | exact absurd (by assumption) hn))

theorem conclude_keeps (v : ColVotes) (result : Nat) (vote : Nat) (code : Nat) (h : Keeps ps s u) (hregs : Part.regs ∈ ps) (hmem : Part.mem ∈ ps) (hpoison : Part.poison ∈ ps) (hcores : Part.cores ∈ ps) (hcoal : Part.coal ∈ ps) (hvt : Part.vt ∈ ps) (hlinks : Part.links ∈ ps) :
    Keeps ps s (conclude v result vote code u) := by
  unfold conclude
  repeat' first
    | with_reducible assumption
    | with_reducible intro _
    | with_reducible apply toSwitch_keeps
    | with_reducible apply vtIssue_keeps
    | with_reducible apply Keeps.foldl
    | with_reducible apply Keeps.foldlP
    | with_reducible apply Keeps.ite
    | split
    | dsimp only

theorem concludeAbort_keeps (v : ColVotes) (code : Nat) (h : Keeps ps s u) (hregs : Part.regs ∈ ps) (hmem : Part.mem ∈ ps) (hpoison : Part.poison ∈ ps) (hcores : Part.cores ∈ ps) (hcoal : Part.coal ∈ ps) (hvt : Part.vt ∈ ps) (hlinks : Part.links ∈ ps) (hcol : Part.col ∈ ps) :
    Keeps ps s (concludeAbort v code u) := by
  unfold concludeAbort
  repeat' first
    | with_reducible assumption
    | with_reducible intro _
    | with_reducible apply conclude_keeps
    | with_reducible apply putVotes_keeps
    | split
    | dsimp only

theorem concludeLate_keeps (g : Nat) (seq : Nat) (h : Keeps ps s u) (hregs : Part.regs ∈ ps) (hmem : Part.mem ∈ ps) (hpoison : Part.poison ∈ ps) (hcores : Part.cores ∈ ps) (hcoal : Part.coal ∈ ps) (hvt : Part.vt ∈ ps) (hlinks : Part.links ∈ ps) (hcol : Part.col ∈ ps) :
    Keeps ps s (concludeLate g seq u) := by
  unfold concludeLate
  repeat' first
    | with_reducible assumption
    | with_reducible intro _
    | with_reducible apply conclude_keeps
    | with_reducible apply putVotes_keeps
    | split
    | dsimp only

theorem readCounts_keeps (j : ColJob) (h : Keeps ps s u) (hregs : Part.regs ∈ ps) (hpoison : Part.poison ∈ ps) (hhbms : Part.hbms ∈ ps) :
    Keeps ps s (readCounts j u).2 := by
  unfold readCounts
  repeat' first
    | with_reducible assumption
    | with_reducible apply unitRead_keeps
    | with_reducible apply Keeps.ite
    | with_reducible apply Keeps.ite2

theorem openJob_keeps (j0 : ColJob) (same : Bool) (flushed : Bool) (h : Keeps ps s u) (hfree : Part.free ∈ ps) (hregs : Part.regs ∈ ps) (hmem : Part.mem ∈ ps) (hpoison : Part.poison ∈ ps) (hcores : Part.cores ∈ ps) (hcoal : Part.coal ∈ ps) (hvt : Part.vt ∈ ps) (hlinks : Part.links ∈ ps) (hcol : Part.col ∈ ps) (hhbms : Part.hbms ∈ ps) :
    Keeps ps s (openJob j0 same flushed u) := by
  unfold openJob
  repeat' first
    | with_reducible assumption
    | with_reducible intro _
    | with_reducible apply castVote_keeps
    | with_reducible apply colAbort_keeps
    | with_reducible apply colEnd_keeps
    | with_reducible apply concludeLate_keeps
    | with_reducible apply putCol_keeps
    | with_reducible apply readCounts_keeps
    | with_reducible apply showOpen_keeps
    | with_reducible apply Keeps.ite
    | split
    | dsimp only
    | refine Keeps.of_eq2 (by assumption) ?_
    | (conv => (arg 3; arg 29)
       refine Keeps.mk' ?_ rfl rfl rfl rfl rfl rfl rfl
        (fun q hn => by cases q <;> first | exact rfl | exact ⟨rfl, rfl⟩ | exact absurd (by assumption) hn))

theorem collOpening_keeps (h : Keeps ps s u) (hfree : Part.free ∈ ps) (hregs : Part.regs ∈ ps) (hmem : Part.mem ∈ ps) (hpoison : Part.poison ∈ ps) (hcores : Part.cores ∈ ps) (hcoal : Part.coal ∈ ps) (hvt : Part.vt ∈ ps) (hlinks : Part.links ∈ ps) (hcol : Part.col ∈ ps) (hhbms : Part.hbms ∈ ps) :
    Keeps ps s (collOpening u) := by
  unfold collOpening
  repeat' first
    | with_reducible assumption
    | with_reducible intro _
    | with_reducible apply State.raise_keeps
    | with_reducible apply colAdvance_keeps
    | with_reducible apply colCopies_keeps
    | with_reducible apply colEnd_keeps
    | with_reducible apply colLast_keeps
    | with_reducible apply four_keeps
    | with_reducible apply openJob_keeps
    | with_reducible apply Keeps.ite
    | split
    | dsimp only
    | refine Keeps.of_eq2 (by assumption) ?_

end Sys2Proof.Machine
end

