-- ==== Sys2Proof/Laws/KeepsCollData.lean ====
section
/-!
SUPPORT. What each operation of Machine/CollData.lean keeps (Laws/Keeps.lean), and the parts of State it may change.
-/
namespace Sys2Proof.Machine

set_option linter.unreachableTactic false
set_option linter.unusedTactic false
set_option linter.tactic.unusedName false

variable {ps : List Part} {s u : State}

theorem colTake_keeps (phases : List Nat) (sw : Option Bool) (i : Nat) (h : Keeps ps s u) (hfree : Part.free ∈ ps) (hregs : Part.regs ∈ ps) (hcoal : Part.coal ∈ ps) (hvt : Part.vt ∈ ps) (hlinks : Part.links ∈ ps) :
    Keeps ps s (colTake phases sw i u).2.2 := by
  unfold colTake
  repeat' first
    | with_reducible assumption
    | with_reducible intro _
    | with_reducible apply vtApplied_keeps
    | with_reducible apply vtTake_keeps
    | with_reducible apply Keeps.ite3
    | with_reducible apply Keeps.ite
    | split
    | dsimp only
    | refine Keeps.of_gone (by assumption) ?_
    | refine Keeps.of_again (by assumption) ?_
    | refine Keeps.of_fresh (by assumption) ?_
    | refine Keeps.of_eq2 (by assumption) ?_

theorem stray_keeps (p : Packet) (h : Keeps ps s u) (hregs : Part.regs ∈ ps) :
    Keeps ps s (stray p u) := by
  unfold stray
  repeat' first
    | with_reducible assumption
    | with_reducible apply State.countSat_keeps

theorem noteMismatch_keeps (g : Nat) (seq : Nat) (h : Keeps ps s u) (hregs : Part.regs ∈ ps) (hcol : Part.col ∈ ps) :
    Keeps ps s (noteMismatch g seq u) := by
  unfold noteMismatch
  repeat' first
    | with_reducible assumption
    | with_reducible apply putCol_keeps
    | split

theorem mismatch_keeps (g : Nat) (seq : Nat) (h : Keeps ps s u) (hregs : Part.regs ∈ ps) (hmem : Part.mem ∈ ps) (hpoison : Part.poison ∈ ps) (hcores : Part.cores ∈ ps) (hcoal : Part.coal ∈ ps) (hvt : Part.vt ∈ ps) (hlinks : Part.links ∈ ps) (hcol : Part.col ∈ ps) :
    Keeps ps s (mismatch g seq u) := by
  unfold mismatch
  repeat' first
    | with_reducible assumption
    | with_reducible intro _
    | with_reducible apply colAbort_keeps
    | with_reducible apply putCol_keeps
    | split
    | dsimp only

theorem voteAt_keeps (p : Packet) (h : Keeps ps s u) (hregs : Part.regs ∈ ps) (hmem : Part.mem ∈ ps) (hpoison : Part.poison ∈ ps) (hcores : Part.cores ∈ ps) (hcoal : Part.coal ∈ ps) (hvt : Part.vt ∈ ps) (hlinks : Part.links ∈ ps) (hcol : Part.col ∈ ps) :
    Keeps ps s (voteAt p u) := by
  unfold voteAt
  repeat' first
    | with_reducible assumption
    | with_reducible intro _
    | with_reducible apply conclude_keeps
    | with_reducible apply concludeAbort_keeps
    | with_reducible apply mismatch_keeps
    | with_reducible apply noteMismatch_keeps
    | with_reducible apply putVotes_keeps
    | with_reducible apply stray_keeps
    | with_reducible apply Keeps.ite
    | split
    | dsimp only
    | refine Keeps.of_eq2 (by assumption) ?_

theorem vote_keeps (phase : Nat) (i : Nat) (h : Keeps ps s u) (hfree : Part.free ∈ ps) (hregs : Part.regs ∈ ps) (hmem : Part.mem ∈ ps) (hpoison : Part.poison ∈ ps) (hcores : Part.cores ∈ ps) (hcoal : Part.coal ∈ ps) (hvt : Part.vt ∈ ps) (hlinks : Part.links ∈ ps) (hcol : Part.col ∈ ps) :
    Keeps ps s (vote phase i u) := by
  unfold vote
  repeat' first
    | with_reducible assumption
    | with_reducible apply colTake_keeps
    | with_reducible apply voteAt_keeps
    | split
    | refine Keeps.of_eq3 (by assumption) ?_

theorem passOn_keeps (sw : Bool) (p : Packet) (h : Keeps ps s u) (hregs : Part.regs ∈ ps) (hmem : Part.mem ∈ ps) (hpoison : Part.poison ∈ ps) (hcores : Part.cores ∈ ps) (hcoal : Part.coal ∈ ps) (hvt : Part.vt ∈ ps) (hlinks : Part.links ∈ ps) :
    Keeps ps s (passOn sw p u) := by
  unfold passOn
  repeat' first
    | with_reducible assumption
    | with_reducible intro _
    | with_reducible apply vtIssue_keeps
    | with_reducible apply Keeps.foldl
    | with_reducible apply Keeps.foldlP
    | with_reducible apply Keeps.ite
    | split
    | dsimp only

theorem colWarn_keeps (k : Nat) (bit : Nat) (js : ColJob × State) (h : Keeps ps s js.2) (hregs : Part.regs ∈ ps) (hcoal : Part.coal ∈ ps) :
    Keeps ps s (colWarn k bit js).2 := by
  unfold colWarn
  repeat' first
    | with_reducible assumption
    | with_reducible apply State.raise_keeps
    | with_reducible apply rdWarn_keeps
    | split

theorem workWrite_keeps (k : Nat) (off : Nat) (bs : List Byte) (js : ColJob × State) (h : Keeps ps s js.2) (hregs : Part.regs ∈ ps) (hmem : Part.mem ∈ ps) (hpoison : Part.poison ∈ ps) (hhbms : Part.hbms ∈ ps) :
    Keeps ps s (workWrite k off bs js).2 := by
  unfold workWrite
  repeat' first
    | with_reducible assumption
    | with_reducible intro _
    | with_reducible apply unitWrite_keeps
    | split
    | dsimp only

theorem workRead_keeps (k : Nat) (off : Nat) (n : Nat) (js : ColJob × State) (h : Keeps ps s js.2) (hregs : Part.regs ∈ ps) (hpoison : Part.poison ∈ ps) (hhbms : Part.hbms ∈ ps) :
    Keeps ps s (workRead k off n js).2.2 := by
  unfold workRead
  repeat' first
    | with_reducible assumption
    | with_reducible intro _
    | with_reducible apply unitRead_keeps
    | with_reducible apply Keeps.ite3
    | with_reducible apply Keeps.ite
    | split
    | dsimp only

theorem stage_keeps (i : Nat) (bs : List Byte) (js : ColJob × State) (h : Keeps ps s js.2) (hregs : Part.regs ∈ ps) (hmem : Part.mem ∈ ps) (hpoison : Part.poison ∈ ps) (hcoal : Part.coal ∈ ps) (hhbms : Part.hbms ∈ ps) :
    Keeps ps s (stage i bs js).2 := by
  unfold stage
  repeat' first
    | with_reducible assumption
    | with_reducible intro _
    | with_reducible apply colWarn_keeps
    | with_reducible apply workWrite_keeps
    | with_reducible apply Keeps.ite2
    | with_reducible apply Keeps.ite
    | split
    | dsimp only

theorem countVals_keeps (k : Nat) (n : Nat) (js : ColJob × State) (h : Keeps ps s js.2) (hregs : Part.regs ∈ ps) :
    Keeps ps s (countVals k n js).2 := by
  unfold countVals
  repeat' first
    | with_reducible assumption
    | with_reducible apply State.count_keeps

theorem sendValues_keeps (i : Nat) (tot : List Int) (js : ColJob × State) (h : Keeps ps s js.2) (hregs : Part.regs ∈ ps) (hmem : Part.mem ∈ ps) (hpoison : Part.poison ∈ ps) (hcores : Part.cores ∈ ps) (hcoal : Part.coal ∈ ps) (hvt : Part.vt ∈ ps) (hlinks : Part.links ∈ ps) (hhbms : Part.hbms ∈ ps) :
    Keeps ps s (sendValues i tot js).2 := by
  unfold sendValues
  repeat' first
    | with_reducible assumption
    | with_reducible intro _
    | with_reducible apply colWarn_keeps
    | with_reducible apply countVals_keeps
    | with_reducible apply sendRanks_keeps
    | with_reducible apply stage_keeps
    | with_reducible apply Keeps.foldl
    | with_reducible apply Keeps.foldlP
    | with_reducible apply Keeps.ite2
    | with_reducible apply Keeps.ite
    | split
    | dsimp only

theorem roundSwath_keeps (i : Nat) (tot : List Int) (js : ColJob × State) (h : Keeps ps s js.2) (hregs : Part.regs ∈ ps) (hmem : Part.mem ∈ ps) (hpoison : Part.poison ∈ ps) (hcores : Part.cores ∈ ps) (hcoal : Part.coal ∈ ps) (hvt : Part.vt ∈ ps) (hlinks : Part.links ∈ ps) (hhbms : Part.hbms ∈ ps) :
    Keeps ps s (roundSwath i tot js).2 := by
  unfold roundSwath
  repeat' first
    | with_reducible assumption
    | with_reducible intro _
    | with_reducible apply colAbort_keeps
    | with_reducible apply sendValues_keeps
    | with_reducible apply workRead_keeps
    | with_reducible apply workWrite_keeps
    | split
    | dsimp only

theorem sendSwath_keeps (i : Nat) (js : ColJob × State) (h : Keeps ps s js.2) (hregs : Part.regs ∈ ps) (hmem : Part.mem ∈ ps) (hpoison : Part.poison ∈ ps) (hcores : Part.cores ∈ ps) (hcoal : Part.coal ∈ ps) (hvt : Part.vt ∈ ps) (hlinks : Part.links ∈ ps) :
    Keeps ps s (sendSwath i js).2 := by
  unfold sendSwath
  repeat' first
    | with_reducible assumption
    | with_reducible intro _
    | with_reducible apply countVals_keeps
    | with_reducible apply sendPlane_keeps
    | with_reducible apply Keeps.ite2
    | with_reducible apply Keeps.ite
    | split
    | dsimp only

theorem pumpPlane_keeps (k : Nat) (x1 : Nat) (x2 : ColJob × State) (h : Keeps ps s x2.2) (hregs : Part.regs ∈ ps) (hmem : Part.mem ∈ ps) (hpoison : Part.poison ∈ ps) (hcores : Part.cores ∈ ps) (hcoal : Part.coal ∈ ps) (hvt : Part.vt ∈ ps) (hlinks : Part.links ∈ ps) (_hcol : Part.col ∈ ps) :
    Keeps ps s (pumpPlane k x1 x2).2 := by
  induction x1 generalizing  x2 <;> unfold pumpPlane
  all_goals repeat' first
    | extract_lets +onlyGivenNames t
    | (with_reducible apply_assumption)
    | with_reducible apply sendSwath_keeps
    | split

theorem pumpAll_keeps (h : Keeps ps s u) (hregs : Part.regs ∈ ps) (hmem : Part.mem ∈ ps) (hpoison : Part.poison ∈ ps) (hcores : Part.cores ∈ ps) (hcoal : Part.coal ∈ ps) (hvt : Part.vt ∈ ps) (hlinks : Part.links ∈ ps) (hcol : Part.col ∈ ps) :
    Keeps ps s (pumpAll u) := by
  unfold pumpAll
  repeat' first
    | with_reducible assumption
    | with_reducible intro _
    | with_reducible apply pumpPlane_keeps
    | with_reducible apply putCol_keeps
    | with_reducible apply Keeps.foldl
    | with_reducible apply Keeps.foldlP
    | with_reducible apply Keeps.ite
    | split
    | dsimp only

theorem toPlane_keeps (i : Nat) (js : ColJob × State) (h : Keeps ps s js.2) (hregs : Part.regs ∈ ps) (hmem : Part.mem ∈ ps) (hpoison : Part.poison ∈ ps) (hcores : Part.cores ∈ ps) (hcoal : Part.coal ∈ ps) (hvt : Part.vt ∈ ps) (hlinks : Part.links ∈ ps) (hcol : Part.col ∈ ps) :
    Keeps ps s (toPlane i js).2 := by
  unfold toPlane
  repeat' first
    | with_reducible assumption
    | with_reducible apply pumpPlane_keeps

theorem sendLanes_keeps (i : Nat) (js : ColJob × State) (h : Keeps ps s js.2) (hregs : Part.regs ∈ ps) (hmem : Part.mem ∈ ps) (hpoison : Part.poison ∈ ps) (hcores : Part.cores ∈ ps) (hcoal : Part.coal ∈ ps) (hvt : Part.vt ∈ ps) (hlinks : Part.links ∈ ps) :
    Keeps ps s (sendLanes i js).2 := by
  unfold sendLanes
  repeat' first
    | with_reducible assumption
    | with_reducible apply countVals_keeps
    | with_reducible apply sendRanks_keeps

theorem ownerAct_keeps (phase : Nat) (i : Nat) (js : ColJob × State) (h : Keeps ps s js.2) (hregs : Part.regs ∈ ps) (hmem : Part.mem ∈ ps) (hpoison : Part.poison ∈ ps) (hcores : Part.cores ∈ ps) (hcoal : Part.coal ∈ ps) (hvt : Part.vt ∈ ps) (hlinks : Part.links ∈ ps) (hcol : Part.col ∈ ps) (hhbms : Part.hbms ∈ ps) :
    Keeps ps s (ownerAct phase i js).2 := by
  unfold ownerAct
  repeat' first
    | with_reducible assumption
    | with_reducible apply roundSwath_keeps
    | with_reducible apply sendRanks_keeps
    | with_reducible apply sendSwath_keeps
    | with_reducible apply toPlane_keeps
    | with_reducible apply Keeps.ite
    | with_reducible apply Keeps.ite2

theorem sendPiece_keeps (ranks : List Nat) (no : Nat) (bs : List Byte) (js : ColJob × State) (h : Keeps ps s js.2) (hregs : Part.regs ∈ ps) (hmem : Part.mem ∈ ps) (hpoison : Part.poison ∈ ps) (hcores : Part.cores ∈ ps) (hcoal : Part.coal ∈ ps) (hvt : Part.vt ∈ ps) (hlinks : Part.links ∈ ps) :
    Keeps ps s (sendPiece ranks no bs js).2 := by
  unfold sendPiece
  repeat' first
    | with_reducible assumption
    | with_reducible intro _
    | with_reducible apply sendPlane_keeps
    | with_reducible apply sendRanks_keeps
    | with_reducible apply Keeps.ite2
    | with_reducible apply Keeps.ite
    | split
    | dsimp only

theorem sendPieces_keeps (ranks : List Nat) (bs : List Byte) (open_ : Bool) (js : ColJob × State) (h : Keeps ps s js.2) (hregs : Part.regs ∈ ps) (hmem : Part.mem ∈ ps) (hpoison : Part.poison ∈ ps) (hcores : Part.cores ∈ ps) (hcoal : Part.coal ∈ ps) (hvt : Part.vt ∈ ps) (hlinks : Part.links ∈ ps) :
    Keeps ps s (sendPieces ranks bs open_ js).2 := by
  unfold sendPieces
  repeat' first
    | with_reducible assumption
    | with_reducible intro _
    | with_reducible apply sendPiece_keeps
    | with_reducible apply Keeps.foldl
    | with_reducible apply Keeps.foldlP
    | with_reducible apply Keeps.ite2
    | with_reducible apply Keeps.ite
    | split
    | dsimp only

theorem readSrc_keeps (j : ColJob) (k : Nat) (off : Nat) (n : Nat) (h : Keeps ps s u) (hregs : Part.regs ∈ ps) (hpoison : Part.poison ∈ ps) (hhbms : Part.hbms ∈ ps) :
    Keeps ps s (readSrc j k off n u).2 := by
  unfold readSrc
  repeat' first
    | with_reducible assumption
    | with_reducible apply unitRead_keeps

theorem moveGo_keeps (js : ColJob × State) (h : Keeps ps s js.2) (hregs : Part.regs ∈ ps) (hmem : Part.mem ∈ ps) (hpoison : Part.poison ∈ ps) (hcores : Part.cores ∈ ps) (hcoal : Part.coal ∈ ps) (hvt : Part.vt ∈ ps) (hlinks : Part.links ∈ ps) (_hcol : Part.col ∈ ps) (hhbms : Part.hbms ∈ ps) :
    Keeps ps s (moveGo js).2 := by
  unfold moveGo
  repeat' first
    | with_reducible assumption
    | with_reducible intro _
    | extract_lets +onlyGivenNames t
    | with_reducible apply colAbort_keeps
    | with_reducible apply colWarn_keeps
    | with_reducible apply readSrc_keeps
    | with_reducible apply sendPieces_keeps
    | with_reducible apply Keeps.ite
    | with_reducible apply Keeps.ite2
    | with_reducible apply Keeps.foldlP
    | split

theorem redGo_keeps (js : ColJob × State) (h : Keeps ps s js.2) (hregs : Part.regs ∈ ps) (hmem : Part.mem ∈ ps) (hpoison : Part.poison ∈ ps) (hcores : Part.cores ∈ ps) (hcoal : Part.coal ∈ ps) (hvt : Part.vt ∈ ps) (hlinks : Part.links ∈ ps) (hcol : Part.col ∈ ps) (hhbms : Part.hbms ∈ ps) :
    Keeps ps s (redGo js).2 := by
  unfold redGo
  repeat' first
    | with_reducible assumption
    | with_reducible intro _
    | extract_lets +onlyGivenNames t
    | with_reducible apply colAbort_keeps
    | with_reducible apply readSrc_keeps
    | with_reducible apply sendLanes_keeps
    | with_reducible apply sendRanks_keeps
    | with_reducible apply toPlane_keeps
    | with_reducible apply Keeps.foldlP
    | split

theorem goAct_keeps (j : ColJob) (h : Keeps ps s u) (hregs : Part.regs ∈ ps) (hmem : Part.mem ∈ ps) (hpoison : Part.poison ∈ ps) (hcores : Part.cores ∈ ps) (hcoal : Part.coal ∈ ps) (hvt : Part.vt ∈ ps) (hlinks : Part.links ∈ ps) (hcol : Part.col ∈ ps) (hhbms : Part.hbms ∈ ps) :
    Keeps ps s (goAct j u) := by
  unfold goAct
  repeat' first
    | with_reducible assumption
    | with_reducible apply moveGo_keeps
    | with_reducible apply putCol_keeps
    | with_reducible apply redGo_keeps
    | split

theorem collGo_keeps (i : Nat) (h : Keeps ps s u) (hfree : Part.free ∈ ps) (hregs : Part.regs ∈ ps) (hmem : Part.mem ∈ ps) (hpoison : Part.poison ∈ ps) (hcores : Part.cores ∈ ps) (hcoal : Part.coal ∈ ps) (hvt : Part.vt ∈ ps) (hlinks : Part.links ∈ ps) (hcol : Part.col ∈ ps) (hhbms : Part.hbms ∈ ps) :
    Keeps ps s (collGo i u) := by
  unfold collGo
  repeat' first
    | with_reducible assumption
    | with_reducible intro _
    | with_reducible apply colAbort_keeps
    | with_reducible apply colTake_keeps
    | with_reducible apply goAct_keeps
    | with_reducible apply passOn_keeps
    | with_reducible apply putCol_keeps
    | with_reducible apply stray_keeps
    | with_reducible apply Keeps.ite
    | split
    | dsimp only
    | refine Keeps.of_eq2 (by assumption) ?_
    | refine Keeps.of_eq3 (by assumption) ?_

theorem landStream_keeps (p : Packet) (js : ColJob × State) (h : Keeps ps s js.2) (hregs : Part.regs ∈ ps) (hmem : Part.mem ∈ ps) (hpoison : Part.poison ∈ ps) (hcores : Part.cores ∈ ps) (hcoal : Part.coal ∈ ps) (hhbms : Part.hbms ∈ ps) :
    Keeps ps s (landStream p js).2 := by
  unfold landStream
  repeat' first
    | with_reducible assumption
    | (extract_lets +onlyGivenNames t
       first
       | (refine Keeps.gen ps s t ?_ ?_
          on_goal 1 => subst t
          on_goal 2 => (intro ht; clear_value t))
       | clear_value t)
    | with_reducible apply arriveSlot_keeps
    | with_reducible apply unitWrite_keeps
    | split

theorem keepPiece_keeps (p : Packet) (js : ColJob × State) (h : Keeps ps s js.2) (hregs : Part.regs ∈ ps) (hmem : Part.mem ∈ ps) (hpoison : Part.poison ∈ ps) (hcores : Part.cores ∈ ps) (hcoal : Part.coal ∈ ps) (hhbms : Part.hbms ∈ ps) :
    Keeps ps s (keepPiece p js).2 := by
  unfold keepPiece
  repeat' first
    | with_reducible assumption
    | with_reducible intro _
    | with_reducible apply landStream_keeps
    | with_reducible apply workWrite_keeps
    | with_reducible apply Keeps.ite2
    | with_reducible apply Keeps.ite
    | split
    | dsimp only

theorem pieceAct_keeps (sw : Bool) (p : Packet) (js : ColJob × State) (h : Keeps ps s js.2) (hregs : Part.regs ∈ ps) (hmem : Part.mem ∈ ps) (hpoison : Part.poison ∈ ps) (hcores : Part.cores ∈ ps) (hcoal : Part.coal ∈ ps) (hvt : Part.vt ∈ ps) (hlinks : Part.links ∈ ps) (hhbms : Part.hbms ∈ ps) :
    Keeps ps s (pieceAct sw p js).2 := by
  unfold pieceAct
  repeat' first
    | with_reducible assumption
    | with_reducible intro _
    | with_reducible apply keepPiece_keeps
    | with_reducible apply sendPlane_keeps
    | with_reducible apply Keeps.ite2
    | with_reducible apply Keeps.ite
    | split
    | dsimp only

theorem dataAct_keeps (sw : Bool) (p : Packet) (js : ColJob × State) (h : Keeps ps s js.2) (hregs : Part.regs ∈ ps) (hmem : Part.mem ∈ ps) (hpoison : Part.poison ∈ ps) (hcores : Part.cores ∈ ps) (hcoal : Part.coal ∈ ps) (hvt : Part.vt ∈ ps) (hlinks : Part.links ∈ ps) (hcol : Part.col ∈ ps) (hhbms : Part.hbms ∈ ps) :
    Keeps ps s (dataAct sw p js).2 := by
  unfold dataAct
  repeat' first
    | with_reducible assumption
    | with_reducible intro _
    | with_reducible apply ownerAct_keeps
    | with_reducible apply pieceAct_keeps
    | with_reducible apply sendLanes_keeps
    | with_reducible apply stage_keeps
    | with_reducible apply Keeps.ite2
    | with_reducible apply Keeps.ite
    | split
    | dsimp only

theorem collData_keeps (i : Nat) (h : Keeps ps s u) (hfree : Part.free ∈ ps) (hregs : Part.regs ∈ ps) (hmem : Part.mem ∈ ps) (hpoison : Part.poison ∈ ps) (hcores : Part.cores ∈ ps) (hcoal : Part.coal ∈ ps) (hvt : Part.vt ∈ ps) (hlinks : Part.links ∈ ps) (hcol : Part.col ∈ ps) (hhbms : Part.hbms ∈ ps) :
    Keeps ps s (collData i u) := by
  unfold collData
  repeat' first
    | with_reducible assumption
    | with_reducible apply State.count_keeps
    | with_reducible apply colAbort_keeps
    | with_reducible apply colTake_keeps
    | with_reducible apply dataAct_keeps
    | with_reducible apply putCol_keeps
    | with_reducible apply stray_keeps
    | split
    | refine Keeps.of_eq3 (by assumption) ?_

theorem switchAct_keeps (p : Packet) (js : ColJob × State) (h : Keeps ps s js.2) (hregs : Part.regs ∈ ps) (hmem : Part.mem ∈ ps) (hpoison : Part.poison ∈ ps) (hcores : Part.cores ∈ ps) (hcoal : Part.coal ∈ ps) (hvt : Part.vt ∈ ps) (hlinks : Part.links ∈ ps) (hcol : Part.col ∈ ps) (hhbms : Part.hbms ∈ ps) :
    Keeps ps s (switchAct p js).2 := by
  unfold switchAct
  repeat' first
    | with_reducible assumption
    | with_reducible intro _
    | with_reducible apply pumpPlane_keeps
    | with_reducible apply roundSwath_keeps
    | with_reducible apply sendRanks_keeps
    | with_reducible apply sendSwath_keeps
    | with_reducible apply Keeps.ite2
    | with_reducible apply Keeps.ite
    | split
    | dsimp only

theorem switchResult_keeps (i : Nat) (h : Keeps ps s u) (hfree : Part.free ∈ ps) (hregs : Part.regs ∈ ps) (hmem : Part.mem ∈ ps) (hpoison : Part.poison ∈ ps) (hcores : Part.cores ∈ ps) (hcoal : Part.coal ∈ ps) (hvt : Part.vt ∈ ps) (hlinks : Part.links ∈ ps) (hcol : Part.col ∈ ps) (hhbms : Part.hbms ∈ ps) :
    Keeps ps s (switchResult i u) := by
  unfold switchResult
  repeat' first
    | with_reducible assumption
    | with_reducible intro _
    | with_reducible apply State.count_keeps
    | with_reducible apply colAbort_keeps
    | with_reducible apply colTake_keeps
    | with_reducible apply pumpAll_keeps
    | with_reducible apply putCol_keeps
    | with_reducible apply stray_keeps
    | with_reducible apply switchAct_keeps
    | with_reducible apply Keeps.ite
    | split
    | dsimp only
    | refine Keeps.of_eq2 (by assumption) ?_
    | refine Keeps.of_eq3 (by assumption) ?_

theorem noctx_keeps (i : Nat) (h : Keeps ps s u) (hfree : Part.free ∈ ps) (hregs : Part.regs ∈ ps) (hmem : Part.mem ∈ ps) (hpoison : Part.poison ∈ ps) (hcores : Part.cores ∈ ps) (hcoal : Part.coal ∈ ps) (hvt : Part.vt ∈ ps) (hlinks : Part.links ∈ ps) (hcol : Part.col ∈ ps) :
    Keeps ps s (noctx i u) := by
  unfold noctx
  repeat' first
    | with_reducible assumption
    | with_reducible apply colAbort_keeps
    | with_reducible apply colTake_keeps
    | with_reducible apply putCol_keeps
    | with_reducible apply stray_keeps
    | split
    | refine Keeps.of_eq3 (by assumption) ?_

theorem noctxRetry_keeps (c : Nat) (i : Nat) (h : Keeps ps s u) (hregs : Part.regs ∈ ps) (hmem : Part.mem ∈ ps) (hpoison : Part.poison ∈ ps) (hcores : Part.cores ∈ ps) (hcoal : Part.coal ∈ ps) (hvt : Part.vt ∈ ps) (hlinks : Part.links ∈ ps) (hcol : Part.col ∈ ps) :
    Keeps ps s (noctxRetry c i u) := by
  unfold noctxRetry
  repeat' first
    | with_reducible assumption
    | with_reducible apply State.countSat_keeps
    | with_reducible apply putCol_keeps
    | with_reducible apply sendSwath_keeps
    | split

theorem collReady_keeps (c : Nat) (k : Nat) (h : Keeps ps s u) (hregs : Part.regs ∈ ps) (hmem : Part.mem ∈ ps) (hpoison : Part.poison ∈ ps) (hcores : Part.cores ∈ ps) (hcoal : Part.coal ∈ ps) (hvt : Part.vt ∈ ps) (hlinks : Part.links ∈ ps) (hcol : Part.col ∈ ps) :
    Keeps ps s (collReady c k u) := by
  unfold collReady
  repeat' first
    | with_reducible assumption
    | with_reducible apply castVote_keeps
    | with_reducible apply putCol_keeps
    | with_reducible apply Keeps.ite
    | split

theorem collCommit_keeps (i : Nat) (h : Keeps ps s u) (hfree : Part.free ∈ ps) (hregs : Part.regs ∈ ps) (hmem : Part.mem ∈ ps) (hpoison : Part.poison ∈ ps) (hcores : Part.cores ∈ ps) (hcoal : Part.coal ∈ ps) (hvt : Part.vt ∈ ps) (hlinks : Part.links ∈ ps) (hcol : Part.col ∈ ps) :
    Keeps ps s (collCommit i u) := by
  unfold collCommit
  repeat' first
    | with_reducible assumption
    | with_reducible intro _
    | with_reducible apply colAbort_keeps
    | with_reducible apply colTake_keeps
    | with_reducible apply passOn_keeps
    | with_reducible apply putCol_keeps
    | with_reducible apply stray_keeps
    | with_reducible apply Keeps.ite
    | split
    | dsimp only
    | refine Keeps.of_eq2 (by assumption) ?_
    | refine Keeps.of_eq3 (by assumption) ?_

theorem freeBytes_keeps (n : Nat) (h : Keeps ps s u) (hfree : Part.free ∈ ps) :
    Keeps ps s (freeBytes n u).2 := by
  unfold freeBytes
  repeat' first
    | with_reducible assumption
    | with_reducible intro _
    | split
    | dsimp only
    | (conv => (arg 3; arg 29)
       refine Keeps.mk' ?_ rfl rfl rfl rfl rfl rfl rfl
        (fun q hn => by cases q <;> first | exact rfl | exact ⟨rfl, rfl⟩ | exact absurd (by assumption) hn))

theorem writeOut_keeps (k : Nat) (ga : Nat) (bs : List Byte) (js : ColJob × State) (h : Keeps ps s js.2) (hfree : Part.free ∈ ps) (hregs : Part.regs ∈ ps) (hmem : Part.mem ∈ ps) (hpoison : Part.poison ∈ ps) (hhbms : Part.hbms ∈ ps) :
    Keeps ps s (writeOut k ga bs js).2 := by
  unfold writeOut
  repeat' first
    | with_reducible assumption
    | with_reducible intro _
    | with_reducible apply freeBytes_keeps
    | with_reducible apply unitWrite_keeps
    | with_reducible apply Keeps.ite2
    | with_reducible apply Keeps.ite
    | split
    | dsimp only

theorem copyOut_keeps (o : Nat × Nat × Nat × Nat) (js : ColJob × State) (h : Keeps ps s js.2) (hfree : Part.free ∈ ps) (hregs : Part.regs ∈ ps) (hmem : Part.mem ∈ ps) (hpoison : Part.poison ∈ ps) (hhbms : Part.hbms ∈ ps) :
    Keeps ps s (copyOut o js).2 := by
  unfold copyOut
  repeat' first
    | with_reducible assumption
    | with_reducible intro _
    | with_reducible apply freeBytes_keeps
    | with_reducible apply workRead_keeps
    | with_reducible apply writeOut_keeps
    | split
    | dsimp only

theorem commitDone_keeps (c : Nat) (h : Keeps ps s u) (hfree : Part.free ∈ ps) (hregs : Part.regs ∈ ps) (hmem : Part.mem ∈ ps) (hpoison : Part.poison ∈ ps) (hcores : Part.cores ∈ ps) (hcoal : Part.coal ∈ ps) (hvt : Part.vt ∈ ps) (hlinks : Part.links ∈ ps) (hcol : Part.col ∈ ps) (hhbms : Part.hbms ∈ ps) :
    Keeps ps s (commitDone c u) := by
  unfold commitDone
  repeat' first
    | with_reducible assumption
    | with_reducible intro _
    | with_reducible apply arriveLogical_keeps
    | with_reducible apply colEnd_keeps
    | with_reducible apply copyOut_keeps
    | with_reducible apply pumpAll_keeps
    | with_reducible apply writeOut_keeps
    | with_reducible apply Keeps.foldl
    | with_reducible apply Keeps.foldlP
    | with_reducible apply Keeps.ite
    | split
    | dsimp only

theorem abortResult_keeps (i : Nat) (h : Keeps ps s u) (hfree : Part.free ∈ ps) (hregs : Part.regs ∈ ps) (hmem : Part.mem ∈ ps) (hpoison : Part.poison ∈ ps) (hcores : Part.cores ∈ ps) (hcoal : Part.coal ∈ ps) (hvt : Part.vt ∈ ps) (hlinks : Part.links ∈ ps) (hcol : Part.col ∈ ps) (hhbms : Part.hbms ∈ ps) :
    Keeps ps s (abortResult i u) := by
  unfold abortResult
  repeat' first
    | with_reducible assumption
    | with_reducible intro _
    | with_reducible apply colEnd_keeps
    | with_reducible apply colTake_keeps
    | with_reducible apply passOn_keeps
    | with_reducible apply pumpAll_keeps
    | with_reducible apply stray_keeps
    | with_reducible apply Keeps.ite
    | split
    | dsimp only
    | refine Keeps.of_eq2 (by assumption) ?_
    | refine Keeps.of_eq3 (by assumption) ?_
    | (conv => (arg 3; arg 29)
       refine Keeps.mk' ?_ rfl rfl rfl rfl rfl rfl rfl
        (fun q hn => by cases q <;> first | exact rfl | exact ⟨rfl, rfl⟩ | exact absurd (by assumption) hn))

theorem collDeadline_keeps (c : Nat) (h : Keeps ps s u) (hregs : Part.regs ∈ ps) (hmem : Part.mem ∈ ps) (hpoison : Part.poison ∈ ps) (hcores : Part.cores ∈ ps) (hcoal : Part.coal ∈ ps) (hvt : Part.vt ∈ ps) (hlinks : Part.links ∈ ps) (hcol : Part.col ∈ ps) :
    Keeps ps s (collDeadline c u) := by
  unfold collDeadline
  repeat' first
    | with_reducible assumption
    | with_reducible apply colAbort_keeps
    | with_reducible apply putCol_keeps
    | split

theorem collGrace_keeps (c : Nat) (h : Keeps ps s u) (hfree : Part.free ∈ ps) (hregs : Part.regs ∈ ps) (hmem : Part.mem ∈ ps) (hpoison : Part.poison ∈ ps) (hcores : Part.cores ∈ ps) (hcoal : Part.coal ∈ ps) (hvt : Part.vt ∈ ps) (hlinks : Part.links ∈ ps) (hcol : Part.col ∈ ps) (hhbms : Part.hbms ∈ ps) :
    Keeps ps s (collGrace c u) := by
  unfold collGrace
  repeat' first
    | with_reducible assumption
    | with_reducible intro _
    | with_reducible apply colEnd_keeps
    | with_reducible apply pumpAll_keeps
    | with_reducible apply Keeps.ite
    | split
    | dsimp only

theorem colFlush_keeps (n : Nat) (h : Keeps ps s u) (hregs : Part.regs ∈ ps) (hmem : Part.mem ∈ ps) (hpoison : Part.poison ∈ ps) (hcores : Part.cores ∈ ps) (hcoal : Part.coal ∈ ps) (hvt : Part.vt ∈ ps) (hlinks : Part.links ∈ ps) (hcol : Part.col ∈ ps) :
    Keeps ps s (colFlush n u) := by
  unfold colFlush
  repeat' first
    | with_reducible assumption
    | with_reducible apply colAbort_keeps
    | with_reducible apply putCol_keeps
    | split
    | dsimp only
    | (conv => (arg 3; arg 29)
       refine Keeps.mk' ?_ rfl rfl rfl rfl rfl rfl rfl
        (fun q hn => by cases q <;> first | exact rfl | exact ⟨rfl, rfl⟩ | exact absurd (by assumption) hn))

theorem colNodeDown_keeps (target : Nat) (h : Keeps ps s u) (hregs : Part.regs ∈ ps) (hmem : Part.mem ∈ ps) (hpoison : Part.poison ∈ ps) (hcores : Part.cores ∈ ps) (hcoal : Part.coal ∈ ps) (hvt : Part.vt ∈ ps) (hlinks : Part.links ∈ ps) (hcol : Part.col ∈ ps) :
    Keeps ps s (colNodeDown target u) := by
  unfold colNodeDown
  repeat' first
    | with_reducible assumption
    | with_reducible intro _
    | with_reducible apply colAbort_keeps
    | with_reducible apply putCol_keeps
    | with_reducible apply Keeps.foldl
    | split

theorem withDowns_keeps (f : State → State) (h : Keeps ps s u) (hregs : Part.regs ∈ ps) (hmem : Part.mem ∈ ps) (hpoison : Part.poison ∈ ps) (hcores : Part.cores ∈ ps) (hcoal : Part.coal ∈ ps) (hvt : Part.vt ∈ ps) (hlinks : Part.links ∈ ps) (hcol : Part.col ∈ ps) (h_f : ∀  t, Keeps ps s t → Keeps ps s (f  t)) :
    Keeps ps s (withDowns f u) := by
  unfold withDowns
  repeat' first
    | (with_reducible apply_assumption)
    | with_reducible intro _
    | with_reducible apply colNodeDown_keeps
    | with_reducible apply Keeps.foldl
    | with_reducible apply Keeps.foldlP
    | split
    | dsimp only

theorem notice_keeps (i : Nat) (h : Keeps ps s u) (hregs : Part.regs ∈ ps) (hmem : Part.mem ∈ ps) (hpoison : Part.poison ∈ ps) (hcores : Part.cores ∈ ps) (hcoal : Part.coal ∈ ps) (hvt : Part.vt ∈ ps) (hlinks : Part.links ∈ ps) (hcol : Part.col ∈ ps) :
    Keeps ps s (notice i u) := by
  unfold notice
  repeat' first
    | with_reducible assumption
    | with_reducible intro _
    | with_reducible apply noticeVt_keeps
    | with_reducible apply withDowns_keeps
    | split
    | dsimp only

end Sys2Proof.Machine
end

