-- ==== Sys2Proof/Laws/KeepsLinks.lean ====
section
/-!
SUPPORT. What each operation of Machine/Links.lean keeps (Laws/Keeps.lean), and the parts of State it may change.
-/
namespace Sys2Proof.Machine

set_option linter.unreachableTactic false
set_option linter.unusedTactic false
set_option linter.tactic.unusedName false

variable {ps : List Part} {s u : State}

theorem State.livePort_keeps (n : Nat) (f : State → State) (h : Keeps ps s u) (h_f : ∀ t, Keeps ps s t → Keeps ps s (f t)) :
    Keeps ps s (State.livePort u n f) := by
  unfold State.livePort
  repeat' first
    | (with_reducible apply_assumption)
    | split

theorem vlLast_keeps (n : Nat) (code : Nat) (lane : Nat) (dir : Nat) (h : Keeps ps s u) (hregs : Part.regs ∈ ps) :
    Keeps ps s (vlLast n code lane dir u) := by
  unfold vlLast
  repeat' first
    | with_reducible assumption
    | with_reducible apply State.set_keeps

theorem vlWarn_keeps (n : Nat) (code : Nat) (lane : Nat) (dir : Nat) (irq : Option Fld) (h : Keeps ps s u) (hregs : Part.regs ∈ ps) (hcoal : Part.coal ∈ ps) :
    Keeps ps s (vlWarn n code lane dir irq u) := by
  unfold vlWarn
  repeat' first
    | with_reducible assumption
    | with_reducible apply State.raise_keeps
    | with_reducible apply State.report_keeps
    | with_reducible apply vlLast_keeps
    | split

theorem dueCtl_keeps (n : Nat) (cs : List Ctl) (h : Keeps ps s u) (hlinks : Part.links ∈ ps) :
    Keeps ps s (dueCtl n cs u) := by
  unfold dueCtl
  repeat' first
    | with_reducible assumption
    | with_reducible intro _
    | with_reducible apply State.setLink_keeps
    | with_reducible apply Keeps.foldl
    | with_reducible apply Keeps.foldlP
    | split
    | dsimp only

theorem emitBlock_keeps (n : Nat) (b : Block) (h : Keeps ps s u) (hlinks : Part.links ∈ ps) :
    Keeps ps s (emitBlock n b u) := by
  unfold emitBlock
  repeat' first
    | with_reducible assumption
    | with_reducible intro _
    | with_reducible apply State.setLink_keeps
    | split
    | dsimp only

theorem dropAdv_keeps (n : Nat) (h : Keeps ps s u) (hregs : Part.regs ∈ ps) :
    Keeps ps s (dropAdv n u) := by
  unfold dropAdv
  repeat' first
    | with_reducible assumption
    | with_reducible apply Keeps.setWord
    | split

theorem leaveUp_keeps (n : Nat) (st : Nat) (h : Keeps ps s u) (hfree : Part.free ∈ ps) (hregs : Part.regs ∈ ps) (hcoal : Part.coal ∈ ps) (hvt : Part.vt ∈ ps) (hlinks : Part.links ∈ ps) :
    Keeps ps s (leaveUp n st u) := by
  unfold leaveUp
  repeat' first
    | with_reducible assumption
    | with_reducible intro _
    | with_reducible apply State.set_keeps
    | with_reducible apply State.setLink_keeps
    | with_reducible apply addDead_keeps
    | with_reducible apply dropAdv_keeps
    | with_reducible apply handBack_keeps
    | with_reducible apply Keeps.ite
    | split
    | dsimp only
    | (conv => (arg 3; arg 29)
       refine Keeps.mk' ?_ rfl rfl rfl rfl rfl rfl rfl
        (fun q hn => by cases q <;> first | exact rfl | exact ⟨rfl, rfl⟩ | exact absurd (by assumption) hn))

theorem portDown_keeps (n : Nat) (code : Nat) (h : Keeps ps s u) (hfree : Part.free ∈ ps) (hregs : Part.regs ∈ ps) (hcoal : Part.coal ∈ ps) (hvt : Part.vt ∈ ps) (hlinks : Part.links ∈ ps) :
    Keeps ps s (portDown n code u) := by
  unfold portDown
  repeat' first
    | with_reducible assumption
    | with_reducible apply State.setLink_keeps
    | with_reducible apply leaveUp_keeps
    | split

theorem enterState_keeps (n : Nat) (st : Nat) (h : Keeps ps s u) (hregs : Part.regs ∈ ps) (hlinks : Part.links ∈ ps) :
    Keeps ps s (enterState n st u) := by
  unfold enterState
  repeat' first
    | with_reducible assumption
    | with_reducible intro _
    | with_reducible apply State.set_keeps
    | with_reducible apply State.setLink_keeps
    | split
    | dsimp only

theorem settleDown_keeps (n : Nat) (h : Keeps ps s u) (hregs : Part.regs ∈ ps) (hlinks : Part.links ∈ ps) :
    Keeps ps s (settleDown n u) := by
  unfold settleDown
  repeat' first
    | with_reducible assumption
    | with_reducible intro _
    | with_reducible apply enterState_keeps
    | with_reducible apply Keeps.ite
    | split
    | dsimp only

theorem lossCause_keeps (n : Nat) (h : Keeps ps s u) (hregs : Part.regs ∈ ps) (hcoal : Part.coal ∈ ps) (hvt : Part.vt ∈ ps) (hlinks : Part.links ∈ ps) :
    Keeps ps s (lossCause n u) := by
  unfold lossCause
  repeat' first
    | with_reducible assumption
    | with_reducible intro _
    | (extract_lets +onlyGivenNames t
       first
       | (refine Keeps.gen ps s t ?_ ?_
          on_goal 1 => subst t
          on_goal 2 => (intro ht; clear_value t))
       | clear_value t)
    | with_reducible apply State.countSat_keeps
    | with_reducible apply State.raise_keeps
    | with_reducible apply State.report_keeps
    | with_reducible apply State.set_keeps
    | with_reducible apply State.setLink_keeps
    | with_reducible apply issueNotice_keeps
    | with_reducible apply quorum_keeps
    | with_reducible apply settleDown_keeps
    | with_reducible apply vlLast_keeps
    | with_reducible apply Keeps.ite
    | split
    | refine Keeps.of_eq2 (by assumption) ?_
    | (conv => (arg 3; arg 29)
       refine Keeps.mk' ?_ rfl rfl rfl rfl rfl rfl rfl
        (fun q hn => by cases q <;> first | exact rfl | exact ⟨rfl, rfl⟩ | exact absurd (by assumption) hn))

theorem ackLimitExpiry_keeps (n : Nat) (h : Keeps ps s u) (hfree : Part.free ∈ ps) (hregs : Part.regs ∈ ps) (hcoal : Part.coal ∈ ps) (hvt : Part.vt ∈ ps) (hlinks : Part.links ∈ ps) :
    Keeps ps s (ackLimitExpiry n u) := by
  unfold ackLimitExpiry
  repeat' first
    | with_reducible assumption
    | with_reducible apply portDown_keeps
    | with_reducible apply Keeps.ite

theorem portEnable_keeps (n : Nat) (v : Word) (h : Keeps ps s u) (hfree : Part.free ∈ ps) (hregs : Part.regs ∈ ps) (hcoal : Part.coal ∈ ps) (hvt : Part.vt ∈ ps) (hlinks : Part.links ∈ ps) :
    Keeps ps s (portEnable n v u) := by
  unfold portEnable
  repeat' first
    | with_reducible assumption
    | with_reducible apply State.set_keeps
    | with_reducible apply State.setLink_keeps
    | with_reducible apply enterState_keeps
    | with_reducible apply leaveUp_keeps
    | split

theorem prsntChange_keeps (n : Nat) (asserted : Bool) (h : Keeps ps s u) (hregs : Part.regs ∈ ps) (hlinks : Part.links ∈ ps) :
    Keeps ps s (prsntChange n asserted u) := by
  unfold prsntChange
  repeat' first
    | with_reducible assumption
    | with_reducible intro _
    | with_reducible apply State.set_keeps
    | with_reducible apply State.setLink_keeps
    | with_reducible apply settleDown_keeps
    | with_reducible apply Keeps.ite
    | split
    | dsimp only

theorem prsntSettled_keeps (n : Nat) (h : Keeps ps s u) (hregs : Part.regs ∈ ps) (hlinks : Part.links ∈ ps) :
    Keeps ps s (prsntSettled n u) := by
  unfold prsntSettled
  repeat' first
    | with_reducible assumption
    | with_reducible apply enterState_keeps
    | split

theorem setRxStat_keeps (n : Nat) (l : Nat) (v : Nat) (h : Keeps ps s u) (hregs : Part.regs ∈ ps) :
    Keeps ps s (setRxStat n l v u) := by
  unfold setRxStat
  repeat' first
    | with_reducible assumption
    | with_reducible apply State.set_keeps

theorem retrain_keeps (n : Nat) (l : Nat) (h : Keeps ps s u) (hregs : Part.regs ∈ ps) (hlinks : Part.links ∈ ps) :
    Keeps ps s (retrain n l u) := by
  unfold retrain
  repeat' first
    | with_reducible assumption
    | with_reducible intro _
    | with_reducible apply dueCtl_keeps
    | with_reducible apply setRxStat_keeps
    | split
    | dsimp only

theorem trainingDone_keeps (n : Nat) (tx : List Nat) (rx : List Nat) (h : Keeps ps s u) (hregs : Part.regs ∈ ps) (hcoal : Part.coal ∈ ps) (hlinks : Part.links ∈ ps) :
    Keeps ps s (trainingDone n tx rx u) := by
  unfold trainingDone
  repeat' first
    | with_reducible assumption
    | with_reducible intro _
    | with_reducible apply State.set_keeps
    | with_reducible apply enterState_keeps
    | with_reducible apply retrain_keeps
    | with_reducible apply vlWarn_keeps
    | with_reducible apply Keeps.foldl
    | with_reducible apply Keeps.foldlP
    | with_reducible apply Keeps.ite
    | split
    | dsimp only

theorem trainingLimit_keeps (n : Nat) (h : Keeps ps s u) (hregs : Part.regs ∈ ps) (hlinks : Part.links ∈ ps) :
    Keeps ps s (trainingLimit n u) := by
  unfold trainingLimit
  repeat' first
    | with_reducible assumption
    | with_reducible intro _
    | with_reducible apply State.set_keeps
    | with_reducible apply settleDown_keeps
    | with_reducible apply vlLast_keeps
    | with_reducible apply Keeps.ite
    | split
    | dsimp only

theorem portUp_keeps (n : Nat) (h : Keeps ps s u) (hregs : Part.regs ∈ ps) (hmem : Part.mem ∈ ps) (hpoison : Part.poison ∈ ps) (hcores : Part.cores ∈ ps) (hcoal : Part.coal ∈ ps) (hvt : Part.vt ∈ ps) (hlinks : Part.links ∈ ps) :
    Keeps ps s (portUp n u) := by
  unfold portUp
  repeat' first
    | with_reducible assumption
    | (extract_lets +onlyGivenNames t
       first
       | (refine Keeps.gen ps s t ?_ ?_
          on_goal 1 => subst t
          on_goal 2 => (intro ht; clear_value t))
       | clear_value t)
    | with_reducible apply State.raise_keeps
    | with_reducible apply State.set_keeps
    | with_reducible apply State.setLink_keeps
    | with_reducible apply dropDead_keeps
    | with_reducible apply issueNotice_keeps
    | with_reducible apply pump_keeps
    | split
    | (conv => (arg 3; arg 29)
       refine Keeps.mk' ?_ rfl rfl rfl rfl rfl rfl rfl
        (fun q hn => by cases q <;> first | exact rfl | exact ⟨rfl, rfl⟩ | exact absurd (by assumption) hn))

theorem peerOffset_keeps (n : Nat) (h : Keeps ps s u) (hfree : Part.free ∈ ps) (hregs : Part.regs ∈ ps) (hcoal : Part.coal ∈ ps) :
    Keeps ps s (peerOffset n u) := by
  unfold peerOffset
  repeat' first
    | with_reducible assumption
    | with_reducible apply State.drawWord_keeps
    | with_reducible apply State.raise_keeps
    | with_reducible apply State.report_keeps
    | with_reducible apply State.set_keeps
    | with_reducible apply Keeps.ite
    | split

theorem tryUp_keeps (n : Nat) (h : Keeps ps s u) (hfree : Part.free ∈ ps) (hregs : Part.regs ∈ ps) (hmem : Part.mem ∈ ps) (hpoison : Part.poison ∈ ps) (hcores : Part.cores ∈ ps) (hcoal : Part.coal ∈ ps) (hvt : Part.vt ∈ ps) (hlinks : Part.links ∈ ps) :
    Keeps ps s (tryUp n u) := by
  unfold tryUp
  repeat' first
    | with_reducible assumption
    | with_reducible apply peerOffset_keeps
    | with_reducible apply portUp_keeps
    | with_reducible apply Keeps.ite

theorem hello_keeps (n : Nat) (node : Nat) (port : Nat) (kind : Nat) (plane : Nat) (seen : Bool) (credN : Nat) (credX : Nat) (ts : Nat) (echo : Nat) (hold : Nat) (h : Keeps ps s u) (hfree : Part.free ∈ ps) (hregs : Part.regs ∈ ps) (hmem : Part.mem ∈ ps) (hpoison : Part.poison ∈ ps) (hcores : Part.cores ∈ ps) (hcoal : Part.coal ∈ ps) (hvt : Part.vt ∈ ps) (hlinks : Part.links ∈ ps) :
    Keeps ps s (hello n node port kind plane seen credN credX ts echo hold u) := by
  unfold hello
  repeat' first
    | with_reducible assumption
    | with_reducible intro _
    | with_reducible apply State.raise_keeps
    | with_reducible apply State.set_keeps
    | with_reducible apply State.setLink_keeps
    | with_reducible apply settleDown_keeps
    | with_reducible apply tryUp_keeps
    | with_reducible apply vlLast_keeps
    | with_reducible apply Keeps.ite
    | split
    | dsimp only

theorem helloTick_keeps (n : Nat) (h : Keeps ps s u) (hfree : Part.free ∈ ps) (hregs : Part.regs ∈ ps) (hmem : Part.mem ∈ ps) (hpoison : Part.poison ∈ ps) (hcores : Part.cores ∈ ps) (hcoal : Part.coal ∈ ps) (hvt : Part.vt ∈ ps) (hlinks : Part.links ∈ ps) :
    Keeps ps s (helloTick n u) := by
  unfold helloTick
  repeat' first
    | with_reducible assumption
    | with_reducible intro _
    | with_reducible apply State.setLink_keeps
    | with_reducible apply emitBlock_keeps
    | with_reducible apply tryUp_keeps
    | with_reducible apply Keeps.ite
    | split
    | dsimp only

theorem adv_keeps (n : Nat) (units : Nat) (cnt : Nat) (caps : Nat) (h : Keeps ps s u) (hregs : Part.regs ∈ ps) (hcoal : Part.coal ∈ ps) :
    Keeps ps s (adv n units cnt caps u) := by
  unfold adv
  repeat' first
    | with_reducible assumption
    | with_reducible apply State.count_keeps
    | with_reducible apply State.set_keeps
    | with_reducible apply dropAdv_keeps
    | with_reducible apply vlWarn_keeps
    | split

theorem bye_keeps (n : Nat) (h : Keeps ps s u) (hlinks : Part.links ∈ ps) :
    Keeps ps s (bye n u) := by
  unfold bye
  repeat' first
    | with_reducible assumption
    | with_reducible intro _
    | with_reducible apply State.setLink_keeps
    | with_reducible apply Keeps.ite
    | split
    | dsimp only

theorem holdExpiry_keeps (n : Nat) (h : Keeps ps s u) (hregs : Part.regs ∈ ps) (hlinks : Part.links ∈ ps) :
    Keeps ps s (holdExpiry n u) := by
  unfold holdExpiry
  repeat' first
    | with_reducible assumption
    | with_reducible apply enterState_keeps
    | split

theorem sendNak_keeps (n : Nat) (x : Bool) (h : Keeps ps s u) (hlinks : Part.links ∈ ps) :
    Keeps ps s (sendNak n x u) := by
  unfold sendNak
  repeat' first
    | with_reducible assumption
    | with_reducible intro _
    | with_reducible apply State.setLink_keeps
    | with_reducible apply dueCtl_keeps
    | with_reducible apply Keeps.ite
    | split
    | dsimp only
    | refine Keeps.of_eq2 (by assumption) ?_

theorem recvFrame_keeps (n : Nat) (x : Bool) (seq : Nat) (len : Nat) (bs : List Byte) (x2 : Bool) (seq2 : Nat) (crc : Nat) (h : Keeps ps s u) (hregs : Part.regs ∈ ps) (hvt : Part.vt ∈ ps) (hlinks : Part.links ∈ ps) :
    Keeps ps s (recvFrame n x seq len bs x2 seq2 crc u) := by
  unfold recvFrame
  repeat' first
    | with_reducible assumption
    | with_reducible intro _
    | with_reducible apply State.count_keeps
    | with_reducible apply State.countSat_keeps
    | with_reducible apply State.setLink_keeps
    | with_reducible apply arrive_keeps
    | with_reducible apply dueCtl_keeps
    | with_reducible apply sendNak_keeps
    | with_reducible apply Keeps.ite
    | split
    | dsimp only

theorem linkAck_keeps (n : Nat) (an : Nat) (ax : Nat) (cn : Nat) (cx : Nat) (h : Keeps ps s u) (hlinks : Part.links ∈ ps) :
    Keeps ps s (linkAck n an ax cn cx u) := by
  unfold linkAck
  repeat' first
    | with_reducible assumption
    | with_reducible apply State.setLink_keeps

theorem ackTick_keeps (n : Nat) (h : Keeps ps s u) (hlinks : Part.links ∈ ps) :
    Keeps ps s (ackTick n u) := by
  unfold ackTick
  repeat' first
    | with_reducible assumption
    | with_reducible apply dueCtl_keeps
    | split

theorem nakRecv_keeps (n : Nat) (x : Bool) (seq : Nat) (h : Keeps ps s u) (hfree : Part.free ∈ ps) (hregs : Part.regs ∈ ps) (hcoal : Part.coal ∈ ps) (hvt : Part.vt ∈ ps) (hlinks : Part.links ∈ ps) :
    Keeps ps s (nakRecv n x seq u) := by
  unfold nakRecv
  repeat' first
    | with_reducible assumption
    | with_reducible apply State.count_keeps
    | with_reducible apply State.setLink_keeps
    | with_reducible apply portDown_keeps
    | with_reducible apply Keeps.ite

theorem contFrame_keeps (n : Nat) (x : Bool) (o : OpenTx) (h : Keeps ps s u) (hlinks : Part.links ∈ ps) :
    Keeps ps s (contFrame n x o u) := by
  unfold contFrame
  repeat' first
    | with_reducible assumption
    | with_reducible intro _
    | with_reducible apply State.setLink_keeps
    | with_reducible apply emitBlock_keeps
    | with_reducible apply Keeps.ite
    | split
    | dsimp only

theorem startFrame_keeps (n : Nat) (x : Bool) (h : Keeps ps s u) (hregs : Part.regs ∈ ps) (hlinks : Part.links ∈ ps) :
    Keeps ps s (startFrame n x u) := by
  unfold startFrame
  repeat' first
    | with_reducible assumption
    | with_reducible intro _
    | with_reducible apply State.count_keeps
    | with_reducible apply State.countSat_keeps
    | with_reducible apply State.setLink_keeps
    | with_reducible apply emitBlock_keeps
    | with_reducible apply Keeps.ite
    | split
    | dsimp only

theorem normalSlot_keeps (n : Nat) (h : Keeps ps s u) (hregs : Part.regs ∈ ps) (hlinks : Part.links ∈ ps) :
    Keeps ps s (normalSlot n u) := by
  unfold normalSlot
  repeat' first
    | with_reducible assumption
    | with_reducible intro _
    | with_reducible apply contFrame_keeps
    | with_reducible apply emitBlock_keeps
    | with_reducible apply startFrame_keeps
    | with_reducible apply Keeps.ite
    | split
    | dsimp only

theorem applyMap_keeps (n : Nat) (h : Keeps ps s u) (hregs : Part.regs ∈ ps) (hcoal : Part.coal ∈ ps) (hvt : Part.vt ∈ ps) (hlinks : Part.links ∈ ps) :
    Keeps ps s (applyMap n u) := by
  unfold applyMap
  repeat' first
    | with_reducible assumption
    | with_reducible intro _
    | with_reducible apply State.set_keeps
    | with_reducible apply State.setLink_keeps
    | with_reducible apply refreshSpray_keeps
    | with_reducible apply vlWarn_keeps
    | with_reducible apply Keeps.ite
    | split
    | dsimp only
    | refine Keeps.of_eq2 (by assumption) ?_

theorem expressSlot_keeps (n : Nat) (h : Keeps ps s u) (hregs : Part.regs ∈ ps) (hlinks : Part.links ∈ ps) :
    Keeps ps s (expressSlot n u) := by
  unfold expressSlot
  repeat' first
    | with_reducible assumption
    | with_reducible intro _
    | with_reducible apply State.count_keeps
    | with_reducible apply State.setLink_keeps
    | with_reducible apply normalSlot_keeps
    | with_reducible apply startFrame_keeps
    | with_reducible apply Keeps.ite
    | split
    | dsimp only

theorem blockSlot_keeps (n : Nat) (h : Keeps ps s u) (hregs : Part.regs ∈ ps) (hcoal : Part.coal ∈ ps) (hvt : Part.vt ∈ ps) (hlinks : Part.links ∈ ps) :
    Keeps ps s (blockSlot n u) := by
  unfold blockSlot
  repeat' first
    | with_reducible assumption
    | with_reducible intro _
    | with_reducible apply State.setLink_keeps
    | with_reducible apply applyMap_keeps
    | with_reducible apply contFrame_keeps
    | with_reducible apply emitBlock_keeps
    | with_reducible apply expressSlot_keeps
    | with_reducible apply normalSlot_keeps
    | with_reducible apply Keeps.ite
    | split
    | dsimp only

theorem alignBlock_keeps (n : Nat) (h : Keeps ps s u) (hlinks : Part.links ∈ ps) :
    Keeps ps s (alignBlock n u) := by
  unfold alignBlock
  repeat' first
    | with_reducible assumption
    | with_reducible intro _
    | with_reducible apply State.setLink_keeps
    | with_reducible apply Keeps.ite
    | split
    | dsimp only

theorem requestMap_keeps (n : Nat) (lanes : List Nat) (h : Keeps ps s u) (hlinks : Part.links ∈ ps) :
    Keeps ps s (requestMap n lanes u) := by
  unfold requestMap
  repeat' first
    | with_reducible assumption
    | with_reducible intro _
    | with_reducible apply State.setLink_keeps
    | with_reducible apply dueCtl_keeps
    | split
    | dsimp only

theorem nakOpen_keeps (n : Nat) (h : Keeps ps s u) (hlinks : Part.links ∈ ps) :
    Keeps ps s (nakOpen n u) := by
  unfold nakOpen
  repeat' first
    | with_reducible assumption
    | with_reducible intro _
    | with_reducible apply sendNak_keeps
    | with_reducible apply Keeps.ite
    | split
    | dsimp only

theorem tooNarrow_keeps (n : Nat) (h : Keeps ps s u) (hfree : Part.free ∈ ps) (hregs : Part.regs ∈ ps) (hcoal : Part.coal ∈ ps) (hvt : Part.vt ∈ ps) (hlinks : Part.links ∈ ps) :
    Keeps ps s (tooNarrow n u) := by
  unfold tooNarrow
  repeat' first
    | with_reducible assumption
    | with_reducible intro _
    | with_reducible apply State.set_keeps
    | with_reducible apply portDown_keeps
    | with_reducible apply settleDown_keeps
    | with_reducible apply vlLast_keeps
    | with_reducible apply Keeps.ite
    | split
    | dsimp only

theorem loseLane_keeps (n : Nat) (lane : Nat) (h : Keeps ps s u) (hfree : Part.free ∈ ps) (hregs : Part.regs ∈ ps) (hcoal : Part.coal ∈ ps) (hvt : Part.vt ∈ ps) (hlinks : Part.links ∈ ps) :
    Keeps ps s (loseLane n lane u) := by
  unfold loseLane
  repeat' first
    | with_reducible assumption
    | with_reducible intro _
    | with_reducible apply State.set_keeps
    | with_reducible apply nakOpen_keeps
    | with_reducible apply requestMap_keeps
    | with_reducible apply retrain_keeps
    | with_reducible apply setRxStat_keeps
    | with_reducible apply tooNarrow_keeps
    | with_reducible apply vlWarn_keeps
    | with_reducible apply Keeps.ite
    | split
    | dsimp only
    | refine Keeps.of_eq2 (by assumption) ?_

theorem laneErrorPeriod_keeps (n : Nat) (errs : List (Fin 9 × Nat × Nat)) (pwr : List (Fin 9 × Nat)) (h : Keeps ps s u) (hfree : Part.free ∈ ps) (hregs : Part.regs ∈ ps) (hcoal : Part.coal ∈ ps) (hvt : Part.vt ∈ ps) (hlinks : Part.links ∈ ps) :
    Keeps ps s (laneErrorPeriod n errs pwr u) := by
  unfold laneErrorPeriod
  repeat' first
    | with_reducible assumption
    | with_reducible intro _
    | with_reducible apply State.countSat_keeps
    | with_reducible apply State.set_keeps
    | with_reducible apply loseLane_keeps
    | with_reducible apply vlWarn_keeps
    | with_reducible apply Keeps.ite
    | with_reducible apply Keeps.foldl

theorem lanemap_keeps (n : Nat) (mapseq : Nat) (map : Nat) (width : Nat) (h : Keeps ps s u) (hlinks : Part.links ∈ ps) :
    Keeps ps s (lanemap n mapseq map width u) := by
  unfold lanemap
  repeat' first
    | with_reducible assumption
    | with_reducible intro _
    | with_reducible apply State.setLink_keeps
    | with_reducible apply Keeps.ite
    | split
    | dsimp only

theorem lanemapRepeat_keeps (n : Nat) (h : Keeps ps s u) (hlinks : Part.links ∈ ps) :
    Keeps ps s (lanemapRepeat n u) := by
  unfold lanemapRepeat
  repeat' first
    | with_reducible assumption
    | with_reducible apply dueCtl_keeps
    | split

theorem mapsw_keeps (n : Nat) (mapseq : Nat) (h : Keeps ps s u) (hregs : Part.regs ∈ ps) (hlinks : Part.links ∈ ps) :
    Keeps ps s (mapsw n mapseq u) := by
  unfold mapsw
  repeat' first
    | with_reducible assumption
    | with_reducible apply State.set_keeps
    | with_reducible apply State.setLink_keeps
    | split

theorem train_keeps (n : Nat) (lane : Nat) (op : Nat) (h : Keeps ps s u) (hregs : Part.regs ∈ ps) :
    Keeps ps s (train n lane op u) := by
  unfold train
  repeat' first
    | with_reducible assumption
    | with_reducible intro _
    | with_reducible apply State.set_keeps
    | with_reducible apply Keeps.ite
    | split
    | dsimp only
    | refine Keeps.of_eq2 (by assumption) ?_

theorem retrainSoakEnd_keeps (n : Nat) (lane : Nat) (pass : Bool) (h : Keeps ps s u) (hregs : Part.regs ∈ ps) (hcoal : Part.coal ∈ ps) (hlinks : Part.links ∈ ps) :
    Keeps ps s (retrainSoakEnd n lane pass u) := by
  unfold retrainSoakEnd
  repeat' first
    | with_reducible assumption
    | with_reducible intro _
    | with_reducible apply State.set_keeps
    | with_reducible apply State.setLink_keeps
    | with_reducible apply dueCtl_keeps
    | with_reducible apply requestMap_keeps
    | with_reducible apply retrain_keeps
    | with_reducible apply setRxStat_keeps
    | with_reducible apply train_keeps
    | with_reducible apply vlWarn_keeps
    | with_reducible apply Keeps.ite
    | split
    | dsimp only
    | refine Keeps.of_eq2 (by assumption) ?_

theorem credStall_keeps (n : Nat) (h : Keeps ps s u) (hregs : Part.regs ∈ ps) :
    Keeps ps s (credStall n u) := by
  unfold credStall
  repeat' first
    | with_reducible assumption
    | with_reducible intro _
    | with_reducible apply State.count_keeps
    | with_reducible apply Keeps.ite
    | split
    | dsimp only

theorem dataBlock_keeps (n : Nat) (bs : List Byte) (h : Keeps ps s u) (hlinks : Part.links ∈ ps) :
    Keeps ps s (dataBlock n bs u) := by
  unfold dataBlock
  repeat' first
    | with_reducible assumption
    | with_reducible intro _
    | with_reducible apply State.setLink_keeps
    | split
    | dsimp only

theorem recvSof_keeps (n : Nat) (x : Bool) (seq : Nat) (len : Nat) (h : Keeps ps s u) (hregs : Part.regs ∈ ps) (hlinks : Part.links ∈ ps) :
    Keeps ps s (recvSof n x seq len u) := by
  unfold recvSof
  repeat' first
    | with_reducible assumption
    | with_reducible intro _
    | with_reducible apply State.count_keeps
    | with_reducible apply State.setLink_keeps
    | with_reducible apply sendNak_keeps
    | with_reducible apply Keeps.ite
    | split
    | dsimp only

theorem recvEof_keeps (n : Nat) (x2 : Bool) (seq2 : Nat) (crc : Nat) (h : Keeps ps s u) (hregs : Part.regs ∈ ps) (hvt : Part.vt ∈ ps) (hlinks : Part.links ∈ ps) :
    Keeps ps s (recvEof n x2 seq2 crc u) := by
  unfold recvEof
  repeat' first
    | with_reducible assumption
    | with_reducible intro _
    | with_reducible apply State.setLink_keeps
    | with_reducible apply recvFrame_keeps
    | with_reducible apply Keeps.ite
    | split
    | dsimp only

theorem recvCtl_keeps (n : Nat) (c : Ctl) (h : Keeps ps s u) (hfree : Part.free ∈ ps) (hregs : Part.regs ∈ ps) (hmem : Part.mem ∈ ps) (hpoison : Part.poison ∈ ps) (hcores : Part.cores ∈ ps) (hcoal : Part.coal ∈ ps) (hvt : Part.vt ∈ ps) (hlinks : Part.links ∈ ps) :
    Keeps ps s (recvCtl n c u) := by
  unfold recvCtl
  repeat' first
    | with_reducible assumption
    | with_reducible intro _
    | with_reducible apply State.drawWord_keeps
    | with_reducible apply adv_keeps
    | with_reducible apply bye_keeps
    | with_reducible apply hello_keeps
    | with_reducible apply lanemap_keeps
    | with_reducible apply linkAck_keeps
    | with_reducible apply mapsw_keeps
    | with_reducible apply nakRecv_keeps
    | with_reducible apply recvEof_keeps
    | with_reducible apply recvSof_keeps
    | with_reducible apply train_keeps
    | split
    | dsimp only

theorem controlBlockDiscard_keeps (n : Nat) (w : Nat) (h : Keeps ps s u) (hfree : Part.free ∈ ps) (hregs : Part.regs ∈ ps) (hmem : Part.mem ∈ ps) (hpoison : Part.poison ∈ ps) (hcores : Part.cores ∈ ps) (hcoal : Part.coal ∈ ps) (hvt : Part.vt ∈ ps) (hlinks : Part.links ∈ ps) :
    Keeps ps s (controlBlockDiscard n w u) := by
  unfold controlBlockDiscard
  repeat' first
    | with_reducible assumption
    | with_reducible intro _
    | with_reducible apply State.count_keeps
    | with_reducible apply dataBlock_keeps
    | with_reducible apply recvCtl_keeps
    | with_reducible apply Keeps.ite
    | split
    | dsimp only

theorem byeAll_keeps (reason : Nat) (h : Keeps ps s u) (hfree : Part.free ∈ ps) (hregs : Part.regs ∈ ps) (hcoal : Part.coal ∈ ps) (hvt : Part.vt ∈ ps) (hlinks : Part.links ∈ ps) :
    Keeps ps s (byeAll reason u) := by
  unfold byeAll
  repeat' first
    | with_reducible assumption
    | with_reducible intro _
    | with_reducible apply State.setLink_keeps
    | with_reducible apply leaveUp_keeps
    | with_reducible apply Keeps.foldl
    | split

end Sys2Proof.Machine
end

