-- ==== Sys2Proof/Laws/KeepsSilo.lean ====
section
/-!
SUPPORT. What each operation of Machine/Silo.lean keeps (Laws/Keeps.lean), and the parts of State it may change.
-/
namespace Sys2Proof.Machine

set_option linter.unreachableTactic false
set_option linter.unusedTactic false
set_option linter.tactic.unusedName false

variable {ps : List Part} {s u : State}

theorem siloLast_keeps (j : Nat) (code : Nat) (ch : Nat) (lu : Nat) (h : Keeps ps s u) (hregs : Part.regs ∈ ps) :
    Keeps ps s (siloLast j code ch lu u) := by
  unfold siloLast
  repeat' first
    | with_reducible assumption
    | with_reducible apply State.set_keeps

theorem siloWarn_keeps (j : Nat) (code : Nat) (ch : Nat) (lu : Nat) (irq : Fld) (h : Keeps ps s u) (hregs : Part.regs ∈ ps) (hcoal : Part.coal ∈ ps) :
    Keeps ps s (siloWarn j code ch lu irq u) := by
  unfold siloWarn
  repeat' first
    | with_reducible assumption
    | with_reducible apply State.raise_keeps
    | with_reducible apply State.report_keeps
    | with_reducible apply siloLast_keeps

theorem setFblk_keeps (c : Nat) (b : Nat) (v : FlashBlk) (h : Keeps ps s u) (hsilo : Part.silo ∈ ps) :
    Keeps ps s (setFblk c b v u) := by
  unfold setFblk
  repeat' first
    | with_reducible assumption
    | (conv => (arg 3; arg 29)
       refine Keeps.mk' ?_ rfl rfl rfl rfl rfl rfl rfl
        (fun q hn => by cases q <;> first | exact rfl | exact ⟨rfl, rfl⟩ | exact absurd (by assumption) hn))

theorem showSpare_keeps (c : Nat) (h : Keeps ps s u) (hregs : Part.regs ∈ ps) (hcoal : Part.coal ∈ ps) :
    Keeps ps s (showSpare c u) := by
  unfold showSpare
  repeat' first
    | with_reducible assumption
    | with_reducible apply State.set_keeps
    | with_reducible apply siloWarn_keeps
    | with_reducible apply Keeps.ite

theorem failChannel_keeps (c : Nat) (h : Keeps ps s u) (hregs : Part.regs ∈ ps) (hcoal : Part.coal ∈ ps) :
    Keeps ps s (failChannel c u) := by
  unfold failChannel
  repeat' first
    | with_reducible assumption
    | with_reducible apply State.set_keeps
    | with_reducible apply siloWarn_keeps
    | with_reducible apply Keeps.ite

theorem channelFail_keeps (c : Nat) (h : Keeps ps s u) (hregs : Part.regs ∈ ps) (hcoal : Part.coal ∈ ps) :
    Keeps ps s (channelFail c u) := by
  unfold channelFail
  repeat' first
    | with_reducible assumption
    | with_reducible apply failChannel_keeps
    | with_reducible apply Keeps.ite

theorem retireBlk_keeps (c : Nat) (b : Nat) (h : Keeps ps s u) (hregs : Part.regs ∈ ps) (hcoal : Part.coal ∈ ps) (hsilo : Part.silo ∈ ps) :
    Keeps ps s (retireBlk c b u) := by
  unfold retireBlk
  repeat' first
    | with_reducible assumption
    | with_reducible apply State.count_keeps
    | with_reducible apply State.countSat_keeps
    | with_reducible apply setFblk_keeps
    | with_reducible apply showSpare_keeps
    | with_reducible apply siloWarn_keeps
    | split
    | dsimp only
    | (conv => (arg 3; arg 29)
       refine Keeps.mk' ?_ rfl rfl rfl rfl rfl rfl rfl
        (fun q hn => by cases q <;> first | exact rfl | exact ⟨rfl, rfl⟩ | exact absurd (by assumption) hn))

theorem freeExtent_keeps (lu : Nat) (len : Nat) (h : Keeps ps s u) (hsilo : Part.silo ∈ ps) :
    Keeps ps s (freeExtent lu len u) := by
  unfold freeExtent
  repeat' first
    | with_reducible assumption
    | dsimp only
    | (conv => (arg 3; arg 29)
       refine Keeps.mk' ?_ rfl rfl rfl rfl rfl rfl rfl
        (fun q hn => by cases q <;> first | exact rfl | exact ⟨rfl, rfl⟩ | exact absurd (by assumption) hn))

theorem openBand_keeps (h : Keeps ps s u) (hregs : Part.regs ∈ ps) (hcoal : Part.coal ∈ ps) (hsilo : Part.silo ∈ ps) :
    Keeps ps s (openBand u).2 := by
  unfold openBand
  repeat' first
    | with_reducible assumption
    | with_reducible intro _
    | with_reducible apply setFblk_keeps
    | with_reducible apply showSpare_keeps
    | with_reducible apply Keeps.foldl
    | split
    | dsimp only
    | (conv => (arg 3; arg 29)
       refine Keeps.mk' ?_ rfl rfl rfl rfl rfl rfl rfl
        (fun q hn => by cases q <;> first | exact rfl | exact ⟨rfl, rfl⟩ | exact absurd (by assumption) hn))

theorem getStripe_keeps (h : Keeps ps s u) (hregs : Part.regs ∈ ps) (hcoal : Part.coal ∈ ps) (hsilo : Part.silo ∈ ps) :
    Keeps ps s (getStripe u).2 := by
  unfold getStripe
  repeat' first
    | with_reducible assumption
    | with_reducible apply openBand_keeps
    | split

theorem closeStripe_keeps (h : Keeps ps s u) (hsilo : Part.silo ∈ ps) :
    Keeps ps s (closeStripe u) := by
  unfold closeStripe
  repeat' first
    | with_reducible assumption
    | split
    | (conv => (arg 3; arg 29)
       refine Keeps.mk' ?_ rfl rfl rfl rfl rfl rfl rfl
        (fun q hn => by cases q <;> first | exact rfl | exact ⟨rfl, rfl⟩ | exact absurd (by assumption) hn))

theorem placePage_keeps (h : Keeps ps s u) (hregs : Part.regs ∈ ps) (hcoal : Part.coal ∈ ps) (hsilo : Part.silo ∈ ps) :
    Keeps ps s (placePage u).2 := by
  unfold placePage
  repeat' first
    | with_reducible assumption
    | with_reducible apply closeStripe_keeps
    | with_reducible apply getStripe_keeps
    | split
    | dsimp only
    | (conv => (arg 3; arg 29)
       refine Keeps.mk' ?_ rfl rfl rfl rfl rfl rfl rfl
        (fun q hn => by cases q <;> first | exact rfl | exact ⟨rfl, rfl⟩ | exact absurd (by assumption) hn))

theorem mapPage_keeps (lp : Nat) (l : Nat) (bs : List Byte) (h : Keeps ps s u) (hsilo : Part.silo ∈ ps) :
    Keeps ps s (mapPage lp l bs u) := by
  unfold mapPage
  repeat' first
    | with_reducible assumption
    | (conv => (arg 3; arg 29)
       refine Keeps.mk' ?_ rfl rfl rfl rfl rfl rfl rfl
        (fun q hn => by cases q <;> first | exact rfl | exact ⟨rfl, rfl⟩ | exact absurd (by assumption) hn))

theorem storeUnit_keeps (lu : Nat) (bs : List Byte) (h : Keeps ps s u) (hregs : Part.regs ∈ ps) (hcoal : Part.coal ∈ ps) (hsilo : Part.silo ∈ ps) :
    Keeps ps s (storeUnit lu bs u) := by
  unfold storeUnit
  repeat' first
    | with_reducible assumption
    | with_reducible intro _
    | with_reducible apply mapPage_keeps
    | with_reducible apply placePage_keeps
    | with_reducible apply Keeps.foldl

theorem readPage_keeps (lp : Nat) (be : Bool) (r : PageRead) (h : Keeps ps s u) (hregs : Part.regs ∈ ps) (hsilo : Part.silo ∈ ps) :
    Keeps ps s (readPage lp be r u).2 := by
  unfold readPage
  repeat' first
    | with_reducible assumption
    | with_reducible apply State.count_keeps
    | with_reducible apply State.raise_keeps
    | with_reducible apply setFblk_keeps
    | with_reducible apply siloLast_keeps
    | split
    | dsimp only
    | (conv => (arg 3; arg 29)
       refine Keeps.mk' ?_ rfl rfl rfl rfl rfl rfl rfl
        (fun q hn => by cases q <;> first | exact rfl | exact ⟨rfl, rfl⟩ | exact absurd (by assumption) hn))

theorem movePages_keeps (lps : List Nat) (h : Keeps ps s u) (hregs : Part.regs ∈ ps) (hcoal : Part.coal ∈ ps) (hsilo : Part.silo ∈ ps) :
    Keeps ps s (movePages lps u) := by
  unfold movePages
  repeat' first
    | with_reducible assumption
    | with_reducible intro _
    | with_reducible apply closeStripe_keeps
    | with_reducible apply mapPage_keeps
    | with_reducible apply placePage_keeps
    | with_reducible apply Keeps.foldl

theorem readDisturb_keeps (band : Nat) (ch : Nat) (h : Keeps ps s u) (hregs : Part.regs ∈ ps) (hcoal : Part.coal ∈ ps) (hsilo : Part.silo ∈ ps) :
    Keeps ps s (readDisturb band ch u) := by
  unfold readDisturb
  repeat' first
    | with_reducible assumption
    | with_reducible apply movePages_keeps
    | with_reducible apply setFblk_keeps
    | split
    | dsimp only
    | (conv => (arg 3; arg 29)
       refine Keeps.mk' ?_ rfl rfl rfl rfl rfl rfl rfl
        (fun q hn => by cases q <;> first | exact rfl | exact ⟨rfl, rfl⟩ | exact absurd (by assumption) hn))

theorem wearLevel_keeps (band : Nat) (ch : Nat) (h : Keeps ps s u) (hregs : Part.regs ∈ ps) (hcoal : Part.coal ∈ ps) (hsilo : Part.silo ∈ ps) :
    Keeps ps s (wearLevel band ch u) := by
  unfold wearLevel
  repeat' first
    | with_reducible assumption
    | with_reducible apply movePages_keeps
    | with_reducible apply Keeps.ite

theorem blockErase_keeps (band : Nat) (ch : Nat) (ok : Bool) (h : Keeps ps s u) (hregs : Part.regs ∈ ps) (hcoal : Part.coal ∈ ps) (hsilo : Part.silo ∈ ps) :
    Keeps ps s (blockErase band ch ok u) := by
  unfold blockErase
  repeat' first
    | with_reducible assumption
    | with_reducible apply State.set_keeps
    | with_reducible apply retireBlk_keeps
    | with_reducible apply setFblk_keeps
    | with_reducible apply showSpare_keeps
    | split
    | dsimp only
    | (conv => (arg 3; arg 29)
       refine Keeps.mk' ?_ rfl rfl rfl rfl rfl rfl rfl
        (fun q hn => by cases q <;> first | exact rfl | exact ⟨rfl, rfl⟩ | exact absurd (by assumption) hn))

theorem siloProbe_keeps (ps0 : List ChanProbe) (h : Keeps ps s u) (hregs : Part.regs ∈ ps) (hcoal : Part.coal ∈ ps) (hsilo : Part.silo ∈ ps) :
    Keeps ps s (siloProbe ps0 u) := by
  unfold siloProbe
  repeat' first
    | with_reducible assumption
    | with_reducible intro _
    | with_reducible apply State.set_keeps
    | with_reducible apply failChannel_keeps
    | with_reducible apply siloLast_keeps
    | with_reducible apply Keeps.foldl
    | split
    | dsimp only
    | (conv => (arg 3; arg 29)
       refine Keeps.mk' ?_ rfl rfl rfl rfl rfl rfl rfl
        (fun q hn => by cases q <;> first | exact rfl | exact ⟨rfl, rfl⟩ | exact absurd (by assumption) hn))

end Sys2Proof.Machine
end

