-- ==== Sys2Proof/Laws/KeepsTier.lean ====
section
/-!
SUPPORT. What each operation of Machine/Tier.lean keeps (Laws/Keeps.lean), and the parts of State it may change.
-/
namespace Sys2Proof.Machine

set_option linter.unreachableTactic false
set_option linter.unusedTactic false
set_option linter.tactic.unusedName false

variable {ps : List Part} {s u : State}

theorem tierTailWrite_keeps (k : Nat) (n : Nat) (v : Word) (h : Keeps ps s u) (hregs : Part.regs ∈ ps) :
    Keeps ps s (tierTailWrite k n v u) := by
  unfold tierTailWrite
  repeat' first
    | with_reducible assumption
    | with_reducible apply tailWrite_keeps

theorem putBlk_keeps (cons : Nat) (i : Nat) (b : Blk) (h : Keeps ps s u) (hregs : Part.regs ∈ ps) (hmem : Part.mem ∈ ps) (hpoison : Part.poison ∈ ps) (hhbms : Part.hbms ∈ ps) :
    Keeps ps s (putBlk cons i b u) := by
  unfold putBlk
  repeat' first
    | with_reducible assumption
    | with_reducible intro _
    | with_reducible apply memWrite_keeps
    | split
    | dsimp only

theorem btRead_keeps (cons : Nat) (i : Nat) (h : Keeps ps s u) (hregs : Part.regs ∈ ps) (hpoison : Part.poison ∈ ps) (hhbms : Part.hbms ∈ ps) :
    Keeps ps s (btRead cons i u) := by
  unfold btRead
  repeat' first
    | with_reducible assumption
    | with_reducible intro _
    | with_reducible apply hbmFind_keeps
    | with_reducible apply noteRead_keeps
    | split
    | dsimp only

theorem setFrames_keeps (i : Nat) (b : Blk) (st : Nat) (h : Keeps ps s u) (hregs : Part.regs ∈ ps) :
    Keeps ps s (setFrames i b st u) := by
  unfold setFrames
  repeat' first
    | with_reducible assumption
    | with_reducible intro _
    | with_reducible apply State.set_keeps
    | with_reducible apply Keeps.foldl
    | split

theorem zeroRange_keeps (a : Nat) (n : Nat) (h : Keeps ps s u) (hregs : Part.regs ∈ ps) (hmem : Part.mem ∈ ps) (hpoison : Part.poison ∈ ps) (hhbms : Part.hbms ∈ ps) :
    Keeps ps s (zeroRange a n u) := by
  unfold zeroRange
  repeat' first
    | with_reducible assumption
    | with_reducible intro _
    | with_reducible apply Keeps.fillRange
    | with_reducible apply cleanWord_keeps
    | with_reducible apply dropFlips_keeps
    | with_reducible apply Keeps.foldl
    | with_reducible apply Keeps.foldlP
    | split
    | dsimp only

theorem zeroFrames_keeps (b : Blk) (h : Keeps ps s u) (hregs : Part.regs ∈ ps) (hmem : Part.mem ∈ ps) (hpoison : Part.poison ∈ ps) (hhbms : Part.hbms ∈ ps) :
    Keeps ps s (zeroFrames b u) := by
  unfold zeroFrames
  repeat' first
    | with_reducible assumption
    | with_reducible apply zeroRange_keeps

theorem setDirty_keeps (b : Blk) (u0 : Nat) (on : Bool) (h : Keeps ps s u) (hregs : Part.regs ∈ ps) :
    Keeps ps s (setDirty b u0 on u) := by
  unfold setDirty
  repeat' first
    | with_reducible assumption
    | with_reducible apply State.set_keeps
    | with_reducible apply Keeps.ite

theorem chargeFrames_keeps (k : Nat) (b : Blk) (h : Keeps ps s u) (hregs : Part.regs ∈ ps) :
    Keeps ps s (chargeFrames k b u) := by
  unfold chargeFrames
  repeat' first
    | with_reducible assumption
    | with_reducible apply State.count_keeps
    | split

theorem creditFrames_keeps (k : Nat) (b : Blk) (h : Keeps ps s u) (hregs : Part.regs ∈ ps) :
    Keeps ps s (creditFrames k b u) := by
  unfold creditFrames
  repeat' first
    | with_reducible assumption
    | with_reducible apply State.set_keeps
    | split

theorem takeBudget_keeps (tn : Nat) (h : Keeps ps s u) (hregs : Part.regs ∈ ps) : KeepsO ps s (takeBudget tn u) := by
  unfold takeBudget
  exact KeepsO.ite (KeepsO.some h) (KeepsO.ite KeepsO.none (KeepsO.some (State.set_keeps _ _ h hregs)))

theorem tierShow_keeps (k : Nat) (h : Keeps ps s u) (hregs : Part.regs ∈ ps) :
    Keeps ps s (tierShow k u) := by
  unfold tierShow
  repeat' first
    | with_reducible assumption
    | with_reducible apply State.set_keeps

theorem putTier_keeps (c : TierCmd) (h : Keeps ps s u) (hregs : Part.regs ∈ ps) (htiers : Part.tiers ∈ ps) :
    Keeps ps s (putTier c u) := by
  unfold putTier
  repeat' first
    | with_reducible assumption
    | with_reducible apply tierShow_keeps
    | (conv => (arg 3; arg 29)
       refine Keeps.mk' ?_ rfl rfl rfl rfl rfl rfl rfl
        (fun q hn => by cases q <;> first | exact rfl | exact ⟨rfl, rfl⟩ | exact absurd (by assumption) hn))

theorem tierTell_keeps (c : TierCmd) (status : Nat) (cause : Nat) (h : Keeps ps s u) (hregs : Part.regs ∈ ps) (hmem : Part.mem ∈ ps) (hpoison : Part.poison ∈ ps) (hcores : Part.cores ∈ ps) (hcoal : Part.coal ∈ ps) (hhbms : Part.hbms ∈ ps) :
    Keeps ps s (tierTell c status cause u) := by
  unfold tierTell
  repeat' first
    | with_reducible assumption
    | with_reducible intro _
    | with_reducible apply State.raise_keeps
    | with_reducible apply State.set_keeps
    | with_reducible apply DoneF.run_keeps
    | with_reducible apply writeWords_keeps
    | with_reducible apply Keeps.ite
    | split
    | dsimp only

theorem tierEnd_keeps (c : TierCmd) (status : Nat) (cause : Nat) (h : Keeps ps s u) (hregs : Part.regs ∈ ps) (hmem : Part.mem ∈ ps) (hpoison : Part.poison ∈ ps) (hcores : Part.cores ∈ ps) (hcoal : Part.coal ∈ ps) (htiers : Part.tiers ∈ ps) (hhbms : Part.hbms ∈ ps) :
    Keeps ps s (tierEnd c status cause u) := by
  unfold tierEnd
  repeat' first
    | with_reducible assumption
    | with_reducible apply State.set_keeps
    | with_reducible apply Keeps.setWord
    | with_reducible apply ringAdvance_keeps
    | with_reducible apply tierShow_keeps
    | with_reducible apply tierTell_keeps
    | split
    | (conv => (arg 3; arg 29)
       refine Keeps.mk' ?_ rfl rfl rfl rfl rfl rfl rfl
        (fun q hn => by cases q <;> first | exact rfl | exact ⟨rfl, rfl⟩ | exact absurd (by assumption) hn))

theorem tierRefuse_keeps (c : TierCmd) (b : Blk) (status : Nat) (cause : Nat) (h : Keeps ps s u) (hregs : Part.regs ∈ ps) (hmem : Part.mem ∈ ps) (hpoison : Part.poison ∈ ps) (hcores : Part.cores ∈ ps) (hcoal : Part.coal ∈ ps) (htiers : Part.tiers ∈ ps) (hhbms : Part.hbms ∈ ps) :
    Keeps ps s (tierRefuse c b status cause u) := by
  unfold tierRefuse
  repeat' first
    | with_reducible assumption
    | with_reducible intro _
    | with_reducible apply putBlk_keeps
    | with_reducible apply tierEnd_keeps
    | split
    | dsimp only

theorem tierBegin_keeps (c : TierCmd) (b : Blk) (h : Keeps ps s u) (hregs : Part.regs ∈ ps) (hmem : Part.mem ∈ ps) (hpoison : Part.poison ∈ ps) (htiers : Part.tiers ∈ ps) (hhbms : Part.hbms ∈ ps) :
    Keeps ps s (tierBegin c b u) := by
  unfold tierBegin
  repeat' first
    | with_reducible assumption
    | with_reducible intro _
    | with_reducible apply Keeps.setWord
    | with_reducible apply putBlk_keeps
    | with_reducible apply tierShow_keeps
    | split
    | dsimp only
    | (conv => (arg 3; arg 29)
       refine Keeps.mk' ?_ rfl rfl rfl rfl rfl rfl rfl
        (fun q hn => by cases q <;> first | exact rfl | exact ⟨rfl, rfl⟩ | exact absurd (by assumption) hn))

theorem tierAlloc_keeps (c : TierCmd) (h : Keeps ps s u) (hregs : Part.regs ∈ ps) (hmem : Part.mem ∈ ps) (hpoison : Part.poison ∈ ps) (hcores : Part.cores ∈ ps) (hcoal : Part.coal ∈ ps) (htiers : Part.tiers ∈ ps) (hsilo : Part.silo ∈ ps) (hhbms : Part.hbms ∈ ps) :
    Keeps ps s (tierAlloc c u) := by
  unfold tierAlloc
  repeat' first
    | with_reducible assumption
    | with_reducible intro _
    | with_reducible apply State.count_keeps
    | with_reducible apply btRead_keeps
    | with_reducible apply chargeFrames_keeps
    | with_reducible apply putBlk_keeps
    | with_reducible apply setFrames_keeps
    | with_reducible apply siloLast_keeps
    | with_reducible apply tierEnd_keeps
    | with_reducible apply zeroFrames_keeps
    | with_reducible apply Keeps.ite
    | split
    | dsimp only
    | (conv => (arg 3; arg 29)
       refine Keeps.mk' ?_ rfl rfl rfl rfl rfl rfl rfl
        (fun q hn => by cases q <;> first | exact rfl | exact ⟨rfl, rfl⟩ | exact absurd (by assumption) hn))

theorem releaseBlk_keeps (cons : Nat) (k : Nat) (i : Nat) (b : Blk) (keep : Bool) (h : Keeps ps s u) (hregs : Part.regs ∈ ps) (hmem : Part.mem ∈ ps) (hpoison : Part.poison ∈ ps) (hsilo : Part.silo ∈ ps) (hhbms : Part.hbms ∈ ps) :
    Keeps ps s (releaseBlk cons k i b keep u) := by
  unfold releaseBlk
  repeat' first
    | with_reducible assumption
    | with_reducible intro _
    | with_reducible apply State.set_keeps
    | with_reducible apply creditFrames_keeps
    | with_reducible apply freeExtent_keeps
    | with_reducible apply putBlk_keeps
    | with_reducible apply setFrames_keeps
    | with_reducible apply Keeps.ite
    | split
    | dsimp only

theorem tierDrain_keeps (c : TierCmd) (b : Blk) (h : Keeps ps s u) (hregs : Part.regs ∈ ps) (hmem : Part.mem ∈ ps) (hpoison : Part.poison ∈ ps) (htiers : Part.tiers ∈ ps) (hhbms : Part.hbms ∈ ps) :
    Keeps ps s (tierDrain c b u) := by
  unfold tierDrain
  repeat' first
    | with_reducible assumption
    | with_reducible intro _
    | with_reducible apply setFrames_keeps
    | with_reducible apply tierBegin_keeps
    | split
    | dsimp only

theorem tierFree_keeps (c : TierCmd) (b : Blk) (h : Keeps ps s u) (hregs : Part.regs ∈ ps) (hmem : Part.mem ∈ ps) (hpoison : Part.poison ∈ ps) (hcores : Part.cores ∈ ps) (hcoal : Part.coal ∈ ps) (htiers : Part.tiers ∈ ps) (hsilo : Part.silo ∈ ps) (hhbms : Part.hbms ∈ ps) :
    Keeps ps s (tierFree c b u) := by
  unfold tierFree
  repeat' first
    | with_reducible assumption
    | with_reducible intro _
    | with_reducible apply releaseBlk_keeps
    | with_reducible apply tierDrain_keeps
    | with_reducible apply tierEnd_keeps
    | with_reducible apply tierRefuse_keeps
    | with_reducible apply Keeps.ite
    | split
    | dsimp only
    | refine Keeps.of_eq2 (by assumption) ?_

theorem tierPin_keeps (up : Bool) (c : TierCmd) (b : Blk) (h : Keeps ps s u) (hregs : Part.regs ∈ ps) (hmem : Part.mem ∈ ps) (hpoison : Part.poison ∈ ps) (hcores : Part.cores ∈ ps) (hcoal : Part.coal ∈ ps) (htiers : Part.tiers ∈ ps) (hhbms : Part.hbms ∈ ps) :
    Keeps ps s (tierPin up c b u) := by
  unfold tierPin
  repeat' first
    | with_reducible assumption
    | with_reducible intro _
    | with_reducible apply putBlk_keeps
    | with_reducible apply tierEnd_keeps
    | with_reducible apply Keeps.ite
    | split
    | dsimp only
    | refine Keeps.of_eq2 (by assumption) ?_

theorem fetchDone_keeps (c : TierCmd) (h : Keeps ps s u) (hregs : Part.regs ∈ ps) (hmem : Part.mem ∈ ps) (hpoison : Part.poison ∈ ps) (hcores : Part.cores ∈ ps) (hcoal : Part.coal ∈ ps) (htiers : Part.tiers ∈ ps) (hhbms : Part.hbms ∈ ps) :
    Keeps ps s (fetchDone c u) := by
  unfold fetchDone
  repeat' first
    | with_reducible assumption
    | with_reducible intro _
    | with_reducible apply State.set_keeps
    | with_reducible apply putBlk_keeps
    | with_reducible apply setFrames_keeps
    | with_reducible apply tierEnd_keeps
    | with_reducible apply Keeps.foldl
    | with_reducible apply Keeps.foldlP
    | split
    | dsimp only

theorem fetchFail_keeps (c : TierCmd) (status : Nat) (cause : Nat) (h : Keeps ps s u) (hregs : Part.regs ∈ ps) (hmem : Part.mem ∈ ps) (hpoison : Part.poison ∈ ps) (hcores : Part.cores ∈ ps) (hcoal : Part.coal ∈ ps) (htiers : Part.tiers ∈ ps) (hhbms : Part.hbms ∈ ps) :
    Keeps ps s (fetchFail c status cause u) := by
  unfold fetchFail
  repeat' first
    | with_reducible assumption
    | with_reducible intro _
    | with_reducible apply creditFrames_keeps
    | with_reducible apply putBlk_keeps
    | with_reducible apply setFrames_keeps
    | with_reducible apply tierEnd_keeps
    | split
    | dsimp only

theorem fetchEnd_keeps (c : TierCmd) (h : Keeps ps s u) (hregs : Part.regs ∈ ps) (hmem : Part.mem ∈ ps) (hpoison : Part.poison ∈ ps) (hcores : Part.cores ∈ ps) (hcoal : Part.coal ∈ ps) (htiers : Part.tiers ∈ ps) (hhbms : Part.hbms ∈ ps) :
    Keeps ps s (fetchEnd c u) := by
  unfold fetchEnd
  repeat' first
    | with_reducible assumption
    | with_reducible intro _
    | with_reducible apply fetchDone_keeps
    | with_reducible apply fetchFail_keeps
    | with_reducible apply Keeps.ite
    | split
    | dsimp only

theorem tierFetch_keeps (c : TierCmd) (b : Blk) (h : Keeps ps s u) (hregs : Part.regs ∈ ps) (hmem : Part.mem ∈ ps) (hpoison : Part.poison ∈ ps) (hcores : Part.cores ∈ ps) (hcoal : Part.coal ∈ ps) (htiers : Part.tiers ∈ ps) (hhbms : Part.hbms ∈ ps) :
    Keeps ps s (tierFetch c b u) := by
  unfold tierFetch
  repeat' first
    | with_reducible assumption
    | with_reducible intro _
    | with_reducible apply chargeFrames_keeps
    | with_reducible apply fetchDone_keeps
    | with_reducible apply setFrames_keeps
    | with_reducible apply tierBegin_keeps
    | with_reducible apply tierEnd_keeps
    | with_reducible apply tierRefuse_keeps
    | with_reducible apply zeroFrames_keeps
    | with_reducible apply Keeps.ite
    | split
    | dsimp only

theorem writeDone_keeps (c : TierCmd) (h : Keeps ps s u) (hregs : Part.regs ∈ ps) (hmem : Part.mem ∈ ps) (hpoison : Part.poison ∈ ps) (hcores : Part.cores ∈ ps) (hcoal : Part.coal ∈ ps) (htiers : Part.tiers ∈ ps) (hhbms : Part.hbms ∈ ps) :
    Keeps ps s (writeDone c u) := by
  unfold writeDone
  repeat' first
    | with_reducible assumption
    | with_reducible intro _
    | with_reducible apply State.count_keeps
    | with_reducible apply creditFrames_keeps
    | with_reducible apply putBlk_keeps
    | with_reducible apply setFrames_keeps
    | with_reducible apply tierEnd_keeps
    | with_reducible apply Keeps.ite
    | split
    | dsimp only

theorem reportUnit_keeps (c : TierCmd) (b : Blk) (u0 : Nat) (bs : List Byte) (h : Keeps ps s u) (hregs : Part.regs ∈ ps) (hsilo : Part.silo ∈ ps) :
    Keeps ps s (reportUnit c b u0 bs u).2 := by
  unfold reportUnit
  repeat' first
    | with_reducible assumption
    | with_reducible intro _
    | with_reducible apply State.count_keeps
    | with_reducible apply mapPage_keeps
    | with_reducible apply Keeps.foldl

theorem writeFail_keeps (c : TierCmd) (status : Nat) (cause : Nat) (h : Keeps ps s u) (hregs : Part.regs ∈ ps) (hmem : Part.mem ∈ ps) (hpoison : Part.poison ∈ ps) (hcores : Part.cores ∈ ps) (hcoal : Part.coal ∈ ps) (htiers : Part.tiers ∈ ps) (hsilo : Part.silo ∈ ps) (hhbms : Part.hbms ∈ ps) :
    Keeps ps s (writeFail c status cause u) := by
  unfold writeFail
  repeat' first
    | with_reducible assumption
    | with_reducible intro _
    | with_reducible apply closeStripe_keeps
    | with_reducible apply putBlk_keeps
    | with_reducible apply reportUnit_keeps
    | with_reducible apply setDirty_keeps
    | with_reducible apply setFrames_keeps
    | with_reducible apply tierEnd_keeps
    | with_reducible apply Keeps.foldl
    | with_reducible apply Keeps.foldlP
    | with_reducible apply Keeps.ite
    | split
    | dsimp only

theorem tierWriteback_keeps (c : TierCmd) (b : Blk) (h : Keeps ps s u) (hregs : Part.regs ∈ ps) (hmem : Part.mem ∈ ps) (hpoison : Part.poison ∈ ps) (hcores : Part.cores ∈ ps) (hcoal : Part.coal ∈ ps) (htiers : Part.tiers ∈ ps) (hhbms : Part.hbms ∈ ps) :
    Keeps ps s (tierWriteback c b u) := by
  unfold tierWriteback
  repeat' first
    | with_reducible assumption
    | with_reducible apply tierBegin_keeps
    | with_reducible apply tierEnd_keeps
    | with_reducible apply tierRefuse_keeps
    | with_reducible apply writeDone_keeps
    | with_reducible apply Keeps.ite
    | split

theorem tierEvict_keeps (c : TierCmd) (b : Blk) (h : Keeps ps s u) (hregs : Part.regs ∈ ps) (hmem : Part.mem ∈ ps) (hpoison : Part.poison ∈ ps) (hcores : Part.cores ∈ ps) (hcoal : Part.coal ∈ ps) (htiers : Part.tiers ∈ ps) (hhbms : Part.hbms ∈ ps) :
    Keeps ps s (tierEvict c b u) := by
  unfold tierEvict
  repeat' first
    | with_reducible assumption
    | with_reducible intro _
    | with_reducible apply tierDrain_keeps
    | with_reducible apply tierEnd_keeps
    | with_reducible apply tierRefuse_keeps
    | with_reducible apply Keeps.ite
    | split
    | dsimp only

theorem evictDrainDone_keeps (k : Nat) (n : Nat) (stall : Nat) (h : Keeps ps s u) (hregs : Part.regs ∈ ps) (hmem : Part.mem ∈ ps) (hpoison : Part.poison ∈ ps) (hcores : Part.cores ∈ ps) (hcoal : Part.coal ∈ ps) (htiers : Part.tiers ∈ ps) (hsilo : Part.silo ∈ ps) (hhbms : Part.hbms ∈ ps) :
    Keeps ps s (evictDrainDone k n stall u) := by
  unfold evictDrainDone
  repeat' first
    | with_reducible assumption
    | with_reducible intro _
    | with_reducible apply putTier_keeps
    | with_reducible apply releaseBlk_keeps
    | with_reducible apply tierEnd_keeps
    | with_reducible apply writeDone_keeps
    | with_reducible apply writeFail_keeps
    | with_reducible apply Keeps.ite
    | split
    | dsimp only

theorem tierRun_keeps (k : Nat) (n : Nat) (d : List Nat) (h : Keeps ps s u) (hregs : Part.regs ∈ ps) (hmem : Part.mem ∈ ps) (hpoison : Part.poison ∈ ps) (hcores : Part.cores ∈ ps) (hcoal : Part.coal ∈ ps) (htiers : Part.tiers ∈ ps) (hsilo : Part.silo ∈ ps) (hhbms : Part.hbms ∈ ps) :
    Keeps ps s (tierRun k n d u) := by
  unfold tierRun
  repeat' first
    | with_reducible assumption
    | with_reducible intro _
    | with_reducible apply btRead_keeps
    | with_reducible apply tierAlloc_keeps
    | with_reducible apply tierEnd_keeps
    | with_reducible apply tierEvict_keeps
    | with_reducible apply tierFetch_keeps
    | with_reducible apply tierFree_keeps
    | with_reducible apply tierPin_keeps
    | with_reducible apply tierWriteback_keeps
    | with_reducible apply Keeps.ite
    | split
    | dsimp only

theorem tierUnreadNote_keeps (k : Nat) (n : Nat) (i : Nat) (h : Keeps ps s u) (hregs : Part.regs ∈ ps) :
    Keeps ps s (tierUnreadNote k n i u) := by
  unfold tierUnreadNote
  repeat' first
    | with_reducible assumption
    | with_reducible intro _
    | with_reducible apply State.raise_keeps
    | with_reducible apply State.set_keeps
    | split
    | dsimp only

theorem tierUnread_keeps (k : Nat) (n : Nat) (h : Keeps ps s u) (hregs : Part.regs ∈ ps) :
    Keeps ps s (tierUnread k n u) := by
  unfold tierUnread
  repeat' first
    | with_reducible assumption
    | with_reducible intro _
    | with_reducible apply ringAdvance_keeps
    | with_reducible apply tierUnreadNote_keeps
    | split
    | dsimp only

theorem tierStart_keeps (op : Nat) (k : Nat) (n : Nat) (h : Keeps ps s u) (hregs : Part.regs ∈ ps) (hmem : Part.mem ∈ ps) (hpoison : Part.poison ∈ ps) (hcores : Part.cores ∈ ps) (hcoal : Part.coal ∈ ps) (htiers : Part.tiers ∈ ps) (hsilo : Part.silo ∈ ps) (hhbms : Part.hbms ∈ ps) :
    Keeps ps s (tierStart op k n u) := by
  unfold tierStart
  repeat' first
    | with_reducible assumption
    | with_reducible apply readDescr_keeps
    | with_reducible apply tierRun_keeps
    | with_reducible apply tierUnread_keeps
    | with_reducible apply Keeps.ite
    | split
    | refine Keeps.of_eq2 (by assumption) ?_

theorem tierFlushFrom_keeps (k : Nat) (n : Nat) (x2 : Nat) (x3 : Nat) (h : Keeps ps s u) (hregs : Part.regs ∈ ps) (hmem : Part.mem ∈ ps) (hpoison : Part.poison ∈ ps) (hcores : Part.cores ∈ ps) (hcoal : Part.coal ∈ ps) (hhbms : Part.hbms ∈ ps) :
    Keeps ps s (tierFlushFrom k n x2 x3 u) := by
  induction x2 generalizing u x3 <;> unfold tierFlushFrom
  all_goals repeat' first
    | (with_reducible apply_assumption)
    | with_reducible intro _
    | with_reducible apply readDescr_keeps
    | with_reducible apply tierTell_keeps
    | with_reducible apply tierUnreadNote_keeps
    | with_reducible apply Keeps.ite
    | split
    | dsimp only
    | refine Keeps.of_eq2 (by assumption) ?_

theorem tierFlush_keeps (k : Nat) (n : Nat) (h : Keeps ps s u) (hregs : Part.regs ∈ ps) (hmem : Part.mem ∈ ps) (hpoison : Part.poison ∈ ps) (hcores : Part.cores ∈ ps) (hcoal : Part.coal ∈ ps) (htiers : Part.tiers ∈ ps) (hhbms : Part.hbms ∈ ps) :
    Keeps ps s (tierFlush k n u) := by
  unfold tierFlush
  repeat' first
    | with_reducible assumption
    | with_reducible intro _
    | with_reducible apply State.set_keeps
    | with_reducible apply putTier_keeps
    | with_reducible apply tierFlushFrom_keeps
    | with_reducible apply Keeps.ite
    | split
    | dsimp only

theorem slotGrant_keeps (h : Keeps ps s u) (hregs : Part.regs ∈ ps) (htiers : Part.tiers ∈ ps) (hsilo : Part.silo ∈ ps) :
    Keeps ps s (slotGrant u) := by
  unfold slotGrant
  repeat' first
    | with_reducible assumption
    | with_reducible intro _
    | with_reducible apply State.set_keeps
    | with_reducible apply putTier_keeps
    | with_reducible apply Keeps.ite
    | split
    | dsimp only
    | (conv => (arg 3; arg 29)
       refine Keeps.mk' ?_ rfl rfl rfl rfl rfl rfl rfl
        (fun q hn => by cases q <;> first | exact rfl | exact ⟨rfl, rfl⟩ | exact absurd (by assumption) hn))

theorem siloLcLate_keeps (k : Nat) (n : Nat) (h : Keeps ps s u) (hregs : Part.regs ∈ ps) (hcoal : Part.coal ∈ ps) :
    Keeps ps s (siloLcLate k n u) := by
  unfold siloLcLate
  repeat' first
    | with_reducible assumption
    | with_reducible apply siloWarn_keeps
    | split

theorem noteTurn_keeps (c : TierCmd) (h : Keeps ps s u) (hsilo : Part.silo ∈ ps) :
    Keeps ps s (noteTurn c u) := by
  unfold noteTurn
  repeat' first
    | with_reducible assumption
    | with_reducible intro _
    | split
    | dsimp only
    | (conv => (arg 3; arg 29)
       refine Keeps.mk' ?_ rfl rfl rfl rfl rfl rfl rfl
        (fun q hn => by cases q <;> first | exact rfl | exact ⟨rfl, rfl⟩ | exact absurd (by assumption) hn))

theorem secTagEvent_keeps (handle : Nat) (h : Keeps ps s u) (hregs : Part.regs ∈ ps) :
    Keeps ps s (secTagEvent handle u) := by
  unfold secTagEvent
  repeat' first
    | with_reducible assumption
    | with_reducible apply State.bbWrite_keeps
    | with_reducible apply State.countSat_keeps
    | with_reducible apply State.raise_keeps
    | with_reducible apply State.set_keeps

theorem landUnit_keeps (cons : Nat) (b : Blk) (u0 : Nat) (bs : List Byte) (h : Keeps ps s u) (hregs : Part.regs ∈ ps) (hmem : Part.mem ∈ ps) (hpoison : Part.poison ∈ ps) (hhbms : Part.hbms ∈ ps) :
    Keeps ps s (landUnit cons b u0 bs u) := by
  unfold landUnit
  repeat' first
    | with_reducible assumption
    | with_reducible intro _
    | with_reducible apply noteWrite_keeps
    | with_reducible apply storeBytes_keeps
    | split
    | dsimp only

theorem landShard_keeps (cons : Nat) (b : Blk) (us : List Nat) (plain : List Byte) (h : Keeps ps s u) (hregs : Part.regs ∈ ps) (hmem : Part.mem ∈ ps) (hpoison : Part.poison ∈ ps) (hhbms : Part.hbms ∈ ps) :
    Keeps ps s (landShard cons b us plain u) := by
  unfold landShard
  repeat' first
    | with_reducible assumption
    | with_reducible intro _
    | with_reducible apply landUnit_keeps
    | with_reducible apply Keeps.foldl

theorem tagRead_keeps (cons : Nat) (ta : Nat) (h : Keeps ps s u) (hregs : Part.regs ∈ ps) (hpoison : Part.poison ∈ ps) (hhbms : Part.hbms ∈ ps) :
    Keeps ps s (tagRead cons ta u).2 := by
  unfold tagRead
  repeat' first
    | with_reducible assumption
    | with_reducible intro _
    | with_reducible apply hbmFind_keeps
    | with_reducible apply noteRead_keeps
    | with_reducible apply Keeps.ite2
    | with_reducible apply Keeps.ite
    | split
    | dsimp only

theorem fetchOn_keeps (c : TierCmd) (h : Keeps ps s u) (hregs : Part.regs ∈ ps) (hmem : Part.mem ∈ ps) (hpoison : Part.poison ∈ ps) (hcores : Part.cores ∈ ps) (hcoal : Part.coal ∈ ps) (htiers : Part.tiers ∈ ps) (hhbms : Part.hbms ∈ ps) :
    Keeps ps s (fetchOn c u) := by
  unfold fetchOn
  repeat' first
    | with_reducible assumption
    | with_reducible intro _
    | with_reducible apply fetchEnd_keeps
    | with_reducible apply putTier_keeps
    | with_reducible apply Keeps.ite
    | split
    | dsimp only

theorem shardRead_keeps (c : TierCmd) (b : Blk) (u0 : Nat) (h : Keeps ps s u) (hregs : Part.regs ∈ ps) (hmem : Part.mem ∈ ps) (hpoison : Part.poison ∈ ps) (hcores : Part.cores ∈ ps) (hcoal : Part.coal ∈ ps) (htiers : Part.tiers ∈ ps) (hhbms : Part.hbms ∈ ps) :
    Keeps ps s (shardRead c b u0 u) := by
  unfold shardRead
  repeat' first
    | with_reducible assumption
    | with_reducible intro _
    | with_reducible apply fetchFail_keeps
    | with_reducible apply fetchOn_keeps
    | with_reducible apply landShard_keeps
    | with_reducible apply putTier_keeps
    | with_reducible apply secTagEvent_keeps
    | with_reducible apply tagRead_keeps
    | with_reducible apply Keeps.ite
    | split
    | dsimp only

theorem unitRead2_keeps (c : TierCmd) (b : Blk) (u0 : Nat) (h : Keeps ps s u) (hregs : Part.regs ∈ ps) (hmem : Part.mem ∈ ps) (hpoison : Part.poison ∈ ps) (hcores : Part.cores ∈ ps) (hcoal : Part.coal ∈ ps) (htiers : Part.tiers ∈ ps) (hsilo : Part.silo ∈ ps) (hhbms : Part.hbms ∈ ps) :
    Keeps ps s (unitRead2 c b u0 u) := by
  unfold unitRead2
  repeat' first
    | with_reducible assumption
    | with_reducible intro _
    | with_reducible apply State.count_keeps
    | with_reducible apply fetchFail_keeps
    | with_reducible apply fetchOn_keeps
    | with_reducible apply landUnit_keeps
    | with_reducible apply noteTurn_keeps
    | with_reducible apply putTier_keeps
    | with_reducible apply shardRead_keeps
    | with_reducible apply Keeps.ite
    | split
    | dsimp only

theorem tierPageRead_keeps (k : Nat) (n : Nat) (r : PageRead) (rc : Nat) (stall : Nat) (h : Keeps ps s u) (hregs : Part.regs ∈ ps) (hmem : Part.mem ∈ ps) (hpoison : Part.poison ∈ ps) (hcores : Part.cores ∈ ps) (hcoal : Part.coal ∈ ps) (htiers : Part.tiers ∈ ps) (hsilo : Part.silo ∈ ps) (hhbms : Part.hbms ∈ ps) :
    Keeps ps s (tierPageRead k n r rc stall u) := by
  unfold tierPageRead
  repeat' first
    | with_reducible assumption
    | with_reducible apply fetchFail_keeps
    | with_reducible apply putTier_keeps
    | with_reducible apply readPage_keeps
    | with_reducible apply takeBudget_keeps
    | with_reducible apply unitRead2_keeps
    | with_reducible apply Keeps.ite
    | with_reducible apply KeepsO.ite
    | with_reducible apply KeepsO.some
    | split
    | refine Keeps.of_some (by assumption) ?_

theorem takeUnit_keeps (c : TierCmd) (b : Blk) (i : Nat) (h : Keeps ps s u) (hregs : Part.regs ∈ ps) (hpoison : Part.poison ∈ ps) (hhbms : Part.hbms ∈ ps) :
    KeepsO2 ps s (takeUnit c b i u) := by
  unfold takeUnit
  exact KeepsO2.ite KeepsO2.none (KeepsO2.some (setDirty_keeps _ _ _
    (noteRead_keeps _ _ _ (hbmFind_keeps _ _ h hregs hpoison hhbms) hregs hhbms) hregs))

theorem takePage_keeps {c : TierCmd} {b : Blk} {i : Nat} {bs : List Byte} {t : State}
    (e : takePage c b i u = some (some (bs, t))) (h : Keeps ps s u) (hregs : Part.regs ∈ ps) (hpoison : Part.poison ∈ ps) (hhbms : Part.hbms ∈ ps) : Keeps ps s t := by
  unfold takePage at e
  by_cases h1 : c.page = 0
  · rw [if_pos h1] at e
    cases e2 : takeBudget (tdTenant c.words) u with
    | none => rw [e2] at e; cases e
    | some v =>
      rw [e2, Option.map_some] at e
      exact takeUnit_keeps c b i (takeBudget_keeps _ h hregs v e2) hregs hpoison hhbms _ (Option.some.inj e)
  · rw [if_neg h1] at e
    have e3 := Option.some.inj (Option.some.inj e)
    rw [Prod.mk.injEq] at e3
    exact e3.2 ▸ h

theorem tierPageProgram_keeps (k : Nat) (n : Nat) (ok : Bool) (rc : Nat) (stall : Nat) (h : Keeps ps s u) (hregs : Part.regs ∈ ps) (hmem : Part.mem ∈ ps) (hpoison : Part.poison ∈ ps) (hcores : Part.cores ∈ ps) (hcoal : Part.coal ∈ ps) (htiers : Part.tiers ∈ ps) (hsilo : Part.silo ∈ ps) (hhbms : Part.hbms ∈ ps) :
    Keeps ps s (tierPageProgram k n ok rc stall u) := by
  unfold tierPageProgram
  repeat' first
    | with_reducible assumption
    | with_reducible apply State.count_keeps
    | with_reducible apply closeStripe_keeps
    | with_reducible apply placePage_keeps
    | with_reducible apply putTier_keeps
    | with_reducible apply noteTurn_keeps
    | with_reducible apply hbmFind_keeps
    | with_reducible apply retireBlk_keeps
    | with_reducible apply siloLast_keeps
    | with_reducible apply writeFail_keeps
    | with_reducible apply Keeps.ite
    | exact takePage_keeps (by assumption) (by assumption) (by assumption) (by assumption) (by assumption)
    | split

theorem siloUnitWritten_keeps (k : Nat) (n : Nat) (h : Keeps ps s u) (hregs : Part.regs ∈ ps) (hmem : Part.mem ∈ ps) (hpoison : Part.poison ∈ ps) (hcores : Part.cores ∈ ps) (hcoal : Part.coal ∈ ps) (htiers : Part.tiers ∈ ps) (hsilo : Part.silo ∈ ps) (hhbms : Part.hbms ∈ ps) :
    Keeps ps s (siloUnitWritten k n u) := by
  unfold siloUnitWritten
  repeat' first
    | with_reducible assumption
    | with_reducible apply putTier_keeps
    | with_reducible apply reportUnit_keeps
    | with_reducible apply writeDone_keeps
    | with_reducible apply Keeps.ite
    | split

theorem fetchBudgetTick_keeps (h : Keeps ps s u) (hregs : Part.regs ∈ ps) :
    Keeps ps s (fetchBudgetTick u) := by
  unfold fetchBudgetTick
  repeat' first
    | with_reducible assumption
    | with_reducible intro _
    | with_reducible apply State.set_keeps
    | with_reducible apply Keeps.foldl
    | split

theorem tierFbWrite_keeps (tn : Nat) (v : Word) (h : Keeps ps s u) (hregs : Part.regs ∈ ps) :
    Keeps ps s (tierFbWrite tn v u) := by
  unfold tierFbWrite
  repeat' first
    | with_reducible assumption
    | with_reducible apply State.set_keeps

end Sys2Proof.Machine
end

