-- ==== Sys2Proof/Laws/KeepsHbm.lean ====
section
/-!
SUPPORT. What each operation of Machine/Hbm.lean keeps (Laws/Keeps.lean), and the parts of State it may change.
-/
namespace Sys2Proof.Machine

set_option linter.unreachableTactic false
set_option linter.unusedTactic false
set_option linter.tactic.unusedName false

variable {ps : List Part} {s u : State}

theorem hbmRefresh_keeps (m : Nat) (temp : Nat) (hot : Bool) (h : Keeps ps s u) (hregs : Part.regs ∈ ps) :
    Keeps ps s (hbmRefresh m temp hot u) := by
  unfold hbmRefresh
  repeat' first
    | with_reducible assumption
    | with_reducible apply State.count_keeps
    | with_reducible apply State.set_keeps
    | split

theorem hbmScrub_keeps (m : Nat) (corr : List Nat) (bad : List Nat) (h : Keeps ps s u) (hregs : Part.regs ∈ ps) (hpoison : Part.poison ∈ ps) (hhbms : Part.hbms ∈ ps) :
    Keeps ps s (hbmScrub m corr bad u) := by
  unfold hbmScrub
  repeat' first
    | with_reducible assumption
    | with_reducible intro _
    | with_reducible apply State.set_keeps
    | with_reducible apply hbmCorr_keeps
    | with_reducible apply hbmFind_keeps
    | with_reducible apply hbmUncorr_keeps
    | with_reducible apply Keeps.foldl
    | with_reducible apply Keeps.foldlP
    | with_reducible apply Keeps.ite
    | split
    | dsimp only

theorem hbmRowRepair_keeps (m : Nat) (row : Nat) (spare : Bool) (h : Keeps ps s u) (hregs : Part.regs ∈ ps) (hcoal : Part.coal ∈ ps) (hsilo : Part.silo ∈ ps) (hhbms : Part.hbms ∈ ps) :
    Keeps ps s (hbmRowRepair m row spare u) := by
  unfold hbmRowRepair
  repeat' first
    | with_reducible assumption
    | with_reducible intro _
    | with_reducible apply State.countSat_keeps
    | with_reducible apply State.set_keeps
    | with_reducible apply State.setHbm_keeps
    | with_reducible apply rdWarn_keeps
    | with_reducible apply Keeps.ite
    | split
    | dsimp only
    | (conv => (arg 3; arg 29)
       refine Keeps.mk' ?_ rfl rfl rfl rfl rfl rfl rfl
        (fun q hn => by cases q <;> first | exact rfl | exact ⟨rfl, rfl⟩ | exact absurd (by assumption) hn))

theorem applyReserve_keeps (bs : List Byte) (h : Keeps ps s u) (hregs : Part.regs ∈ ps) (hcfg : Part.cfg ∈ ps) :
    Keeps ps s (applyReserve bs u) := by
  unfold applyReserve
  repeat' first
    | with_reducible assumption
    | with_reducible intro _
    | (extract_lets +onlyGivenNames t
       first
       | (refine Keeps.gen ps s t ?_ ?_
          on_goal 1 => subst t
          on_goal 2 => (intro ht; clear_value t))
       | clear_value t)
    | with_reducible apply State.set_keeps
    | with_reducible apply Keeps.foldl
    | (conv => (arg 3; arg 29)
       refine Keeps.mk' ?_ rfl rfl rfl rfl rfl rfl rfl
        (fun q hn => by cases q <;> first | exact rfl | exact ⟨rfl, rfl⟩ | exact absurd (by assumption) hn))

theorem rsvWindow_keeps (h : Keeps ps s u) (hregs : Part.regs ∈ ps) (hcfg : Part.cfg ∈ ps) :
    Keeps ps s (rsvWindow u) := by
  unfold rsvWindow
  repeat' first
    | with_reducible assumption
    | with_reducible intro _
    | with_reducible apply State.set_keeps
    | with_reducible apply applyReserve_keeps
    | with_reducible apply Keeps.foldl
    | split

end Sys2Proof.Machine
end

