-- ==== Sys2Proof/Laws/KeepsPci.lean ====
section
/-!
SUPPORT. What each operation of Machine/Pci.lean keeps (Laws/Keeps.lean), and the parts of State it may change.
-/
namespace Sys2Proof.Machine

set_option linter.unreachableTactic false
set_option linter.unusedTactic false
set_option linter.tactic.unusedName false

variable {ps : List Part} {s u : State}

theorem msixSend_keeps (v : Nat) (h : Keeps ps s u) (hpci : Part.pci ∈ ps) :
    Keeps ps s (msixSend v u) := by
  unfold msixSend
  repeat' first
    | with_reducible assumption
    | (conv => (arg 3; arg 29)
       refine Keeps.mk' ?_ rfl rfl rfl rfl rfl rfl rfl
        (fun q hn => by cases q <;> first | exact rfl | exact ⟨rfl, rfl⟩ | exact absurd (by assumption) hn))

theorem msixRaise_keeps (v : Nat) (h : Keeps ps s u) (hpci : Part.pci ∈ ps) :
    Keeps ps s (msixRaise v u) := by
  unfold msixRaise
  repeat' first
    | with_reducible assumption
    | with_reducible apply msixSend_keeps
    | split
    | (conv => (arg 3; arg 29)
       refine Keeps.mk' ?_ rfl rfl rfl rfl rfl rfl rfl
        (fun q hn => by cases q <;> first | exact rfl | exact ⟨rfl, rfl⟩ | exact absurd (by assumption) hn))

theorem msixUnmask_keeps (h : Keeps ps s u) (hpci : Part.pci ∈ ps) :
    Keeps ps s (msixUnmask u) := by
  unfold msixUnmask
  repeat' first
    | with_reducible assumption
    | with_reducible intro _
    | with_reducible apply msixSend_keeps
    | with_reducible apply Keeps.foldl
    | split

theorem pciIrq_keeps (code : Nat) (h : Keeps ps s u) (hregs : Part.regs ∈ ps) (hpci : Part.pci ∈ ps) :
    Keeps ps s (pciIrq code u) := by
  unfold pciIrq
  repeat' first
    | with_reducible assumption
    | with_reducible apply State.raise_keeps
    | with_reducible apply msixRaise_keeps
    | with_reducible apply Keeps.ite

theorem pciNote_keeps (code : Nat) (cause : Nat) (addr : Nat) (h : Keeps ps s u) (hregs : Part.regs ∈ ps) (hpci : Part.pci ∈ ps) :
    Keeps ps s (pciNote code cause addr u) := by
  unfold pciNote
  repeat' first
    | with_reducible assumption
    | with_reducible apply State.set_keeps
    | with_reducible apply pciIrq_keeps

end Sys2Proof.Machine
end

