-- ==== Sys2Proof/Laws/KeepsModel.lean ====
section
/-!
SUPPORT. What each operation of Machine/Model.lean keeps (Laws/Keeps.lean), and the parts of State it may change.
-/
namespace Sys2Proof.Machine

set_option linter.unreachableTactic false
set_option linter.unusedTactic false
set_option linter.tactic.unusedName false

variable {ps : List Part} {s u : State}

theorem eraseModelKey_keeps (h : Keeps ps s u) (hregs : Part.regs ∈ ps) (hmodel : Part.model ∈ ps) :
    Keeps ps s (eraseModelKey u) := by
  unfold eraseModelKey
  repeat' first
    | with_reducible assumption
    | with_reducible apply State.set_keeps
    | dsimp only
    | (conv => (arg 3; arg 29)
       refine Keeps.mk' ?_ rfl rfl rfl rfl rfl rfl rfl
        (fun q hn => by cases q <;> first | exact rfl | exact ⟨rfl, rfl⟩ | exact absurd (by assumption) hn))

theorem drainFrames_keeps (b : Blk) (h : Keeps ps s u) (hhbms : Part.hbms ∈ ps) :
    Keeps ps s (drainFrames b u) := by
  unfold drainFrames
  repeat' first
    | with_reducible assumption
    | with_reducible intro _
    | with_reducible apply State.setHbm_keeps
    | with_reducible apply Keeps.foldl
    | with_reducible apply Keeps.foldlP
    | split
    | dsimp only

theorem dropBlocks_keeps (keep : Bool) (h : Keeps ps s u) (hregs : Part.regs ∈ ps) (hmem : Part.mem ∈ ps) (hpoison : Part.poison ∈ ps) (hsilo : Part.silo ∈ ps) (hmodel : Part.model ∈ ps) (hhbms : Part.hbms ∈ ps) :
    Keeps ps s (dropBlocks keep u) := by
  unfold dropBlocks
  repeat' first
    | with_reducible assumption
    | with_reducible intro _
    | with_reducible apply drainFrames_keeps
    | with_reducible apply releaseBlk_keeps
    | with_reducible apply zeroFrames_keeps
    | with_reducible apply Keeps.foldl
    | with_reducible apply Keeps.foldlP
    | with_reducible apply Keeps.ite
    | split
    | dsimp only
    | (conv => (arg 3; arg 29)
       refine Keeps.mk' ?_ rfl rfl rfl rfl rfl rfl rfl
        (fun q hn => by cases q <;> first | exact rfl | exact ⟨rfl, rfl⟩ | exact absurd (by assumption) hn))

theorem modelCode_keeps (code : Nat) (reason : Nat) (h : Keeps ps s u) (hregs : Part.regs ∈ ps) :
    Keeps ps s (modelCode code reason u) := by
  unfold modelCode
  repeat' first
    | with_reducible assumption
    | with_reducible apply State.raise_keeps
    | with_reducible apply State.set_keeps

theorem modelFail_keeps (code : Nat) (reason : Nat) (h : Keeps ps s u) (hregs : Part.regs ∈ ps) (hmem : Part.mem ∈ ps) (hpoison : Part.poison ∈ ps) (hsilo : Part.silo ∈ ps) (hmodel : Part.model ∈ ps) (hhbms : Part.hbms ∈ ps) (hpci : Part.pci ∈ ps) :
    Keeps ps s (modelFail code reason u) := by
  unfold modelFail
  repeat' first
    | with_reducible assumption
    | with_reducible apply State.set_keeps
    | with_reducible apply dropBlocks_keeps
    | with_reducible apply eraseModelKey_keeps
    | with_reducible apply modelCode_keeps
    | (conv => (arg 3; arg 29)
       refine Keeps.mk' ?_ rfl rfl rfl rfl rfl rfl rfl
        (fun q hn => by cases q <;> first | exact rfl | exact ⟨rfl, rfl⟩ | exact absurd (by assumption) hn))

theorem modelRead_keeps (off : Nat) (n : Nat) (h : Keeps ps s u) (hregs : Part.regs ∈ ps) (hmem : Part.mem ∈ ps) (hpoison : Part.poison ∈ ps) (hsilo : Part.silo ∈ ps) (hmodel : Part.model ∈ ps) (hhbms : Part.hbms ∈ ps) (hpci : Part.pci ∈ ps) :
    Keeps ps s (modelRead off n u) := by
  unfold modelRead
  repeat' first
    | with_reducible assumption
    | with_reducible apply modelFail_keeps
    | with_reducible apply pciNote_keeps
    | split
    | dsimp only
    | (conv => (arg 3; arg 29)
       refine Keeps.mk' ?_ rfl rfl rfl rfl rfl rfl rfl
        (fun q hn => by cases q <;> first | exact rfl | exact ⟨rfl, rfl⟩ | exact absurd (by assumption) hn))

theorem modelLoad_keeps (restage : Bool) (h : Keeps ps s u) (hregs : Part.regs ∈ ps) (hmem : Part.mem ∈ ps) (hpoison : Part.poison ∈ ps) (hsilo : Part.silo ∈ ps) (hmodel : Part.model ∈ ps) (hhbms : Part.hbms ∈ ps) (hpci : Part.pci ∈ ps) :
    Keeps ps s (modelLoad restage u) := by
  unfold modelLoad
  repeat' first
    | with_reducible assumption
    | with_reducible apply State.set_keeps
    | with_reducible apply modelCode_keeps
    | with_reducible apply modelRead_keeps
    | split
    | dsimp only
    | (conv => (arg 3; arg 29)
       refine Keeps.mk' ?_ rfl rfl rfl rfl rfl rfl rfl
        (fun q hn => by cases q <;> first | exact rfl | exact ⟨rfl, rfl⟩ | exact absurd (by assumption) hn))

theorem createBlk_keeps (b : Nat) (lu : Nat) (i : Nat) (h : Keeps ps s u) (hregs : Part.regs ∈ ps) (hmem : Part.mem ∈ ps) (hpoison : Part.poison ∈ ps) (hmodel : Part.model ∈ ps) (hhbms : Part.hbms ∈ ps) :
    Keeps ps s (createBlk b lu i u) := by
  unfold createBlk
  repeat' first
    | with_reducible assumption
    | with_reducible intro _
    | with_reducible apply putBlk_keeps
    | split
    | dsimp only
    | (conv => (arg 3; arg 29)
       refine Keeps.mk' ?_ rfl rfl rfl rfl rfl rfl rfl
        (fun q hn => by cases q <;> first | exact rfl | exact ⟨rfl, rfl⟩ | exact absurd (by assumption) hn))

theorem newBlk_keeps (b : Nat) (h : Keeps ps s u) (hregs : Part.regs ∈ ps) (hmem : Part.mem ∈ ps) (hpoison : Part.poison ∈ ps) (hsilo : Part.silo ∈ ps) (hmodel : Part.model ∈ ps) (hhbms : Part.hbms ∈ ps) :
    KeepsO ps s (newBlk b u) := by
  unfold newBlk
  repeat' first
    | with_reducible assumption
    | with_reducible apply createBlk_keeps
    | with_reducible apply KeepsO.ite
    | with_reducible apply KeepsO.some
    | exact KeepsO.none
    | split
    | dsimp only
    | (conv => (arg 3; arg 29)
       refine Keeps.mk' ?_ rfl rfl rfl rfl rfl rfl rfl
        (fun q hn => by cases q <;> first | exact rfl | exact ⟨rfl, rfl⟩ | exact absurd (by assumption) hn))

theorem nextShard_keeps (h : Keeps ps s u) (hregs : Part.regs ∈ ps) (hmem : Part.mem ∈ ps) (hpoison : Part.poison ∈ ps) (hsilo : Part.silo ∈ ps) (hmodel : Part.model ∈ ps) (hhbms : Part.hbms ∈ ps) (hpci : Part.pci ∈ ps) :
    Keeps ps s (nextShard u) := by
  unfold nextShard
  repeat' first
    | with_reducible assumption
    | with_reducible apply modelRead_keeps
    | split

theorem putTag_keeps (i : Nat) (h : Keeps ps s u) (hregs : Part.regs ∈ ps) (hmem : Part.mem ∈ ps) (hpoison : Part.poison ∈ ps) (hhbms : Part.hbms ∈ ps) :
    Keeps ps s (putTag i u) := by
  unfold putTag
  repeat' first
    | with_reducible assumption
    | with_reducible apply memWrite_keeps

theorem restageBlks_keeps (k : ModelKept) (l : List Nat) (h : Keeps ps s u) (hregs : Part.regs ∈ ps) (hmem : Part.mem ∈ ps)
    (hpoison : Part.poison ∈ ps) (hmodel : Part.model ∈ ps) (hhbms : Part.hbms ∈ ps) : KeepsO ps s (restageBlks k l u) := by
  induction l generalizing u with
  | nil => exact KeepsO.some h
  | cons b bs ih =>
    unfold restageBlks
    split
    · exact ih (Keeps.foldl (createBlk_keeps _ _ _ h hregs hmem hpoison hmodel hhbms)
        (fun t x ht => putTag_keeps _ ht hregs hmem hpoison hhbms))
    · exact KeepsO.none

theorem modelVerify_keeps (h : Keeps ps s u) (hregs : Part.regs ∈ ps) (hmem : Part.mem ∈ ps) (hpoison : Part.poison ∈ ps) (hsilo : Part.silo ∈ ps) (hmodel : Part.model ∈ ps) (hhbms : Part.hbms ∈ ps) (hpci : Part.pci ∈ ps) :
    Keeps ps s (modelVerify u) := by
  unfold modelVerify
  repeat' first
    | with_reducible assumption
    | with_reducible apply State.set_keeps
    | with_reducible apply modelFail_keeps
    | with_reducible apply nextShard_keeps
    | with_reducible apply restageBlks_keeps
    | split
    | refine Keeps.of_some (by assumption) ?_
    | dsimp only
    | (conv => (arg 3; arg 29)
       refine Keeps.mk' ?_ rfl rfl rfl rfl rfl rfl rfl
        (fun q hn => by cases q <;> first | exact rfl | exact ⟨rfl, rfl⟩ | exact absurd (by assumption) hn))

theorem storeShard_keeps (m : ModelBlk) (lu : Nat) (j : Nat) (bs : List Byte) (h : Keeps ps s u) (hregs : Part.regs ∈ ps) (hmem : Part.mem ∈ ps) (hpoison : Part.poison ∈ ps) (hcoal : Part.coal ∈ ps) (hsilo : Part.silo ∈ ps) (hhbms : Part.hbms ∈ ps) :
    Keeps ps s (storeShard m lu j bs u) := by
  unfold storeShard
  repeat' first
    | with_reducible assumption
    | with_reducible intro _
    | with_reducible apply putTag_keeps
    | with_reducible apply storeUnit_keeps
    | with_reducible apply Keeps.foldl

theorem modelStage_keeps (h : Keeps ps s u) (hregs : Part.regs ∈ ps) (hmem : Part.mem ∈ ps) (hpoison : Part.poison ∈ ps) (hcoal : Part.coal ∈ ps) (hsilo : Part.silo ∈ ps) (hmodel : Part.model ∈ ps) (hhbms : Part.hbms ∈ ps) (hpci : Part.pci ∈ ps) :
    Keeps ps s (modelStage u) := by
  unfold modelStage
  repeat' first
    | with_reducible assumption
    | with_reducible apply State.count_keeps
    | with_reducible apply State.countSat_keeps
    | with_reducible apply State.set_keeps
    | with_reducible apply closeStripe_keeps
    | with_reducible apply modelFail_keeps
    | with_reducible apply newBlk_keeps
    | with_reducible apply nextShard_keeps
    | with_reducible apply secTagEvent_keeps
    | with_reducible apply storeShard_keeps
    | with_reducible apply KeepsO.ite
    | with_reducible apply KeepsO.some
    | split
    | refine Keeps.of_some (by assumption) ?_
    | dsimp only
    | (conv => (arg 3; arg 29)
       refine Keeps.mk' ?_ rfl rfl rfl rfl rfl rfl rfl
        (fun q hn => by cases q <;> first | exact rfl | exact ⟨rfl, rfl⟩ | exact absurd (by assumption) hn))

theorem readPages_keeps (x0 : List Nat) (x1 : List PageRead) (h : Keeps ps s u) (hregs : Part.regs ∈ ps) (hsilo : Part.silo ∈ ps) :
    Keeps ps s (readPages x0 x1 u).2.2 := by
  induction x0 generalizing u x1 <;> unfold readPages
  all_goals repeat' first
    | (with_reducible apply_assumption)
    | with_reducible apply readPage_keeps
    | with_reducible apply Keeps.ite
    | with_reducible apply Keeps.ite3

theorem placeShard_keeps (m : ModelBlk) (j : Nat) (x2 : Nat) (x3 : List PageRead) (h : Keeps ps s u) (hregs : Part.regs ∈ ps) (hmem : Part.mem ∈ ps) (hpoison : Part.poison ∈ ps) (hsilo : Part.silo ∈ ps) (hhbms : Part.hbms ∈ ps) :
    Keeps ps s (placeShard m j x2 x3 u).2.2 := by
  induction x2 generalizing u x3 <;> unfold placeShard
  all_goals repeat' first
    | (with_reducible apply_assumption)
    | with_reducible intro _
    | extract_lets +onlyGivenNames t
    | with_reducible apply State.count_keeps
    | with_reducible apply State.countSat_keeps
    | with_reducible apply landShard_keeps
    | with_reducible apply readPages_keeps
    | with_reducible apply secTagEvent_keeps
    | with_reducible apply tagRead_keeps
    | with_reducible apply Keeps.ite3
    | with_reducible apply Keeps.ite
    | split

theorem placeShards_keeps (m : ModelBlk) (x1 : List Nat) (x2 : List PageRead) (h : Keeps ps s u) (hregs : Part.regs ∈ ps) (hmem : Part.mem ∈ ps) (hpoison : Part.poison ∈ ps) (hsilo : Part.silo ∈ ps) (hhbms : Part.hbms ∈ ps) :
    Keeps ps s (placeShards m x1 x2 u).2.2 := by
  induction x1 generalizing u x2 <;> unfold placeShards
  all_goals repeat' first
    | (with_reducible apply_assumption)
    | with_reducible apply placeShard_keeps
    | with_reducible apply Keeps.ite
    | with_reducible apply Keeps.ite3

theorem placeBlk_keeps (b : Nat) (rs : List PageRead) (h : Keeps ps s u) (hregs : Part.regs ∈ ps) (hmem : Part.mem ∈ ps) (hpoison : Part.poison ∈ ps) (hsilo : Part.silo ∈ ps) (hmodel : Part.model ∈ ps) (hhbms : Part.hbms ∈ ps) :
    Keeps ps s (placeBlk b rs u).2.2 := by
  unfold placeBlk
  repeat' first
    | with_reducible assumption
    | with_reducible intro _
    | with_reducible apply State.count_keeps
    | with_reducible apply chargeFrames_keeps
    | with_reducible apply placeShards_keeps
    | with_reducible apply putBlk_keeps
    | with_reducible apply setFrames_keeps
    | with_reducible apply zeroFrames_keeps
    | with_reducible apply Keeps.ite3
    | with_reducible apply Keeps.ite
    | split
    | dsimp only
    | (conv => (arg 3; arg 29)
       refine Keeps.mk' ?_ rfl rfl rfl rfl rfl rfl rfl
        (fun q hn => by cases q <;> first | exact rfl | exact ⟨rfl, rfl⟩ | exact absurd (by assumption) hn))

theorem placeBlks_keeps (x0 : List Nat) (x1 : List PageRead) (h : Keeps ps s u) (hregs : Part.regs ∈ ps) (hmem : Part.mem ∈ ps) (hpoison : Part.poison ∈ ps) (hsilo : Part.silo ∈ ps) (hmodel : Part.model ∈ ps) (hhbms : Part.hbms ∈ ps) :
    Keeps ps s (placeBlks x0 x1 u).2 := by
  induction x0 generalizing u x1 <;> unfold placeBlks
  all_goals repeat' first
    | (with_reducible apply_assumption)
    | with_reducible apply placeBlk_keeps
    | with_reducible apply Keeps.ite
    | with_reducible apply Keeps.ite2

theorem setMeas_keeps (i : Nat) (v : Nat) (h : Keeps ps s u) (hsec : Part.sec ∈ ps) :
    Keeps ps s (setMeas i v u) := by
  unfold setMeas
  repeat' first
    | with_reducible assumption
    | (conv => (arg 3; arg 29)
       refine Keeps.mk' ?_ rfl rfl rfl rfl rfl rfl rfl
        (fun q hn => by cases q <;> first | exact rfl | exact ⟨rfl, rfl⟩ | exact absurd (by assumption) hn))

theorem modelPlace_keeps (rs : List PageRead) (h : Keeps ps s u) (hregs : Part.regs ∈ ps) (hmem : Part.mem ∈ ps) (hpoison : Part.poison ∈ ps) (hsilo : Part.silo ∈ ps) (hmodel : Part.model ∈ ps) (hhbms : Part.hbms ∈ ps) (hsec : Part.sec ∈ ps) (hpci : Part.pci ∈ ps) :
    Keeps ps s (modelPlace rs u) := by
  unfold modelPlace
  repeat' first
    | with_reducible assumption
    | with_reducible apply State.raise_keeps
    | with_reducible apply State.set_keeps
    | with_reducible apply memWrite_keeps
    | with_reducible apply modelFail_keeps
    | with_reducible apply placeBlks_keeps
    | with_reducible apply setMeas_keeps
    | with_reducible apply Keeps.ite

theorem dropKept_keeps (h : Keeps ps s u) (hsilo : Part.silo ∈ ps) (hmodel : Part.model ∈ ps) :
    Keeps ps s (dropKept u) := by
  unfold dropKept
  repeat' first
    | with_reducible assumption
    | with_reducible intro _
    | with_reducible apply freeExtent_keeps
    | with_reducible apply Keeps.foldl
    | split
    | dsimp only
    | (conv => (arg 3; arg 29)
       refine Keeps.mk' ?_ rfl rfl rfl rfl rfl rfl rfl
        (fun q hn => by cases q <;> first | exact rfl | exact ⟨rfl, rfl⟩ | exact absurd (by assumption) hn))

theorem modelUnload_keeps (keep : Bool) (h : Keeps ps s u) (hregs : Part.regs ∈ ps) (hmem : Part.mem ∈ ps) (hpoison : Part.poison ∈ ps) (hsilo : Part.silo ∈ ps) (hmodel : Part.model ∈ ps) (hhbms : Part.hbms ∈ ps) (hsec : Part.sec ∈ ps) :
    Keeps ps s (modelUnload keep u) := by
  unfold modelUnload
  repeat' first
    | with_reducible assumption
    | with_reducible intro _
    | with_reducible apply State.raise_keeps
    | with_reducible apply State.set_keeps
    | with_reducible apply dropBlocks_keeps
    | with_reducible apply dropKept_keeps
    | with_reducible apply eraseModelKey_keeps
    | with_reducible apply memWrite_keeps
    | with_reducible apply modelCode_keeps
    | with_reducible apply putBlk_keeps
    | with_reducible apply setMeas_keeps
    | with_reducible apply Keeps.foldl
    | with_reducible apply Keeps.foldlP
    | with_reducible apply Keeps.ite
    | split
    | dsimp only
    | (conv => (arg 3; arg 29)
       refine Keeps.mk' ?_ rfl rfl rfl rfl rfl rfl rfl
        (fun q hn => by cases q <;> first | exact rfl | exact ⟨rfl, rfl⟩ | exact absurd (by assumption) hn))

theorem modelAbort_keeps (h : Keeps ps s u) (hmodel : Part.model ∈ ps) :
    Keeps ps s (modelAbort u) := by
  unfold modelAbort
  repeat' first
    | with_reducible assumption
    | split
    | (conv => (arg 3; arg 29)
       refine Keeps.mk' ?_ rfl rfl rfl rfl rfl rfl rfl
        (fun q hn => by cases q <;> first | exact rfl | exact ⟨rfl, rfl⟩ | exact absurd (by assumption) hn))

end Sys2Proof.Machine
end

