-- ==== Sys2Proof/Laws/KeepsTenants.lean ====
section
/-!
SUPPORT. What each operation of Machine/Tenants.lean keeps (Laws/Keeps.lean), and the parts of State it may change.
-/
namespace Sys2Proof.Machine

set_option linter.unreachableTactic false
set_option linter.unusedTactic false
set_option linter.tactic.unusedName false

variable {ps : List Part} {s u : State}

theorem doorbell_keeps (want : Nat) (f : Fld) (tn : Nat) (off : Nat) (width : Nat) (poisoned : Bool) (v : Word) (h : Keeps ps s u) (hregs : Part.regs ∈ ps) (hpci : Part.pci ∈ ps) :
    Keeps ps s (doorbell want f tn off width poisoned v u) := by
  unfold doorbell
  repeat' first
    | with_reducible assumption
    | with_reducible apply State.countSat_keeps
    | with_reducible apply State.set_keeps
    | with_reducible apply pciNote_keeps
    | split

theorem doorbellQtail_keeps (tn : Nat) (off : Nat) (width : Nat) (poisoned : Bool) (v : Word) (h : Keeps ps s u) (hregs : Part.regs ∈ ps) (hpci : Part.pci ∈ ps) :
    Keeps ps s (doorbellQtail tn off width poisoned v u) := by
  unfold doorbellQtail
  repeat' first
    | with_reducible assumption
    | with_reducible apply doorbell_keeps

theorem doorbellOhead_keeps (tn : Nat) (off : Nat) (width : Nat) (poisoned : Bool) (v : Word) (h : Keeps ps s u) (hregs : Part.regs ∈ ps) (hpci : Part.pci ∈ ps) :
    Keeps ps s (doorbellOhead tn off width poisoned v u) := by
  unfold doorbellOhead
  repeat' first
    | with_reducible assumption
    | with_reducible apply doorbell_keeps

theorem putHeads_keeps (n : Nat) (tn : Nat) (qhead : Nat) (otail : Nat) (h : Keeps ps s u) (hregs : Part.regs ∈ ps) (hmem : Part.mem ∈ ps) (hpoison : Part.poison ∈ ps) (hhbms : Part.hbms ∈ ps) :
    Keeps ps s (putHeads n tn qhead otail u) := by
  unfold putHeads
  repeat' first
    | with_reducible assumption
    | with_reducible apply unitWrite_keeps

theorem flushOut_keeps (n : Nat) (r : ServReq) (x2 : List (List Nat)) (h : Keeps ps s u) (hregs : Part.regs ∈ ps) (hmem : Part.mem ∈ ps) (hpoison : Part.poison ∈ ps) (hhbms : Part.hbms ∈ ps) :
    Keeps ps s (flushOut n r x2 u).2 := by
  induction x2 generalizing u <;> unfold flushOut
  all_goals repeat' first
    | (with_reducible apply_assumption)
    | with_reducible apply memWrite_keeps
    | with_reducible apply putHeads_keeps
    | with_reducible apply unitWrite_keeps
    | with_reducible apply Keeps.ite
    | with_reducible apply Keeps.ite2

theorem flushAll_keeps (n : Nat) (h : Keeps ps s u) (hregs : Part.regs ∈ ps) (hmem : Part.mem ∈ ps) (hpoison : Part.poison ∈ ps) (hhbms : Part.hbms ∈ ps) (hserv : Part.serv ∈ ps) :
    Keeps ps s (flushAll n u) := by
  unfold flushAll
  repeat' first
    | with_reducible assumption
    | with_reducible intro _
    | with_reducible apply flushOut_keeps
    | with_reducible apply Keeps.foldl
    | split
    | dsimp only
    | (conv => (arg 3; arg 29)
       refine Keeps.mk' ?_ rfl rfl rfl rfl rfl rfl rfl
        (fun q hn => by cases q <;> first | exact rfl | exact ⟨rfl, rfl⟩ | exact absurd (by assumption) hn))

theorem readReq_keeps (n : Nat) (tn : Nat) (e : TenEnt) (h : Keeps ps s u) (hregs : Part.regs ∈ ps) (hmem : Part.mem ∈ ps) (hpoison : Part.poison ∈ ps) (hhbms : Part.hbms ∈ ps) :
    Keeps ps s (readReq n tn e u).2 := by
  unfold readReq
  repeat' first
    | with_reducible assumption
    | with_reducible apply putHeads_keeps
    | with_reducible apply unitRead_keeps

theorem addReq_keeps (r : ServReq) (h : Keeps ps s u) (hserv : Part.serv ∈ ps) :
    Keeps ps s (addReq r u) := by
  unfold addReq
  repeat' first
    | with_reducible assumption
    | (conv => (arg 3; arg 29)
       refine Keeps.mk' ?_ rfl rfl rfl rfl rfl rfl rfl
        (fun q hn => by cases q <;> first | exact rfl | exact ⟨rfl, rfl⟩ | exact absurd (by assumption) hn))

theorem admitReqs_keeps (n : Nat) (x1 : Nat) (x2 : Nat) (h : Keeps ps s u) (hregs : Part.regs ∈ ps) (hmem : Part.mem ∈ ps) (hpoison : Part.poison ∈ ps) (hhbms : Part.hbms ∈ ps) (hserv : Part.serv ∈ ps) :
    Keeps ps s (admitReqs n x1 x2 u) := by
  induction x1 generalizing u x2 <;> unfold admitReqs
  all_goals repeat' first
    | (extract_lets +onlyGivenNames t
       first
       | (refine Keeps.gen ps s t ?_ ?_
          on_goal 1 => subst t
          on_goal 2 => (intro ht; clear_value t))
       | (refine Keeps.gen ps s t.2 ?_ ?_
          on_goal 1 => subst t
          on_goal 2 => (intro ht; clear_value t))
       | (have hf := fun x => t x
          clear hf
          subst t
          try beta_reduce)
       | clear_value t)
    | (with_reducible apply_assumption)
    | with_reducible apply addReq_keeps
    | with_reducible apply readReq_keeps
    | with_reducible apply Keeps.ite
    | split
    | (conv => (arg 3; arg 29)
       refine Keeps.mk' ?_ rfl rfl rfl rfl rfl rfl rfl
        (fun q hn => by cases q <;> first | exact rfl | exact ⟨rfl, rfl⟩ | exact absurd (by assumption) hn))

theorem servingIteration_keeps (n : Nat) (outs : List IterOut) (h : Keeps ps s u) (hregs : Part.regs ∈ ps) (hmem : Part.mem ∈ ps) (hpoison : Part.poison ∈ ps) (hhbms : Part.hbms ∈ ps) (hserv : Part.serv ∈ ps) :
    Keeps ps s (servingIteration n outs u) := by
  unfold servingIteration
  repeat' first
    | with_reducible assumption
    | with_reducible apply admitReqs_keeps
    | with_reducible apply flushAll_keeps
    | with_reducible apply Keeps.ite
    | (conv => (arg 3; arg 29)
       refine Keeps.mk' ?_ rfl rfl rfl rfl rfl rfl rfl
        (fun q hn => by cases q <;> first | exact rfl | exact ⟨rfl, rfl⟩ | exact absurd (by assumption) hn))

theorem closeQueued_keeps (n : Nat) (tn : Nat) (x2 : Nat) (h : Keeps ps s u) (hregs : Part.regs ∈ ps) (hmem : Part.mem ∈ ps) (hpoison : Part.poison ∈ ps) (hhbms : Part.hbms ∈ ps) (hserv : Part.serv ∈ ps) :
    Keeps ps s (closeQueued n tn x2 u) := by
  induction x2 generalizing u <;> unfold closeQueued
  all_goals repeat' first
    | (with_reducible apply_assumption)
    | with_reducible apply addReq_keeps
    | with_reducible apply readReq_keeps
    | with_reducible apply Keeps.ite

theorem tenantDrain_keeps (tn : Nat) (h : Keeps ps s u) (hregs : Part.regs ∈ ps) (hmem : Part.mem ∈ ps) (hpoison : Part.poison ∈ ps) (hhbms : Part.hbms ∈ ps) (hserv : Part.serv ∈ ps) :
    Keeps ps s (tenantDrain tn u) := by
  unfold tenantDrain
  repeat' first
    | with_reducible assumption
    | with_reducible apply closeQueued_keeps
    | with_reducible apply flushAll_keeps
    | with_reducible apply unitWrite_keeps
    | with_reducible apply Keeps.ite
    | split

theorem runRing_keeps (p : Nat) (base : Word) (size : Word) (tail : Word) (h : Keeps ps s u) (hregs : Part.regs ∈ ps) (hcores : Part.cores ∈ ps) :
    Keeps ps s (runRing p base size tail u) := by
  unfold runRing
  repeat' first
    | with_reducible assumption
    | with_reducible apply State.set_keeps
    | with_reducible apply clearCore_keeps
    | with_reducible apply coreTailWrite_keeps
    | with_reducible apply runCore_keeps

theorem preempt_keeps (p : Nat) (base : Word) (size : Word) (tail : Word) (h : Keeps ps s u) (hregs : Part.regs ∈ ps) (hcores : Part.cores ∈ ps) (hserv : Part.serv ∈ ps) :
    Keeps ps s (preempt p base size tail u) := by
  unfold preempt
  repeat' first
    | with_reducible assumption
    | with_reducible apply killCore_keeps
    | with_reducible apply runRing_keeps
    | with_reducible apply Keeps.ite
    | dsimp only
    | (conv => (arg 3; arg 29)
       refine Keeps.mk' ?_ rfl rfl rfl rfl rfl rfl rfl
        (fun q hn => by cases q <;> first | exact rfl | exact ⟨rfl, rfl⟩ | exact absurd (by assumption) hn))

end Sys2Proof.Machine
end

