-- ==== Sys2Proof/Laws/KeepsImage.lean ====
section
/-!
SUPPORT. What each operation of Machine/Image.lean keeps (Laws/Keeps.lean), and the parts of State it may change.
-/
namespace Sys2Proof.Machine

set_option linter.unreachableTactic false
set_option linter.unusedTactic false
set_option linter.tactic.unusedName false

variable {ps : List Part} {s u : State}

theorem noteCheck_keeps (kind : Nat) (r : Option ImgRes) (h : Keeps ps s u) (hregs : Part.regs ∈ ps) :
    Keeps ps s (noteCheck kind r u) := by
  unfold noteCheck
  repeat' first
    | with_reducible assumption
    | with_reducible apply State.raise_keeps
    | with_reducible apply State.set_keeps

theorem loadWord_keeps (r : LoadReg) (a : Nat) (v : Nat) (h : Keeps ps s u) (hregs : Part.regs ∈ ps) :
    Keeps ps s (loadWord r a v u) := by
  unfold loadWord
  repeat' first
    | with_reducible assumption
    | with_reducible intro _
    | with_reducible apply Keeps.setWord
    | with_reducible apply Keeps.foldl

theorem clearSect_keeps (id : Nat) (h : Keeps ps s u) (hregs : Part.regs ∈ ps) :
    Keeps ps s (clearSect id u) := by
  unfold clearSect
  repeat' first
    | with_reducible assumption
    | with_reducible intro _
    | with_reducible apply Keeps.setWord
    | with_reducible apply Keeps.foldl
    | split

theorem applyReg_keeps (id : Nat) (bs : List Byte) (h : Keeps ps s u) (hregs : Part.regs ∈ ps) :
    Keeps ps s (applyReg id bs u) := by
  unfold applyReg
  repeat' first
    | with_reducible assumption
    | with_reducible intro _
    | with_reducible apply clearSect_keeps
    | with_reducible apply loadWord_keeps
    | with_reducible apply Keeps.foldl
    | split

theorem setCorePlot_keeps (p : Nat) (h : Keeps ps s u) (hregs : Part.regs ∈ ps) :
    Keeps ps s (setCorePlot p u) := by
  unfold setCorePlot
  repeat' first
    | with_reducible assumption
    | with_reducible apply State.set_keeps
    | with_reducible apply Keeps.setWord
    | split

theorem setUnitPlots_keeps (n : Nat) (q : PlotCfg) (h : Keeps ps s u) (hregs : Part.regs ∈ ps) :
    Keeps ps s (setUnitPlots n q u) := by
  unfold setUnitPlots
  repeat' first
    | with_reducible assumption
    | with_reducible intro _
    | with_reducible apply Keeps.setWord
    | with_reducible apply Keeps.foldl

theorem applyPlots_keeps (bs : List Byte) (h : Keeps ps s u) (hregs : Part.regs ∈ ps) (hplots : Part.plots ∈ ps) (hcfg : Part.cfg ∈ ps) :
    Keeps ps s (applyPlots bs u) := by
  unfold applyPlots
  repeat' first
    | with_reducible assumption
    | with_reducible intro _
    | with_reducible apply setCorePlot_keeps
    | with_reducible apply setUnitPlots_keeps
    | with_reducible apply Keeps.foldl
    | (conv => (arg 3; arg 29)
       refine Keeps.mk' ?_ rfl rfl rfl rfl rfl rfl rfl
        (fun q hn => by cases q <;> first | exact rfl | exact ⟨rfl, rfl⟩ | exact absurd (by assumption) hn))

theorem applyFrames_keeps (h : Keeps ps s u) (hregs : Part.regs ∈ ps) :
    Keeps ps s (applyFrames u) := by
  unfold applyFrames
  repeat' first
    | with_reducible assumption
    | with_reducible intro _
    | with_reducible apply State.set_keeps
    | with_reducible apply Keeps.foldl

theorem applySilo_keeps (bs : List Byte) (h : Keeps ps s u) (hregs : Part.regs ∈ ps) (hcfg : Part.cfg ∈ ps) :
    Keeps ps s (applySilo bs u) := by
  unfold applySilo
  repeat' first
    | with_reducible assumption
    | with_reducible intro _
    | (extract_lets +onlyGivenNames t
       first
       | (refine Keeps.gen ps s t ?_ ?_
          on_goal 1 => subst t
          on_goal 2 => (intro ht; clear_value t))
       | clear_value t)
    | with_reducible apply State.set_keeps
    | with_reducible apply Keeps.foldl
    | (conv => (arg 3; arg 29)
       refine Keeps.mk' ?_ rfl rfl rfl rfl rfl rfl rfl
        (fun q hn => by cases q <;> first | exact rfl | exact ⟨rfl, rfl⟩ | exact absurd (by assumption) hn))

theorem applyPower_keeps (bs : List Byte) (h : Keeps ps s u) (hregs : Part.regs ∈ ps) :
    Keeps ps s (applyPower bs u) := by
  unfold applyPower
  repeat' first
    | with_reducible assumption
    | with_reducible intro _
    | with_reducible apply State.set_keeps
    | with_reducible apply Keeps.foldl

theorem applySecurity_keeps (bs : List Byte) (h : Keeps ps s u) (hregs : Part.regs ∈ ps) (hcfg : Part.cfg ∈ ps) :
    Keeps ps s (applySecurity bs u) := by
  unfold applySecurity
  repeat' first
    | with_reducible assumption
    | with_reducible apply State.set_keeps
    | dsimp only
    | (conv => (arg 3; arg 29)
       refine Keeps.mk' ?_ rfl rfl rfl rfl rfl rfl rfl
        (fun q hn => by cases q <;> first | exact rfl | exact ⟨rfl, rfl⟩ | exact absurd (by assumption) hn))

theorem applyQuotas_keeps (bs : List Byte) (h : Keeps ps s u) (hregs : Part.regs ∈ ps) :
    Keeps ps s (applyQuotas bs u) := by
  unfold applyQuotas
  repeat' first
    | with_reducible assumption
    | with_reducible intro _
    | with_reducible apply State.set_keeps
    | with_reducible apply applyReg_keeps
    | with_reducible apply Keeps.foldl

theorem applySection_keeps (id : Nat) (bs : List Byte) (h : Keeps ps s u) (hregs : Part.regs ∈ ps) (hplots : Part.plots ∈ ps) (hvt : Part.vt ∈ ps) (hcfg : Part.cfg ∈ ps) :
    Keeps ps s (applySection id bs u) := by
  unfold applySection
  repeat' first
    | with_reducible assumption
    | with_reducible apply applyFrames_keeps
    | with_reducible apply applyPlots_keeps
    | with_reducible apply applyPower_keeps
    | with_reducible apply applyQuotas_keeps
    | with_reducible apply applyReg_keeps
    | with_reducible apply applyReserve_keeps
    | with_reducible apply applySecurity_keeps
    | with_reducible apply applySilo_keeps
    | split
    | (conv => (arg 3; arg 29)
       refine Keeps.mk' ?_ rfl rfl rfl rfl rfl rfl rfl
        (fun q hn => by cases q <;> first | exact rfl | exact ⟨rfl, rfl⟩ | exact absurd (by assumption) hn))

theorem applyBoot_keeps (g : List Byte) (h : Keeps ps s u) (hregs : Part.regs ∈ ps) (hplots : Part.plots ∈ ps) (hvt : Part.vt ∈ ps) (hcfg : Part.cfg ∈ ps) :
    Keeps ps s (applyBoot g u) := by
  unfold applyBoot
  repeat' first
    | with_reducible assumption
    | with_reducible intro _
    | with_reducible apply applySection_keeps
    | with_reducible apply Keeps.foldl
    | split

theorem takeAmend_keeps (g : List Byte) (r : Option ImgRes) (h : Keeps ps s u) (hcfg : Part.cfg ∈ ps) :
    Keeps ps s (takeAmend g r u) := by
  unfold takeAmend
  repeat' first
    | with_reducible assumption
    | split
    | (conv => (arg 3; arg 29)
       refine Keeps.mk' ?_ rfl rfl rfl rfl rfl rfl rfl
        (fun q hn => by cases q <;> first | exact rfl | exact ⟨rfl, rfl⟩ | exact absurd (by assumption) hn))

theorem presentRead_keeps (h : Keeps ps s u) (hregs : Part.regs ∈ ps) (hpci : Part.pci ∈ ps) :
    Keeps ps s (presentRead u) := by
  unfold presentRead
  repeat' first
    | with_reducible assumption
    | with_reducible apply State.set_keeps
    | with_reducible apply pciNote_keeps
    | split
    | dsimp only
    | (conv => (arg 3; arg 29)
       refine Keeps.mk' ?_ rfl rfl rfl rfl rfl rfl rfl
        (fun q hn => by cases q <;> first | exact rfl | exact ⟨rfl, rfl⟩ | exact absurd (by assumption) hn))

theorem presentImage_keeps (h : Keeps ps s u) (hregs : Part.regs ∈ ps) (hpci : Part.pci ∈ ps) :
    Keeps ps s (presentImage u) := by
  unfold presentImage
  repeat' first
    | with_reducible assumption
    | with_reducible apply presentRead_keeps
    | split

theorem imageCheck_keeps (h : Keeps ps s u) (hregs : Part.regs ∈ ps) (hcfg : Part.cfg ∈ ps) (hpci : Part.pci ∈ ps) :
    Keeps ps s (imageCheck u) := by
  unfold imageCheck
  repeat' first
    | with_reducible assumption
    | with_reducible apply State.set_keeps
    | with_reducible apply noteCheck_keeps
    | with_reducible apply takeAmend_keeps
    | split
    | (conv => (arg 3; arg 29)
       refine Keeps.mk' ?_ rfl rfl rfl rfl rfl rfl rfl
        (fun q hn => by cases q <;> first | exact rfl | exact ⟨rfl, rfl⟩ | exact absurd (by assumption) hn))

end Sys2Proof.Machine
end

