-- ==== Sys2Proof/Laws/KeepsAlmanac.lean ====
section
/-!
SUPPORT. What each operation of Machine/Almanac.lean keeps (Laws/Keeps.lean), and the parts of State it may change.
-/
namespace Sys2Proof.Machine

set_option linter.unreachableTactic false
set_option linter.unusedTactic false
set_option linter.tactic.unusedName false

variable {ps : List Part} {s u : State}

theorem almAdvance_keeps (cycles : Nat) (h : Keeps ps s u) (hregs : Part.regs ∈ ps) :
    Keeps ps s (almAdvance cycles u) := by
  unfold almAdvance
  repeat' first
    | with_reducible assumption
    | with_reducible apply State.set_keeps

theorem almReport_keeps (code : Nat) (kind : Nat) (f : Fld) (h : Keeps ps s u) (hregs : Part.regs ∈ ps) (hcoal : Part.coal ∈ ps) :
    Keeps ps s (almReport code kind f u) := by
  unfold almReport
  repeat' first
    | with_reducible assumption
    | with_reducible apply State.raise_keeps
    | with_reducible apply State.report_keeps

theorem almSlew_keeps (e : Int) (h : Keeps ps s u) (hregs : Part.regs ∈ ps) :
    Keeps ps s (almSlew e u) := by
  unfold almSlew
  repeat' first
    | with_reducible assumption
    | with_reducible apply State.set_keeps

theorem almStep_keeps (h : Keeps ps s u) (hregs : Part.regs ∈ ps) (hcoal : Part.coal ∈ ps) :
    Keeps ps s (almStep u) := by
  unfold almStep
  repeat' first
    | with_reducible assumption
    | with_reducible apply State.set_keeps
    | with_reducible apply almReport_keeps

theorem almToFree_keeps (h : Keeps ps s u) (hregs : Part.regs ∈ ps) (htim : Part.tim ∈ ps) :
    Keeps ps s (almToFree u) := by
  unfold almToFree
  repeat' first
    | with_reducible assumption
    | with_reducible apply State.set_keeps
    | dsimp only
    | (conv => (arg 3; arg 29)
       refine Keeps.mk' ?_ rfl rfl rfl rfl rfl rfl rfl
        (fun q hn => by cases q <;> first | exact rfl | exact ⟨rfl, rfl⟩ | exact absurd (by assumption) hn))

theorem almMissed_keeps (h : Keeps ps s u) (hregs : Part.regs ∈ ps) (hcoal : Part.coal ∈ ps) (htim : Part.tim ∈ ps) :
    Keeps ps s (almMissed u) := by
  unfold almMissed
  repeat' first
    | with_reducible assumption
    | with_reducible apply State.set_keeps
    | with_reducible apply almReport_keeps
    | with_reducible apply almToFree_keeps
    | split
    | dsimp only
    | (conv => (arg 3; arg 29)
       refine Keeps.mk' ?_ rfl rfl rfl rfl rfl rfl rfl
        (fun q hn => by cases q <;> first | exact rfl | exact ⟨rfl, rfl⟩ | exact absurd (by assumption) hn))

theorem almNote_keeps (e : Int) (h : Keeps ps s u) (hfree : Part.free ∈ ps) (hregs : Part.regs ∈ ps) :
    Keeps ps s (almNote e u) := by
  unfold almNote
  repeat' first
    | with_reducible assumption
    | with_reducible apply State.drawWord_keeps
    | with_reducible apply State.set_keeps
    | split

theorem almAcquireEdge_keeps (e : Int) (h : Keeps ps s u) (hfree : Part.free ∈ ps) (hregs : Part.regs ∈ ps) (hcoal : Part.coal ∈ ps) (htim : Part.tim ∈ ps) :
    Keeps ps s (almAcquireEdge e u) := by
  unfold almAcquireEdge
  repeat' first
    | with_reducible assumption
    | with_reducible apply State.set_keeps
    | with_reducible apply almNote_keeps
    | with_reducible apply almSlew_keeps
    | with_reducible apply almStep_keeps
    | split
    | dsimp only
    | (conv => (arg 3; arg 29)
       refine Keeps.mk' ?_ rfl rfl rfl rfl rfl rfl rfl
        (fun q hn => by cases q <;> first | exact rfl | exact ⟨rfl, rfl⟩ | exact absurd (by assumption) hn))

theorem almSyncEdge_keeps (h : Keeps ps s u) (hfree : Part.free ∈ ps) (hregs : Part.regs ∈ ps) (hcoal : Part.coal ∈ ps) (htim : Part.tim ∈ ps) :
    Keeps ps s (almSyncEdge u) := by
  unfold almSyncEdge
  repeat' first
    | with_reducible assumption
    | with_reducible apply State.set_keeps
    | with_reducible apply almAcquireEdge_keeps
    | with_reducible apply almMissed_keeps
    | with_reducible apply almNote_keeps
    | with_reducible apply almReport_keeps
    | with_reducible apply almSlew_keeps
    | with_reducible apply almToFree_keeps
    | split
    | dsimp only
    | (conv => (arg 3; arg 29)
       refine Keeps.mk' ?_ rfl rfl rfl rfl rfl rfl rfl
        (fun q hn => by cases q <;> first | exact rfl | exact ⟨rfl, rfl⟩ | exact absurd (by assumption) hn))

theorem missedEdge_keeps (h : Keeps ps s u) (hregs : Part.regs ∈ ps) (hcoal : Part.coal ∈ ps) (htim : Part.tim ∈ ps) :
    Keeps ps s (missedEdge u) := by
  unfold missedEdge
  repeat' first
    | with_reducible assumption
    | with_reducible apply State.set_keeps
    | with_reducible apply almMissed_keeps
    | split
    | dsimp only
    | (conv => (arg 3; arg 29)
       refine Keeps.mk' ?_ rfl rfl rfl rfl rfl rfl rfl
        (fun q hn => by cases q <;> first | exact rfl | exact ⟨rfl, rfl⟩ | exact absurd (by assumption) hn))

theorem almToAcquire_keeps (h : Keeps ps s u) (hregs : Part.regs ∈ ps) (htim : Part.tim ∈ ps) :
    Keeps ps s (almToAcquire u) := by
  unfold almToAcquire
  repeat' first
    | with_reducible assumption
    | with_reducible apply State.set_keeps
    | dsimp only
    | (conv => (arg 3; arg 29)
       refine Keeps.mk' ?_ rfl rfl rfl rfl rfl rfl rfl
        (fun q hn => by cases q <;> first | exact rfl | exact ⟨rfl, rfl⟩ | exact absurd (by assumption) hn))

theorem almNextWrite_keeps (v : Word) (h : Keeps ps s u) (hregs : Part.regs ∈ ps) (htim : Part.tim ∈ ps) :
    Keeps ps s (almNextWrite v u) := by
  unfold almNextWrite
  repeat' first
    | with_reducible assumption
    | with_reducible apply State.set_keeps
    | with_reducible apply almToAcquire_keeps
    | split
    | dsimp only
    | (conv => (arg 3; arg 29)
       refine Keeps.mk' ?_ rfl rfl rfl rfl rfl rfl rfl
        (fun q hn => by cases q <;> first | exact rfl | exact ⟨rfl, rfl⟩ | exact absurd (by assumption) hn))

theorem almSyncWrite_keeps (v : Word) (h : Keeps ps s u) (hregs : Part.regs ∈ ps) (htim : Part.tim ∈ ps) :
    Keeps ps s (almSyncWrite v u) := by
  unfold almSyncWrite
  repeat' first
    | with_reducible assumption
    | with_reducible apply State.set_keeps
    | with_reducible apply almToAcquire_keeps
    | with_reducible apply almToFree_keeps
    | split

theorem openEvent_keeps (cause : Nat) (h : Keeps ps s u) (hregs : Part.regs ∈ ps) (hpwr : Part.pwr ∈ ps) :
    Keeps ps s (openEvent cause u) := by
  unfold openEvent
  repeat' first
    | with_reducible assumption
    | with_reducible apply State.bbWrite_keeps
    | with_reducible apply State.raise_keeps
    | with_reducible apply State.set_keeps
    | dsimp only
    | (conv => (arg 3; arg 29)
       refine Keeps.mk' ?_ rfl rfl rfl rfl rfl rfl rfl
        (fun q hn => by cases q <;> first | exact rfl | exact ⟨rfl, rfl⟩ | exact absurd (by assumption) hn))

theorem showDuties_keeps (h : Keeps ps s u) (hregs : Part.regs ∈ ps) :
    Keeps ps s (showDuties u) := by
  unfold showDuties
  repeat' first
    | with_reducible assumption
    | with_reducible intro _
    | with_reducible apply State.set_keeps
    | with_reducible apply Keeps.foldl

theorem setCuts_keeps (q : Nat) (cuts : List Cut) (h : Keeps ps s u) (hregs : Part.regs ∈ ps) (hpwr : Part.pwr ∈ ps) :
    Keeps ps s (setCuts q cuts u) := by
  unfold setCuts
  repeat' first
    | with_reducible assumption
    | with_reducible apply State.set_keeps
    | with_reducible apply showDuties_keeps
    | (conv => (arg 3; arg 29)
       refine Keeps.mk' ?_ rfl rfl rfl rfl rfl rfl rfl
        (fun q hn => by cases q <;> first | exact rfl | exact ⟨rfl, rfl⟩ | exact absurd (by assumption) hn))

theorem putCuts_keeps (src : Nat) (cause : Nat) (cuts : List Cut) (h : Keeps ps s u) (hregs : Part.regs ∈ ps) (hpwr : Part.pwr ∈ ps) :
    Keeps ps s (putCuts src cause cuts u) := by
  unfold putCuts
  repeat' first
    | with_reducible assumption
    | with_reducible apply openEvent_keeps
    | with_reducible apply setCuts_keeps
    | split

theorem throttleOpen_keeps (cause : Nat) (dies : List Nat) (duty : Nat) (h : Keeps ps s u) (hregs : Part.regs ∈ ps) (hpwr : Part.pwr ∈ ps) :
    Keeps ps s (throttleOpen cause dies duty u) := by
  unfold throttleOpen
  repeat' first
    | with_reducible assumption
    | with_reducible apply openEvent_keeps
    | with_reducible apply setCuts_keeps
    | with_reducible apply Keeps.ite

theorem throttleClose_keeps (h : Keeps ps s u) (hfree : Part.free ∈ ps) (hregs : Part.regs ∈ ps) (hpwr : Part.pwr ∈ ps) :
    Keeps ps s (throttleClose u) := by
  unfold throttleClose
  repeat' first
    | with_reducible assumption
    | with_reducible intro _
    | with_reducible apply State.drawWord_keeps
    | with_reducible apply State.set_keeps
    | with_reducible apply Keeps.foldl
    | split
    | dsimp only
    | (conv => (arg 3; arg 29)
       refine Keeps.mk' ?_ rfl rfl rfl rfl rfl rfl rfl
        (fun q hn => by cases q <;> first | exact rfl | exact ⟨rfl, rfl⟩ | exact absurd (by assumption) hn))

theorem modeRefused_keeps (h : Keeps ps s u) (hregs : Part.regs ∈ ps) :
    Keeps ps s (modeRefused u) := by
  unfold modeRefused
  repeat' first
    | with_reducible assumption
    | with_reducible apply State.set_keeps

theorem announce_keeps (ep : Nat) (h : Keeps ps s u) (hregs : Part.regs ∈ ps) (hcfg : Part.cfg ∈ ps) :
    Keeps ps s (announce ep u) := by
  unfold announce
  repeat' first
    | with_reducible assumption
    | with_reducible apply State.set_keeps
    | with_reducible apply modeRefused_keeps
    | split
    | dsimp only
    | (conv => (arg 3; arg 29)
       refine Keeps.mk' ?_ rfl rfl rfl rfl rfl rfl rfl
        (fun q hn => by cases q <;> first | exact rfl | exact ⟨rfl, rfl⟩ | exact absurd (by assumption) hn))

theorem modeLate_keeps (h : Keeps ps s u) (hregs : Part.regs ∈ ps) (hcoal : Part.coal ∈ ps) :
    Keeps ps s (modeLate u) := by
  unfold modeLate
  repeat' first
    | with_reducible assumption
    | with_reducible apply State.raise_keeps
    | with_reducible apply State.report_keeps
    | with_reducible apply State.set_keeps

theorem guardDeadline_keeps (h : Keeps ps s u) (hregs : Part.regs ∈ ps) (hcoal : Part.coal ∈ ps) :
    Keeps ps s (guardDeadline u) := by
  unfold guardDeadline
  repeat' first
    | with_reducible assumption
    | with_reducible apply modeLate_keeps
    | split

theorem modeStage_keeps (h : Keeps ps s u) (hregs : Part.regs ∈ ps) (hcoal : Part.coal ∈ ps) (hvt : Part.vt ∈ ps) (hlinks : Part.links ∈ ps) (hcfg : Part.cfg ∈ ps) :
    Keeps ps s (modeStage u) := by
  unfold modeStage
  repeat' first
    | with_reducible assumption
    | with_reducible apply State.set_keeps
    | with_reducible apply guardDeadline_keeps
    | with_reducible apply modeRefused_keeps
    | with_reducible apply stageRoute_keeps
    | split
    | dsimp only
    | (conv => (arg 3; arg 29)
       refine Keeps.mk' ?_ rfl rfl rfl rfl rfl rfl rfl
        (fun q hn => by cases q <;> first | exact rfl | exact ⟨rfl, rfl⟩ | exact absurd (by assumption) hn))

theorem endChange_keeps (h : Keeps ps s u) (hcfg : Part.cfg ∈ ps) :
    Keeps ps s (endChange u) := by
  unfold endChange
  repeat' first
    | with_reducible assumption
    | (conv => (arg 3; arg 29)
       refine Keeps.mk' ?_ rfl rfl rfl rfl rfl rfl rfl
        (fun q hn => by cases q <;> first | exact rfl | exact ⟨rfl, rfl⟩ | exact absurd (by assumption) hn))

theorem modeCancel_keeps (h : Keeps ps s u) (hregs : Part.regs ∈ ps) (hvt : Part.vt ∈ ps) (hcfg : Part.cfg ∈ ps) :
    Keeps ps s (modeCancel u) := by
  unfold modeCancel
  repeat' first
    | with_reducible assumption
    | with_reducible apply State.set_keeps
    | with_reducible apply endChange_keeps
    | with_reducible apply modeRefused_keeps
    | with_reducible apply unstageRoute_keeps
    | with_reducible apply Keeps.ite

theorem applyAmend_keeps (g : List Byte) (h : Keeps ps s u) (hregs : Part.regs ∈ ps) (hvt : Part.vt ∈ ps) (hsec : Part.sec ∈ ps) (hcfg : Part.cfg ∈ ps) :
    Keeps ps s (applyAmend g u) := by
  unfold applyAmend
  repeat' first
    | with_reducible assumption
    | with_reducible apply applyQuotas_keeps
    | with_reducible apply applyReg_keeps
    | with_reducible apply applyRoute_keeps
    | with_reducible apply setMeas_keeps
    | split
    | (conv => (arg 3; arg 29)
       refine Keeps.mk' ?_ rfl rfl rfl rfl rfl rfl rfl
        (fun q hn => by cases q <;> first | exact rfl | exact ⟨rfl, rfl⟩ | exact absurd (by assumption) hn))

theorem modeApply_keeps (h : Keeps ps s u) (hregs : Part.regs ∈ ps) (hvt : Part.vt ∈ ps) (hsec : Part.sec ∈ ps) (hcfg : Part.cfg ∈ ps) :
    Keeps ps s (modeApply u) := by
  unfold modeApply
  repeat' first
    | with_reducible assumption
    | with_reducible apply State.raise_keeps
    | with_reducible apply State.set_keeps
    | with_reducible apply applyAmend_keeps
    | with_reducible apply endChange_keeps
    | split

theorem modeWindowEnd_keeps (h : Keeps ps s u) (hregs : Part.regs ∈ ps) :
    Keeps ps s (modeWindowEnd u) := by
  unfold modeWindowEnd
  repeat' first
    | with_reducible assumption
    | with_reducible apply State.set_keeps
    | split

end Sys2Proof.Machine
end

