-- ==== Sys2Proof/Laws/KeepsReliability.lean ====
section
/-!
SUPPORT. What each operation of Machine/Reliability.lean keeps (Laws/Keeps.lean), and the parts of State it may change.
-/
namespace Sys2Proof.Machine

set_option linter.unreachableTactic false
set_option linter.unusedTactic false
set_option linter.tactic.unusedName false

variable {ps : List Part} {s u : State}

theorem imgReadFail_keeps (code : Nat) (h : Keeps ps s u) (hregs : Part.regs ∈ ps) (hpci : Part.pci ∈ ps) :
    Keeps ps s (imgReadFail code u) := by
  unfold imgReadFail
  repeat' first
    | with_reducible assumption
    | with_reducible apply State.set_keeps
    | dsimp only
    | (conv => (arg 3; arg 29)
       refine Keeps.mk' ?_ rfl rfl rfl rfl rfl rfl rfl
        (fun q hn => by cases q <;> first | exact rfl | exact ⟨rfl, rfl⟩ | exact absurd (by assumption) hn))

theorem modReadFail_keeps (h : Keeps ps s u) (hregs : Part.regs ∈ ps) (hmem : Part.mem ∈ ps) (hpoison : Part.poison ∈ ps) (hsilo : Part.silo ∈ ps) (hmodel : Part.model ∈ ps) (hhbms : Part.hbms ∈ ps) (hpci : Part.pci ∈ ps) :
    Keeps ps s (modReadFail u) := by
  unfold modReadFail
  repeat' first
    | with_reducible assumption
    | with_reducible apply modelFail_keeps

theorem hostLost_keeps (h : Keeps ps s u) (hregs : Part.regs ∈ ps) (hmem : Part.mem ∈ ps) (hpoison : Part.poison ∈ ps) (hsilo : Part.silo ∈ ps) (hmodel : Part.model ∈ ps) (hhbms : Part.hbms ∈ ps) (hpci : Part.pci ∈ ps) :
    Keeps ps s (hostLost u) := by
  unfold hostLost
  repeat' first
    | with_reducible assumption
    | with_reducible apply imgReadFail_keeps
    | with_reducible apply modReadFail_keeps
    | with_reducible apply pciNote_keeps
    | with_reducible apply Keeps.ite

theorem linkZero_keeps (h : Keeps ps s u) (hregs : Part.regs ∈ ps) :
    Keeps ps s (linkZero u) := by
  unfold linkZero
  repeat' first
    | with_reducible assumption
    | with_reducible apply State.set_keeps

theorem fenceAll_keeps (h : Keeps ps s u) (hfree : Part.free ∈ ps) (hregs : Part.regs ∈ ps) (hmem : Part.mem ∈ ps) (hpoison : Part.poison ∈ ps) (hcores : Part.cores ∈ ps) (hcoal : Part.coal ∈ ps) (hvt : Part.vt ∈ ps) (hlinks : Part.links ∈ ps) (hsilo : Part.silo ∈ ps) (hmodel : Part.model ∈ ps) (hhbms : Part.hbms ∈ ps) (hsec : Part.sec ∈ ps) (hpci : Part.pci ∈ ps) :
    Keeps ps s (fenceAll u) := by
  unfold fenceAll
  repeat' first
    | with_reducible assumption
    | with_reducible intro _
    | (extract_lets +onlyGivenNames t
       first
       | (refine Keeps.gen ps s t ?_ ?_
          on_goal 1 => subst t
          on_goal 2 => (intro ht; clear_value t))
       | clear_value t)
    | with_reducible apply eraseModelKey_keeps
    | with_reducible apply fenceCoreWithDie_keeps
    | with_reducible apply hostLost_keeps
    | with_reducible apply leaveUp_keeps
    | with_reducible apply linkZero_keeps
    | with_reducible apply Keeps.foldl
    | with_reducible apply Keeps.foldlP
    | with_reducible apply Keeps.ite
    | split
    | (conv => (arg 3; arg 29)
       refine Keeps.mk' ?_ rfl rfl rfl rfl rfl rfl rfl
        (fun q hn => by cases q <;> first | exact rfl | exact ⟨rfl, rfl⟩ | exact absurd (by assumption) hn))

theorem partFence_keeps (code : Nat) (die : Nat) (sub : Nat) (detail : Nat) (h : Keeps ps s u) (hfree : Part.free ∈ ps) (hregs : Part.regs ∈ ps) (hmem : Part.mem ∈ ps) (hpoison : Part.poison ∈ ps) (hcores : Part.cores ∈ ps) (hcoal : Part.coal ∈ ps) (hvt : Part.vt ∈ ps) (hlinks : Part.links ∈ ps) (hsilo : Part.silo ∈ ps) (hmodel : Part.model ∈ ps) (hhbms : Part.hbms ∈ ps) (hsec : Part.sec ∈ ps) (hpci : Part.pci ∈ ps) :
    Keeps ps s (partFence code die sub detail u) := by
  unfold partFence
  repeat' first
    | with_reducible assumption
    | with_reducible apply State.bbFreeze_keeps
    | with_reducible apply State.faultRecord_keeps
    | with_reducible apply fenceAll_keeps
    | with_reducible apply Keeps.ite

theorem dieFence_keeps (d : Nat) (code : Nat) (die : Nat) (sub : Nat) (detail : Nat) (h : Keeps ps s u) (hfree : Part.free ∈ ps) (hregs : Part.regs ∈ ps) (hmem : Part.mem ∈ ps) (hpoison : Part.poison ∈ ps) (hcores : Part.cores ∈ ps) (hcoal : Part.coal ∈ ps) (hvt : Part.vt ∈ ps) (hlinks : Part.links ∈ ps) (hsilo : Part.silo ∈ ps) (hmodel : Part.model ∈ ps) (hhbms : Part.hbms ∈ ps) (hsec : Part.sec ∈ ps) (hpci : Part.pci ∈ ps) :
    Keeps ps s (dieFence d code die sub detail u) := by
  unfold dieFence
  repeat' first
    | with_reducible assumption
    | with_reducible intro _
    | with_reducible apply State.faultRecord_keeps
    | with_reducible apply fenceCoreWithDie_keeps
    | with_reducible apply partFence_keeps
    | with_reducible apply portDown_keeps
    | with_reducible apply Keeps.foldl
    | with_reducible apply Keeps.foldlP
    | with_reducible apply Keeps.ite
    | split
    | dsimp only

theorem pnetParityFail_keeps (k : Nat) (n : Nat) (again : Bool) (h : Keeps ps s u) (hfree : Part.free ∈ ps) (hregs : Part.regs ∈ ps) (hmem : Part.mem ∈ ps) (hpoison : Part.poison ∈ ps) (hcores : Part.cores ∈ ps) (hcoal : Part.coal ∈ ps) (hvt : Part.vt ∈ ps) (hlinks : Part.links ∈ ps) (hsilo : Part.silo ∈ ps) (hmodel : Part.model ∈ ps) (hhbms : Part.hbms ∈ ps) (hsec : Part.sec ∈ ps) (hpci : Part.pci ∈ ps) (hrel : Part.rel ∈ ps) :
    Keeps ps s (pnetParityFail k n again u) := by
  unfold pnetParityFail
  repeat' first
    | with_reducible assumption
    | with_reducible apply State.report_keeps
    | with_reducible apply dieFence_keeps
    | with_reducible apply partFence_keeps
    | split
    | dsimp only
    | (conv => (arg 3; arg 29)
       refine Keeps.mk' ?_ rfl rfl rfl rfl rfl rfl rfl
        (fun q hn => by cases q <;> first | exact rfl | exact ⟨rfl, rfl⟩ | exact absurd (by assumption) hn))

theorem watchdogExpiry_keeps (d : Nat) (h : Keeps ps s u) (hfree : Part.free ∈ ps) (hregs : Part.regs ∈ ps) (hmem : Part.mem ∈ ps) (hpoison : Part.poison ∈ ps) (hcores : Part.cores ∈ ps) (hcoal : Part.coal ∈ ps) (hvt : Part.vt ∈ ps) (hlinks : Part.links ∈ ps) (hsilo : Part.silo ∈ ps) (hmodel : Part.model ∈ ps) (hhbms : Part.hbms ∈ ps) (hsec : Part.sec ∈ ps) (hpci : Part.pci ∈ ps) :
    Keeps ps s (watchdogExpiry d u) := by
  unfold watchdogExpiry
  repeat' first
    | with_reducible assumption
    | with_reducible apply dieFence_keeps
    | split

theorem clockLoss_keeps (d : Nat) (h : Keeps ps s u) (hfree : Part.free ∈ ps) (hregs : Part.regs ∈ ps) (hmem : Part.mem ∈ ps) (hpoison : Part.poison ∈ ps) (hcores : Part.cores ∈ ps) (hcoal : Part.coal ∈ ps) (hvt : Part.vt ∈ ps) (hlinks : Part.links ∈ ps) (hsilo : Part.silo ∈ ps) (hmodel : Part.model ∈ ps) (hhbms : Part.hbms ∈ ps) (hsec : Part.sec ∈ ps) (hpci : Part.pci ∈ ps) :
    Keeps ps s (clockLoss d u) := by
  unfold clockLoss
  repeat' first
    | with_reducible assumption
    | with_reducible apply dieFence_keeps
    | split

theorem hbmInterfaceLoss_keeps (m : Nat) (h : Keeps ps s u) (hfree : Part.free ∈ ps) (hregs : Part.regs ∈ ps) (hmem : Part.mem ∈ ps) (hpoison : Part.poison ∈ ps) (hcores : Part.cores ∈ ps) (hcoal : Part.coal ∈ ps) (hvt : Part.vt ∈ ps) (hlinks : Part.links ∈ ps) (hsilo : Part.silo ∈ ps) (hmodel : Part.model ∈ ps) (hhbms : Part.hbms ∈ ps) (hsec : Part.sec ∈ ps) (hpci : Part.pci ∈ ps) :
    Keeps ps s (hbmInterfaceLoss m u) := by
  unfold hbmInterfaceLoss
  repeat' first
    | with_reducible assumption
    | with_reducible apply dieFence_keeps
    | split

theorem State.resetRegs_keeps (lo hi : Nat) (h : Keeps ps s u) (hregs : Part.regs ∈ ps) : Keeps ps s (u.resetRegs lo hi) :=
  Keeps.filterRegs _ h hregs

theorem zeroAccs_keeps (p a : Nat) (h : Keeps ps s u) (haccs : Part.accs ∈ ps) : Keeps ps s (zeroAccs p a u) :=
  Keeps.filterAccs _ h haccs

theorem engineUp_keeps (p : Nat) (e : Nat) (h : Keeps ps s u) (hregs : Part.regs ∈ ps) (haccs : Part.accs ∈ ps) :
    Keeps ps s (engineUp p e u) := by
  unfold engineUp
  repeat' first
    | with_reducible assumption
    | with_reducible apply State.resetRegs_keeps
    | with_reducible apply State.set_keeps
    | with_reducible apply zeroAccs_keeps
    | split

theorem cleanCore_keeps (p : Nat) (h : Keeps ps s u) (hregs : Part.regs ∈ ps) (hpoison : Part.poison ∈ ps) :
    Keeps ps s (cleanCore p u) := State.set_keeps _ _ (Keeps.filterPoison _ h hpoison) hregs

theorem coreUp_keeps (p : Nat) (h : Keeps ps s u) (hfree : Part.free ∈ ps) (hregs : Part.regs ∈ ps) (hmem : Part.mem ∈ ps) (hpoison : Part.poison ∈ ps) (haccs : Part.accs ∈ ps) (hcores : Part.cores ∈ ps) :
    Keeps ps s (coreUp p u) := by
  unfold coreUp
  repeat' first
    | with_reducible assumption
    | with_reducible intro _
    | with_reducible apply Keeps.setCore
    | with_reducible apply State.resetRegs_keeps
    | with_reducible apply State.set_keeps
    | with_reducible apply State.unknownRange_keeps
    | with_reducible apply cleanCore_keeps
    | with_reducible apply engineUp_keeps
    | with_reducible apply Keeps.foldl
    | with_reducible apply Keeps.foldlP
    | split
    | dsimp only

theorem resetCoreRegs_keeps (p : Nat) (h : Keeps ps s u) (hregs : Part.regs ∈ ps) (hcores : Part.cores ∈ ps) :
    Keeps ps s (resetCoreRegs p u) := by
  unfold resetCoreRegs
  repeat' first
    | with_reducible assumption
    | with_reducible apply State.resetRegs_keeps
    | with_reducible apply Keeps.setWord
    | with_reducible apply setCorePlot_keeps
    | with_reducible apply Keeps.eraseCore

theorem dieUp_keeps (d : Nat) (h : Keeps ps s u) (hfree : Part.free ∈ ps) (hregs : Part.regs ∈ ps) (hmem : Part.mem ∈ ps) (hpoison : Part.poison ∈ ps) (haccs : Part.accs ∈ ps) (hcores : Part.cores ∈ ps) (hlinks : Part.links ∈ ps) :
    Keeps ps s (dieUp d u) := by
  unfold dieUp
  repeat' first
    | with_reducible assumption
    | with_reducible intro _
    | with_reducible apply State.resetRegs_keeps
    | with_reducible apply State.unknownRange_keeps
    | with_reducible apply coreUp_keeps
    | with_reducible apply enterState_keeps
    | with_reducible apply resetCoreRegs_keeps
    | with_reducible apply Keeps.foldl
    | split

theorem fenceCmd_keeps (level : Nat) (d : Nat) (sub : Nat) (h : Keeps ps s u) (hregs : Part.regs ∈ ps) (hrel : Part.rel ∈ ps) :
    Keeps ps s (fenceCmd level d sub u) := by
  unfold fenceCmd
  repeat' first
    | with_reducible assumption
    | with_reducible apply State.set_keeps
    | split
    | dsimp only
    | (conv => (arg 3; arg 29)
       refine Keeps.mk' ?_ rfl rfl rfl rfl rfl rfl rfl
        (fun q hn => by cases q <;> first | exact rfl | exact ⟨rfl, rfl⟩ | exact absurd (by assumption) hn))

theorem fenceReleaseEngine_keeps (d : Nat) (sub : Nat) (h : Keeps ps s u) (hregs : Part.regs ∈ ps) (hrel : Part.rel ∈ ps) :
    Keeps ps s (fenceReleaseEngine d sub u) := by
  unfold fenceReleaseEngine
  repeat' first
    | with_reducible assumption
    | with_reducible apply fenceCmd_keeps

theorem fenceReleaseCore_keeps (d : Nat) (sub : Nat) (h : Keeps ps s u) (hregs : Part.regs ∈ ps) (hrel : Part.rel ∈ ps) :
    Keeps ps s (fenceReleaseCore d sub u) := by
  unfold fenceReleaseCore
  repeat' first
    | with_reducible assumption
    | with_reducible apply fenceCmd_keeps

theorem fenceReleaseDie_keeps (d : Nat) (sub : Nat) (h : Keeps ps s u) (hregs : Part.regs ∈ ps) (hrel : Part.rel ∈ ps) :
    Keeps ps s (fenceReleaseDie d sub u) := by
  unfold fenceReleaseDie
  repeat' first
    | with_reducible assumption
    | with_reducible apply fenceCmd_keeps

theorem fenceReleaseDone_keeps (pass : Bool) (h : Keeps ps s u) (hfree : Part.free ∈ ps) (hregs : Part.regs ∈ ps) (hmem : Part.mem ∈ ps) (hpoison : Part.poison ∈ ps) (haccs : Part.accs ∈ ps) (hcores : Part.cores ∈ ps) (hlinks : Part.links ∈ ps) (hrel : Part.rel ∈ ps) :
    Keeps ps s (fenceReleaseDone pass u) := by
  unfold fenceReleaseDone
  repeat' first
    | with_reducible assumption
    | with_reducible apply State.set_keeps
    | with_reducible apply coreUp_keeps
    | with_reducible apply dieUp_keeps
    | with_reducible apply engineUp_keeps
    | split
    | dsimp only
    | (conv => (arg 3; arg 29)
       refine Keeps.mk' ?_ rfl rfl rfl rfl rfl rfl rfl
        (fun q hn => by cases q <;> first | exact rfl | exact ⟨rfl, rfl⟩ | exact absurd (by assumption) hn))

theorem takeHeld_keeps (p : Nat) (h : Keeps ps s u) (hregs : Part.regs ∈ ps) (hcores : Part.cores ∈ ps) :
    Keeps ps s (takeHeld p u) := by
  unfold takeHeld
  repeat' first
    | with_reducible assumption
    | with_reducible apply Keeps.setCore
    | with_reducible apply armCore_keeps
    | with_reducible apply runCore_keeps
    | with_reducible apply Keeps.ite

theorem substEnd_keeps (code : Nat) (detail : Nat) (exhausted : Nat) (h : Keeps ps s u) (hregs : Part.regs ∈ ps) :
    Keeps ps s (substEnd code detail exhausted u) := by
  unfold substEnd
  repeat' first
    | with_reducible assumption
    | with_reducible apply State.set_keeps

theorem substitute_keeps (p : Nat) (h : Keeps ps s u) (hregs : Part.regs ∈ ps) (hsubst : Part.subst ∈ ps) :
    Keeps ps s (substitute p u) := by
  unfold substitute
  repeat' first
    | with_reducible assumption
    | with_reducible apply State.set_keeps
    | with_reducible apply substEnd_keeps
    | split
    | dsimp only
    | (conv => (arg 3; arg 29)
       refine Keeps.mk' ?_ rfl rfl rfl rfl rfl rfl rfl
        (fun q hn => by cases q <;> first | exact rfl | exact ⟨rfl, rfl⟩ | exact absurd (by assumption) hn))

theorem substitutionStart_keeps (h : Keeps ps s u) (hregs : Part.regs ∈ ps) :
    Keeps ps s (substitutionStart u) := by
  unfold substitutionStart
  repeat' first
    | with_reducible assumption
    | with_reducible apply State.set_keeps
    | split

theorem exchangeCores_keeps (old : Nat) (new : Nat) (h : Keeps ps s u) (hregs : Part.regs ∈ ps) :
    Keeps ps s (exchangeCores old new u) := by
  unfold exchangeCores
  repeat' first
    | with_reducible assumption
    | with_reducible apply State.set_keeps
    | with_reducible apply setCorePlot_keeps

theorem substitutionComplete_keeps (pass : Bool) (h : Keeps ps s u) (hfree : Part.free ∈ ps) (hregs : Part.regs ∈ ps) (hmem : Part.mem ∈ ps) (hpoison : Part.poison ∈ ps) (haccs : Part.accs ∈ ps) (hcores : Part.cores ∈ ps) :
    Keeps ps s (substitutionComplete pass u) := by
  unfold substitutionComplete
  repeat' first
    | with_reducible assumption
    | with_reducible intro _
    | with_reducible apply State.bbWrite_keeps
    | with_reducible apply State.set_keeps
    | with_reducible apply coreUp_keeps
    | with_reducible apply exchangeCores_keeps
    | with_reducible apply substEnd_keeps
    | with_reducible apply takeHeld_keeps
    | with_reducible apply Keeps.ite
    | split
    | dsimp only

theorem unfreeze_keeps (h : Keeps ps s u) (hregs : Part.regs ∈ ps) :
    Keeps ps s (unfreeze u) := by
  unfold unfreeze
  repeat' first
    | with_reducible assumption
    | with_reducible apply State.set_keeps
    | split

theorem bbCopy_keeps (ok : Bool) (h : Keeps ps s u) (hregs : Part.regs ∈ ps) (hcoal : Part.coal ∈ ps) (hsilo : Part.silo ∈ ps) :
    Keeps ps s (bbCopy ok u) := by
  unfold bbCopy
  repeat' first
    | with_reducible assumption
    | with_reducible apply State.report_keeps
    | with_reducible apply State.set_keeps
    | split
    | (conv => (arg 3; arg 29)
       refine Keeps.mk' ?_ rfl rfl rfl rfl rfl rfl rfl
        (fun q hn => by cases q <;> first | exact rfl | exact ⟨rfl, rfl⟩ | exact absurd (by assumption) hn))

end Sys2Proof.Machine
end

