-- ==== Sys2Proof/Laws/KeepsHostPort.lean ====
section
/-!
SUPPORT. What each operation of Machine/HostPort.lean keeps (Laws/Keeps.lean), and the parts of State it may change.
-/
namespace Sys2Proof.Machine

set_option linter.unreachableTactic false
set_option linter.unusedTactic false
set_option linter.tactic.unusedName false

variable {ps : List Part} {s u : State}

theorem complete_keeps (status : Nat) (bs : List Byte) (h : Keeps ps s u) (hpci : Part.pci ∈ ps) :
    Keeps ps s (complete status bs u) := by
  unfold complete
  repeat' first
    | with_reducible assumption
    | (conv => (arg 3; arg 29)
       refine Keeps.mk' ?_ rfl rfl rfl rfl rfl rfl rfl
        (fun q hn => by cases q <;> first | exact rfl | exact ⟨rfl, rfl⟩ | exact absurd (by assumption) hn))

theorem bar4Read_keeps (x : Nat) (n : Nat) (h : Keeps ps s u) (hregs : Part.regs ∈ ps) (hpoison : Part.poison ∈ ps) (hhbms : Part.hbms ∈ ps) (hpci : Part.pci ∈ ps) :
    Keeps ps s (bar4Read x n u) := by
  unfold bar4Read
  repeat' first
    | with_reducible assumption
    | with_reducible intro _
    | with_reducible apply complete_keeps
    | with_reducible apply hbmFind_keeps
    | with_reducible apply noteRead_keeps
    | with_reducible apply noteRefused_keeps
    | with_reducible apply pciNote_keeps
    | with_reducible apply Keeps.ite
    | split
    | dsimp only

theorem bar4Write_keeps (x : Nat) (bs : List (Option Byte)) (poisoned : Bool) (h : Keeps ps s u) (hregs : Part.regs ∈ ps) (hmem : Part.mem ∈ ps) (hpoison : Part.poison ∈ ps) (hhbms : Part.hbms ∈ ps) (hpci : Part.pci ∈ ps) :
    Keeps ps s (bar4Write x bs poisoned u) := by
  unfold bar4Write
  repeat' first
    | with_reducible assumption
    | with_reducible intro _
    | with_reducible apply State.count_keeps
    | with_reducible apply State.setBytes_keeps
    | with_reducible apply accept_keeps
    | with_reducible apply charge_keeps
    | with_reducible apply dirty_keeps
    | with_reducible apply memWrite_keeps
    | with_reducible apply noteRefused_keeps
    | with_reducible apply pciNote_keeps
    | with_reducible apply Keeps.ite
    | split
    | dsimp only

theorem bar4BaseWrite_keeps (v : Word) (h : Keeps ps s u) (hregs : Part.regs ∈ ps) (hpci : Part.pci ∈ ps) :
    Keeps ps s (bar4BaseWrite v u) := by
  unfold bar4BaseWrite
  repeat' first
    | with_reducible assumption
    | with_reducible apply State.set_keeps
    | with_reducible apply pciNote_keeps
    | with_reducible apply Keeps.ite

theorem msixTrig_keeps (v : Word) (h : Keeps ps s u) (hpci : Part.pci ∈ ps) :
    Keeps ps s (msixTrig v u) := by
  unfold msixTrig
  repeat' first
    | with_reducible assumption
    | with_reducible apply msixRaise_keeps
    | split

theorem flrState_keeps (h : Keeps ps s u) (hregs : Part.regs ∈ ps) (hmem : Part.mem ∈ ps) (hpoison : Part.poison ∈ ps) (hsilo : Part.silo ∈ ps) (hmodel : Part.model ∈ ps) (hhbms : Part.hbms ∈ ps) (hpci : Part.pci ∈ ps) :
    Keeps ps s (flrState u) := by
  unfold flrState
  repeat' first
    | with_reducible assumption
    | with_reducible apply State.resetRegs_keeps
    | with_reducible apply hostLost_keeps
    | (conv => (arg 3; arg 29)
       refine Keeps.mk' ?_ rfl rfl rfl rfl rfl rfl rfl
        (fun q hn => by cases q <;> first | exact rfl | exact ⟨rfl, rfl⟩ | exact absurd (by assumption) hn))

theorem flr_keeps (h : Keeps ps s u) (hregs : Part.regs ∈ ps) (hmem : Part.mem ∈ ps) (hpoison : Part.poison ∈ ps) (hsilo : Part.silo ∈ ps) (hmodel : Part.model ∈ ps) (hhbms : Part.hbms ∈ ps) (hpci : Part.pci ∈ ps) :
    Keeps ps s (flr u) := by
  unfold flr
  repeat' first
    | with_reducible assumption
    | with_reducible apply State.raise_keeps
    | with_reducible apply flrState_keeps
    | split

theorem hotReset_keeps (h : Keeps ps s u) (hregs : Part.regs ∈ ps) (hmem : Part.mem ∈ ps) (hpoison : Part.poison ∈ ps) (hsilo : Part.silo ∈ ps) (hmodel : Part.model ∈ ps) (hhbms : Part.hbms ∈ ps) (hpci : Part.pci ∈ ps) :
    Keeps ps s (hotReset u) := by
  unfold hotReset
  repeat' first
    | with_reducible assumption
    | with_reducible apply State.raise_keeps
    | with_reducible apply flrState_keeps
    | with_reducible apply linkZero_keeps
    | split

theorem perstN_keeps (asserted : Bool) (h : Keeps ps s u) (hregs : Part.regs ∈ ps) (hmem : Part.mem ∈ ps) (hpoison : Part.poison ∈ ps) (hsilo : Part.silo ∈ ps) (hmodel : Part.model ∈ ps) (hhbms : Part.hbms ∈ ps) (hpci : Part.pci ∈ ps) :
    Keeps ps s (perstN asserted u) := by
  unfold perstN
  repeat' first
    | with_reducible assumption
    | with_reducible apply flrState_keeps
    | with_reducible apply linkZero_keeps
    | split
    | dsimp only
    | (conv => (arg 3; arg 29)
       refine Keeps.mk' ?_ rfl rfl rfl rfl rfl rfl rfl
        (fun q hn => by cases q <;> first | exact rfl | exact ⟨rfl, rfl⟩ | exact absurd (by assumption) hn))

theorem pcieLinkDown_keeps (h : Keeps ps s u) (hregs : Part.regs ∈ ps) (hmem : Part.mem ∈ ps) (hpoison : Part.poison ∈ ps) (hsilo : Part.silo ∈ ps) (hmodel : Part.model ∈ ps) (hhbms : Part.hbms ∈ ps) (hpci : Part.pci ∈ ps) :
    Keeps ps s (pcieLinkDown u) := by
  unfold pcieLinkDown
  repeat' first
    | with_reducible assumption
    | with_reducible apply hostLost_keeps
    | with_reducible apply linkZero_keeps
    | with_reducible apply pciNote_keeps
    | split

theorem pcieLinkUp_keeps (speed : Nat) (width : Nat) (flit : Bool) (h : Keeps ps s u) (hregs : Part.regs ∈ ps) (hcoal : Part.coal ∈ ps) (hpci : Part.pci ∈ ps) :
    Keeps ps s (pcieLinkUp speed width flit u) := by
  unfold pcieLinkUp
  repeat' first
    | with_reducible assumption
    | with_reducible apply State.report_keeps
    | with_reducible apply State.set_keeps
    | with_reducible apply pciNote_keeps
    | split

theorem pcieAtomicop_keeps (h : Keeps ps s u) (hpci : Part.pci ∈ ps) :
    Keeps ps s (pcieAtomicop u) := by
  unfold pcieAtomicop
  repeat' first
    | with_reducible assumption
    | with_reducible apply complete_keeps
    | split

theorem imgData_keeps (r : HostRead) (c : CplStat) (h : Keeps ps s u) (hfree : Part.free ∈ ps) (hregs : Part.regs ∈ ps) (hpci : Part.pci ∈ ps) :
    Keeps ps s (imgData r c u) := by
  unfold imgData
  repeat' first
    | with_reducible assumption
    | with_reducible apply State.drawWord_keeps
    | with_reducible apply imgReadFail_keeps
    | with_reducible apply pciNote_keeps
    | split
    | (conv => (arg 3; arg 29)
       refine Keeps.mk' ?_ rfl rfl rfl rfl rfl rfl rfl
        (fun q hn => by cases q <;> first | exact rfl | exact ⟨rfl, rfl⟩ | exact absurd (by assumption) hn))

theorem modData_keeps (r : HostRead) (c : CplStat) (h : Keeps ps s u) (hregs : Part.regs ∈ ps) (hmem : Part.mem ∈ ps) (hpoison : Part.poison ∈ ps) (hsilo : Part.silo ∈ ps) (hmodel : Part.model ∈ ps) (hhbms : Part.hbms ∈ ps) (hpci : Part.pci ∈ ps) :
    Keeps ps s (modData r c u) := by
  unfold modData
  repeat' first
    | with_reducible assumption
    | with_reducible apply modReadFail_keeps
    | with_reducible apply pciNote_keeps
    | split
    | dsimp only
    | (conv => (arg 3; arg 29)
       refine Keeps.mk' ?_ rfl rfl rfl rfl rfl rfl rfl
        (fun q hn => by cases q <;> first | exact rfl | exact ⟨rfl, rfl⟩ | exact absurd (by assumption) hn))

theorem hostReadCompletion_keeps (model : Bool) (c : CplStat) (h : Keeps ps s u) (hfree : Part.free ∈ ps) (hregs : Part.regs ∈ ps) (hmem : Part.mem ∈ ps) (hpoison : Part.poison ∈ ps) (hsilo : Part.silo ∈ ps) (hmodel : Part.model ∈ ps) (hhbms : Part.hbms ∈ ps) (hpci : Part.pci ∈ ps) :
    Keeps ps s (hostReadCompletion model c u) := by
  unfold hostReadCompletion
  repeat' first
    | with_reducible assumption
    | with_reducible apply imgData_keeps
    | with_reducible apply modData_keeps
    | split

theorem completionTimeout_keeps (model : Bool) (h : Keeps ps s u) (hregs : Part.regs ∈ ps) (hmem : Part.mem ∈ ps) (hpoison : Part.poison ∈ ps) (hsilo : Part.silo ∈ ps) (hmodel : Part.model ∈ ps) (hhbms : Part.hbms ∈ ps) (hpci : Part.pci ∈ ps) :
    Keeps ps s (completionTimeout model u) := by
  unfold completionTimeout
  repeat' first
    | with_reducible assumption
    | with_reducible apply imgReadFail_keeps
    | with_reducible apply modReadFail_keeps
    | with_reducible apply pciNote_keeps
    | split

theorem cfgRead_keeps (r : CfgReg) (h : Keeps ps s u) (hfree : Part.free ∈ ps) :
    Keeps ps s (cfgRead r u).2 := by
  unfold cfgRead
  repeat' first
    | with_reducible assumption
    | with_reducible apply State.drawWord_keeps
    | split

theorem cfgWrite_keeps (r : CfgReg) (v : Nat) (h : Keeps ps s u) (hregs : Part.regs ∈ ps) (hmem : Part.mem ∈ ps) (hpoison : Part.poison ∈ ps) (hsilo : Part.silo ∈ ps) (hmodel : Part.model ∈ ps) (hhbms : Part.hbms ∈ ps) (hpci : Part.pci ∈ ps) :
    Keeps ps s (cfgWrite r v u) := by
  unfold cfgWrite
  repeat' first
    | with_reducible assumption
    | with_reducible apply State.set_keeps
    | with_reducible apply flr_keeps
    | with_reducible apply msixUnmask_keeps
    | split
    | (conv => (arg 3; arg 29)
       refine Keeps.mk' ?_ rfl rfl rfl rfl rfl rfl rfl
        (fun q hn => by cases q <;> first | exact rfl | exact ⟨rfl, rfl⟩ | exact absurd (by assumption) hn))

theorem configAccess_keeps (r : CfgReg) (v : Option Word) (h : Keeps ps s u) (hfree : Part.free ∈ ps) (hregs : Part.regs ∈ ps) (hmem : Part.mem ∈ ps) (hpoison : Part.poison ∈ ps) (hsilo : Part.silo ∈ ps) (hmodel : Part.model ∈ ps) (hhbms : Part.hbms ∈ ps) (hpci : Part.pci ∈ ps) :
    Keeps ps s (configAccess r v u) := by
  unfold configAccess
  repeat' first
    | with_reducible assumption
    | with_reducible apply cfgRead_keeps
    | with_reducible apply cfgWrite_keeps
    | with_reducible apply complete_keeps
    | split

end Sys2Proof.Machine
end

