-- ==== Sys2Proof/Laws/KeepsSecurity.lean ====
section
/-!
SUPPORT. What each operation of Machine/Security.lean keeps (Laws/Keeps.lean), and the parts of State it may change.
-/
namespace Sys2Proof.Machine

set_option linter.unreachableTactic false
set_option linter.unusedTactic false
set_option linter.tactic.unusedName false

variable {ps : List Part} {s u : State}

theorem secRecord_keeps (code : Nat) (kind : Nat) (detail : Nat) (h : Keeps ps s u) (hregs : Part.regs ∈ ps) :
    Keeps ps s (secRecord code kind detail u) := by
  unfold secRecord
  repeat' first
    | with_reducible assumption
    | with_reducible apply State.bbWrite_keeps
    | with_reducible apply State.set_keeps

theorem measSecurity_keeps (h : Keeps ps s u) (hsec : Part.sec ∈ ps) :
    Keeps ps s (measSecurity u) := by
  unfold measSecurity
  repeat' first
    | with_reducible assumption
    | with_reducible apply setMeas_keeps

theorem keyErase_keeps (h : Keeps ps s u) (hregs : Part.regs ∈ ps) (hmodel : Part.model ∈ ps) (hsec : Part.sec ∈ ps) :
    Keeps ps s (keyErase u) := by
  unfold keyErase
  repeat' first
    | with_reducible assumption
    | with_reducible apply State.set_keeps
    | with_reducible apply eraseModelKey_keeps
    | with_reducible apply measSecurity_keeps
    | with_reducible apply setMeas_keeps
    | dsimp only
    | (conv => (arg 3; arg 29)
       refine Keeps.mk' ?_ rfl rfl rfl rfl rfl rfl rfl
        (fun q hn => by cases q <;> first | exact rfl | exact ⟨rfl, rfl⟩ | exact absurd (by assumption) hn))

theorem alarmRecord_keeps (i : Nat) (h : Keeps ps s u) (hregs : Part.regs ∈ ps) :
    Keeps ps s (alarmRecord i u) := by
  unfold alarmRecord
  repeat' first
    | with_reducible assumption
    | with_reducible apply State.raise_keeps
    | with_reducible apply secRecord_keeps

theorem alarmFence_keeps (i : Nat) (q : Nat) (h : Keeps ps s u) (hfree : Part.free ∈ ps) (hregs : Part.regs ∈ ps) (hmem : Part.mem ∈ ps) (hpoison : Part.poison ∈ ps) (hcores : Part.cores ∈ ps) (hcoal : Part.coal ∈ ps) (hvt : Part.vt ∈ ps) (hlinks : Part.links ∈ ps) (hsilo : Part.silo ∈ ps) (hmodel : Part.model ∈ ps) (hhbms : Part.hbms ∈ ps) (hsec : Part.sec ∈ ps) (hpci : Part.pci ∈ ps) :
    Keeps ps s (alarmFence i q u) := by
  unfold alarmFence
  repeat' first
    | with_reducible assumption
    | with_reducible apply State.bbFreeze_keeps
    | with_reducible apply State.putRecord_keeps
    | with_reducible apply State.set_keeps
    | with_reducible apply fenceAll_keeps
    | split
    | dsimp only
    | (conv => (arg 3; arg 29)
       refine Keeps.mk' ?_ rfl rfl rfl rfl rfl rfl rfl
        (fun q hn => by cases q <;> first | exact rfl | exact ⟨rfl, rfl⟩ | exact absurd (by assumption) hn))

theorem sensorFire_keeps (fired : List Nat) (h : Keeps ps s u) (hfree : Part.free ∈ ps) (hregs : Part.regs ∈ ps) (hmem : Part.mem ∈ ps) (hpoison : Part.poison ∈ ps) (hcores : Part.cores ∈ ps) (hcoal : Part.coal ∈ ps) (hvt : Part.vt ∈ ps) (hlinks : Part.links ∈ ps) (hsilo : Part.silo ∈ ps) (hmodel : Part.model ∈ ps) (hhbms : Part.hbms ∈ ps) (hsec : Part.sec ∈ ps) (hpci : Part.pci ∈ ps) :
    Keeps ps s (sensorFire fired u) := by
  unfold sensorFire
  repeat' first
    | with_reducible assumption
    | with_reducible intro _
    | (extract_lets +onlyGivenNames t
       first
       | (refine Keeps.gen ps s t ?_ ?_
          on_goal 1 => subst t
          on_goal 2 => (intro ht; clear_value t))
       | clear_value t)
    | with_reducible apply State.countSat_keeps
    | with_reducible apply State.set_keeps
    | with_reducible apply alarmFence_keeps
    | with_reducible apply alarmRecord_keeps
    | with_reducible apply keyErase_keeps
    | with_reducible apply Keeps.foldl
    | split

theorem scrub_keeps (h : Keeps ps s u) (hregs : Part.regs ∈ ps) (hmem : Part.mem ∈ ps) (hpoison : Part.poison ∈ ps) (haccs : Part.accs ∈ ps) (hhbms : Part.hbms ∈ ps) :
    Keeps ps s (scrub u) := by
  unfold scrub
  repeat' first
    | with_reducible assumption
    | with_reducible intro _
    | with_reducible apply zeroRange_keeps
    | with_reducible apply Keeps.clearAccs
    | with_reducible apply Keeps.foldl

theorem scrubDone_keeps (h : Keeps ps s u) (hregs : Part.regs ∈ ps) (hmem : Part.mem ∈ ps) (hpoison : Part.poison ∈ ps) (haccs : Part.accs ∈ ps) (hhbms : Part.hbms ∈ ps) :
    Keeps ps s (scrubDone u) := by
  unfold scrubDone
  repeat' first
    | with_reducible assumption
    | with_reducible apply State.set_keeps
    | with_reducible apply scrub_keeps
    | split

theorem jtagDebugRequest_keeps (h : Keeps ps s u) (hregs : Part.regs ∈ ps) (hsec : Part.sec ∈ ps) :
    Keeps ps s (jtagDebugRequest u) := by
  unfold jtagDebugRequest
  repeat' first
    | with_reducible assumption
    | with_reducible apply secRecord_keeps
    | split
    | (conv => (arg 3; arg 29)
       refine Keeps.mk' ?_ rfl rfl rfl rfl rfl rfl rfl
        (fun q hn => by cases q <;> first | exact rfl | exact ⟨rfl, rfl⟩ | exact absurd (by assumption) hn))

theorem drawWords_keeps (x0 : Nat) (h : Keeps ps s u) (hfree : Part.free ∈ ps) :
    Keeps ps s (drawWords x0 u).2 := by
  induction x0 generalizing u <;> unfold drawWords
  all_goals repeat' first
    | (with_reducible apply_assumption)
    | with_reducible apply State.drawWord_keeps

theorem getNonceOp_keeps (h : Keeps ps s u) (hfree : Part.free ∈ ps) (hsec : Part.sec ∈ ps) :
    Keeps ps s (getNonceOp u).2 := by
  unfold getNonceOp
  repeat' first
    | with_reducible assumption
    | with_reducible apply drawWords_keeps
    | dsimp only
    | (conv => (arg 3; arg 29)
       refine Keeps.mk' ?_ rfl rfl rfl rfl rfl rfl rfl
        (fun q hn => by cases q <;> first | exact rfl | exact ⟨rfl, rfl⟩ | exact absurd (by assumption) hn))

theorem useNonce_keeps (h : Keeps ps s u) (hsec : Part.sec ∈ ps) :
    Keeps ps s (useNonce u) := by
  unfold useNonce
  repeat' first
    | with_reducible assumption
    | (conv => (arg 3; arg 29)
       refine Keeps.mk' ?_ rfl rfl rfl rfl rfl rfl rfl
        (fun q hn => by cases q <;> first | exact rfl | exact ⟨rfl, rfl⟩ | exact absurd (by assumption) hn))

theorem provisionOp_keeps (sig : List Byte) (h : Keeps ps s u) (hfree : Part.free ∈ ps) (hregs : Part.regs ∈ ps) (hsec : Part.sec ∈ ps) :
    Keeps ps s (provisionOp sig u).2.2 := by
  unfold provisionOp
  repeat' first
    | with_reducible assumption
    | with_reducible apply State.raise_keeps
    | with_reducible apply State.set_keeps
    | with_reducible apply drawWords_keeps
    | with_reducible apply measSecurity_keeps
    | with_reducible apply setMeas_keeps
    | with_reducible apply useNonce_keeps
    | split
    | dsimp only
    | (conv => (arg 3; arg 29)
       refine Keeps.mk' ?_ rfl rfl rfl rfl rfl rfl rfl
        (fun q hn => by cases q <;> first | exact rfl | exact ⟨rfl, rfl⟩ | exact absurd (by assumption) hn))

theorem deprovisionOp_keeps (sig : List Byte) (h : Keeps ps s u) (hregs : Part.regs ∈ ps) (hmodel : Part.model ∈ ps) (hsec : Part.sec ∈ ps) :
    Keeps ps s (deprovisionOp sig u).2 := by
  unfold deprovisionOp
  repeat' first
    | with_reducible assumption
    | with_reducible apply State.raise_keeps
    | with_reducible apply keyErase_keeps
    | with_reducible apply secRecord_keeps
    | with_reducible apply useNonce_keeps
    | split

end Sys2Proof.Machine
end

