-- ==== Sys2Proof/Laws/KeepsPower.lean ====
section
/-!
SUPPORT. What each operation of Machine/Power.lean keeps (Laws/Keeps.lean), and the parts of State it may change.
-/
namespace Sys2Proof.Machine

set_option linter.unreachableTactic false
set_option linter.unusedTactic false
set_option linter.tactic.unusedName false

variable {ps : List Part} {s u : State}

theorem gateTo_keeps (target : Nat) (cause : Nat) (total : Nat) (h : Keeps ps s u) (hregs : Part.regs ∈ ps) (hpwr : Part.pwr ∈ ps) :
    Keeps ps s (gateTo target cause total u) := by
  unfold gateTo
  repeat' first
    | with_reducible assumption
    | with_reducible apply putCuts_keeps
    | dsimp only
    | (conv => (arg 3; arg 29)
       refine Keeps.mk' ?_ rfl rfl rfl rfl rfl rfl rfl
        (fun q hn => by cases q <;> first | exact rfl | exact ⟨rfl, rfl⟩ | exact absurd (by assumption) hn))

theorem stepCuts_keeps (up : Bool) (h : Keeps ps s u) (hregs : Part.regs ∈ ps) (hpwr : Part.pwr ∈ ps) :
    Keeps ps s (stepCuts up u) := by
  unfold stepCuts
  repeat' first
    | with_reducible assumption
    | with_reducible apply putCuts_keeps
    | with_reducible apply Keeps.ite

theorem excState_keeps (st : Nat) (h : Keeps ps s u) (hregs : Part.regs ∈ ps) :
    Keeps ps s (excState st u) := by
  unfold excState
  repeat' first
    | with_reducible assumption
    | with_reducible apply State.set_keeps

theorem powerSample_keeps (total : Nat) (mean : Nat) (dies : List Nat) (margin : Bool) (h : Keeps ps s u) (hregs : Part.regs ∈ ps) (hpwr : Part.pwr ∈ ps) :
    Keeps ps s (powerSample total mean dies margin u) := by
  unfold powerSample
  repeat' first
    | with_reducible assumption
    | with_reducible intro _
    | with_reducible apply State.countSat_keeps
    | with_reducible apply State.set_keeps
    | with_reducible apply excState_keeps
    | with_reducible apply gateTo_keeps
    | with_reducible apply stepCuts_keeps
    | with_reducible apply Keeps.ite
    | with_reducible apply Keeps.foldl

theorem excursionDeadline_keeps (h : Keeps ps s u) (hregs : Part.regs ∈ ps) (hpwr : Part.pwr ∈ ps) :
    Keeps ps s (excursionDeadline u) := by
  unfold excursionDeadline
  repeat' first
    | with_reducible assumption
    | with_reducible apply gateTo_keeps
    | split
    | dsimp only
    | (conv => (arg 3; arg 29)
       refine Keeps.mk' ?_ rfl rfl rfl rfl rfl rfl rfl
        (fun q hn => by cases q <;> first | exact rfl | exact ⟨rfl, rfl⟩ | exact absurd (by assumption) hn))

theorem excursionEnd_keeps (h : Keeps ps s u) (hregs : Part.regs ∈ ps) (hpwr : Part.pwr ∈ ps) :
    Keeps ps s (excursionEnd u) := by
  unfold excursionEnd
  repeat' first
    | with_reducible assumption
    | with_reducible apply excState_keeps
    | split
    | dsimp only
    | (conv => (arg 3; arg 29)
       refine Keeps.mk' ?_ rfl rfl rfl rfl rfl rfl rfl
        (fun q hn => by cases q <;> first | exact rfl | exact ⟨rfl, rfl⟩ | exact absurd (by assumption) hn))

theorem holdOffEnd_keeps (h : Keeps ps s u) (hregs : Part.regs ∈ ps) (hpwr : Part.pwr ∈ ps) :
    Keeps ps s (holdOffEnd u) := by
  unfold holdOffEnd
  repeat' first
    | with_reducible assumption
    | with_reducible apply excState_keeps
    | with_reducible apply putCuts_keeps
    | split
    | dsimp only
    | (conv => (arg 3; arg 29)
       refine Keeps.mk' ?_ rfl rfl rfl rfl rfl rfl rfl
        (fun q hn => by cases q <;> first | exact rfl | exact ⟨rfl, rfl⟩ | exact absurd (by assumption) hn))

theorem pwrMgtDutyWrite_keeps (v : Word) (h : Keeps ps s u) (hregs : Part.regs ∈ ps) (hpwr : Part.pwr ∈ ps) :
    Keeps ps s (pwrMgtDutyWrite v u) := by
  unfold pwrMgtDutyWrite
  repeat' first
    | with_reducible assumption
    | with_reducible apply State.set_keeps
    | with_reducible apply putCuts_keeps

theorem tripPart_keeps (code : Nat) (die : Nat) (detail : Nat) (f : Fld) (h : Keeps ps s u) (hfree : Part.free ∈ ps) (hregs : Part.regs ∈ ps) (hmem : Part.mem ∈ ps) (hpoison : Part.poison ∈ ps) (hcores : Part.cores ∈ ps) (hcoal : Part.coal ∈ ps) (hvt : Part.vt ∈ ps) (hlinks : Part.links ∈ ps) (hsilo : Part.silo ∈ ps) (hmodel : Part.model ∈ ps) (hhbms : Part.hbms ∈ ps) (hsec : Part.sec ∈ ps) (hpci : Part.pci ∈ ps) (hpwr : Part.pwr ∈ ps) :
    Keeps ps s (tripPart code die detail f u) := by
  unfold tripPart
  repeat' first
    | with_reducible assumption
    | with_reducible apply State.raise_keeps
    | with_reducible apply State.set_keeps
    | with_reducible apply partFence_keeps
    | dsimp only
    | (conv => (arg 3; arg 29)
       refine Keeps.mk' ?_ rfl rfl rfl rfl rfl rfl rfl
        (fun q hn => by cases q <;> first | exact rfl | exact ⟨rfl, rfl⟩ | exact absurd (by assumption) hn))

theorem powerTrip_keeps (rail : Nat) (h : Keeps ps s u) (hfree : Part.free ∈ ps) (hregs : Part.regs ∈ ps) (hmem : Part.mem ∈ ps) (hpoison : Part.poison ∈ ps) (hcores : Part.cores ∈ ps) (hcoal : Part.coal ∈ ps) (hvt : Part.vt ∈ ps) (hlinks : Part.links ∈ ps) (hsilo : Part.silo ∈ ps) (hmodel : Part.model ∈ ps) (hhbms : Part.hbms ∈ ps) (hsec : Part.sec ∈ ps) (hpci : Part.pci ∈ ps) (hpwr : Part.pwr ∈ ps) :
    Keeps ps s (powerTrip rail u) := by
  unfold powerTrip
  repeat' first
    | with_reducible assumption
    | with_reducible apply tripPart_keeps

theorem thermalTrip_keeps (d : Nat) (h : Keeps ps s u) (hfree : Part.free ∈ ps) (hregs : Part.regs ∈ ps) (hmem : Part.mem ∈ ps) (hpoison : Part.poison ∈ ps) (hcores : Part.cores ∈ ps) (hcoal : Part.coal ∈ ps) (hvt : Part.vt ∈ ps) (hlinks : Part.links ∈ ps) (hsilo : Part.silo ∈ ps) (hmodel : Part.model ∈ ps) (hhbms : Part.hbms ∈ ps) (hsec : Part.sec ∈ ps) (hpci : Part.pci ∈ ps) (hpwr : Part.pwr ∈ ps) :
    Keeps ps s (thermalTrip d u) := by
  unfold thermalTrip
  repeat' first
    | with_reducible assumption
    | with_reducible apply State.set_keeps
    | with_reducible apply openEvent_keeps
    | with_reducible apply tripPart_keeps
    | split

theorem thermCut_keeps (d : Nat) (duty : Nat) (h : Keeps ps s u) (hregs : Part.regs ∈ ps) (hpwr : Part.pwr ∈ ps) :
    Keeps ps s (thermCut d duty u) := by
  unfold thermCut
  repeat' first
    | with_reducible assumption
    | extract_lets +onlyGivenNames t
    | with_reducible apply putCuts_keeps
    | with_reducible apply setCuts_keeps
    | split

theorem tempSample_keeps (d : Nat) (temp : BitVec 8) (h : Keeps ps s u) (hfree : Part.free ∈ ps) (hregs : Part.regs ∈ ps) (hmem : Part.mem ∈ ps) (hpoison : Part.poison ∈ ps) (hcores : Part.cores ∈ ps) (hcoal : Part.coal ∈ ps) (hvt : Part.vt ∈ ps) (hlinks : Part.links ∈ ps) (hsilo : Part.silo ∈ ps) (hmodel : Part.model ∈ ps) (hhbms : Part.hbms ∈ ps) (hsec : Part.sec ∈ ps) (hpci : Part.pci ∈ ps) (hpwr : Part.pwr ∈ ps) :
    Keeps ps s (tempSample d temp u) := by
  unfold tempSample
  repeat' first
    | with_reducible assumption
    | with_reducible apply State.raise_keeps
    | with_reducible apply State.report_keeps
    | with_reducible apply State.set_keeps
    | with_reducible apply thermCut_keeps
    | with_reducible apply thermalTrip_keeps
    | with_reducible apply Keeps.ite
    | (conv => (arg 3; arg 29)
       refine Keeps.mk' ?_ rfl rfl rfl rfl rfl rfl rfl
        (fun q hn => by cases q <;> first | exact rfl | exact ⟨rfl, rfl⟩ | exact absurd (by assumption) hn))

theorem railMonitor_keeps (r : Nat) (mv : Nat) (amps : Nat) (std : Bool) (h : Keeps ps s u) (hfree : Part.free ∈ ps) (hregs : Part.regs ∈ ps) (hmem : Part.mem ∈ ps) (hpoison : Part.poison ∈ ps) (hcores : Part.cores ∈ ps) (hcoal : Part.coal ∈ ps) (hvt : Part.vt ∈ ps) (hlinks : Part.links ∈ ps) (hsilo : Part.silo ∈ ps) (hmodel : Part.model ∈ ps) (hhbms : Part.hbms ∈ ps) (hsec : Part.sec ∈ ps) (hpci : Part.pci ∈ ps) (hpwr : Part.pwr ∈ ps) :
    Keeps ps s (railMonitor r mv amps std u) := by
  unfold railMonitor
  repeat' first
    | with_reducible assumption
    | with_reducible apply State.set_keeps
    | with_reducible apply powerTrip_keeps
    | split
    | dsimp only
    | (conv => (arg 3; arg 29)
       refine Keeps.mk' ?_ rfl rfl rfl rfl rfl rfl rfl
        (fun q hn => by cases q <;> first | exact rfl | exact ⟨rfl, rfl⟩ | exact absurd (by assumption) hn))

theorem loseMemory_keeps (h : Keeps ps s u) (hmem : Part.mem ∈ ps) (hpoison : Part.poison ∈ ps) (haccs : Part.accs ∈ ps) :
    Keeps ps s (loseMemory u) :=
  Keeps.of h (fun c => ⟨c.regs, rfl, rfl, rfl, c.cores⟩) rfl
    (fun q hn => by cases q <;> first | exact absurd (by assumption) hn | exact rfl | exact ⟨rfl, rfl⟩)

theorem mainOff_keeps (h : Keeps ps s u) (hregs : Part.regs ∈ ps) (hmem : Part.mem ∈ ps) (hpoison : Part.poison ∈ ps)
    (haccs : Part.accs ∈ ps) (hcores : Part.cores ∈ ps) (hplots : Part.plots ∈ ps) (hvt : Part.vt ∈ ps) (hlinks : Part.links ∈ ps)
    (hwins : Part.wins ∈ ps) (hthrs : Part.thrs ∈ ps) (hsows : Part.sows ∈ ps) (hglns : Part.glns ∈ ps) (hcol : Part.col ∈ ps)
    (htiers : Part.tiers ∈ ps) (hmodel : Part.model ∈ ps) (hhbms : Part.hbms ∈ ps) (hsec : Part.sec ∈ ps) (hpci : Part.pci ∈ ps)
    (hserv : Part.serv ∈ ps) (hrel : Part.rel ∈ ps) (hsilo : Part.silo ∈ ps) :
    Keeps ps s (mainOff u) := by
  have h1 : Keeps ps s (eraseModelKey (hostLost u)) := by
    apply eraseModelKey_keeps <;> first | assumption | (apply hostLost_keeps <;> assumption)
  have h2 := loseMemory_keeps (Keeps.filterRegs (fun r => regSideband r.1) h1 hregs) hmem hpoison haccs
  refine State.set_keeps _ _ (State.set_keeps _ _ (State.set_keeps _ _ (State.set_keeps _ _ (Keeps.of h2
    (fun c => ⟨c.regs, c.mem, c.poison, c.accs, rfl⟩) rfl (fun q hn => ?_)) hregs) hregs) hregs) hregs
  cases q <;> first | exact absurd (by assumption) hn | exact rfl | exact ⟨rfl, rfl⟩

theorem mainPgChange_keeps (asserted : Bool) (h : Keeps ps s u) (hfree : Part.free ∈ ps) (hregs : Part.regs ∈ ps) (hmem : Part.mem ∈ ps) (hpoison : Part.poison ∈ ps) (haccs : Part.accs ∈ ps) (hcores : Part.cores ∈ ps) (hcoal : Part.coal ∈ ps) (hvt : Part.vt ∈ ps) (hlinks : Part.links ∈ ps) (hsilo : Part.silo ∈ ps) (hmodel : Part.model ∈ ps) (hhbms : Part.hbms ∈ ps) (hsec : Part.sec ∈ ps) (hpci : Part.pci ∈ ps) (hpwr : Part.pwr ∈ ps) :
    Keeps ps s (mainPgChange asserted u) := by
  unfold mainPgChange
  repeat' first
    | with_reducible assumption
    | with_reducible apply State.set_keeps
    | with_reducible apply loseMemory_keeps
    | with_reducible apply powerTrip_keeps
    | split

theorem powerDownOp_keeps (h : Keeps ps s u) (hfree : Part.free ∈ ps) (hregs : Part.regs ∈ ps) (hmem : Part.mem ∈ ps) (hpoison : Part.poison ∈ ps) (haccs : Part.accs ∈ ps) (hcores : Part.cores ∈ ps) (hcoal : Part.coal ∈ ps) (hplots : Part.plots ∈ ps) (hvt : Part.vt ∈ ps) (hlinks : Part.links ∈ ps) (hwins : Part.wins ∈ ps) (hthrs : Part.thrs ∈ ps) (hsows : Part.sows ∈ ps) (hglns : Part.glns ∈ ps) (hcol : Part.col ∈ ps) (htiers : Part.tiers ∈ ps) (hsilo : Part.silo ∈ ps) (hmodel : Part.model ∈ ps) (hhbms : Part.hbms ∈ ps) (hsec : Part.sec ∈ ps) (hpci : Part.pci ∈ ps) (hserv : Part.serv ∈ ps) (hrel : Part.rel ∈ ps) :
    Keeps ps s (powerDownOp u) := by
  unfold powerDownOp
  repeat' first
    | with_reducible assumption
    | with_reducible intro _
    | (extract_lets +onlyGivenNames t
       first
       | (refine Keeps.gen ps s t ?_ ?_
          on_goal 1 => subst t
          on_goal 2 => (intro ht; clear_value t))
       | clear_value t)
    | with_reducible apply byeAll_keeps
    | with_reducible apply mainOff_keeps
    | with_reducible apply Keeps.ite
    | split
    | (conv => (arg 3; arg 29)
       refine Keeps.mk' ?_ rfl rfl rfl rfl rfl rfl rfl
        (fun q hn => by cases q <;> first | exact rfl | exact ⟨rfl, rfl⟩ | exact absurd (by assumption) hn))

theorem pwrCmdDown_keeps (v : Word) (h : Keeps ps s u) (hfree : Part.free ∈ ps) (hregs : Part.regs ∈ ps) (hmem : Part.mem ∈ ps) (hpoison : Part.poison ∈ ps) (haccs : Part.accs ∈ ps) (hcores : Part.cores ∈ ps) (hcoal : Part.coal ∈ ps) (hplots : Part.plots ∈ ps) (hvt : Part.vt ∈ ps) (hlinks : Part.links ∈ ps) (hwins : Part.wins ∈ ps) (hthrs : Part.thrs ∈ ps) (hsows : Part.sows ∈ ps) (hglns : Part.glns ∈ ps) (hcol : Part.col ∈ ps) (htiers : Part.tiers ∈ ps) (hsilo : Part.silo ∈ ps) (hmodel : Part.model ∈ ps) (hhbms : Part.hbms ∈ ps) (hsec : Part.sec ∈ ps) (hpci : Part.pci ∈ ps) (hserv : Part.serv ∈ ps) (hrel : Part.rel ∈ ps) :
    Keeps ps s (pwrCmdDown v u) := by
  unfold pwrCmdDown
  repeat' first
    | with_reducible assumption
    | with_reducible apply powerDownOp_keeps
    | split

end Sys2Proof.Machine
end

