-- ==== Sys2Proof/Laws/KeepsBringUp.lean ====
section
/-!
SUPPORT. What each operation of Machine/BringUp.lean keeps (Laws/Keeps.lean), and the parts of State it may change.
-/
namespace Sys2Proof.Machine

set_option linter.unreachableTactic false
set_option linter.unusedTactic false
set_option linter.tactic.unusedName false

variable {ps : List Part} {s u : State}

theorem flashPut_keeps (off : Nat) (bs : List Byte) (h : Keeps ps s u) (hcfg : Part.cfg ∈ ps) :
    Keeps ps s (flashPut off bs u) := by
  unfold flashPut
  repeat' first
    | with_reducible assumption
    | (conv => (arg 3; arg 29)
       refine Keeps.mk' ?_ rfl rfl rfl rfl rfl rfl rfl
        (fun q hn => by cases q <;> first | exact rfl | exact ⟨rfl, rfl⟩ | exact absurd (by assumption) hn))

theorem flashLost_keeps (c : Nat) (h : Keeps ps s u) (hfree : Part.free ∈ ps) (hcfg : Part.cfg ∈ ps) :
    Keeps ps s (flashLost c u) := by
  unfold flashLost
  repeat' first
    | with_reducible assumption
    | with_reducible apply flashPut_keeps
    | split
    | dsimp only
    | (conv => (arg 3; arg 29)
       refine Keeps.mk' ?_ rfl rfl rfl rfl rfl rfl rfl
        (fun q hn => by cases q <;> first | exact rfl | exact ⟨rfl, rfl⟩ | exact absurd (by assumption) hn))

theorem cutUpdate_keeps (h : Keeps ps s u) (hfree : Part.free ∈ ps) (hcfg : Part.cfg ∈ ps) :
    Keeps ps s (cutUpdate u) := by
  unfold cutUpdate
  repeat' first
    | with_reducible assumption
    | with_reducible apply flashLost_keeps
    | split

theorem lasting_keeps (t : State) (ht : t.Canon) (h : Keeps ps s u) (hall : ∀ q, q ∈ ps) : Keeps ps s (lasting u t) := by
  have hc : Keeps ps s (cutUpdate u) := cutUpdate_keeps h (hall _) (hall _)
  refine State.set_keeps _ _ (Keeps.of hc (fun _ => ⟨ht.regs, ht.mem, ht.poison, ht.accs, ht.cores⟩) rfl
    (fun q hn => absurd (hall q) hn)) (hall _)

theorem enterReset_keeps (h : Keeps ps s u) (hall : ∀ q, q ∈ ps) : Keeps ps s (enterReset u) := by
  unfold enterReset
  extract_lets b t kept t2
  have h1 : Keeps ps s b := by subst b; apply byeAll_keeps <;> first | exact h | exact hall _
  clear_value b
  have h2 : Keeps ps s t := lasting_keeps State.reset State.canon_reset h1 hall
  clear_value t kept
  have h3 : Keeps ps s t2 := Keeps.foldl h2 (fun t r ht => Keeps.setWord ht (hall _) _ _)
  clear_value t2
  refine Keeps.mk' ?_ rfl rfl rfl rfl rfl rfl rfl (fun q hn => absurd (hall q) hn)
  exact State.set_keeps _ _ h3 (hall _)

theorem resetInput_keeps (h : Keeps ps s u) (hfc : Part.fc ∈ ps) (hfree : Part.free ∈ ps) (hregs : Part.regs ∈ ps) (hmem : Part.mem ∈ ps) (hpoison : Part.poison ∈ ps) (haccs : Part.accs ∈ ps) (hcores : Part.cores ∈ ps) (hcoal : Part.coal ∈ ps) (hplots : Part.plots ∈ ps) (hsubst : Part.subst ∈ ps) (hvt : Part.vt ∈ ps) (hlinks : Part.links ∈ ps) (hwins : Part.wins ∈ ps) (hthrs : Part.thrs ∈ ps) (hsows : Part.sows ∈ ps) (hglns : Part.glns ∈ ps) (hcol : Part.col ∈ ps) (htiers : Part.tiers ∈ ps) (hsilo : Part.silo ∈ ps) (hmodel : Part.model ∈ ps) (hhbms : Part.hbms ∈ ps) (hsec : Part.sec ∈ ps) (hcfg : Part.cfg ∈ ps) (hpci : Part.pci ∈ ps) (hserv : Part.serv ∈ ps) (htim : Part.tim ∈ ps) (hpwr : Part.pwr ∈ ps) (hrel : Part.rel ∈ ps) (hmgt : Part.mgt ∈ ps) :
    Keeps ps s (resetInput u) := by
  unfold resetInput
  repeat' first
    | with_reducible assumption
    | exact (fun (q : Part) => by cases q <;> assumption)
    | with_reducible apply enterReset_keeps
    | split
    | (conv => (arg 3; arg 29)
       refine Keeps.mk' ?_ rfl rfl rfl rfl rfl rfl rfl
        (fun q hn => by cases q <;> first | exact rfl | exact ⟨rfl, rfl⟩ | exact absurd (by assumption) hn))

theorem resetN_keeps (h : Keeps ps s u) (hfc : Part.fc ∈ ps) (hfree : Part.free ∈ ps) (hregs : Part.regs ∈ ps) (hmem : Part.mem ∈ ps) (hpoison : Part.poison ∈ ps) (haccs : Part.accs ∈ ps) (hcores : Part.cores ∈ ps) (hcoal : Part.coal ∈ ps) (hplots : Part.plots ∈ ps) (hsubst : Part.subst ∈ ps) (hvt : Part.vt ∈ ps) (hlinks : Part.links ∈ ps) (hwins : Part.wins ∈ ps) (hthrs : Part.thrs ∈ ps) (hsows : Part.sows ∈ ps) (hglns : Part.glns ∈ ps) (hcol : Part.col ∈ ps) (htiers : Part.tiers ∈ ps) (hsilo : Part.silo ∈ ps) (hmodel : Part.model ∈ ps) (hhbms : Part.hbms ∈ ps) (hsec : Part.sec ∈ ps) (hcfg : Part.cfg ∈ ps) (hpci : Part.pci ∈ ps) (hserv : Part.serv ∈ ps) (htim : Part.tim ∈ ps) (hpwr : Part.pwr ∈ ps) (hrel : Part.rel ∈ ps) (hmgt : Part.mgt ∈ ps) :
    Keeps ps s (resetN u) := by
  unfold resetN
  repeat' first
    | with_reducible assumption
    | with_reducible apply resetInput_keeps

theorem resetNRelease_keeps (h : Keeps ps s u) (hregs : Part.regs ∈ ps) (hpwr : Part.pwr ∈ ps) :
    Keeps ps s (resetNRelease u) := by
  unfold resetNRelease
  repeat' first
    | with_reducible assumption
    | with_reducible apply State.set_keeps
    | split
    | dsimp only
    | (conv => (arg 3; arg 29)
       refine Keeps.mk' ?_ rfl rfl rfl rfl rfl rfl rfl
        (fun q hn => by cases q <;> first | exact rfl | exact ⟨rfl, rfl⟩ | exact absurd (by assumption) hn))

theorem stbyPorN_keeps (h : Keeps ps s u) (hall : ∀ q, q ∈ ps) : Keeps ps s (stbyPorN u) :=
  State.set_keeps _ _ (lasting_keeps State.reset State.canon_reset h hall) (hall _)

theorem standbyPowerLoss_keeps (h : Keeps ps s u) (hall : ∀ q, q ∈ ps) : Keeps ps s (standbyPowerLoss u) :=
  Keeps.of (lasting_keeps State.reset State.canon_reset h hall)
    (fun c => ⟨c.regs, c.mem, c.poison, c.accs, c.cores⟩) rfl (fun q hn => absurd (hall q) hn)

theorem trstN_keeps (h : Keeps ps s u) (hsec : Part.sec ∈ ps) :
    Keeps ps s (trstN u) := by
  unfold trstN
  repeat' first
    | with_reducible assumption
    | (conv => (arg 3; arg 29)
       refine Keeps.mk' ?_ rfl rfl rfl rfl rfl rfl rfl
        (fun q hn => by cases q <;> first | exact rfl | exact ⟨rfl, rfl⟩ | exact absurd (by assumption) hn))

theorem takeReset_keeps (h : Keeps ps s u) (hfc : Part.fc ∈ ps) (hfree : Part.free ∈ ps) (hregs : Part.regs ∈ ps) (hmem : Part.mem ∈ ps) (hpoison : Part.poison ∈ ps) (haccs : Part.accs ∈ ps) (hcores : Part.cores ∈ ps) (hcoal : Part.coal ∈ ps) (hplots : Part.plots ∈ ps) (hsubst : Part.subst ∈ ps) (hvt : Part.vt ∈ ps) (hlinks : Part.links ∈ ps) (hwins : Part.wins ∈ ps) (hthrs : Part.thrs ∈ ps) (hsows : Part.sows ∈ ps) (hglns : Part.glns ∈ ps) (hcol : Part.col ∈ ps) (htiers : Part.tiers ∈ ps) (hsilo : Part.silo ∈ ps) (hmodel : Part.model ∈ ps) (hhbms : Part.hbms ∈ ps) (hsec : Part.sec ∈ ps) (hcfg : Part.cfg ∈ ps) (hpci : Part.pci ∈ ps) (hserv : Part.serv ∈ ps) (htim : Part.tim ∈ ps) (hpwr : Part.pwr ∈ ps) (hrel : Part.rel ∈ ps) (hmgt : Part.mgt ∈ ps) :
    Keeps ps s (takeReset u) := by
  unfold takeReset
  repeat' first
    | with_reducible assumption
    | exact (fun (q : Part) => by cases q <;> assumption)
    | with_reducible apply enterReset_keeps
    | split

theorem bbCopyDone_keeps (ok : Bool) (h : Keeps ps s u) (hfc : Part.fc ∈ ps) (hfree : Part.free ∈ ps) (hregs : Part.regs ∈ ps) (hmem : Part.mem ∈ ps) (hpoison : Part.poison ∈ ps) (haccs : Part.accs ∈ ps) (hcores : Part.cores ∈ ps) (hcoal : Part.coal ∈ ps) (hplots : Part.plots ∈ ps) (hsubst : Part.subst ∈ ps) (hvt : Part.vt ∈ ps) (hlinks : Part.links ∈ ps) (hwins : Part.wins ∈ ps) (hthrs : Part.thrs ∈ ps) (hsows : Part.sows ∈ ps) (hglns : Part.glns ∈ ps) (hcol : Part.col ∈ ps) (htiers : Part.tiers ∈ ps) (hsilo : Part.silo ∈ ps) (hmodel : Part.model ∈ ps) (hhbms : Part.hbms ∈ ps) (hsec : Part.sec ∈ ps) (hcfg : Part.cfg ∈ ps) (hpci : Part.pci ∈ ps) (hserv : Part.serv ∈ ps) (htim : Part.tim ∈ ps) (hpwr : Part.pwr ∈ ps) (hrel : Part.rel ∈ ps) (hmgt : Part.mgt ∈ ps) :
    Keeps ps s (bbCopyDone ok u) := by
  unfold bbCopyDone
  repeat' first
    | with_reducible assumption
    | with_reducible apply bbCopy_keeps
    | with_reducible apply takeReset_keeps
    | with_reducible apply Keeps.ite

theorem tripPowerOff_keeps (h : Keeps ps s u) (hfc : Part.fc ∈ ps) (hfree : Part.free ∈ ps) (hregs : Part.regs ∈ ps) (hmem : Part.mem ∈ ps) (hpoison : Part.poison ∈ ps) (haccs : Part.accs ∈ ps) (hcores : Part.cores ∈ ps) (hcoal : Part.coal ∈ ps) (hplots : Part.plots ∈ ps) (hsubst : Part.subst ∈ ps) (hvt : Part.vt ∈ ps) (hlinks : Part.links ∈ ps) (hwins : Part.wins ∈ ps) (hthrs : Part.thrs ∈ ps) (hsows : Part.sows ∈ ps) (hglns : Part.glns ∈ ps) (hcol : Part.col ∈ ps) (htiers : Part.tiers ∈ ps) (hsilo : Part.silo ∈ ps) (hmodel : Part.model ∈ ps) (hhbms : Part.hbms ∈ ps) (hsec : Part.sec ∈ ps) (hcfg : Part.cfg ∈ ps) (hpci : Part.pci ∈ ps) (hserv : Part.serv ∈ ps) (htim : Part.tim ∈ ps) (hpwr : Part.pwr ∈ ps) (hrel : Part.rel ∈ ps) (hmgt : Part.mgt ∈ ps) :
    Keeps ps s (tripPowerOff u) := by
  unfold tripPowerOff
  repeat' first
    | with_reducible assumption
    | with_reducible apply mainOff_keeps
    | with_reducible apply takeReset_keeps
    | split
    | (conv => (arg 3; arg 29)
       refine Keeps.mk' ?_ rfl rfl rfl rfl rfl rfl rfl
        (fun q hn => by cases q <;> first | exact rfl | exact ⟨rfl, rfl⟩ | exact absurd (by assumption) hn))

theorem stopBringUp_keeps (code : Nat) (h : Keeps ps s u) (hregs : Part.regs ∈ ps) (hcoal : Part.coal ∈ ps) :
    Keeps ps s (stopBringUp code u) := by
  unfold stopBringUp
  repeat' first
    | with_reducible assumption
    | with_reducible apply State.report_keeps
    | with_reducible apply State.set_keeps

theorem pllLockLoss_keeps (h : Keeps ps s u) (hfree : Part.free ∈ ps) (hregs : Part.regs ∈ ps) (hmem : Part.mem ∈ ps) (hpoison : Part.poison ∈ ps) (hcores : Part.cores ∈ ps) (hcoal : Part.coal ∈ ps) (hvt : Part.vt ∈ ps) (hlinks : Part.links ∈ ps) (hsilo : Part.silo ∈ ps) (hmodel : Part.model ∈ ps) (hhbms : Part.hbms ∈ ps) (hsec : Part.sec ∈ ps) (hpci : Part.pci ∈ ps) (hpwr : Part.pwr ∈ ps) :
    Keeps ps s (pllLockLoss u) := by
  unfold pllLockLoss
  repeat' first
    | with_reducible assumption
    | with_reducible apply State.countSat_keeps
    | with_reducible apply State.set_keeps
    | with_reducible apply partFence_keeps
    | with_reducible apply stopBringUp_keeps
    | split
    | dsimp only
    | (conv => (arg 3; arg 29)
       refine Keeps.mk' ?_ rfl rfl rfl rfl rfl rfl rfl
        (fun q hn => by cases q <;> first | exact rfl | exact ⟨rfl, rfl⟩ | exact absurd (by assumption) hn))

theorem imgEvent_keeps (code : Nat) (h : Keeps ps s u) (hregs : Part.regs ∈ ps) :
    Keeps ps s (imgEvent code u) := by
  unfold imgEvent
  repeat' first
    | with_reducible assumption
    | with_reducible apply State.raise_keeps
    | with_reducible apply secRecord_keeps

theorem acceptBoot_keeps (g : List Byte) (h : Keeps ps s u) (hregs : Part.regs ∈ ps) (hsec : Part.sec ∈ ps) (hcfg : Part.cfg ∈ ps) :
    Keeps ps s (acceptBoot g u) := by
  unfold acceptBoot
  repeat' first
    | with_reducible assumption
    | with_reducible apply State.set_keeps
    | with_reducible apply setMeas_keeps
    | (conv => (arg 3; arg 29)
       refine Keeps.mk' ?_ rfl rfl rfl rfl rfl rfl rfl
        (fun q hn => by cases q <;> first | exact rfl | exact ⟨rfl, rfl⟩ | exact absurd (by assumption) hn))

theorem bootImage_keeps (h : Keeps ps s u) (hregs : Part.regs ∈ ps) (hsec : Part.sec ∈ ps) (hcfg : Part.cfg ∈ ps) :
    Keeps ps s (bootImage u) := by
  unfold bootImage
  repeat' first
    | with_reducible assumption
    | (extract_lets +onlyGivenNames t
       first
       | (refine Keeps.gen ps s t ?_ ?_
          on_goal 1 => subst t
          on_goal 2 => (intro ht; clear_value t))
       | clear_value t)
    | with_reducible apply State.set_keeps
    | with_reducible apply acceptBoot_keeps
    | with_reducible apply imgEvent_keeps
    | with_reducible apply noteCheck_keeps
    | split

theorem phaseStandby_keeps (pll : Bool) (rom : Bool) (h : Keeps ps s u) (hregs : Part.regs ∈ ps) (hcoal : Part.coal ∈ ps) (hsec : Part.sec ∈ ps) (hcfg : Part.cfg ∈ ps) :
    Keeps ps s (phaseStandby pll rom u) := by
  unfold phaseStandby
  repeat' first
    | with_reducible assumption
    | with_reducible apply State.set_keeps
    | with_reducible apply bootImage_keeps
    | with_reducible apply measSecurity_keeps
    | with_reducible apply secRecord_keeps
    | with_reducible apply setMeas_keeps
    | with_reducible apply stopBringUp_keeps
    | split
    | (conv => (arg 3; arg 29)
       refine Keeps.mk' ?_ rfl rfl rfl rfl rfl rfl rfl
        (fun q hn => by cases q <;> first | exact rfl | exact ⟨rfl, rfl⟩ | exact absurd (by assumption) hn))

theorem loadFw_keeps (role : Nat) (index : Nat) (h : Keeps ps s u) (hsec : Part.sec ∈ ps) :
    Keeps ps s (loadFw role index u).2 := by
  unfold loadFw
  repeat' first
    | with_reducible assumption
    | extract_lets +onlyGivenNames t
    | with_reducible apply setMeas_keeps
    | split

theorem fwRefused_keeps (code : Nat) (h : Keeps ps s u) (hregs : Part.regs ∈ ps) :
    Keeps ps s (fwRefused code u) := by
  unfold fwRefused
  repeat' first
    | with_reducible assumption
    | with_reducible apply State.set_keeps
    | with_reducible apply imgEvent_keeps

theorem phaseFirmware_keeps (h : Keeps ps s u) (hregs : Part.regs ∈ ps) (hsec : Part.sec ∈ ps) :
    Keeps ps s (phaseFirmware u) := by
  unfold phaseFirmware
  repeat' first
    | with_reducible assumption
    | with_reducible apply State.set_keeps
    | with_reducible apply fwRefused_keeps
    | with_reducible apply loadFw_keeps
    | with_reducible apply Keeps.ite

theorem linkFailed_keeps (k : Nat) (n : Nat) (h : Keeps ps s u) (hfree : Part.free ∈ ps) (hregs : Part.regs ∈ ps) (hmem : Part.mem ∈ ps) (hpoison : Part.poison ∈ ps) (hcores : Part.cores ∈ ps) (hcoal : Part.coal ∈ ps) (hvt : Part.vt ∈ ps) (hlinks : Part.links ∈ ps) (hsilo : Part.silo ∈ ps) (hmodel : Part.model ∈ ps) (hhbms : Part.hbms ∈ ps) (hsec : Part.sec ∈ ps) (hpci : Part.pci ∈ ps) :
    Keeps ps s (linkFailed k n u) := by
  unfold linkFailed
  repeat' first
    | with_reducible assumption
    | with_reducible apply dieFence_keeps
    | with_reducible apply partFence_keeps
    | split

theorem coresStart_keeps (h : Keeps ps s u) (hregs : Part.regs ∈ ps) :
    Keeps ps s (coresStart u) := Keeps.filterRegs _ h hregs

theorem phaseDies_keeps (failed : List (Nat × Nat)) (h : Keeps ps s u) (hfree : Part.free ∈ ps) (hregs : Part.regs ∈ ps) (hmem : Part.mem ∈ ps) (hpoison : Part.poison ∈ ps) (hcores : Part.cores ∈ ps) (hcoal : Part.coal ∈ ps) (hvt : Part.vt ∈ ps) (hlinks : Part.links ∈ ps) (hsilo : Part.silo ∈ ps) (hmodel : Part.model ∈ ps) (hhbms : Part.hbms ∈ ps) (hsec : Part.sec ∈ ps) (hpci : Part.pci ∈ ps) :
    Keeps ps s (phaseDies failed u) := by
  unfold phaseDies
  repeat' first
    | with_reducible assumption
    | with_reducible intro _
    | with_reducible apply State.set_keeps
    | with_reducible apply coresStart_keeps
    | with_reducible apply linkFailed_keeps
    | with_reducible apply Keeps.foldl
    | with_reducible apply Keeps.foldlP
    | with_reducible apply Keeps.ite
    | split
    | dsimp only

theorem phaseAlign_keeps (fails : Nat) (lockCyc : Nat) (h : Keeps ps s u) (hregs : Part.regs ∈ ps) (hcoal : Part.coal ∈ ps) :
    Keeps ps s (phaseAlign fails lockCyc u) := by
  unfold phaseAlign
  repeat' first
    | with_reducible assumption
    | with_reducible apply State.set_keeps
    | with_reducible apply stopBringUp_keeps
    | split

theorem phaseSections_keeps (h : Keeps ps s u) (hregs : Part.regs ∈ ps) (hplots : Part.plots ∈ ps) (hvt : Part.vt ∈ ps) (hsec : Part.sec ∈ ps) (hcfg : Part.cfg ∈ ps) :
    Keeps ps s (phaseSections u) := by
  unfold phaseSections
  repeat' first
    | with_reducible assumption
    | (extract_lets +onlyGivenNames t
       first
       | (refine Keeps.gen ps s t ?_ ?_
          on_goal 1 => subst t
          on_goal 2 => (intro ht; clear_value t))
       | (refine Keeps.gen ps s t.2 ?_ ?_
          on_goal 1 => subst t
          on_goal 2 => (intro ht; clear_value t))
       | clear_value t)
    | with_reducible apply State.set_keeps
    | with_reducible apply applyBoot_keeps
    | with_reducible apply fwRefused_keeps
    | with_reducible apply loadFw_keeps
    | with_reducible apply measSecurity_keeps
    | split
    | (conv => (arg 3; arg 29)
       refine Keeps.mk' ?_ rfl rfl rfl rfl rfl rfl rfl
        (fun q hn => by cases q <;> first | exact rfl | exact ⟨rfl, rfl⟩ | exact absurd (by assumption) hn))

theorem readyStack_keeps (lost : List Nat) (m : Nat) (h : Keeps ps s u) (hfree : Part.free ∈ ps) (hregs : Part.regs ∈ ps) (hmem : Part.mem ∈ ps) (hpoison : Part.poison ∈ ps) (hcores : Part.cores ∈ ps) (hcoal : Part.coal ∈ ps) (hvt : Part.vt ∈ ps) (hlinks : Part.links ∈ ps) (hsilo : Part.silo ∈ ps) (hmodel : Part.model ∈ ps) (hhbms : Part.hbms ∈ ps) (hsec : Part.sec ∈ ps) (hpci : Part.pci ∈ ps) :
    Keeps ps s (readyStack lost u m) := by
  unfold readyStack
  repeat' first
    | with_reducible assumption
    | with_reducible intro _
    | with_reducible apply State.set_keeps
    | with_reducible apply dieFence_keeps
    | with_reducible apply Keeps.ite
    | split
    | dsimp only
    | (conv => (arg 3; arg 29)
       refine Keeps.mk' ?_ rfl rfl rfl rfl rfl rfl rfl
        (fun q hn => by cases q <;> first | exact rfl | exact ⟨rfl, rfl⟩ | exact absurd (by assumption) hn))

theorem readyPort_keeps (n : Nat) (h : Keeps ps s u) (hregs : Part.regs ∈ ps) (hlinks : Part.links ∈ ps) :
    Keeps ps s (readyPort u n) := by
  unfold readyPort
  repeat' first
    | with_reducible assumption
    | with_reducible apply State.setLink_keeps
    | with_reducible apply enterState_keeps
    | with_reducible apply Keeps.ite

theorem phaseMemory_keeps (lost : List Nat) (probes : List ChanProbe) (h : Keeps ps s u) (hfree : Part.free ∈ ps) (hregs : Part.regs ∈ ps) (hmem : Part.mem ∈ ps) (hpoison : Part.poison ∈ ps) (hcores : Part.cores ∈ ps) (hcoal : Part.coal ∈ ps) (hvt : Part.vt ∈ ps) (hlinks : Part.links ∈ ps) (hsilo : Part.silo ∈ ps) (hmodel : Part.model ∈ ps) (hhbms : Part.hbms ∈ ps) (hsec : Part.sec ∈ ps) (hpci : Part.pci ∈ ps) :
    Keeps ps s (phaseMemory lost probes u) := by
  unfold phaseMemory
  repeat' first
    | with_reducible assumption
    | with_reducible intro _
    | with_reducible apply State.set_keeps
    | with_reducible apply readyPort_keeps
    | with_reducible apply readyStack_keeps
    | with_reducible apply siloProbe_keeps
    | with_reducible apply Keeps.foldl

theorem bringUpPhase_keeps (e : PhaseEnd) (h : Keeps ps s u) (hfree : Part.free ∈ ps) (hregs : Part.regs ∈ ps) (hmem : Part.mem ∈ ps) (hpoison : Part.poison ∈ ps) (hcores : Part.cores ∈ ps) (hcoal : Part.coal ∈ ps) (hplots : Part.plots ∈ ps) (hvt : Part.vt ∈ ps) (hlinks : Part.links ∈ ps) (hsilo : Part.silo ∈ ps) (hmodel : Part.model ∈ ps) (hhbms : Part.hbms ∈ ps) (hsec : Part.sec ∈ ps) (hcfg : Part.cfg ∈ ps) (hpci : Part.pci ∈ ps) :
    Keeps ps s (bringUpPhase e u) := by
  unfold bringUpPhase
  repeat' first
    | with_reducible assumption
    | with_reducible apply State.raise_keeps
    | with_reducible apply phaseAlign_keeps
    | with_reducible apply phaseDies_keeps
    | with_reducible apply phaseFirmware_keeps
    | with_reducible apply phaseMemory_keeps
    | with_reducible apply phaseSections_keeps
    | with_reducible apply phaseStandby_keeps
    | with_reducible apply stopBringUp_keeps
    | split

end Sys2Proof.Machine
end

