-- ==== Sys2Proof/Laws/KeepsFetching.lean ====
section
/-!
SUPPORT. What each operation of Machine/Fetching.lean keeps (Laws/Keeps.lean), and the parts of State it may change.
-/
namespace Sys2Proof.Machine

set_option linter.unreachableTactic false
set_option linter.unusedTactic false
set_option linter.tactic.unusedName false

variable {ps : List Part} {s u : State}

theorem postTier_keeps (k : Nat) (n : Nat) (op : Nat) (tenant : Nat) (handle : Nat) (off : Nat) (h : Keeps ps s u) (hregs : Part.regs ∈ ps) (hmem : Part.mem ∈ ps) (hpoison : Part.poison ∈ ps) (hhbms : Part.hbms ∈ ps) :
    Keeps ps s (postTier k n op tenant handle off u) := by
  unfold postTier
  repeat' first
    | with_reducible assumption
    | with_reducible intro _
    | with_reducible apply tierTailWrite_keeps
    | with_reducible apply unitWrite_keeps
    | split
    | dsimp only

theorem coldNext_keeps (x : ColdExp) (h : Keeps ps s u) (hregs : Part.regs ∈ ps) (hmem : Part.mem ∈ ps) (hpoison : Part.poison ∈ ps) (hhbms : Part.hbms ∈ ps) :
    Keeps ps s (coldNext x u).2 := by
  unfold coldNext
  repeat' first
    | with_reducible assumption
    | with_reducible intro _
    | with_reducible apply postTier_keeps
    | with_reducible apply Keeps.ite2
    | with_reducible apply Keeps.ite
    | split
    | dsimp only
    | refine Keeps.of_eq2 (by assumption) ?_

theorem coldUnpin_keeps (x : ColdExp) (h : Keeps ps s u) (hregs : Part.regs ∈ ps) (hmem : Part.mem ∈ ps) (hpoison : Part.poison ∈ ps) (hhbms : Part.hbms ∈ ps) :
    Keeps ps s (coldUnpin x u).2 := by
  unfold coldUnpin
  repeat' first
    | with_reducible assumption
    | with_reducible intro _
    | with_reducible apply postTier_keeps
    | split
    | dsimp only

theorem coldAct_keeps (p : ColdExp → Bool) (f : ColdExp → State → ColdExp × State) (h : Keeps ps s u) (hserv : Part.serv ∈ ps)
    (hf : ∀ x t, Keeps ps s t → Keeps ps s (f x t).2) : Keeps ps s (coldAct p f u) := by
  unfold coldAct
  split
  · exact h
  · split
    · exact h
    · exact Keeps.mk' (hf _ _ h) rfl rfl rfl rfl rfl rfl rfl
        (fun q hn => by cases q <;> first | exact rfl | exact ⟨rfl, rfl⟩ | exact absurd hserv hn)

theorem coldTurn_keeps (q : Nat × Bool) (h : Keeps ps s u) (hregs : Part.regs ∈ ps) (hmem : Part.mem ∈ ps) (hpoison : Part.poison ∈ ps) (hhbms : Part.hbms ∈ ps) (hserv : Part.serv ∈ ps) :
    Keeps ps s (coldTurn u q) :=
  coldAct_keeps _ _ h hserv (fun x _ ht => coldNext_keeps x ht hregs hmem hpoison hhbms)

theorem coldTurns_keeps (h : Keeps ps s u) (hregs : Part.regs ∈ ps) (hmem : Part.mem ∈ ps) (hpoison : Part.poison ∈ ps) (hhbms : Part.hbms ∈ ps) (hserv : Part.serv ∈ ps) :
    Keeps ps s (coldTurns u) := by
  unfold coldTurns
  split
  · exact h
  · extract_lets t1 t2
    have ht : Keeps ps s t2 := coldAct_keeps _ _ (Keeps.foldl h (fun t q ht => coldTurn_keeps q ht hregs hmem hpoison hhbms hserv)) hserv
      (fun x _ ht => coldUnpin_keeps x ht hregs hmem hpoison hhbms)
    clear_value t2
    exact Keeps.mk' ht rfl rfl rfl rfl rfl rfl rfl
      (fun q hn => by cases q <;> first | exact rfl | exact ⟨rfl, rfl⟩ | exact absurd hserv hn)

end Sys2Proof.Machine
end

