-- ==== Sys2Proof/Laws/KeepsRegWrite.lean ====
section
/-!
SUPPORT. What each operation of Machine/RegWrite.lean keeps (Laws/Keeps.lean), and the parts of State it may change.
-/
namespace Sys2Proof.Machine

set_option linter.unreachableTactic false
set_option linter.unusedTactic false
set_option linter.tactic.unusedName false

variable {ps : List Part} {s u : State}

theorem plainWrite_keeps (a : Nat) (v : Word) (h : Keeps ps s u) (hregs : Part.regs ∈ ps) :
    Keeps ps s (plainWrite a v u) := by
  unfold plainWrite
  repeat' first
    | with_reducible assumption
    | with_reducible apply Keeps.setWord

theorem coreAction_keeps (p : Nat) (v : Word) (h : Keeps ps s u) (hregs : Part.regs ∈ ps) (hcores : Part.cores ∈ ps) :
    Keeps ps s (coreAction p v u) := by
  unfold coreAction
  repeat' first
    | with_reducible assumption
    | with_reducible apply armCore_keeps
    | with_reducible apply clearCore_keeps
    | with_reducible apply killCore_keeps
    | with_reducible apply resumeCore_keeps
    | with_reducible apply runCore_keeps
    | split

theorem coreWrite_keeps (p : Nat) (o : Nat) (v : Word) (h : Keeps ps s u) (hregs : Part.regs ∈ ps) (hcores : Part.cores ∈ ps) (hcoal : Part.coal ∈ ps) :
    KeepsO ps s (coreWrite p o v u) := by
  unfold coreWrite
  repeat' first
    | with_reducible assumption
    | with_reducible apply coreAction_keeps
    | with_reducible apply coreArrWrite_keeps
    | with_reducible apply coreTailWrite_keeps
    | with_reducible apply KeepsO.ite
    | with_reducible apply KeepsO.some
    | exact KeepsO.none

theorem ringRegWrite_keeps (first o : Nat) (size tail : Nat → State → State) (h : Keeps ps s u)
    (h_size : ∀ n t, Keeps ps s t → Keeps ps s (size n t)) (h_tail : ∀ n t, Keeps ps s t → Keeps ps s (tail n t)) :
    KeepsO ps s (ringRegWrite first o size tail u) := by
  unfold ringRegWrite
  split
  · exact KeepsO.some (h_size _ _ h)
  · exact KeepsO.some (h_tail _ _ h)
  · exact KeepsO.none

theorem flushWrite_keeps (b : Nat) (f : Nat → State → State) (v : Word) (h : Keeps ps s u) (h_f : ∀ a0 t, Keeps ps s t → Keeps ps s (f a0 t)) :
    Keeps ps s (flushWrite b f v u) := by
  unfold flushWrite
  repeat' first
    | (with_reducible apply_assumption)
    | split

theorem rdWrite_keeps (k : Nat) (o : Nat) (v : Word) (h : Keeps ps s u) (hregs : Part.regs ∈ ps) (hmem : Part.mem ∈ ps) (hpoison : Part.poison ∈ ps) (hcores : Part.cores ∈ ps) (hcoal : Part.coal ∈ ps) (hvt : Part.vt ∈ ps) (hlinks : Part.links ∈ ps) (hwins : Part.wins ∈ ps) (hthrs : Part.thrs ∈ ps) (hsows : Part.sows ∈ ps) (hglns : Part.glns ∈ ps) (hcol : Part.col ∈ ps) (hhbms : Part.hbms ∈ ps) (hserv : Part.serv ∈ ps) :
    KeepsO ps s (rdWrite k o v u) := by
  unfold rdWrite
  repeat' first
    | with_reducible assumption
    | with_reducible intro _
    | (extract_lets +onlyGivenNames t
       first
       | (refine Keeps.gen ps s t ?_ ?_
          on_goal 1 => subst t
          on_goal 2 => (intro ht; clear_value t))
       | clear_value t)
    | with_reducible apply State.set_keeps
    | with_reducible apply colFlush_keeps
    | with_reducible apply flushWrite_keeps
    | with_reducible apply glnFlush_keeps
    | with_reducible apply glnSizeWrite_keeps
    | with_reducible apply glnTailWrite_keeps
    | with_reducible apply opCmd_keeps
    | with_reducible apply plainWrite_keeps
    | with_reducible apply pump_keeps
    | with_reducible apply ringRegWrite_keeps
    | with_reducible apply sizeWrite_keeps
    | with_reducible apply sowFlush_keeps
    | with_reducible apply sowTbWrite_keeps
    | with_reducible apply tailWrite_keeps
    | with_reducible apply thrFlush_keeps
    | with_reducible apply thrTailWrite_keeps
    | with_reducible apply thrTdclr_keeps
    | with_reducible apply winFlush_keeps
    | with_reducible apply winTailWrite_keeps
    | with_reducible apply KeepsO.ite
    | with_reducible apply KeepsO.some
    | exact KeepsO.none
    | split
    | refine Keeps.of_some (by assumption) ?_

theorem modelCmd_keeps (v : Word) (h : Keeps ps s u) (hregs : Part.regs ∈ ps) (hmem : Part.mem ∈ ps) (hpoison : Part.poison ∈ ps) (hsilo : Part.silo ∈ ps) (hmodel : Part.model ∈ ps) (hhbms : Part.hbms ∈ ps) (hsec : Part.sec ∈ ps) (hpci : Part.pci ∈ ps) :
    Keeps ps s (modelCmd v u) := by
  unfold modelCmd
  repeat' first
    | with_reducible assumption
    | with_reducible apply modelAbort_keeps
    | with_reducible apply modelLoad_keeps
    | with_reducible apply modelUnload_keeps
    | split

theorem tierWrite_keeps (k : Nat) (o : Nat) (v : Word) (h : Keeps ps s u) (hregs : Part.regs ∈ ps) (hmem : Part.mem ∈ ps) (hpoison : Part.poison ∈ ps) (hcores : Part.cores ∈ ps) (hcoal : Part.coal ∈ ps) (htiers : Part.tiers ∈ ps) (hsilo : Part.silo ∈ ps) (hmodel : Part.model ∈ ps) (hhbms : Part.hbms ∈ ps) (hsec : Part.sec ∈ ps) (hpci : Part.pci ∈ ps) :
    KeepsO ps s (tierWrite k o v u) := by
  unfold tierWrite
  repeat' first
    | with_reducible assumption
    | with_reducible intro _
    | with_reducible apply flushWrite_keeps
    | with_reducible apply modelCmd_keeps
    | with_reducible apply ringRegWrite_keeps
    | with_reducible apply sizeWrite_keeps
    | with_reducible apply tierFbWrite_keeps
    | with_reducible apply tierFlush_keeps
    | with_reducible apply tierTailWrite_keeps
    | with_reducible apply KeepsO.ite
    | with_reducible apply KeepsO.some

theorem modeCmd_keeps (v : Word) (h : Keeps ps s u) (hregs : Part.regs ∈ ps) (hcoal : Part.coal ∈ ps) (hvt : Part.vt ∈ ps) (hlinks : Part.links ∈ ps) (hcfg : Part.cfg ∈ ps) :
    Keeps ps s (modeCmd v u) := by
  unfold modeCmd
  repeat' first
    | with_reducible assumption
    | with_reducible apply announce_keeps
    | with_reducible apply modeCancel_keeps
    | with_reducible apply modeStage_keeps
    | split

theorem thermWrite_keeps (v : Word) (h : Keeps ps s u) (hregs : Part.regs ∈ ps) :
    Keeps ps s (thermWrite v u) := by
  unfold thermWrite
  repeat' first
    | with_reducible assumption
    | with_reducible apply plainWrite_keeps
    | split

theorem tempMaxWrite_keeps (d : Nat) (v : Word) (h : Keeps ps s u) (hregs : Part.regs ∈ ps) :
    Keeps ps s (tempMaxWrite d v u) := by
  unfold tempMaxWrite
  repeat' first
    | with_reducible assumption
    | with_reducible apply State.set_keeps
    | split

theorem measureRef_keeps (h : Keeps ps s u) (hfree : Part.free ∈ ps) (hregs : Part.regs ∈ ps) :
    Keeps ps s (measureRef u) := by
  unfold measureRef
  repeat' first
    | with_reducible assumption
    | with_reducible apply State.drawWord_keeps
    | with_reducible apply State.set_keeps

theorem sideWrite_keeps (a : Nat) (v : Word) (h : Keeps ps s u) (hfree : Part.free ∈ ps) (hregs : Part.regs ∈ ps) (hmem : Part.mem ∈ ps) (hpoison : Part.poison ∈ ps) (haccs : Part.accs ∈ ps) (hcores : Part.cores ∈ ps) (hcoal : Part.coal ∈ ps) (hplots : Part.plots ∈ ps) (hsubst : Part.subst ∈ ps) (hvt : Part.vt ∈ ps) (hlinks : Part.links ∈ ps) (hwins : Part.wins ∈ ps) (hthrs : Part.thrs ∈ ps) (hsows : Part.sows ∈ ps) (hglns : Part.glns ∈ ps) (hcol : Part.col ∈ ps) (htiers : Part.tiers ∈ ps) (hsilo : Part.silo ∈ ps) (hmodel : Part.model ∈ ps) (hhbms : Part.hbms ∈ ps) (hsec : Part.sec ∈ ps) (hcfg : Part.cfg ∈ ps) (hpci : Part.pci ∈ ps) (hserv : Part.serv ∈ ps) (htim : Part.tim ∈ ps) (hpwr : Part.pwr ∈ ps) (hrel : Part.rel ∈ ps) :
    KeepsO ps s (sideWrite a v u) := by
  unfold sideWrite
  repeat' first
    | with_reducible assumption
    | with_reducible apply almNextWrite_keeps
    | with_reducible apply almSyncWrite_keeps
    | with_reducible apply bar4BaseWrite_keeps
    | with_reducible apply fenceCmd_keeps
    | with_reducible apply measureRef_keeps
    | with_reducible apply modeCmd_keeps
    | with_reducible apply msixTrig_keeps
    | with_reducible apply presentImage_keeps
    | with_reducible apply pwrCmdDown_keeps
    | with_reducible apply pwrMgtDutyWrite_keeps
    | with_reducible apply substitute_keeps
    | with_reducible apply tempMaxWrite_keeps
    | with_reducible apply thermWrite_keeps
    | with_reducible apply unfreeze_keeps
    | with_reducible apply KeepsO.ite
    | with_reducible apply KeepsO.some
    | exact KeepsO.none
    | split

theorem actionWrite_keeps (a : Nat) (v : Word) (h : Keeps ps s u) (hfree : Part.free ∈ ps) (hregs : Part.regs ∈ ps) (hmem : Part.mem ∈ ps) (hpoison : Part.poison ∈ ps) (haccs : Part.accs ∈ ps) (hcores : Part.cores ∈ ps) (hcoal : Part.coal ∈ ps) (hplots : Part.plots ∈ ps) (hsubst : Part.subst ∈ ps) (hvt : Part.vt ∈ ps) (hlinks : Part.links ∈ ps) (hwins : Part.wins ∈ ps) (hthrs : Part.thrs ∈ ps) (hsows : Part.sows ∈ ps) (hglns : Part.glns ∈ ps) (hcol : Part.col ∈ ps) (htiers : Part.tiers ∈ ps) (hsilo : Part.silo ∈ ps) (hmodel : Part.model ∈ ps) (hhbms : Part.hbms ∈ ps) (hsec : Part.sec ∈ ps) (hcfg : Part.cfg ∈ ps) (hpci : Part.pci ∈ ps) (hserv : Part.serv ∈ ps) (htim : Part.tim ∈ ps) (hpwr : Part.pwr ∈ ps) (hrel : Part.rel ∈ ps) :
    KeepsO ps s (actionWrite a v u) := by
  unfold actionWrite
  repeat' first
    | with_reducible assumption
    | with_reducible intro _
    | with_reducible apply State.livePort_keeps
    | with_reducible apply coreWrite_keeps
    | with_reducible apply portEnable_keeps
    | with_reducible apply rdWrite_keeps
    | with_reducible apply sideWrite_keeps
    | with_reducible apply tierWrite_keeps
    | with_reducible apply KeepsO.ite
    | with_reducible apply KeepsO.some
    | exact KeepsO.none

theorem regWriteAt_keeps (a : Nat) (v : Word) (h : Keeps ps s u) (hfree : Part.free ∈ ps) (hregs : Part.regs ∈ ps) (hmem : Part.mem ∈ ps) (hpoison : Part.poison ∈ ps) (haccs : Part.accs ∈ ps) (hcores : Part.cores ∈ ps) (hcoal : Part.coal ∈ ps) (hplots : Part.plots ∈ ps) (hsubst : Part.subst ∈ ps) (hvt : Part.vt ∈ ps) (hlinks : Part.links ∈ ps) (hwins : Part.wins ∈ ps) (hthrs : Part.thrs ∈ ps) (hsows : Part.sows ∈ ps) (hglns : Part.glns ∈ ps) (hcol : Part.col ∈ ps) (htiers : Part.tiers ∈ ps) (hsilo : Part.silo ∈ ps) (hmodel : Part.model ∈ ps) (hhbms : Part.hbms ∈ ps) (hsec : Part.sec ∈ ps) (hcfg : Part.cfg ∈ ps) (hpci : Part.pci ∈ ps) (hserv : Part.serv ∈ ps) (htim : Part.tim ∈ ps) (hpwr : Part.pwr ∈ ps) (hrel : Part.rel ∈ ps) :
    Keeps ps s (regWriteAt a v u) := by
  unfold regWriteAt
  repeat' first
    | with_reducible assumption
    | with_reducible apply actionWrite_keeps
    | with_reducible apply plainWrite_keeps
    | split
    | refine Keeps.of_some (by assumption) ?_

theorem regWrite_keeps (a : Nat) (v : Word) (h : Keeps ps s u) (hfree : Part.free ∈ ps) (hregs : Part.regs ∈ ps) (hmem : Part.mem ∈ ps) (hpoison : Part.poison ∈ ps) (haccs : Part.accs ∈ ps) (hcores : Part.cores ∈ ps) (hcoal : Part.coal ∈ ps) (hplots : Part.plots ∈ ps) (hsubst : Part.subst ∈ ps) (hvt : Part.vt ∈ ps) (hlinks : Part.links ∈ ps) (hwins : Part.wins ∈ ps) (hthrs : Part.thrs ∈ ps) (hsows : Part.sows ∈ ps) (hglns : Part.glns ∈ ps) (hcol : Part.col ∈ ps) (htiers : Part.tiers ∈ ps) (hsilo : Part.silo ∈ ps) (hmodel : Part.model ∈ ps) (hhbms : Part.hbms ∈ ps) (hsec : Part.sec ∈ ps) (hcfg : Part.cfg ∈ ps) (hpci : Part.pci ∈ ps) (hserv : Part.serv ∈ ps) (htim : Part.tim ∈ ps) (hpwr : Part.pwr ∈ ps) (hrel : Part.rel ∈ ps) :
    Keeps ps s (regWrite a v u).2 := by
  unfold regWrite
  repeat' first
    | with_reducible assumption
    | with_reducible apply regWriteAt_keeps
    | with_reducible apply Keeps.ite
    | with_reducible apply Keeps.ite2

theorem maintWrite_keeps (a : Nat) (v : Word) (h : Keeps ps s u) (hregs : Part.regs ∈ ps) (hmem : Part.mem ∈ ps) (hpoison : Part.poison ∈ ps) :
    Keeps ps s (maintWrite a v u) := by
  unfold maintWrite
  repeat' first
    | with_reducible assumption
    | with_reducible intro _
    | with_reducible apply State.liveDie_keeps
    | with_reducible apply storeBytes_keeps
    | with_reducible apply Keeps.ite
    | split
    | dsimp only

theorem registerWrite_keeps (a : Nat) (v : Word) (h : Keeps ps s u) (hfree : Part.free ∈ ps) (hregs : Part.regs ∈ ps) (hmem : Part.mem ∈ ps) (hpoison : Part.poison ∈ ps) (haccs : Part.accs ∈ ps) (hcores : Part.cores ∈ ps) (hcoal : Part.coal ∈ ps) (hplots : Part.plots ∈ ps) (hsubst : Part.subst ∈ ps) (hvt : Part.vt ∈ ps) (hlinks : Part.links ∈ ps) (hwins : Part.wins ∈ ps) (hthrs : Part.thrs ∈ ps) (hsows : Part.sows ∈ ps) (hglns : Part.glns ∈ ps) (hcol : Part.col ∈ ps) (htiers : Part.tiers ∈ ps) (hsilo : Part.silo ∈ ps) (hmodel : Part.model ∈ ps) (hhbms : Part.hbms ∈ ps) (hsec : Part.sec ∈ ps) (hcfg : Part.cfg ∈ ps) (hpci : Part.pci ∈ ps) (hserv : Part.serv ∈ ps) (htim : Part.tim ∈ ps) (hpwr : Part.pwr ∈ ps) (hrel : Part.rel ∈ ps) :
    Keeps ps s (registerWrite a v u) := by
  unfold registerWrite
  repeat' first
    | with_reducible assumption
    | with_reducible intro _
    | with_reducible apply maintWrite_keeps
    | with_reducible apply regWrite_keeps
    | with_reducible apply Keeps.ite
    | split
    | dsimp only

theorem remoteWrite_keeps (p : Packet) (h : Keeps ps s u) (hfree : Part.free ∈ ps) (hregs : Part.regs ∈ ps) (hmem : Part.mem ∈ ps) (hpoison : Part.poison ∈ ps) (haccs : Part.accs ∈ ps) (hcores : Part.cores ∈ ps) (hcoal : Part.coal ∈ ps) (hplots : Part.plots ∈ ps) (hsubst : Part.subst ∈ ps) (hvt : Part.vt ∈ ps) (hlinks : Part.links ∈ ps) (hwins : Part.wins ∈ ps) (hthrs : Part.thrs ∈ ps) (hsows : Part.sows ∈ ps) (hglns : Part.glns ∈ ps) (hcol : Part.col ∈ ps) (htiers : Part.tiers ∈ ps) (hsilo : Part.silo ∈ ps) (hmodel : Part.model ∈ ps) (hhbms : Part.hbms ∈ ps) (hsec : Part.sec ∈ ps) (hcfg : Part.cfg ∈ ps) (hpci : Part.pci ∈ ps) (hserv : Part.serv ∈ ps) (htim : Part.tim ∈ ps) (hpwr : Part.pwr ∈ ps) (hrel : Part.rel ∈ ps) :
    Keeps ps s (remoteWrite p u).2 := by
  unfold remoteWrite
  repeat' first
    | with_reducible assumption
    | with_reducible apply regWrite_keeps
    | with_reducible apply Keeps.ite
    | with_reducible apply Keeps.ite2

theorem loadAnswer_keeps (p : Packet) (h : Keeps ps s u) (hregs : Part.regs ∈ ps) (hpoison : Part.poison ∈ ps) (hhbms : Part.hbms ∈ ps) :
    Keeps ps s (loadAnswer p u).2.2 := by
  unfold loadAnswer
  repeat' first
    | with_reducible assumption
    | with_reducible apply loadMem_keeps
    | split

theorem recvLoad_keeps (i : Nat) (h : Keeps ps s u) (hfree : Part.free ∈ ps) (hregs : Part.regs ∈ ps) (hpoison : Part.poison ∈ ps) (hcores : Part.cores ∈ ps) (hcoal : Part.coal ∈ ps) (hvt : Part.vt ∈ ps) (hlinks : Part.links ∈ ps) (hhbms : Part.hbms ∈ ps) :
    Keeps ps s (recvLoad i u) := by
  unfold recvLoad
  repeat' first
    | with_reducible assumption
    | with_reducible apply arriveOf_keeps
    | with_reducible apply loadAnswer_keeps
    | with_reducible apply sendRsp_keeps
    | with_reducible apply vtApplied_keeps
    | with_reducible apply vtTake_keeps
    | split
    | refine Keeps.of_gone (by assumption) ?_
    | refine Keeps.of_again (by assumption) ?_
    | refine Keeps.of_fresh (by assumption) ?_

theorem recvStore_keeps (i : Nat) (h : Keeps ps s u) (hfree : Part.free ∈ ps) (hregs : Part.regs ∈ ps) (hmem : Part.mem ∈ ps) (hpoison : Part.poison ∈ ps) (haccs : Part.accs ∈ ps) (hcores : Part.cores ∈ ps) (hcoal : Part.coal ∈ ps) (hplots : Part.plots ∈ ps) (hsubst : Part.subst ∈ ps) (hvt : Part.vt ∈ ps) (hlinks : Part.links ∈ ps) (hwins : Part.wins ∈ ps) (hthrs : Part.thrs ∈ ps) (hsows : Part.sows ∈ ps) (hglns : Part.glns ∈ ps) (hcol : Part.col ∈ ps) (htiers : Part.tiers ∈ ps) (hsilo : Part.silo ∈ ps) (hmodel : Part.model ∈ ps) (hhbms : Part.hbms ∈ ps) (hsec : Part.sec ∈ ps) (hcfg : Part.cfg ∈ ps) (hpci : Part.pci ∈ ps) (hserv : Part.serv ∈ ps) (htim : Part.tim ∈ ps) (hpwr : Part.pwr ∈ ps) (hrel : Part.rel ∈ ps) :
    Keeps ps s (recvStore i u) := by
  unfold recvStore
  repeat' first
    | with_reducible assumption
    | with_reducible apply arriveOf_keeps
    | with_reducible apply remoteWrite_keeps
    | with_reducible apply storeMem_keeps
    | with_reducible apply vtApplied_keeps
    | with_reducible apply vtRefused_keeps
    | with_reducible apply vtTake_keeps
    | with_reducible apply Keeps.ite
    | split
    | refine Keeps.of_gone (by assumption) ?_
    | refine Keeps.of_again (by assumption) ?_
    | refine Keeps.of_fresh (by assumption) ?_

theorem msixWrite_keeps (i : Nat) (v : Nat) (h : Keeps ps s u) (hpci : Part.pci ∈ ps) :
    Keeps ps s (msixWrite i v u) := by
  unfold msixWrite
  repeat' first
    | with_reducible assumption
    | split
    | (conv => (arg 3; arg 29)
       refine Keeps.mk' ?_ rfl rfl rfl rfl rfl rfl rfl
        (fun q hn => by cases q <;> first | exact rfl | exact ⟨rfl, rfl⟩ | exact absurd (by assumption) hn))

theorem msixAccess_keeps (off : Nat) (width : Nat) (v : Option Word) (h : Keeps ps s u) (hpci : Part.pci ∈ ps) :
    Keeps ps s (msixAccess off width v u) := by
  unfold msixAccess
  repeat' first
    | with_reducible assumption
    | with_reducible apply complete_keeps
    | with_reducible apply msixUnmask_keeps
    | with_reducible apply msixWrite_keeps
    | split

theorem bar0Access_keeps (off : Nat) (width : Nat) (v : Option Word) (h : Keeps ps s u) (hfree : Part.free ∈ ps) (hregs : Part.regs ∈ ps) (hmem : Part.mem ∈ ps) (hpoison : Part.poison ∈ ps) (haccs : Part.accs ∈ ps) (hcores : Part.cores ∈ ps) (hcoal : Part.coal ∈ ps) (hplots : Part.plots ∈ ps) (hsubst : Part.subst ∈ ps) (hvt : Part.vt ∈ ps) (hlinks : Part.links ∈ ps) (hwins : Part.wins ∈ ps) (hthrs : Part.thrs ∈ ps) (hsows : Part.sows ∈ ps) (hglns : Part.glns ∈ ps) (hcol : Part.col ∈ ps) (htiers : Part.tiers ∈ ps) (hsilo : Part.silo ∈ ps) (hmodel : Part.model ∈ ps) (hhbms : Part.hbms ∈ ps) (hsec : Part.sec ∈ ps) (hcfg : Part.cfg ∈ ps) (hpci : Part.pci ∈ ps) (hserv : Part.serv ∈ ps) (htim : Part.tim ∈ ps) (hpwr : Part.pwr ∈ ps) (hrel : Part.rel ∈ ps) :
    Keeps ps s (bar0Access off width v u) := by
  unfold bar0Access
  repeat' first
    | with_reducible assumption
    | with_reducible apply complete_keeps
    | with_reducible apply msixAccess_keeps
    | with_reducible apply pciNote_keeps
    | with_reducible apply regWrite_keeps
    | with_reducible apply Keeps.ite
    | split

end Sys2Proof.Machine
end

