-- ==== Sys2Proof/Laws/KeepsManagement.lean ====
section
/-!
SUPPORT. What each operation of Machine/Management.lean keeps (Laws/Keeps.lean), and the parts of State it may change.
-/
namespace Sys2Proof.Machine

set_option linter.unreachableTactic false
set_option linter.unusedTactic false
set_option linter.tactic.unusedName false

variable {ps : List Part} {s u : State}

theorem mgtLast_keeps (code : Nat) (cmd : Nat) (h : Keeps ps s u) (hregs : Part.regs ∈ ps) :
    Keeps ps s (mgtLast code cmd u) := by
  unfold mgtLast
  repeat' first
    | with_reducible assumption
    | with_reducible intro _
    | (extract_lets +onlyGivenNames t
       first
       | (refine Keeps.gen ps s t ?_ ?_
          on_goal 1 => subst t
          on_goal 2 => (intro ht; clear_value t))
       | (refine Keeps.gen ps s t.2 ?_ ?_
          on_goal 1 => subst t
          on_goal 2 => (intro ht; clear_value t))
       | (refine Keeps.gen ps s t.2.2 ?_ ?_
          on_goal 1 => subst t
          on_goal 2 => (intro ht; clear_value t))
       | (refine Keeps.genO ps s t ?_ ?_
          on_goal 1 => subst t
          on_goal 2 => (intro ht; clear_value t))
       | (refine Keeps.genO2 ps s t ?_ ?_
          on_goal 1 => subst t
          on_goal 2 => (intro ht; clear_value t))
       | (refine Keeps.gen ps s t.2.2.2 ?_ ?_
          on_goal 1 => subst t
          on_goal 2 => (intro ht; clear_value t))
       | (have hf := fun x => t x
          clear hf
          subst t
          try beta_reduce)
       | clear_value t)
    | with_reducible apply State.set_keeps
    | with_reducible apply Keeps.ite
    | with_reducible apply Keeps.ite2
    | with_reducible apply KeepsO.ite
    | with_reducible apply KeepsO.some
    | with_reducible apply KeepsO2.ite
    | with_reducible apply KeepsO2.some
    | exact KeepsO2.none
    | exact KeepsO.none
    | with_reducible apply Keeps.ite3
    | with_reducible apply Keeps.foldl
    | with_reducible apply Keeps.foldlP
    | split
    | refine Keeps.of_eq2 (by assumption) ?_
    | refine Keeps.of_eq3 (by assumption) ?_
    | refine Keeps.of_some (by assumption) ?_
    | refine Keeps.of_some2 (by assumption) ?_
    | refine Keeps.of_some3 (by assumption) ?_

theorem busError_keeps (h : Keeps ps s u) (hregs : Part.regs ∈ ps) (hcoal : Part.coal ∈ ps) :
    Keeps ps s (busError u) := by
  unfold busError
  repeat' first
    | with_reducible assumption
    | with_reducible intro _
    | (extract_lets +onlyGivenNames t
       first
       | (refine Keeps.gen ps s t ?_ ?_
          on_goal 1 => subst t
          on_goal 2 => (intro ht; clear_value t))
       | (refine Keeps.gen ps s t.2 ?_ ?_
          on_goal 1 => subst t
          on_goal 2 => (intro ht; clear_value t))
       | (refine Keeps.gen ps s t.2.2 ?_ ?_
          on_goal 1 => subst t
          on_goal 2 => (intro ht; clear_value t))
       | (refine Keeps.genO ps s t ?_ ?_
          on_goal 1 => subst t
          on_goal 2 => (intro ht; clear_value t))
       | (refine Keeps.genO2 ps s t ?_ ?_
          on_goal 1 => subst t
          on_goal 2 => (intro ht; clear_value t))
       | (refine Keeps.gen ps s t.2.2.2 ?_ ?_
          on_goal 1 => subst t
          on_goal 2 => (intro ht; clear_value t))
       | (have hf := fun x => t x
          clear hf
          subst t
          try beta_reduce)
       | clear_value t)
    | with_reducible apply State.countSat_keeps
    | with_reducible apply State.raise_keeps
    | with_reducible apply State.report_keeps
    | with_reducible apply mgtLast_keeps
    | with_reducible apply Keeps.ite
    | with_reducible apply Keeps.ite2
    | with_reducible apply KeepsO.ite
    | with_reducible apply KeepsO.some
    | with_reducible apply KeepsO2.ite
    | with_reducible apply KeepsO2.some
    | exact KeepsO2.none
    | exact KeepsO.none
    | with_reducible apply Keeps.ite3
    | with_reducible apply Keeps.foldl
    | with_reducible apply Keeps.foldlP
    | split
    | refine Keeps.of_eq2 (by assumption) ?_
    | refine Keeps.of_eq3 (by assumption) ?_
    | refine Keeps.of_some (by assumption) ?_
    | refine Keeps.of_some2 (by assumption) ?_
    | refine Keeps.of_some3 (by assumption) ?_

theorem respond_keeps (r : MgtRsp) (h : Keeps ps s u) (hmgt : Part.mgt ∈ ps) :
    Keeps ps s (respond r u) := by
  unfold respond
  repeat' first
    | with_reducible assumption
    | with_reducible intro _
    | (extract_lets +onlyGivenNames t
       first
       | (refine Keeps.gen ps s t ?_ ?_
          on_goal 1 => subst t
          on_goal 2 => (intro ht; clear_value t))
       | (refine Keeps.gen ps s t.2 ?_ ?_
          on_goal 1 => subst t
          on_goal 2 => (intro ht; clear_value t))
       | (refine Keeps.gen ps s t.2.2 ?_ ?_
          on_goal 1 => subst t
          on_goal 2 => (intro ht; clear_value t))
       | (refine Keeps.genO ps s t ?_ ?_
          on_goal 1 => subst t
          on_goal 2 => (intro ht; clear_value t))
       | (refine Keeps.genO2 ps s t ?_ ?_
          on_goal 1 => subst t
          on_goal 2 => (intro ht; clear_value t))
       | (refine Keeps.gen ps s t.2.2.2 ?_ ?_
          on_goal 1 => subst t
          on_goal 2 => (intro ht; clear_value t))
       | (have hf := fun x => t x
          clear hf
          subst t
          try beta_reduce)
       | clear_value t)
    | with_reducible apply Keeps.ite
    | with_reducible apply Keeps.ite2
    | with_reducible apply KeepsO.ite
    | with_reducible apply KeepsO.some
    | with_reducible apply KeepsO2.ite
    | with_reducible apply KeepsO2.some
    | exact KeepsO2.none
    | exact KeepsO.none
    | with_reducible apply Keeps.ite3
    | with_reducible apply Keeps.foldl
    | with_reducible apply Keeps.foldlP
    | split
    | refine Keeps.of_eq2 (by assumption) ?_
    | refine Keeps.of_eq3 (by assumption) ?_
    | refine Keeps.of_some (by assumption) ?_
    | refine Keeps.of_some2 (by assumption) ?_
    | refine Keeps.of_some3 (by assumption) ?_
    | dsimp only
    | (conv => (arg 3; arg 29)
       refine Keeps.mk' ?_ rfl rfl rfl rfl rfl rfl rfl
        (fun q hn => by cases q <;> first | exact rfl | exact ⟨rfl, rfl⟩ | exact absurd (by assumption) hn))

theorem entdaa_keeps (addr : Nat) (h : Keeps ps s u) (hregs : Part.regs ∈ ps) (hmgt : Part.mgt ∈ ps) :
    Keeps ps s (entdaa addr u) := by
  unfold entdaa
  repeat' first
    | with_reducible assumption
    | with_reducible intro _
    | (extract_lets +onlyGivenNames t
       first
       | (refine Keeps.gen ps s t ?_ ?_
          on_goal 1 => subst t
          on_goal 2 => (intro ht; clear_value t))
       | (refine Keeps.gen ps s t.2 ?_ ?_
          on_goal 1 => subst t
          on_goal 2 => (intro ht; clear_value t))
       | (refine Keeps.gen ps s t.2.2 ?_ ?_
          on_goal 1 => subst t
          on_goal 2 => (intro ht; clear_value t))
       | (refine Keeps.genO ps s t ?_ ?_
          on_goal 1 => subst t
          on_goal 2 => (intro ht; clear_value t))
       | (refine Keeps.genO2 ps s t ?_ ?_
          on_goal 1 => subst t
          on_goal 2 => (intro ht; clear_value t))
       | (refine Keeps.gen ps s t.2.2.2 ?_ ?_
          on_goal 1 => subst t
          on_goal 2 => (intro ht; clear_value t))
       | (have hf := fun x => t x
          clear hf
          subst t
          try beta_reduce)
       | clear_value t)
    | with_reducible apply State.set_keeps
    | with_reducible apply Keeps.ite
    | with_reducible apply Keeps.ite2
    | with_reducible apply KeepsO.ite
    | with_reducible apply KeepsO.some
    | with_reducible apply KeepsO2.ite
    | with_reducible apply KeepsO2.some
    | exact KeepsO2.none
    | exact KeepsO.none
    | with_reducible apply Keeps.ite3
    | with_reducible apply Keeps.foldl
    | with_reducible apply Keeps.foldlP
    | split
    | refine Keeps.of_eq2 (by assumption) ?_
    | refine Keeps.of_eq3 (by assumption) ?_
    | refine Keeps.of_some (by assumption) ?_
    | refine Keeps.of_some2 (by assumption) ?_
    | refine Keeps.of_some3 (by assumption) ?_
    | dsimp only
    | (conv => (arg 3; arg 29)
       refine Keeps.mk' ?_ rfl rfl rfl rfl rfl rfl rfl
        (fun q hn => by cases q <;> first | exact rfl | exact ⟨rfl, rfl⟩ | exact absurd (by assumption) hn))

theorem smbusFallback_keeps (addr : Nat) (h : Keeps ps s u) (hregs : Part.regs ∈ ps) (hmgt : Part.mgt ∈ ps) :
    Keeps ps s (smbusFallback addr u) := by
  unfold smbusFallback
  repeat' first
    | with_reducible assumption
    | with_reducible intro _
    | (extract_lets +onlyGivenNames t
       first
       | (refine Keeps.gen ps s t ?_ ?_
          on_goal 1 => subst t
          on_goal 2 => (intro ht; clear_value t))
       | (refine Keeps.gen ps s t.2 ?_ ?_
          on_goal 1 => subst t
          on_goal 2 => (intro ht; clear_value t))
       | (refine Keeps.gen ps s t.2.2 ?_ ?_
          on_goal 1 => subst t
          on_goal 2 => (intro ht; clear_value t))
       | (refine Keeps.genO ps s t ?_ ?_
          on_goal 1 => subst t
          on_goal 2 => (intro ht; clear_value t))
       | (refine Keeps.genO2 ps s t ?_ ?_
          on_goal 1 => subst t
          on_goal 2 => (intro ht; clear_value t))
       | (refine Keeps.gen ps s t.2.2.2 ?_ ?_
          on_goal 1 => subst t
          on_goal 2 => (intro ht; clear_value t))
       | (have hf := fun x => t x
          clear hf
          subst t
          try beta_reduce)
       | clear_value t)
    | with_reducible apply State.set_keeps
    | with_reducible apply Keeps.ite
    | with_reducible apply Keeps.ite2
    | with_reducible apply KeepsO.ite
    | with_reducible apply KeepsO.some
    | with_reducible apply KeepsO2.ite
    | with_reducible apply KeepsO2.some
    | exact KeepsO2.none
    | exact KeepsO.none
    | with_reducible apply Keeps.ite3
    | with_reducible apply Keeps.foldl
    | with_reducible apply Keeps.foldlP
    | split
    | refine Keeps.of_eq2 (by assumption) ?_
    | refine Keeps.of_eq3 (by assumption) ?_
    | refine Keeps.of_some (by assumption) ?_
    | refine Keeps.of_some2 (by assumption) ?_
    | refine Keeps.of_some3 (by assumption) ?_
    | dsimp only
    | (conv => (arg 3; arg 29)
       refine Keeps.mk' ?_ rfl rfl rfl rfl rfl rfl rfl
        (fun q hn => by cases q <;> first | exact rfl | exact ⟨rfl, rfl⟩ | exact absurd (by assumption) hn))

theorem mgtServe_keeps (q : MgtReq) (f : State → State) (h : Keeps ps s u) (h_f : ∀ t, Keeps ps s t → Keeps ps s (f t)) (hregs : Part.regs ∈ ps) (hcoal : Part.coal ∈ ps) (hmgt : Part.mgt ∈ ps) :
    Keeps ps s (mgtServe q f u) := by
  unfold mgtServe
  repeat' first
    | with_reducible assumption
    | with_reducible intro _
    | (extract_lets +onlyGivenNames t
       first
       | (refine Keeps.gen ps s t ?_ ?_
          on_goal 1 => subst t
          on_goal 2 => (intro ht; clear_value t))
       | (refine Keeps.gen ps s t.2 ?_ ?_
          on_goal 1 => subst t
          on_goal 2 => (intro ht; clear_value t))
       | (refine Keeps.gen ps s t.2.2 ?_ ?_
          on_goal 1 => subst t
          on_goal 2 => (intro ht; clear_value t))
       | (refine Keeps.genO ps s t ?_ ?_
          on_goal 1 => subst t
          on_goal 2 => (intro ht; clear_value t))
       | (refine Keeps.genO2 ps s t ?_ ?_
          on_goal 1 => subst t
          on_goal 2 => (intro ht; clear_value t))
       | (refine Keeps.gen ps s t.2.2.2 ?_ ?_
          on_goal 1 => subst t
          on_goal 2 => (intro ht; clear_value t))
       | (have hf := fun x => t x
          clear hf
          subst t
          try beta_reduce)
       | clear_value t)
    | (with_reducible apply_assumption)
    | with_reducible apply busError_keeps
    | with_reducible apply mgtLast_keeps
    | with_reducible apply respond_keeps
    | with_reducible apply Keeps.ite
    | with_reducible apply Keeps.ite2
    | with_reducible apply KeepsO.ite
    | with_reducible apply KeepsO.some
    | with_reducible apply KeepsO2.ite
    | with_reducible apply KeepsO2.some
    | exact KeepsO2.none
    | exact KeepsO.none
    | with_reducible apply Keeps.ite3
    | with_reducible apply Keeps.foldl
    | with_reducible apply Keeps.foldlP
    | split
    | refine Keeps.of_eq2 (by assumption) ?_
    | refine Keeps.of_eq3 (by assumption) ?_
    | refine Keeps.of_some (by assumption) ?_
    | refine Keeps.of_some2 (by assumption) ?_
    | refine Keeps.of_some3 (by assumption) ?_

theorem mctpAnswer_keeps (r : MctpReq) (h : Keeps ps s u) (hfree : Part.free ∈ ps) (hregs : Part.regs ∈ ps) (hmgt : Part.mgt ∈ ps) :
    Keeps ps s (mctpAnswer r u) := by
  unfold mctpAnswer
  repeat' first
    | with_reducible assumption
    | with_reducible intro _
    | (extract_lets +onlyGivenNames t
       first
       | (refine Keeps.gen ps s t ?_ ?_
          on_goal 1 => subst t
          on_goal 2 => (intro ht; clear_value t))
       | (refine Keeps.gen ps s t.2 ?_ ?_
          on_goal 1 => subst t
          on_goal 2 => (intro ht; clear_value t))
       | (refine Keeps.gen ps s t.2.2 ?_ ?_
          on_goal 1 => subst t
          on_goal 2 => (intro ht; clear_value t))
       | (refine Keeps.genO ps s t ?_ ?_
          on_goal 1 => subst t
          on_goal 2 => (intro ht; clear_value t))
       | (refine Keeps.genO2 ps s t ?_ ?_
          on_goal 1 => subst t
          on_goal 2 => (intro ht; clear_value t))
       | (refine Keeps.gen ps s t.2.2.2 ?_ ?_
          on_goal 1 => subst t
          on_goal 2 => (intro ht; clear_value t))
       | (have hf := fun x => t x
          clear hf
          subst t
          try beta_reduce)
       | clear_value t)
    | with_reducible apply State.drawWord_keeps
    | with_reducible apply State.set_keeps
    | with_reducible apply respond_keeps
    | with_reducible apply Keeps.ite
    | with_reducible apply Keeps.ite2
    | with_reducible apply KeepsO.ite
    | with_reducible apply KeepsO.some
    | with_reducible apply KeepsO2.ite
    | with_reducible apply KeepsO2.some
    | exact KeepsO2.none
    | exact KeepsO.none
    | with_reducible apply Keeps.ite3
    | with_reducible apply Keeps.foldl
    | with_reducible apply Keeps.foldlP
    | split
    | refine Keeps.of_eq2 (by assumption) ?_
    | refine Keeps.of_eq3 (by assumption) ?_
    | refine Keeps.of_some (by assumption) ?_
    | refine Keeps.of_some2 (by assumption) ?_
    | refine Keeps.of_some3 (by assumption) ?_

theorem mctpControl_keeps (q : MgtReq) (r : MctpReq) (h : Keeps ps s u) (hfree : Part.free ∈ ps) (hregs : Part.regs ∈ ps) (hcoal : Part.coal ∈ ps) (hmgt : Part.mgt ∈ ps) :
    Keeps ps s (mctpControl q r u) := by
  unfold mctpControl
  repeat' first
    | with_reducible assumption
    | with_reducible intro _
    | (extract_lets +onlyGivenNames t
       first
       | (refine Keeps.gen ps s t ?_ ?_
          on_goal 1 => subst t
          on_goal 2 => (intro ht; clear_value t))
       | (refine Keeps.gen ps s t.2 ?_ ?_
          on_goal 1 => subst t
          on_goal 2 => (intro ht; clear_value t))
       | (refine Keeps.gen ps s t.2.2 ?_ ?_
          on_goal 1 => subst t
          on_goal 2 => (intro ht; clear_value t))
       | (refine Keeps.genO ps s t ?_ ?_
          on_goal 1 => subst t
          on_goal 2 => (intro ht; clear_value t))
       | (refine Keeps.genO2 ps s t ?_ ?_
          on_goal 1 => subst t
          on_goal 2 => (intro ht; clear_value t))
       | (refine Keeps.gen ps s t.2.2.2 ?_ ?_
          on_goal 1 => subst t
          on_goal 2 => (intro ht; clear_value t))
       | (have hf := fun x => t x
          clear hf
          subst t
          try beta_reduce)
       | clear_value t)
    | with_reducible apply mctpAnswer_keeps
    | with_reducible apply mgtServe_keeps
    | with_reducible apply respond_keeps
    | with_reducible apply Keeps.ite
    | with_reducible apply Keeps.ite2
    | with_reducible apply KeepsO.ite
    | with_reducible apply KeepsO.some
    | with_reducible apply KeepsO2.ite
    | with_reducible apply KeepsO2.some
    | exact KeepsO2.none
    | exact KeepsO.none
    | with_reducible apply Keeps.ite3
    | with_reducible apply Keeps.foldl
    | with_reducible apply Keeps.foldlP
    | split
    | refine Keeps.of_eq2 (by assumption) ?_
    | refine Keeps.of_eq3 (by assumption) ?_
    | refine Keeps.of_some (by assumption) ?_
    | refine Keeps.of_some2 (by assumption) ?_
    | refine Keeps.of_some3 (by assumption) ?_

theorem spdmError_keeps (code : Nat) (h : Keeps ps s u) (hmgt : Part.mgt ∈ ps) :
    Keeps ps s (spdmError code u) := by
  unfold spdmError
  repeat' first
    | with_reducible assumption
    | with_reducible intro _
    | (extract_lets +onlyGivenNames t
       first
       | (refine Keeps.gen ps s t ?_ ?_
          on_goal 1 => subst t
          on_goal 2 => (intro ht; clear_value t))
       | (refine Keeps.gen ps s t.2 ?_ ?_
          on_goal 1 => subst t
          on_goal 2 => (intro ht; clear_value t))
       | (refine Keeps.gen ps s t.2.2 ?_ ?_
          on_goal 1 => subst t
          on_goal 2 => (intro ht; clear_value t))
       | (refine Keeps.genO ps s t ?_ ?_
          on_goal 1 => subst t
          on_goal 2 => (intro ht; clear_value t))
       | (refine Keeps.genO2 ps s t ?_ ?_
          on_goal 1 => subst t
          on_goal 2 => (intro ht; clear_value t))
       | (refine Keeps.gen ps s t.2.2.2 ?_ ?_
          on_goal 1 => subst t
          on_goal 2 => (intro ht; clear_value t))
       | (have hf := fun x => t x
          clear hf
          subst t
          try beta_reduce)
       | clear_value t)
    | with_reducible apply respond_keeps
    | with_reducible apply Keeps.ite
    | with_reducible apply Keeps.ite2
    | with_reducible apply KeepsO.ite
    | with_reducible apply KeepsO.some
    | with_reducible apply KeepsO2.ite
    | with_reducible apply KeepsO2.some
    | exact KeepsO2.none
    | exact KeepsO.none
    | with_reducible apply Keeps.ite3
    | with_reducible apply Keeps.foldl
    | with_reducible apply Keeps.foldlP
    | split
    | refine Keeps.of_eq2 (by assumption) ?_
    | refine Keeps.of_eq3 (by assumption) ?_
    | refine Keeps.of_some (by assumption) ?_
    | refine Keeps.of_some2 (by assumption) ?_
    | refine Keeps.of_some3 (by assumption) ?_

theorem spdmSigned_keeps (kind : Nat) (body : List Byte) (nonce : List Byte) (h : Keeps ps s u) (hfree : Part.free ∈ ps) (hmgt : Part.mgt ∈ ps) :
    Keeps ps s (spdmSigned kind body nonce u) := by
  unfold spdmSigned
  repeat' first
    | with_reducible assumption
    | with_reducible intro _
    | (extract_lets +onlyGivenNames t
       first
       | (refine Keeps.gen ps s t ?_ ?_
          on_goal 1 => subst t
          on_goal 2 => (intro ht; clear_value t))
       | (refine Keeps.gen ps s t.2 ?_ ?_
          on_goal 1 => subst t
          on_goal 2 => (intro ht; clear_value t))
       | (refine Keeps.gen ps s t.2.2 ?_ ?_
          on_goal 1 => subst t
          on_goal 2 => (intro ht; clear_value t))
       | (refine Keeps.genO ps s t ?_ ?_
          on_goal 1 => subst t
          on_goal 2 => (intro ht; clear_value t))
       | (refine Keeps.genO2 ps s t ?_ ?_
          on_goal 1 => subst t
          on_goal 2 => (intro ht; clear_value t))
       | (refine Keeps.gen ps s t.2.2.2 ?_ ?_
          on_goal 1 => subst t
          on_goal 2 => (intro ht; clear_value t))
       | (have hf := fun x => t x
          clear hf
          subst t
          try beta_reduce)
       | clear_value t)
    | with_reducible apply drawWords_keeps
    | with_reducible apply respond_keeps
    | with_reducible apply spdmError_keeps
    | with_reducible apply Keeps.ite
    | with_reducible apply Keeps.ite2
    | with_reducible apply KeepsO.ite
    | with_reducible apply KeepsO.some
    | with_reducible apply KeepsO2.ite
    | with_reducible apply KeepsO2.some
    | exact KeepsO2.none
    | exact KeepsO.none
    | with_reducible apply Keeps.ite3
    | with_reducible apply Keeps.foldl
    | with_reducible apply Keeps.foldlP
    | split
    | refine Keeps.of_eq2 (by assumption) ?_
    | refine Keeps.of_eq3 (by assumption) ?_
    | refine Keeps.of_some (by assumption) ?_
    | refine Keeps.of_some2 (by assumption) ?_
    | refine Keeps.of_some3 (by assumption) ?_

theorem spdmAnswer_keeps (r : SpdmReq) (h : Keeps ps s u) (hfree : Part.free ∈ ps) (hmgt : Part.mgt ∈ ps) :
    Keeps ps s (spdmAnswer r u) := by
  unfold spdmAnswer
  repeat' first
    | with_reducible assumption
    | with_reducible intro _
    | (extract_lets +onlyGivenNames t
       first
       | (refine Keeps.gen ps s t ?_ ?_
          on_goal 1 => subst t
          on_goal 2 => (intro ht; clear_value t))
       | (refine Keeps.gen ps s t.2 ?_ ?_
          on_goal 1 => subst t
          on_goal 2 => (intro ht; clear_value t))
       | (refine Keeps.gen ps s t.2.2 ?_ ?_
          on_goal 1 => subst t
          on_goal 2 => (intro ht; clear_value t))
       | (refine Keeps.genO ps s t ?_ ?_
          on_goal 1 => subst t
          on_goal 2 => (intro ht; clear_value t))
       | (refine Keeps.genO2 ps s t ?_ ?_
          on_goal 1 => subst t
          on_goal 2 => (intro ht; clear_value t))
       | (refine Keeps.gen ps s t.2.2.2 ?_ ?_
          on_goal 1 => subst t
          on_goal 2 => (intro ht; clear_value t))
       | (have hf := fun x => t x
          clear hf
          subst t
          try beta_reduce)
       | clear_value t)
    | with_reducible apply respond_keeps
    | with_reducible apply spdmError_keeps
    | with_reducible apply spdmSigned_keeps
    | with_reducible apply Keeps.ite
    | with_reducible apply Keeps.ite2
    | with_reducible apply KeepsO.ite
    | with_reducible apply KeepsO.some
    | with_reducible apply KeepsO2.ite
    | with_reducible apply KeepsO2.some
    | exact KeepsO2.none
    | exact KeepsO.none
    | with_reducible apply Keeps.ite3
    | with_reducible apply Keeps.foldl
    | with_reducible apply Keeps.foldlP
    | split
    | refine Keeps.of_eq2 (by assumption) ?_
    | refine Keeps.of_eq3 (by assumption) ?_
    | refine Keeps.of_some (by assumption) ?_
    | refine Keeps.of_some2 (by assumption) ?_
    | refine Keeps.of_some3 (by assumption) ?_
    | dsimp only
    | (conv => (arg 3; arg 29)
       refine Keeps.mk' ?_ rfl rfl rfl rfl rfl rfl rfl
        (fun q hn => by cases q <;> first | exact rfl | exact ⟨rfl, rfl⟩ | exact absurd (by assumption) hn))

theorem spdmRequest_keeps (q : MgtReq) (r : SpdmReq) (h : Keeps ps s u) (hfree : Part.free ∈ ps) (hregs : Part.regs ∈ ps) (hcoal : Part.coal ∈ ps) (hmgt : Part.mgt ∈ ps) :
    Keeps ps s (spdmRequest q r u) := by
  unfold spdmRequest
  repeat' first
    | with_reducible assumption
    | with_reducible intro _
    | (extract_lets +onlyGivenNames t
       first
       | (refine Keeps.gen ps s t ?_ ?_
          on_goal 1 => subst t
          on_goal 2 => (intro ht; clear_value t))
       | (refine Keeps.gen ps s t.2 ?_ ?_
          on_goal 1 => subst t
          on_goal 2 => (intro ht; clear_value t))
       | (refine Keeps.gen ps s t.2.2 ?_ ?_
          on_goal 1 => subst t
          on_goal 2 => (intro ht; clear_value t))
       | (refine Keeps.genO ps s t ?_ ?_
          on_goal 1 => subst t
          on_goal 2 => (intro ht; clear_value t))
       | (refine Keeps.genO2 ps s t ?_ ?_
          on_goal 1 => subst t
          on_goal 2 => (intro ht; clear_value t))
       | (refine Keeps.gen ps s t.2.2.2 ?_ ?_
          on_goal 1 => subst t
          on_goal 2 => (intro ht; clear_value t))
       | (have hf := fun x => t x
          clear hf
          subst t
          try beta_reduce)
       | clear_value t)
    | with_reducible apply mgtServe_keeps
    | with_reducible apply spdmAnswer_keeps
    | with_reducible apply spdmError_keeps
    | with_reducible apply Keeps.ite
    | with_reducible apply Keeps.ite2
    | with_reducible apply KeepsO.ite
    | with_reducible apply KeepsO.some
    | with_reducible apply KeepsO2.ite
    | with_reducible apply KeepsO2.some
    | exact KeepsO2.none
    | exact KeepsO.none
    | with_reducible apply Keeps.ite3
    | with_reducible apply Keeps.foldl
    | with_reducible apply Keeps.foldlP
    | split
    | refine Keeps.of_eq2 (by assumption) ?_
    | refine Keeps.of_eq3 (by assumption) ?_
    | refine Keeps.of_some (by assumption) ?_
    | refine Keeps.of_some2 (by assumption) ?_
    | refine Keeps.of_some3 (by assumption) ?_

theorem telemetryFrame_keeps (skipped : Bool) (h : Keeps ps s u) (hregs : Part.regs ∈ ps) :
    Keeps ps s (telemetryFrame skipped u) := by
  unfold telemetryFrame
  repeat' first
    | with_reducible assumption
    | with_reducible intro _
    | (extract_lets +onlyGivenNames t
       first
       | (refine Keeps.gen ps s t ?_ ?_
          on_goal 1 => subst t
          on_goal 2 => (intro ht; clear_value t))
       | (refine Keeps.gen ps s t.2 ?_ ?_
          on_goal 1 => subst t
          on_goal 2 => (intro ht; clear_value t))
       | (refine Keeps.gen ps s t.2.2 ?_ ?_
          on_goal 1 => subst t
          on_goal 2 => (intro ht; clear_value t))
       | (refine Keeps.genO ps s t ?_ ?_
          on_goal 1 => subst t
          on_goal 2 => (intro ht; clear_value t))
       | (refine Keeps.genO2 ps s t ?_ ?_
          on_goal 1 => subst t
          on_goal 2 => (intro ht; clear_value t))
       | (refine Keeps.gen ps s t.2.2.2 ?_ ?_
          on_goal 1 => subst t
          on_goal 2 => (intro ht; clear_value t))
       | (have hf := fun x => t x
          clear hf
          subst t
          try beta_reduce)
       | clear_value t)
    | with_reducible apply State.countSat_keeps
    | with_reducible apply State.set_keeps
    | with_reducible apply Keeps.ite
    | with_reducible apply Keeps.ite2
    | with_reducible apply KeepsO.ite
    | with_reducible apply KeepsO.some
    | with_reducible apply KeepsO2.ite
    | with_reducible apply KeepsO2.some
    | exact KeepsO2.none
    | exact KeepsO.none
    | with_reducible apply Keeps.ite3
    | with_reducible apply Keeps.foldl
    | with_reducible apply Keeps.foldlP
    | split
    | refine Keeps.of_eq2 (by assumption) ?_
    | refine Keeps.of_eq3 (by assumption) ?_
    | refine Keeps.of_some (by assumption) ?_
    | refine Keeps.of_some2 (by assumption) ?_
    | refine Keeps.of_some3 (by assumption) ?_

theorem pldmSensorRead_keeps (q : MgtReq) (id : Nat) (h : Keeps ps s u) (hregs : Part.regs ∈ ps) (hcoal : Part.coal ∈ ps) (hmgt : Part.mgt ∈ ps) :
    Keeps ps s (pldmSensorRead q id u) := by
  unfold pldmSensorRead
  repeat' first
    | with_reducible assumption
    | with_reducible intro _
    | (extract_lets +onlyGivenNames t
       first
       | (refine Keeps.gen ps s t ?_ ?_
          on_goal 1 => subst t
          on_goal 2 => (intro ht; clear_value t))
       | (refine Keeps.gen ps s t.2 ?_ ?_
          on_goal 1 => subst t
          on_goal 2 => (intro ht; clear_value t))
       | (refine Keeps.gen ps s t.2.2 ?_ ?_
          on_goal 1 => subst t
          on_goal 2 => (intro ht; clear_value t))
       | (refine Keeps.genO ps s t ?_ ?_
          on_goal 1 => subst t
          on_goal 2 => (intro ht; clear_value t))
       | (refine Keeps.genO2 ps s t ?_ ?_
          on_goal 1 => subst t
          on_goal 2 => (intro ht; clear_value t))
       | (refine Keeps.gen ps s t.2.2.2 ?_ ?_
          on_goal 1 => subst t
          on_goal 2 => (intro ht; clear_value t))
       | (have hf := fun x => t x
          clear hf
          subst t
          try beta_reduce)
       | clear_value t)
    | with_reducible apply mgtServe_keeps
    | with_reducible apply respond_keeps
    | with_reducible apply Keeps.ite
    | with_reducible apply Keeps.ite2
    | with_reducible apply KeepsO.ite
    | with_reducible apply KeepsO.some
    | with_reducible apply KeepsO2.ite
    | with_reducible apply KeepsO2.some
    | exact KeepsO2.none
    | exact KeepsO.none
    | with_reducible apply Keeps.ite3
    | with_reducible apply Keeps.foldl
    | with_reducible apply Keeps.foldlP
    | split
    | refine Keeps.of_eq2 (by assumption) ?_
    | refine Keeps.of_eq3 (by assumption) ?_
    | refine Keeps.of_some (by assumption) ?_
    | refine Keeps.of_some2 (by assumption) ?_
    | refine Keeps.of_some3 (by assumption) ?_

theorem platformEvent_keeps (e : PEvent) (delivered : Bool) (h : Keeps ps s u) (hregs : Part.regs ∈ ps) (hmgt : Part.mgt ∈ ps) :
    Keeps ps s (platformEvent e delivered u) := by
  unfold platformEvent
  repeat' first
    | with_reducible assumption
    | with_reducible intro _
    | (extract_lets +onlyGivenNames t
       first
       | (refine Keeps.gen ps s t ?_ ?_
          on_goal 1 => subst t
          on_goal 2 => (intro ht; clear_value t))
       | (refine Keeps.gen ps s t.2 ?_ ?_
          on_goal 1 => subst t
          on_goal 2 => (intro ht; clear_value t))
       | (refine Keeps.gen ps s t.2.2 ?_ ?_
          on_goal 1 => subst t
          on_goal 2 => (intro ht; clear_value t))
       | (refine Keeps.genO ps s t ?_ ?_
          on_goal 1 => subst t
          on_goal 2 => (intro ht; clear_value t))
       | (refine Keeps.genO2 ps s t ?_ ?_
          on_goal 1 => subst t
          on_goal 2 => (intro ht; clear_value t))
       | (refine Keeps.gen ps s t.2.2.2 ?_ ?_
          on_goal 1 => subst t
          on_goal 2 => (intro ht; clear_value t))
       | (have hf := fun x => t x
          clear hf
          subst t
          try beta_reduce)
       | clear_value t)
    | with_reducible apply State.raise_keeps
    | with_reducible apply Keeps.ite
    | with_reducible apply Keeps.ite2
    | with_reducible apply KeepsO.ite
    | with_reducible apply KeepsO.some
    | with_reducible apply KeepsO2.ite
    | with_reducible apply KeepsO2.some
    | exact KeepsO2.none
    | exact KeepsO.none
    | with_reducible apply Keeps.ite3
    | with_reducible apply Keeps.foldl
    | with_reducible apply Keeps.foldlP
    | split
    | refine Keeps.of_eq2 (by assumption) ?_
    | refine Keeps.of_eq3 (by assumption) ?_
    | refine Keeps.of_some (by assumption) ?_
    | refine Keeps.of_some2 (by assumption) ?_
    | refine Keeps.of_some3 (by assumption) ?_
    | dsimp only
    | (conv => (arg 3; arg 29)
       refine Keeps.mk' ?_ rfl rfl rfl rfl rfl rfl rfl
        (fun q hn => by cases q <;> first | exact rfl | exact ⟨rfl, rfl⟩ | exact absurd (by assumption) hn))

theorem fwupFail_keeps (code : Nat) (c : Nat) (h : Keeps ps s u) (hregs : Part.regs ∈ ps) (hmgt : Part.mgt ∈ ps) :
    Keeps ps s (fwupFail code c u) := by
  unfold fwupFail
  repeat' first
    | with_reducible assumption
    | with_reducible intro _
    | (extract_lets +onlyGivenNames t
       first
       | (refine Keeps.gen ps s t ?_ ?_
          on_goal 1 => subst t
          on_goal 2 => (intro ht; clear_value t))
       | (refine Keeps.gen ps s t.2 ?_ ?_
          on_goal 1 => subst t
          on_goal 2 => (intro ht; clear_value t))
       | (refine Keeps.gen ps s t.2.2 ?_ ?_
          on_goal 1 => subst t
          on_goal 2 => (intro ht; clear_value t))
       | (refine Keeps.genO ps s t ?_ ?_
          on_goal 1 => subst t
          on_goal 2 => (intro ht; clear_value t))
       | (refine Keeps.genO2 ps s t ?_ ?_
          on_goal 1 => subst t
          on_goal 2 => (intro ht; clear_value t))
       | (refine Keeps.gen ps s t.2.2.2 ?_ ?_
          on_goal 1 => subst t
          on_goal 2 => (intro ht; clear_value t))
       | (have hf := fun x => t x
          clear hf
          subst t
          try beta_reduce)
       | clear_value t)
    | with_reducible apply State.raise_keeps
    | with_reducible apply State.set_keeps
    | with_reducible apply mgtLast_keeps
    | with_reducible apply Keeps.ite
    | with_reducible apply Keeps.ite2
    | with_reducible apply KeepsO.ite
    | with_reducible apply KeepsO.some
    | with_reducible apply KeepsO2.ite
    | with_reducible apply KeepsO2.some
    | exact KeepsO2.none
    | exact KeepsO.none
    | with_reducible apply Keeps.ite3
    | with_reducible apply Keeps.foldl
    | with_reducible apply Keeps.foldlP
    | split
    | refine Keeps.of_eq2 (by assumption) ?_
    | refine Keeps.of_eq3 (by assumption) ?_
    | refine Keeps.of_some (by assumption) ?_
    | refine Keeps.of_some2 (by assumption) ?_
    | refine Keeps.of_some3 (by assumption) ?_
    | dsimp only
    | (conv => (arg 3; arg 29)
       refine Keeps.mk' ?_ rfl rfl rfl rfl rfl rfl rfl
        (fun q hn => by cases q <;> first | exact rfl | exact ⟨rfl, rfl⟩ | exact absurd (by assumption) hn))

theorem fwupVerify_keeps (h : Keeps ps s u) (hregs : Part.regs ∈ ps) (hmgt : Part.mgt ∈ ps) :
    Keeps ps s (fwupVerify u) := by
  unfold fwupVerify
  repeat' first
    | with_reducible assumption
    | with_reducible intro _
    | (extract_lets +onlyGivenNames t
       first
       | (refine Keeps.gen ps s t ?_ ?_
          on_goal 1 => subst t
          on_goal 2 => (intro ht; clear_value t))
       | (refine Keeps.gen ps s t.2 ?_ ?_
          on_goal 1 => subst t
          on_goal 2 => (intro ht; clear_value t))
       | (refine Keeps.gen ps s t.2.2 ?_ ?_
          on_goal 1 => subst t
          on_goal 2 => (intro ht; clear_value t))
       | (refine Keeps.genO ps s t ?_ ?_
          on_goal 1 => subst t
          on_goal 2 => (intro ht; clear_value t))
       | (refine Keeps.genO2 ps s t ?_ ?_
          on_goal 1 => subst t
          on_goal 2 => (intro ht; clear_value t))
       | (refine Keeps.gen ps s t.2.2.2 ?_ ?_
          on_goal 1 => subst t
          on_goal 2 => (intro ht; clear_value t))
       | (have hf := fun x => t x
          clear hf
          subst t
          try beta_reduce)
       | clear_value t)
    | with_reducible apply State.set_keeps
    | with_reducible apply fwupFail_keeps
    | with_reducible apply respond_keeps
    | with_reducible apply Keeps.ite
    | with_reducible apply Keeps.ite2
    | with_reducible apply KeepsO.ite
    | with_reducible apply KeepsO.some
    | with_reducible apply KeepsO2.ite
    | with_reducible apply KeepsO2.some
    | exact KeepsO2.none
    | exact KeepsO.none
    | with_reducible apply Keeps.ite3
    | with_reducible apply Keeps.foldl
    | with_reducible apply Keeps.foldlP
    | split
    | refine Keeps.of_eq2 (by assumption) ?_
    | refine Keeps.of_eq3 (by assumption) ?_
    | refine Keeps.of_some (by assumption) ?_
    | refine Keeps.of_some2 (by assumption) ?_
    | refine Keeps.of_some3 (by assumption) ?_
    | dsimp only
    | (conv => (arg 3; arg 29)
       refine Keeps.mk' ?_ rfl rfl rfl rfl rfl rfl rfl
        (fun q hn => by cases q <;> first | exact rfl | exact ⟨rfl, rfl⟩ | exact absurd (by assumption) hn))

theorem fwupApply_keeps (ok : Bool) (h : Keeps ps s u) (hfree : Part.free ∈ ps) (hregs : Part.regs ∈ ps) (hcfg : Part.cfg ∈ ps) (hmgt : Part.mgt ∈ ps) :
    Keeps ps s (fwupApply ok u) := by
  unfold fwupApply
  repeat' first
    | with_reducible assumption
    | with_reducible intro _
    | (extract_lets +onlyGivenNames t
       first
       | (refine Keeps.gen ps s t ?_ ?_
          on_goal 1 => subst t
          on_goal 2 => (intro ht; clear_value t))
       | (refine Keeps.gen ps s t.2 ?_ ?_
          on_goal 1 => subst t
          on_goal 2 => (intro ht; clear_value t))
       | (refine Keeps.gen ps s t.2.2 ?_ ?_
          on_goal 1 => subst t
          on_goal 2 => (intro ht; clear_value t))
       | (refine Keeps.genO ps s t ?_ ?_
          on_goal 1 => subst t
          on_goal 2 => (intro ht; clear_value t))
       | (refine Keeps.genO2 ps s t ?_ ?_
          on_goal 1 => subst t
          on_goal 2 => (intro ht; clear_value t))
       | (refine Keeps.gen ps s t.2.2.2 ?_ ?_
          on_goal 1 => subst t
          on_goal 2 => (intro ht; clear_value t))
       | (have hf := fun x => t x
          clear hf
          subst t
          try beta_reduce)
       | clear_value t)
    | with_reducible apply State.raise_keeps
    | with_reducible apply State.set_keeps
    | with_reducible apply flashLost_keeps
    | with_reducible apply flashPut_keeps
    | with_reducible apply fwupFail_keeps
    | with_reducible apply respond_keeps
    | with_reducible apply Keeps.ite
    | with_reducible apply Keeps.ite2
    | with_reducible apply KeepsO.ite
    | with_reducible apply KeepsO.some
    | with_reducible apply KeepsO2.ite
    | with_reducible apply KeepsO2.some
    | exact KeepsO2.none
    | exact KeepsO.none
    | with_reducible apply Keeps.ite3
    | with_reducible apply Keeps.foldl
    | with_reducible apply Keeps.foldlP
    | split
    | refine Keeps.of_eq2 (by assumption) ?_
    | refine Keeps.of_eq3 (by assumption) ?_
    | refine Keeps.of_some (by assumption) ?_
    | refine Keeps.of_some2 (by assumption) ?_
    | refine Keeps.of_some3 (by assumption) ?_
    | dsimp only
    | (conv => (arg 3; arg 29)
       refine Keeps.mk' ?_ rfl rfl rfl rfl rfl rfl rfl
        (fun q hn => by cases q <;> first | exact rfl | exact ⟨rfl, rfl⟩ | exact absurd (by assumption) hn))

theorem fwupStep_keeps (f : FwStep) (h : Keeps ps s u) (hfree : Part.free ∈ ps) (hregs : Part.regs ∈ ps) (hcfg : Part.cfg ∈ ps) (hmgt : Part.mgt ∈ ps) :
    Keeps ps s (fwupStep f u) := by
  unfold fwupStep
  repeat' first
    | with_reducible assumption
    | with_reducible intro _
    | (extract_lets +onlyGivenNames t
       first
       | (refine Keeps.gen ps s t ?_ ?_
          on_goal 1 => subst t
          on_goal 2 => (intro ht; clear_value t))
       | (refine Keeps.gen ps s t.2 ?_ ?_
          on_goal 1 => subst t
          on_goal 2 => (intro ht; clear_value t))
       | (refine Keeps.gen ps s t.2.2 ?_ ?_
          on_goal 1 => subst t
          on_goal 2 => (intro ht; clear_value t))
       | (refine Keeps.genO ps s t ?_ ?_
          on_goal 1 => subst t
          on_goal 2 => (intro ht; clear_value t))
       | (refine Keeps.genO2 ps s t ?_ ?_
          on_goal 1 => subst t
          on_goal 2 => (intro ht; clear_value t))
       | (refine Keeps.gen ps s t.2.2.2 ?_ ?_
          on_goal 1 => subst t
          on_goal 2 => (intro ht; clear_value t))
       | (have hf := fun x => t x
          clear hf
          subst t
          try beta_reduce)
       | clear_value t)
    | with_reducible apply State.set_keeps
    | with_reducible apply cutUpdate_keeps
    | with_reducible apply fwupApply_keeps
    | with_reducible apply fwupVerify_keeps
    | with_reducible apply respond_keeps
    | with_reducible apply Keeps.ite
    | with_reducible apply Keeps.ite2
    | with_reducible apply KeepsO.ite
    | with_reducible apply KeepsO.some
    | with_reducible apply KeepsO2.ite
    | with_reducible apply KeepsO2.some
    | exact KeepsO2.none
    | exact KeepsO.none
    | with_reducible apply Keeps.ite3
    | with_reducible apply Keeps.foldl
    | with_reducible apply Keeps.foldlP
    | split
    | refine Keeps.of_eq2 (by assumption) ?_
    | refine Keeps.of_eq3 (by assumption) ?_
    | refine Keeps.of_some (by assumption) ?_
    | refine Keeps.of_some2 (by assumption) ?_
    | refine Keeps.of_some3 (by assumption) ?_
    | dsimp only
    | (conv => (arg 3; arg 29)
       refine Keeps.mk' ?_ rfl rfl rfl rfl rfl rfl rfl
        (fun q hn => by cases q <;> first | exact rfl | exact ⟨rfl, rfl⟩ | exact absurd (by assumption) hn))

theorem pldmFwUpdate_keeps (q : MgtReq) (f : FwStep) (h : Keeps ps s u) (hfree : Part.free ∈ ps) (hregs : Part.regs ∈ ps) (hcoal : Part.coal ∈ ps) (hcfg : Part.cfg ∈ ps) (hmgt : Part.mgt ∈ ps) :
    Keeps ps s (pldmFwUpdate q f u) := by
  unfold pldmFwUpdate
  repeat' first
    | with_reducible assumption
    | with_reducible intro _
    | (extract_lets +onlyGivenNames t
       first
       | (refine Keeps.gen ps s t ?_ ?_
          on_goal 1 => subst t
          on_goal 2 => (intro ht; clear_value t))
       | (refine Keeps.gen ps s t.2 ?_ ?_
          on_goal 1 => subst t
          on_goal 2 => (intro ht; clear_value t))
       | (refine Keeps.gen ps s t.2.2 ?_ ?_
          on_goal 1 => subst t
          on_goal 2 => (intro ht; clear_value t))
       | (refine Keeps.genO ps s t ?_ ?_
          on_goal 1 => subst t
          on_goal 2 => (intro ht; clear_value t))
       | (refine Keeps.genO2 ps s t ?_ ?_
          on_goal 1 => subst t
          on_goal 2 => (intro ht; clear_value t))
       | (refine Keeps.gen ps s t.2.2.2 ?_ ?_
          on_goal 1 => subst t
          on_goal 2 => (intro ht; clear_value t))
       | (have hf := fun x => t x
          clear hf
          subst t
          try beta_reduce)
       | clear_value t)
    | with_reducible apply fwupStep_keeps
    | with_reducible apply mgtServe_keeps
    | with_reducible apply respond_keeps
    | with_reducible apply Keeps.ite
    | with_reducible apply Keeps.ite2
    | with_reducible apply KeepsO.ite
    | with_reducible apply KeepsO.some
    | with_reducible apply KeepsO2.ite
    | with_reducible apply KeepsO2.some
    | exact KeepsO2.none
    | exact KeepsO.none
    | with_reducible apply Keeps.ite3
    | with_reducible apply Keeps.foldl
    | with_reducible apply Keeps.foldlP
    | split
    | refine Keeps.of_eq2 (by assumption) ?_
    | refine Keeps.of_eq3 (by assumption) ?_
    | refine Keeps.of_some (by assumption) ?_
    | refine Keeps.of_some2 (by assumption) ?_
    | refine Keeps.of_some3 (by assumption) ?_

theorem renrelAnswer_keeps (cmd : Nat) (q : MgtReq) (r : Nat × List Byte × State) (h : Keeps ps s r.2.2) (hregs : Part.regs ∈ ps) (hmgt : Part.mgt ∈ ps) :
    Keeps ps s (renrelAnswer cmd q r) := by
  unfold renrelAnswer
  repeat' first
    | with_reducible assumption
    | with_reducible intro _
    | (extract_lets +onlyGivenNames t
       first
       | (refine Keeps.gen ps s t ?_ ?_
          on_goal 1 => subst t
          on_goal 2 => (intro ht; clear_value t))
       | (refine Keeps.gen ps s t.2 ?_ ?_
          on_goal 1 => subst t
          on_goal 2 => (intro ht; clear_value t))
       | (refine Keeps.gen ps s t.2.2 ?_ ?_
          on_goal 1 => subst t
          on_goal 2 => (intro ht; clear_value t))
       | (refine Keeps.genO ps s t ?_ ?_
          on_goal 1 => subst t
          on_goal 2 => (intro ht; clear_value t))
       | (refine Keeps.genO2 ps s t ?_ ?_
          on_goal 1 => subst t
          on_goal 2 => (intro ht; clear_value t))
       | (refine Keeps.gen ps s t.2.2.2 ?_ ?_
          on_goal 1 => subst t
          on_goal 2 => (intro ht; clear_value t))
       | (have hf := fun x => t x
          clear hf
          subst t
          try beta_reduce)
       | clear_value t)
    | with_reducible apply State.countSat_keeps
    | with_reducible apply mgtLast_keeps
    | with_reducible apply respond_keeps
    | with_reducible apply Keeps.ite
    | with_reducible apply Keeps.ite2
    | with_reducible apply KeepsO.ite
    | with_reducible apply KeepsO.some
    | with_reducible apply KeepsO2.ite
    | with_reducible apply KeepsO2.some
    | exact KeepsO2.none
    | exact KeepsO.none
    | with_reducible apply Keeps.ite3
    | with_reducible apply Keeps.foldl
    | with_reducible apply Keeps.foldlP
    | split
    | refine Keeps.of_eq2 (by assumption) ?_
    | refine Keeps.of_eq3 (by assumption) ?_
    | refine Keeps.of_some (by assumption) ?_
    | refine Keeps.of_some2 (by assumption) ?_
    | refine Keeps.of_some3 (by assumption) ?_

theorem renrel_keeps (cmd : Nat) (q : MgtReq) (good : Bool) (can : Bool) (f : State → Nat × List Byte × State) (h : Keeps ps s u) (h_f : ∀ t, Keeps ps s t → Keeps ps s (f t).2.2) (hregs : Part.regs ∈ ps) (hcoal : Part.coal ∈ ps) (hmgt : Part.mgt ∈ ps) :
    Keeps ps s (renrel cmd q good can f u) := by
  unfold renrel
  repeat' first
    | with_reducible assumption
    | with_reducible intro _
    | (extract_lets +onlyGivenNames t
       first
       | (refine Keeps.gen ps s t ?_ ?_
          on_goal 1 => subst t
          on_goal 2 => (intro ht; clear_value t))
       | (refine Keeps.gen ps s t.2 ?_ ?_
          on_goal 1 => subst t
          on_goal 2 => (intro ht; clear_value t))
       | (refine Keeps.gen ps s t.2.2 ?_ ?_
          on_goal 1 => subst t
          on_goal 2 => (intro ht; clear_value t))
       | (refine Keeps.genO ps s t ?_ ?_
          on_goal 1 => subst t
          on_goal 2 => (intro ht; clear_value t))
       | (refine Keeps.genO2 ps s t ?_ ?_
          on_goal 1 => subst t
          on_goal 2 => (intro ht; clear_value t))
       | (refine Keeps.gen ps s t.2.2.2 ?_ ?_
          on_goal 1 => subst t
          on_goal 2 => (intro ht; clear_value t))
       | (have hf := fun x => t x
          clear hf
          subst t
          try beta_reduce)
       | clear_value t)
    | (with_reducible apply_assumption)
    | with_reducible apply busError_keeps
    | with_reducible apply renrelAnswer_keeps
    | with_reducible apply Keeps.ite
    | with_reducible apply Keeps.ite2
    | with_reducible apply KeepsO.ite
    | with_reducible apply KeepsO.some
    | with_reducible apply KeepsO2.ite
    | with_reducible apply KeepsO2.some
    | exact KeepsO2.none
    | exact KeepsO.none
    | with_reducible apply Keeps.ite3
    | with_reducible apply Keeps.foldl
    | with_reducible apply Keeps.foldlP
    | split
    | refine Keeps.of_eq2 (by assumption) ?_
    | refine Keeps.of_eq3 (by assumption) ?_
    | refine Keeps.of_some (by assumption) ?_
    | refine Keeps.of_some2 (by assumption) ?_
    | refine Keeps.of_some3 (by assumption) ?_

theorem getId_keeps (q : MgtReq) (h : Keeps ps s u) (hregs : Part.regs ∈ ps) (hcoal : Part.coal ∈ ps) (hmgt : Part.mgt ∈ ps) :
    Keeps ps s (getId q u) := by
  unfold getId
  repeat' first
    | with_reducible assumption
    | with_reducible intro _
    | (extract_lets +onlyGivenNames t
       first
       | (refine Keeps.gen ps s t ?_ ?_
          on_goal 1 => subst t
          on_goal 2 => (intro ht; clear_value t))
       | (refine Keeps.gen ps s t.2 ?_ ?_
          on_goal 1 => subst t
          on_goal 2 => (intro ht; clear_value t))
       | (refine Keeps.gen ps s t.2.2 ?_ ?_
          on_goal 1 => subst t
          on_goal 2 => (intro ht; clear_value t))
       | (refine Keeps.genO ps s t ?_ ?_
          on_goal 1 => subst t
          on_goal 2 => (intro ht; clear_value t))
       | (refine Keeps.genO2 ps s t ?_ ?_
          on_goal 1 => subst t
          on_goal 2 => (intro ht; clear_value t))
       | (refine Keeps.gen ps s t.2.2.2 ?_ ?_
          on_goal 1 => subst t
          on_goal 2 => (intro ht; clear_value t))
       | (have hf := fun x => t x
          clear hf
          subst t
          try beta_reduce)
       | clear_value t)
    | with_reducible apply renrel_keeps
    | with_reducible apply Keeps.ite
    | with_reducible apply Keeps.ite2
    | with_reducible apply KeepsO.ite
    | with_reducible apply KeepsO.some
    | with_reducible apply KeepsO2.ite
    | with_reducible apply KeepsO2.some
    | exact KeepsO2.none
    | exact KeepsO.none
    | with_reducible apply Keeps.ite3
    | with_reducible apply Keeps.foldl
    | with_reducible apply Keeps.foldlP
    | split
    | refine Keeps.of_eq2 (by assumption) ?_
    | refine Keeps.of_eq3 (by assumption) ?_
    | refine Keeps.of_some (by assumption) ?_
    | refine Keeps.of_some2 (by assumption) ?_
    | refine Keeps.of_some3 (by assumption) ?_

theorem getStatus_keeps (q : MgtReq) (h : Keeps ps s u) (hregs : Part.regs ∈ ps) (hcoal : Part.coal ∈ ps) (hmgt : Part.mgt ∈ ps) :
    Keeps ps s (getStatus q u) := by
  unfold getStatus
  repeat' first
    | with_reducible assumption
    | with_reducible intro _
    | (extract_lets +onlyGivenNames t
       first
       | (refine Keeps.gen ps s t ?_ ?_
          on_goal 1 => subst t
          on_goal 2 => (intro ht; clear_value t))
       | (refine Keeps.gen ps s t.2 ?_ ?_
          on_goal 1 => subst t
          on_goal 2 => (intro ht; clear_value t))
       | (refine Keeps.gen ps s t.2.2 ?_ ?_
          on_goal 1 => subst t
          on_goal 2 => (intro ht; clear_value t))
       | (refine Keeps.genO ps s t ?_ ?_
          on_goal 1 => subst t
          on_goal 2 => (intro ht; clear_value t))
       | (refine Keeps.genO2 ps s t ?_ ?_
          on_goal 1 => subst t
          on_goal 2 => (intro ht; clear_value t))
       | (refine Keeps.gen ps s t.2.2.2 ?_ ?_
          on_goal 1 => subst t
          on_goal 2 => (intro ht; clear_value t))
       | (have hf := fun x => t x
          clear hf
          subst t
          try beta_reduce)
       | clear_value t)
    | with_reducible apply renrel_keeps
    | with_reducible apply Keeps.ite
    | with_reducible apply Keeps.ite2
    | with_reducible apply KeepsO.ite
    | with_reducible apply KeepsO.some
    | with_reducible apply KeepsO2.ite
    | with_reducible apply KeepsO2.some
    | exact KeepsO2.none
    | exact KeepsO.none
    | with_reducible apply Keeps.ite3
    | with_reducible apply Keeps.foldl
    | with_reducible apply Keeps.foldlP
    | split
    | refine Keeps.of_eq2 (by assumption) ?_
    | refine Keeps.of_eq3 (by assumption) ?_
    | refine Keeps.of_some (by assumption) ?_
    | refine Keeps.of_some2 (by assumption) ?_
    | refine Keeps.of_some3 (by assumption) ?_

theorem readReg_keeps (q : MgtReq) (a : Nat) (n : Nat) (h : Keeps ps s u) (hregs : Part.regs ∈ ps) (hcoal : Part.coal ∈ ps) (hmgt : Part.mgt ∈ ps) :
    Keeps ps s (readReg q a n u) := by
  unfold readReg
  repeat' first
    | with_reducible assumption
    | with_reducible intro _
    | (extract_lets +onlyGivenNames t
       first
       | (refine Keeps.gen ps s t ?_ ?_
          on_goal 1 => subst t
          on_goal 2 => (intro ht; clear_value t))
       | (refine Keeps.gen ps s t.2 ?_ ?_
          on_goal 1 => subst t
          on_goal 2 => (intro ht; clear_value t))
       | (refine Keeps.gen ps s t.2.2 ?_ ?_
          on_goal 1 => subst t
          on_goal 2 => (intro ht; clear_value t))
       | (refine Keeps.genO ps s t ?_ ?_
          on_goal 1 => subst t
          on_goal 2 => (intro ht; clear_value t))
       | (refine Keeps.genO2 ps s t ?_ ?_
          on_goal 1 => subst t
          on_goal 2 => (intro ht; clear_value t))
       | (refine Keeps.gen ps s t.2.2.2 ?_ ?_
          on_goal 1 => subst t
          on_goal 2 => (intro ht; clear_value t))
       | (have hf := fun x => t x
          clear hf
          subst t
          try beta_reduce)
       | clear_value t)
    | with_reducible apply renrel_keeps
    | with_reducible apply Keeps.ite
    | with_reducible apply Keeps.ite2
    | with_reducible apply KeepsO.ite
    | with_reducible apply KeepsO.some
    | with_reducible apply KeepsO2.ite
    | with_reducible apply KeepsO2.some
    | exact KeepsO2.none
    | exact KeepsO.none
    | with_reducible apply Keeps.ite3
    | with_reducible apply Keeps.foldl
    | with_reducible apply Keeps.foldlP
    | split
    | refine Keeps.of_eq2 (by assumption) ?_
    | refine Keeps.of_eq3 (by assumption) ?_
    | refine Keeps.of_some (by assumption) ?_
    | refine Keeps.of_some2 (by assumption) ?_
    | refine Keeps.of_some3 (by assumption) ?_

theorem writeReg_keeps (q : MgtReq) (a : Nat) (v : Word) (h : Keeps ps s u) (hfree : Part.free ∈ ps) (hregs : Part.regs ∈ ps) (hmem : Part.mem ∈ ps) (hpoison : Part.poison ∈ ps) (haccs : Part.accs ∈ ps) (hcores : Part.cores ∈ ps) (hcoal : Part.coal ∈ ps) (hplots : Part.plots ∈ ps) (hsubst : Part.subst ∈ ps) (hvt : Part.vt ∈ ps) (hlinks : Part.links ∈ ps) (hwins : Part.wins ∈ ps) (hthrs : Part.thrs ∈ ps) (hsows : Part.sows ∈ ps) (hglns : Part.glns ∈ ps) (hcol : Part.col ∈ ps) (htiers : Part.tiers ∈ ps) (hsilo : Part.silo ∈ ps) (hmodel : Part.model ∈ ps) (hhbms : Part.hbms ∈ ps) (hsec : Part.sec ∈ ps) (hcfg : Part.cfg ∈ ps) (hpci : Part.pci ∈ ps) (hserv : Part.serv ∈ ps) (htim : Part.tim ∈ ps) (hpwr : Part.pwr ∈ ps) (hrel : Part.rel ∈ ps) (hmgt : Part.mgt ∈ ps) :
    Keeps ps s (writeReg q a v u) := by
  unfold writeReg
  repeat' first
    | with_reducible assumption
    | with_reducible intro _
    | with_reducible apply regWrite_keeps
    | with_reducible apply renrel_keeps
    | split
    | dsimp only

theorem telemRead_keeps (q : MgtReq) (h : Keeps ps s u) (hregs : Part.regs ∈ ps) (hcoal : Part.coal ∈ ps) (hmgt : Part.mgt ∈ ps) :
    Keeps ps s (telemRead q u) := by
  unfold telemRead
  repeat' first
    | with_reducible assumption
    | with_reducible intro _
    | (extract_lets +onlyGivenNames t
       first
       | (refine Keeps.gen ps s t ?_ ?_
          on_goal 1 => subst t
          on_goal 2 => (intro ht; clear_value t))
       | (refine Keeps.gen ps s t.2 ?_ ?_
          on_goal 1 => subst t
          on_goal 2 => (intro ht; clear_value t))
       | (refine Keeps.gen ps s t.2.2 ?_ ?_
          on_goal 1 => subst t
          on_goal 2 => (intro ht; clear_value t))
       | (refine Keeps.genO ps s t ?_ ?_
          on_goal 1 => subst t
          on_goal 2 => (intro ht; clear_value t))
       | (refine Keeps.genO2 ps s t ?_ ?_
          on_goal 1 => subst t
          on_goal 2 => (intro ht; clear_value t))
       | (refine Keeps.gen ps s t.2.2.2 ?_ ?_
          on_goal 1 => subst t
          on_goal 2 => (intro ht; clear_value t))
       | (have hf := fun x => t x
          clear hf
          subst t
          try beta_reduce)
       | clear_value t)
    | with_reducible apply renrel_keeps
    | with_reducible apply Keeps.ite
    | with_reducible apply Keeps.ite2
    | with_reducible apply KeepsO.ite
    | with_reducible apply KeepsO.some
    | with_reducible apply KeepsO2.ite
    | with_reducible apply KeepsO2.some
    | exact KeepsO2.none
    | exact KeepsO.none
    | with_reducible apply Keeps.ite3
    | with_reducible apply Keeps.foldl
    | with_reducible apply Keeps.foldlP
    | split
    | refine Keeps.of_eq2 (by assumption) ?_
    | refine Keeps.of_eq3 (by assumption) ?_
    | refine Keeps.of_some (by assumption) ?_
    | refine Keeps.of_some2 (by assumption) ?_
    | refine Keeps.of_some3 (by assumption) ?_

theorem bbRead_keeps (q : MgtReq) (seq : Nat) (n : Nat) (h : Keeps ps s u) (hregs : Part.regs ∈ ps) (hcoal : Part.coal ∈ ps) (hmgt : Part.mgt ∈ ps) :
    Keeps ps s (bbRead q seq n u) := by
  unfold bbRead
  repeat' first
    | with_reducible assumption
    | with_reducible intro _
    | (extract_lets +onlyGivenNames t
       first
       | (refine Keeps.gen ps s t ?_ ?_
          on_goal 1 => subst t
          on_goal 2 => (intro ht; clear_value t))
       | (refine Keeps.gen ps s t.2 ?_ ?_
          on_goal 1 => subst t
          on_goal 2 => (intro ht; clear_value t))
       | (refine Keeps.gen ps s t.2.2 ?_ ?_
          on_goal 1 => subst t
          on_goal 2 => (intro ht; clear_value t))
       | (refine Keeps.genO ps s t ?_ ?_
          on_goal 1 => subst t
          on_goal 2 => (intro ht; clear_value t))
       | (refine Keeps.genO2 ps s t ?_ ?_
          on_goal 1 => subst t
          on_goal 2 => (intro ht; clear_value t))
       | (refine Keeps.gen ps s t.2.2.2 ?_ ?_
          on_goal 1 => subst t
          on_goal 2 => (intro ht; clear_value t))
       | (have hf := fun x => t x
          clear hf
          subst t
          try beta_reduce)
       | clear_value t)
    | with_reducible apply renrel_keeps
    | with_reducible apply Keeps.ite
    | with_reducible apply Keeps.ite2
    | with_reducible apply KeepsO.ite
    | with_reducible apply KeepsO.some
    | with_reducible apply KeepsO2.ite
    | with_reducible apply KeepsO2.some
    | exact KeepsO2.none
    | exact KeepsO.none
    | with_reducible apply Keeps.ite3
    | with_reducible apply Keeps.foldl
    | with_reducible apply Keeps.foldlP
    | split
    | refine Keeps.of_eq2 (by assumption) ?_
    | refine Keeps.of_eq3 (by assumption) ?_
    | refine Keeps.of_some (by assumption) ?_
    | refine Keeps.of_some2 (by assumption) ?_
    | refine Keeps.of_some3 (by assumption) ?_

theorem bbSlotRead_keeps (q : MgtReq) (slot : Nat) (first : Nat) (n : Nat) (h : Keeps ps s u) (hregs : Part.regs ∈ ps) (hcoal : Part.coal ∈ ps) (hmgt : Part.mgt ∈ ps) :
    Keeps ps s (bbSlotRead q slot first n u) := by
  unfold bbSlotRead
  repeat' first
    | with_reducible assumption
    | with_reducible intro _
    | (extract_lets +onlyGivenNames t
       first
       | (refine Keeps.gen ps s t ?_ ?_
          on_goal 1 => subst t
          on_goal 2 => (intro ht; clear_value t))
       | (refine Keeps.gen ps s t.2 ?_ ?_
          on_goal 1 => subst t
          on_goal 2 => (intro ht; clear_value t))
       | (refine Keeps.gen ps s t.2.2 ?_ ?_
          on_goal 1 => subst t
          on_goal 2 => (intro ht; clear_value t))
       | (refine Keeps.genO ps s t ?_ ?_
          on_goal 1 => subst t
          on_goal 2 => (intro ht; clear_value t))
       | (refine Keeps.genO2 ps s t ?_ ?_
          on_goal 1 => subst t
          on_goal 2 => (intro ht; clear_value t))
       | (refine Keeps.gen ps s t.2.2.2 ?_ ?_
          on_goal 1 => subst t
          on_goal 2 => (intro ht; clear_value t))
       | (have hf := fun x => t x
          clear hf
          subst t
          try beta_reduce)
       | clear_value t)
    | with_reducible apply renrel_keeps
    | with_reducible apply Keeps.ite
    | with_reducible apply Keeps.ite2
    | with_reducible apply KeepsO.ite
    | with_reducible apply KeepsO.some
    | with_reducible apply KeepsO2.ite
    | with_reducible apply KeepsO2.some
    | exact KeepsO2.none
    | exact KeepsO.none
    | with_reducible apply Keeps.ite3
    | with_reducible apply Keeps.foldl
    | with_reducible apply Keeps.foldlP
    | split
    | refine Keeps.of_eq2 (by assumption) ?_
    | refine Keeps.of_eq3 (by assumption) ?_
    | refine Keeps.of_some (by assumption) ?_
    | refine Keeps.of_some2 (by assumption) ?_
    | refine Keeps.of_some3 (by assumption) ?_

theorem bbUnfreeze_keeps (q : MgtReq) (h : Keeps ps s u) (hregs : Part.regs ∈ ps) (hcoal : Part.coal ∈ ps) (hmgt : Part.mgt ∈ ps) :
    Keeps ps s (bbUnfreeze q u) := by
  unfold bbUnfreeze
  repeat' first
    | with_reducible assumption
    | with_reducible intro _
    | (extract_lets +onlyGivenNames t
       first
       | (refine Keeps.gen ps s t ?_ ?_
          on_goal 1 => subst t
          on_goal 2 => (intro ht; clear_value t))
       | (refine Keeps.gen ps s t.2 ?_ ?_
          on_goal 1 => subst t
          on_goal 2 => (intro ht; clear_value t))
       | (refine Keeps.gen ps s t.2.2 ?_ ?_
          on_goal 1 => subst t
          on_goal 2 => (intro ht; clear_value t))
       | (refine Keeps.genO ps s t ?_ ?_
          on_goal 1 => subst t
          on_goal 2 => (intro ht; clear_value t))
       | (refine Keeps.genO2 ps s t ?_ ?_
          on_goal 1 => subst t
          on_goal 2 => (intro ht; clear_value t))
       | (refine Keeps.gen ps s t.2.2.2 ?_ ?_
          on_goal 1 => subst t
          on_goal 2 => (intro ht; clear_value t))
       | (have hf := fun x => t x
          clear hf
          subst t
          try beta_reduce)
       | clear_value t)
    | with_reducible apply renrel_keeps
    | with_reducible apply unfreeze_keeps
    | with_reducible apply Keeps.ite
    | with_reducible apply Keeps.ite2
    | with_reducible apply KeepsO.ite
    | with_reducible apply KeepsO.some
    | with_reducible apply KeepsO2.ite
    | with_reducible apply KeepsO2.some
    | exact KeepsO2.none
    | exact KeepsO.none
    | with_reducible apply Keeps.ite3
    | with_reducible apply Keeps.foldl
    | with_reducible apply Keeps.foldlP
    | split
    | refine Keeps.of_eq2 (by assumption) ?_
    | refine Keeps.of_eq3 (by assumption) ?_
    | refine Keeps.of_some (by assumption) ?_
    | refine Keeps.of_some2 (by assumption) ?_
    | refine Keeps.of_some3 (by assumption) ?_

theorem imgBegin_keeps (q : MgtReq) (kind : Nat) (size : Nat) (h : Keeps ps s u) (hfree : Part.free ∈ ps) (hregs : Part.regs ∈ ps) (hcoal : Part.coal ∈ ps) (hmgt : Part.mgt ∈ ps) :
    Keeps ps s (imgBegin q kind size u) := by
  unfold imgBegin
  repeat' first
    | with_reducible assumption
    | with_reducible intro _
    | (extract_lets +onlyGivenNames t
       first
       | (refine Keeps.gen ps s t ?_ ?_
          on_goal 1 => subst t
          on_goal 2 => (intro ht; clear_value t))
       | (refine Keeps.gen ps s t.2 ?_ ?_
          on_goal 1 => subst t
          on_goal 2 => (intro ht; clear_value t))
       | (refine Keeps.gen ps s t.2.2 ?_ ?_
          on_goal 1 => subst t
          on_goal 2 => (intro ht; clear_value t))
       | (refine Keeps.genO ps s t ?_ ?_
          on_goal 1 => subst t
          on_goal 2 => (intro ht; clear_value t))
       | (refine Keeps.genO2 ps s t ?_ ?_
          on_goal 1 => subst t
          on_goal 2 => (intro ht; clear_value t))
       | (refine Keeps.gen ps s t.2.2.2 ?_ ?_
          on_goal 1 => subst t
          on_goal 2 => (intro ht; clear_value t))
       | (have hf := fun x => t x
          clear hf
          subst t
          try beta_reduce)
       | clear_value t)
    | with_reducible apply renrel_keeps
    | with_reducible apply Keeps.ite
    | with_reducible apply Keeps.ite2
    | with_reducible apply KeepsO.ite
    | with_reducible apply KeepsO.some
    | with_reducible apply KeepsO2.ite
    | with_reducible apply KeepsO2.some
    | exact KeepsO2.none
    | exact KeepsO.none
    | with_reducible apply Keeps.ite3
    | with_reducible apply Keeps.foldl
    | with_reducible apply Keeps.foldlP
    | split
    | refine Keeps.of_eq2 (by assumption) ?_
    | refine Keeps.of_eq3 (by assumption) ?_
    | refine Keeps.of_some (by assumption) ?_
    | refine Keeps.of_some2 (by assumption) ?_
    | refine Keeps.of_some3 (by assumption) ?_
    | dsimp only
    | (conv => (arg 3; arg 29)
       refine Keeps.mk' ?_ rfl rfl rfl rfl rfl rfl rfl
        (fun q hn => by cases q <;> first | exact rfl | exact ⟨rfl, rfl⟩ | exact absurd (by assumption) hn))

theorem imgDataCmd_keeps (q : MgtReq) (off : Nat) (bs : List Byte) (h : Keeps ps s u) (hregs : Part.regs ∈ ps) (hcoal : Part.coal ∈ ps) (hmgt : Part.mgt ∈ ps) :
    Keeps ps s (imgDataCmd q off bs u) := by
  unfold imgDataCmd
  repeat' first
    | with_reducible assumption
    | with_reducible intro _
    | (extract_lets +onlyGivenNames t
       first
       | (refine Keeps.gen ps s t ?_ ?_
          on_goal 1 => subst t
          on_goal 2 => (intro ht; clear_value t))
       | (refine Keeps.gen ps s t.2 ?_ ?_
          on_goal 1 => subst t
          on_goal 2 => (intro ht; clear_value t))
       | (refine Keeps.gen ps s t.2.2 ?_ ?_
          on_goal 1 => subst t
          on_goal 2 => (intro ht; clear_value t))
       | (refine Keeps.genO ps s t ?_ ?_
          on_goal 1 => subst t
          on_goal 2 => (intro ht; clear_value t))
       | (refine Keeps.genO2 ps s t ?_ ?_
          on_goal 1 => subst t
          on_goal 2 => (intro ht; clear_value t))
       | (refine Keeps.gen ps s t.2.2.2 ?_ ?_
          on_goal 1 => subst t
          on_goal 2 => (intro ht; clear_value t))
       | (have hf := fun x => t x
          clear hf
          subst t
          try beta_reduce)
       | clear_value t)
    | with_reducible apply renrel_keeps
    | with_reducible apply Keeps.ite
    | with_reducible apply Keeps.ite2
    | with_reducible apply KeepsO.ite
    | with_reducible apply KeepsO.some
    | with_reducible apply KeepsO2.ite
    | with_reducible apply KeepsO2.some
    | exact KeepsO2.none
    | exact KeepsO.none
    | with_reducible apply Keeps.ite3
    | with_reducible apply Keeps.foldl
    | with_reducible apply Keeps.foldlP
    | split
    | refine Keeps.of_eq2 (by assumption) ?_
    | refine Keeps.of_eq3 (by assumption) ?_
    | refine Keeps.of_some (by assumption) ?_
    | refine Keeps.of_some2 (by assumption) ?_
    | refine Keeps.of_some3 (by assumption) ?_
    | dsimp only
    | (conv => (arg 3; arg 29)
       refine Keeps.mk' ?_ rfl rfl rfl rfl rfl rfl rfl
        (fun q hn => by cases q <;> first | exact rfl | exact ⟨rfl, rfl⟩ | exact absurd (by assumption) hn))

theorem imgPush_keeps (b : ImgBuf) (h : Keeps ps s u) (hregs : Part.regs ∈ ps) (hsec : Part.sec ∈ ps) (hcfg : Part.cfg ∈ ps) (hmgt : Part.mgt ∈ ps) :
    Keeps ps s (imgPush b u).2.2 := by
  unfold imgPush
  repeat' first
    | with_reducible assumption
    | with_reducible intro _
    | (extract_lets +onlyGivenNames t
       first
       | (refine Keeps.gen ps s t ?_ ?_
          on_goal 1 => subst t
          on_goal 2 => (intro ht; clear_value t))
       | (refine Keeps.gen ps s t.2 ?_ ?_
          on_goal 1 => subst t
          on_goal 2 => (intro ht; clear_value t))
       | (refine Keeps.gen ps s t.2.2 ?_ ?_
          on_goal 1 => subst t
          on_goal 2 => (intro ht; clear_value t))
       | (refine Keeps.genO ps s t ?_ ?_
          on_goal 1 => subst t
          on_goal 2 => (intro ht; clear_value t))
       | (refine Keeps.genO2 ps s t ?_ ?_
          on_goal 1 => subst t
          on_goal 2 => (intro ht; clear_value t))
       | (refine Keeps.gen ps s t.2.2.2 ?_ ?_
          on_goal 1 => subst t
          on_goal 2 => (intro ht; clear_value t))
       | (have hf := fun x => t x
          clear hf
          subst t
          try beta_reduce)
       | clear_value t)
    | with_reducible apply acceptBoot_keeps
    | with_reducible apply imgEvent_keeps
    | with_reducible apply noteCheck_keeps
    | with_reducible apply takeAmend_keeps
    | with_reducible apply Keeps.ite
    | with_reducible apply Keeps.ite2
    | with_reducible apply KeepsO.ite
    | with_reducible apply KeepsO.some
    | with_reducible apply KeepsO2.ite
    | with_reducible apply KeepsO2.some
    | exact KeepsO2.none
    | exact KeepsO.none
    | with_reducible apply Keeps.ite3
    | with_reducible apply Keeps.foldl
    | with_reducible apply Keeps.foldlP
    | split
    | refine Keeps.of_eq2 (by assumption) ?_
    | refine Keeps.of_eq3 (by assumption) ?_
    | refine Keeps.of_some (by assumption) ?_
    | refine Keeps.of_some2 (by assumption) ?_
    | refine Keeps.of_some3 (by assumption) ?_
    | dsimp only
    | (conv => (arg 3; arg 29)
       refine Keeps.mk' ?_ rfl rfl rfl rfl rfl rfl rfl
        (fun q hn => by cases q <;> first | exact rfl | exact ⟨rfl, rfl⟩ | exact absurd (by assumption) hn))

theorem imgEnd_keeps (q : MgtReq) (h : Keeps ps s u) (hregs : Part.regs ∈ ps) (hcoal : Part.coal ∈ ps) (hsec : Part.sec ∈ ps) (hcfg : Part.cfg ∈ ps) (hmgt : Part.mgt ∈ ps) :
    Keeps ps s (imgEnd q u) := by
  unfold imgEnd
  repeat' first
    | with_reducible assumption
    | with_reducible intro _
    | (extract_lets +onlyGivenNames t
       first
       | (refine Keeps.gen ps s t ?_ ?_
          on_goal 1 => subst t
          on_goal 2 => (intro ht; clear_value t))
       | (refine Keeps.gen ps s t.2 ?_ ?_
          on_goal 1 => subst t
          on_goal 2 => (intro ht; clear_value t))
       | (refine Keeps.gen ps s t.2.2 ?_ ?_
          on_goal 1 => subst t
          on_goal 2 => (intro ht; clear_value t))
       | (refine Keeps.genO ps s t ?_ ?_
          on_goal 1 => subst t
          on_goal 2 => (intro ht; clear_value t))
       | (refine Keeps.genO2 ps s t ?_ ?_
          on_goal 1 => subst t
          on_goal 2 => (intro ht; clear_value t))
       | (refine Keeps.gen ps s t.2.2.2 ?_ ?_
          on_goal 1 => subst t
          on_goal 2 => (intro ht; clear_value t))
       | (have hf := fun x => t x
          clear hf
          subst t
          try beta_reduce)
       | clear_value t)
    | with_reducible apply imgPush_keeps
    | with_reducible apply renrel_keeps
    | with_reducible apply Keeps.ite
    | with_reducible apply Keeps.ite2
    | with_reducible apply KeepsO.ite
    | with_reducible apply KeepsO.some
    | with_reducible apply KeepsO2.ite
    | with_reducible apply KeepsO2.some
    | exact KeepsO2.none
    | exact KeepsO.none
    | with_reducible apply Keeps.ite3
    | with_reducible apply Keeps.foldl
    | with_reducible apply Keeps.foldlP
    | split
    | refine Keeps.of_eq2 (by assumption) ?_
    | refine Keeps.of_eq3 (by assumption) ?_
    | refine Keeps.of_some (by assumption) ?_
    | refine Keeps.of_some2 (by assumption) ?_
    | refine Keeps.of_some3 (by assumption) ?_

theorem getNonce_keeps (q : MgtReq) (h : Keeps ps s u) (hfree : Part.free ∈ ps) (hregs : Part.regs ∈ ps) (hcoal : Part.coal ∈ ps) (hsec : Part.sec ∈ ps) (hmgt : Part.mgt ∈ ps) :
    Keeps ps s (getNonce q u) := by
  unfold getNonce
  repeat' first
    | with_reducible assumption
    | with_reducible intro _
    | (extract_lets +onlyGivenNames t
       first
       | (refine Keeps.gen ps s t ?_ ?_
          on_goal 1 => subst t
          on_goal 2 => (intro ht; clear_value t))
       | (refine Keeps.gen ps s t.2 ?_ ?_
          on_goal 1 => subst t
          on_goal 2 => (intro ht; clear_value t))
       | (refine Keeps.gen ps s t.2.2 ?_ ?_
          on_goal 1 => subst t
          on_goal 2 => (intro ht; clear_value t))
       | (refine Keeps.genO ps s t ?_ ?_
          on_goal 1 => subst t
          on_goal 2 => (intro ht; clear_value t))
       | (refine Keeps.genO2 ps s t ?_ ?_
          on_goal 1 => subst t
          on_goal 2 => (intro ht; clear_value t))
       | (refine Keeps.gen ps s t.2.2.2 ?_ ?_
          on_goal 1 => subst t
          on_goal 2 => (intro ht; clear_value t))
       | (have hf := fun x => t x
          clear hf
          subst t
          try beta_reduce)
       | clear_value t)
    | with_reducible apply getNonceOp_keeps
    | with_reducible apply renrel_keeps
    | with_reducible apply Keeps.ite
    | with_reducible apply Keeps.ite2
    | with_reducible apply KeepsO.ite
    | with_reducible apply KeepsO.some
    | with_reducible apply KeepsO2.ite
    | with_reducible apply KeepsO2.some
    | exact KeepsO2.none
    | exact KeepsO.none
    | with_reducible apply Keeps.ite3
    | with_reducible apply Keeps.foldl
    | with_reducible apply Keeps.foldlP
    | split
    | refine Keeps.of_eq2 (by assumption) ?_
    | refine Keeps.of_eq3 (by assumption) ?_
    | refine Keeps.of_some (by assumption) ?_
    | refine Keeps.of_some2 (by assumption) ?_
    | refine Keeps.of_some3 (by assumption) ?_

theorem provision_keeps (q : MgtReq) (sig : List Byte) (h : Keeps ps s u) (hfree : Part.free ∈ ps) (hregs : Part.regs ∈ ps) (hcoal : Part.coal ∈ ps) (hsec : Part.sec ∈ ps) (hmgt : Part.mgt ∈ ps) :
    Keeps ps s (provision q sig u) := by
  unfold provision
  repeat' first
    | with_reducible assumption
    | with_reducible intro _
    | (extract_lets +onlyGivenNames t
       first
       | (refine Keeps.gen ps s t ?_ ?_
          on_goal 1 => subst t
          on_goal 2 => (intro ht; clear_value t))
       | (refine Keeps.gen ps s t.2 ?_ ?_
          on_goal 1 => subst t
          on_goal 2 => (intro ht; clear_value t))
       | (refine Keeps.gen ps s t.2.2 ?_ ?_
          on_goal 1 => subst t
          on_goal 2 => (intro ht; clear_value t))
       | (refine Keeps.genO ps s t ?_ ?_
          on_goal 1 => subst t
          on_goal 2 => (intro ht; clear_value t))
       | (refine Keeps.genO2 ps s t ?_ ?_
          on_goal 1 => subst t
          on_goal 2 => (intro ht; clear_value t))
       | (refine Keeps.gen ps s t.2.2.2 ?_ ?_
          on_goal 1 => subst t
          on_goal 2 => (intro ht; clear_value t))
       | (have hf := fun x => t x
          clear hf
          subst t
          try beta_reduce)
       | clear_value t)
    | with_reducible apply provisionOp_keeps
    | with_reducible apply renrel_keeps
    | with_reducible apply Keeps.ite
    | with_reducible apply Keeps.ite2
    | with_reducible apply KeepsO.ite
    | with_reducible apply KeepsO.some
    | with_reducible apply KeepsO2.ite
    | with_reducible apply KeepsO2.some
    | exact KeepsO2.none
    | exact KeepsO.none
    | with_reducible apply Keeps.ite3
    | with_reducible apply Keeps.foldl
    | with_reducible apply Keeps.foldlP
    | split
    | refine Keeps.of_eq2 (by assumption) ?_
    | refine Keeps.of_eq3 (by assumption) ?_
    | refine Keeps.of_some (by assumption) ?_
    | refine Keeps.of_some2 (by assumption) ?_
    | refine Keeps.of_some3 (by assumption) ?_

theorem deprovision_keeps (q : MgtReq) (sig : List Byte) (h : Keeps ps s u) (hregs : Part.regs ∈ ps) (hcoal : Part.coal ∈ ps) (hmodel : Part.model ∈ ps) (hsec : Part.sec ∈ ps) (hmgt : Part.mgt ∈ ps) :
    Keeps ps s (deprovision q sig u) := by
  unfold deprovision
  repeat' first
    | with_reducible assumption
    | with_reducible intro _
    | (extract_lets +onlyGivenNames t
       first
       | (refine Keeps.gen ps s t ?_ ?_
          on_goal 1 => subst t
          on_goal 2 => (intro ht; clear_value t))
       | (refine Keeps.gen ps s t.2 ?_ ?_
          on_goal 1 => subst t
          on_goal 2 => (intro ht; clear_value t))
       | (refine Keeps.gen ps s t.2.2 ?_ ?_
          on_goal 1 => subst t
          on_goal 2 => (intro ht; clear_value t))
       | (refine Keeps.genO ps s t ?_ ?_
          on_goal 1 => subst t
          on_goal 2 => (intro ht; clear_value t))
       | (refine Keeps.genO2 ps s t ?_ ?_
          on_goal 1 => subst t
          on_goal 2 => (intro ht; clear_value t))
       | (refine Keeps.gen ps s t.2.2.2 ?_ ?_
          on_goal 1 => subst t
          on_goal 2 => (intro ht; clear_value t))
       | (have hf := fun x => t x
          clear hf
          subst t
          try beta_reduce)
       | clear_value t)
    | with_reducible apply deprovisionOp_keeps
    | with_reducible apply renrel_keeps
    | with_reducible apply Keeps.ite
    | with_reducible apply Keeps.ite2
    | with_reducible apply KeepsO.ite
    | with_reducible apply KeepsO.some
    | with_reducible apply KeepsO2.ite
    | with_reducible apply KeepsO2.some
    | exact KeepsO2.none
    | exact KeepsO.none
    | with_reducible apply Keeps.ite3
    | with_reducible apply Keeps.foldl
    | with_reducible apply Keeps.foldlP
    | split
    | refine Keeps.of_eq2 (by assumption) ?_
    | refine Keeps.of_eq3 (by assumption) ?_
    | refine Keeps.of_some (by assumption) ?_
    | refine Keeps.of_some2 (by assumption) ?_
    | refine Keeps.of_some3 (by assumption) ?_

theorem renrelReset_keeps (q : MgtReq) (h : Keeps ps s u) (hfc : Part.fc ∈ ps) (hfree : Part.free ∈ ps) (hregs : Part.regs ∈ ps) (hmem : Part.mem ∈ ps) (hpoison : Part.poison ∈ ps) (haccs : Part.accs ∈ ps) (hcores : Part.cores ∈ ps) (hcoal : Part.coal ∈ ps) (hplots : Part.plots ∈ ps) (hsubst : Part.subst ∈ ps) (hvt : Part.vt ∈ ps) (hlinks : Part.links ∈ ps) (hwins : Part.wins ∈ ps) (hthrs : Part.thrs ∈ ps) (hsows : Part.sows ∈ ps) (hglns : Part.glns ∈ ps) (hcol : Part.col ∈ ps) (htiers : Part.tiers ∈ ps) (hsilo : Part.silo ∈ ps) (hmodel : Part.model ∈ ps) (hhbms : Part.hbms ∈ ps) (hsec : Part.sec ∈ ps) (hcfg : Part.cfg ∈ ps) (hpci : Part.pci ∈ ps) (hserv : Part.serv ∈ ps) (htim : Part.tim ∈ ps) (hpwr : Part.pwr ∈ ps) (hrel : Part.rel ∈ ps) (hmgt : Part.mgt ∈ ps) :
    Keeps ps s (renrelReset q u) := by
  unfold renrelReset
  repeat' first
    | with_reducible assumption
    | exact (fun (q : Part) => by cases q <;> assumption)
    | with_reducible intro _
    | (extract_lets +onlyGivenNames t
       first
       | (refine Keeps.gen ps s t ?_ ?_
          on_goal 1 => subst t
          on_goal 2 => (intro ht; clear_value t))
       | (refine Keeps.gen ps s t.2 ?_ ?_
          on_goal 1 => subst t
          on_goal 2 => (intro ht; clear_value t))
       | (refine Keeps.gen ps s t.2.2 ?_ ?_
          on_goal 1 => subst t
          on_goal 2 => (intro ht; clear_value t))
       | (refine Keeps.genO ps s t ?_ ?_
          on_goal 1 => subst t
          on_goal 2 => (intro ht; clear_value t))
       | (refine Keeps.genO2 ps s t ?_ ?_
          on_goal 1 => subst t
          on_goal 2 => (intro ht; clear_value t))
       | (refine Keeps.gen ps s t.2.2.2 ?_ ?_
          on_goal 1 => subst t
          on_goal 2 => (intro ht; clear_value t))
       | (have hf := fun x => t x
          clear hf
          subst t
          try beta_reduce)
       | clear_value t)
    | with_reducible apply renrel_keeps
    | with_reducible apply resetInput_keeps
    | with_reducible apply Keeps.ite
    | with_reducible apply Keeps.ite2
    | with_reducible apply KeepsO.ite
    | with_reducible apply KeepsO.some
    | with_reducible apply KeepsO2.ite
    | with_reducible apply KeepsO2.some
    | exact KeepsO2.none
    | exact KeepsO.none
    | with_reducible apply Keeps.ite3
    | with_reducible apply Keeps.foldl
    | with_reducible apply Keeps.foldlP
    | split
    | refine Keeps.of_eq2 (by assumption) ?_
    | refine Keeps.of_eq3 (by assumption) ?_
    | refine Keeps.of_some (by assumption) ?_
    | refine Keeps.of_some2 (by assumption) ?_
    | refine Keeps.of_some3 (by assumption) ?_
    | dsimp only
    | (conv => (arg 3; arg 29)
       refine Keeps.mk' ?_ rfl rfl rfl rfl rfl rfl rfl
        (fun q hn => by cases q <;> first | exact rfl | exact ⟨rfl, rfl⟩ | exact absurd (by assumption) hn))

theorem powerDown_keeps (q : MgtReq) (h : Keeps ps s u) (hfree : Part.free ∈ ps) (hregs : Part.regs ∈ ps) (hmem : Part.mem ∈ ps) (hpoison : Part.poison ∈ ps) (haccs : Part.accs ∈ ps) (hcores : Part.cores ∈ ps) (hcoal : Part.coal ∈ ps) (hplots : Part.plots ∈ ps) (hvt : Part.vt ∈ ps) (hlinks : Part.links ∈ ps) (hwins : Part.wins ∈ ps) (hthrs : Part.thrs ∈ ps) (hsows : Part.sows ∈ ps) (hglns : Part.glns ∈ ps) (hcol : Part.col ∈ ps) (htiers : Part.tiers ∈ ps) (hsilo : Part.silo ∈ ps) (hmodel : Part.model ∈ ps) (hhbms : Part.hbms ∈ ps) (hsec : Part.sec ∈ ps) (hpci : Part.pci ∈ ps) (hserv : Part.serv ∈ ps) (hrel : Part.rel ∈ ps) (hmgt : Part.mgt ∈ ps) :
    Keeps ps s (powerDown q u) := by
  unfold powerDown
  repeat' first
    | with_reducible assumption
    | with_reducible intro _
    | (extract_lets +onlyGivenNames t
       first
       | (refine Keeps.gen ps s t ?_ ?_
          on_goal 1 => subst t
          on_goal 2 => (intro ht; clear_value t))
       | (refine Keeps.gen ps s t.2 ?_ ?_
          on_goal 1 => subst t
          on_goal 2 => (intro ht; clear_value t))
       | (refine Keeps.gen ps s t.2.2 ?_ ?_
          on_goal 1 => subst t
          on_goal 2 => (intro ht; clear_value t))
       | (refine Keeps.genO ps s t ?_ ?_
          on_goal 1 => subst t
          on_goal 2 => (intro ht; clear_value t))
       | (refine Keeps.genO2 ps s t ?_ ?_
          on_goal 1 => subst t
          on_goal 2 => (intro ht; clear_value t))
       | (refine Keeps.gen ps s t.2.2.2 ?_ ?_
          on_goal 1 => subst t
          on_goal 2 => (intro ht; clear_value t))
       | (have hf := fun x => t x
          clear hf
          subst t
          try beta_reduce)
       | clear_value t)
    | with_reducible apply powerDownOp_keeps
    | with_reducible apply renrel_keeps
    | with_reducible apply Keeps.ite
    | with_reducible apply Keeps.ite2
    | with_reducible apply KeepsO.ite
    | with_reducible apply KeepsO.some
    | with_reducible apply KeepsO2.ite
    | with_reducible apply KeepsO2.some
    | exact KeepsO2.none
    | exact KeepsO.none
    | with_reducible apply Keeps.ite3
    | with_reducible apply Keeps.foldl
    | with_reducible apply Keeps.foldlP
    | split
    | refine Keeps.of_eq2 (by assumption) ?_
    | refine Keeps.of_eq3 (by assumption) ?_
    | refine Keeps.of_some (by assumption) ?_
    | refine Keeps.of_some2 (by assumption) ?_
    | refine Keeps.of_some3 (by assumption) ?_

end Sys2Proof.Machine
end

