-- ==== Sys2Proof/Laws/KeepsMatrix.lean ====
section
/-!
SUPPORT. What each operation of Machine/Matrix.lean keeps (Laws/Keeps.lean), and the parts of State it may change.
-/
namespace Sys2Proof.Machine

set_option linter.unreachableTactic false
set_option linter.unusedTactic false
set_option linter.tactic.unusedName false

variable {ps : List Part} {s u : State}

theorem arrayCycle_keeps (p : Nat) (h : Keeps ps s u) (hregs : Part.regs ∈ ps) (hcores : Part.cores ∈ ps) :
    Keeps ps s (arrayCycle p u) := by
  unfold arrayCycle
  repeat' first
    | with_reducible assumption
    | with_reducible intro _
    | with_reducible apply Keeps.setCore
    | with_reducible apply State.set_keeps
    | with_reducible apply clearArrays_keeps
    | with_reducible apply Keeps.foldl
    | with_reducible apply Keeps.foldlP
    | with_reducible apply Keeps.ite
    | split
    | dsimp only

theorem mxStatus_keeps (p : Nat) (c : Cmd) (chained : Bool) (h : Keeps ps s u) (hregs : Part.regs ∈ ps) :
    Keeps ps s (mxStatus p c chained u) := by
  unfold mxStatus
  repeat' with_reducible first
    | assumption | intro _ | apply State.set_keeps | apply Keeps.foldl

theorem mxmRun_keeps (p : Nat) (flt : Option EngFault) (c : Cmd) (h : Keeps ps s u) (hregs : Part.regs ∈ ps) (hcores : Part.cores ∈ ps) :
    Keeps ps s (mxmRun p flt c u) := by
  unfold mxmRun
  repeat' first
    | with_reducible assumption
    | with_reducible intro _
    | with_reducible apply Keeps.setCore
    | with_reducible apply fenceFault_keeps
    | with_reducible apply issue_keeps
    | with_reducible apply mxStatus_keeps
    | with_reducible apply Keeps.ite
    | split
    | dsimp only

theorem mxm_keeps (p : Nat) (flt : Option EngFault) (h : Keeps ps s u) (hregs : Part.regs ∈ ps) (hcores : Part.cores ∈ ps) :
    Keeps ps s (mxm p flt u) := by
  unfold mxm
  repeat' first
    | with_reducible assumption
    | with_reducible intro _
    | with_reducible apply issueCmd_keeps
    | with_reducible apply mxmRun_keeps
    | split
    | dsimp only

theorem fenceArrays_keeps (p : Nat) (arrays : List Nat) (h : Keeps ps s u) (hregs : Part.regs ∈ ps) (hcores : Part.cores ∈ ps) :
    Keeps ps s (fenceArrays p arrays u) := by
  unfold fenceArrays
  repeat' first
    | with_reducible assumption
    | with_reducible intro _
    | with_reducible apply fenceEngine_keeps
    | with_reducible apply Keeps.foldl
    | with_reducible apply Keeps.foldlP
    | split
    | dsimp only

theorem acrdRun_keeps (p : Nat) (flt : Option EngFault) (c : Cmd) (h : Keeps ps s u) (hregs : Part.regs ∈ ps) (hcores : Part.cores ∈ ps) :
    Keeps ps s (acrdRun p flt c u) := by
  unfold acrdRun
  repeat' first
    | with_reducible assumption
    | with_reducible intro _
    | with_reducible apply fenceArrays_keeps
    | with_reducible apply fenceFault_keeps
    | with_reducible apply issue_keeps
    | with_reducible apply Keeps.foldl
    | with_reducible apply Keeps.foldlP
    | with_reducible apply Keeps.ite
    | split
    | dsimp only

theorem acrd_keeps (p : Nat) (flt : Option EngFault) (h : Keeps ps s u) (hregs : Part.regs ∈ ps) (hcores : Part.cores ∈ ps) :
    Keeps ps s (acrd p flt u) := by
  unfold acrd
  repeat' first
    | with_reducible assumption
    | with_reducible intro _
    | with_reducible apply acrdRun_keeps
    | with_reducible apply issueCmd_keeps
    | split
    | dsimp only

theorem acspRun_keeps (p : Nat) (flt : Option EngFault) (c : Cmd) (h : Keeps ps s u) (hregs : Part.regs ∈ ps) (hcores : Part.cores ∈ ps) :
    Keeps ps s (acspRun p flt c u) := by
  unfold acspRun
  repeat' first
    | with_reducible assumption
    | with_reducible intro _
    | with_reducible apply fenceArrays_keeps
    | with_reducible apply fenceFault_keeps
    | with_reducible apply issue_keeps
    | with_reducible apply Keeps.ite
    | split
    | dsimp only

theorem acsp_keeps (p : Nat) (flt : Option EngFault) (h : Keeps ps s u) (hregs : Part.regs ∈ ps) (hcores : Part.cores ∈ ps) :
    Keeps ps s (acsp p flt u) := by
  unfold acsp
  repeat' first
    | with_reducible assumption
    | with_reducible intro _
    | with_reducible apply acspRun_keeps
    | with_reducible apply issueCmd_keeps
    | split
    | dsimp only

theorem acflRun_keeps (p : Nat) (flt : Option EngFault) (c : Cmd) (h : Keeps ps s u) (hregs : Part.regs ∈ ps) (hcores : Part.cores ∈ ps) :
    Keeps ps s (acflRun p flt c u) := by
  unfold acflRun
  repeat' first
    | with_reducible assumption
    | with_reducible intro _
    | with_reducible apply fenceArrays_keeps
    | with_reducible apply fenceFault_keeps
    | with_reducible apply issue_keeps
    | with_reducible apply Keeps.ite
    | split
    | dsimp only

theorem acfl_keeps (p : Nat) (flt : Option EngFault) (h : Keeps ps s u) (hregs : Part.regs ∈ ps) (hcores : Part.cores ∈ ps) :
    Keeps ps s (acfl p flt u) := by
  unfold acfl
  repeat' first
    | with_reducible assumption
    | with_reducible intro _
    | with_reducible apply acflRun_keeps
    | with_reducible apply issueCmd_keeps
    | split
    | dsimp only

theorem aczRun_keeps (p : Nat) (c : Cmd) (h : Keeps ps s u) (hregs : Part.regs ∈ ps) (hcores : Part.cores ∈ ps) :
    Keeps ps s (aczRun p c u) := by
  unfold aczRun
  repeat' first
    | with_reducible assumption
    | with_reducible intro _
    | with_reducible apply issue_keeps
    | split
    | dsimp only

theorem acz_keeps (p : Nat) (h : Keeps ps s u) (hregs : Part.regs ∈ ps) (hcores : Part.cores ∈ ps) :
    Keeps ps s (acz p u) := by
  unfold acz
  repeat' first
    | with_reducible assumption
    | with_reducible intro _
    | with_reducible apply aczRun_keeps
    | with_reducible apply issueCmd_keeps
    | split
    | dsimp only

end Sys2Proof.Machine
end

