-- ==== Sys2Proof/Laws/KeepsTransfer.lean ====
section
/-!
SUPPORT. What each operation of Machine/Transfer.lean keeps (Laws/Keeps.lean), and the parts of State it may change.
-/
namespace Sys2Proof.Machine

set_option linter.unreachableTactic false
set_option linter.unusedTactic false
set_option linter.tactic.unusedName false

variable {ps : List Part} {s u : State}

theorem mvmFind_keeps (p : Nat) (off : Nat) (n : Nat) (h : Keeps ps s u) (hregs : Part.regs ∈ ps) (hpoison : Part.poison ∈ ps) (hhbms : Part.hbms ∈ ps) :
    Keeps ps s (mvmFind p off n u) := by
  unfold mvmFind
  repeat' first
    | with_reducible assumption
    | with_reducible intro _
    | with_reducible apply hbmFind_keeps
    | with_reducible apply Keeps.ite
    | split
    | dsimp only

theorem mvmFinds_keeps (p : Nat) (c : Cmd) (w : Format) (h : Keeps ps s u) (hregs : Part.regs ∈ ps) (hpoison : Part.poison ∈ ps) (hhbms : Part.hbms ∈ ps) :
    Keeps ps s (mvmFinds p c w u) := by
  unfold mvmFinds
  repeat' first
    | with_reducible assumption
    | with_reducible intro _
    | with_reducible apply mvmFind_keeps
    | with_reducible apply Keeps.ite
    | split
    | dsimp only

theorem mvmRun_keeps (p : Nat) (flt : Option EngFault) (c : Cmd) (h : Keeps ps s u) (hregs : Part.regs ∈ ps) (hpoison : Part.poison ∈ ps) (hcores : Part.cores ∈ ps) (hhbms : Part.hbms ∈ ps) :
    Keeps ps s (mvmRun p flt c u) := by
  unfold mvmRun
  repeat' first
    | with_reducible assumption
    | with_reducible intro _
    | with_reducible apply State.set_keeps
    | with_reducible apply fenceFault_keeps
    | with_reducible apply issue_keeps
    | with_reducible apply mvmFinds_keeps
    | with_reducible apply Keeps.ite
    | split
    | dsimp only

theorem noteStream_keeps (cons : Option Nat) (base : Nat) (off : Nat) (n : Nat) (h : Keeps ps s u) (hregs : Part.regs ∈ ps) (hhbms : Part.hbms ∈ ps) :
    Keeps ps s (noteStream cons base off n u) := by
  unfold noteStream
  repeat' first
    | with_reducible assumption
    | with_reducible intro _
    | with_reducible apply State.count_keeps
    | with_reducible apply accept_keeps
    | with_reducible apply noteRead_keeps
    | with_reducible apply Keeps.ite
    | split
    | dsimp only

theorem stripArrives_keeps (p : Nat) (c : Cmd) (w : Format) (o : Nat) (h : Keeps ps s u) (hregs : Part.regs ∈ ps) (hhbms : Part.hbms ∈ ps) :
    Keeps ps s (stripArrives p c w o u) := by
  unfold stripArrives
  repeat' first
    | with_reducible assumption
    | with_reducible intro _
    | with_reducible apply State.count_keeps
    | with_reducible apply noteStream_keeps
    | with_reducible apply Keeps.ite
    | split
    | dsimp only

theorem setRec_keeps (p : Nat) (r : CmdRec) (h : Keeps ps s u) (hcores : Part.cores ∈ ps) :
    Keeps ps s (setRec p r u) := by
  unfold setRec
  repeat' first
    | with_reducible assumption
    | with_reducible intro _
    | with_reducible apply Keeps.setCore
    | with_reducible apply Keeps.ite
    | split
    | dsimp only

theorem mvCycle_keeps (p : Nat) (h : Keeps ps s u) (hfree : Part.free ∈ ps) (hregs : Part.regs ∈ ps) (hcores : Part.cores ∈ ps) (hhbms : Part.hbms ∈ ps) :
    Keeps ps s (mvCycle p u) := by
  unfold mvCycle
  repeat' first
    | with_reducible assumption
    | with_reducible intro _
    | with_reducible apply State.count_keeps
    | with_reducible apply State.drawBool_keeps
    | with_reducible apply issue_keeps
    | with_reducible apply setRec_keeps
    | with_reducible apply stripArrives_keeps
    | with_reducible apply Keeps.ite
    | split
    | dsimp only

theorem finishStream_keeps (p : Nat) (stall : Nat) (r : CmdRec) (h : Keeps ps s u) (hregs : Part.regs ∈ ps) (hhbms : Part.hbms ∈ ps) :
    Keeps ps s (finishStream p stall r u) := by
  unfold finishStream
  repeat' first
    | with_reducible assumption
    | with_reducible intro _
    | with_reducible apply State.count_keeps
    | with_reducible apply noteRefused_keeps
    | with_reducible apply stripArrives_keeps
    | with_reducible apply Keeps.foldl
    | with_reducible apply Keeps.foldlP
    | with_reducible apply Keeps.ite
    | split
    | dsimp only

theorem mvm_keeps (p : Nat) (flt : Option EngFault) (h : Keeps ps s u) (hregs : Part.regs ∈ ps) (hpoison : Part.poison ∈ ps) (hcores : Part.cores ∈ ps) (hhbms : Part.hbms ∈ ps) :
    Keeps ps s (mvm p flt u) := by
  unfold mvm
  repeat' first
    | with_reducible assumption
    | with_reducible intro _
    | with_reducible apply issueCmd_keeps
    | with_reducible apply mvmRun_keeps
    | split
    | dsimp only

theorem move_keeps (p : Nat) (h : Keeps ps s u) (hregs : Part.regs ∈ ps) (hcores : Part.cores ∈ ps) :
    Keeps ps s (move p u) := by
  unfold move
  repeat' first
    | with_reducible assumption
    | with_reducible intro _
    | with_reducible apply issue_keeps
    | with_reducible apply issueCmd_keeps
    | split
    | dsimp only

theorem moveReq_keeps (p : Nat) (xid : Nat) (c : Cmd) (load : Bool) (lastPiece : Bool) (off : Nat) (n : Nat) (h : Keeps ps s u) (hregs : Part.regs ∈ ps) (hmem : Part.mem ∈ ps) (hpoison : Part.poison ∈ ps) (hcores : Part.cores ∈ ps) (hcoal : Part.coal ∈ ps) (hvt : Part.vt ∈ ps) (hlinks : Part.links ∈ ps) :
    Keeps ps s (moveReq p xid c load lastPiece off n u) := by
  unfold moveReq
  repeat' first
    | with_reducible assumption
    | with_reducible apply State.raise_keeps
    | with_reducible apply refuseAtSource_keeps
    | with_reducible apply vtIssue_keeps
    | with_reducible apply vtLast_keeps
    | with_reducible apply Keeps.ite
    | dsimp only
    | (conv => (arg 3; arg 29)
       refine Keeps.mk' ?_ rfl rfl rfl rfl rfl rfl rfl
        (fun q hn => by cases q <;> first | exact rfl | exact ⟨rfl, rfl⟩ | exact absurd (by assumption) hn))

theorem startMove_keeps (p : Nat) (c : Cmd) (h : Keeps ps s u) (hregs : Part.regs ∈ ps) (hmem : Part.mem ∈ ps) (hpoison : Part.poison ∈ ps) (hcores : Part.cores ∈ ps) (hcoal : Part.coal ∈ ps) (hvt : Part.vt ∈ ps) (hlinks : Part.links ∈ ps) :
    Keeps ps s (startMove p c u) := by
  unfold startMove
  repeat' first
    | with_reducible assumption
    | with_reducible intro _
    | with_reducible apply moveReq_keeps
    | with_reducible apply Keeps.ite
    | with_reducible apply Keeps.foldl
    | (conv => (arg 3; arg 29)
       refine Keeps.mk' ?_ rfl rfl rfl rfl rfl rfl rfl
        (fun q hn => by cases q <;> first | exact rfl | exact ⟨rfl, rfl⟩ | exact absurd (by assumption) hn))

theorem commandComplete_keeps (p : Nat) (sl : Slot) (stall : Nat) (h : Keeps ps s u) (hregs : Part.regs ∈ ps) (hmem : Part.mem ∈ ps) (hpoison : Part.poison ∈ ps) (haccs : Part.accs ∈ ps) (hcores : Part.cores ∈ ps) (hcoal : Part.coal ∈ ps) (hvt : Part.vt ∈ ps) (hlinks : Part.links ∈ ps) (hhbms : Part.hbms ∈ ps) :
    Keeps ps s (commandComplete p sl stall u) := by
  unfold commandComplete
  repeat' first
    | with_reducible assumption
    | with_reducible intro _
    | with_reducible apply Keeps.setCore
    | with_reducible apply clearBusy_keeps
    | with_reducible apply commitCmd_keeps
    | with_reducible apply completeWait_keeps
    | with_reducible apply finishStream_keeps
    | with_reducible apply haltList_keeps
    | with_reducible apply retire_keeps
    | with_reducible apply startMove_keeps
    | with_reducible apply Keeps.ite
    | split
    | dsimp only

end Sys2Proof.Machine
end

