-- ==== Sys2Proof/Laws/KeepsTick.lean ====
section
/-!
SUPPORT. What each operation of Machine/Tick.lean keeps (Laws/Keeps.lean), and the parts of State it may change.
-/
namespace Sys2Proof.Machine

set_option linter.unreachableTactic false
set_option linter.unusedTactic false
set_option linter.tactic.unusedName false

variable {ps : List Part} {s u : State}

theorem gateDie_keeps (d : Nat) (h : Keeps ps s u) (hregs : Part.regs ∈ ps) (hpwr : Part.pwr ∈ ps) :
    Keeps ps s (gateDie u d) := by
  unfold gateDie
  repeat' first
    | with_reducible assumption
    | with_reducible apply State.count_keeps
    | split
    | dsimp only
    | (conv => (arg 3; arg 29)
       refine Keeps.mk' ?_ rfl rfl rfl rfl rfl rfl rfl
        (fun q hn => by cases q <;> first | exact rfl | exact ⟨rfl, rfl⟩ | exact absurd (by assumption) hn))

theorem pauseCore_keeps (p : Nat) (h : Keeps ps s u) (hregs : Part.regs ∈ ps) (hcores : Part.cores ∈ ps) :
    Keeps ps s (pauseCore p u) := by
  unfold pauseCore
  repeat' first
    | with_reducible assumption
    | with_reducible intro _
    | with_reducible apply Keeps.setCore
    | with_reducible apply State.count_keeps
    | with_reducible apply issue_keeps
    | split
    | dsimp only

theorem coreCycle_keeps (p : Nat) (h : Keeps ps s u) (hfree : Part.free ∈ ps) (hregs : Part.regs ∈ ps) (hcores : Part.cores ∈ ps) (hhbms : Part.hbms ∈ ps) :
    Keeps ps s (coreCycle u p) := by
  unfold coreCycle
  refine Keeps.ite h (Keeps.ite (pauseCore_keeps p h hregs hcores) ?_)
  refine Keeps.gen ps s (mvCycle p u) (mvCycle_keeps p h hfree hregs hcores hhbms) (fun hm => Keeps.ite hm ?_)
  dsimp only
  repeat' first
    | with_reducible assumption
    | with_reducible apply State.count_keeps
    | with_reducible apply Keeps.ite

theorem portCycle_keeps (n : Nat) (h : Keeps ps s u) (hregs : Part.regs ∈ ps) :
    Keeps ps s (portCycle u n) := by
  unfold portCycle
  repeat' first
    | with_reducible assumption
    | with_reducible intro _
    | with_reducible apply State.livePort_keeps
    | with_reducible apply credStall_keeps

theorem dataCycle_keeps (h : Keeps ps s u) (hfree : Part.free ∈ ps) (hregs : Part.regs ∈ ps) (hmem : Part.mem ∈ ps) (hpoison : Part.poison ∈ ps) (hcores : Part.cores ∈ ps) (hhbms : Part.hbms ∈ ps) (hserv : Part.serv ∈ ps) (hpwr : Part.pwr ∈ ps) :
    Keeps ps s (dataCycle u) := by
  unfold dataCycle
  repeat' first
    | with_reducible assumption
    | with_reducible intro _
    | with_reducible apply coldTurns_keeps
    | with_reducible apply coreCycle_keeps
    | with_reducible apply gateDie_keeps
    | with_reducible apply hbmCycle_keeps
    | with_reducible apply portCycle_keeps
    | with_reducible apply Keeps.foldl
    | with_reducible apply Keeps.foldlP
    | split
    | dsimp only

theorem arraysCycle_keeps (h : Keeps ps s u) (hregs : Part.regs ∈ ps) (hcores : Part.cores ∈ ps) :
    Keeps ps s (arraysCycle u) :=
  Keeps.foldl h (fun _ p ht => Keeps.ite (arrayCycle_keeps p ht hregs hcores) ht)

theorem State.tick_keeps (h : Keeps ps s u) (hfc : Part.fc ∈ ps) (hfree : Part.free ∈ ps) (hregs : Part.regs ∈ ps) (hmem : Part.mem ∈ ps) (hpoison : Part.poison ∈ ps) (hcores : Part.cores ∈ ps) (hhbms : Part.hbms ∈ ps) (hserv : Part.serv ∈ ps) (hpwr : Part.pwr ∈ ps) :
    Keeps ps s (State.tick u) := by
  have h1 : Keeps ps s (u.live dataCycle) :=
    Keeps.live h (dataCycle_keeps h hfree hregs hmem hpoison hcores hhbms hserv hpwr)
  have h2 : Keeps ps s (if (u.live dataCycle).flag CLK_ALIGN_DONE && (u.live dataCycle).flag CLK_PLL_LOCKED
      then almAdvance 4 (u.live dataCycle) else u.live dataCycle) :=
    Keeps.ite (almAdvance_keeps 4 h1 hregs) h1
  have h3 : Keeps ps s { (if (u.live dataCycle).flag CLK_ALIGN_DONE && (u.live dataCycle).flag CLK_PLL_LOCKED
      then almAdvance 4 (u.live dataCycle) else u.live dataCycle) with fc := u.fc + 1 } := by
    refine Keeps.mk' h2 rfl rfl rfl rfl rfl rfl rfl
        (fun q hn => by cases q <;> first | exact rfl | exact ⟨rfl, rfl⟩ | exact absurd (by assumption) hn)
  exact Keeps.live h3 (arraysCycle_keeps h3 hregs hcores)

end Sys2Proof.Machine
end

