-- ==== Sys2Proof/Laws/KeepsVector.lean ====
section
/-!
SUPPORT. What each operation of Machine/Vector.lean keeps (Laws/Keeps.lean), and the parts of State it may change.
-/
namespace Sys2Proof.Machine

set_option linter.unreachableTactic false
set_option linter.unusedTactic false
set_option linter.tactic.unusedName false

variable {ps : List Part} {s u : State}

theorem vopRun_keeps (p : Nat) (flt : Option EngFault) (c : Cmd) (h : Keeps ps s u) (hregs : Part.regs ∈ ps) (hcores : Part.cores ∈ ps) :
    Keeps ps s (vopRun p flt c u) := by
  unfold vopRun
  repeat' with_reducible first
    | assumption | apply State.set_keeps | apply fenceEngine_keeps | apply fenceFault_keeps | apply issue_keeps
    | apply Keeps.ite

theorem vop_keeps (p : Nat) (flt : Option EngFault) (h : Keeps ps s u) (hregs : Part.regs ∈ ps) (hcores : Part.cores ∈ ps) :
    Keeps ps s (vop p flt u) := by
  unfold vop
  repeat' first
    | with_reducible assumption
    | with_reducible intro _
    | with_reducible apply issueCmd_keeps
    | with_reducible apply vopRun_keeps
    | split
    | dsimp only

end Sys2Proof.Machine
end

