-- ==== Sys2Proof/Tests/Slice0.lean ====
section
/-!
SUPPORT. Small tests: the well-formedness check, single steps whose results are the spec's own, and for each statement of
Obligations.lean that has hypotheses a concrete state and operands that meet them.
-/
namespace Sys2Proof.Tests
open Sys2Proof Sys2Proof.Machine

set_option Elab.async false
set_option maxRecDepth 100000

/-! States to test on. -/

/-- Registers set one after the other. -/
def put (s : State) (fs : List (Fld × Nat)) : State := fs.foldl (fun t f => t.set f.1 f.2) s

/-- A part whose data plane runs, with the given registers. -/
def rdy (fs : List (Fld × Nat)) : State := put State.reset ((PWR_STATUS_PHASE, 8) :: fs)

/-- A register word set to one. -/
def raw (a : Nat) (s : State) : State := s.set ⟨a, 0, 64⟩ 1

/-- Words of 64 bits stored in memory. -/
def words (a : Nat) (ws : List Nat) (s : State) : State := s.setBytes a (bytesOfWords ws)

/-- One plot of all cores and every tenant, which key 0 may access all of memory as. -/
def plot0 : PlotCfg := { en := true, cores := 2 ^ 128 - 1, tenCount := 8192 }

/-- Core 0 runs a list of one command, `ws`. -/
def listed (ws : List Nat) : State :=
  words (csOffset 0 0) ws { rdy [(CORE_STATUS_STATE 0, stRunning), (CORE_TAIL_TAIL 0, 1)] with cores := [(0, { size := 16 })], plots := [plot0] }

/-! The well-formedness check. -/

theorem test_wf_refuses_address_past_core_store : Instr.wf (.csScrub 3 [] [0x1800000]) = false := by decide
theorem test_wf_refuses_corrected_address_past_core_store : Instr.wf (.csScrub 3 [0x17FFFFF, 0x1800000] []) = false := by decide
theorem test_wf_takes_last_byte_of_core_store : Instr.wf (.csScrub 3 [0] [0x17FFFFF]) = true := by decide

/-! Hypotheses met: the step and the cores. -/

theorem met_StepRunsFrontCommand : (({ State.reset with pending := [.nop 0, .trstN] } : State).pending = .nop 0 :: [.trstN]) := rfl

theorem met_StepKeepsCanonicalForm : State.reset.Canon ∧ step State.reset = .next State.reset.tick := ⟨State.canon_reset, rfl⟩

theorem met_StepKeepsJobsInRange : (rdy []).JobsOk ∧ step (rdy []) = .next (rdy []).tick :=
  ⟨by constructor <;> decide +kernel, rfl⟩

/-- A list of one command whose opcode is `op` may issue it. -/
def issuable (op : Nat) (ws : List Nat) (sl : Slot) (check : Cmd → State → Nat) : Prop :=
  let c := ws ++ List.replicate (8 - ws.length) 0
  MayIssue 0 op c (listed ws) (listed ws) sl (check c (listed ws))

theorem met_ControlCommandsIssueAndEnd :
    issuable opNop [0] .ctl checkNop ∧ issuable opCtrset [4, 5] .ctl (checkCtrset 0) ∧
    issuable opCtrcfg [5, 5 + 2 ^ 10 + 512 * 2 ^ 11, 64] .ctl checkCtrcfg ∧
    issuable opMove [0x40, 0x100000000000, 0x40000, 64] .dma (checkMove 0) ∧
    issuable opWait [3, 2 ^ 32] .ctl checkWait ∧ waitHolds 0 [3, 2 ^ 32, 0, 0, 0, 0, 0, 0] (listed [3, 2 ^ 32]) = false ∧
    issuable opWait [3] .ctl checkWait ∧ waitHolds 0 [3, 0, 0, 0, 0, 0, 0, 0] (listed [3]) = true ∧ ((listed [3]).core 0).inflight = [] ∧
    issuable opEnd [1] .ctl checkNop := by
  refine ⟨?_, ?_, ?_, ?_, ?_, ?_, ?_, ?_, ?_, ?_⟩ <;> first | decide +kernel | (constructor <;> decide +kernel)

/-- Core 0 runs a list with one command in flight. -/
def flying (r : CmdRec) : State :=
  { rdy [(CORE_STATUS_STATE 0, stRunning)] with cores := [(0, { size := 16, inflight := [r], nextOrd := 1 })], plots := [plot0] }

theorem met_FailedCommandsHaltTheList :
    (let r := plainRec .ctl [3, 2 ^ 32, 0, 0, 0, 0, 0, 0] 1 1;
      (flying r).dataUp = true ∧ ((flying r).core 0).inflight.find? (fun r => cOp r.words == opWait) = some r ∧
        waitHolds 0 r.words (flying r) = false) ∧
    (listed [2]).dataUp = true ∧ headCmd 0 (skipAhead 0 8 (listed [2])) = some [2, 0, 0, 0, 0, 0, 0, 0] ∧
    opcodes.contains (cOp [2, 0, 0, 0, 0, 0, 0, 0]) = false ∧ (listed [2]).word (coreErr 0) = 0 := by decide +kernel

theorem met_EngineCommandsIssue :
    issuable opMxm [0x10, 2 ^ 4 + 2 ^ 8 + 32 * 2 ^ 12 + 2 ^ 20 + 2 ^ 29] (mpSlot [] {}) (checkMxm 0) ∧
    issuable opAcrd [0x11, 2 ^ 9 + 2 ^ 43] (mrSlot [] {}) (checkAcrd 0) ∧
    issuable opAcsp [0x12, 2 ^ 9 + 2 ^ 43] (mrSlot [] {}) (checkSpill true 0) ∧
    issuable opAcfl [0x13, 2 ^ 9 + 2 ^ 43] (mrSlot [] {}) (checkSpill false 0) ∧
    issuable opAcz [0x14, 2 ^ 9] (mrSlot [] {}) (checkAcz 0) ∧
    issuable opMvm [0x20, 2 ^ 4 + 2 ^ 8 + 2 ^ 17 + 64 * 2 ^ 34] .mv (checkMvm 0) ∧
    issuable opVop [0x30, 1 + 2 ^ 16] .vx (checkVop 0) ∧
    (∀ q ∈ [({} : Acc), { kind := .tally, t := { res := 1 } }],
     let c := [0x11, 2 ^ 9 + 2 ^ 43, 0, 0, 0, 0, 0, 0]
     let s := { listed c with accs := Tab.set acc0 [] (accKey 0 0 0) q }
     mxmBusy 0 c s = false ∧ Format.ofCode (cf c 1 4 4) = some .f32 ∧ arraysOf 0 c (rowBad 0 c s) s = (if q.t.res = 0 then [] else [0])) ∧
    (∀ res ∈ [0, 1],
     let c := [0x13, 2 ^ 9 + 2 ^ 43, 0, 0, 0, 0, 0, 0]
     let s := words (csOffset 0 0) [0, res * 2 ^ 32] (listed c)
     arraysOf 0 c (fun r => (acflRow 0 c s r).any (fun x => !x.2.residueOk)) s = (if res = 0 then [] else [0])) ∧
    (let c := [0x20, 2 ^ 4 + 2 ^ 8 + 2 ^ 17 + 64 * 2 ^ 34, 0, 0, 0, 0, 0, 0]
     vmW c = some .f16 ∧ vmOut c = some .f32 ∧ mvmFail 0 c .f16 (mvmFinds 0 c .f16 (listed c)) = none ∧
     mvmSums 0 c .f16 (mvmFinds 0 c .f16 (listed c)) ≠ none) ∧
    (let c := [0x10, 2 ^ 4 + 2 ^ 8 + 32 * 2 ^ 12 + 2 ^ 20 + 2 ^ 29, 0, 0, 0, 0, 0, 0]
     mxmLate 0 c (listed c) = false) := by
  refine ⟨?_, ?_, ?_, ?_, ?_, ?_, ?_, ?_, ?_, ?_, ?_⟩ <;> first | decide +kernel | (constructor <;> decide +kernel)

theorem met_CompletionCommitsStagedOutput :
    let r : CmdRec := { plainRec .vx [0x30, 1 + 2 ^ 16, 0, 0, 0, 0, 0, 0] 9 1 with writes := [(0, 7)] }
    let q : CmdRec := { r with code := cOpndScale }
    (flying q).dataUp = true ∧ ((flying q).core 0).inflight.find? (fun q => q.slot == .vx) = some q ∧ finishPass 0 (flying q) q = q ∧
    q.code ≠ 0 ∧ cOp q.words ≠ opWait ∧ (flying q).get (CORE_STATUS_STATE 0) = stRunning ∧
    ((flying r).core 0).inflight.find? (fun q => q.slot == .vx) = some r ∧ finishPass 0 (flying r) r = r ∧ r.code = 0 ∧
    cOp r.words ∈ [opMxm, opAcrd, opAcsp, opAcfl, opAcz, opMvm, opVop] ∧ r.writes.Pairwise (fun v w => v.1 ≠ w.1) ∧
    r.shadows.Pairwise (fun x y => x.1 ≠ y.1) := by decide +kernel

/-- Core 0 in a plot, with a legal ring, in a state. -/
def core0 (st : Nat) (fs : List (Fld × Nat)) : State :=
  { rdy ([(CORE_STATUS_STATE 0, st), (CORE_RING_SIZE_ENTRIES 0, 16)] ++ fs) with plots := [plot0] }

theorem met_CoreActionsActByState :
    (∀ st ∈ [stIdle, stArmed, stRunning, stDone, stHalted, stKilled, stFenced], (core0 st []).dataUp = true ∧
      (core0 st []).get (CORE_STATUS_STATE 0) = st) := by decide +kernel

theorem met_CoreActionsActInTheirStates :
    (core0 stIdle []).dataUp = true ∧ runHeld 0 (core0 stIdle []) = false ∧ runnable 0 (core0 stIdle []) = true ∧
    ringOk 0 (core0 stIdle []) = true ∧ runnable 0 { core0 stIdle [] with plots := [] } = false ∧
    ringOk 0 (core0 stIdle [(CORE_RING_SIZE_ENTRIES 0, 15)]) = false ∧
    (let s := core0 stIdle [(CORE_LAUNCH_ALM_COUNT 0, 1000)]; s.alm + 1000 ≤ s.get (CORE_LAUNCH_ALM_COUNT 0)) ∧
    (let s := core0 stIdle [(CORE_LAUNCH_ALM_COUNT 0, 999)]; s.get (CORE_LAUNCH_ALM_COUNT 0) < s.alm + 1000) ∧
    (let s := core0 stArmed []; s.get (CORE_STATUS_STATE 0) = stArmed ∧ s.get (CORE_LAUNCH_ALM_COUNT 0) ≤ s.alm) ∧
    (let s := core0 stRunning []; s.get (CORE_STATUS_STATE 0) = stRunning ∧ (s.core 0).killing = false) ∧
    (let s : State := { core0 stRunning [] with cores := [(0, { killing := true })] }
     s.get (CORE_STATUS_STATE 0) = stRunning ∧ (s.core 0).killing = true ∧ (s.core 0).inflight = []) ∧
    (let s := core0 stHalted []; s.get (CORE_STATUS_STATE 0) = stHalted ∧ ringOk 0 s = true) ∧
    (let s := core0 stHalted [(CORE_RING_SIZE_ENTRIES 0, 15)]; s.get (CORE_STATUS_STATE 0) = stHalted ∧ ringOk 0 s = false) ∧
    (core0 stDone []).get (CORE_STATUS_STATE 0) = stDone := by decide +kernel

theorem met_CoreTailAndCounterWrites :
    (let s := core0 stIdle []; s.dataUp = true ∧ (CORE_TAIL_TAIL 0).of 15 < s.get (CORE_RING_SIZE_ENTRIES 0) ∧
      (CORE_TAIL_TAIL 0).of 15 ≠ s.get (CORE_HEAD_HEAD 0) ∧ s.get (CORE_RING_SIZE_ENTRIES 0) ≤ (CORE_TAIL_TAIL 0).of 16 ∧
      s.get (CORE_ARR_MODE 0 1023) = 0 ∧ (s.core 0).inflight = []) ∧
    (let s := core0 stIdle [(CORE_TAIL_TAIL 0, 3)]; (CORE_TAIL_TAIL 0).of 0 = s.get (CORE_HEAD_HEAD 0) ∧
      s.get (CORE_TAIL_TAIL 0) ≠ s.get (CORE_HEAD_HEAD 0)) ∧
    (rdy [(CORE_ARR_MODE 0 1023, 1)]).get (CORE_ARR_MODE 0 1023) = 1 ∧ (rdy []).dieFenced (dieOfCore 143) = false ∧
    (raw (dieErr 15) (rdy [])).dieFenced (dieOfCore 143) = true := by decide +kernel

theorem met_CoreStoreScrubAndRepair :
    Instr.wf (.csScrub 0 [8] [0x17FFFFF]) = true ∧
    (let s : State := { core0 stIdle [(CS_REPAIR_EN 0, 1)] with cores := [(0, { rows := [33] })] }
     s.dataUp = true ∧ (s.core 0).rows = [33] ∧ s.get (CS_REPAIR_EN 0) = 1 ∧ s.get (CORE_STATUS_STATE 0) ≠ stRunning ∧
     s.get (CORE_STATUS_STATE 0) ≠ stArmed ∧ spareUsed (s.core 0) (33 % 32) < 8) := by decide +kernel

/-! Hypotheses met: rings, Winnower and Thresher. -/

/-- A part whose engines' windows let key 0 access every offset, with one plot, given registers and words in memory. -/
def opened (fs : List (Fld × Nat)) (ds : List (Nat × List Nat)) : State :=
  ds.foldl (fun s d => words d.1 d.2 s)
    { rdy ((List.range 4).flatMap (fun k => [(VT_WIN_A_EN k 0, 1), (VT_WIN_B_LIMIT k 0, 2 ^ 34 - 1), (VT_WIN_B_PERM k 0, 15)]) ++ fs) with
      plots := [plot0] }

/-- Sixteen words, of which the first are given. -/
def w16 (ws : List Nat) : List Nat := ws ++ List.replicate (16 - ws.length) 0

/-- A ring of sixteen entries whose first entry, at HBM offset 0, is `ws`. -/
def posted (r : RingRegs) (fs : List (Fld × Nat)) (ws : List Nat) : State :=
  opened ([(r.en, 1), (r.size, 16), (r.tail, 1)] ++ fs) [(0, w16 ws)]

/-- What reads a ring's entry answers the pair of its first component and the state it leaves. -/
theorem pair_of_fst {α β : Type} {x : Option α × β} {a : α} (h : x.1 = some a) : x = (some a, x.2) := by
  cases x; cases h; rfl

theorem met_RingTailWritesPostOrAreDiscarded :
    ∀ c ∈ [Instr.winTailWrite 3 15 15, .thrTailWrite 3 15 15, .glnTailWrite 3 false 15 15, .glnTailWrite 3 true 15 15,
      .colTailWrite 3 15 15, .tierTailWrite 3 15 15],
      (ringRegsOf c).any (fun q =>
        let r := q.1
        (rdy [(r.en, 1), (r.size, 16)]).dataUp && !tailBad r (r.tail.of q.2) (rdy [(r.en, 1), (r.size, 16)]) &&
        tailBad r (r.tail.of q.2) (rdy [(r.en, 1), (r.size, 15)]) && tailBad r (r.tail.of 16) (rdy [(r.en, 1), (r.size, 16)]) &&
        !tailBad r (r.tail.of q.2) (rdy [(r.en, 1), (r.size, 4096)]) && tailBad r (r.tail.of q.2) (rdy [(r.size, 4096)])) = true := by
  decide +kernel

/-- A ROUTE of one token over one expert, and a SAMPLE of one row of one logit. -/
def routeD : List Nat := w16 [1 + 2 ^ 20 + 2 ^ 26 + 2 ^ 33 + 2 ^ 40, 1 + 2 ^ 15, 0x1000, 64 + 0x3F800000 * 2 ^ 32]
def sampleD : List Nat := w16 [2, 1 + 2 ^ 20, 0x1000, 64]

theorem met_WinnowerStarts :
    (∀ d ∈ [routeD, sampleD, w16 [1], w16 [2]],
      let s := posted (winRing 3 15) [(WIN_CTRL_ENABLE 3, 1)] d
      s.dataUp = true ∧ winChoose 3 s = some 15 ∧ winJob s 3 15 = none ∧
      (readDescr (ringWho 3 (WIN_PLOT_PKEY 3 15) s) (winRing 3 15) (s.get (WIN_HEAD_HEAD 3 15)) s).1 = some d) ∧
    (let s := posted (winRing 3 15) [(WIN_CTRL_ENABLE 3, 1)] routeD
     wjKind routeD = 1 ∧ routeOk s routeD = true ∧
     winInputsOk 3 { ring := 15, words := routeD, active := loadRc routeD } (winServed 3 15 s)) ∧
    (let s := posted (winRing 3 15) [(WIN_CTRL_ENABLE 3, 1)] sampleD
     wjKind sampleD = 2 ∧ sampleOk s sampleD = true ∧ wjBias sampleD = false ∧ wjMask sampleD = false ∧
     wjKind (w16 [1]) = 1 ∧ routeOk s (w16 [1]) = false ∧ wjKind (w16 [2]) = 2 ∧ sampleOk s (w16 [2]) = false) := by
  unfold winInputsOk; decide +kernel

/-- A Winnower job that stands at an item. -/
def winAt (d : List Nat) (item : Nat) : State :=
  { opened [(WIN_CTRL_ENABLE 3, 1)] [] with wins := [(3, { jobs := [{ ring := 15, words := d, loaded := true, item := item }] })] }

theorem met_WinnowerRunsJobs :
    (winAt routeD 0).dataUp = true ∧ winChoose 3 (winAt routeD 0) = some 15 ∧ (winJob (winAt routeD 0) 3 15).isSome = true ∧
    (∀ j, winJob (winAt routeD 1) 3 15 = some j → j.item = wjItems j.words) ∧ (winJob (winAt routeD 1) 3 15).isSome = true ∧
    (∀ j, winJob (winAt routeD 0) 3 15 = some j → j.item ≠ wjItems j.words) ∧
    (let s := { winAt routeD 0 with regs := (posted (winRing 3 15) [(WIN_CTRL_ENABLE 3, 1)] []).regs }
     ringNext (winRing 3 15) s (s.get (WIN_HEAD_HEAD 3 15)) = s.get (WIN_TAIL_TAIL 3 15)) := by
  refine ⟨by decide +kernel, by decide +kernel, by decide +kernel, ?_, by decide +kernel, ?_, by decide +kernel⟩ <;>
  · intro j h; cases h; decide +kernel

/-- Neither item of the two kinds need fail: an item of a ROUTE job, and of a SAMPLE job, that ends with no code. -/
theorem met_WinItems :
    (routeItem 3 { ring := 15, words := routeD, loaded := true } (winServed 3 15 (winAt routeD 0))).code = 0 := by decide +kernel

/-- A step of four experts and one token, for one job on each die; its map entries would lie at 0x1000. -/
def stepD : List Nat :=
  w16 [3 + 2 ^ 11 + 2 ^ 17 + 2 ^ 45 + 2 ^ 59, 5 + 2 ^ 16 + 2 ^ 24 + 2 ^ 32 + 2 ^ 40, 4, 2 ^ 24, 0x2000, 128 + 64 * 2 ^ 32, 0, 128 * 2 ^ 32,
    0x3000, 0x4000, 64, 0x5000, 0x6000, 0x7000]

def stepRegs : List (Fld × Nat) := [(THR_CTRL_ENABLE 3, 1), (THR_MAP_SIZE_ENTRIES 3, 4), (THR_MAP_BASE_BASE 3, 64)]

/-- The state in which a step of ring 15 of die 3 starts, its descriptor read. -/
def startsAt (d : List Nat) (s : State) : State :=
  freshStep 3 15 (tsStepId d) (readDescr (thrWho 3 15 s) (thrRing 3 15) (s.get (THR_HEAD_HEAD 3 15)) s).2

theorem met_ThresherStartsSteps :
    (∀ d ∈ [stepD, w16 [3, 2 ^ 40]],
      let s := posted (thrRing 3 15) stepRegs d
      s.dataUp = true ∧ thrStepOf s 3 15 = none ∧ ringHas (thrRing 3 15) s = true ∧ s.flag (THR_CTRL_ENABLE 3) = true ∧
      tsJobs d 3 ≠ 0 ∧ (readDescr (thrWho 3 15 s) (thrRing 3 15) (s.get (THR_HEAD_HEAD 3 15)) s).1 = some d) ∧
    (let f := startsAt stepD (posted (thrRing 3 15) stepRegs stepD)
     stepOk f 3 15 stepD = true ∧ (readMaps 3 (thrWho 3 15 f) stepD (ownedExperts 3 stepD) f).1.isSome = true) ∧
    (let f := startsAt stepD (words 0x10C0 [2 ^ 63] (posted (thrRing 3 15) stepRegs stepD))
     stepOk f 3 15 stepD = true ∧ (readMaps 3 (thrWho 3 15 f) stepD (ownedExperts 3 stepD) f).1 = none) ∧
    stepOk (startsAt (w16 [3, 2 ^ 40]) (posted (thrRing 3 15) stepRegs (w16 [3, 2 ^ 40]))) 3 15 (w16 [3, 2 ^ 40]) = false := by decide +kernel

/-- Die 3 with a step in ring 15, and a record at its intake. -/
def thrAt (x : ThrStep) (rs : List WinRec) : State :=
  { opened ([(THR_RSTAT_ACTIVE 3 15, 1), (THR_RSTAT_PHASE 3 15, 1), (THR_RSTAT_STEP_ID 3 15, 5)] ++ stepRegs) [] with
    thrs := [(3, { steps := [x] })], wins := [(3, { out := rs })] }

def step15 : ThrStep := { ring := 15, words := stepD }

/-- A record of ring 15 and step 5: a triple of token 0 for an expert, or an end marker. -/
def rec15 (expert : Nat) (mark : Bool) : WinRec := { ring := 2, w0 := expert * 2 ^ 24, w1 := (ofBool mark) * 2 ^ 48 + 15 * 2 ^ 50 + 5 * 2 ^ 54 }

theorem met_ThresherTakesTriples :
    (∀ e ∈ [0, 3, 4], (thrAt step15 [rec15 e false]).dataUp = true ∧
      intakeNext (thrAt step15 [rec15 e false]) 3 false = some (rec15 e false, step15)) ∧
    intakeNext (thrAt { step15 with own := cThrRange } [rec15 3 false]) 3 false =
      some (rec15 3 false, { step15 with own := cThrRange }) ∧
    tripleOk stepD (rec15 4 false).w0 = false ∧ tripleOk stepD (rec15 0 false).w0 = true ∧ trExpert (rec15 0 false).w0 % 4 ≠ 3 ∧
    tripleOk stepD (rec15 3 false).w0 = true ∧ trExpert (rec15 3 false).w0 % 4 = 3 ∧ 16 * (step15.recs.length + 1) ≤ tsScratchBytes stepD ∧
    (let x := { step15 with recs := [(0, 0), (0, 0), (0, 0), (0, 0)] }
     intakeNext (thrAt x [rec15 3 false]) 3 false = some (rec15 3 false, x) ∧ tsScratchBytes stepD < 16 * (x.recs.length + 1)) := by
  decide +kernel

theorem met_ThresherExchange :
    intakeNext (thrAt step15 [rec15 0 true]) 3 true = some (rec15 0 true, step15) ∧ recAbort (rec15 0 true).w1 = false ∧
    step15.closed = false ∧ step15.fin = false ∧ step15.marks + 1 = tsJobs stepD 3 ∧
    (let s := { thrAt step15 [] with thrs := [(3, { steps := [step15], inRecs := [(0, 0, 7), (1, 0, (rec15 0 false).w1)] })] }
     s.dataUp = true ∧ (s.thr 3).inRecs = [(0, 0, 7)] ++ (1, 0, (rec15 0 false).w1) :: [] ∧ thrStepOf s 3 (recRing 7) = none ∧
     thrStepOf s 3 (recRing (rec15 0 false).w1) = some step15 ∧ tsStepId step15.words % 1024 = recTag (rec15 0 false).w1 ∧
     step15.verdict = none) ∧
    (let tok : ThrTok := ⟨0, 15, 5, 0, 0, 0⟩
     let s := { thrAt step15 [] with thrs := [(3, { steps := [step15], inToks := [⟨0, 14, 5, 0, 0, 0⟩, tok] })] }
     (s.thr 3).inToks = [⟨0, 14, 5, 0, 0, 0⟩] ++ tok :: [] ∧ tokenFits s 3 ⟨0, 14, 5, 0, 0, 0⟩ = false ∧ tokenFits s 3 tok = true ∧
     thrStepOf s 3 tok.ring = some step15) ∧
    (3, 15, 5) ∉ ((thrAt step15 []).thr 0).gone ∧
    (3, 15, 5) ∈ (({ thrAt step15 [] with thrs := [(0, { gone := [(3, 15, 5)] })] } : State).thr 0).gone := by decide +kernel

theorem met_CutKeepsCapacity : tsBeMin stepD ≤ tsCap stepD ∧ tsBeMin (w16 [8192 * 2 ^ 17 + 8192 * 2 ^ 31]) ≤
    tsCap (w16 [8192 * 2 ^ 17 + 8192 * 2 ^ 31]) := by decide

theorem met_ThresherCutsFlushesAndClears :
    (∀ x ∈ [{ step15 with verdict := some 0 }, { step15 with verdict := some cThrDesc, closed := true },
        { step15 with verdict := some cThrDrops, closed := true }, { step15 with closed := true }, { step15 with cut := true }, step15],
      (thrAt x []).dataUp = true ∧ thrStepOf (thrAt x []) 3 15 = some x ∧ x.fin = false ∧ x.status = 0 ∧
      lcFirst 3 15 (thrAt x []) = false ∧ x.toks.length ≠ 3) ∧
    cThrDesc ≤ cThrDrops ∧ thrStepOf (thrAt step15 []) 3 14 = none ∧ step15.verdict ≠ some 0 := by decide +kernel

theorem met_ThresherJobsInRange : (thrAt { step15 with verdict := some 0 } []).JobsOk := by constructor <;> decide +kernel

/-- A row of the step in ring 15. -/
def row15 (cls : Nat) : RowRec :=
  { cls := cls, tenant := 8191, token := 0, expert := 3, replica := 0, slot := 0, node := 0, lcore := 0, ctr := 0, manctr := 0, region := 0 }

/-- Die 3 sends: the step's cut is done. -/
def sowAt (x : ThrStep) (h : SowHid) (fs : List (Fld × Nat)) : State :=
  { opened ([(SOW_CTRL_ENABLE 3, 1)] ++ fs) [] with thrs := [(3, { steps := [x] })], sows := [(3, h)] }

theorem met_SowerSendsManifestsAndRows :
    (let x := { step15 with cut := true, mans := [⟨0, 0, 0, 0, 0, 0⟩] }
     let s := sowAt x {} []
     s.dataUp = true ∧ thrStepOf (sowCollect 3 s) 3 15 = some x ∧ x.cut = true ∧ x.manSent = false ∧
     (sowCollect 3 s).flag (SOW_CTRL_ENABLE 3) = true) ∧
    (∀ st ∈ [0, 5], let d : DoneReq := { agent := .unit uSow 15 0 7, k := 3, status := st }
     let x := { step15 with cut := true, manSent := true }
     let s := { sowAt x { manOut := [(7, 15)] } [] with vt := { done := [{ d with k := 2 }, d] } }
     d.k = 3 ∧ d.agent = .unit uSow 15 0 7 ∧ s.vt.done = [{ d with k := 2 }] ++ d :: [] ∧ thrStepOf s 3 15 = some x ∧ x.status = 0) ∧
    (∀ cls ∈ [0, 1], let x := { step15 with cut := true, manSent := true, rows := [row15 cls] }
     let s := sowAt x { tb := [(8191, 1000)] } [(SOW_TB_RATE 3 8191, 1)]
     let c := sowCollect 3 s
     let e := unitRead (thrWho 3 15 c) (gaOff (tsAct x.words)) (tsElemBytes x.words) c
     c.flag (SOW_CTRL_ENABLE 3) = true ∧ pickRow 3 0 c = (if cls = 0 then some (15, row15 0) else none) ∧
     pickRow 3 1 c = (if cls = 0 then none else some (15, row15 1)) ∧ thrStepOf c 3 15 = some x ∧ e.1 = 0 ∧ tsScaleBytes x.words = 0) := by
  decide +kernel

theorem met_SowerBucketsAndCompletion :
    (let x := { step15 with cut := true, manSent := true }
     let s := sowAt x { manOut := [(7, 14)], rowsOut := [⟨0, 14, 1, true, 0⟩] } []
     s.dataUp = true ∧ thrStepOf (sowCollect 3 s) 3 15 = some x ∧ x.rows = [] ∧ x.status = 0 ∧
     (∀ m ∈ ((sowCollect 3 s).sow 3).manOut, m.2 ≠ 15) ∧ (∀ r ∈ ((sowCollect 3 s).sow 3).rowsOut, r.ring ≠ 15)) ∧
    (rdy []).Canon ∧ (sowAt { step15 with cut := true, manSent := true } {} []).JobsOk := by
  refine ⟨by decide +kernel, by constructor <;> decide +kernel, by constructor <;> decide +kernel⟩

/-! Hypotheses met: landings and the Gleaner. -/

/-- A received packet is fresh, is `p`, and leaves a state that has a property. -/
def freshIs (r : RxKind) (p : Packet) (f : State → Bool) : Bool :=
  match r with
  | .fresh q t => q == p && f t
  | _ => false

theorem freshIs_iff {r : RxKind} {p : Packet} {f : State → Bool} (h : freshIs r p f = true) : ∃ t, r = .fresh p t ∧ f t = true := by
  cases r <;> simp_all [freshIs]

/-- A packet of the own node with an extension header that opens its pair. -/
def pkt (kind : Nat) (ext : List Nat) (data : List Byte) : Packet :=
  ({ h := { kind := kind, ext := 1, opn := 1 }, ext := ext, data := data } : Packet).sized

/-- A state in which packets of the own node wait. -/
def waits (ps : List Packet) (s : State) : State := { s with vt := { s.vt with recv := ps.map (fun p => (Via.own, p)) } }

/-- A manifest of the last segment of a region of 8,192 slots, and a piece of its last slot. -/
def manP : Packet := pkt kLand [1 + 5 * 2 ^ 11 + 16 * 2 ^ 31, 1 + 4096 * 2 ^ 6 + 2 * 2 ^ 20 + 4096 * 2 ^ 27, 64] []
def pieceP (n : Nat) : Packet := pkt kLand [2 + 5 * 2 ^ 11 + 16 * 2 ^ 31, 0, 64 + 8191 * 2 ^ 32 + n * 2 ^ 52] (List.replicate 64 0x5A)

theorem met_LandingsWriteTheRegion :
    let s := opened [(CORE_ARR_SLOTS 0 5, 8192)] []
    s.dataUp = true ∧
    freshIs (vtTake (fun p => p.h.kind == kLand && ldSub p != 2) 0 (waits [manP] s)) manP (fun t =>
      landCore manP t == some 0 && landCode manP 0 t == 0 &&
      decide (csOffset 0 (t.get (CORE_ARR_MAP_BITMAP 0 (ldCtr manP))) + ceilDiv (t.get (CORE_ARR_SLOTS 0 (ldCtr manP))) 8 ≤
        csOffset 0 (ldBase manP))) = true ∧ ldSeg manP * ldCap manP + max (ldCap manP) (ldCount manP) ≤ 8192 ∧
    (∀ n ∈ [1, 2], freshIs (vtTake (fun p => p.h.kind == kLand && ldSub p == 2) 0 (waits [pieceP n] s)) (pieceP n) (fun t =>
      landCore (pieceP n) t == some 0 && landCode (pieceP n) 0 t == 0) = true ∧ trackFull (pieceP n) (waits [pieceP n] s) = false) := by
  decide +kernel

/-- A RETURN job of one segment of one row from core 108, and the ring 15 of die 3 that holds it. -/
def retD : List Nat := w16 [5 + 2 ^ 4 + 2 ^ 18 + 2 ^ 25, 108, 0, 128 * 2 ^ 32, 64, 0x3000, 0x4000, 0, 1]
def retRegs : List (Fld × Nat) := [(GLN_CTRL_ENABLE 3, 1), (CORE_ID_LOGICAL 108, 108)]

theorem met_ReturnJobsActivate :
    (∀ d ∈ [retD, w16 [5]],
      let s := posted (glnRing false 3 15) retRegs d
      s.dataUp = true ∧ (s.gln 3).rets = [] ∧ ringHas (glnRing false 3 15) s = true ∧ retNext 3 15 s ≠ s.get (GLN_RTAIL_TAIL 3 15) ∧
      s.flag (GLN_CTRL_ENABLE 3) = true ∧ retRoom 3 15 s = true ∧
      (readDescr (glnWho 3 15 s) (glnRing false 3 15) (retNext 3 15 s) s).1 = some d) ∧
    returnOk (posted (glnRing false 3 15) retRegs retD) 3 retD = true ∧
    physOf (posted (glnRing false 3 15) retRegs retD) (rjLcore retD) = some 108 ∧
    (posted (glnRing false 3 15) retRegs retD).get (CORE_ARR_COUNT 108 (rjManctr retD)) < rjNseg retD ∧
    returnOk (posted (glnRing false 3 15) retRegs (w16 [5])) 3 (w16 [5]) = false := by decide +kernel

/-- An active RETURN job that has its counts. -/
def ret15 : RetJob :=
  { aid := 6, ring := 15, idx := 0, words := retD, opn := true, segs := [(0, 9, 1)], blocks := 1, todo := [⟨false, 0, 0, 0⟩, ⟨true, 0, 0, 0⟩] }
def glnAt (h : GlnHid) (fs : List (Fld × Nat)) : State :=
  { opened (retRegs ++ fs) [] with glns := [(3, { h with combOrd := [(15, 1)] })] }

theorem met_ReturnJobsStart :
    (posted (glnRing false 3 15) retRegs retD).JobsOk ∧ (glnAt { rets := [ret15], nextAid := 7 } []).JobsOk ∧
    (let s := glnAt { rets := [ret15], nextAid := 7 } [(CORE_ARR_COUNT 108 0, 1)]
     s.dataUp = true ∧ (s.gln 3).rets[0]? = some ret15 ∧ ret15.fail = 0 ∧ physOf s (rjLcore ret15.words) = some 108 ∧
     ret15.opn = true ∧ ret15.ready < ret15.blocks ∧ ret15.ready + 1 ≤ s.get (CORE_ARR_COUNT 108 (rjReadyCtr ret15.words))) ∧
    (let s := glnAt { rets := [ret15], nextAid := 7 } []
     (s.gln 3).rets[0]? = some ret15 ∧ retWaits ret15 s = true) := by
  refine ⟨by constructor <;> decide +kernel, by constructor <;> decide +kernel, by decide +kernel, by decide +kernel⟩

theorem met_ReturnRowsAreSent :
    (∀ be ∈ [false, true], ∀ j ∈ [{ ret15 with ready := 1 }, { ret15 with todo := [⟨true, 0, 0, 0⟩] }],
      let s := glnAt { rets := [j], nextAid := 7 } [(GLN_PLOT_CLASS 3 15, ofBool be)]
      let c := (List.range 16).foldl (fun t n => flushRets 3 n 4096 t) (retSweep 3 (takeDone 3 uGln (retDoneReq 3) s))
      s.dataUp = true ∧ pickRet 3 false c = (if be then none else some j) ∧ pickRet 3 true c = (if be then some j else none)) ∧
    (let t := glnAt {} []
     physOf t (rjLcore retD) = some 108 ∧
     (unitRead (glnWho 3 15 t) (csOffset 108 (rjOut retD)) (2 * rjElems retD) t).1 = 0) := by decide +kernel

/-- A COMBINE job of eight tokens over four experts, for TAG 9. -/
def combD : List Nat := w16 [4 + 2 ^ 4 + 2 ^ 10 + 2 ^ 19 + 9 * 2 ^ 41, 4 + 8 * 2 ^ 39, 0x3000, 0x8000, 128 + 64 * 2 ^ 32, 0, 128 * 2 ^ 32,
  0xA000, 0, 0, 0, 0xC000, 0, 10]

theorem met_CombineJobsOpen :
    (∀ d ∈ [combD, w16 [4]],
      let s := posted (glnRing true 3 15) retRegs d
      let v := (List.range 16).foldl (fun t n => combDrain 3 n 4096 t) s
      s.dataUp = true ∧ v.flag (GLN_CTRL_ENABLE 3) = true ∧ combPick 3 v = some 15 ∧
      (readDescr (glnWho 3 15 v) (glnRing true 3 15) (combNext 3 15 v) v).1 = some d ∧
      combineOk (readDescr (glnWho 3 15 v) (glnRing true 3 15) (combNext 3 15 v) v).2 3 15 d = decide (d = combD) ∧
      (v.gln 3).combs = [] ∧ (v.gln 3).combDone = [] ∧ v.get (GLN_CHEAD_HEAD 3 15) < v.get (GLN_CSIZE_ENTRIES 3 15)) ∧
    shareOf 3 combD ≠ [] ∧ (posted (glnRing true 3 15) retRegs combD).JobsOk := by
  refine ⟨by decide +kernel, by decide, by constructor <;> decide +kernel⟩

/-- The open job of TAG 9. -/
def comb9 : CombJob := { ctx := 7, ring := 15, words := combD, left := [3, 7], seen := true }

/-- A row of expert 3 that returns for TAG 9, and its end marker with COUNT 0. -/
def rowP : Packet := pkt kRet [1 + 9 * 2 ^ 4 + 3 * 2 ^ 20 + 2 ^ 56] (List.replicate 128 0)
def markP (tag : Nat) : Packet := pkt kRet [2 + tag * 2 ^ 4 + 3 * 2 ^ 20] []

theorem met_ReturnsAreTaken :
    (let s := waits [rowP] (glnAt { combs := [comb9] } [])
     s.dataUp = true ∧ retFull rowP s = false ∧
     freshIs (vtTake (fun p => p.h.kind == kRet && rtSub p != 2) 0 s) rowP (fun t =>
       combOf t (rtDie rowP) (rtTag rowP) == some comb9 && rtOk comb9.words rowP &&
       accessCode t rowP.h.stream rowP.h.key pL (gaOff (cjRet combD) + retIndex combD 3 0 0 * cjRetStride combD) 128 == 0) = true ∧
     comb9.told.contains (rtPair rowP) = false ∧ Tab.get (fun _ => 0) comb9.marks (rtPair rowP) = 0) ∧
    (let s := waits [markP 9] (glnAt { combs := [comb9] } [])
     freshIs (vtTake (fun p => p.h.kind == kRet && rtSub p == 2) 0 s) (markP 9) (fun t =>
       combOf t (rtDie (markP 9)) (rtTag (markP 9)) == some comb9 && rtOk comb9.words (markP 9)) = true ∧ rtAbort (markP 9) = false ∧
     comb9.told.contains (rtPair (markP 9)) = false ∧ Tab.get (fun _ => 0) comb9.rows (rtPair (markP 9)) = rtCount (markP 9)) ∧
    (let s := waits [markP 8] (glnAt { combs := [comb9] } [])
     freshIs (vtTake (fun p => p.h.kind == kRet && rtSub p == 2) 0 s) (markP 8) (fun t =>
       combOf t (rtDie (markP 8)) (rtTag (markP 8)) == none) = true) ∧
    (waits [rowP] (glnAt { combs := [comb9] } [])).JobsOk := by
  refine ⟨by decide +kernel, by decide +kernel, by decide +kernel, by constructor <;> decide +kernel⟩

theorem met_CombineJobsEnd :
    (∀ dg ∈ [combDigest combD, 0], let s := words (0x3000 + 16 * 3) [2 ^ 54] (words (0x3000 + 16 * 7) [2 ^ 54]
       (glnAt { combs := [comb9], notes := [⟨9, 12, dg⟩] } [(GLN_CSIZE_ENTRIES 3 15, 16), (GLN_CTAIL_TAIL 3 15, 1)]))
     s.dataUp = true ∧ (s.gln 3).notes = [⟨9, 12, dg⟩] ∧ combOf s 3 9 = some comb9 ∧
     (s.gln 3).combs.find? (fun j => j.ctx == 7) = some comb9 ∧ (s.gln 3).combs.filter (fun j => j.ring == 15) = [comb9] ∧
     (∀ q : Fin 4, (combCopy q 15 0 s).all (fun i => nextToken s i == none) = true) ∧
     combNext 3 15 s = s.get (GLN_CTAIL_TAIL 3 15)) ∧ combDigest combD ≠ 0 ∧
    (glnAt { combs := [comb9], notes := [⟨9, 12, 0⟩] } []).JobsOk := by
  refine ⟨by decide +kernel, by decide +kernel, by constructor <;> decide +kernel⟩

theorem met_CombineTokenSumsExactly :
    (∀ e ∈ [0, 2 ^ 54],
      let s := words (0x3000 + 16 * 3) [e, 0x3F800000] (glnAt { combs := [{ comb9 with ready := [0] }] } [])
      let a := unitRead (glnWho 3 15 s) (gaOff (cjAssign combD) + 16 * 3) 16 s
      let kept := (tokenEntries combD 3 s).filter (fun x => aeKept x.1)
      s.dataUp = true ∧ pickComb 3 s = some ({ comb9 with ready := [0] }, 3) ∧ cjFmt combD = some .f16 ∧
      comb9.left.filter (fun x => x != 3) ≠ [] ∧ a.1 = 0 ∧ (∀ x ∈ kept, aeReplica x.1 < cjRmax combD) ∧
      (readRows 3 comb9 kept a.2.2).1 = 0 ∧ (kept = [] ↔ e = 0)) ∧ cjRes combD = false := by decide +kernel

/-! Hypotheses met: collectives and links. -/

/-- The four engines' ring 15 holds one entry, `ws`, at HBM offset 0; group context 255 stands as `opn`. -/
def posted4 (opn : Bool) (ws : List Nat) : State :=
  opened ((List.range 4).flatMap (fun k => [((colRing k 15).en, 1), ((colRing k 15).size, 16), ((colRing k 15).tail, 1), (COL_CTRL_ENABLE k, 1),
    (COL_GCTX_A_OPEN k 255, ofBool opn), (COL_GCTX_A_SIZE k 255, 1)])) [(0, w16 ws)]

/-- A GROUP job for context 255 of this node alone, its table at 0x1000, and a BARRIER of the group. -/
def groupD (action : Nat) : List Nat := w16 [7 + action * 2 ^ 4 + 255 * 2 ^ 5, 77 + 2 ^ 32, 0x1000]
def barrierD (limit : Nat) : List Nat := w16 [6 + 6 * 2 ^ 4 + 255 * 2 ^ 26, 0, 0, 0, 0, 0, 0, 0, 0, 0, limit * 2 ^ 24]

theorem met_GroupsOpen :
    (∀ opn ∈ [false, true], ∀ a ∈ [0, 1], let s := posted4 opn (groupD a)
      s.dataUp = true ∧ colReadyRing 15 s = true ∧ dw (groupD a) 0 0 4 = 7 ∧ (colCopies 15 s).1 = some (groupD a, true) ∧
      groupBits (groupD a) = true ∧ gdAction (groupD a) = a ∧ gOpen (colCopies 15 s).2 (gdGctx (groupD a)) = opn) ∧
    (groupTable 15 (groupD 0) (colCopies 15 (posted4 false (groupD 0))).2).1 = some [0] ∧
    (let t := (colCopies 15 (posted4 true (groupD 1))).2
     colQueued 255 t = false ∧ t.col.jobs = []) := by decide +kernel

theorem met_CollectivesOpen :
    (∀ opn ∈ [false, true], ∀ limit ∈ [99, 100], let s := posted4 opn (barrierD limit)
      let t := (colCopies 15 s).2
      let d := barrierD limit
      let j : ColJob := { ctx := 0, ring := 15, words := d, g := 255, seq := gNext t 255,
                          dig := collDigest d (gDig t 255) (gNext t 255) (t.get ALM_MODE_CUR),
                          grants := (List.range 4).map (fun k => t.get (COL_RCTX_COUNT k k)) }
      let v := concludeLate 255 (gNext t 255) (showOpen { t with col := { t.col with jobs := t.col.jobs ++ [j] } })
      s.dataUp = true ∧ nextRing s = some 15 ∧ freeCtx 15 s = some 0 ∧ (colCopies 15 s).1 = some (d, true) ∧
      cdGctx d = 255 ∧ gOpen t 255 = opn ∧ t.col.held = [] ∧
      (opn = true → openCause j true (t.col.flush.contains (15, t.get (COL_HEAD_HEAD 0 15))) v = (if limit = 99 then cCollDesc else 0) ∧
        (readCounts j v).1 = some [])) ∧
    (posted4 true (barrierD 100)).JobsOk := by
  refine ⟨by decide +kernel, by constructor <;> decide +kernel⟩

/-- A COLL packet of group digest 0 and SEQ 0. -/
def collP (phase code index rank contrib : Nat) (data : List Byte) : Packet :=
  pkt kColl [0, 0, phase * 2 ^ 32 + code * 2 ^ 36, index + rank * 2 ^ 32, contrib, 0, 0, 0] data

/-- A packet that a switch has sent, as the transaction layer hands it on. -/
def ofSwitch (p : Packet) : Packet := { p with h := { p.h with src := swNode, stream := 0 } }

/-- The packet comes from a node. -/
def fromNode (node : Nat) (p : Packet) : Packet := { p with h := { p.h with src := node } }

/-- Group context 255 is open with one member, and has votes and a collective in context 15. -/
def colSt (vs : List ColVotes) (js : List ColJob) (ps : List (Via × Packet)) : State :=
  let s := { posted4 true [] with col := { votes := vs, jobs := js } }
  { s.set (VT_KEY_EN 0 0) 1 with vt := { s.vt with recv := ps } }

theorem met_CombinePointCountsVotes :
    ∀ ph ∈ [phOpen, phClose, phAbort], ∀ dig ∈ [0, 1], let p := ofSwitch (collP ph 0 0 rankSwitch 0 [])
      let v : ColVotes := { g := 255, seq := 0, dig := dig }
      let s := colSt [v] [] [(.port 15, collP ph 0 0 rankSwitch 0 [])]
      let t := (colTake [ph] none 0 s).2.2
      s.dataUp = true ∧ (colTake [ph] none 0 s).1 = some p ∧ groupOf t p = some 255 ∧ votesOf t 255 (cpSeq p) = some v ∧ v.fin = false ∧
      gRank t 255 % 16 = 0 ∧ cpPhase p = ph ∧ (cpDig p = v.dig ↔ dig = 0) := by decide +kernel

/-- An ALLREDUCE of 64 elements in one swath through the switch. -/
def allreduceD : List Nat := w16 [6 + 2 ^ 4 + 2 ^ 20 + 255 * 2 ^ 26, 64 + 2 ^ 36, 0, 0, 0, 0, 0, 0, 0, 0, 100 * 2 ^ 24]

def job15 (d : List Nat) (st : Nat) : ColJob := { ctx := 15, ring := 15, words := d, g := 255, st := st, out := [0], grants := [1, 1, 1, 1] }

theorem met_CollectivesTakeData :
    (∀ q ∈ [(0, csOpening), (1, csRunning)], let p := ofSwitch (collP phGo 0 0 rankSwitch 0 [])
     let j := { job15 (barrierD 100) q.2 with dig := q.1 }
     let s := colSt [] [j] [(.port 15, collP phGo 0 0 rankSwitch 0 [])]
     let t := colTake [phGo] none 0 s
     s.dataUp = true ∧ t.1 = some p ∧ liveOf t.2.2 p = some j ∧ j.st = q.2 ∧ cdOp j.words = 6 ∧ (cpDig p = j.dig ↔ q.1 = 0) ∧
     j.final = false ∧ j.voted = false ∧ (q.1 = 1 → takesData j = true)) ∧
    (∀ dig ∈ [0, 1], let p := fromNode 5 (collP phPiece 0 0 0 0 [1, 2])
     let j := { job15 allreduceD csRunning with dig := dig }
     let s := colSt [] [j] [(.port 3, p)]
     let t := colTake [phAnchor, phLanes, phAnchorR, phValues, phPiece] none 0 s
     cpRank p ≠ rankSwitch ∧ t.1 = some p ∧ liveOf t.2.2 p = some j ∧ takesData j = true ∧ j.final = false ∧ j.chunks = [] ∧
     cdOp j.words ≠ 7 ∧
     (cpDig p = j.dig ↔ dig = 0)) ∧
    (∀ c ∈ [0, 1], let p := ofSwitch (collP phTotals 0 0 rankSwitch c (List.replicate 512 0))
     let j := job15 allreduceD csRunning
     let s := colSt [] [j] [(.port 15, collP phTotals 0 0 rankSwitch c (List.replicate 512 0))]
     let t := colTake [phAnchorR, phTotals] (some true) 0 s
     t.1 = some p ∧ liveOf t.2.2 p = some j ∧ cpDig p = j.dig ∧ cpLw p = lwOf j.words ∧ (cpContrib p = contribOf t.2.2 j ↔ c = 1) ∧
     cpIndex p ∈ j.out ∧ haveAll t.2.2 j phTotals 0 rankSwitch = false ∧
     (gather j phTotals 0 rankSwitch).length + p.data.length ≤ phaseLen j.words (gSize t.2.2 255) (gRank t.2.2 255) phTotals 0) ∧
    (let p := ofSwitch (collP phNoctx 0 0 rankSwitch 0 [])
     let j := job15 allreduceD csRunning
     let s := colSt [] [j] [(.port 15, collP phNoctx 0 0 rankSwitch 0 [])]
     let t := colTake [phNoctx] none 0 s
     t.1 = some p ∧ liveOf t.2.2 p = some j ∧ cpDig p = j.dig ∧ takesData j = true ∧ cpIndex p ∈ j.out ∧ cpIndex p ∉ j.retry) ∧
    (let e := { job15 allreduceD csRunning with retry := [4] }
     colAt (colSt [] [e] []) 15 = some e ∧ 4 ∈ e.retry ∧ takesData e = true) ∧
    (colSt [] [job15 allreduceD csRunning] []).JobsOk := by
  refine ⟨?_, ?_, ?_, ?_, ?_, ?_⟩ <;> first | decide +kernel | (constructor <;> decide +kernel)

theorem met_CollectivesEnd :
    (∀ j ∈ [job15 (barrierD 100) csRunning, { job15 (barrierD 100) csRunning with rdy := [0, 1, 2] }, job15 (barrierD 100) csCommitting,
        job15 (barrierD 100) csAborting, { job15 (barrierD 100) csReady with late := true }],
      (colSt [] [j] []).dataUp = true ∧ colAt (colSt [] [j] []) 15 = some j ∧ j.final = false ∧
      (colSt [] [j] []).col.jobs.find? (fun j => j.ring == 15) = some j ∧ j.inGroup = true ∧ j.voted = false) ∧
    engineDone 3 (colSt [] [job15 (barrierD 100) csRunning] []) (job15 (barrierD 100) csRunning) = true ∧
    (∀ q ∈ [(phCommit, 0), (phResult, 5)], let p := ofSwitch (collP q.1 q.2 0 rankSwitch 0 [])
     let j := { job15 (barrierD 100) csReady with closed := true }
     let t := colTake [q.1] none 0 (colSt [] [j] [(.port 15, collP q.1 q.2 0 rankSwitch 0 [])])
     t.1 = some p ∧ liveOf t.2.2 p = some j ∧ cpCode p = q.2 ∧ j.st = csReady ∧ cpDig p = j.dig ∧ j.final = false) ∧
    (colSt [] [job15 (barrierD 100) csRunning] []).JobsOk := by
  refine ⟨?_, ?_, ?_, ?_⟩ <;> first | decide +kernel | (constructor <;> decide +kernel)

/-- A port in a state, with given hidden state. -/
def portAt (n st : Nat) (l : LinkHid) (fs : List (Fld × Nat)) : State :=
  { rdy ([(VL_STATE_STATE n, st)] ++ fs) with links := [(n, l)] }

theorem met_LinksComeUpAndGoDown :
    (∀ n ∈ [0, 14, 15, 18], ∀ st ∈ [vlDisabled, vlAbsent, vlTraining, vlHello, vlUp, vlDown],
      (portAt n st {} []).dataUp = true ∧ portDieOk (portAt n st {} []) n = true ∧ vlState (portAt n st {} []) n = st) ∧
    (VL_CTRL_ENABLE 14).of 1 = 1 ∧ (VL_CTRL_ENABLE 14).of 2 = 0 ∧ narrowest 14 ≤ [4, 0].length ∧ narrowest 18 ≤ [8, 0, 1, 2].length ∧
    (let s := portAt 14 vlHello {} [(VL_EXPECT_NODE 14, 5), (VL_EXPECT_PORT 14, 3), (VL_ACK_LIMIT_LIMIT_NS 14, 400)]
     s.get (VL_EXPECT_NODE 14) = 5 ∧ s.get (VL_EXPECT_PORT 14) = 3 ∧
     2 * ((s.alm + 2 ^ 32 - (2 ^ 32 - 200)) % 2 ^ 32 - 0) ≤ ackLimit 14 s ∧
     ackLimit 14 s < 2 * ((s.alm + 2 ^ 32 - (2 ^ 32 - 201)) % 2 ^ 32 - 0)) ∧
    (portAt 14 vlAbsent {} [(VL_STATE_PRSNT 14, 1)]).flag (VL_STATE_PRSNT 14) = true := by decide +kernel

theorem met_LinksUpAndLost :
    (let l : LinkHid := { loss := some (cLinkSilent, 0), n := { unacked := [⟨0, pkt kLoad [] [], 1⟩] } }
     (∀ n ∈ [14, 18], (portAt n vlUp l []).dataUp = true ∧ portDieOk (portAt n vlUp l []) n = true ∧ vlState (portAt n vlUp l []) n = vlUp ∧
       ((portAt n vlUp l []).link n).n.unacked ≠ [] ∧ ((portAt n vlUp l []).link n).loss = some (cLinkSilent, 0) ∧
       ((portAt n vlUp l []).link n).bye = false) ∧
     (portAt 14 vlUp l [(VL_STATE_PRSNT 14, 1)]).flag (VL_STATE_PRSNT 14) = true ∧ isUp 14 = false ∧ isUp 15 = true ∧ l.prsntEnd = none ∧
     ((portAt 14 vlUp { l with prsntEnd := some 5 } []).link 14).prsntEnd = some 5 ∧
     ((portAt 14 vlUp { l with bye := true } []).link 14).bye = true ∧ ((portAt 14 vlUp {} []).link 14).loss = none) := by decide +kernel

theorem met_LinkFramesAndBlocks :
    (let p := pkt kLoad [] []
     let bs := p.wire
     (portAt 18 vlUp { n := { e := 65535 } } []).dataUp = true ∧ vlState (portAt 18 vlUp { n := { e := 65535 } } []) 18 = vlUp ∧
     bs.length = 128 ∧ fcrc 0 65535 128 bs < 2 ^ 32 ∧
     (((portAt 18 vlUp { n := { e := 65535 } } []).link 18).ch false).e = 65535 ∧
     (let f : TxFrame := ⟨7, p, 1⟩
      let s := portAt 18 vlUp { n := { unacked := [f] } } []
      (((s.link 18).ch false).unacked.dropWhile (fun f => f.seq != 7)) = [f] ∧ f.sends < replayLimit 18 s) ∧
     (let s := portAt 18 vlUp { due := [.idle, .mapsw 1] } []
      (s.link 18).due = .idle :: [.mapsw 1]) ∧
     (let s := portAt 18 vlUp { due := [.mapsw 1, .idle], txReq := some (1, 0, 8) } []
      (s.link 18).due = .mapsw 1 :: [.idle] ∧ (s.link 18).txReq = some (1, 0, 8) ∧ idleState 18 s = false) ∧
     (idleState 18 (portAt 18 vlDisabled {} []) = true ∧ portDieOk (portAt 18 vlDisabled {} []) 18 = true) ∧
     (let f : RxFrame := ⟨7, 64, []⟩
      ((portAt 18 vlUp { x := { rx := some f } } []).link 18).x.rx = some f) ∧
     (let l := (portAt 18 vlUp { n := { queue := [p], granted := 2 } } []).link 18
      l.due = [] ∧ l.x.opn = none ∧ l.x.ready = false ∧ l.n.opn = none ∧ l.n.ready = true ∧ l.n.replay = [] ∧ l.n.queue = p :: []) ∧
     ctlBad 0 = true) := by decide +kernel

theorem met_GoodControlBlock : ctlBad (1 + bcrc 1 * 2 ^ 240) = false := by decide +kernel

/-- An UP mesh port with four lanes and the fifth the spare. -/
def laned (stat : Nat) (fs : List (Fld × Nat)) : State :=
  portAt 14 vlUp {} ([(VL_STATE_RX_WIDTH 14, 4), (VL_MAP_RX_MAP 14, mapOf [0, 1, 2, 3]), (VL_LANE_STAT_RX 14, stat)] ++ fs)

theorem met_LinkLanes :
    (let s := laned (trainedStat 14 [0, 1, 2, 3, 4]) []
     s.dataUp = true ∧ portDieOk s 14 = true ∧ 0 < physLanes 14 ∧ rxLanes 14 s = [0, 1, 2, 3] ∧ rxStat 14 0 s = 0 ∧
     (List.range (physLanes 14)).find? (fun i => rxStat 14 i (setRxStat 14 0 2 s) == 1) = some 4) ∧
    (let s := laned (trainedStat 14 [0, 1, 2, 3]) []
     rxStat 14 0 s = 0 ∧ (∀ i < physLanes 14, rxStat 14 i (setRxStat 14 0 2 s) ≠ 1) ∧
     narrowest 14 ≤ ((rxLanes 14 s).filter (fun i => i != 0)).length) ∧
    (let s := portAt 14 vlUp {} [(VL_STATE_RX_WIDTH 14, 2), (VL_MAP_RX_MAP 14, mapOf [0, 1]), (VL_LANE_STAT_RX 14, trainedStat 14 [0, 1])]
     rxStat 14 0 s = 0 ∧ (∀ i < physLanes 14, rxStat 14 i (setRxStat 14 0 2 s) ≠ 1) ∧
     ((rxLanes 14 s).filter (fun i => i != 0)).length < narrowest 14) ∧
    (let s := portAt 14 vlUp { mapReq := some (3, 5, 4) } [(VL_MAP_TX_MAPSEQ 14, 15), (VL_LANE_STAT_TX 14, 3)]
     (s.link 14).mapReq = some (3, 5, 4) ∧ (0 + 16 - s.get (VL_MAP_TX_MAPSEQ 14)) % 16 = 1 ∧
     laneStat (s.get (VL_LANE_STAT_TX 14)) 0 ≠ 0 ∧ laneStat (s.get (VL_LANE_STAT_TX 14)) 0 ≠ 7 ∧ 0 < uncorrMax 14 s) ∧
    (let s := portAt 14 vlHello { txReq := some (15, 0, 4), due := [.mapsw 15] } []
     vlState s 14 = vlHello ∧ (s.link 14).txReq = some (15, 0, 4) ∧ (0 + 16 - 15) % 16 = 1 ∧ (7 + 16 - 15) % 16 = 8) ∧
    (∀ st ∈ [3, 4], let s := laned (setLaneStat (trainedStat 14 [0, 1, 2, 3]) 4 st) []
     rxStat 14 4 s = st ∧ fullWidth 14 ≤ (rxLanes 14 s).length ∧ Tab.get (fun _ => 0) (s.link 14).tries 4 < laneTries 14 s) ∧
    (let s := portAt 14 vlUp { tries := [(4, 7)] } [(VL_STATE_RX_WIDTH 14, 3), (VL_MAP_RX_MAP 14, mapOf [0, 1, 2]),
       (VL_LANE_STAT_RX 14, setLaneStat (trainedStat 14 [0, 1, 2]) 4 4)]
     rxStat 14 4 s = 4 ∧ (rxLanes 14 s).length < fullWidth 14 ∧ laneTries 14 s ≤ Tab.get (fun _ => 0) (s.link 14).tries 4) := by
  decide +kernel

/-! Hypotheses met: the transaction engines. -/

/-- A packet of the own node without an extension header that opens its pair. -/
def req (h : Hdr) (data : List Byte) : Packet := ({ h := { h with opn := 1 }, data := data } : Packet).sized

theorem met_ReceivedRequestsAreApplied :
    (let p := req { kind := kLoad, offset := 0x1000, size := 8 } []
     freshIs (vtTake (fun p => p.h.kind == kLoad) 0 (waits [p] (opened [] []))) p (fun t => packetCode t p pR 8 == 0) = true ∧
     freshIs (vtTake (fun p => p.h.kind == kLoad) 0 (waits [p] (rdy []))) p (fun t => packetCode t p pR 8 != 0) = true ∧
     (opened [] []).dataUp = true ∧ inRegs p.h.offset = false) ∧
    (let p := req { kind := kStore, offset := hbmSize - 8 } [1, 2, 3, 4, 5, 6, 7, 8]
     freshIs (vtTake (fun p => p.h.kind == kStore) 0 (waits [p] (opened [] []))) p (fun t => packetCode t p pW p.h.size == 0) = true ∧
     freshIs (vtTake (fun p => p.h.kind == kStore) 0 (waits [p] (rdy []))) p (fun t => packetCode t p pW p.h.size != 0) = true ∧
     inRegs p.h.offset = false) ∧
    (∀ op ∈ [1, 2, 3], let p := req { kind := kAtomic, op := op, offset := 0x1000, size := if op = 3 then 16 else 8 } []
     freshIs (vtTake (fun p => p.h.kind == kAtomic && p.h.op == op) 0 (waits [p] (opened [] []))) p (fun t =>
       (bindTab p t).1 && packetCode t p pA (if op = 3 then 16 else 8) == 0 && !(hbmFind 0x1000 8 t).anyPoison 0x1000 8 &&
       !(hbmFind 0x1000 16 t).anyPoison 0x1000 16) = true) ∧
    (Tally.ofSlot ((opened [] []).readLE 0x1000 16)).residueOk = true ∧ (Tally.ofSlot 0).residueOk = true ∧
    (let p := req { kind := kClose } []
     freshIs (vtTake (fun p => p.h.kind == kClose) 0 (waits [p] (opened [] []))) p (fun t =>
       (recvCtx t 0 0).any (fun c => c.horizon == p.h.psn)) = true) := by decide +kernel

/-- Port 3 leads to node 5, port 4 to node 6; key 0 is known; one packet has come in on port 3. -/
def fromPort (p : Packet) (fs : List (Fld × Nat)) : State :=
  let s := rdy ([(VL_EXPECT_NODE 3, 5), (VL_EXPECT_NODE 4, 6), (VL_STATE_STATE 4, vlUp), (VT_KEY_EN 0 0, 1)] ++ fs)
  { s with vt := { s.vt with recv := [(.port 3, p)] } }

theorem met_RelaysNoticesAndBadPackets :
    (let p : Packet := { h := { kind := 13 } }
     (fromPort p []).dataUp = true ∧ (fromPort p []).vt.recv[0]? = some (.port 3, p) ∧ p.valid = false) ∧
    (∀ src ∈ [5, 7], let p := req { kind := kLoad, src := src, dst := 6, size := 8 } []
     let s := fromPort p []
     p.valid = true ∧ p.h.kind ≠ kNotice ∧ p.h.dst ≠ s.node ∧ p.h.dst ∉ s.vt.down ∧ epochKnown s p.h.epoch = true ∧ keyKnown s p.h.key = true ∧
     (s.get (VL_EXPECT_NODE 3) = p.h.src ↔ src = 5) ∧ p.h.dst / 16 = s.node / 16 ∧ peerPort s p.h.dst = some 4 ∧ vlState s 4 = vlUp) ∧
    (∀ q ∈ [(1, 5), (3, 5), (1, 16)], let p := req { kind := kNotice, src := 5, operand := noteWord q.2 5 2 q.1 0 } []
     p.valid = true ∧ p.h.kind = kNotice ∧ epochKnown (fromPort p []) p.h.epoch = true ∧ noteType p.h.operand = q.1 ∧ (fromPort p []).vt.notices = [] ∧
     noticeOk (.port 3) p = decide (q.2 = 5)) := by decide +kernel

/-- A reply is taken as `p`, and leaves a state that has a property. -/
def replyIs (r : Option (Packet × State)) (p : Packet) (f : State → Bool) : Bool := r.any (fun q => q.1 == p && f q.2)

theorem met_AnswersCompleteRequests :
    ∀ q ∈ [(kLoadRsp, kLoad, 0), (kAtomicRsp, kAtomic, 0), (kNack, kStore, 0), (kNack, kStore, 0xF), (kAck, kStore, 0)],
      let p := req { kind := q.1, psn := 7, op := q.2.2, horizon := 8 } []
      let o : OutReq := { rid := 0, psn := 7, agent := .op 0, pkt := { h := { kind := q.2.1 } }, path := .own, land := some (0, 64) }
      let c : SendCtx := { k := 0, node := 0, gen := 0, out := [{ o with psn := 6 }, o] }
      let s := waits [p] { opened [] [] with vt := { send := [c] } }
      s.dataUp = true ∧ replyIs (vtTakeReply (fun p => p.h.kind == q.1) 0 s) p (fun t =>
        t.vt.waiting.isEmpty && sendCtx t 0 0 == some c && !coreFenced t 0) = true ∧
      p.h.kind = q.1 ∧ c.gen = p.h.gen ∧ (c.out.map (fun o => o.psn)).Nodup ∧ o ∈ c.out ∧ o.psn = p.h.psn ∧ o.answered = false ∧
      (∀ o ∈ c.out, o.pkt.h.kind ≠ kClose) := by decide +kernel

/-- Node 5 is on port 3, which is UP with four lanes, by the direct path alone. -/
def routed (send : List SendCtx) : State :=
  { rdy [(VL_EXPECT_NODE 3, 5), (VL_STATE_STATE 3, vlUp), (VL_STATE_TX_WIDTH 3, 4), (VT_CTRL_ENABLE 3, 1)] with
    vt := { send := send, rcur := { loc := [(5, 2 ^ 24 + 1)] } } }

theorem met_PairsResendTimeOutAndClose :
    (∀ busy ∈ [false, true],
      let o : OutReq := { rid := 0, psn := 7, agent := .op 0, pkt := { h := { kind := kStore, dst := 5 } }, path := .own, busy := busy }
      let c : SendCtx := { k := 3, node := 5, gen := 0, issued := 1, out := [o] }
      let s := routed [c]
      s.dataUp = true ∧ sendCtx s 3 5 = some c ∧ o ∈ c.out ∧ (c.out.map (fun q => q.psn)).Nodup ∧ o.acked = false ∧ o.answered = false ∧
      5 ∉ s.vt.down ∧ o.pkt.h.dst = 5 ∧ (pickPath s o.plane c).map Prod.fst = some (.direct 3) ∧ c.out ≠ [] ∧
      s.vt.waiting = []) ∧
    (let c : SendCtx := { k := 3, node := 5, gen := 0, issued := 1, completed := 1 }
     let s := routed [c]
     sendCtx s 3 5 = some c ∧ c.out = [] ∧ c.closing = false ∧ c.issued ≠ 0 ∧ s.vt.waiting = [] ∧ (pickPath s false c).isSome = true) ∧
    ((rdy [(VT_SUP_A_OPEN 0 63, 1)]).flag (VT_SUP_A_OPEN 0 63) = true ∧ (rdy []).flag (VT_SUP_A_OPEN 0 63) = false ∧
     (rdy []).flag MGT_BB_FROZEN = false) ∧
    (let w : WaitReq := { k := 3, rid := 0, node := 5, agent := .op 0, pkt := { h := { kind := kStore, flagG := 1 } } }
     let s := { routed [] with vt := { (routed []).vt with waiting := [w] } }
     s.vt.waiting.find? (fun w => w.k == 3 && w.pkt.h.flagG == 1 && sendable s w) = some w ∧ pathSet s w.plane w.k w.node ≠ []) := by
  decide +kernel

theorem met_EpochsSlotsAndRepeats :
    (let s := rdy [(VT_EPOCH_WINDOW 0, 1)]
     s.dataUp = true ∧ s.flag (VT_EPOCH_WINDOW 0) = true ∧ oldInflight s = 0) ∧
    (∀ kind ∈ [kLoad, kStore, kAtomic], bitsOf (BitVec.ofNat 64 (kind + 16) : Word).toNat 0 4 = kind ∧
      bitsOf (BitVec.ofNat 64 (kind + 16) : Word).toNat 4 4 = 1 ∧ opCheck kind 1 0x1008 = 0 ∧ opCheck kind 1 0x1004 ≠ 0) ∧
    ((rdy [(VT_OP_ADDR_ADDR 3 15, 0x1008)]).get (VT_OP_ADDR_ADDR 3 15) = 0x1008 ∧
      spraySet (rdy []) (rdy []).vt.rcur (gaNode 0x1008) ≠ [] ∧ (rdy []).flag (VT_OP_STAT_BUSY 3 15) = false ∧
      (rdy [(VT_OP_STAT_BUSY 3 15, 1)]).flag (VT_OP_STAT_BUSY 3 15) = true) ∧
    (let d : DoneReq := { agent := .op 15, k := 3, status := 5 }
     ({ rdy [] with vt := { done := [d] } } : State).vt.done.find? (fun d => d.k == 3 && d.agent == Agent.op 15) = some d) ∧
    (∀ p ∈ [({ h := { kind := kNotice } } : Packet)], p.h.cls = 0) := by decide +kernel

/-! Hypotheses met: the tiers. -/

/-- A tier descriptor of an operation for tenant 5, with its completion record at 0x200000. -/
def tierD (op bkind len handle off : Nat) : List Nat :=
  w16 [8 + op * 2 ^ 4 + 5 * 2 ^ 8 + bkind * 2 ^ 21 + len * 2 ^ 24, handle, 0, off, 0x200000]

/-- Frame 16 of stack 6, which is the tier region of engine 3. -/
def off6 : Nat := 6 * stackSize + 16 * frameSize

/-- Registers of engine 3 with a table of sixteen blocks at 0x100000 and a ready Silo of sixteen units. -/
def tierRegs : List (Fld × Nat) :=
  [(TIER_CTRL_ENABLE 3, 1), (TIER_BT_BASE_BASE 0, 0x4000), (TIER_BT_SIZE_ENTRIES 3, 16), (TIER_REGION_FIRST 3 0, 16), (TIER_REGION_COUNT 3 0, 1),
    (TIER_QUOTA_A_HBM_LIMIT 0 5, 1), (TIER_QUOTA_B_SILO_LIMIT 0 5, 1), (SILO_STATUS_READY 0, 1), (SILO_LOGICAL_UNITS 0, 16),
    (SILO_CTRL_ENABLE 0, 1)]

/-- The descriptor is next in ring 15 of engine 3, and entry 3 of the table is `b`. -/
def tierAt (d : List Nat) (b : Blk) (fs : List (Fld × Nat)) : State := words 0x1000C0 b.words (posted (tierRing 3 15) (tierRegs ++ fs) d)

/-- The state once the descriptor has been read. -/
def tierRead (s : State) : State := (readDescr (tierWho 3 15 s) (tierRing 3 15) (s.get (TIER_HEAD_HEAD 3 15)) s).2

/-- What `TierNext` asks, as one decidable proposition. -/
def nextOk (d : List Nat) (s : State) : Prop :=
  s.dataUp = true ∧ s.flag (TIER_CTRL_ENABLE 3) = true ∧ tierCmd s 3 15 = none ∧ ringHas (tierRing 3 15) s = true ∧
    (readDescr (tierWho 3 15 s) (tierRing 3 15) (s.get (TIER_HEAD_HEAD 3 15)) s).1 = some d ∧ tierDescOk d (tierRead s) = true

theorem nextOk_iff {d : List Nat} {s : State} (h : nextOk d s) : TierNext 3 15 d s (tierRead s) :=
  ⟨h.1, h.2.1, h.2.2.1, h.2.2.2.1, pair_of_fst h.2.2.2.2.1, h.2.2.2.2.2⟩

theorem met_TierAllocs :
    (let d := tierD opAlloc bkScratch 32 0 off6
     let s := tierAt d {} [(HBM_FRAME_A_STATE 6 16, fVacant)]
     let t := entryRead 3 15 3 (tierRead s)
     nextOk d s ∧ unusedIndex (tierRead s) 3 = some 3 ∧ EntryApart d 3 t ∧ framesFree t 3 off6 32 = true ∧ t.dieFenced (20 + stackOf off6) = false ∧
     t.get (TIER_QUOTA_A_HBM_USED 0 5) + frameCount 32 ≤ t.get (TIER_QUOTA_A_HBM_LIMIT 0 5) ∧ tdTenant d = 5 ∧ tdBkind d = bkScratch) ∧
    (let d := tierD opAlloc 1 16 0 0
     let s := tierAt d {} []
     let t := entryRead 3 15 3 (tierRead s)
     nextOk d s ∧ unusedIndex (tierRead s) 3 = some 3 ∧ EntryApart d 3 t ∧ siloReady t = true ∧ tdBkind d ≠ bkScratch ∧
     t.get (TIER_QUOTA_B_SILO_USED 0 5) + siloQuota 16 ≤ t.get (TIER_QUOTA_B_SILO_LIMIT 0 5) ∧ fitExtent t false 16 = some 0) := by
  unfold nextOk EntryApart; decide +kernel

/-- A block of 32 units of tenant 5, of generation 2, in frame 16 of stack 6. -/
def blk3 (st kind pins : Nat) : Blk := { st := st, kind := kind, tenant := 5, gen := 2, len := 32, pins := pins, off := off6 }

/-- Its handle. -/
def handle3 : Nat := 3 + 2 * 2 ^ 20

theorem met_TierCommandsOnBlocks :
    (∀ q ∈ [(opFree, blk3 bAbsent 1 0), (opFree, blk3 bResident 3 0), (opPin, blk3 bResident 1 32766), (opUnpin, blk3 bResident 1 1),
        (opEvict, blk3 bResident 1 0)],
      let d := tierD q.1 0 0 handle3 0
      let s := tierAt d q.2 []
      let v := entryRead 3 15 3 (tierRead s)
      nextOk d s ∧ TierNames 3 d q.2 v ∧ q.2.busy = false ∧ q.2.InHbm ∧ blkBusy v q.2 = false ∧
      v.dieFenced (20 + stackOf q.2.off) = false) ∧
    (let d := tierD opFree 0 0 handle3 0
     let s := { tierAt d (blk3 bResident 1 0) [] with hbms := [(6, { flight := [(16, 1)] })] }
     let v := entryRead 3 15 3 (tierRead s)
     nextOk d s ∧ TierNames 3 d (blk3 bResident 1 0) v ∧ v.dieFenced 26 = false ∧ blkBusy v (blk3 bResident 1 0) = true) ∧
    (∀ h ∈ [2, 3 + 16, 3 + 2 ^ 20], let d := tierD opPin 0 0 h 0
      let s := tierAt d (blk3 bResident 1 0) []
      let v := entryRead 3 15 (h % 2 ^ 20) (tierRead s)
      nextOk d s ∧ ((h % 2 ^ 20) % 4 ≠ 3 ∨ (tierRead s).get (TIER_BT_SIZE_ENTRIES 3) ≤ h % 2 ^ 20 ∨
        (btDead v (h % 2 ^ 20) = false ∧ (blkAt v (h % 2 ^ 20)).gen ≠ h / 2 ^ 20))) := by
  unfold nextOk TierNames EntryApart Blk.InHbm; decide +kernel

theorem met_TierFetchStarts :
    ∀ loc ∈ [([] : List (Nat × Nat)), [(4, 1)]], let d := tierD opFetch 0 0 handle3 off6
     let s0 := tierAt d (blk3 bAbsent 1 0) [(HBM_FRAME_A_STATE 6 16, fVacant)]
     let s := { s0 with silo := { loc := loc } }
     let t := entryRead 3 15 3 (tierRead s)
     nextOk d s ∧ TierNames 3 d (blk3 bAbsent 1 0) t ∧ (blk3 bAbsent 1 0).InHbm ∧ namedUnits d 32 = some (0, 32) ∧
     framesFree t 3 off6 32 = true ∧ t.dieFenced 26 = false ∧ overHbm t (blk3 bAbsent 1 0) = false ∧ siloReady t = true ∧
     (List.range 32).filter (fun x => mapped t (4 * (0 + x))) = loc.map (fun x => x.2) := by
  unfold nextOk TierNames EntryApart Blk.InHbm; decide +kernel

theorem met_TierWritebackStarts :
    ∀ q ∈ [(0, []), (2 ^ 31, [31])], let d := tierD opWriteback 0 0 handle3 0
     let s := tierAt d (blk3 bResident 1 0) [(HBM_FRAME_A_DIRTY 6 16, q.1)]
     let t := entryRead 3 15 3 (tierRead s)
     nextOk d s ∧ TierNames 3 d (blk3 bResident 1 0) t ∧ namedUnits d 32 = some (0, 32) ∧ siloReady t = true ∧ t.dieFenced 26 = false ∧
     dirtyUnits t (blk3 bResident 1 0) 0 32 = q.2 := by
  unfold nextOk TierNames EntryApart; decide +kernel

theorem met_TierEvictDrains :
    ∀ op ∈ [opEvict, opFree], ∀ q ∈ [(0, []), (2 ^ 31, [31])], let d := tierD op 0 0 handle3 0
     let c : TierCmd := { k := 3, ring := 15, words := d, index := 3, drain := true }
     let s := { tierAt d (blk3 bEvicting 1 0) [(HBM_FRAME_A_DIRTY 6 16, q.1)] with tiers := [c] }
     s.dataUp = true ∧ tierCmd s 3 15 = some c ∧ c.flushTo = none ∧ tdOp c.words = op ∧ blkAt s 3 = blk3 bEvicting 1 0 ∧ (blk3 bEvicting 1 0).InHbm ∧
     EntryApart d 3 s ∧ blkBusy s (blk3 bEvicting 1 0) = false ∧ siloReady s = true ∧
     dirtyUnits s (blk3 bEvicting 1 0) 0 32 = q.2 := by
  unfold EntryApart Blk.InHbm; decide +kernel

/-- A command in progress on entry 3, which is `b`. -/
def tierBusy (c : TierCmd) (b : Blk) (fs : List (Fld × Nat)) (f : SiloState) : State :=
  { tierAt (w16 [8]) b fs with tiers := [c], silo := f }

theorem met_TierUnitsMove :
    (∀ pg ∈ [0, 3], ∀ rest ∈ [[], [31]],
      let c : TierCmd := { k := 3, ring := 15, words := tierD opFetch 0 0 handle3 off6, index := 3, slot := some 0, page := pg, todo := 1 :: rest }
      let b := { blk3 bFetching 1 0 with busy := true }
      let s := tierBusy c b [] { ppb := 16, nblk := 4, loc := [(4, 1), (7, 2)] }
      s.dataUp = true ∧ tierCmd s 3 15 = some c ∧ siloReady s = true ∧ blkAt s 3 = b ∧ b.InHbm ∧ EntryApart c.words 3 s ∧
      s.dieFenced (20 + stackOf b.off) = false ∧ btAddr s 3 + 64 ≤ b.off ∧ (takeBudget 5 s).isSome = true ∧ 1 < b.len ∧ pageTurn s c = true ∧
      unitsBad b [1] s = false ∧ poisonIn b.off (32 * unitBytes) s = false ∧ (fetchUnits c.words b).getD (0, 0) = (0, 32) ∧
      unitsBad b [1] (s.setPoison (b.off + unitBytes) true) = true ∧
      (readPage (4 * (b.lu + 1) + pg) false { good := [0], stripe := false, corrected := 0 } s).1 = true ∧
      (readPage (4 * (b.lu + 1) + pg) false { good := [], stripe := false, corrected := 0 } s).1 = false) ∧
    (∀ pg ∈ [0, 3],
      let c : TierCmd :=
        { k := 3, ring := 15, words := tierD opWriteback 0 0 handle3 0, index := 3, slot := some 0, page := pg, todo := [1],
          buf := if pg = 0 then [] else [(1, [])] }
      let s := tierBusy c { blk3 bResident 1 0 with busy := true } [] { ppb := 16, nblk := 4 }
      tierCmd s 3 15 = some c ∧ siloFull s = false ∧ pageTurn s c = true ∧
      (takePage c (blkAt s 3) 1 s).any (fun x => x.isSome) = true) ∧
    (let c : TierCmd := { k := 3, ring := 15, words := tierD opWriteback 0 0 handle3 0, index := 3, slot := some 0, buf := [(1, [])],
                          progs := [(4, 0), (5, 1), (6, 2), (7, 3)] }
     let s := tierBusy c { blk3 bResident 1 0 with busy := true } [] { ppb := 16, nblk := 4 }
     c.buf = (1, []) :: [] ∧ unitClosed c (blkAt s 3) 1 s = true) := by
  unfold EntryApart Blk.InHbm; decide +kernel

/-- A FETCH of a WEIGHT block that reads the last page of unit 1; the tag of the shard that ends there stands in the tag table. -/
def shardCmd (rest : List Nat) : TierCmd :=
  { k := 3, ring := 15, words := tierD opFetch 0 0 handle3 off6, index := 3, slot := some 0, page := 3, todo := 1 :: rest }

def shardBlk : Blk := { blk3 bFetching 0 0 with busy := true }

def shardAt (rest : List Nat) : State :=
  { tierBusy (shardCmd rest) shardBlk [] { ppb := 16, nblk := 4, loc := [(4, 1), (7, 2)] } with
    model := { key := some 7, blocks := [{ b := 0, index := 3, tag := 0x20000, len := 32 }] } }

def shardTag (rest : List Nat) : Nat :=
  (Config.gcmTag 7 (shardNonce (shardAt rest).model 0 0) (shardAad (shardAt rest).model 0 0 (unitData (shardAt rest) 1).length)
    (unitData (shardAt rest) 1)).toNat

theorem met_TierShardsLand : ∀ rest ∈ [[], [31]],
    let s := (shardAt rest).writeLE 0x200000 16 (shardTag rest)
    tierCmd s 3 15 = some (shardCmd rest) ∧ siloReady s = true ∧ blkAt s 3 = shardBlk ∧ shardBlk.InHbm ∧
    EntryApart (shardCmd rest).words 3 s ∧ s.dieFenced 26 = false ∧ btAddr s 3 + 64 ≤ shardBlk.off ∧ pageTurn s (shardCmd rest) = true ∧
    (readPage 7 false { good := [0], stripe := false, corrected := 0 } s).1 = true ∧ shardBlk.kind = bkWeight ∧
    (rest = [] ∨ rest.headD 0 / 16 ≠ 1 / 16) ∧
    s.model.blocks.find? (fun m => m.index == 3) = some { b := 0, index := 3, tag := 0x20000, len := 32 } ∧ tagAddr s 0x20000 = 0x200000 ∧
    Sound 0x200000 16 s ∧ s.anyPoison 0x200000 16 = false ∧ s.dieFenced 20 = false ∧
    (∃ plain, openShard s.model 0 0 (unitData s 1) (s.readLE 0x200000 16) = some plain) ∧ unitsBad shardBlk [1] s = false ∧
    poisonIn shardBlk.off (32 * unitBytes) s = false := by
  intro rest hr s
  have hb : blkAt s 3 = blkAt (shardAt rest) 3 := by
    have ha : btAddr s 3 = 0x1000C0 := by
      rcases List.mem_cons.1 hr with rfl | hr <;> [skip; rcases List.mem_singleton.1 hr with rfl] <;> decide +kernel
    have ha0 : btAddr (shardAt rest) 3 = 0x1000C0 := by
      rcases List.mem_cons.1 hr with rfl | hr <;> [skip; rcases List.mem_singleton.1 hr with rfl] <;> decide +kernel
    unfold blkAt
    rw [ha, ha0]
    simp only [s]
    rw [State.readLE_writeLE_apart, State.readLE_writeLE_apart, State.readLE_writeLE_apart, State.readLE_writeLE_apart] <;> omega
  have hp : ∃ plain, openShard s.model 0 0 (unitData s 1) (s.readLE 0x200000 16) = some plain := by
    have h : s.readLE 0x200000 16 = shardTag rest := by
      simp only [s]
      rw [State.readLE_writeLE, Nat.mod_eq_of_lt]
      exact BitVec.isLt _
    have hm : s.model = (shardAt rest).model := rfl
    have hl : s.silo = (shardAt rest).silo := rfl
    have hd : unitData s 1 = unitData (shardAt rest) 1 := by simp only [unitData, pageData, hl]
    rw [h, hm, hd]
    exact ⟨Config.gcmPlain 7 (shardNonce (shardAt rest).model 0 0) (unitData (shardAt rest) 1), if_pos rfl⟩
  have hf : Sound 0x200000 16 s := by
    have hh : s.hbms = [] := by
      rcases List.mem_cons.1 hr with rfl | hr <;> [skip; rcases List.mem_singleton.1 hr with rfl] <;> decide +kernel
    intro m
    simp [flipsIn, State.hbm, hh, Tab.get]
  have hs : blkAt (shardAt rest) 3 = shardBlk := by
    rcases List.mem_cons.1 hr with rfl | hr <;> [skip; rcases List.mem_singleton.1 hr with rfl] <;> decide +kernel
  refine ⟨?_, ?_, hb.trans hs, ?_, ?_, ?_, ?_, ?_, ?_, ?_, ?_, ?_, ?_, hf, ?_, ?_, hp, ?_, ?_⟩ <;>
    (try unfold EntryApart) <;> (try unfold Blk.InHbm) <;>
    (rcases List.mem_cons.1 hr with rfl | hr <;> [skip; rcases List.mem_singleton.1 hr with rfl]) <;> decide +kernel

theorem met_TierSlotsBudgetsAndFlush :
    (let c : TierCmd := { k := 3, ring := 15, words := tierD opFetch 0 0 handle3 off6, index := 3, needSilo := true, todo := [1] }
     let s := { posted (tierRing 3 15) tierRegs [] with tiers := [c] }
     s.dataUp = true ∧ s.flag (SILO_CTRL_ENABLE 0) = true ∧ siloReady s = true ∧
     (slotOrder s).find? (fun c => (slotFor s c).isSome) = some c ∧ (slotFor s c).isSome = true ∧ tierCmd s 3 15 = some c ∧
     ringHas (tierRing 3 15) s = true ∧ tierCmd { s with tiers := [] } 3 15 = none) ∧
    (let c : TierCmd := { k := 3, ring := 15, words := tierD opFetch 0 0 handle3 off6, index := 3, slot := some 0 }
     tierCmd { rdy [] with tiers := [c] } 3 15 = some c ∧ c.be = false ∧ tdOp c.words = opFetch ∧ c.slot.isSome = true) ∧
    ({ posted (tierRing 3 15) tierRegs [] with tiers := [{ k := 3, ring := 15, words := [] }] } : State).JobsOk := by
  refine ⟨by decide +kernel, by decide +kernel, by constructor <;> decide +kernel⟩

/-! Hypotheses met: housekeeping, model load, tenants, time. -/

theorem met_HbmAndFlashHousekeeping :
    (rdy []).dataUp = true ∧ (raw (dieErr 27) (rdy [])).dieFenced 27 = true ∧ (∀ j : Fin 8, (rdy []).dieFenced (20 + j.val) = false) ∧
    hbmRowDue 7 33554431 { rdy [] with hbms := [(7, { bad := [33554431] })] } = true ∧
    (let s := { rdy [] with silo := { retired := List.replicate 64 (31, 0) } }
     chState s 31 ≠ chFailed ∧ max 1 (s.get (SILO_CH_FAIL_MIN_BLOCKS (sdOf 31))) ≤
        (s.silo.retired.filter (fun r => r.1 == 31 && decide (s.alm ≤ r.2 + 3600000000000))).length) ∧
    (let s := { rdy [] with silo := { rewrite := [(0, 31)] } }
     siloFull s = false ∧ (0, 31) ∈ s.silo.rewrite) ∧
    (let b := List.replicate 31 (2 ^ 24) ++ [7]
     let s := { rdy [] with silo := { nblk := 16, bands := [(0, b)], blk := [(31 * 2 ^ 24 + 7, { used := true }), (31 * 2 ^ 24 + 8, { erases := 100000 })] } }
     siloFull s = false ∧ (getBlk s 31 7).used = true ∧
     (getBlk s 31 7).erases + max 10 (s.get (SILO_WEAR_DELTA (sdOf 31))) < eraseMax s 31 ∧
     (Tab.get (fun _ => []) s.silo.bands 0).getD 31 (2 ^ 24) = 7 ∧ pagesIn s 0 31 = [] ∧ s.silo.opn = none ∧ s.silo.next = none) := by
  decide +kernel

/-- A model image's header with one block of one unit and no layer, its directory at 512, and that directory. -/
def mHdr : List Byte :=
  [0x4B, 0x58, 0x4D, 0x4F, 0x44, 0x45, 0x4C, 0x31] ++ toBytes 4 1 ++ toBytes 4 512 ++ toBytes 8 77 ++ toBytes 4 0 ++ toBytes 4 1 ++
    toBytes 4 0 ++ toBytes 4 512 ++ toBytes 4 544 ++ toBytes 8 544 ++ toBytes 8 65536 ++ toBytes 8 131072 ++ List.replicate 444 0
def mDir : List Byte := toBytes 8 (2 ^ 34) ++ List.replicate 24 0

/-- A part whose model is in a state, with a link to a host whose first 2^40 bytes it may read. -/
def modAt (st : Nat) : State :=
  { rdy [(TIER_MODEL_STATUS_STATE 0, st), (PCI_LINK_SPEED, 6), (PCI_DMA_WIN_A_EN 0, 1), (PCI_DMA_WIN_B_LIMIT 0, 2 ^ 20)] with
    sec := { dmk := some 5 } }

theorem met_ModelLoadsAndUnloads :
    (modAt 0).dataUp = true ∧ modelSt (modAt 1) ≠ mEmpty ∧ modelSt (modAt 0) = mEmpty ∧ (modAt 0).sec.dmk.isSome = true ∧
    dmaRefusal (modAt 0) ((modAt 0).get (TIER_MODEL_SRC_ADDR 0) % 2 ^ 64) 512 = 0 ∧
    (∀ g ∈ [List.replicate 512 0, mHdr ++ mDir ++ List.replicate 16 0],
      modelSt (modAt 1) = mVerify ∧ (modAt 1).model.restage = false ∧ tablesWant g ≤ g.length) ∧
    modelTablesOk (List.replicate 512 0) [] [] = false ∧ tablesWant (mHdr ++ mDir ++ List.replicate 16 0) = 560 ∧
    modelTablesOk mHdr [] mDir = true ∧ (modAt 1).cfg.msigners.contains (le mHdr 208 48) = false := by
  decide +kernel

theorem met_ModelPlacesAndUnloads :
    (let s := modAt 4
     modelSt s = mPlace ∧ s.model.abort = false ∧ hinted s = [] ∧ (placeBlks (hinted s) [] s).1 = 0) ∧
    (let s := { modAt 4 with model := { hdr := mHdr, dir := toBytes 8 (2 ^ 34 + 2 ^ 8) ++ List.replicate 24 0 },
                             regs := (rdy [(TIER_MODEL_STATUS_STATE 0, 4), (SILO_STATUS_READY 0, 1)]).regs }
     modelSt s = mPlace ∧ s.model.abort = false ∧ siloReady s = true ∧ (placeBlks (hinted s) [] s).1 ≠ 0) ∧
    (let s := { modAt 5 with model := { hdr := mHdr, blocks := [{ b := 0, index := 0, tag := 0, len := 1 }] } }
     unloadOk s = true) ∧
    unloadOk (modAt 3) = false ∧ modelSt (modAt 3) ≠ mEmpty ∧ modelSt (modAt 3) ≠ mResident ∧ modelSt (modAt 5) = mResident := by
  decide +kernel

/-- Tenant 8,191's entry at HBM offset 0x100000 - 64, in a state of R358, with rings of sixteen entries. -/
def tenAt (st : Nat) (r : List ServReq) : State :=
  let s := words 0x1FFFC0 [1 + st * 2 + 16 * 2 ^ 7 + 16 * 2 ^ 20, 0, 0x400000, 0x500000, 16 + 16 * 2 ^ 32, 15 * 2 ^ 32, 0, 0]
    (opened [(PCI_STATUS_READY, 1)] [])
  { s with cfg := { tenTable := 0x180000 }, serv := { reqs := r } }

theorem met_TenantsAreServed :
    (let s := tenAt 1 []
     s.flag PCI_STATUS_READY = true ∧ s.pci.perst = false ∧ (plotOfTenant s 8191).isSome = true ∧
     plotOfTenant { s with plots := [] } 8191 = none ∧ s.dataUp = true ∧ (s.plots.getD 0 {}).en = true) ∧
    (let s := tenAt 2 []
     plotOfTenant s 8191 = some 0 ∧ s.serv.reqs = [] ∧ (tenEnt 0 8191 s).state = tenDraining ∧
     (tenEnt 0 8191 s).qhead = s.get (PCI_DB_Q_QTAIL 8191) ∧ accessCode s 0 (s.plots.getD 0 {}).pkey pW (tenAddr s 8191) 8 = 0) ∧
    (let r : ServReq := { plot := 0, tenant := 8191, req := 3, promptLen := 2, newLen := 2, taken := 2, made := 1, out := [[1, 2, 3, 4]] }
     let s := tenAt 1 [r]
     let e := tenEnt 0 8191 s
     let a := e.obase + 32 * e.otail
     e.state = tenOpen ∧ (e.otail + 1) % e.osize ≠ (s.set (PCI_DB_O_OHEAD 8191) 5).get (PCI_DB_O_OHEAD 8191) ∧
     (e.otail + 1) % e.osize = s.get (PCI_DB_O_OHEAD 8191) ∧ accessCode s 0 (s.plots.getD 0 {}).pkey pW a 32 = 0 ∧
     accessCode s 0 (s.plots.getD 0 {}).pkey pW (tenAddr s 8191 + 40) 8 = 0 ∧
     (s.plots.getD 0 {}).tenFirst + (s.plots.getD 0 {}).tenCount ≤ 8192 ∧ s.cfg.tenTable + 64 * 8192 ≤ a) := by
  decide +kernel

/-- No tenant of a plot has work where the tenant table has never been written. -/
theorem met_ServingIdle : let s : State := { rdy [] with plots := [{ en := true }] }
    s.dataUp = true ∧ (s.plots.getD 0 {}).en = true ∧ ∀ tn, hasWork 0 tn s = false := by
  refine ⟨by decide +kernel, by decide +kernel, fun tn => ?_⟩
  generalize hs : ({ rdy [] with plots := [{ en := true }] } : State) = s
  have hm : s.mem = [] ∧ s.fills = [] := by subst hs; decide +kernel
  have hb : ∀ a n, s.bytes a n = List.replicate n 0 := by
    intro a n
    simp [State.bytes, State.byte, hm.1, hm.2, Tab.get, memDef]
  have hr : ∀ w a, (unitRead w a 64 s).2.1 = [] ∨ (unitRead w a 64 s).2.1 = List.replicate 64 0 := by
    intro w a
    unfold unitRead
    rw [hb]
    by_cases h : accessCode s w.k w.key pR a 64 = 0 <;> by_cases h2 : (hbmFind a 64 s).anyPoison a 64 = true <;> simp [h, h2]
  have hz : (wordsOf (unitRead (servWho 0 s) (tenAddr s tn) 64 s).2.1 8).getD 0 0 = 0 := by
    rcases hr (servWho 0 s) (tenAddr s tn) with h | h <;> rw [h] <;> decide
  have h0 : (bitsOf 0 0 1 == 1) = false := by decide
  unfold hasWork tenEnt
  dsimp only
  simp only [hz, h0, Bool.and_false, Bool.false_and, Bool.false_eq_true, if_false]
  rfl

/-! Hypotheses met: pre-emption, time, the host port. -/

theorem met_Preempts :
    (let s := { rdy [(CORE_STATUS_STATE 143, stRunning)] with plots := [{ plot0 with cls := 1 }] }
     s.dataUp = true ∧ Tab.get (fun _ => 0) s.serv.pre 143 = 0 ∧ s.get (CORE_STATUS_STATE 143) = stRunning ∧ s.plotOf 143 = some 0 ∧
     (s.plots.getD 0 {}).cls = 1 ∧ (s.core 143).killing = false) ∧
    (∀ q ∈ [(1, stKilled), (2, stDone)],
     let s := { rdy [(CORE_STATUS_STATE 143, q.2)] with plots := [plot0], serv := { pre := [(143, q.1)] } }
     s.dataUp = true ∧ Tab.get (fun _ => 0) s.serv.pre 143 = q.1 ∧ s.get (CORE_STATUS_STATE 143) = q.2 ∧
     16 ≤ (CORE_RING_SIZE_ENTRIES 143).of 65536 ∧ (CORE_RING_SIZE_ENTRIES 143).of 65536 ≤ 65536 ∧
     csInside (64 * (CORE_RING_BASE_BASE 143).of 0) (64 * (CORE_RING_SIZE_ENTRIES 143).of 65536) = true ∧
     runnable 143 s = true ∧ runHeld 143 s = false) ∧
    (rdy []).get (CORE_STATUS_STATE 143) ≠ stRunning := by decide +kernel

theorem met_AlmanacFollowsTheEdges :
    (rdy []).get ALM_STATE_STATE = almFree ∧
    (let s := { rdy [(ALM_STATE_STATE, almAcquire)] with tim := { first := true } }
     s.get ALM_STATE_STATE = almAcquire ∧ s.tim.first = true) ∧
    (∀ q ∈ [(almLocked, 1000032, 32), (almHoldover, 1000033, 33), (almLocked, 1001000, 1000), (almLocked, 1001001, 1001)],
      let s := rdy [(ALM_STATE_STATE, q.1), (ALM_NEXT_COUNT, q.2.1), (ALM_COUNT_COUNT, 1000000)]
      (s.get ALM_STATE_STATE = almLocked ∨ s.get ALM_STATE_STATE = almHoldover) ∧ (almError s).natAbs = (nsErr q.2.2).natAbs ∧
      s.tim.missed ≠ some (s.get ALM_NEXT_COUNT)) ∧
    (let s := { rdy [(ALM_STATE_STATE, almLocked), (ALM_NEXT_COUNT, 1002000), (ALM_COUNT_COUNT, 1000000)] with tim := { missed := some 1002000 } }
     (nsErr 1000).natAbs < (almError s).natAbs ∧ s.tim.missed = some (s.get ALM_NEXT_COUNT) ∧
     ¬ s.alm + almPeriod s / 2 < s.get ALM_NEXT_COUNT) ∧
    (let s := rdy [(ALM_STATE_STATE, almHoldover), (ALM_NEXT_COUNT, 1000000), (ALM_COUNT_COUNT, 1001001)]
     s.get ALM_NEXT_COUNT + 1000 < s.alm ∧ s.tim.missed ≠ some (s.get ALM_NEXT_COUNT) ∧
     (s.get ALM_STATE_MISSED + 1 < max 1 (s.get ALM_SYNC_HOLD_MAX) ∨ max 1 (s.get ALM_SYNC_HOLD_MAX) ≤ s.get ALM_STATE_MISSED + 1)) ∧
    (rdy [(ALM_SYNC_EN, 1)]).flag ALM_SYNC_EN = true ∧ (rdy [(ALM_SYNC_EN, 0)]).flag ALM_SYNC_EN = false ∧
    (∀ q ∈ [0, 254], let s := rdy [(ALM_STATE_STATE, almLocked), (ALM_STATE_MISSED, q), (ALM_SYNC_HOLD_MAX, 255)]
      (min 255 (s.get ALM_STATE_MISSED + 1) < max 1 (s.get ALM_SYNC_HOLD_MAX) ↔ q = 0)) := by decide +kernel

theorem met_AlmNextAndSyncWritesActByState :
    (∀ st ∈ [almFree, almAcquire, almLocked, almHoldover], (rdy [(ALM_STATE_STATE, st)]).get ALM_STATE_STATE = st) ∧
    (rdy [(ALM_STATE_STATE, almFree), (ALM_SYNC_EN, 1)]).flag ALM_SYNC_EN = true ∧
    (rdy [(ALM_STATE_STATE, almFree)]).flag ALM_SYNC_EN = false := by decide +kernel

theorem met_ModeChangesAndThrottleEvents :
    (let s := rdy [(ALM_MODE_ARG_COUNT, 2 ^ 40), (ALM_MODE_CUR, 255)]
     s.get ALM_MODE_PSTATE = 0 ∧ (0 : BitVec 8).toNat = (s.get ALM_MODE_CUR + 1) % 256 ∧
     s.alm + modeUs (s.get ALM_MODE_TIME_GUARD_US) * 1000 + 1000 ≤ s.get ALM_MODE_ARG_COUNT) ∧
    (∀ q ∈ [(1, 999999), (2, 999999), (1, 1000000)],
      let s := { rdy [(ALM_MODE_PSTATE, q.1), (ALM_MODE_COUNT_COUNT, 2000000), (ALM_COUNT_COUNT, q.2)] with cfg := { guardUs := 1000 } }
      s.get ALM_MODE_PSTATE = q.1 ∧ guardCount s = 1000000 ∧ s.alm = q.2 ∧ s.cfg.shown ≠ some false) ∧
    (let s := rdy [(ALM_MODE_PSTATE, 2), (ALM_MODE_COUNT_COUNT, 2000000), (ALM_COUNT_COUNT, 2000000)]
     s.get ALM_MODE_PSTATE = 2 ∧ s.get ALM_MODE_COUNT_COUNT ≤ s.alm) ∧
    (let s := { rdy [(ALM_MODE_PSTATE, 3), (ALM_MODE_APPLIED_COUNT, 1000), (ALM_COUNT_COUNT, 3000)] with cfg := { winUs := 2 } }
     s.get ALM_MODE_PSTATE = 3 ∧ s.get ALM_MODE_APPLIED_COUNT + s.cfg.winUs * 1000 ≤ s.alm) ∧
    (rdy []).get ALM_THR_SEQ_SEQ + 1 < 2 ^ 64 ∧ ([0, 15].filter gateable) ≠ [] ∧
    (let e : ThrEvent := { seq := 300, cause := 1, cuts := [{ src := 0, die := 3, duty := 0 }], last := some 7 }
     e.cuts.all (fun c => c.duty == 0) = true ∧ ∀ f ∈ [e], f.seq % 256 = e.seq % 256 → f = e) := by decide +kernel

/-- A part whose host port is ready, aperture 0 on the management block, with BAR4 on the first GiB. -/
def hostS (fs : List (Fld × Nat)) : State := opened ([(PCI_STATUS_READY, 1), (PCI_APER_EN 0, 1), (PCI_HOST_KEY_KEY, 0)] ++ fs) []

theorem met_SoftwareAccessesRegisters :
    (let s := hostS []
     regCode s 1 ≠ 0 ∧ regCode s PWR_CAP_SUST.addr = 0 ∧ (actionWrite PWR_CAP_SUST.addr 1 s).isNone = true ∧ portServed s = true ∧
     inMsix 8 8 = false ∧ (apertureReg s 8).any (fun a => regCode s a == 0) = true ∧ inMsix 0x3C00000 4 = true ∧ inMsix 0x3C07FFC 4 = true ∧
     2 ≤ s.get PWR_STATUS_PHASE) ∧
    (List.range 64).any (fun i => (apertureReg (hostS []) (8 * i)).any (fun a => regCode (hostS []) a != 0)) = true ∧
    bitOf (2 ^ 15) 15 = true ∧ inCore (csOffset 143 (csSize - 8)) 8 = some 143 ∧ csOffset 143 (csSize - 8) % 8 = 0 ∧
    (rdy []).dieFenced (dieOfCore 143) = false ∧ (raw (dieErr 15) (rdy [])).dieFenced (dieOfCore 143) = true ∧
    inRegs PWR_CAP_SUST.addr = true := by decide +kernel

theorem met_Bar4ReachesHbmAtItsBase :
    (let s := hostS []
     portServed s = true ∧ 4096 ≤ bar4Bytes s ∧ bar4Code s pR 0 4096 = 0 ∧ (hbmFind (bar4Off s 0) 4096 s).anyPoison (bar4Off s 0) 4096 = false ∧
     bar4Code s pW 0 4 = 0) ∧
    (let s := (hostS []).setPoison (bar4Off (hostS []) 0) true
     portServed s = true ∧ 8 ≤ bar4Bytes s ∧ bar4Code s pR 0 8 = 0 ∧ (hbmFind (bar4Off s 0) 8 s).anyPoison (bar4Off s 0) 8 = true) ∧
    portServed (rdy []) = true ∧ 1 ≤ bar4Bytes (rdy []) ∧ bar4Code (rdy []) pR 0 1 ≠ 0 ∧ bar4Code (rdy []) pW 0 1 ≠ 0 ∧
    PCI_BAR4_BASE.of 0 + 2 ^ (hostS []).get PCI_BAR4_SIZE_LOG2 ≤ 512 ∧
    PCI_BAR4_BASE.of 511 + 2 ^ (rdy [(PCI_BAR4_SIZE_LOG2, 1)]).get PCI_BAR4_SIZE_LOG2 = 513 := by decide +kernel

theorem met_BaseAndMsixWrites :
    (let s := hostS []
     let n := 2 ^ s.get PCI_BAR4_SIZE_LOG2
     PCI_BAR4_BASE.of 0 % n = 0 ∧ PCI_BAR4_BASE.of 0 + n ≤ 512) ∧
    (let s := rdy [(PCI_BAR4_SIZE_LOG2, 1)]
     let n := 2 ^ s.get PCI_BAR4_SIZE_LOG2
     PCI_BAR4_BASE.of 1 % n ≠ 0) ∧
    msixMasked (hostS []) 2047 = true ∧
    (let s := { hostS [] with pci := { msixEn := true, msix := [(4 * 2047 + 3, 0)] } }
     msixMasked s 2047 = false ∧ (2047 ∉ s.pci.pba)) := by decide +kernel

theorem met_HostReadsAndResets :
    (rdy [(PCI_IMG_STAT_BUSY, 1)]).flag PCI_IMG_STAT_BUSY = true ∧
    (let s := rdy [(PCI_IMG_BYTES_BYTES, 4096), (PCI_LINK_SPEED, 6), (PCI_DMA_WIN_A_EN 0, 1), (PCI_DMA_WIN_B_LIMIT 0, 2 ^ 20)]
     s.flag PCI_IMG_STAT_BUSY = false ∧ s.partFenced = false ∧ dmaRefusal s (s.get PCI_IMG_SRC_ADDR) (s.get PCI_IMG_BYTES_BYTES) = 0) ∧
    dmaRefusal (rdy []) ((rdy []).get PCI_IMG_SRC_ADDR) ((rdy []).get PCI_IMG_BYTES_BYTES) ≠ 0 ∧
    (∀ n ∈ [3, 4, 5], let r : HostRead := { addr := 0, want := 4, got := List.replicate n 1 }
      let s := { rdy [] with pci := { imgRead := some r } }
      s.pci.imgRead = some r ∧ (r.want ≤ r.got.length ↔ 4 ≤ n) ∧ s.cfg.staged = none ∧ s.get ALM_MODE_PSTATE ≠ 2) ∧
    (∀ q ∈ [(0, List.replicate 8 1), (1, List.replicate 512 0)], let r : HostRead := { addr := 0, want := 512, got := [] }
      let g := (r.got ++ q.2).take r.want
      let s := { rdy [(TIER_MODEL_STATUS_STATE 0, q.1)] with pci := { modRead := some r } }
      let want := if modelSt s = mVerify ∧ r.want ≤ g.length then max r.want (tablesWant g) else r.want
      ¬ r.want < want) ∧
    portServed (rdy []) = true ∧ 2 ≤ (rdy []).get PWR_STATUS_PHASE ∧ pcieUp (rdy [(PCI_LINK_SPEED, 1)]) = true ∧ pcieUp (rdy []) = false := by
  decide +kernel

/-! Hypotheses met: reliability, security, power, resets. -/


theorem met_DieFaultsReleasesAndSubstitution :
    (∀ d : Fin 40, dieRuns (rdy []) d = true) ∧ dieRuns State.reset 37 = false ∧ (rdy []).dataUp = true ∧
    (raw (dieErr 3) (rdy [])).dieFenced 3 = true ∧ (rdy []).dieFenced 31 = false ∧
    (rdy [(MGT_FENCE_STAT_BUSY, 1)]).flag MGT_FENCE_STAT_BUSY = true ∧ (rdy []).flag MGT_FENCE_STAT_BUSY = false ∧
    releaseOk (rdy [(engFencedFld 143 5, 1)]) 1 15 69 = true ∧ releaseOk (rdy [(CORE_STATUS_STATE 143, stFenced)]) 2 15 71 = true ∧
    releaseOk (raw (dieErr 39) (rdy [])) 3 39 1023 = true ∧ releaseOk (rdy []) 3 40 0 = false ∧
    (rdy []).rel.release = none ∧ { (rdy []).rel with release := some (1, 15, 69) }.release = some (1, 15, 69) ∧
    (rdy []).partFenced = false ∧ (raw partErr (rdy [])).partFenced = true := by decide +kernel

theorem met_Substitution :
    (let s := rdy [(CORE_ID_FALLOW 8, 1)]
     ¬ (s.flag MGT_SUBST_STAT_PENDING = true ∨ s.flag MGT_SUBST_STAT_BUSY = true) ∧ fallowOf s 0 = some 8 ∧ fallowOf s 15 = none ∧
     ¬ (8 = 0 ∨ s.get (CORE_STATUS_STATE 8) = stFenced ∨ s.dieFenced (0 / 9) = true ∨ s.partFenced = true)) ∧
    (let s := { rdy [(MGT_SUBST_STAT_PENDING, 1)] with subst := (0, 8) }
     s.flag MGT_SUBST_STAT_PENDING = true ∧ busyCore s s.subst.1 = false ∧ busyCore s s.subst.2 = false) ∧
    (∀ f ∈ [MGT_SUBST_STAT_PENDING, MGT_SUBST_STAT_BUSY], let s := { rdy [(CORE_STATUS_STATE 8, stArmed), (f, 1)] with subst := (0, 8) }
     s.flag f = true ∧ busyCore s s.subst.2 = true) ∧
    (let s := { rdy [(MGT_SUBST_STAT_BUSY, 1)] with subst := (135, 143) }
     s.flag MGT_SUBST_STAT_BUSY = true ∧ s.subst.1 < 144 ∧ s.subst.2 < 144 ∧ s.subst.1 ≠ s.subst.2 ∧
     busyCore s 135 = false ∧ busyCore s 143 = false) := by decide +kernel

theorem met_AlarmsDebugScrubAndBlackBox :
    (rdy []).pwr.unpowered = false ∧ (rdy [(SEC_ALARM_STAT_HALTED, 1)]).flag SEC_ALARM_STAT_HALTED = true ∧
    (rdy []).flag SEC_ALARM_STAT_HALTED = false ∧
    (∀ l ∈ [0, 1, 2, 3], sensorLevel { State.reset with regs := [(SEC_ALARM_LVL_LEVEL.addr, BitVec.ofNat 64 (l * 64))] } 3 = l) ∧
    (let s := { State.reset with regs := [(SEC_ID_DEBUG_ALLOW.addr, BitVec.ofNat 64 (2 ^ 64 - 1)),
         (SEC_STATE_JTAG.addr, BitVec.ofNat 64 (2 * 2 ^ SEC_STATE_JTAG.lo + ksEmpty * 2 ^ SEC_STATE_KEYSTATE.lo))] }
     s.get SEC_STATE_JTAG = 2 ∧ s.flag SEC_ID_DEBUG_ALLOW = true ∧ s.get SEC_STATE_KEYSTATE = ksEmpty ∧ s.pwr.unpowered = false) ∧
    (let s := rdy [(SEC_ALARM_STAT_HALTED, 1)]
     s.flag SEC_ALARM_STAT_HALTED = true ∧ s.flag SEC_ALARM_STAT_SCRUB_DONE = false) ∧
    (rdy [(MGT_BB_COPIED, 1)]).flag MGT_BB_COPIED = true ∧
    (let s := rdy [(MGT_BB_FROZEN, 1)]
     s.pwr.resetWait = false ∧ s.flag MGT_BB_FROZEN = true ∧ s.flag MGT_BB_COPIED = false ∧ s.flag MGT_BB_COPY_FAIL = false ∧
     s.dieFenced 36 = false) := by decide +kernel

theorem met_PowerCapsTemperaturesAndRails :
    ({ rdy [] with pwr := { unpowered := true } }).pwr.unpowered = true ∧
    (let s := rdy [(PWR_CAP_SUST, 100), (PWR_CAP_EXC, 150)]
     let u := powerSample 200 200 (List.replicate 40 50) false s
     s.pwr.unpowered = false ∧ s.get PWR_EXC_STATE = 0 ∧ s.get PWR_CAP_SUST < 200 ∧ s.pwr.past = false ∧ s.get PWR_CAP_EXC < 200 ∧
     eventOf s 0 = none ∧ s.get ALM_THR_SEQ_SEQ + 1 < 2 ^ 64 ∧
     (dutiesFor (10 * (200 - 150)) u).any (fun c => c.duty != 0) = true) ∧
    (∀ q ∈ [0, 15, 20, 27, 38], ∀ b ∈ [0, 1],
      let f := if 20 ≤ q ∧ q < 28 then (PWR_THERM_HBM_WARN_C, PWR_FUSE_HBM_TRIP_C) else (PWR_THERM_WARN_C, PWR_FUSE_TRIP_C)
      let s := rdy [(f.1, 90), (f.2, 105)]
      s.get f.1 < s.get f.2 ∧ signedOf (s.get f.2 + b) 8 ≥ (s.get f.2 : Int) ∧ gateable (thermGate q) = (q != 38)) ∧
    (let s := { rdy [] with pwr := { events := [{ seq := 1, cause := 3, cuts := [{ src := 5, die := 3, duty := 16 }] }] } }
     cutDuty (cutsOf s 5) (thermGate 3) ≠ 0) ∧
    (let s := { rdy [(PWR_STATUS_MAIN_PG, 1)] with pwr := { rails := [(11, 9)] } }
     s.flag PWR_STATUS_MAIN_PG = true ∧ railOk 11 0 false = false ∧ Tab.get (fun _ => 0) s.pwr.rails 11 + 1 = 10) := by
  decide +kernel

theorem met_RailsAndExcursions :
    (let s := put State.reset [(PWR_STATUS_PHASE, 3), (PWR_STATUS_MAIN_EN, 1)]
     s.get PWR_STATUS_PHASE = 3 ∧ s.flag PWR_STATUS_MAIN_EN = true ∧ s.get PWR_STATUS_CODE = 0) ∧
    (let s := rdy [(PWR_STATUS_MAIN_EN, 1), (PWR_STATUS_MAIN_PG, 1)]
     s.flag PWR_STATUS_MAIN_EN = true ∧ s.flag PWR_STATUS_MAIN_PG = true ∧ (rdy []).flag PWR_STATUS_MAIN_PG = false) ∧
    (∀ w ∈ [100, 101], let s := rdy [(PWR_EXC_STATE, 1), (PWR_CAP_SUST, 100), (PWR_TOTAL_SAMPLE_W, w)]
      s.get PWR_EXC_STATE = 1 ∧ (s.get PWR_TOTAL_SAMPLE_W ≤ s.get PWR_CAP_SUST ↔ w = 100)) ∧
    (rdy [(PWR_EXC_STATE, 2)]).get PWR_EXC_STATE = 2 ∧ (rdy []).get ALM_THR_SEQ_SEQ + 1 < 2 ^ 64 ∧
    (∀ e ∈ (rdy []).pwr.events, ∀ c ∈ e.cuts, gateable c.die = true) ∧ bitOf 1 0 = true ∧ bitOf 0 0 = false ∧
    (let s := { rdy [] with pwr := { trip := true } }
     s.pwr.trip = true ∧ s.pwr.resetWait = false) := by decide +kernel

theorem met_ResetsAndBringUp :
    (let s := rdy []
     s.pwr.unpowered = false ∧ copyRunning s = false ∧ s.pwr.inReset = false ∧ s.pwr.resetWait = false ∧
     ∀ n : Fin 19, vlState s n ≠ vlUp) ∧
    (let s := { rdy [(MGT_BB_FROZEN, 1)] with pwr := { trip := true, resetWait := true } }
     s.pwr.unpowered = false ∧ copyRunning s = true ∧ s.pwr.resetWait = true ∧ s.flag MGT_BB_FROZEN = true ∧ s.pwr.trip = true) ∧
    (rdy [(CLK_ALIGN_DONE, 1)]).flag CLK_ALIGN_DONE = true ∧ (rdy []).flag CLK_ALIGN_DONE = false ∧ (rdy []).pwr.pllTries = 0 ∧
    (∀ e ∈ [PhaseEnd.standby true true, .firmware, .mainTimeout, .dies [(3, 3), (0, 6)], .align 3 0, .sections, .memory [7] []],
      let s := put State.reset [(PWR_STATUS_PHASE, phaseOf e)]
      MayEnd e s ∧ ¬ MayEnd e State.reset ∨ MayEnd e State.reset) ∧
    flashImage State.reset 0 = none ∧ (loadFw 3 7 State.reset).1 ≠ 0 ∧ (loadFw 1 5 (applyBoot [] State.reset)).1 ≠ 0 := by
  unfold MayEnd; decide +kernel

theorem met_ResetCalm : (rdy []).Canon := by constructor <;> decide +kernel

/-! Hypotheses met: the management plane and the idle step. -/

/-- A well-formed request with seven outstanding. -/
def req7 : MgtReq := { rseq := 9, waiting := 7, good := true, bus := true }

theorem met_ManagementBusAndRequests :
    mgtUp (rdy []) = true ∧ mgtUp { rdy [] with pwr := { inReset := true } } = false ∧ (rdy []).mgt.bus = 0 ∧
    2 ≤ (rdy []).get PWR_STATUS_PHASE ∧ ({ rdy [] with mgt := { bus := 2 } }).mgt.bus = 2 ∧
    Taken req7 (rdy []) ∧ requestOf (.mctpControl req7 .getEid) = some req7 ∧ renrelOf (.getId req7) = some (0x01, req7) ∧
    ({ req7 with bus := false } : MgtReq).bus = false ∧ 8 ≤ ({ req7 with waiting := 8 } : MgtReq).waiting ∧
    ({ req7 with good := false } : MgtReq).good = false :=
  ⟨by decide +kernel, by decide +kernel, by decide +kernel, by decide +kernel, by decide +kernel, by constructor <;> decide +kernel,
    rfl, rfl, rfl, by decide, rfl⟩

theorem met_ManagementRequests :
    (∀ n ∈ [0, 1, 2, 3], ({ rdy [] with mgt := { spdm := n } }).mgt.spdm = n) ∧
    (∀ i ∈ [1, 40, 41, 80, 81, 92, 93, 100, 118, 120, 121], (sensorValue (rdy []) i).isSome = true) ∧
    (∀ i ∈ [0, 94, 99, 119, 122], sensorValue (rdy []) i = none) ∧
    (rdy []).get MGT_FWUP_STATE = fuIdle ∧ (rdy [(MGT_FWUP_STATE, fuLearn)]).get MGT_FWUP_STATE = fuLearn ∧
    (let s := { rdy [(MGT_FWUP_STATE, fuDownload)] with mgt := { comps := [(5, List.replicate 512 0)] } }
     s.get MGT_FWUP_STATE = fuDownload ∧ compOf s 5 ≠ none ∧ s.mgt.comps.all (fun x => compOk s x.1 x.2) = false) ∧
    (rdy [(MGT_FWUP_STATE, fuDownload)]).mgt.comps.all (fun x => compOk (rdy []) x.1 x.2) = true ∧
    (let s := { rdy [(MGT_FWUP_STATE, fuVerify)] with mgt := { comps := [(5, [7])], passed := true } }
     s.get MGT_FWUP_STATE = fuVerify ∧ s.mgt.passed = true ∧ applyOrder s = [5] ∧ (compOff s 5).isSome = true ∧ compOf s 5 = some [7]) ∧
    (let s := { rdy [(MGT_FWUP_STATE, fuApply)] with mgt := { comps := [(5, [7])], todo := [5] } }
     s.get MGT_FWUP_STATE = fuApply ∧ s.mgt.todo = [5]) := by decide +kernel

theorem met_EventsAndTelemetry :
    (let s := { rdy [] with pwr := { warm := [39] } }
     mgtUp s = true ∧ eventDue s (.crossing 39 true) = true ∧ s.mgt.held.length < 64) ∧
    eventDue (rdy []) (.crossing 39 true) = false ∧
    64 ≤ ({ rdy [] with mgt := { held := List.replicate 64 (.crossing 39 true) } } : State).mgt.held.length ∧
    mgtUp (rdy []) = true ∧ 2 ≤ (rdy []).get PWR_STATUS_PHASE ∧ State.reset.get PWR_STATUS_PHASE < 2 := by decide +kernel

theorem met_RenrelCommandsAreAnswered :
    Taken req7 State.reset ∧ State.reset.get PWR_STATUS_PHASE < 2 ∧ 7 ≤ (rdy []).get PWR_STATUS_PHASE ∧
    slotOk (bbSlot (rdy [])) = true ∧ (rdy []).dieFenced 36 = false ∧ slotOk [] = false ∧
    imgOpenOk (rdy []) 1 = true ∧ imgOpenOk (rdy []) 0 = false ∧
    (let b : ImgBuf := { kind := 1, size := 1008, fill := 1 }
     ({ rdy [] with mgt := { buf := some b } } : State).mgt.buf = some b ∧ 0 + 1008 ≤ b.size ∧ b.size < 1 + 1008) ∧
    copyRunning (rdy []) = false ∧ copyRunning { rdy [] with pwr := { trip := true } } = true ∧
    (rdy []).get PWR_STATUS_PHASE = 8 ∧ (rdy [(PWR_STATUS_MAIN_EN, 1)]).flag PWR_STATUS_MAIN_EN = true := by
  refine ⟨by constructor <;> decide +kernel, ?_⟩
  decide +kernel

theorem met_IdleStepIsOneFieldCycle :
    (rdy []).pending = [] ∧ (rdy []).dataUp = true ∧ State.reset.dataUp = false ∧
    (let s := rdy [(CORE_STATUS_STATE 143, stRunning)]
     s.get (CORE_STATUS_STATE 143) = stRunning ∧ gatedNow s 15 = 0 ∧ listStall 143 s = true ∧ s.serv.cold = []) ∧
    (let s := listed [0]
     s.get (CORE_STATUS_STATE 0) = stRunning ∧ gatedNow s 0 = 0 ∧ (s.core 0).inflight = [] ∧ listStall 0 s = false) ∧
    (let s := flying (plainRec .ctl [3, 2 ^ 32, 0, 0, 0, 0, 0, 0] 1 1)
     s.get (CORE_STATUS_STATE 0) = stRunning ∧ gatedNow s 0 = 0 ∧ (s.core 0).inflight.any (fun r => cOp r.words == opWait) = true) ∧
    gatedNow (rdy [(PWR_DIE_DUTY 15, 256)]) 15 ≠ 0 ∧ gatedNow (rdy []) 15 = 0 ∧
    (let s := { State.reset with regs := [(CLK_ALIGN_DONE.addr, BitVec.ofNat 64 (2 ^ CLK_ALIGN_DONE.lo)),
         (CLK_PLL_LOCKED.addr, BitVec.ofNat 64 (2 ^ CLK_PLL_LOCKED.lo))] }
     s.flag CLK_ALIGN_DONE = true ∧ s.flag CLK_PLL_LOCKED = true) := by decide +kernel

/-! Small tests: results are the spec's own. -/

/-- A power of two times a number, in binary32. -/
def f32Of (neg : Bool) (m : Nat) (e : Int) : Nat := (encodeVal .f32 .rne (.fin neg m e)).1

/-- The block of section "Worked example: one block of an expert pass" (02_number_formats): codes of the four pairs. -/
def exPairs : List (Val × Val) :=
  [(0x5A, 0x38), (0x13, 0x61), (0xC4, 0x4D), (0x03, 0xB2)].map (fun p =>
    ((decodeElem .f8v p.1).scale (-3), (decodeElem .f8v p.2).scale (-5)))

theorem test_f8v_scale_bytes : scaleByte .f8v 0x1D = some (some (-3)) ∧ scaleByte .f8v 0x1B = some (some (-5)) := by decide

theorem test_tally_of_worked_block :
    (Tally.addProducts 48 {} exPairs).1.value = 0x20B10000000 ∧ (Tally.addProducts 48 {} exPairs).1.res = 1 := by decide +kernel

theorem test_readout_of_worked_block :
    let v : Val := .fin false 8369 (-20)
    (encodeVal .f32 .rne v).1 = 0x3C02C400 ∧ (encodeVal .f16 .rne v).1 = 0x2016 ∧ (encodeVal .f16 (.dsr 0xE6C10F27) v).1 = 0x2017 := by
  decide +kernel

/-- The three members of "Worked example: a three-member AT64 block", position 0. -/
theorem test_anchored_block :
    let a : Val := .fin false 1 24
    let b : Val := .fin false (2 ^ 23 + 3) (-23)
    let c : Val := .fin true 1 24
    anchorWord [a] = 0x1018 ∧ anchorWord [b] = 0x1000 ∧
    [a, b, c].map (anchorQ 46 0x1018) = [35184372088832, 2097152, -35184372088832] ∧
    (anchorTotal 46 0x1018 .f32 .rne 2097152).1 = 0x3F800000 := by decide +kernel

/-- "Worked example: one token's selection" (05_winnower_scoring): E 768, K 6, eight groups of which four are kept, top two. -/
def exRoute : List Nat :=
  [1 + 2 ^ 8 + 2 ^ 9 + 2 ^ 10 + 6 * 2 ^ 20 + 8 * 2 ^ 26 + 4 * 2 ^ 33 + 2 * 2 ^ 40, 768, 0, f32Of false 5 (-1) * 2 ^ 32]

/-- Expert, logit in quarters and bias in 32nds; a negative number stands after `true`. -/
def exTokens : List (Nat × (Bool × Nat) × (Bool × Nat)) :=
  [(17, (false, 8), (true, 4)), (40, (false, 4), (false, 0)), (130, (false, 6), (false, 2)), (171, (false, 2), (false, 0)),
   (200, (false, 5), (false, 0)), (283, (false, 5), (false, 0)), (311, (false, 7), (true, 2)), (350, (false, 1), (false, 1)),
   (400, (false, 3), (false, 3)), (470, (false, 4), (false, 0)), (512, (false, 8), (false, 2)), (560, (true, 2), (false, 0))]

/-- Scores and keys of the listed experts. -/
def exScores : List (Nat × Val × Val) :=
  exTokens.flatMap (fun x => winScores exRoute ((List.replicate x.1 0) ++ [f32Of x.2.2.1 x.2.2.2 (-5)])
    ((List.replicate x.1 (.fin false 0 0)) ++ [f32v (f32Of x.2.1.1 x.2.1.2 (-2))]) [x.1])

theorem test_worked_selection :
    winSelect exRoute (rankSort (exScores.map (fun x => (x.1, x.2.2)))) = [130, 200, 283, 400, 17, 40] := by decide +kernel

/-! Single steps, on small states. -/

/-- What a command answers, as a state. -/
def after (c : Instr) (s : State) : State := match exec c s with | .next t => t | _ => s

/-- The address that "Worked example: a serving part's plots and a refused swap" gives VT_RT_BOARD[857] of RD0. -/
theorem test_route_table_address : (VT_RT_BOARD_ENTRY 0 857).addr = 0x200021411AC8 := by decide

/-- No word spells a command, so `withFetchWord` leaves the state as it is (log entry 34). -/
theorem test_no_word_spells_a_command (nbits w : Nat) : decodeTableWord nbits w = none := rfl
theorem test_withFetchWord_changes_nothing (s : State) (nbits w : Nat) : s.withFetchWord nbits w = s := rfl

/-- A read-only register keeps its value, and a write of ones clears RW1C bits (R8). -/
theorem test_register_write_rw1c :
    let s := rdy [(WIN_IRQ_JOB_DONE 3, 1), (WIN_IRQ_JOB_FAIL 3, 1)]
    let t := after (.registerWrite (BitVec.ofNat 46 (WIN_IRQ_JOB_DONE 3).addr) 1) s
    t.get (WIN_IRQ_JOB_DONE 3) = 0 ∧ t.get (WIN_IRQ_JOB_FAIL 3) = 1 := by decide +kernel

/-- A RUN of an idle core whose ring is too small is refused with CMD_BOUNDS, and of a core of no plot with CMD_ILLEGAL (R511). -/
theorem test_run_is_refused :
    (after (.run 143) { rdy [(CORE_RING_SIZE_ENTRIES 143, 15)] with plots := [plot0] }).get (CORE_STATUS_CODE 143) = cCmdBounds ∧
    (after (.run 143) (rdy [(CORE_RING_SIZE_ENTRIES 143, 16)])).get (CORE_STATUS_CODE 143) = cCmdIllegal := by decide +kernel

/-- Only the JTAG TAP is reset by TRST_N (R476). -/
theorem test_trst_n : (after .trstN { State.reset with sec := { debug := true } }) = State.reset := by decide +kernel

/-- A step takes the front command, first in, first out. -/
theorem test_queue_is_first_in_first_out :
    (match step { State.reset with pending := [.perstN true, .trstN] } with
     | .next t => t.pending == [.trstN] && t.pci.perst
     | _ => false) = true := by decide +kernel

end Sys2Proof.Tests
end

/-!
The CORE_CMD actions (R511): for each operation of Machine/Control.lean what it does to the fields of CORE_STATUS, CORE_HEAD,
CORE_RESUME and CORE_IRQ and to the core's hidden state, then one statement for each action in the states in which it acts, and
obligation O10 from these.
-/
namespace Sys2Proof.Machine

/-! Each action's command runs its operation while the data plane is up. -/

section
variable {s : State} (h : s.dataUp = true) (p : Fin 144)
include h

theorem State.live_of_dataUp (f : State → State) : s.live f = f s := if_pos h

theorem exec_run : exec (.run p) s = .next (runCore p s) := congrArg _ (State.live_of_dataUp h _)
theorem exec_arm : exec (.arm p) s = .next (armCore p s) := congrArg _ (State.live_of_dataUp h _)
theorem exec_listLaunch : exec (.listLaunch p) s = .next (listLaunch p s) := congrArg _ (State.live_of_dataUp h _)
theorem exec_kill : exec (.kill p) s = .next (killCore p s) := congrArg _ (State.live_of_dataUp h _)
theorem exec_killDone : exec (.killDone p) s = .next (killDone p s) := congrArg _ (State.live_of_dataUp h _)
theorem exec_resume : exec (.resume p) s = .next (resumeCore p s) := congrArg _ (State.live_of_dataUp h _)
theorem exec_clear : exec (.clear p) s = .next (clearCore p s) := congrArg _ (State.live_of_dataUp h _)

end

theorem Does.of_keeps {c : Instr} {s t u : State} {ps : List Part} (e : exec c s = .next t) (et : t = u) (k : Keeps ps s u) :
    Does c s ps u :=
  ⟨et ▸ e, k.only⟩

/-- The resume point at which KILL leaves an armed launch: at HEAD, with nothing to skip (R77). -/
def resumeAtHead (p : Nat) (s : State) : State :=
  (s.set (CORE_RESUME_PC p) (s.get (CORE_HEAD_HEAD p))).set (CORE_RESUME_SKIP p) 0

/-! Which branch an operation takes: RUN and ARM from IDLE, the others from the states of R511's table. -/

section
variable {p : Nat} {s : State}

theorem runCore_of_ne_idle (h : s.get (CORE_STATUS_STATE p) ≠ stIdle) : runCore p s = s := if_pos h
theorem armCore_of_ne_idle (h : s.get (CORE_STATUS_STATE p) ≠ stIdle) : armCore p s = s := if_pos h

theorem runCore_of_not_runnable (hi : s.get (CORE_STATUS_STATE p) = stIdle) (hh : runHeld p s = false) (hr : runnable p s = false) :
    runCore p s = s.set (CORE_STATUS_CODE p) cCmdIllegal := by
  simp [runCore, hi, hh, hr]

theorem armCore_of_not_runnable (hi : s.get (CORE_STATUS_STATE p) = stIdle) (hh : runHeld p s = false) (hr : runnable p s = false) :
    armCore p s = s.set (CORE_STATUS_CODE p) cCmdIllegal := by
  simp [armCore, hi, hh, hr]

theorem runCore_of_bad_ring (hi : s.get (CORE_STATUS_STATE p) = stIdle) (hh : runHeld p s = false) (hr : runnable p s = true)
    (ho : ringOk p s = false) : runCore p s = s.set (CORE_STATUS_CODE p) cCmdBounds := by
  simp [runCore, hi, hh, hr, ho]

theorem armCore_of_bad_ring (hi : s.get (CORE_STATUS_STATE p) = stIdle) (hh : runHeld p s = false) (hr : runnable p s = true)
    (ho : ringOk p s = false) : armCore p s = s.set (CORE_STATUS_CODE p) cCmdBounds := by
  simp [armCore, hi, hh, hr, ho]

theorem runCore_of_ok (hi : s.get (CORE_STATUS_STATE p) = stIdle) (hh : runHeld p s = false) (hr : runnable p s = true)
    (ho : ringOk p s = true) : runCore p s = startList p (s.get (CORE_HEAD_HEAD p)) [] (latchRing p s) := by
  simp [runCore, hi, hh, hr, ho]

theorem armCore_of_ok (hi : s.get (CORE_STATUS_STATE p) = stIdle) (hh : runHeld p s = false) (hr : runnable p s = true)
    (ho : ringOk p s = true) :
    armCore p s = if s.get (CORE_LAUNCH_ALM_COUNT p) < s.alm + 1000 then s.set (CORE_STATUS_CODE p) cLaunchPast
      else (latchRing p s).set (CORE_STATUS_STATE p) stArmed := by
  simp [armCore, hi, hh, hr, ho]

theorem killCore_of_armed (h : s.get (CORE_STATUS_STATE p) = stArmed) :
    killCore p s = becomeKilled p (resumeAtHead p s) := if_pos h

theorem killCore_of_running (h : s.get (CORE_STATUS_STATE p) = stRunning) (hk : (s.core p).killing = false) :
    killCore p s = (discardUncommitted p (killPoint p s)).setCore p
      { (discardUncommitted p (killPoint p s)).core p with killing := true } := by
  simp [killCore, h, hk, stRunning, stArmed]

theorem killCore_of_other (ha : s.get (CORE_STATUS_STATE p) ≠ stArmed) (hr : s.get (CORE_STATUS_STATE p) ≠ stRunning) :
    killCore p s = s := by
  simp [killCore, ha, hr]

theorem resumeCore_of_stopped (h : s.get (CORE_STATUS_STATE p) = stHalted ∨ s.get (CORE_STATUS_STATE p) = stKilled) :
    resumeCore p s = if ringOk p s then startList p (s.get (CORE_RESUME_PC p))
        (skipList (s.get (CORE_RESUME_PC p)) (s.get (CORE_RESUME_SKIP p)) (s.core p).size) s
      else s.set (CORE_STATUS_CODE p) cCmdBounds := by
  cases ho : ringOk p s <;> simp [resumeCore, h, ho]

theorem resumeCore_of_other (hh : s.get (CORE_STATUS_STATE p) ≠ stHalted) (hk : s.get (CORE_STATUS_STATE p) ≠ stKilled) :
    resumeCore p s = s := if_neg (not_or.2 ⟨hh, hk⟩)

theorem clearCore_of_other (hd : s.get (CORE_STATUS_STATE p) ≠ stDone) (hh : s.get (CORE_STATUS_STATE p) ≠ stHalted)
    (hk : s.get (CORE_STATUS_STATE p) ≠ stKilled) : clearCore p s = s := if_neg (not_or.2 ⟨hd, not_or.2 ⟨hh, hk⟩⟩)

end

/-! What the shared operations leave in the fields. -/

section
variable (p : Nat) (s : State)

/-- CODE and STATE share a register, of which a refused action changes CODE alone (R511). -/
theorem setCode_state (code : Nat) : (s.set (CORE_STATUS_CODE p) code).get (CORE_STATUS_STATE p) = s.get (CORE_STATUS_STATE p) :=
  get_lit_apart s _ 16 16 0 3 code (by omega) (by omega)

theorem setCode_code (code : Nat) : (s.set (CORE_STATUS_CODE p) code).get (CORE_STATUS_CODE p) = code % 2 ^ 16 :=
  get_lit_self s _ 16 16 code (by omega)

theorem setState_state (st : Nat) : (s.set (CORE_STATUS_STATE p) st).get (CORE_STATUS_STATE p) = st % 2 ^ 3 :=
  get_lit_self s _ 0 3 st (by omega)

theorem startList_state (pc : Nat) (skip : List Nat) : (startList p pc skip s).get (CORE_STATUS_STATE p) = stRunning := by
  simp [startList, CORE_STATUS_STATE, CORE_HEAD_HEAD, get_lit_self, get_lit_addr, stRunning]

theorem startList_head (pc : Nat) (skip : List Nat) : (startList p pc skip s).get (CORE_HEAD_HEAD p) = pc % 2 ^ 17 := by
  simp [startList, CORE_STATUS_STATE, CORE_HEAD_HEAD, get_lit_self]

/-- The list starts with the ring in force, which only RUN and ARM latch (R86). -/
theorem startList_ring (pc : Nat) (skip : List Nat) :
    ((startList p pc skip s).core p).base = (s.core p).base ∧ ((startList p pc skip s).core p).size = (s.core p).size := by
  simp [startList]

theorem startList_regs (pc : Nat) (skip : List Nat) :
    RegsBut [(CORE_STATUS_STATE p).addr, (CORE_HEAD_HEAD p).addr] s (startList p pc skip s) :=
  regs_trans (regs_trans (regs_set (by simp)) (regs_set (by simp))) regs_setCore

theorem latchRing_ring : ((latchRing p s).core p).base = 64 * s.get (CORE_RING_BASE_BASE p) ∧
    ((latchRing p s).core p).size = s.get (CORE_RING_SIZE_ENTRIES p) := by
  simp [latchRing]

theorem resumeAtHead_pc : (resumeAtHead p s).get (CORE_RESUME_PC p) = s.get (CORE_HEAD_HEAD p) := calc
  (resumeAtHead p s).get (CORE_RESUME_PC p) = (s.set (CORE_RESUME_PC p) (s.get (CORE_HEAD_HEAD p))).get (CORE_RESUME_PC p) :=
    get_lit_apart _ _ 24 8 0 17 0 (by omega) (by omega)
  _ = s.get (CORE_HEAD_HEAD p) % 2 ^ 17 := get_lit_self s _ 0 17 _ (by omega)
  _ = s.get (CORE_HEAD_HEAD p) := Nat.mod_eq_of_lt (State.get_lt s _)

theorem resumeAtHead_skip : (resumeAtHead p s).get (CORE_RESUME_SKIP p) = 0 := get_lit_self _ _ 24 8 0 (by omega)

theorem resumeAtHead_keeps {ps : List Part} (hregs : Part.regs ∈ ps) : Keeps ps s (resumeAtHead p s) :=
  State.set_keeps _ _ (State.set_keeps _ _ (.refl _ s) hregs) hregs

theorem becomeKilled_status : (becomeKilled p s).get (CORE_STATUS_STATE p) = stKilled ∧
    (becomeKilled p s).get (CORE_STATUS_CODE p) = cListKilled ∧ (becomeKilled p s).get (CORE_IRQ_KILLED p) = 1 := by
  simp [becomeKilled, State.raise_eq, CORE_STATUS_STATE, CORE_STATUS_CODE, CORE_IRQ_KILLED, get_lit_self, get_lit_addr, get_lit_apart,
    stKilled, cListKilled]

theorem becomeKilled_resume : (becomeKilled p s).get (CORE_RESUME_PC p) = s.get (CORE_RESUME_PC p) ∧
    (becomeKilled p s).get (CORE_RESUME_SKIP p) = s.get (CORE_RESUME_SKIP p) := by
  simp [becomeKilled, State.raise_eq, CORE_STATUS_STATE, CORE_STATUS_CODE, CORE_IRQ_KILLED, CORE_RESUME_PC, CORE_RESUME_SKIP,
    get_lit_addr]

end

/-! KILL of a running list: commands that have not committed go, with the busy marks of their engines (R77). -/

section
variable (p : Nat) (s : State)

/-- The busy mark of an array goes out in a register of the array's own. -/
theorem clearArrayBusy_state (a : Nat) : (s.set (MX_STATUS_BUSY p a) 0).get (CORE_STATUS_STATE p) = s.get (CORE_STATUS_STATE p) :=
  State.get_set_addr s 0 (by simp only [CORE_STATUS_STATE, MX_STATUS_BUSY, mxBase]; omega)

theorem foldl_clearArrayBusy_state (as : List Nat) :
    (as.foldl (fun t a => t.set (MX_STATUS_BUSY p a) 0) s).get (CORE_STATUS_STATE p) = s.get (CORE_STATUS_STATE p) := by
  induction as generalizing s with
  | nil => rfl
  | cons a as ih => exact (ih _).trans (clearArrayBusy_state p s a)

theorem clearArrays_state (side : Nat) : (clearArrays p side s).get (CORE_STATUS_STATE p) = s.get (CORE_STATUS_STATE p) := by
  unfold clearArrays
  split
  · rfl
  · exact foldl_clearArrayBusy_state p s _

theorem clearBusy_state (sl : Slot) : (clearBusy p sl s).get (CORE_STATUS_STATE p) = s.get (CORE_STATUS_STATE p) := by
  cases sl with
  | mpA => exact clearArrays_state p s 0
  | mpB =>
    simp only [clearBusy]
    split
    · exact clearArrays_state p s 1
    · rfl
  | mv => simp [clearBusy, CORE_STATUS_STATE, MV_STATUS_BUSY, mvBase, get_lit_addr]
  | vx => simp [clearBusy, CORE_STATUS_STATE, VX_STATUS_BUSY, vxBase, Nat.add_assoc, get_lit_addr]
  | _ => rfl

theorem clearBusy_core (sl : Slot) : (clearBusy p sl s).core p = s.core p :=
  core_only (clearBusy_keeps p sl (Keeps.refl [Part.regs] s) (by decide)).only (by decide) p

/-- The busy marks of several slots go out: neither STATE nor the hidden state changes. -/
theorem foldl_clearBusy (sls : List Slot) :
    (sls.foldl (fun t sl => clearBusy p sl t) s).get (CORE_STATUS_STATE p) = s.get (CORE_STATUS_STATE p) ∧
    (sls.foldl (fun t sl => clearBusy p sl t) s).core p = s.core p := by
  induction sls generalizing s with
  | nil => exact ⟨rfl, rfl⟩
  | cons sl sls ih =>
    obtain ⟨hst, hcore⟩ := ih (clearBusy p sl s)
    exact ⟨hst.trans (clearBusy_state p s sl), hcore.trans (clearBusy_core p s sl)⟩

theorem discardUncommitted_state : (discardUncommitted p s).get (CORE_STATUS_STATE p) = s.get (CORE_STATUS_STATE p) :=
  (foldl_clearBusy p _ _).1.trans (State.get_setCore ..)

theorem discardUncommitted_inflight :
    ((discardUncommitted p s).core p).inflight = (s.core p).inflight.filter (fun r => r.committed s.fc) := by
  unfold discardUncommitted
  dsimp only
  rw [(foldl_clearBusy p _ _).2, State.core_setCore_self]

theorem killPoint_state : (killPoint p s).get (CORE_STATUS_STATE p) = s.get (CORE_STATUS_STATE p) := by
  simp [killPoint, CORE_STATUS_STATE, CORE_RESUME_PC, CORE_RESUME_SKIP, get_lit_addr]

theorem killPoint_core : (killPoint p s).core p = s.core p := rfl

theorem killPoint_fc : (killPoint p s).fc = s.fc := rfl

end

/-! What each action does where it acts. -/

section
variable {p : Fin 144} {s : State} {c : Instr}

/-- An action that is refused leaves STATE and says why in CODE (R511). -/
theorem does_refusal {t : State} {code : Nat} (e : exec c s = .next t) (et : t = s.set (CORE_STATUS_CODE p) code)
    (hc : code < 2 ^ 16) : ∃ u, Does c s [.regs] u ∧ RegsBut [(CORE_STATUS_STATE p).addr] s u ∧
      u.get (CORE_STATUS_STATE p) = s.get (CORE_STATUS_STATE p) ∧ u.get (CORE_STATUS_CODE p) = code :=
  ⟨_, .of_keeps e et (State.set_keeps _ _ (.refl _ s) (by decide)), regs_set (List.mem_singleton.2 rfl), setCode_state p s code,
    (setCode_code p s code).trans (Nat.mod_eq_of_lt hc)⟩

/-- An action that starts a list at a ring index makes the core RUNNING there (R78, R511). -/
theorem does_startList {t : State} {f : Fld} {skip : List Nat} (hf : f.len = 17) (e : exec c s = .next t)
    (et : t = startList p (s.get f) skip s) : ∃ u, Does c s [.regs, .cores] u ∧
      u.get (CORE_STATUS_STATE p) = stRunning ∧ u.get (CORE_HEAD_HEAD p) = s.get f :=
  ⟨_, .of_keeps e et (startList_keeps p _ _ (.refl _ s) (by decide) (by decide)), startList_state p s _ _,
    (startList_head p s _ _).trans (Nat.mod_eq_of_lt (hf ▸ State.get_lt s f))⟩

theorem run_starts_list (h : s.dataUp = true) (hi : s.get (CORE_STATUS_STATE p) = stIdle) (hh : runHeld p s = false)
    (hr : runnable p s = true) (ho : ringOk p s = true) :
    ∃ u, Does (.run p) s [.regs, .cores] u ∧ RegsBut [(CORE_STATUS_STATE p).addr, (CORE_HEAD_HEAD p).addr] s u ∧
      u.get (CORE_STATUS_STATE p) = stRunning ∧ u.get (CORE_HEAD_HEAD p) = s.get (CORE_HEAD_HEAD p) ∧
      (u.core p).base = 64 * s.get (CORE_RING_BASE_BASE p) ∧ (u.core p).size = s.get (CORE_RING_SIZE_ENTRIES p) := by
  have hlatch : Keeps [.regs, .cores] s (latchRing p s) := latchRing_keeps p (.refl _ s) (by decide)
  obtain ⟨hbase, hsize⟩ := startList_ring p (latchRing p s) (s.get (CORE_HEAD_HEAD p)) []
  obtain ⟨hbase', hsize'⟩ := latchRing_ring p s
  exact ⟨_, .of_keeps (exec_run h p) (runCore_of_ok hi hh hr ho) (startList_keeps p _ _ hlatch (by decide) (by decide)),
    regs_trans regs_setCore (startList_regs p _ _ _), startList_state .., (startList_head ..).trans (Nat.mod_eq_of_lt (State.get_lt s _)),
    hbase.trans hbase', hsize.trans hsize'⟩

/-- ARM at least 1 µs ahead of the count it names arms the launch (R379). -/
theorem arm_arms_launch (h : s.dataUp = true) (hi : s.get (CORE_STATUS_STATE p) = stIdle) (hh : runHeld p s = false)
    (hr : runnable p s = true) (ho : ringOk p s = true) (hl : s.alm + 1000 ≤ s.get (CORE_LAUNCH_ALM_COUNT p)) :
    ∃ u, Does (.arm p) s [.regs, .cores] u ∧ RegsBut [(CORE_STATUS_STATE p).addr] s u ∧ u.get (CORE_STATUS_STATE p) = stArmed := by
  have hlatch : Keeps [.regs, .cores] s (latchRing p s) := latchRing_keeps p (.refl _ s) (by decide)
  have harm : armCore p s = (latchRing p s).set (CORE_STATUS_STATE p) stArmed :=
    (armCore_of_ok hi hh hr ho).trans (if_neg (Nat.not_lt.2 hl))
  exact ⟨_, .of_keeps (exec_arm h p) harm (State.set_keeps _ _ hlatch (by decide)),
    regs_trans regs_setCore (regs_set (List.mem_singleton.2 rfl)), setState_state ..⟩

theorem arm_refused_past (h : s.dataUp = true) (hi : s.get (CORE_STATUS_STATE p) = stIdle) (hh : runHeld p s = false)
    (hr : runnable p s = true) (ho : ringOk p s = true) (hl : s.get (CORE_LAUNCH_ALM_COUNT p) < s.alm + 1000) :
    ∃ u, Does (.arm p) s [.regs] u ∧ u.get (CORE_STATUS_STATE p) = stIdle ∧ u.get (CORE_STATUS_CODE p) = cLaunchPast := by
  obtain ⟨u, hd, -, hst, hcode⟩ := does_refusal (exec_arm h p) ((armCore_of_ok hi hh hr ho).trans (if_pos hl)) (by decide)
  exact ⟨u, hd, hst.trans hi, hcode⟩

theorem run_arm_refused_unplaced (h : s.dataUp = true) (hi : s.get (CORE_STATUS_STATE p) = stIdle) (hh : runHeld p s = false)
    (hr : runnable p s = false) (hc : c ∈ [Instr.run p, Instr.arm p]) : ∃ u, Does c s [.regs] u ∧
      RegsBut [(CORE_STATUS_STATE p).addr] s u ∧ u.get (CORE_STATUS_STATE p) = stIdle ∧ u.get (CORE_STATUS_CODE p) = cCmdIllegal := by
  rw [← hi]
  rcases List.mem_pair.1 hc with rfl | rfl
  · exact does_refusal (exec_run h p) (runCore_of_not_runnable hi hh hr) (by decide)
  · exact does_refusal (exec_arm h p) (armCore_of_not_runnable hi hh hr) (by decide)

theorem run_arm_refused_bad_ring (h : s.dataUp = true) (hi : s.get (CORE_STATUS_STATE p) = stIdle) (hh : runHeld p s = false)
    (hr : runnable p s = true) (ho : ringOk p s = false) (hc : c ∈ [Instr.run p, Instr.arm p]) : ∃ u, Does c s [.regs] u ∧
      RegsBut [(CORE_STATUS_STATE p).addr] s u ∧ u.get (CORE_STATUS_STATE p) = stIdle ∧ u.get (CORE_STATUS_CODE p) = cCmdBounds := by
  rw [← hi]
  rcases List.mem_pair.1 hc with rfl | rfl
  · exact does_refusal (exec_run h p) (runCore_of_bad_ring hi hh hr ho) (by decide)
  · exact does_refusal (exec_arm h p) (armCore_of_bad_ring hi hh hr ho) (by decide)

theorem listLaunch_starts_list (h : s.dataUp = true) (ha : s.get (CORE_STATUS_STATE p) = stArmed)
    (hl : s.get (CORE_LAUNCH_ALM_COUNT p) ≤ s.alm) : ∃ u, Does (.listLaunch p) s [.regs, .cores] u ∧
      u.get (CORE_STATUS_STATE p) = stRunning ∧ u.get (CORE_HEAD_HEAD p) = s.get (CORE_HEAD_HEAD p) :=
  does_startList rfl (exec_listLaunch h p) (if_pos ⟨ha, hl⟩)

/-- KILL of an armed launch cancels it with the resume point at HEAD (R77). -/
theorem kill_cancels_launch (h : s.dataUp = true) (ha : s.get (CORE_STATUS_STATE p) = stArmed) :
    ∃ u, Does (.kill p) s [.regs, .cores] u ∧ u.get (CORE_STATUS_STATE p) = stKilled ∧
      u.get (CORE_STATUS_CODE p) = cListKilled ∧ u.get (CORE_RESUME_PC p) = s.get (CORE_HEAD_HEAD p) ∧
      u.get (CORE_RESUME_SKIP p) = 0 := by
  obtain ⟨hst, hcode, -⟩ := becomeKilled_status p (resumeAtHead p s)
  obtain ⟨hpc, hskip⟩ := becomeKilled_resume p (resumeAtHead p s)
  have hkeeps : Keeps [.regs, .cores] s (becomeKilled p (resumeAtHead p s)) :=
    becomeKilled_keeps p (resumeAtHead_keeps p s (by decide)) (by decide) (by decide)
  exact ⟨_, .of_keeps (exec_kill h p) (killCore_of_armed ha) hkeeps, hst, hcode, hpc.trans (resumeAtHead_pc p s),
    hskip.trans (resumeAtHead_skip p s)⟩

theorem kill_discards_uncommitted (h : s.dataUp = true) (hr : s.get (CORE_STATUS_STATE p) = stRunning)
    (hk : (s.core p).killing = false) : ∃ u, Does (.kill p) s [.regs, .cores] u ∧ u.get (CORE_STATUS_STATE p) = stRunning ∧
      (u.core p).killing = true ∧ (u.core p).inflight = (s.core p).inflight.filter (fun r => r.committed s.fc) := by
  have hkeeps : Keeps [.regs, .cores] s (discardUncommitted p (killPoint p s)) :=
    discardUncommitted_keeps p (killPoint_keeps p (.refl _ s) (by decide)) (by decide) (by decide)
  have hstate : (discardUncommitted p (killPoint p s)).get (CORE_STATUS_STATE p) = stRunning :=
    ((discardUncommitted_state p _).trans (killPoint_state p s)).trans hr
  refine ⟨_, .of_keeps (exec_kill h p) (killCore_of_running hr hk) (hkeeps.setCore (by decide) _ _), ?_, ?_, ?_⟩
  · rw [State.get_setCore, hstate]
  · rw [State.core_setCore_self]
  · rw [State.core_setCore_self, discardUncommitted_inflight, killPoint_core, killPoint_fc]

theorem killDone_kills (h : s.dataUp = true) (hr : s.get (CORE_STATUS_STATE p) = stRunning) (hk : (s.core p).killing = true)
    (hf : (s.core p).inflight = []) : ∃ u, Does (.killDone p) s [.regs, .cores] u ∧ u.get (CORE_STATUS_STATE p) = stKilled ∧
      u.get (CORE_STATUS_CODE p) = cListKilled ∧ u.get (CORE_IRQ_KILLED p) = 1 :=
  ⟨_, .of_keeps (exec_killDone h p) (if_pos ⟨hr, hk, hf⟩) (becomeKilled_keeps p (.refl _ s) (by decide) (by decide)),
    becomeKilled_status p s⟩

theorem resume_starts_list (h : s.dataUp = true)
    (hst : s.get (CORE_STATUS_STATE p) = stHalted ∨ s.get (CORE_STATUS_STATE p) = stKilled) (ho : ringOk p s = true) :
    ∃ u, Does (.resume p) s [.regs, .cores] u ∧ u.get (CORE_STATUS_STATE p) = stRunning ∧
      u.get (CORE_HEAD_HEAD p) = s.get (CORE_RESUME_PC p) :=
  does_startList rfl (exec_resume h p) ((resumeCore_of_stopped hst).trans (if_pos ho))

theorem resume_refused_bad_ring (h : s.dataUp = true)
    (hst : s.get (CORE_STATUS_STATE p) = stHalted ∨ s.get (CORE_STATUS_STATE p) = stKilled) (ho : ringOk p s = false) :
    ∃ u, Does (.resume p) s [.regs] u ∧ RegsBut [(CORE_STATUS_STATE p).addr] s u ∧
      u.get (CORE_STATUS_STATE p) = s.get (CORE_STATUS_STATE p) ∧ u.get (CORE_STATUS_CODE p) = cCmdBounds :=
  does_refusal (exec_resume h p) ((resumeCore_of_stopped hst).trans (if_neg (by simp [ho]))) (by decide)

/-- CLEAR ends a stopped list: IDLE, with CODE and the stall counters at zero (R93, R511). -/
theorem clear_to_idle (h : s.dataUp = true) (hst : s.get (CORE_STATUS_STATE p) = stDone ∨
      s.get (CORE_STATUS_STATE p) = stHalted ∨ s.get (CORE_STATUS_STATE p) = stKilled) :
    ∃ u, Does (.clear p) s [.regs] u ∧
      RegsBut [(CORE_STATUS_STATE p).addr, (CORE_STALL_WAIT_COUNT p).addr, (CORE_STALL_MEM_COUNT p).addr,
        (CORE_STALL_LIST_COUNT p).addr, (CORE_STALL_THR_COUNT p).addr] s u ∧
      u.get (CORE_STATUS_STATE p) = stIdle ∧ u.get (CORE_STATUS_CODE p) = 0 ∧ u.get (CORE_STALL_WAIT_COUNT p) = 0 ∧
      u.get (CORE_STALL_MEM_COUNT p) = 0 ∧ u.get (CORE_STALL_LIST_COUNT p) = 0 ∧ u.get (CORE_STALL_THR_COUNT p) = 0 := by
  refine ⟨_, .of_keeps (exec_clear h p) (if_pos hst) ?_, ?_, ?_⟩
  · iterate 6 refine State.set_keeps _ _ ?_ (by decide)
    exact .refl _ s
  · iterate 5 refine regs_trans ?_ (regs_set (by simp [CORE_STATUS_CODE, CORE_STATUS_STATE]))
    exact regs_set (by simp)
  · simp [CORE_STATUS_STATE, CORE_STATUS_CODE, CORE_STALL_WAIT_COUNT, CORE_STALL_MEM_COUNT, CORE_STALL_LIST_COUNT,
      CORE_STALL_THR_COUNT, get_lit_self, get_lit_addr, get_lit_apart, stIdle]

end

/-- Settles O10, from what each action does in the states in which R511's table lets it act, and that it is void in the others.
No action writes CORE_CYC_ACTIVE, which so counts on from where it stands (log entry 37). -/
theorem coreActionsActByState : Obligations.CoreActionsActByState := by
  refine ⟨fun p s h => ⟨fun hi => ?_, fun ha hr => ?_, fun hh hk => ?_, fun hd hh hk => ?_⟩,
    fun p s h hi hh => ⟨fun hr ho => ⟨run_starts_list h hi hh hr ho, arm_arms_launch h hi hh hr ho, arm_refused_past h hi hh hr ho⟩,
      fun hr c hc => run_arm_refused_unplaced h hi hh hr hc, fun hr ho c hc => run_arm_refused_bad_ring h hi hh hr ho hc⟩,
    fun p s h => ⟨listLaunch_starts_list h, kill_cancels_launch h, kill_discards_uncommitted h, killDone_kills h,
      resume_starts_list h, resume_refused_bad_ring h, clear_to_idle h⟩⟩
  · rw [exec_run h, exec_arm h, runCore_of_ne_idle hi, armCore_of_ne_idle hi]
    exact ⟨rfl, rfl⟩
  · rw [exec_kill h, killCore_of_other ha hr]
  · rw [exec_resume h, resumeCore_of_other hh hk]
  · rw [exec_clear h, clearCore_of_other hd hh hk]

end Sys2Proof.Machine

/-!
The almanac counter's software writes (R376): how the counter enters a state, which branch a write to ALM_NEXT or ALM_SYNC takes
and what it leaves in the fields, then obligation O49 from these.
-/
namespace Sys2Proof.Machine

/-- A field whose register stands outside the changed ones reads as before. -/
theorem RegsBut.get_eq {as : List Nat} {s t : State} (h : RegsBut as s t) {f : Fld} (hf : f.addr ∉ as) : t.get f = s.get f :=
  congrArg f.of (h f.addr hf)

/-! Entering a state of the counter: STATE is written, MISSED is cleared, and the hidden state starts anew (R375, R376). -/

/-- The counter in the state `st`, with no edge missed and the hidden state `a`. -/
def almEnter (st : Nat) (a : AlmState) (s : State) : State :=
  { (s.set ALM_STATE_STATE st).set ALM_STATE_MISSED 0 with tim := a }

section
variable (st : Nat) (a : AlmState) (v : Word) (s : State)

theorem almToAcquire_eq : almToAcquire s = almEnter almAcquire { first := true } s := rfl

theorem almToFree_eq : almToFree s = almEnter almFree {} s := rfl

theorem almEnter_regs : RegsBut [ALM_STATE_STATE.addr] s (almEnter st a s) :=
  regs_trans (regs_set (List.mem_singleton.2 rfl)) (regs_set (f := ALM_STATE_MISSED) (v := 0) (List.mem_singleton.2 rfl))

/-- MISSED shares the register of STATE and no bit of it. -/
theorem almEnter_state : (almEnter st a s).get ALM_STATE_STATE = st % 2 ^ 2 := calc
  (almEnter st a s).get ALM_STATE_STATE = (s.set ALM_STATE_STATE st).get ALM_STATE_STATE :=
    State.get_set_apart (f := ALM_STATE_MISSED) _ 0 (by decide) (by decide)
  _ = st % 2 ^ 2 := State.get_set_self s _ st (by decide)

theorem almToAcquire_state : (almToAcquire s).get ALM_STATE_STATE = almAcquire := almEnter_state almAcquire _ s

theorem almToFree_state : (almToFree s).get ALM_STATE_STATE = almFree := almEnter_state almFree _ s

/-! A write to ALM_NEXT. -/

theorem does_almNextWrite : Does (.almNextWrite v) s [.regs, .tim] (almNextWrite v s) :=
  .of_keeps rfl rfl (almNextWrite_keeps v (.refl _ s) (by decide) (by decide))

theorem setNext_next : (s.set ALM_NEXT_COUNT v.toNat).get ALM_NEXT_COUNT = v.toNat :=
  (State.get_set_self s _ _ (by decide)).trans (Nat.mod_eq_of_lt v.isLt)

variable {v s}

theorem almNextWrite_of_aligned (h : s.get ALM_STATE_STATE = almLocked ∨ s.get ALM_STATE_STATE = almHoldover) :
    almNextWrite v s = s := by
  simp [almNextWrite, h]

theorem almNextWrite_of_acquiring
    (h : s.get ALM_STATE_STATE = almAcquire ∨ (s.get ALM_STATE_STATE = almFree ∧ s.flag ALM_SYNC_EN = true)) :
    almNextWrite v s = almToAcquire (s.set ALM_NEXT_COUNT v.toNat) := by
  obtain hacq | ⟨hfree, hen⟩ := h
  · simp [almNextWrite, hacq, almAcquire, almLocked, almHoldover]
  · simp [almNextWrite, hfree, hen, almFree, almLocked, almHoldover]

theorem almNextWrite_of_disabled (hfree : s.get ALM_STATE_STATE = almFree) (hen : s.flag ALM_SYNC_EN = false) :
    almNextWrite v s = { s.set ALM_NEXT_COUNT v.toNat with tim := { s.tim with held := true } } := by
  simp [almNextWrite, hfree, hen, almFree, almAcquire, almLocked, almHoldover]

/-- In ACQUIRE, and in FREE with EN set, acquisition starts from the value written, with no good edge counted (R376). -/
theorem almNextWrite_starts_acquisition
    (h : s.get ALM_STATE_STATE = almAcquire ∨ (s.get ALM_STATE_STATE = almFree ∧ s.flag ALM_SYNC_EN = true)) :
    ∃ u, Does (.almNextWrite v) s [.regs, .tim] u ∧
      RegsBut [ALM_NEXT_COUNT.addr, ALM_STATE_STATE.addr] s u ∧ u.get ALM_NEXT_COUNT = v.toNat ∧
      u.get ALM_STATE_STATE = almAcquire ∧ u.tim.first = true ∧ u.tim.good = 0 := by
  refine ⟨_, does_almNextWrite v s, ?_⟩
  rw [almNextWrite_of_acquiring h]
  have henter := almEnter_regs almAcquire { first := true } (s.set ALM_NEXT_COUNT v.toNat)
  exact ⟨regs_trans (regs_set (by simp)) (regs_mono henter (by simp)),
    (henter.get_eq (by decide)).trans (setNext_next v s), almToAcquire_state _, rfl, rfl⟩

/-- In FREE with EN clear the value is stored and waits (R376). -/
theorem almNextWrite_waits (hfree : s.get ALM_STATE_STATE = almFree) (hen : s.flag ALM_SYNC_EN = false) :
    ∃ u, Does (.almNextWrite v) s [.regs, .tim] u ∧
      RegsBut [ALM_NEXT_COUNT.addr] s u ∧ u.get ALM_NEXT_COUNT = v.toNat ∧ u.tim = { s.tim with held := true } := by
  refine ⟨_, does_almNextWrite v s, ?_⟩
  rw [almNextWrite_of_disabled hfree hen]
  exact ⟨regs_set (f := ALM_NEXT_COUNT) (List.mem_singleton.2 rfl), setNext_next v s, rfl⟩

end

/-! A write to ALM_SYNC: its fields are stored, then the counter may change its state. -/

/-- The state with the fields of ALM_SYNC stored. -/
def almSyncStored (v : Word) (s : State) : State :=
  ((s.set ALM_SYNC_EN (ALM_SYNC_EN.of v)).set ALM_SYNC_PERIOD_MS (ALM_SYNC_PERIOD_MS.of v)).set ALM_SYNC_HOLD_MAX
    (ALM_SYNC_HOLD_MAX.of v)

section
variable (v : Word) (s : State)

theorem does_almSyncWrite : Does (.almSyncWrite v) s [.regs, .tim] (almSyncWrite v s) :=
  .of_keeps rfl rfl (almSyncWrite_keeps v (.refl _ s) (by decide) (by decide))

theorem almSyncStored_regs : RegsBut [ALM_SYNC_EN.addr] s (almSyncStored v s) := by
  unfold almSyncStored
  exact regs_trans (regs_trans (regs_set (by simp)) (regs_set (by simp [ALM_SYNC_EN, ALM_SYNC_PERIOD_MS])))
    (regs_set (by simp [ALM_SYNC_EN, ALM_SYNC_HOLD_MAX]))

/-- The three fields share a register and no bit: each reads as written. -/
theorem almSyncStored_fields : (almSyncStored v s).get ALM_SYNC_EN = ALM_SYNC_EN.of v ∧
    (almSyncStored v s).get ALM_SYNC_PERIOD_MS = ALM_SYNC_PERIOD_MS.of v ∧
    (almSyncStored v s).get ALM_SYNC_HOLD_MAX = ALM_SYNC_HOLD_MAX.of v := by
  have hen := Nat.mod_eq_of_lt (Fld.of_lt ALM_SYNC_EN v)
  have hperiod := Nat.mod_eq_of_lt (Fld.of_lt ALM_SYNC_PERIOD_MS v)
  have hhold := Nat.mod_eq_of_lt (Fld.of_lt ALM_SYNC_HOLD_MAX v)
  refine ⟨?_, ?_, ?_⟩ <;> unfold almSyncStored
  · rw [State.get_set_apart _ _ (by decide) (by decide), State.get_set_apart _ _ (by decide) (by decide),
      State.get_set_self _ _ _ (by decide), hen]
  · rw [State.get_set_apart _ _ (by decide) (by decide), State.get_set_self _ _ _ (by decide), hperiod]
  · rw [State.get_set_self _ _ _ (by decide), hhold]

/-- Storing ALM_SYNC leaves the counter's state as it is. -/
theorem almSyncStored_state : (almSyncStored v s).get ALM_STATE_STATE = s.get ALM_STATE_STATE :=
  (almSyncStored_regs v s).get_eq (by decide)

/-- What a write to ALM_SYNC does after storing: nothing, or the counter enters FREE or ACQUIRE. -/
theorem almSyncWrite_eq : almSyncWrite v s =
    if ALM_SYNC_EN.of v = 0 then
      if s.get ALM_STATE_STATE = almFree then almSyncStored v s else almToFree (almSyncStored v s)
    else if s.get ALM_STATE_STATE = almFree ∧ s.flag ALM_SYNC_EN = false ∧ s.tim.held = true then
      almToAcquire (almSyncStored v s)
    else almSyncStored v s := by
  simp [almSyncWrite, almSyncStored, and_assoc]

theorem almSyncWrite_regs_after_store : RegsBut [ALM_STATE_STATE.addr] (almSyncStored v s) (almSyncWrite v s) := by
  rw [almSyncWrite_eq]
  split
  · split
    · exact fun _ _ => rfl
    · exact almEnter_regs almFree {} _
  · split
    · exact almEnter_regs almAcquire { first := true } _
    · exact fun _ _ => rfl

theorem almSyncWrite_regs : RegsBut [ALM_SYNC_EN.addr, ALM_STATE_STATE.addr] s (almSyncWrite v s) :=
  regs_trans (regs_mono (almSyncStored_regs v s) (by simp)) (regs_mono (almSyncWrite_regs_after_store v s) (by simp))

/-- Clearing EN returns the counter to FREE; setting it enters ACQUIRE from FREE where a value waits (R376). -/
theorem almSyncWrite_state : (almSyncWrite v s).get ALM_STATE_STATE =
    if ALM_SYNC_EN.of v = 0 then almFree
    else if s.get ALM_STATE_STATE = almFree ∧ s.flag ALM_SYNC_EN = false ∧ s.tim.held = true then almAcquire
    else s.get ALM_STATE_STATE := by
  rw [almSyncWrite_eq]
  split
  · split
    next hfree => exact (almSyncStored_state v s).trans hfree
    next => exact almToFree_state _
  · split
    · exact almToAcquire_state _
    · exact almSyncStored_state v s

theorem almSyncWrite_stores_and_moves : ∃ u, Does (.almSyncWrite v) s [.regs, .tim] u ∧
    RegsBut [ALM_SYNC_EN.addr, ALM_STATE_STATE.addr] s u ∧ u.get ALM_SYNC_EN = ALM_SYNC_EN.of v ∧
    u.get ALM_SYNC_PERIOD_MS = ALM_SYNC_PERIOD_MS.of v ∧ u.get ALM_SYNC_HOLD_MAX = ALM_SYNC_HOLD_MAX.of v ∧
    u.get ALM_STATE_STATE = (if ALM_SYNC_EN.of v = 0 then almFree
      else if s.get ALM_STATE_STATE = almFree ∧ s.flag ALM_SYNC_EN = false ∧ s.tim.held = true then almAcquire
      else s.get ALM_STATE_STATE) := by
  obtain ⟨hen, hperiod, hhold⟩ := almSyncStored_fields v s
  have hafter := almSyncWrite_regs_after_store v s
  exact ⟨_, does_almSyncWrite v s, almSyncWrite_regs v s, (hafter.get_eq (by decide)).trans hen,
    (hafter.get_eq (by decide)).trans hperiod, (hafter.get_eq (by decide)).trans hhold, almSyncWrite_state v s⟩

end

/-- Settles O49, from the branch that each write takes in each state of the counter and the fields that it leaves. -/
theorem almNextAndSyncWritesActByState : Obligations.AlmNextAndSyncWritesActByState := fun s =>
  ⟨fun h _ => congrArg _ (almNextWrite_of_aligned h),
    fun _ => ⟨almNextWrite_starts_acquisition, almNextWrite_waits⟩,
    fun v => almSyncWrite_stores_and_moves v s⟩

end Sys2Proof.Machine

/-!
BAR4 (R416): what a note in PCI_LAST leaves, what whole words of sound memory give, which branch an access takes, then
obligation O51 from these.
-/
namespace Sys2Proof.Machine

theorem RegsBut.of_onlyIn {ps : List Part} {s t : State} (h : State.onlyIn ps s t) (hr : Part.regs ∉ ps) (as : List Nat) :
    RegsBut as s t := by
  have hregs : t.regs = s.regs := h.2 .regs hr
  intro a _
  unfold State.word
  rw [hregs]

/-! A note in PCI_LAST (R425): CODE and CAUSE read as written, and beside PCI_LAST only PCI_IRQ changes. -/

section
variable (code cause addr : Nat) (s : State)

theorem msixRaise_regs (v : Nat) (as : List Nat) : RegsBut as s (msixRaise v s) :=
  .of_onlyIn (msixRaise_keeps v (.refl [.pci] s) (by decide)).only (by decide) as

theorem pciIrq_regs : RegsBut [PCI_IRQ_BAR_REFUSED.addr] s (pciIrq code s) := by
  have hraise (i : Nat) : RegsBut [PCI_IRQ_BAR_REFUSED.addr] s (s.raise ⟨PCI_IRQ_BAR_REFUSED.addr, i, 1⟩) :=
    regs_set (List.mem_singleton.2 rfl)
  unfold pciIrq
  dsimp only
  split
  · exact fun _ _ => rfl
  · split
    · exact regs_trans (hraise _) (msixRaise_regs _ 0 _)
    · exact hraise _

/-- PCI_LAST as a note writes it. -/
def pciLastSet : State := ((s.set PCI_LAST_CODE code).set PCI_LAST_CAUSE cause).set PCI_LAST_ADDR addr

theorem pciNote_eq : pciNote code cause addr s = pciIrq code (pciLastSet code cause addr s) := rfl

theorem pciLastSet_regs : RegsBut [PCI_LAST_CODE.addr] s (pciLastSet code cause addr s) :=
  regs_trans (regs_trans (regs_set (by decide)) (regs_set (f := PCI_LAST_CAUSE) (by decide))) (regs_set (f := PCI_LAST_ADDR) (by decide))

theorem pciNote_regs : RegsBut [PCI_LAST_CODE.addr, PCI_IRQ_BAR_REFUSED.addr] s (pciNote code cause addr s) :=
  regs_trans (regs_mono (pciLastSet_regs code cause addr s) (by simp)) (regs_mono (pciIrq_regs code _) (by simp))

variable {code cause} in
theorem pciNote_code (h : code < 2 ^ 16) : (pciNote code cause addr s).get PCI_LAST_CODE = code := by
  rw [pciNote_eq, (pciIrq_regs _ _).get_eq (by decide)]
  unfold pciLastSet
  rw [State.get_set_apart _ _ (by decide) (by decide), State.get_set_apart _ _ (by decide) (by decide),
    State.get_set_self _ _ _ (by decide)]
  exact Nat.mod_eq_of_lt h

variable {code cause} in
theorem pciNote_cause (h : cause < 2 ^ 16) : (pciNote code cause addr s).get PCI_LAST_CAUSE = cause := by
  rw [pciNote_eq, (pciIrq_regs _ _).get_eq (by decide)]
  unfold pciLastSet
  rw [State.get_set_apart _ _ (by decide) (by decide), State.get_set_self _ _ _ (by decide)]
  exact Nat.mod_eq_of_lt h

end

/-! Loads of whole words (R275): where no word is poisoned they carry the bytes of memory. -/

section
variable {s : State} {a n : Nat}

theorem State.bytes_add (s : State) (a m n : Nat) : s.bytes a (m + n) = s.bytes a m ++ s.bytes (a + m) n := by
  simp [State.bytes, List.range_add, Nat.add_assoc]

theorem poisoned_of_anyPoison_false (hn : 0 < n) (h : s.anyPoison a n = false) {i : Nat} (hi : 8 * i < a % 8 + n) :
    s.poisoned (a / 8 * 8 + 8 * i) = false := by
  unfold State.anyPoison at h
  rw [if_neg (by omega), List.any_eq_false] at h
  exact Bool.eq_false_iff.2 (h i (List.mem_range.2 (by omega)))

/-- A load of one word more carries it behind the others. -/
theorem loadData_succ (s : State) (a k : Nat) : loadData s a (8 * (k + 1)) = loadData s a (8 * k) ++
    if s.poisoned (a + 8 * k) then toBytes 8 (errVal cVtPoison) else s.bytes (a + 8 * k) 8 := by
  simp [loadData, List.range_succ]

theorem loadData_eq_bytes (k : Nat) (h : ∀ i < k, s.poisoned (a + 8 * i) = false) : loadData s a (8 * k) = s.bytes a (8 * k) := by
  induction k with
  | zero => rfl
  | succ k ih =>
    rw [loadData_succ, ih (fun i hi => h i (by omega)), h k (by omega), Nat.mul_succ, State.bytes_add, if_neg Bool.false_ne_true]

/-- Cutting a range out of the whole words around it gives its bytes. -/
theorem cutWords_bytes (s : State) (off n : Nat) : cutWords off n (s.bytes (off / 8 * 8) (wordSpan off n)) = s.bytes off n := by
  have hspan : off % 8 + n ≤ wordSpan off n := by unfold wordSpan; omega
  have hstart : off / 8 * 8 + off % 8 = off := Nat.div_add_mod' off 8
  obtain ⟨rest, hrest⟩ := Nat.exists_eq_add_of_le hspan
  rw [hrest, State.bytes_add, State.bytes_add, hstart, cutWords]
  simp [State.bytes]

/-- A load of sound words, cut to its range, gives the bytes of the range. -/
theorem cutWords_loadData (hn : 0 < n) (h : s.anyPoison a n = false) :
    cutWords a n (loadData s (a / 8 * 8) (wordSpan a n)) = s.bytes a n := by
  have hload : loadData s (a / 8 * 8) (wordSpan a n) = s.bytes (a / 8 * 8) (wordSpan a n) :=
    loadData_eq_bytes _ (fun i hi => poisoned_of_anyPoison_false hn h (by omega))
  rw [hload, cutWords_bytes]

/-- An accepted write stores its bytes; the rest of it is accounting. -/
theorem memWrite_keeps_stored (cons : Option Nat) (off : Nat) (bs : List Byte) (s : State) :
    Keeps [.regs, .poison, .hbms] (s.setBytes off bs) (memWrite cons off bs s) := by
  have hstore : Keeps [.regs, .poison, .hbms] (s.setBytes off bs) (storeBytes off bs s) :=
    cleanLines_keeps off bs.length (.refl _ _) (by decide) (by decide)
  have hnote := noteWrite_keeps cons off bs.length hstore (by decide) (by decide)
  exact .ite (dirty_keeps off bs.length hnote (by decide)) hnote

end

/-! BAR4 offsets (R416). -/

section
variable (s : State) (x n : Nat)

/-- BASE counts GiB, so an offset and what it reaches fall on the same byte of a word. -/
theorem bar4Off_mod : bar4Off s x % 8 = x % 8 := by unfold bar4Off; omega

theorem wordSpan_bar4Off : wordSpan (bar4Off s x) n = wordSpan x n := by rw [wordSpan, bar4Off_mod, wordSpan]

theorem cutWords_bar4Off (bs : List Byte) : cutWords (bar4Off s x) n bs = cutWords x n bs := by
  rw [cutWords, bar4Off_mod, cutWords]

/-- The state once a refused access of BAR4 is counted, which HBM does where the port is ready (R298). -/
def bar4Refused (write : Bool) : State := if s.flag PCI_STATUS_READY then noteRefused write (bar4Off s x) n s else s

theorem bar4Refused_keeps (write : Bool) : Keeps [.regs, .pci] s (bar4Refused s x n write) :=
  .ite (noteRefused_keeps write _ n (.refl _ s) (by decide)) (.refl _ s)

end

/-! Reads of BAR4. -/

theorem complete_get (status : Nat) (bs : List Byte) (s : State) (f : Fld) : (complete status bs s).get f = s.get f := rfl

section
variable {s : State} {x n : Nat} (hserved : portServed s = true) (hn : 0 < n) (hsize : x + n ≤ bar4Bytes s)
include hserved hn hsize

/-- A request of a served port that lies inside the BAR is not dropped. -/
theorem bar4_reaches_port : ¬ (!portServed s || decide (n = 0) || decide (bar4Bytes s < x + n)) = true := by
  simp only [hserved, Bool.not_true, Bool.false_or, Bool.or_eq_true, decide_eq_true_eq]
  omega

theorem bar4Read_of_refused (hc : bar4Code s pR x n ≠ 0) :
    bar4Read x n s = complete 0 (cutWords x n (errBytes (bar4Code s pR x n) (wordSpan x n)))
      (pciNote cPciBarRefused (bar4Code s pR x n) (x / 8) (bar4Refused s x n false)) := by
  unfold bar4Read
  rw [if_neg (bar4_reaches_port hserved hn hsize)]
  exact if_pos hc

theorem bar4Read_of_accepted (hc : bar4Code s pR x n = 0) :
    let off := bar4Off s x
    let v := hbmFind off n s
    let t := noteRead none off n v
    bar4Read x n s = complete 0 (cutWords x n (loadData v (off / 8 * 8) (wordSpan x n)))
      (if v.anyPoison off n then pciNote cPciBarRefused cVtPoison (x / 8) t else t) := by
  unfold bar4Read
  rw [if_neg (bar4_reaches_port hserved hn hsize)]
  exact if_neg (not_not.2 hc)

end

theorem does_bar4Read (x : BitVec 36) (n : Fin 4097) (s : State) :
    Does (.bar4Read x n) s [.regs, .poison, .hbms, .pci] (bar4Read x.toNat n s) :=
  .of_keeps rfl rfl (bar4Read_keeps _ _ (.refl _ s) (by decide) (by decide) (by decide) (by decide))

section
variable {s : State} {x : BitVec 36} {n : Fin 4097} (hserved : portServed s = true) (hn : 0 < n.val)
  (hsize : x.toNat + n.val ≤ bar4Bytes s)

include hserved hn hsize

/-- A read of sound words completes with the bytes of HBM, which what it finds leaves as they are (R296). -/
theorem bar4Read_clean (hc : bar4Code s pR x.toNat n = 0)
    (hp : (hbmFind (bar4Off s x.toNat) n s).anyPoison (bar4Off s x.toNat) n = false) :
    ∃ u, Does (.bar4Read x n) s [.regs, .poison, .hbms, .pci] u ∧
      u.pci.cpl = some (0, s.bytes (bar4Off s x.toNat) n) := by
  refine ⟨_, does_bar4Read x n s, ?_⟩
  have hfind : (hbmFind (bar4Off s x.toNat) n s).bytes (bar4Off s x.toNat) n = s.bytes (bar4Off s x.toNat) n :=
    List.map_congr_left fun _ _ => byte_only
      (hbmFind_keeps _ _ (.refl [.regs, .poison, .hbms] s) (by decide) (by decide) (by decide)).only (by decide) _
  have hload := cutWords_loadData hn hp
  rw [wordSpan_bar4Off, cutWords_bar4Off, hfind] at hload
  rw [bar4Read_of_accepted hserved hn hsize hc, complete, hload]

theorem bar4Read_poisoned (hc : bar4Code s pR x.toNat n = 0)
    (hp : (hbmFind (bar4Off s x.toNat) n s).anyPoison (bar4Off s x.toNat) n = true) :
    ∃ u, Does (.bar4Read x n) s [.regs, .poison, .hbms, .pci] u ∧
      u.get PCI_LAST_CODE = cPciBarRefused ∧ u.get PCI_LAST_CAUSE = cVtPoison ∧
      u.pci.cpl = some (0, cutWords x.toNat n
        (loadData (hbmFind (bar4Off s x.toNat) n s) (bar4Off s x.toNat / 8 * 8) (wordSpan x.toNat n))) := by
  refine ⟨_, does_bar4Read x n s, ?_⟩
  rw [bar4Read_of_accepted hserved hn hsize hc, if_pos hp]
  refine ⟨?_, ?_, rfl⟩
  · rw [complete_get, pciNote_code _ _ (by decide)]
  · rw [complete_get, pciNote_cause _ _ (by decide)]

theorem bar4Read_refused (hc : bar4Code s pR x.toNat n ≠ 0) :
    ∃ u, Does (.bar4Read x n) s [.regs, .pci] u ∧ u.get PCI_LAST_CODE = cPciBarRefused ∧
      u.pci.cpl = some (0, cutWords x.toNat n (errBytes (bar4Code s pR x.toNat n) (wordSpan x.toNat n))) := by
  have hnote := pciNote_keeps cPciBarRefused (bar4Code s pR x.toNat n) (x.toNat / 8) (bar4Refused_keeps s x.toNat n false)
    (by decide) (by decide)
  refine ⟨_, .of_keeps rfl (bar4Read_of_refused hserved hn hsize hc) (complete_keeps _ _ hnote (by decide)), ?_, rfl⟩
  rw [complete_get, pciNote_code _ _ (by decide)]

end

/-! Writes of BAR4. -/

/-- A byte of a write that its enables merge into memory: the byte written, or what stood there. -/
theorem byte_setBytes_mergeBytes (s : State) (off : Nat) (bs : List (Option Byte)) {i : Nat} (h : i < bs.length) :
    (s.setBytes off (mergeBytes s off bs)).byte (off + i) = bs[i].getD (s.byte (off + i)) := by
  have hlen : (mergeBytes s off bs).length = bs.length := by simp [mergeBytes]
  rw [State.byte_setBytes, if_pos (by omega), Nat.add_sub_cancel_left, List.getD_eq_getElem _ _ (by omega)]
  simp [mergeBytes]

section
variable {s : State} {x : BitVec 36} {bs : List (Option Byte)} (hserved : portServed s = true) (hbs : bs ≠ [])
  (hsize : x.toNat + bs.length ≤ bar4Bytes s)
include hserved hbs hsize

theorem bar4Write_of_poisoned : bar4Write x.toNat bs true s = pciNote cPciPoison 0 (x.toNat / 8) s := by
  unfold bar4Write
  rw [if_neg (bar4_reaches_port hserved (List.length_pos_of_ne_nil hbs) hsize)]
  rfl

theorem bar4Write_of_refused (hc : bar4Code s pW x.toNat bs.length ≠ 0) : bar4Write x.toNat bs false s =
    pciNote cPciBarRefused (bar4Code s pW x.toNat bs.length) (x.toNat / 8) (bar4Refused s x.toNat bs.length true) := by
  unfold bar4Write
  rw [if_neg (bar4_reaches_port hserved (List.length_pos_of_ne_nil hbs) hsize)]
  exact if_pos hc

/-- An accepted write stores its merged bytes, with all its bytes enabled or not; the rest of it is accounting. -/
theorem bar4Write_keeps_stored (hc : bar4Code s pW x.toNat bs.length = 0) :
    Keeps [.regs, .poison, .hbms] (s.setBytes (bar4Off s x.toNat) (mergeBytes s (bar4Off s x.toNat) bs))
      (bar4Write x.toNat bs false s) := by
  unfold bar4Write
  rw [if_neg (bar4_reaches_port hserved (List.length_pos_of_ne_nil hbs) hsize), if_neg Bool.false_ne_true,
    if_neg (not_not.2 hc)]
  split
  · exact memWrite_keeps_stored ..
  · have hcharge := charge_keeps none (bar4Off s x.toNat) bs.length
      (.refl [.regs, .poison, .hbms] (s.setBytes (bar4Off s x.toNat) (mergeBytes s (bar4Off s x.toNat) bs))) (by decide)
    exact dirty_keeps _ _ (accept_keeps _ _ (State.count_keeps _ _ hcharge (by decide)) (by decide)) (by decide)

theorem bar4Write_stores (hc : bar4Code s pW x.toNat bs.length = 0) :
    ∃ u, Does (.bar4Write x bs false) s [.regs, .mem, .poison, .hbms] u ∧
      (∀ i, (h : i < bs.length) → u.byte (bar4Off s x.toNat + i) = bs[i].getD (s.byte (bar4Off s x.toNat + i))) ∧
      ∀ a, a < bar4Off s x.toNat ∨ bar4Off s x.toNat + bs.length ≤ a → u.byte a = s.byte a := by
  have hstored := (bar4Write_keeps_stored hserved hbs hsize hc).only
  have hset := (State.setBytes_keeps (bar4Off s x.toNat) (mergeBytes s (bar4Off s x.toNat) bs)
    (.refl [.regs, .mem, .poison, .hbms] s) (by decide)).only
  refine ⟨_, ⟨rfl, onlyIn_trans hset hstored (by decide)⟩, fun i hi => ?_, fun a ha => ?_⟩
  · exact (byte_only hstored (by decide) _).trans (byte_setBytes_mergeBytes s _ bs hi)
  · exact (byte_only hstored (by decide) a).trans (State.byte_setBytes_apart s _ _ a (by simpa [mergeBytes] using ha))

theorem bar4Write_discarded {poisoned : Bool} (hd : poisoned = true ∨ bar4Code s pW x.toNat bs.length ≠ 0) :
    ∃ u, Does (.bar4Write x bs poisoned) s [.regs, .pci] u ∧
      u.get PCI_LAST_CODE = (if poisoned = true then cPciPoison else cPciBarRefused) := by
  cases poisoned with
  | true =>
    exact ⟨_, .of_keeps rfl (bar4Write_of_poisoned hserved hbs hsize) (pciNote_keeps _ _ _ (.refl _ s) (by decide) (by decide)),
      pciNote_code _ _ (by decide)⟩
  | false =>
    have hc := hd.resolve_left Bool.false_ne_true
    exact ⟨_, .of_keeps rfl (bar4Write_of_refused hserved hbs hsize hc)
      (pciNote_keeps _ _ _ (bar4Refused_keeps s _ _ true) (by decide) (by decide)), pciNote_code _ _ (by decide)⟩

end

/-! Writes of PCI_BAR4.BASE. -/

section
variable {v : Word} {s : State}

theorem bar4BaseWrite_sets_base (h : PCI_BAR4_BASE.of v % 2 ^ s.get PCI_BAR4_SIZE_LOG2 = 0 ∧
      PCI_BAR4_BASE.of v + 2 ^ s.get PCI_BAR4_SIZE_LOG2 ≤ 512) :
    ∃ u, Does (.bar4BaseWrite v) s [.regs] u ∧ RegsBut [PCI_BAR4_BASE.addr] s u ∧ u.get PCI_BAR4_BASE = PCI_BAR4_BASE.of v ∧
      u.get PCI_BAR4_SIZE_LOG2 = s.get PCI_BAR4_SIZE_LOG2 :=
  ⟨_, .of_keeps rfl (if_pos h) (State.set_keeps _ _ (.refl _ s) (by decide)), regs_set (List.mem_singleton.2 rfl),
    (State.get_set_self s _ _ (by decide)).trans (Nat.mod_eq_of_lt (Fld.of_lt _ v)), State.get_set_apart s _ (by decide) (by decide)⟩

theorem bar4BaseWrite_discarded (h : ¬ (PCI_BAR4_BASE.of v % 2 ^ s.get PCI_BAR4_SIZE_LOG2 = 0 ∧
      PCI_BAR4_BASE.of v + 2 ^ s.get PCI_BAR4_SIZE_LOG2 ≤ 512)) :
    ∃ u, Does (.bar4BaseWrite v) s [.regs, .pci] u ∧ u.get PCI_BAR4_BASE = s.get PCI_BAR4_BASE ∧
      u.get PCI_LAST_CODE = cPciAccess :=
  ⟨_, .of_keeps rfl (if_neg h) (pciNote_keeps _ _ _ (.refl _ s) (by decide) (by decide)),
    (pciNote_regs _ _ _ s).get_eq (by decide), pciNote_code _ s (by decide)⟩

end

/-- Settles O51, from the branch that each access of BAR4 takes and what it completes with or stores. -/
theorem bar4ReachesHbmAtItsBase : Obligations.Bar4ReachesHbmAtItsBase := fun _ =>
  ⟨fun hserved =>
    ⟨fun _ _ hn hsize => ⟨bar4Read_clean hserved hn hsize, bar4Read_poisoned hserved hn hsize, bar4Read_refused hserved hn hsize⟩,
      fun _ _ _ hbs hsize => ⟨fun hp hc => hp ▸ bar4Write_stores hserved hbs hsize hc, bar4Write_discarded hserved hbs hsize⟩⟩,
    fun _ => ⟨fun hmul hend => bar4BaseWrite_sets_base ⟨hmul, hend⟩, bar4BaseWrite_discarded⟩⟩

end Sys2Proof.Machine
